-- ==== Sys2Proof/Word.lean ====
section
/-! DEFINITION. The words of the machine: bytes, 32-bit words, 64-bit registers, and the raw fields of a lane word. -/

namespace Sys2Proof

/-- A byte of any memory (00 R2). -/
abbrev Byte := BitVec 8

/-- A scalar register, an address or a control register (04 R92). -/
abbrev Word := BitVec 64

/-- The fields of a 96-bit lane word (03 R65), but for its opcode and its reserved bit. -/
structure LaneWord where
  /-- word 0 [30:23], first source register -/
  va : BitVec 8
  /-- word 0 [22:15], destination register -/
  vd : BitVec 8
  /-- word 0 [14], guard negate -/
  gneg : BitVec 1
  /-- word 0 [13:11], guard predicate -/
  guard : BitVec 3
  /-- word 0 [10], uniform -/
  u : BitVec 1
  /-- word 1 [31:28], sub-operation -/
  sub : BitVec 4
  /-- word 1 [27:26], operand kind -/
  kind : BitVec 2
  /-- word 1 [25:24], retention hint -/
  hint : BitVec 2
  /-- word 1 [23:20], modifier -/
  md : BitVec 4
  /-- word 1 [19:16], type code -/
  ty : BitVec 4
  /-- word 1 [15:8], third source register -/
  vc : BitVec 8
  /-- word 1 [7:0], second source register -/
  vb : BitVec 8
  /-- word 2, immediate or constant -/
  imm : BitVec 32
  deriving DecidableEq, Repr, Inhabited

end Sys2Proof
end

