-- ==== Sys2Proof/Config.lean ====
section
/-! DEFINITION. What the spec leaves open: constants without a body, so that nothing can be proved of their values. -/

namespace Sys2Proof

/-- The pattern that a lane special function answers for an operand to which 07 R191 gives no exact result: the function (its lane
opcode) and the operand. It is the result where it lies within the function's bound. Every lane pipe of every Tulaha gives the same
bits for one input, so it is a function of them. -/
opaque Config.special : Nat → BitVec 32 → BitVec 32

/-! ## The Polgily controller's build (16 R476, 01 R475) -/

/-- 01 R475: the slots that `n` working stacks leave below the spare. -/
def spareBase (n : Nat) : Nat := 262144 - (262144 + n - 1) / n

/-- The frames that `n` working stacks make: the program-visible ones and the 397 of the device (01 R475, 16 R476). -/
def builtFrames (n : Nat) : Nat := n * spareBase n / 9

/-- The stacks that work. -/
def workingList (w : BitVec 12) : List Nat := (List.range 12).filter fun i => w.getLsbD i

/-- An interleave table as built: half of MIRFRAMES, the class number of a frame, its slot at a position, and a class's stack at a position. -/
structure Boot where
  mirrorPairs : Nat
  cls : Nat → Nat
  slot : Nat → Nat → Nat
  stack : Nat → Nat → Nat

/-- The bounds within which the controller builds the table for some working stacks, of which there are at least nine (16 R387, R391, R476). -/
structure Boot.Ok (b : Boot) (w : BitVec 12) : Prop where
  /-- a class holds working stacks, nine distinct ones -/
  working : 9 ≤ (workingList w).length → ∀ c j, j < 9 → b.stack c j ∈ workingList w
  distinct : 9 ≤ (workingList w).length → ∀ c i j, i < 9 → j < 9 → b.stack c i = b.stack c j → i = j
  /-- the mirrored pairs are program-visible, each of one class -/
  pairs : 9 ≤ (workingList w).length → 2 * b.mirrorPairs + 397 ≤ builtFrames (workingList w).length
  sameClass : ∀ q, q < b.mirrorPairs → b.cls (2 * q + 1) = b.cls (2 * q)
  /-- class numbers, and slots below SPAREBASE -/
  small : 9 ≤ (workingList w).length → ∀ f, f < builtFrames (workingList w).length →
    b.cls f < 256 ∧ ∀ j, j < 9 → b.slot f j < spareBase (workingList w).length
  /-- no (stack, slot) pair serves two frames -/
  unique : 9 ≤ (workingList w).length → ∀ f g i j, i < 9 → j < 9 → b.stack (b.cls f) i = b.stack (b.cls g) j → b.slot f i = b.slot g j → f = g ∧ i = j

/-- A table within the bounds, which shows that there is one: positions dealt to the working stacks in turn. -/
def Boot.dealt (w : BitVec 12) : Boot :=
  let ws := workingList w
  { mirrorPairs := 0, cls := fun f => 9 * f % ws.length, slot := fun f j => (9 * f + j) / ws.length, stack := fun c j => ws.getD ((c + j) % ws.length) 0 }

/-- The working stacks are no more than twelve. -/
theorem workingList_length (w : BitVec 12) : (workingList w).length ≤ 12 := by
  simpa [workingList] using List.length_filter_le (fun i => w.getLsbD i) (List.range 12)

/-- No stack is listed twice. -/
theorem workingList_inj (w : BitVec 12) {i j : Nat} (hi : i < (workingList w).length) (hj : j < (workingList w).length)
    (h : (workingList w).getD i 0 = (workingList w).getD j 0) : i = j := by
  have nd : (workingList w).Nodup := List.Nodup.filter _ List.nodup_range
  rw [List.getD_eq_getElem _ _ hi, List.getD_eq_getElem _ _ hj] at h
  exact (nd.getElem_inj_iff).1 h

/-- The dealt table keeps the bounds. -/
theorem Boot.dealt_ok (w : BitVec 12) : (Boot.dealt w).Ok w := by
  have l12 := workingList_length w
  constructor
  · intro h c j _
    have : (c + j) % (workingList w).length < (workingList w).length := Nat.mod_lt _ (by omega)
    simp only [Boot.dealt, List.getD_eq_getElem _ _ this]
    exact List.getElem_mem _
  · intro h c i j hi hj e
    have e1 := workingList_inj w (Nat.mod_lt _ (by omega)) (Nat.mod_lt _ (by omega)) e
    have e2 : i % (workingList w).length = j % (workingList w).length := Nat.ModEq.add_left_cancel' c e1
    rwa [Nat.mod_eq_of_lt (by omega), Nat.mod_eq_of_lt (by omega)] at e2
  · intro h
    generalize (workingList w).length = n at *
    simp only [Boot.dealt, builtFrames, spareBase]
    interval_cases n <;> decide
  · intro q hq; simp [Boot.dealt] at hq
  · intro h f hf
    generalize hn : (workingList w).length = n at *
    simp only [Boot.dealt, hn]
    refine ⟨lt_of_lt_of_le (Nat.mod_lt _ (by omega)) (by omega), fun j hj => ?_⟩
    rw [Nat.div_lt_iff_lt_mul (by omega)]
    simp only [builtFrames] at hf
    have : 9 * (f + 1) ≤ n * spareBase n := by
      have := (Nat.le_div_iff_mul_le (by norm_num : 0 < 9)).1 (Nat.succ_le_of_lt hf)
      omega
    rw [Nat.mul_comm (spareBase n)]
    omega
  · intro h f g i j hi hj e d
    have e1 := workingList_inj w (Nat.mod_lt _ (by omega)) (Nat.mod_lt _ (by omega)) e
    simp only [Boot.dealt, Nat.mod_add_mod] at e1 d
    have a := Nat.div_add_mod (9 * f + i) (workingList w).length
    have b := Nat.div_add_mod (9 * g + j) (workingList w).length
    rw [e1, d] at a
    omega

/-- The interleave table that the Polgily controller builds for some working stacks, within its bounds; its layout is its own choice (16
R476). The argument in brackets only shows that there is such a table. -/
opaque Config.boot (w : BitVec 12) [Inhabited { b : Boot // b.Ok w }] : { b : Boot // b.Ok w }

/-- The table built, without its bounds. -/
def Config.booted (w : BitVec 12) : Boot := (@Config.boot w ⟨⟨Boot.dealt w, Boot.dealt_ok w⟩⟩).1

/-- The table built keeps the bounds. -/
theorem Config.booted_ok (w : BitVec 12) : (Config.booted w).Ok w := (@Config.boot w ⟨⟨Boot.dealt w, Boot.dealt_ok w⟩⟩).2

/-- What another device's memory, or the host's side of a port, answers to a read: the n-th such answer. -/
opaque Config.outsideRead : Nat → Nat

/-- Does the n-th such answer come as a failure: the read of a record that lies in host memory (14 R341)? -/
opaque Config.hostReadFails : Nat → Bool

/-- The working groups of 8 lane pipes of a core position of this part, of its 16; 0 for a hole (01 R11, R25, R26). -/
opaque Config.pipeGroups : Nat → Nat

/-- The lane pipes of a core position of this part (01 R26, 16 R403). -/
def Config.corePipes (n : Nat) : Nat := 8 * min 16 (Config.pipeGroups n)

/-- Do all four sub-arrays of a core position of this part work (01 R26)? -/
opaque Config.subArraysOk : Nat → Bool

/-- The units of a working stack that do not work at cold reset (01 R475): kind 2 channel, 3 bank (16 R393), then stack, channel,
pseudo-channel, bank group, bank. -/
opaque Config.deadUnits : List (Nat × Nat × Nat × Nat × Nat × Nat)

/-- Does the root port complete AtomicOps (01 R20, 10 R256)? -/
opaque Config.rootAtomics : Bool

/-- Does the peer port serve a second host (01 R20)? -/
opaque Config.peerHost : Bool

/-- The REASON with which the Polgily controller reports a failed device in PGSTAT (01 R10, 19 R453). -/
opaque Config.failReason : BitVec 16

/-- The set of an L1 that a line falls in: physical address / 128 (09 R227). -/
opaque Config.l1Set : Nat → Nat

/-- The set of an L2 slice that a line falls in: physical address / 128 (09 R230). -/
opaque Config.l2Set : Nat → Nat

/-- What the device writes in the parts of a context image whose layout is its own, the team header with its check codes among them: the
n-th such byte (09 R219, R220). -/
opaque Config.imageByte : Nat → BitVec 8

/-- What the device writes in an entry of a task table, whose layout is its own: the n-th such byte (14 R348). -/
opaque Config.taskByte : Nat → BitVec 8

/-- Post-package repairs left in a bank group of this part (16 R401). -/
opaque Config.pprLeft : Nat → Nat

/-- A signed attestation report (19 R454), the n-th produced: its byte at an offset of the buffer. -/
opaque Config.report : Nat → Nat → BitVec 8

/-- Which index triple of its grid the n-th placed cluster of a task takes, of those left (02 R51). -/
opaque Config.indexChoice : Nat → Nat

end Sys2Proof
end

