-- ==== Sys2Proof/Syntax.lean ====
section
/-! DEFINITION. The one inductive of what the machine does: every row of spec/opcode_table.json is a constructor.
The field letters of the scalar and Rennet words are those of the table (03 R58, R76). A lane instruction carries the raw
fields of its 96-bit word but for the opcode (03 R65). An event carries whom it happens to: a stream key is
128 x team + group (group 64 is the sequencer stream), a core is 128 x die + 16 x column + row, a Rennet unit is a device
channel (01 R12). -/

namespace Sys2Proof

/-- One instruction, micro-operation or event of the Tulaha. -/
inductive Instr where
  -- scalar and sequencer words (03 R62, R63)
  /-- Writes the wrapped 64-bit sum of two scalar registers (R114). -/
  | add (b : BitVec 6) (a : BitVec 6) (d : BitVec 6)
  /-- Writes the wrapped 64-bit difference of two scalar registers (R114). -/
  | sub (b : BitVec 6) (a : BitVec 6) (d : BitVec 6)
  /-- Writes the low 64 bits of the product of two scalar registers (R114). -/
  | mul (b : BitVec 6) (a : BitVec 6) (d : BitVec 6)
  /-- Writes the high 64 bits of the signed product (R114). -/
  | mulh (b : BitVec 6) (a : BitVec 6) (d : BitVec 6)
  /-- Writes the high 64 bits of the unsigned product (R114). -/
  | mulhu (b : BitVec 6) (a : BitVec 6) (d : BitVec 6)
  /-- Writes the signed quotient truncated toward zero, with no trap on division by zero (R115). -/
  | div (b : BitVec 6) (a : BitVec 6) (d : BitVec 6)
  /-- Writes the unsigned quotient, with all ones for division by zero (R115). -/
  | divu (b : BitVec 6) (a : BitVec 6) (d : BitVec 6)
  /-- Writes the signed remainder, which takes the sign of the dividend (R115). -/
  | rem (b : BitVec 6) (a : BitVec 6) (d : BitVec 6)
  /-- Writes the unsigned remainder (R115). -/
  | remu (b : BitVec 6) (a : BitVec 6) (d : BitVec 6)
  /-- Writes the bitwise AND of two scalar registers (R114). -/
  | and (b : BitVec 6) (a : BitVec 6) (d : BitVec 6)
  /-- Writes the bitwise OR of two scalar registers (R114). -/
  | or (b : BitVec 6) (a : BitVec 6) (d : BitVec 6)
  /-- Writes the bitwise XOR of two scalar registers (R114). -/
  | xor (b : BitVec 6) (a : BitVec 6) (d : BitVec 6)
  /-- Writes a AND NOT b (R114). -/
  | andn (b : BitVec 6) (a : BitVec 6) (d : BitVec 6)
  /-- Shifts left by the low six bits of the second register (R114). -/
  | shl (b : BitVec 6) (a : BitVec 6) (d : BitVec 6)
  /-- Shifts right logically by the low six bits of the second register (R114). -/
  | shr (b : BitVec 6) (a : BitVec 6) (d : BitVec 6)
  /-- Shifts right arithmetically by the low six bits of the second register (R114). -/
  | sra (b : BitVec 6) (a : BitVec 6) (d : BitVec 6)
  /-- Writes the signed minimum of two scalar registers (R114). -/
  | min (b : BitVec 6) (a : BitVec 6) (d : BitVec 6)
  /-- Writes the unsigned minimum of two scalar registers (R114). -/
  | minu (b : BitVec 6) (a : BitVec 6) (d : BitVec 6)
  /-- Writes the signed maximum of two scalar registers (R114). -/
  | max (b : BitVec 6) (a : BitVec 6) (d : BitVec 6)
  /-- Writes the unsigned maximum of two scalar registers (R114). -/
  | maxu (b : BitVec 6) (a : BitVec 6) (d : BitVec 6)
  /-- Writes 1 when a is less than b as signed values, else 0 (R114). -/
  | slt (b : BitVec 6) (a : BitVec 6) (d : BitVec 6)
  /-- Writes 1 when a is less than b as unsigned values, else 0 (R114). -/
  | sltu (b : BitVec 6) (a : BitVec 6) (d : BitVec 6)
  /-- Writes 1 when the two registers are equal, else 0 (R114). -/
  | seq (b : BitVec 6) (a : BitVec 6) (d : BitVec 6)
  /-- Writes the count of leading zero bits (R114). -/
  | clz (a : BitVec 6) (d : BitVec 6)
  /-- Writes the count of trailing zero bits (R114). -/
  | ctz (a : BitVec 6) (d : BitVec 6)
  /-- Writes the count of one bits (R114). -/
  | popc (a : BitVec 6) (d : BitVec 6)
  /-- Extracts a zero-extended bit field whose position and length come from the second register (R116). -/
  | bfx (b : BitVec 6) (a : BitVec 6) (d : BitVec 6)
  /-- Inserts the low bits of a into a field of the destination (R116). -/
  | bfi (b : BitVec 6) (a : BitVec 6) (d : BitVec 6)
  /-- Adds a sign-extended 13-bit immediate (R117). -/
  | addi (i : BitVec 13) (a : BitVec 6) (d : BitVec 6)
  /-- ANDs with a sign-extended immediate (R117). -/
  | andi (i : BitVec 13) (a : BitVec 6) (d : BitVec 6)
  /-- ORs with a sign-extended immediate (R117). -/
  | ori (i : BitVec 13) (a : BitVec 6) (d : BitVec 6)
  /-- XORs with a sign-extended immediate (R117). -/
  | xori (i : BitVec 13) (a : BitVec 6) (d : BitVec 6)
  /-- Shifts left by an immediate amount of 0 to 63 (R117). -/
  | shli (i : BitVec 6) (a : BitVec 6) (d : BitVec 6)
  /-- Shifts right logically by an immediate amount (R117). -/
  | shri (i : BitVec 6) (a : BitVec 6) (d : BitVec 6)
  /-- Shifts right arithmetically by an immediate amount (R117). -/
  | srai (i : BitVec 6) (a : BitVec 6) (d : BitVec 6)
  /-- Signed set-less-than against an immediate (R117). -/
  | slti (i : BitVec 13) (a : BitVec 6) (d : BitVec 6)
  /-- Unsigned set-less-than against an immediate (R117). -/
  | sltiu (i : BitVec 13) (a : BitVec 6) (d : BitVec 6)
  /-- Writes a sign-extended 19-bit immediate times 8,192 (R118). -/
  | lui (i : BitVec 19) (d : BitVec 6)
  /-- Writes PC plus a sign-extended 19-bit immediate times 8,192 (R118). -/
  | pcaddi (i : BitVec 19) (d : BitVec 6)
  /-- Branches when the two registers are equal (R119). -/
  | beq (i : BitVec 13) (b : BitVec 6) (a : BitVec 6)
  /-- Branches when the two registers are not equal (R119). -/
  | bne (i : BitVec 13) (b : BitVec 6) (a : BitVec 6)
  /-- Branches on signed less than (R119). -/
  | blt (i : BitVec 13) (b : BitVec 6) (a : BitVec 6)
  /-- Branches on signed greater than or equal (R119). -/
  | bge (i : BitVec 13) (b : BitVec 6) (a : BitVec 6)
  /-- Branches on unsigned less than (R119). -/
  | bltu (i : BitVec 13) (b : BitVec 6) (a : BitVec 6)
  /-- Branches on unsigned greater than or equal (R119). -/
  | bgeu (i : BitVec 13) (b : BitVec 6) (a : BitVec 6)
  /-- Writes PC plus 4 as the link and jumps PC-relative (R120). -/
  | jal (i : BitVec 19) (d : BitVec 6)
  /-- Jumps to a register plus immediate and writes the link; a target not a multiple of 4 traps MISALIGN (R120). -/
  | jalr (i : BitVec 13) (a : BitVec 6) (d : BitVec 6)
  /-- Scalar load from global memory, with precise faults held in the operand log (R122). -/
  | ld (o : BitVec 8) (h : BitVec 2) (x : BitVec 1) (z : BitVec 2) (a : BitVec 6) (d : BitVec 6)
  /-- Scalar store into the group's store queue; later faults are imprecise (R122). -/
  | st (o : BitVec 8) (h : BitVec 2) (z : BitVec 2) (a : BitVec 6) (s : BitVec 6)
  /-- Scalar load from the scratchpad or the cluster window (R123). -/
  | lds (o : BitVec 8) (x : BitVec 1) (z : BitVec 2) (a : BitVec 6) (d : BitVec 6)
  /-- Scalar store to the scratchpad or the cluster window (R123). -/
  | sts (o : BitVec 8) (z : BitVec 2) (a : BitVec 6) (s : BitVec 6)
  /-- Scalar atomic read-modify-write at device scope, returning the old value (R253). -/
  | amo (o : BitVec 2) (x : BitVec 1) (z : BitVec 1) (p : BitVec 3) (b : BitVec 6) (a : BitVec 6) (d : BitVec 6)
  /-- Prefetches one line into L2 and L1; never faults (R248). -/
  | pfetch (o : BitVec 8) (h : BitVec 2) (a : BitVec 6)
  /-- Checks a clause header and enqueues the clause with captured s0–s15, raising its flags (R125). -/
  | clause (i : BitVec 19) (a : BitVec 6)
  /-- Stalls the scalar stream until every named flag count is zero (R126). -/
  | waitf (m : BitVec 12)
  /-- Writes a mask of the named flags that are pending (R127). -/
  | testf (m : BitVec 12) (d : BitVec 6)
  /-- Initialises a barrier object's expectations, registration and notify target (R408). -/
  | binit (k : BitVec 1) (b : BitVec 6) (a : BitVec 6) (c : BitVec 6)
  /-- Makes e arrivals on a barrier object and returns the status (R412). -/
  | arrive (e : BitVec 13) (a : BitVec 6) (d : BitVec 6)
  /-- Adds expected bytes to a barrier object, with one arrival unless .tx is given (R412). -/
  | arriveb (t : BitVec 1) (b : BitVec 6) (a : BitVec 6) (d : BitVec 6)
  /-- Waits until a barrier object's phase parity equals t, optionally as a registered waiter (R414). -/
  | waitph (r : BitVec 1) (t : BitVec 1) (a : BitVec 6) (d : BitVec 6)
  /-- Reports a barrier object's phase and whether its parity equals t (R415). -/
  | testph (t : BitVec 1) (a : BitVec 6) (d : BitVec 6)
  /-- Arrives once and lowers EXPARR, and REG with .w (R412). -/
  | bdrop (w : BitVec 1) (a : BitVec 6) (d : BitVec 6)
  /-- Binds or unbinds a tile, swizzle and DARR on a barrier object (R409). -/
  | mbind (b : BitVec 6) (a : BitVec 6)
  /-- Lends, gives or passes a token to another holder, or lends a read share of a shared token (R369). -/
  | tlend (k : BitVec 2) (b : BitVec 6) (a : BitVec 6) (d : BitVec 6)
  /-- Returns a lent token to its lender, or returns a read share with .sh (R371). -/
  | tret (h : BitVec 1) (a : BitVec 6) (d : BitVec 6)
  /-- Halves a token into two buddy tokens (R373). -/
  | tsplit (a : BitVec 6) (d : BitVec 6)
  /-- Joins a token with its buddy (R374). -/
  | tjoin (a : BitVec 6) (d : BitVec 6)
  /-- Makes a held token read-shared with a number of shares (R372). -/
  | tshare (b : BitVec 6) (a : BitVec 6) (d : BitVec 6)
  /-- Reads a token entry, or the token that covers an address, without changing it (R375). -/
  | tquery (x : BitVec 1) (w : BitVec 2) (a : BitVec 6) (d : BitVec 6)
  /-- Privileged reassignment of a stranded token (R376). -/
  | treclaim (c : BitVec 1) (b : BitVec 6) (a : BitVec 6) (d : BitVec 6)
  /-- Drains the streams and takes a speculation checkpoint, or deepens the nesting (R208). -/
  | tryStart (i : BitVec 19) (d : BitVec 6)
  /-- Ends the outermost try, moving buffered stores into the store queue and returning rolled-back lanes (R208). -/
  | commit (d : BitVec 6)
  /-- Aborts the group's try with EXPLICIT and a user code (R208). -/
  | abort (e : BitVec 8)
  /-- Acquire, release or full fence at a named scope (R129). -/
  | fence (k : BitVec 2) (s : BitVec 3)
  /-- Places a join point in the named Ladle, Press or Rennet queues (R131). -/
  | qfence (r : BitVec 1) (p : BitVec 1) (q : BitVec 4)
  /-- Lowers a task's dependence count by e and queues the task for placement when it reaches zero (R133). -/
  | tsig (e : BitVec 13) (a : BitVec 6) (d : BitVec 6)
  /-- Copies a launch record into a task entry with an initial dependence count (R132). -/
  | tlaunch (b : BitVec 6) (a : BitVec 6) (d : BitVec 6)
  /-- Sends a transfer notice to another cluster's kick register, lending one read share (R134). -/
  | kick (b : BitVec 6) (a : BitVec 6) (d : BitVec 6)
  /-- Traps with cause SYSCALL (R137). -/
  | ecall (e : BitVec 19)
  /-- Returns from a trap handler, re-issuing a logged access and resuming both streams (R204). -/
  | xret
  /-- Reads a control register (R135). -/
  | getc (c : BitVec 12) (d : BitVec 6)
  /-- Writes a control register (R135). -/
  | setc (c : BitVec 12) (a : BitVec 6)
  /-- Waits for earlier work, then reads c.chkint (R136). -/
  | chkerr (d : BitVec 6)
  /-- Ends the group once its lane stream is idle, or ends the sequencer stream once its Press work has completed (R138). -/
  | exit
  /-- Does nothing (R139). -/
  | nop
  /-- Traps with cause BREAK (R137). -/
  | brk (e : BitVec 19)
  /-- Makes the scalar stream the last issue choice for 64 opportunities (R139). -/
  | yield
  /-- Invalidates the partition's translations of an address range (R141). -/
  | pginvRange (b : BitVec 6) (a : BitVec 6)
  /-- Invalidates the partition's translations carrying one token id (R141). -/
  | pginvToken (a : BitVec 6)
  /-- Invalidates every translation of the partition (R141). -/
  | pginvAll
  /-- Issues a checked matrix multiply-accumulate into every member's Press queue (R300). -/
  | mma (k : BitVec 1) (c : BitVec 6) (b : BitVec 6) (a : BitVec 6) (y : BitVec 1) (x : BitVec 1) (u : BitVec 1) (z : BitVec 3)
  /-- Queues the clearing of an accumulator tile at every member (R303). -/
  | mzero (z : BitVec 3)
  /-- Issues a checked drain of an accumulator to a destination mould (R304). -/
  | mdrain (c : BitVec 6) (a : BitVec 6) (l : BitVec 1) (z : BitVec 3)
  /-- Sets the cluster's residue check mode (R310). -/
  | mcheckMode (a : BitVec 6)
  /-- Arms one error injection at one member's checked step (R310). -/
  | mcheckInject (b : BitVec 6) (a : BitVec 6)
  /-- Starts the wake of every gated sub-array of every member (R313). -/
  | mwake
  /-- Waits for earlier Press work, then reads and optionally clears a Press counter (R311). -/
  | mstat (l : BitVec 1) (c : BitVec 4) (a : BitVec 6) (d : BitVec 6)
  /-- Checks and installs a near-bank microprogram in a Rennet unit slot (R259). -/
  | nbload (n : BitVec 6) (b : BitVec 6) (a : BitVec 6) (d : BitVec 6)
  /-- Checks a run descriptor and queues a microprogram run, returning a ticket (R260). -/
  | nbrun (b : BitVec 6) (a : BitVec 6) (d : BitVec 6)
  /-- Reads, or waits for, the state of a run ticket (R262). -/
  | nbpoll (e : BitVec 1) (a : BitVec 6) (d : BitVec 6)
  -- lane instructions (03 R71)
  /-- Per-lane integer add, optionally saturating (R147). -/
  | vadd (f : LaneWord)
  /-- Per-lane integer subtract (R147). -/
  | vsub (f : LaneWord)
  /-- Per-lane integer multiply (R147). -/
  | vmul (f : LaneWord)
  /-- Per-lane high half of the integer product (R147). -/
  | vmulh (f : LaneWord)
  /-- Per-lane integer multiply-add (R147). -/
  | vmad (f : LaneWord)
  /-- Long-latency per-lane integer divide (R148). -/
  | vdiv (f : LaneWord)
  /-- Long-latency per-lane integer remainder (R148). -/
  | vrem (f : LaneWord)
  /-- Per-lane integer minimum (R147). -/
  | vmin (f : LaneWord)
  /-- Per-lane integer maximum (R147). -/
  | vmax (f : LaneWord)
  /-- Per-lane absolute value (R147). -/
  | vabs (f : LaneWord)
  /-- Per-lane absolute difference (R147). -/
  | vabsdiff (f : LaneWord)
  /-- Per-lane bitwise AND (R149). -/
  | vand (f : LaneWord)
  /-- Per-lane bitwise OR (R149). -/
  | vor (f : LaneWord)
  /-- Per-lane bitwise XOR (R149). -/
  | vxor (f : LaneWord)
  /-- Per-lane bitwise NOT (R149). -/
  | vnot (f : LaneWord)
  /-- Per-element shift left (R150). -/
  | vshl (f : LaneWord)
  /-- Per-element logical shift right (R150). -/
  | vshr (f : LaneWord)
  /-- Per-element arithmetic shift right (R150). -/
  | vsra (f : LaneWord)
  /-- Per-element rotate left (R150). -/
  | vrot (f : LaneWord)
  /-- Per-element leading-zero count (R151). -/
  | vclz (f : LaneWord)
  /-- Per-element population count (R151). -/
  | vpopc (f : LaneWord)
  /-- Per-lane bit-field extract (R152). -/
  | vbfx (f : LaneWord)
  /-- Per-lane bit-field insert into C (R152). -/
  | vbfi (f : LaneWord)
  /-- Per-lane integer compare into a predicate, optionally combined with it (R153). -/
  | vcmp (f : LaneWord)
  /-- Per-lane select between A and B by a predicate (R154). -/
  | vsel (f : LaneWord)
  /-- Four-way 8-bit dot product accumulated into 32 bits (R155). -/
  | vdp4 (f : LaneWord)
  /-- Per-lane float add, rounded once (R184). -/
  | vfadd (f : LaneWord)
  /-- Per-lane float multiply, rounded once (R184). -/
  | vfmul (f : LaneWord)
  /-- Per-lane fused multiply-add, rounded once (R184). -/
  | vffma (f : LaneWord)
  /-- Per-element float minimum (R186). -/
  | vfmin (f : LaneWord)
  /-- Per-element float maximum (R186). -/
  | vfmax (f : LaneWord)
  /-- Per-lane float compare into a predicate (R187). -/
  | vfcmp (f : LaneWord)
  /-- Long-latency FP32 reciprocal (R191). -/
  | vfrcp (f : LaneWord)
  /-- Long-latency FP32 reciprocal square root (R191). -/
  | vfrsq (f : LaneWord)
  /-- Long-latency correctly rounded square root (R190). -/
  | vfsqrt (f : LaneWord)
  /-- Long-latency FP32 base-2 exponential (R191). -/
  | vfexp2 (f : LaneWord)
  /-- Long-latency FP32 base-2 logarithm (R191). -/
  | vflog2 (f : LaneWord)
  /-- Long-latency FP32 sine (R191). -/
  | vfsin (f : LaneWord)
  /-- Long-latency FP32 cosine (R191). -/
  | vfcos (f : LaneWord)
  /-- Long-latency correctly rounded float divide (R190). -/
  | vfdiv (f : LaneWord)
  /-- Sets predicate bits by float class mask (R188). -/
  | vfclass (f : LaneWord)
  /-- Two-way 16-bit float dot product into FP32 (R185). -/
  | vfdot2 (f : LaneWord)
  /-- Rounds each element to an integral value (R189). -/
  | vfround (f : LaneWord)
  /-- Converts between numeric types element-wise, by insert or by extract (R192). -/
  | vcvt (f : LaneWord)
  /-- Packs eight FP32 values into one BSF4 block with a chosen scale (R194). -/
  | vpackbs (f : LaneWord)
  /-- Unpacks a BSF4 block into eight FP32 values (R196). -/
  | vunpackbs (f : LaneWord)
  /-- Per-lane move of B to vd (R156). -/
  | vmov (f : LaneWord)
  /-- Cross-lane shuffle by index, up, down or xor (R157). -/
  | vshfl (f : LaneWord)
  /-- Long-latency vote over a predicate into a scalar register (R160). -/
  | vvote (f : LaneWord)
  /-- Long-latency reduction over lanes into a scalar register (R160). -/
  | vredsc (f : LaneWord)
  /-- Byte permute from an eight-byte pool (R158). -/
  | vprmt (f : LaneWord)
  /-- Writes each lane's speculation status (R159). -/
  | vspec (f : LaneWord)
  /-- Guarded lane branch within the clause, possibly divergent (R164). -/
  | vbra (f : LaneWord)
  /-- Indexed lane branch by per-lane target slot (R165). -/
  | vbrax (f : LaneWord)
  /-- Pushes a mark entry with a rejoin slot (R167). -/
  | vmark (f : LaneWord)
  /-- Arrives at the rejoin point of the top mark entry (R168). -/
  | vjoin (f : LaneWord)
  /-- Pushes a call entry and enters another clause (R169). -/
  | vcall (f : LaneWord)
  /-- Pops the top call entry and returns (R169). -/
  | vret (f : LaneWord)
  /-- Ends the active lanes (R170). -/
  | vexit (f : LaneWord)
  /-- Places one thread per active lane into a spawn bin (R171). -/
  | vspawn (f : LaneWord)
  /-- Predicate logic operation (R161). -/
  | vkop (f : LaneWord)
  /-- Moves predicates to or from vector data (R162). -/
  | vkmov (f : LaneWord)
  /-- Per-lane global load, carrying poison into registers (R244). -/
  | vld (f : LaneWord)
  /-- Per-lane global store through the store queue (R245). -/
  | vst (f : LaneWord)
  /-- Per-lane scratchpad load, plain or through a mould (R247). -/
  | vlds (f : LaneWord)
  /-- Per-lane scratchpad store, plain or through a mould (R247). -/
  | vsts (f : LaneWord)
  /-- Load that adds the sector to the lane's watch set inside try (R246). -/
  | vldspec (f : LaneWord)
  /-- Per-lane atomic read-modify-write returning the old value (R251). -/
  | vatom (f : LaneWord)
  /-- Per-lane reduction to memory with no returned value (R252). -/
  | vred (f : LaneWord)
  /-- Per-lane prefetch of lines (R248). -/
  | vpf (f : LaneWord)
  /-- Queues a Ladle copy from global memory to scratchpad (R324). -/
  | vcopyIn (f : LaneWord)
  /-- Queues a Ladle copy from scratchpad to global memory (R325). -/
  | vcopyOut (f : LaneWord)
  /-- Queues a multicast copy to several cluster members (R329). -/
  | vcast (f : LaneWord)
  /-- Orders the lane stream's memory accesses at a scope (R249). -/
  | vfence (f : LaneWord)
  /-- Per-lane arrival on a barrier object (R413). -/
  | varrive (f : LaneWord)
  /-- Rolls back the active lanes of a try and switches paths (R211). -/
  | vlabort (f : LaneWord)
  -- Rennet micro-operations (03 R77)
  /-- Opens the DRAM rows of row r for the named streams (R258). -/
  | nrow (m : BitVec 4)
  /-- Loads one sector of a stream row into an accumulator (R258). -/
  | nld (d : BitVec 3) (k : BitVec 3) (s : BitVec 2)
  /-- Stores an accumulator to one sector of a stream row (R258). -/
  | nst (a : BitVec 3) (k : BitVec 3) (s : BitVec 2)
  /-- Element-wise multiply of two accumulators (R258). -/
  | nmul (d : BitVec 3) (a : BitVec 3) (b : BitVec 3) (t : BitVec 4) (s : BitVec 1)
  /-- Element-wise multiply of an accumulator by an immediate (R258). -/
  | nmulImm (d : BitVec 3) (a : BitVec 3) (t : BitVec 4) (s : BitVec 1) (i : BitVec 12)
  /-- Element-wise add of two accumulators (R258). -/
  | nadd (d : BitVec 3) (a : BitVec 3) (b : BitVec 3) (t : BitVec 4) (s : BitVec 1)
  /-- Element-wise add of an immediate (R258). -/
  | naddImm (d : BitVec 3) (a : BitVec 3) (t : BitVec 4) (s : BitVec 1) (i : BitVec 12)
  /-- Element-wise multiply-accumulate, rounded once (R258). -/
  | nmac (d : BitVec 3) (a : BitVec 3) (b : BitVec 3) (t : BitVec 4) (s : BitVec 1)
  /-- Element-wise multiply-accumulate by an immediate (R258). -/
  | nmacImm (d : BitVec 3) (a : BitVec 3) (t : BitVec 4) (s : BitVec 1) (i : BitVec 12)
  /-- Element-wise minimum of two accumulators (R258). -/
  | nmin (d : BitVec 3) (a : BitVec 3) (b : BitVec 3) (t : BitVec 4)
  /-- Element-wise minimum with an immediate (R258). -/
  | nminImm (d : BitVec 3) (a : BitVec 3) (t : BitVec 4) (i : BitVec 12)
  /-- Element-wise maximum of two accumulators (R258). -/
  | nmax (d : BitVec 3) (a : BitVec 3) (b : BitVec 3) (t : BitVec 4)
  /-- Element-wise maximum with an immediate (R258). -/
  | nmaxImm (d : BitVec 3) (a : BitVec 3) (t : BitVec 4) (i : BitVec 12)
  /-- Bitwise XOR of two accumulators (R258). -/
  | nxor (d : BitVec 3) (a : BitVec 3) (b : BitVec 3)
  /-- Bitwise XOR with a repeated sign-extended immediate (R258). -/
  | nxorImm (d : BitVec 3) (a : BitVec 3) (i : BitVec 12)
  /-- Copies one accumulator to another (R258). -/
  | nmov (d : BitVec 3) (a : BitVec 3)
  /-- Broadcasts a converted immediate into an accumulator (R258). -/
  | nmovImm (d : BitVec 3) (t : BitVec 4) (i : BitVec 12)
  /-- Advances the row index and loops while it is below the count (R258). -/
  | nloop (l : BitVec 6)
  /-- Row boundary at which waiting ordinary operations are served (R261). -/
  | nsync
  /-- Ends the microprogram run (R258). -/
  | nend
  /-- Does nothing (R258). -/
  | nnop
  -- events (95)
  /-- A scalar word with an unassigned MOP or fn7, or a lane slot with an unassigned LOP or sub-op (including a zero or poisoned slot), is reached and traps with cause ILLEGAL (R61). -/
  | unassignedEncoding (lane : Bool) (poisoned : Bool)
  /-- An instruction fetch of scalar or lane code finds no mapping or no execute permission and traps with PAGE or PERM, with the fetch address in xpc or xlpc (R64). -/
  | fetchFault (lane : Bool) (cause : Nat) (addr : BitVec 64)
  /-- The lane stream starts the head clause once its wait flags are clear (R37). -/
  | clauseStart (g : Nat)
  /-- A long-latency result lands and its flag count is lowered (R38). -/
  | longLatencyCompletion (g : Nat) (i : Nat)
  /-- The last access of an operand-log entry is performed or lands, and the entry is freed (R202). -/
  | accessCompletion (g : Nat) (e : Nat)
  /-- A queued store leaves the store queue and is performed at its home (R245). -/
  | storePerformed (g : Nat)
  /-- A stream in an engine stall resumes once the awaited drain, room or completion arrives (R422). -/
  | engineStallRelease (g : Nat)
  /-- A stalled waitph is signalled and completes (R414). -/
  | waitphWake (g : Nat)
  /-- A load fault found after issue is taken precisely when it is found (R203). -/
  | postissueLoadFault (g : Nat) (e : Nat)
  /-- A logged store fault is delivered with IMPRECISE set at the next boundary (R203). -/
  | impreciseStoreFault (g : Nat)
  /-- A store fault after exit is delivered to the team's lowest live group or posted (R206). -/
  | postExitStoreFault (g : Nat)
  /-- c.gtime reaches c.gtcmp, giving a TIMER trap or try abort (R98). -/
  | timerEvent (g : Nat)
  /-- A spawn bin's timer expires and the bin launches a group with whatever threads it holds (R45). -/
  | spawnTimerExpiry (team : Nat) (bin : Nat)
  /-- Every group is stalled on vspawn, so the oldest group traps (R46). -/
  | spawnDeadlock (team : Nat)
  /-- A group in try under pre-emption exhausts c.trygrace and aborts with PREEMPT (R214). -/
  | trygraceExpiry (g : Nat)
  /-- The scratchpad save completes, freeing the core and queuing the team for relaunch (R214). -/
  | preemptSaveComplete (team : Nat)
  /-- A team whose groups have all waited longer than c.evthr is evicted (R215). -/
  | waitEviction (cluster : Nat)
  /-- A switched-out team or cluster is restored onto free cores and resumes (R216). -/
  | relaunch (cluster : Nat)
  /-- The scheduler places candidate clusters on free rectangles (R350). -/
  | placementPass (p : Nat)
  /-- The head candidate passes AGE and a rectangle is reserved for it (R352). -/
  | reservation (p : Nat)
  /-- The device reads the record at HEAD of a host work queue and takes it as a task (R341). -/
  | queueRecordTake (q : Nat)
  /-- A write of QTAIL rings the doorbell of a host work queue (R341). -/
  | qtailDoorbell (q : Nat) (v : BitVec 32)
  /-- Configures or enables a host work queue, resetting HEAD when enabling (R339). -/
  | qctlWrite (q : Nat) (v : BitVec 32)
  /-- Configures or enables the partition fault queue (R339). -/
  | pfqctlWrite (p : Nat) (v : BitVec 32)
  /-- Pre-empts the named resident cluster (R353). -/
  | ppreemptCluster (p : Nat) (cluster : Nat)
  /-- Pre-empts every resident cluster of the partition (R353). -/
  | ppreemptAll (p : Nat)
  /-- At a context boundary, a held L2 mode or way-mask change writes back, invalidates and takes effect (R233). -/
  | l2ModeChange
  /-- A held core-map change takes effect once the core is free (R340). -/
  | coreMapChange (core : Nat)
  /-- A register-line cache miss completes with the line fetched from the context image (R223). -/
  | registerLineFill (g : Nat) (line : Nat) (copies : Nat)
  /-- An L2 fill arrives and serves every queued requester (R232). -/
  | l2Fill (line : Nat)
  /-- An unrecoverable storage error poisons the affected sector (R235). -/
  | uncorrectableError (kind : Nat) (unit : Nat) (loc : Nat)
  /-- A stack controller reports a channel or stack unusable, and it is marked lost (R392). -/
  | unitLost (stack : Nat) (chan : Nat)
  /-- Begins dropping a stack (R395). -/
  | trncmdDropStack (v : BitVec 64)
  /-- Begins dropping a channel (R394). -/
  | trncmdDropChannel (v : BitVec 64)
  /-- Begins dropping a bank (R394). -/
  | trncmdDropBank (v : BitVec 64)
  /-- An unknown OP is refused and sets REFUSED (R400). -/
  | trncmdUnknown (v : BitVec 64)
  /-- The Turner moves one code group of a frame in flight and advances its boundary (R397). -/
  | turnerGroupStep (i : Nat)
  /-- The agent re-issues replayed lanes to the new home without a trap (R255). -/
  | replayReissue (unit : Nat)
  /-- Releases a frame so that its slots become spare (R395). -/
  | frmrelWrite (v : BitVec 32)
  /-- Starts post-package repair of a DRAM row (R401). -/
  | pprcmdWrite (v : BitVec 64)
  /-- Post-package repair finishes and STATE becomes done (R401). -/
  | pprComplete (ok : Bool)
  /-- A channel's Brusher scrubs its next row at its paced time (R430). -/
  | brusherRowScrub (chan : Nat) (finding : Nat) (sector : Nat)
  /-- A bank's 3.9 µs refresh interval expires and a refresh is owed (R432). -/
  | refreshDue (bank : Nat)
  /-- A due refresh-management command is issued when the bank closes (R432). -/
  | refreshManagementCommand (bank : Nat)
  /-- A bank at its postponement limit breaks a Ladle burst to refresh (R335). -/
  | burstBreak (core : Nat) (bank : Nat)
  /-- At a PERIOD multiple the core writes one stall sample record (R436). -/
  | sample (core : Nat)
  /-- A member's Press performs an mma once its moulds are full (R301). -/
  | pressMmaPerform (core : Nat)
  /-- A member's Press drains an accumulator once the destination mould is empty (R305). -/
  | pressMdrainPerform (core : Nat)
  /-- A member's Press clears an accumulator tile in queue order (R303). -/
  | pressMzeroPerform (core : Nat)
  /-- A member applies a check mode or arms an injection in queue order (R310). -/
  | pressMcheckPerform (core : Nat)
  /-- The Press retries a refused mould arrival (R301). -/
  | pressReleaseRetry (core : Nat)
  /-- A sub-array's idle count reaches c.pressgate and it is gated (R312). -/
  | subarrayGate (core : Nat) (q : Nat)
  /-- A waking sub-array completes its wake (R313). -/
  | subarrayWakeDone (core : Nat) (q : Nat)
  /-- The Ladle performs one transfer operation of a queue and counts its bytes (R322). -/
  | ladleTransfer (core : Nat) (q : Nat)
  /-- The Ladle retries a count that a barrier object refused (R323). -/
  | ladleCountRetry (core : Nat) (q : Nat)
  /-- The receiving Ladle takes a kick notice and pulls its data (R332). -/
  | kickPull (core : Nat)
  /-- A posted write to the landing aperture is matched, performed and counted (R444). -/
  | landingWrite (o : Nat) (n : Nat) (data : Nat)
  /-- A non-posted request to the aperture completes with Unsupported Request (R444). -/
  | apertureNonposted (o : Nat)
  /-- The peer port retries a held landing count (R420). -/
  | landingCountRetry (w : Nat)
  /-- A host read through window B is translated, checked and performed (R442). -/
  | windowBRead (port : Nat) (p : Nat) (o : Nat) (n : Nat)
  /-- A host write through window B is translated, checked and performed or dropped (R442). -/
  | windowBWrite (port : Nat) (p : Nat) (o : Nat) (n : Nat) (data : Nat)
  /-- A link flit is received, checked and acknowledged or NAKed (R445). -/
  | flitReceive (link : Nat) (header : BitVec 32) (crcOk : Bool) (beats : List Nat)
  /-- The transaction layer re-emits the transactions of a void flit (R446). -/
  | transactionReemit (link : Nat) (queue : Nat) (tag : Nat)
  /-- A link loses lock and goes down, and routing moves to the next link (R447). -/
  | lossOfLock (link : Nat)
  /-- A remote access gets no response within 2 ms and traps REMOTE (R448). -/
  | remoteTimeout (g : Nat) (e : Nat)
  /-- A Rennet unit starts the next queued run (R261). -/
  | runStart (u : Nat)
  /-- After the arbitration window the suspended run resumes (R261). -/
  | runResume (u : Nat)
  /-- Sets DEVNUM and enables the links (R448). -/
  | lnkcfgWrite (v : BitVec 64)
  /-- A host-port write to a register with no row of its own, under its access codes (R4). -/
  | registerWrite (fn : Nat) (off : Nat) (n : Nat) (v : BitVec 64)
  /-- At power-good the device enters stage 0, verifies firmware and builds the interleave table (R450). -/
  | coldReset (working : BitVec 12)
  /-- The device reaches start stage 1 (R450). -/
  | stage1Reached
  /-- The device raises rates and enables every good core (R450). -/
  | stage2Reached
  /-- A write of RSTCTL runs the warm reset sequence (R451). -/
  | warmReset
  /-- A write of PRSTCTL resets one partition (R452). -/
  | partitionReset (p : Nat)
  /-- A Function Level Reset of a partition's function resets that partition (R452). -/
  | functionLevelReset (p : Nat)
  /-- Produces a signed attestation report over a nonce (R454). -/
  | pgcmdAttest
  /-- Opens a session key (R454). -/
  | pgcmdOpenSession
  /-- Erases the session key (R454). -/
  | pgcmdCloseSession
  /-- Verifies and loads a signed firmware image (R454). -/
  | pgcmdLoadFirmware
  /-- An unknown mailbox OP is refused (R453). -/
  | pgcmdUnknown (op : BitVec 8)
  /-- The controller finishes a mailbox command and sets STATE (R453). -/
  | polgilyCommandDone (ok : Bool) (reason : BitVec 16)
  /-- Bridge lanes fail; the rate falls, or the device fails when every lane is lost (R10). -/
  | bridgeLaneFailure (bridge : Nat) (rate : Nat)
  /-- Package power reaches its limit and die clocks are lowered (R22). -/
  | powerLimit (die : Nat) (mhz : Nat)
  /-- A core fails, ending its teams with CTXLOST and stranding their tokens (R379). -/
  | coreFailure (core : Nat)
  deriving DecidableEq, Repr

end Sys2Proof
end

