-- ==== Sys2Proof/Decode.lean ====
section
/-! DEFINITION. The decoder and the encoder: bits to instructions (03 R58 to R78) and back. The decoder rejects by name every
word that 03 R61, R72 step 1 or R78 makes ILLEGAL; the field rules of each lane instruction come from the chapters that
give it (06, 07, 10, 13, 17). -/

namespace Sys2Proof

/-- Why bits are no instruction. -/
inductive Reject where
  /-- an unassigned MOP, fn7, LOP or uop, or a nonzero field that the format reserves (03 R61, R71, R77) -/
  | unassigned
  /-- a field value that the instruction does not accept (03 R61, R66 to R70, R78) -/
  | badField
  /-- too few bytes for a word of this stream -/
  | short
  deriving DecidableEq, Repr

/-! ## Little-endian words -/

/-- The number that bytes hold, the first byte least significant (00 R2). -/
def natOfBytes : List Byte → Nat
  | [] => 0
  | b :: bs => b.toNat + 256 * natOfBytes bs

/-- The `n` bytes of a number, the least significant first (00 R2). -/
def bytesOfNat : Nat → Nat → List Byte
  | 0, _ => []
  | n + 1, x => BitVec.ofNat 8 x :: bytesOfNat n (x / 256)

/-! ## Type codes (03 R66) -/

/-- The width of one element in bits. -/
def tyWidth (ty : BitVec 4) : Nat :=
  match ty.toNat with
  | 0 | 1 | 4 => 32
  | 2 | 3 | 5 => 64
  | 6 | 7 | 13 | 14 => 16
  | 8 | 9 | 11 | 12 => 8
  | _ => 4

/-- The number of elements. -/
def tyCount (ty : BitVec 4) : Nat :=
  match ty.toNat with
  | 0 | 1 | 2 | 3 | 4 | 5 => 1
  | 6 | 7 | 13 | 14 => 2
  | 8 | 9 | 11 | 12 => 4
  | _ => 8

/-- Is the type one of the 64-bit types, which take register pairs? -/
def tyPair (ty : BitVec 4) : Bool := ty = 2#4 || ty = 3#4 || ty = 5#4

/-- Is the type a float type (07 R193)? -/
def tyFloat (ty : BitVec 4) : Bool :=
  ty = 4#4 || ty = 5#4 || ty = 6#4 || ty = 7#4 || ty = 8#4 || ty = 9#4 || ty = 10#4

/-- Are integer elements of this type signed (06 R144)? -/
def tySigned (ty : BitVec 4) : Bool :=
  ty = 1#4 || ty = 3#4 || ty = 11#4 || ty = 13#4 || ty = 15#4

/-! ## Field rules of lane instructions -/

/-- How an instruction uses a register field. -/
inductive FieldUse where
  /-- reserved, must be zero -/
  | rsv
  /-- names vector registers -/
  | vec
  /-- names a predicate in [2:0] (06 R143) -/
  | pred
  /-- names a scalar register in [5:0] -/
  | scal
  deriving DecidableEq, Repr

/-- How an instruction uses its mod field (03 R68). -/
inductive ModUse where
  /-- must be 0 -/
  | zero
  /-- bit 3 saturates, the rest 0 -/
  | sat
  /-- a rounding code, no saturation -/
  | rnd
  /-- a rounding code and the saturate bit -/
  | rndSat
  /-- a predicate combination 0 to 2 -/
  | combine
  /-- bit 3 selects the flag set, the rest 0 -/
  | ll
  /-- bit 3 selects the flag set, the rest a rounding code -/
  | llRnd
  /-- any value: decided by a rule of the instruction's own -/
  | own
  deriving DecidableEq, Repr

/-- What 03 R72 step 1 lets an instruction's fields hold. -/
structure LaneRule where
  kinds : List Nat := [0]
  /-- sources under 03 R67; 4 is a memory instruction, whose vb is a captured index under kind 01 and reserved under 00 -/
  nsrc : Nat := 0
  tys : List Nat := [0]
  subs : List Nat := [0]
  mode : ModUse := .zero
  vd : FieldUse := .rsv
  va : FieldUse := .rsv
  vc : FieldUse := .rsv
  /-- vb when it is neither a source nor a captured scalar -/
  vb : FieldUse := .rsv
  /-- imm32 is a constant of the instruction (03 R69) -/
  immc : Bool := false
  hint : Bool := false
  uOk : Bool := true
  /-- the guard must be `k0` without negate (06 R163) -/
  wholePath : Bool := false

/-- Does a register field obey its use? -/
def fieldUseOk (u : FieldUse) (x : BitVec 8) : Bool :=
  match u with
  | .rsv => x = 0#8
  | .vec => true
  | .pred => x >>> 3 = 0#8
  | .scal => x >>> 6 = 0#8

/-- Does the mod field obey its use? -/
def modUseOk (u : ModUse) (m : BitVec 4) : Bool :=
  let low := m &&& 7#4
  match u with
  | .zero => m = 0#4
  | .sat => low = 0#4
  | .rnd => m.toNat ≤ 4
  | .rndSat => low.toNat ≤ 4
  | .combine => m.toNat ≤ 2
  | .ll => low = 0#4
  | .llRnd => low.toNat ≤ 4
  | .own => true

/-- Does a captured-scalar field hold one of `s0` to `s15` (03 R67)? -/
def capOk (x : BitVec 8) : Bool := x >>> 4 = 0#8

/-- 03 R67: which of va, vb and vc are reserved or captured under the operand kind. -/
def srcFieldsOk (r : LaneRule) (f : LaneWord) : Bool :=
  match r.nsrc, f.kind.toNat with
  | 0, _ => fieldUseOk r.va f.va && fieldUseOk r.vb f.vb && fieldUseOk r.vc f.vc
  | 1, 2 => f.va = 0#8 && f.vb = 0#8 && fieldUseOk r.vc f.vc
  | 1, _ => f.vb = 0#8 && fieldUseOk r.vc f.vc
  | 2, 1 => fieldUseOk r.va f.va && capOk f.vb && fieldUseOk r.vc f.vc
  | 2, 2 => fieldUseOk r.va f.va && f.vb = 0#8 && fieldUseOk r.vc f.vc
  | 2, _ => fieldUseOk r.va f.va && fieldUseOk r.vc f.vc
  | 3, 1 => capOk f.vb
  | 3, 2 => f.vc = 0#8
  | 3, 3 => capOk f.vb && f.vc = 0#8
  | 3, _ => true
  | _, 1 => capOk f.vb && fieldUseOk r.vc f.vc && fieldUseOk r.va f.va
  | _, _ => f.vb = 0#8 && fieldUseOk r.vc f.vc && fieldUseOk r.va f.va

/-- 03 R72 step 1 for one instruction's rule. -/
def LaneRule.ok (r : LaneRule) (f : LaneWord) : Bool :=
  r.kinds.contains f.kind.toNat && r.tys.contains f.ty.toNat && r.subs.contains f.sub.toNat &&
  modUseOk r.mode f.md && (r.hint || f.hint = 0#2) && (r.uOk || f.u = 0#1) &&
  (!r.wholePath || (f.guard = 0#3 && f.gneg = 0#1)) &&
  fieldUseOk r.vd f.vd && srcFieldsOk r f &&
  (r.immc || f.kind.toNat ≥ 2 || f.imm = 0#32)

/-- The integer type set I (06 R144). -/
def tysI : List Nat := [0, 1, 2, 3, 11, 12, 13, 14, 15]

/-- An integer row of 06 R147 to R152. -/
def intRule (nsrc : Nat) (tys : List Nat) (mode : ModUse) : LaneRule :=
  { kinds := if nsrc = 1 then [0, 2] else if nsrc = 2 then [0, 1, 2] else [0, 1, 2, 3], nsrc, tys, mode, vd := .vec, va := .vec }

/-- A float row of 07 R182. -/
def floatRule (nsrc : Nat) (tys : List Nat) (mode : ModUse) : LaneRule := intRule nsrc tys mode

/-- 10 R238: order and scope of a global access; `orders` are the mod[22:20] codes allowed. -/
def orderScopeOk (orders : List Nat) (f : LaneWord) : Bool :=
  let o := (f.md &&& 7#4).toNat
  let sc := (f.imm.extractLsb' 29 3).toNat
  orders.contains o && (if o = 0 then sc = 0 else 1 ≤ sc && sc ≤ 6)

/-- 10 R238: type 1 sign-extends and goes with sizes 0 and 1 only. -/
def loadTypeOk (f : LaneWord) : Bool := f.ty = 0#4 || (f.ty = 1#4 && f.sub.toNat ≤ 1)

/-- 07 R193: the pairs of types that `vcvt` converts, source in sub, destination in type. -/
def cvtPairOk (st dt : BitVec 4) : Bool :=
  st ≠ dt && (tyFloat st || tyFloat dt || (st.toNat ≤ 3 && dt.toNat ≤ 3)) &&
  (tyCount st = tyCount dt || tyCount st = 1 || tyCount dt = 1)

/-- 07 R192: imm32 of `vcvt` names an element below the larger count, or is reserved. -/
def cvtImmOk (f : LaneWord) : Bool :=
  let cs := tyCount f.sub
  let cd := tyCount f.ty
  if cs = cd then f.imm = 0#32 else f.imm.toNat < max cs cd

/-- 07 R193: mod of `vcvt`. -/
def cvtModOk (f : LaneWord) : Bool :=
  if tyFloat f.sub || tyFloat f.ty then (f.md &&& 7#4).toNat ≤ 4 else f.md &&& 7#4 = 0#4

/-- A lane memory row of 10 R238. -/
def memRule (subs : List Nat) (tys : List Nat) (vd vc : FieldUse) (hint : Bool) : LaneRule :=
  { kinds := [0, 1], nsrc := 4, tys, subs, mode := .own, vd, va := .vec, vc, immc := true, hint }

/-- 03 R72 step 1 for a lane instruction, from its own description; true for every other `Instr`. -/
def laneFieldsOk (i : Instr) : Bool :=
  match i with
  | .vadd f | .vsub f | .vmul f | .vabsdiff f => (intRule 2 tysI .sat).ok f
  | .vmulh f | .vmin f | .vmax f => (intRule 2 tysI .zero).ok f
  | .vmad f => (intRule 3 tysI .sat).ok f
  | .vabs f => (intRule 1 [1, 3, 11, 13, 15] .sat).ok f
  | .vdiv f | .vrem f => (intRule 2 [0, 1, 2, 3] .ll).ok f
  | .vand f | .vor f | .vxor f => (intRule 2 [0, 2] .zero).ok f
  | .vnot f => (intRule 1 [0, 2] .zero).ok f
  | .vshl f | .vshr f | .vsra f | .vrot f => (intRule 2 tysI .zero).ok f
  | .vclz f | .vpopc f => (intRule 1 [0, 2, 12, 14] .zero).ok f
  | .vbfx f => (intRule 2 [0, 1, 2, 3] .zero).ok f
  | .vbfi f => (intRule 3 [0, 1, 2, 3] .zero).ok f
  | .vcmp f => { intRule 2 [0, 1, 2, 3] .combine with vd := .pred, subs := [0, 1, 2, 3, 4, 5] : LaneRule }.ok f
  | .vsel f => { intRule 2 [0, 2] .zero with vc := .pred : LaneRule }.ok f
  | .vdp4 f => { intRule 3 [11, 12] .sat with subs := [0, 1] : LaneRule }.ok f
  | .vfadd f | .vfmul f => (floatRule 2 [4, 5, 6, 7] .rndSat).ok f
  | .vffma f => (floatRule 3 [4, 5, 6, 7] .rndSat).ok f
  | .vfmin f | .vfmax f => (floatRule 2 [4, 5, 6, 7] .zero).ok f
  | .vfcmp f => { floatRule 2 [4, 5] .combine with vd := .pred, subs := [0, 1, 2, 3, 4, 5, 6, 7] : LaneRule }.ok f
  | .vfrcp f | .vfrsq f | .vfexp2 f | .vflog2 f | .vfsin f | .vfcos f => (floatRule 1 [4] .ll).ok f
  | .vfsqrt f => (floatRule 1 [4, 5] .llRnd).ok f
  | .vfdiv f => (floatRule 2 [4, 5] .llRnd).ok f
  | .vfclass f =>
    { kinds := [0], nsrc := 1, tys := [4, 5], vd := .pred, va := .vec, immc := true : LaneRule }.ok f && f.imm >>> 10 = 0#32
  | .vfdot2 f => (floatRule 3 [6, 7] .rndSat).ok f
  | .vfround f => (floatRule 1 [4, 5, 6, 7] .rnd).ok f
  | .vcvt f =>
    { kinds := [0], nsrc := 1, tys := List.range 16, subs := List.range 16, mode := .own, vd := .vec, va := .vec, immc := true : LaneRule }.ok f &&
    cvtPairOk f.sub f.ty && cvtImmOk f && cvtModOk f
  | .vpackbs f =>
    if f.sub = 2#4 then { intRule 3 [10] .rnd with subs := [2] : LaneRule }.ok f
    else { intRule 2 [10] .rnd with subs := [0, 1] : LaneRule }.ok f
  | .vunpackbs f => (floatRule 2 [10] .rnd).ok f
  | .vmov f => { intRule 2 [0, 2] .zero with va := .rsv : LaneRule }.ok f
  | .vshfl f => { intRule 2 [0, 2] .zero with vc := .pred, subs := [0, 1, 2, 3] : LaneRule }.ok f
  | .vvote f => { mode := .ll, subs := [0, 1, 2, 3], vd := .scal, va := .pred : LaneRule }.ok f
  | .vredsc f => { mode := .ll, tys := [0, 1, 2, 3], subs := [0, 1, 2, 3, 4, 5], vd := .scal, va := .vec : LaneRule }.ok f
  | .vprmt f => (intRule 3 [0] .zero).ok f
  | .vspec f => { vd := .vec : LaneRule }.ok f
  | .vbra f => { uOk := false, immc := true : LaneRule }.ok f && f.imm >>> 5 = 0#32
  | .vbrax f => { uOk := false, va := .vec : LaneRule }.ok f
  | .vmark f => { uOk := false, immc := true, wholePath := true : LaneRule }.ok f && f.imm >>> 5 = 0#32
  | .vjoin f | .vret f => { uOk := false, wholePath := true : LaneRule }.ok f
  | .vcall f => { uOk := false, kinds := [1], nsrc := 4, immc := true, wholePath := true : LaneRule }.ok f
  | .vexit f => { uOk := false : LaneRule }.ok f
  | .vspawn f => { uOk := false, kinds := [1], nsrc := 4, va := .vec, immc := true : LaneRule }.ok f
  | .vkop f =>
    if f.sub.toNat ≤ 4 then { subs := [0, 1, 2, 3, 4], vd := .pred, va := .pred, vb := .pred : LaneRule }.ok f
    else { subs := [5, 6], vd := .pred, va := .pred : LaneRule }.ok f
  | .vkmov f =>
    if f.sub = 0#4 then { vd := .vec, va := .pred : LaneRule }.ok f
    else { intRule 2 [0] .zero with subs := [1], vd := .pred, va := .rsv : LaneRule }.ok f
  | .vld f => (memRule [0, 1, 2, 3, 4] [0, 1] .vec .rsv true).ok f && loadTypeOk f && orderScopeOk [0, 1] f
  | .vst f => (memRule [0, 1, 2, 3, 4] [0] .rsv .vec true).ok f && orderScopeOk [0, 2] f
  | .vlds f =>
    (memRule [0, 1, 2, 3, 4] [0, 1] .vec .rsv false).ok f && loadTypeOk f && (f.md &&& 6#4 = 0#4) &&
    (f.md &&& 1#4 = 0#4 || f.kind = 1#2)
  | .vsts f =>
    (memRule [0, 1, 2, 3, 4] [0] .rsv .vec false).ok f && (f.md &&& 6#4 = 0#4) && (f.md &&& 1#4 = 0#4 || f.kind = 1#2)
  | .vldspec f => (memRule [0, 1, 2, 3, 4] [0, 1] .vec .rsv true).ok f && loadTypeOk f && orderScopeOk [0] f
  | .vatom f =>
    (memRule [0, 1, 2, 3, 4, 5, 6, 7] [0, 1, 2, 3, 4] .vec .vec true).ok f &&
    (f.sub.toNat ≤ 2 || f.ty = 0#4 || f.ty = 2#4) && orderScopeOk [0, 1, 2, 3] f
  | .vred f =>
    (memRule [0, 1, 2, 3, 4, 5] [0, 1, 2, 3, 4] .rsv .vec true).ok f &&
    (f.sub.toNat ≤ 2 || f.ty = 0#4 || f.ty = 2#4) && orderScopeOk [0, 2] f
  | .vpf f => (memRule [0] [0] .rsv .rsv true).ok f && orderScopeOk [0] f
  | .vcopyIn f =>
    (memRule [2, 3, 4] [0] .rsv .vec true).ok f && f.imm >>> 15 = 0#32
  | .vcopyOut f =>
    { memRule [2, 3, 4, 10, 11, 12] [0] .vec .vec true with vd := .pred : LaneRule }.ok f &&
    (2 ≤ f.vd.toNat && f.vd.toNat ≤ 6) && f.imm >>> 30 = 0#32 &&
    (f.sub.toNat ≥ 8 || (f.imm >>> 15 = 0#32 && f.md &&& 4#4 = 0#4))
  | .vcast f => (memRule [2, 3, 4] [0] .rsv .vec true).ok f && f.imm >>> 27 = 0#32
  | .vfence f =>
    { subs := [1, 2, 3], mode := .ll, immc := true : LaneRule }.ok f && (1 ≤ f.imm.toNat && f.imm.toNat ≤ 6)
  | .varrive f =>
    { memRule [0, 1] [0] .vec (if f.sub = 1#4 then .vec else .rsv) false with mode := .ll : LaneRule }.ok f
  | .vlabort f => { uOk := false, mode := .ll, immc := true : LaneRule }.ok f && f.imm >>> 8 = 0#32
  | _ => true

/-- Field values that a scalar word may not hold though its format has room for them (03 R61, R62; 05 R121, R129, R131;
10 R253; 12 R311; 15 R369, R375). -/
def scalarFieldsOk (i : Instr) : Bool :=
  match i with
  | .ld _ _ x z _ _ => !(x = 1#1 && z = 3#2)
  | .lds _ x z _ _ => !(x = 1#1 && z = 3#2)
  | .amo _ x z p _ _ _ => !(x = 1#1 && z = 1#1) || p = 1#3 || p = 2#3
  | .fence k sc => k ≠ 0#2 && sc ≠ 0#3 && sc ≠ 7#3
  | .qfence r p q => !(r = 0#1 && p = 0#1 && q = 0#4)
  | .tlend k _ _ _ => k ≠ 3#2
  | .tquery _ w _ _ => w ≠ 3#2
  | .mstat _ c _ _ => c.toNat ≤ 7
  | _ => true

/-- The types a micro-operation computes on (10 R258): `n32`, `s32`, `f32`, `bf16x2`. -/
def microTypeOk (t : BitVec 4) : Bool := t = 0#4 || t = 1#4 || t = 4#4 || t = 6#4

/-- The saturate bit goes with `n32` and `s32` only (10 R258). -/
def microSatOk (t : BitVec 4) (s : BitVec 1) : Bool := s = 0#1 || t = 0#4 || t = 1#4

/-- 03 R78: field values of micro-operations. -/
def microFieldsOk (i : Instr) : Bool :=
  match i with
  | .nmul _ _ _ t s | .nadd _ _ _ t s | .nmac _ _ _ t s => microTypeOk t && microSatOk t s
  | .nmulImm _ _ t s _ | .naddImm _ _ t s _ | .nmacImm _ _ t s _ => microTypeOk t && microSatOk t s
  | .nmin _ _ _ t | .nmax _ _ _ t => microTypeOk t
  | .nminImm _ _ t _ | .nmaxImm _ _ t _ => microTypeOk t
  | .nmovImm _ t _ => microTypeOk t
  | _ => true

/-- An instruction whose fields the device accepts. Events have no word and are always accepted. -/
def fieldsOk (i : Instr) : Bool := scalarFieldsOk i && laneFieldsOk i && microFieldsOk i

/-! ## Words -/

/-- The `n` bits of `w` from bit `lo` up. -/
def field {k : Nat} (w : BitVec k) (lo n : Nat) : BitVec n := BitVec.ofNat n (w.toNat / 2 ^ lo)

/-- Fields laid side by side, each a width and a value, the first in the lowest bits. -/
def catFields : List (Nat × Nat) → Nat
  | [] => 0
  | (n, x) :: r => x + 2 ^ n * catFields r

/-- A 32-bit word of fields, the lowest first. -/
def word32 (l : List (Nat × Nat)) : BitVec 32 := BitVec.ofNat 32 (catFields l)

/-- The scalar word with this MOP (03 R62, R63); `none` is an unassigned MOP or fn7 or a nonzero reserved field (R61). -/
def unpackMop (mop : Nat) (w : BitVec 32) : Option Instr :=
  match mop with
  | 0x01 =>
    match (field w 25 7).toNat with
    | 0x00 => some (.add (field w 19 6) (field w 13 6) (field w 7 6))
    | 0x01 => some (.sub (field w 19 6) (field w 13 6) (field w 7 6))
    | 0x02 => some (.mul (field w 19 6) (field w 13 6) (field w 7 6))
    | 0x03 => some (.mulh (field w 19 6) (field w 13 6) (field w 7 6))
    | 0x04 => some (.mulhu (field w 19 6) (field w 13 6) (field w 7 6))
    | 0x05 => some (.div (field w 19 6) (field w 13 6) (field w 7 6))
    | 0x06 => some (.divu (field w 19 6) (field w 13 6) (field w 7 6))
    | 0x07 => some (.rem (field w 19 6) (field w 13 6) (field w 7 6))
    | 0x08 => some (.remu (field w 19 6) (field w 13 6) (field w 7 6))
    | 0x09 => some (.and (field w 19 6) (field w 13 6) (field w 7 6))
    | 0x0A => some (.or (field w 19 6) (field w 13 6) (field w 7 6))
    | 0x0B => some (.xor (field w 19 6) (field w 13 6) (field w 7 6))
    | 0x0C => some (.andn (field w 19 6) (field w 13 6) (field w 7 6))
    | 0x0D => some (.shl (field w 19 6) (field w 13 6) (field w 7 6))
    | 0x0E => some (.shr (field w 19 6) (field w 13 6) (field w 7 6))
    | 0x0F => some (.sra (field w 19 6) (field w 13 6) (field w 7 6))
    | 0x10 => some (.min (field w 19 6) (field w 13 6) (field w 7 6))
    | 0x11 => some (.minu (field w 19 6) (field w 13 6) (field w 7 6))
    | 0x12 => some (.max (field w 19 6) (field w 13 6) (field w 7 6))
    | 0x13 => some (.maxu (field w 19 6) (field w 13 6) (field w 7 6))
    | 0x14 => some (.slt (field w 19 6) (field w 13 6) (field w 7 6))
    | 0x15 => some (.sltu (field w 19 6) (field w 13 6) (field w 7 6))
    | 0x16 => some (.seq (field w 19 6) (field w 13 6) (field w 7 6))
    | 0x18 => if (field w 19 6).toNat = 0 then some (.clz (field w 13 6) (field w 7 6)) else none
    | 0x19 => if (field w 19 6).toNat = 0 then some (.ctz (field w 13 6) (field w 7 6)) else none
    | 0x1A => if (field w 19 6).toNat = 0 then some (.popc (field w 13 6) (field w 7 6)) else none
    | 0x1B => some (.bfx (field w 19 6) (field w 13 6) (field w 7 6))
    | 0x1C => some (.bfi (field w 19 6) (field w 13 6) (field w 7 6))
    | _ => none
  | 0x02 => some (.addi (field w 19 13) (field w 13 6) (field w 7 6))
  | 0x03 => some (.andi (field w 19 13) (field w 13 6) (field w 7 6))
  | 0x04 => some (.ori (field w 19 13) (field w 13 6) (field w 7 6))
  | 0x05 => some (.xori (field w 19 13) (field w 13 6) (field w 7 6))
  | 0x06 => if (field w 25 7).toNat = 0 then some (.shli (field w 19 6) (field w 13 6) (field w 7 6)) else none
  | 0x07 => if (field w 25 7).toNat = 0 then some (.shri (field w 19 6) (field w 13 6) (field w 7 6)) else none
  | 0x08 => if (field w 25 7).toNat = 0 then some (.srai (field w 19 6) (field w 13 6) (field w 7 6)) else none
  | 0x09 => some (.slti (field w 19 13) (field w 13 6) (field w 7 6))
  | 0x0A => some (.sltiu (field w 19 13) (field w 13 6) (field w 7 6))
  | 0x0B => some (.lui (field w 13 19) (field w 7 6))
  | 0x0C => some (.pcaddi (field w 13 19) (field w 7 6))
  | 0x10 => some (.beq (field w 19 13) (field w 13 6) (field w 7 6))
  | 0x11 => some (.bne (field w 19 13) (field w 13 6) (field w 7 6))
  | 0x12 => some (.blt (field w 19 13) (field w 13 6) (field w 7 6))
  | 0x13 => some (.bge (field w 19 13) (field w 13 6) (field w 7 6))
  | 0x14 => some (.bltu (field w 19 13) (field w 13 6) (field w 7 6))
  | 0x15 => some (.bgeu (field w 19 13) (field w 13 6) (field w 7 6))
  | 0x16 => some (.jal (field w 13 19) (field w 7 6))
  | 0x17 => some (.jalr (field w 19 13) (field w 13 6) (field w 7 6))
  | 0x18 => some (.ld (field w 24 8) (field w 22 2) (field w 21 1) (field w 19 2) (field w 13 6) (field w 7 6))
  | 0x19 => if (field w 21 1).toNat = 0 then some (.st (field w 24 8) (field w 22 2) (field w 19 2) (field w 13 6) (field w 7 6)) else none
  | 0x1A => if (field w 22 2).toNat = 0 then some (.lds (field w 24 8) (field w 21 1) (field w 19 2) (field w 13 6) (field w 7 6)) else none
  | 0x1B => if (field w 21 3).toNat = 0 then some (.sts (field w 24 8) (field w 19 2) (field w 13 6) (field w 7 6)) else none
  | 0x1C => some (.amo (field w 30 2) (field w 29 1) (field w 28 1) (field w 25 3) (field w 19 6) (field w 13 6) (field w 7 6))
  | 0x1D => if (field w 7 6).toNat = 0 ∧ (field w 19 3).toNat = 3 then some (.pfetch (field w 24 8) (field w 22 2) (field w 13 6)) else none
  | 0x20 => some (.clause (field w 13 19) (field w 7 6))
  | 0x21 => if (field w 7 6).toNat = 0 ∧ (field w 25 7).toNat = 0 then some (.waitf (field w 13 12)) else none
  | 0x22 => if (field w 25 7).toNat = 0 then some (.testf (field w 13 12) (field w 7 6)) else none
  | 0x24 => if (field w 26 6).toNat = 0 then some (.binit (field w 25 1) (field w 19 6) (field w 13 6) (field w 7 6)) else none
  | 0x25 => some (.arrive (field w 19 13) (field w 13 6) (field w 7 6))
  | 0x26 => if (field w 26 6).toNat = 0 then some (.arriveb (field w 25 1) (field w 19 6) (field w 13 6) (field w 7 6)) else none
  | 0x27 => if (field w 21 11).toNat = 0 then some (.waitph (field w 20 1) (field w 19 1) (field w 13 6) (field w 7 6)) else none
  | 0x28 => if (field w 20 12).toNat = 0 then some (.testph (field w 19 1) (field w 13 6) (field w 7 6)) else none
  | 0x29 => if (field w 20 12).toNat = 0 then some (.bdrop (field w 19 1) (field w 13 6) (field w 7 6)) else none
  | 0x2A => if (field w 7 6).toNat = 0 ∧ (field w 25 7).toNat = 0 then some (.mbind (field w 19 6) (field w 13 6)) else none
  | 0x2C => if (field w 27 5).toNat = 0 then some (.tlend (field w 25 2) (field w 19 6) (field w 13 6) (field w 7 6)) else none
  | 0x2D => if (field w 20 12).toNat = 0 then some (.tret (field w 19 1) (field w 13 6) (field w 7 6)) else none
  | 0x2E => if (field w 19 13).toNat = 0 then some (.tsplit (field w 13 6) (field w 7 6)) else none
  | 0x2F => if (field w 19 13).toNat = 0 then some (.tjoin (field w 13 6) (field w 7 6)) else none
  | 0x30 => if (field w 25 7).toNat = 0 then some (.tshare (field w 19 6) (field w 13 6) (field w 7 6)) else none
  | 0x31 => if (field w 22 10).toNat = 0 then some (.tquery (field w 21 1) (field w 19 2) (field w 13 6) (field w 7 6)) else none
  | 0x32 => if (field w 26 6).toNat = 0 then some (.treclaim (field w 25 1) (field w 19 6) (field w 13 6) (field w 7 6)) else none
  | 0x34 => some (.tryStart (field w 13 19) (field w 7 6))
  | 0x35 => if (field w 13 19).toNat = 0 then some (.commit (field w 7 6)) else none
  | 0x36 => if (field w 7 6).toNat = 0 ∧ (field w 21 11).toNat = 0 then some (.abort (field w 13 8)) else none
  | 0x38 => if (field w 7 6).toNat = 0 ∧ (field w 18 14).toNat = 0 then some (.fence (field w 16 2) (field w 13 3)) else none
  | 0x39 => if (field w 7 6).toNat = 0 ∧ (field w 19 13).toNat = 0 then some (.qfence (field w 18 1) (field w 17 1) (field w 13 4)) else none
  | 0x3A => some (.tsig (field w 19 13) (field w 13 6) (field w 7 6))
  | 0x3B => if (field w 25 7).toNat = 0 then some (.tlaunch (field w 19 6) (field w 13 6) (field w 7 6)) else none
  | 0x3C => if (field w 25 7).toNat = 0 then some (.kick (field w 19 6) (field w 13 6) (field w 7 6)) else none
  | 0x40 => if (field w 7 6).toNat = 0 then some (.ecall (field w 13 19)) else none
  | 0x41 => if (field w 7 25).toNat = 0 then some (.xret) else none
  | 0x42 => if (field w 25 7).toNat = 0 then some (.getc (field w 13 12) (field w 7 6)) else none
  | 0x43 => if (field w 7 6).toNat = 0 ∧ (field w 31 1).toNat = 0 then some (.setc (field w 19 12) (field w 13 6)) else none
  | 0x44 => if (field w 13 19).toNat = 0 then some (.chkerr (field w 7 6)) else none
  | 0x45 => if (field w 7 25).toNat = 0 then some (.exit) else none
  | 0x46 => if (field w 7 25).toNat = 0 then some (.nop) else none
  | 0x47 => if (field w 7 6).toNat = 0 then some (.brk (field w 13 19)) else none
  | 0x48 => if (field w 7 25).toNat = 0 then some (.yield) else none
  | 0x49 =>
    match (field w 25 7).toNat with
    | 0x00 => if (field w 7 6).toNat = 0 then some (.pginvRange (field w 19 6) (field w 13 6)) else none
    | 0x01 => if (field w 7 6).toNat = 0 ∧ (field w 19 6).toNat = 0 then some (.pginvToken (field w 13 6)) else none
    | 0x02 => if (field w 7 18).toNat = 0 then some (.pginvAll) else none
    | _ => none
  | 0x50 => some (.mma (field w 31 1) (field w 25 6) (field w 19 6) (field w 13 6) (field w 12 1) (field w 11 1) (field w 10 1) (field w 7 3))
  | 0x51 => if (field w 10 22).toNat = 0 then some (.mzero (field w 7 3)) else none
  | 0x52 => if (field w 11 2).toNat = 0 ∧ (field w 19 6).toNat = 0 ∧ (field w 31 1).toNat = 0 then some (.mdrain (field w 25 6) (field w 13 6) (field w 10 1) (field w 7 3)) else none
  | 0x53 =>
    match (field w 25 7).toNat with
    | 0x00 => if (field w 7 6).toNat = 0 ∧ (field w 19 6).toNat = 0 then some (.mcheckMode (field w 13 6)) else none
    | 0x01 => if (field w 7 6).toNat = 0 then some (.mcheckInject (field w 19 6) (field w 13 6)) else none
    | _ => none
  | 0x54 => if (field w 7 25).toNat = 0 then some (.mwake) else none
  | 0x55 => if (field w 24 8).toNat = 0 then some (.mstat (field w 23 1) (field w 19 4) (field w 13 6) (field w 7 6)) else none
  | 0x58 => if (field w 31 1).toNat = 0 then some (.nbload (field w 25 6) (field w 19 6) (field w 13 6) (field w 7 6)) else none
  | 0x59 => if (field w 25 7).toNat = 0 then some (.nbrun (field w 19 6) (field w 13 6) (field w 7 6)) else none
  | 0x5A => if (field w 20 12).toNat = 0 then some (.nbpoll (field w 19 1) (field w 13 6) (field w 7 6)) else none
  | _ => none

/-- The fields of a scalar word, read by its MOP. -/
def unpackScalar (w : BitVec 32) : Option Instr := unpackMop (field w 0 7).toNat w

/-- The 32-bit word of a scalar instruction, its fields laid out as 03 R58 draws them; 0, which is no instruction, for every other `Instr`. -/
def encodeScalar : Instr → BitVec 32
  | .add b a d => word32 [(7, 0x1), (6, d.toNat), (6, a.toNat), (6, b.toNat), (7, 0x0)]
  | .sub b a d => word32 [(7, 0x1), (6, d.toNat), (6, a.toNat), (6, b.toNat), (7, 0x1)]
  | .mul b a d => word32 [(7, 0x1), (6, d.toNat), (6, a.toNat), (6, b.toNat), (7, 0x2)]
  | .mulh b a d => word32 [(7, 0x1), (6, d.toNat), (6, a.toNat), (6, b.toNat), (7, 0x3)]
  | .mulhu b a d => word32 [(7, 0x1), (6, d.toNat), (6, a.toNat), (6, b.toNat), (7, 0x4)]
  | .div b a d => word32 [(7, 0x1), (6, d.toNat), (6, a.toNat), (6, b.toNat), (7, 0x5)]
  | .divu b a d => word32 [(7, 0x1), (6, d.toNat), (6, a.toNat), (6, b.toNat), (7, 0x6)]
  | .rem b a d => word32 [(7, 0x1), (6, d.toNat), (6, a.toNat), (6, b.toNat), (7, 0x7)]
  | .remu b a d => word32 [(7, 0x1), (6, d.toNat), (6, a.toNat), (6, b.toNat), (7, 0x8)]
  | .and b a d => word32 [(7, 0x1), (6, d.toNat), (6, a.toNat), (6, b.toNat), (7, 0x9)]
  | .or b a d => word32 [(7, 0x1), (6, d.toNat), (6, a.toNat), (6, b.toNat), (7, 0xA)]
  | .xor b a d => word32 [(7, 0x1), (6, d.toNat), (6, a.toNat), (6, b.toNat), (7, 0xB)]
  | .andn b a d => word32 [(7, 0x1), (6, d.toNat), (6, a.toNat), (6, b.toNat), (7, 0xC)]
  | .shl b a d => word32 [(7, 0x1), (6, d.toNat), (6, a.toNat), (6, b.toNat), (7, 0xD)]
  | .shr b a d => word32 [(7, 0x1), (6, d.toNat), (6, a.toNat), (6, b.toNat), (7, 0xE)]
  | .sra b a d => word32 [(7, 0x1), (6, d.toNat), (6, a.toNat), (6, b.toNat), (7, 0xF)]
  | .min b a d => word32 [(7, 0x1), (6, d.toNat), (6, a.toNat), (6, b.toNat), (7, 0x10)]
  | .minu b a d => word32 [(7, 0x1), (6, d.toNat), (6, a.toNat), (6, b.toNat), (7, 0x11)]
  | .max b a d => word32 [(7, 0x1), (6, d.toNat), (6, a.toNat), (6, b.toNat), (7, 0x12)]
  | .maxu b a d => word32 [(7, 0x1), (6, d.toNat), (6, a.toNat), (6, b.toNat), (7, 0x13)]
  | .slt b a d => word32 [(7, 0x1), (6, d.toNat), (6, a.toNat), (6, b.toNat), (7, 0x14)]
  | .sltu b a d => word32 [(7, 0x1), (6, d.toNat), (6, a.toNat), (6, b.toNat), (7, 0x15)]
  | .seq b a d => word32 [(7, 0x1), (6, d.toNat), (6, a.toNat), (6, b.toNat), (7, 0x16)]
  | .clz a d => word32 [(7, 0x1), (6, d.toNat), (6, a.toNat), (13, 0x600)]
  | .ctz a d => word32 [(7, 0x1), (6, d.toNat), (6, a.toNat), (13, 0x640)]
  | .popc a d => word32 [(7, 0x1), (6, d.toNat), (6, a.toNat), (13, 0x680)]
  | .bfx b a d => word32 [(7, 0x1), (6, d.toNat), (6, a.toNat), (6, b.toNat), (7, 0x1B)]
  | .bfi b a d => word32 [(7, 0x1), (6, d.toNat), (6, a.toNat), (6, b.toNat), (7, 0x1C)]
  | .addi i a d => word32 [(7, 0x2), (6, d.toNat), (6, a.toNat), (13, i.toNat)]
  | .andi i a d => word32 [(7, 0x3), (6, d.toNat), (6, a.toNat), (13, i.toNat)]
  | .ori i a d => word32 [(7, 0x4), (6, d.toNat), (6, a.toNat), (13, i.toNat)]
  | .xori i a d => word32 [(7, 0x5), (6, d.toNat), (6, a.toNat), (13, i.toNat)]
  | .shli i a d => word32 [(7, 0x6), (6, d.toNat), (6, a.toNat), (6, i.toNat), (7, 0x0)]
  | .shri i a d => word32 [(7, 0x7), (6, d.toNat), (6, a.toNat), (6, i.toNat), (7, 0x0)]
  | .srai i a d => word32 [(7, 0x8), (6, d.toNat), (6, a.toNat), (6, i.toNat), (7, 0x0)]
  | .slti i a d => word32 [(7, 0x9), (6, d.toNat), (6, a.toNat), (13, i.toNat)]
  | .sltiu i a d => word32 [(7, 0xA), (6, d.toNat), (6, a.toNat), (13, i.toNat)]
  | .lui i d => word32 [(7, 0xB), (6, d.toNat), (19, i.toNat)]
  | .pcaddi i d => word32 [(7, 0xC), (6, d.toNat), (19, i.toNat)]
  | .beq i b a => word32 [(7, 0x10), (6, a.toNat), (6, b.toNat), (13, i.toNat)]
  | .bne i b a => word32 [(7, 0x11), (6, a.toNat), (6, b.toNat), (13, i.toNat)]
  | .blt i b a => word32 [(7, 0x12), (6, a.toNat), (6, b.toNat), (13, i.toNat)]
  | .bge i b a => word32 [(7, 0x13), (6, a.toNat), (6, b.toNat), (13, i.toNat)]
  | .bltu i b a => word32 [(7, 0x14), (6, a.toNat), (6, b.toNat), (13, i.toNat)]
  | .bgeu i b a => word32 [(7, 0x15), (6, a.toNat), (6, b.toNat), (13, i.toNat)]
  | .jal i d => word32 [(7, 0x16), (6, d.toNat), (19, i.toNat)]
  | .jalr i a d => word32 [(7, 0x17), (6, d.toNat), (6, a.toNat), (13, i.toNat)]
  | .ld o h x z a d => word32 [(7, 0x18), (6, d.toNat), (6, a.toNat), (2, z.toNat), (1, x.toNat), (2, h.toNat), (8, o.toNat)]
  | .st o h z a s => word32 [(7, 0x19), (6, s.toNat), (6, a.toNat), (2, z.toNat), (1, 0x0), (2, h.toNat), (8, o.toNat)]
  | .lds o x z a d => word32 [(7, 0x1A), (6, d.toNat), (6, a.toNat), (2, z.toNat), (1, x.toNat), (2, 0x0), (8, o.toNat)]
  | .sts o z a s => word32 [(7, 0x1B), (6, s.toNat), (6, a.toNat), (2, z.toNat), (3, 0x0), (8, o.toNat)]
  | .amo o x z p b a d => word32 [(7, 0x1C), (6, d.toNat), (6, a.toNat), (6, b.toNat), (3, p.toNat), (1, z.toNat), (1, x.toNat), (2, o.toNat)]
  | .pfetch o h a => word32 [(13, 0x1D), (6, a.toNat), (3, 0x3), (2, h.toNat), (8, o.toNat)]
  | .clause i a => word32 [(7, 0x20), (6, a.toNat), (19, i.toNat)]
  | .waitf m => word32 [(13, 0x21), (12, m.toNat), (7, 0x0)]
  | .testf m d => word32 [(7, 0x22), (6, d.toNat), (12, m.toNat), (7, 0x0)]
  | .binit k b a c => word32 [(7, 0x24), (6, c.toNat), (6, a.toNat), (6, b.toNat), (1, k.toNat), (6, 0x0)]
  | .arrive e a d => word32 [(7, 0x25), (6, d.toNat), (6, a.toNat), (13, e.toNat)]
  | .arriveb t b a d => word32 [(7, 0x26), (6, d.toNat), (6, a.toNat), (6, b.toNat), (1, t.toNat), (6, 0x0)]
  | .waitph r t a d => word32 [(7, 0x27), (6, d.toNat), (6, a.toNat), (1, t.toNat), (1, r.toNat), (11, 0x0)]
  | .testph t a d => word32 [(7, 0x28), (6, d.toNat), (6, a.toNat), (1, t.toNat), (12, 0x0)]
  | .bdrop w a d => word32 [(7, 0x29), (6, d.toNat), (6, a.toNat), (1, w.toNat), (12, 0x0)]
  | .mbind b a => word32 [(13, 0x2A), (6, a.toNat), (6, b.toNat), (7, 0x0)]
  | .tlend k b a d => word32 [(7, 0x2C), (6, d.toNat), (6, a.toNat), (6, b.toNat), (2, k.toNat), (5, 0x0)]
  | .tret h a d => word32 [(7, 0x2D), (6, d.toNat), (6, a.toNat), (1, h.toNat), (12, 0x0)]
  | .tsplit a d => word32 [(7, 0x2E), (6, d.toNat), (6, a.toNat), (13, 0x0)]
  | .tjoin a d => word32 [(7, 0x2F), (6, d.toNat), (6, a.toNat), (13, 0x0)]
  | .tshare b a d => word32 [(7, 0x30), (6, d.toNat), (6, a.toNat), (6, b.toNat), (7, 0x0)]
  | .tquery x w a d => word32 [(7, 0x31), (6, d.toNat), (6, a.toNat), (2, w.toNat), (1, x.toNat), (10, 0x0)]
  | .treclaim c b a d => word32 [(7, 0x32), (6, d.toNat), (6, a.toNat), (6, b.toNat), (1, c.toNat), (6, 0x0)]
  | .tryStart i d => word32 [(7, 0x34), (6, d.toNat), (19, i.toNat)]
  | .commit d => word32 [(7, 0x35), (6, d.toNat), (19, 0x0)]
  | .abort e => word32 [(13, 0x36), (8, e.toNat), (11, 0x0)]
  | .fence k s => word32 [(13, 0x38), (3, s.toNat), (2, k.toNat), (14, 0x0)]
  | .qfence r p q => word32 [(13, 0x39), (4, q.toNat), (1, p.toNat), (1, r.toNat), (13, 0x0)]
  | .tsig e a d => word32 [(7, 0x3A), (6, d.toNat), (6, a.toNat), (13, e.toNat)]
  | .tlaunch b a d => word32 [(7, 0x3B), (6, d.toNat), (6, a.toNat), (6, b.toNat), (7, 0x0)]
  | .kick b a d => word32 [(7, 0x3C), (6, d.toNat), (6, a.toNat), (6, b.toNat), (7, 0x0)]
  | .ecall e => word32 [(13, 0x40), (19, e.toNat)]
  | .xret => word32 [(32, 0x41)]
  | .getc c d => word32 [(7, 0x42), (6, d.toNat), (12, c.toNat), (7, 0x0)]
  | .setc c a => word32 [(13, 0x43), (6, a.toNat), (12, c.toNat), (1, 0x0)]
  | .chkerr d => word32 [(7, 0x44), (6, d.toNat), (19, 0x0)]
  | .exit => word32 [(32, 0x45)]
  | .nop => word32 [(32, 0x46)]
  | .brk e => word32 [(13, 0x47), (19, e.toNat)]
  | .yield => word32 [(32, 0x48)]
  | .pginvRange b a => word32 [(13, 0x49), (6, a.toNat), (6, b.toNat), (7, 0x0)]
  | .pginvToken a => word32 [(13, 0x49), (6, a.toNat), (13, 0x40)]
  | .pginvAll => word32 [(32, 0x4000049)]
  | .mma k c b a y x u z => word32 [(7, 0x50), (3, z.toNat), (1, u.toNat), (1, x.toNat), (1, y.toNat), (6, a.toNat), (6, b.toNat), (6, c.toNat), (1, k.toNat)]
  | .mzero z => word32 [(7, 0x51), (3, z.toNat), (22, 0x0)]
  | .mdrain c a l z => word32 [(7, 0x52), (3, z.toNat), (1, l.toNat), (2, 0x0), (6, a.toNat), (6, 0x0), (6, c.toNat), (1, 0x0)]
  | .mcheckMode a => word32 [(13, 0x53), (6, a.toNat), (13, 0x0)]
  | .mcheckInject b a => word32 [(13, 0x53), (6, a.toNat), (6, b.toNat), (7, 0x1)]
  | .mwake => word32 [(32, 0x54)]
  | .mstat l c a d => word32 [(7, 0x55), (6, d.toNat), (6, a.toNat), (4, c.toNat), (1, l.toNat), (8, 0x0)]
  | .nbload n b a d => word32 [(7, 0x58), (6, d.toNat), (6, a.toNat), (6, b.toNat), (6, n.toNat), (1, 0x0)]
  | .nbrun b a d => word32 [(7, 0x59), (6, d.toNat), (6, a.toNat), (6, b.toNat), (7, 0x0)]
  | .nbpoll e a d => word32 [(7, 0x5A), (6, d.toNat), (6, a.toNat), (1, e.toNat), (12, 0x0)]
  | _ => 0#32

/-- The Rennet micro-operation with this uop (03 R76, R77); `none` is uop 0x0 or 0xF or a nonzero reserved field. -/
def unpackUop (uop : Nat) (w : BitVec 32) : Option Instr :=
  match uop with
  | 0x1 => if (field w 4 24).toNat = 0 then some (.nrow (field w 0 4)) else none
  | 0x2 => if (field w 5 20).toNat = 0 then some (.nld (field w 25 3) (field w 2 3) (field w 0 2)) else none
  | 0x3 => if (field w 5 17).toNat = 0 ∧ (field w 25 3).toNat = 0 then some (.nst (field w 22 3) (field w 2 3) (field w 0 2)) else none
  | 0x4 =>
    if (field w 12 1).toNat = 0 then
      if (field w 0 12).toNat = 0 ∧ (field w 14 1).toNat = 0 then some (.nmul (field w 25 3) (field w 22 3) (field w 19 3) (field w 15 4) (field w 13 1)) else none
    else
      if (field w 14 1).toNat = 0 ∧ (field w 19 3).toNat = 0 then some (.nmulImm (field w 25 3) (field w 22 3) (field w 15 4) (field w 13 1) (field w 0 12)) else none
  | 0x5 =>
    if (field w 12 1).toNat = 0 then
      if (field w 0 12).toNat = 0 ∧ (field w 14 1).toNat = 0 then some (.nadd (field w 25 3) (field w 22 3) (field w 19 3) (field w 15 4) (field w 13 1)) else none
    else
      if (field w 14 1).toNat = 0 ∧ (field w 19 3).toNat = 0 then some (.naddImm (field w 25 3) (field w 22 3) (field w 15 4) (field w 13 1) (field w 0 12)) else none
  | 0x6 =>
    if (field w 12 1).toNat = 0 then
      if (field w 0 12).toNat = 0 ∧ (field w 14 1).toNat = 0 then some (.nmac (field w 25 3) (field w 22 3) (field w 19 3) (field w 15 4) (field w 13 1)) else none
    else
      if (field w 14 1).toNat = 0 ∧ (field w 19 3).toNat = 0 then some (.nmacImm (field w 25 3) (field w 22 3) (field w 15 4) (field w 13 1) (field w 0 12)) else none
  | 0x7 =>
    if (field w 12 1).toNat = 0 then
      if (field w 0 12).toNat = 0 ∧ (field w 13 2).toNat = 0 then some (.nmin (field w 25 3) (field w 22 3) (field w 19 3) (field w 15 4)) else none
    else
      if (field w 13 2).toNat = 0 ∧ (field w 19 3).toNat = 0 then some (.nminImm (field w 25 3) (field w 22 3) (field w 15 4) (field w 0 12)) else none
  | 0x8 =>
    if (field w 12 1).toNat = 0 then
      if (field w 0 12).toNat = 0 ∧ (field w 13 2).toNat = 0 then some (.nmax (field w 25 3) (field w 22 3) (field w 19 3) (field w 15 4)) else none
    else
      if (field w 13 2).toNat = 0 ∧ (field w 19 3).toNat = 0 then some (.nmaxImm (field w 25 3) (field w 22 3) (field w 15 4) (field w 0 12)) else none
  | 0x9 =>
    if (field w 12 1).toNat = 0 then
      if (field w 0 12).toNat = 0 ∧ (field w 13 6).toNat = 0 then some (.nxor (field w 25 3) (field w 22 3) (field w 19 3)) else none
    else
      if (field w 13 9).toNat = 0 then some (.nxorImm (field w 25 3) (field w 22 3) (field w 0 12)) else none
  | 0xA =>
    if (field w 12 1).toNat = 0 then
      if (field w 0 12).toNat = 0 ∧ (field w 13 9).toNat = 0 then some (.nmov (field w 25 3) (field w 22 3)) else none
    else
      if (field w 13 2).toNat = 0 ∧ (field w 19 6).toNat = 0 then some (.nmovImm (field w 25 3) (field w 15 4) (field w 0 12)) else none
  | 0xB => if (field w 6 22).toNat = 0 then some (.nloop (field w 0 6)) else none
  | 0xC => if (field w 0 28).toNat = 0 then some (.nsync) else none
  | 0xD => if (field w 0 28).toNat = 0 then some (.nend) else none
  | 0xE => if (field w 0 28).toNat = 0 then some (.nnop) else none
  | _ => none

/-- The fields of a micro-operation word, read by its uop. -/
def unpackMicro (w : BitVec 32) : Option Instr := unpackUop (field w 28 4).toNat w

/-- The 32-bit word of a micro-operation, its fields laid out as 03 R76 draws them; 0 for every other `Instr`. -/
def encodeMicro : Instr → BitVec 32
  | .nrow m => word32 [(4, m.toNat), (28, 0x1000000)]
  | .nld d k s => word32 [(2, s.toNat), (3, k.toNat), (20, 0x0), (3, d.toNat), (4, 0x2)]
  | .nst a k s => word32 [(2, s.toNat), (3, k.toNat), (17, 0x0), (3, a.toNat), (7, 0x18)]
  | .nmul d a b t s => word32 [(13, 0x0), (1, s.toNat), (1, 0x0), (4, t.toNat), (3, b.toNat), (3, a.toNat), (3, d.toNat), (4, 0x4)]
  | .nmulImm d a t s i => word32 [(12, i.toNat), (1, 0x1), (1, s.toNat), (1, 0x0), (4, t.toNat), (3, 0x0), (3, a.toNat), (3, d.toNat), (4, 0x4)]
  | .nadd d a b t s => word32 [(13, 0x0), (1, s.toNat), (1, 0x0), (4, t.toNat), (3, b.toNat), (3, a.toNat), (3, d.toNat), (4, 0x5)]
  | .naddImm d a t s i => word32 [(12, i.toNat), (1, 0x1), (1, s.toNat), (1, 0x0), (4, t.toNat), (3, 0x0), (3, a.toNat), (3, d.toNat), (4, 0x5)]
  | .nmac d a b t s => word32 [(13, 0x0), (1, s.toNat), (1, 0x0), (4, t.toNat), (3, b.toNat), (3, a.toNat), (3, d.toNat), (4, 0x6)]
  | .nmacImm d a t s i => word32 [(12, i.toNat), (1, 0x1), (1, s.toNat), (1, 0x0), (4, t.toNat), (3, 0x0), (3, a.toNat), (3, d.toNat), (4, 0x6)]
  | .nmin d a b t => word32 [(15, 0x0), (4, t.toNat), (3, b.toNat), (3, a.toNat), (3, d.toNat), (4, 0x7)]
  | .nminImm d a t i => word32 [(12, i.toNat), (3, 0x1), (4, t.toNat), (3, 0x0), (3, a.toNat), (3, d.toNat), (4, 0x7)]
  | .nmax d a b t => word32 [(15, 0x0), (4, t.toNat), (3, b.toNat), (3, a.toNat), (3, d.toNat), (4, 0x8)]
  | .nmaxImm d a t i => word32 [(12, i.toNat), (3, 0x1), (4, t.toNat), (3, 0x0), (3, a.toNat), (3, d.toNat), (4, 0x8)]
  | .nxor d a b => word32 [(19, 0x0), (3, b.toNat), (3, a.toNat), (3, d.toNat), (4, 0x9)]
  | .nxorImm d a i => word32 [(12, i.toNat), (10, 0x1), (3, a.toNat), (3, d.toNat), (4, 0x9)]
  | .nmov d a => word32 [(22, 0x0), (3, a.toNat), (3, d.toNat), (4, 0xA)]
  | .nmovImm d t i => word32 [(12, i.toNat), (3, 0x1), (4, t.toNat), (6, 0x0), (3, d.toNat), (4, 0xA)]
  | .nloop l => word32 [(6, l.toNat), (26, 0x2C00000)]
  | .nsync => word32 [(32, 0xC0000000)]
  | .nend => word32 [(32, 0xD0000000)]
  | .nnop => word32 [(32, 0xE0000000)]
  | _ => 0#32

/-- The lane instruction of a lane opcode (03 R71); `none` is an unassigned LOP or 0x000. -/
def laneOfLop (lop : BitVec 10) (f : LaneWord) : Option Instr :=
  match lop.toNat with
  | 0x001 => some (.vadd f)
  | 0x002 => some (.vsub f)
  | 0x003 => some (.vmul f)
  | 0x004 => some (.vmulh f)
  | 0x005 => some (.vmad f)
  | 0x006 => some (.vdiv f)
  | 0x007 => some (.vrem f)
  | 0x008 => some (.vmin f)
  | 0x009 => some (.vmax f)
  | 0x00A => some (.vabs f)
  | 0x00B => some (.vabsdiff f)
  | 0x00C => some (.vand f)
  | 0x00D => some (.vor f)
  | 0x00E => some (.vxor f)
  | 0x00F => some (.vnot f)
  | 0x010 => some (.vshl f)
  | 0x011 => some (.vshr f)
  | 0x012 => some (.vsra f)
  | 0x013 => some (.vrot f)
  | 0x014 => some (.vclz f)
  | 0x015 => some (.vpopc f)
  | 0x016 => some (.vbfx f)
  | 0x017 => some (.vbfi f)
  | 0x018 => some (.vcmp f)
  | 0x019 => some (.vsel f)
  | 0x01A => some (.vdp4 f)
  | 0x040 => some (.vfadd f)
  | 0x041 => some (.vfmul f)
  | 0x042 => some (.vffma f)
  | 0x043 => some (.vfmin f)
  | 0x044 => some (.vfmax f)
  | 0x045 => some (.vfcmp f)
  | 0x046 => some (.vfrcp f)
  | 0x047 => some (.vfrsq f)
  | 0x048 => some (.vfsqrt f)
  | 0x049 => some (.vfexp2 f)
  | 0x04A => some (.vflog2 f)
  | 0x04B => some (.vfsin f)
  | 0x04C => some (.vfcos f)
  | 0x04D => some (.vfdiv f)
  | 0x04E => some (.vfclass f)
  | 0x04F => some (.vfdot2 f)
  | 0x050 => some (.vfround f)
  | 0x051 => some (.vcvt f)
  | 0x052 => some (.vpackbs f)
  | 0x053 => some (.vunpackbs f)
  | 0x080 => some (.vmov f)
  | 0x081 => some (.vshfl f)
  | 0x082 => some (.vvote f)
  | 0x083 => some (.vredsc f)
  | 0x084 => some (.vprmt f)
  | 0x085 => some (.vspec f)
  | 0x0A0 => some (.vbra f)
  | 0x0A1 => some (.vbrax f)
  | 0x0A2 => some (.vmark f)
  | 0x0A3 => some (.vjoin f)
  | 0x0A4 => some (.vcall f)
  | 0x0A5 => some (.vret f)
  | 0x0A6 => some (.vexit f)
  | 0x0A7 => some (.vspawn f)
  | 0x0C0 => some (.vkop f)
  | 0x0C1 => some (.vkmov f)
  | 0x100 => some (.vld f)
  | 0x101 => some (.vst f)
  | 0x102 => some (.vlds f)
  | 0x103 => some (.vsts f)
  | 0x104 => some (.vldspec f)
  | 0x105 => some (.vatom f)
  | 0x106 => some (.vred f)
  | 0x107 => some (.vpf f)
  | 0x108 => some (.vcopyIn f)
  | 0x109 => some (.vcopyOut f)
  | 0x10A => some (.vcast f)
  | 0x10B => some (.vfence f)
  | 0x10C => some (.varrive f)
  | 0x10D => some (.vlabort f)
  | _ => none

/-- The lane opcode and fields of a lane instruction (03 R65, R71); `none` for every other `Instr`. -/
def laneParts : Instr → Option (BitVec 10 × LaneWord)
  | .vadd f => some (0x001#10, f)
  | .vsub f => some (0x002#10, f)
  | .vmul f => some (0x003#10, f)
  | .vmulh f => some (0x004#10, f)
  | .vmad f => some (0x005#10, f)
  | .vdiv f => some (0x006#10, f)
  | .vrem f => some (0x007#10, f)
  | .vmin f => some (0x008#10, f)
  | .vmax f => some (0x009#10, f)
  | .vabs f => some (0x00A#10, f)
  | .vabsdiff f => some (0x00B#10, f)
  | .vand f => some (0x00C#10, f)
  | .vor f => some (0x00D#10, f)
  | .vxor f => some (0x00E#10, f)
  | .vnot f => some (0x00F#10, f)
  | .vshl f => some (0x010#10, f)
  | .vshr f => some (0x011#10, f)
  | .vsra f => some (0x012#10, f)
  | .vrot f => some (0x013#10, f)
  | .vclz f => some (0x014#10, f)
  | .vpopc f => some (0x015#10, f)
  | .vbfx f => some (0x016#10, f)
  | .vbfi f => some (0x017#10, f)
  | .vcmp f => some (0x018#10, f)
  | .vsel f => some (0x019#10, f)
  | .vdp4 f => some (0x01A#10, f)
  | .vfadd f => some (0x040#10, f)
  | .vfmul f => some (0x041#10, f)
  | .vffma f => some (0x042#10, f)
  | .vfmin f => some (0x043#10, f)
  | .vfmax f => some (0x044#10, f)
  | .vfcmp f => some (0x045#10, f)
  | .vfrcp f => some (0x046#10, f)
  | .vfrsq f => some (0x047#10, f)
  | .vfsqrt f => some (0x048#10, f)
  | .vfexp2 f => some (0x049#10, f)
  | .vflog2 f => some (0x04A#10, f)
  | .vfsin f => some (0x04B#10, f)
  | .vfcos f => some (0x04C#10, f)
  | .vfdiv f => some (0x04D#10, f)
  | .vfclass f => some (0x04E#10, f)
  | .vfdot2 f => some (0x04F#10, f)
  | .vfround f => some (0x050#10, f)
  | .vcvt f => some (0x051#10, f)
  | .vpackbs f => some (0x052#10, f)
  | .vunpackbs f => some (0x053#10, f)
  | .vmov f => some (0x080#10, f)
  | .vshfl f => some (0x081#10, f)
  | .vvote f => some (0x082#10, f)
  | .vredsc f => some (0x083#10, f)
  | .vprmt f => some (0x084#10, f)
  | .vspec f => some (0x085#10, f)
  | .vbra f => some (0x0A0#10, f)
  | .vbrax f => some (0x0A1#10, f)
  | .vmark f => some (0x0A2#10, f)
  | .vjoin f => some (0x0A3#10, f)
  | .vcall f => some (0x0A4#10, f)
  | .vret f => some (0x0A5#10, f)
  | .vexit f => some (0x0A6#10, f)
  | .vspawn f => some (0x0A7#10, f)
  | .vkop f => some (0x0C0#10, f)
  | .vkmov f => some (0x0C1#10, f)
  | .vld f => some (0x100#10, f)
  | .vst f => some (0x101#10, f)
  | .vlds f => some (0x102#10, f)
  | .vsts f => some (0x103#10, f)
  | .vldspec f => some (0x104#10, f)
  | .vatom f => some (0x105#10, f)
  | .vred f => some (0x106#10, f)
  | .vpf f => some (0x107#10, f)
  | .vcopyIn f => some (0x108#10, f)
  | .vcopyOut f => some (0x109#10, f)
  | .vcast f => some (0x10A#10, f)
  | .vfence f => some (0x10B#10, f)
  | .varrive f => some (0x10C#10, f)
  | .vlabort f => some (0x10D#10, f)
  | _ => none
/-- The opcode and the fields of a 96-bit lane word, word 0 in the low bits (03 R65). -/
def unpackLane (w : BitVec 96) : BitVec 10 × LaneWord :=
  (field w 0 10,
   { u := field w 10 1, guard := field w 11 3, gneg := field w 14 1, vd := field w 15 8,
     va := field w 23 8, vb := field w 32 8, vc := field w 40 8, ty := field w 48 4,
     md := field w 52 4, hint := field w 56 2, kind := field w 58 2, sub := field w 60 4,
     imm := field w 64 32 })

/-- The 96-bit lane word of an opcode and fields (03 R65); bit 31 is reserved and 0. -/
def packLane (lop : BitVec 10) (f : LaneWord) : BitVec 96 :=
  BitVec.ofNat 96 (catFields
    [(10, lop.toNat), (1, f.u.toNat), (3, f.guard.toNat), (1, f.gneg.toNat), (8, f.vd.toNat), (8, f.va.toNat), (1, 0),
     (8, f.vb.toNat), (8, f.vc.toNat), (4, f.ty.toNat), (4, f.md.toNat), (2, f.hint.toNat), (2, f.kind.toNat),
     (4, f.sub.toNat), (32, f.imm.toNat)])

/-! ## Decoding and encoding -/

/-- Keeps an instruction whose fields the device accepts. -/
def accept (i : Option Instr) : Except Reject Instr :=
  match i with
  | none => .error .unassigned
  | some i => if fieldsOk i then .ok i else .error .badField

/-- A scalar or sequencer word (03 R61; R64 step 1). -/
def decodeScalar (w : BitVec 32) : Except Reject Instr := accept (unpackScalar w)

/-- A lane slot (03 R71; R72 step 1). -/
def decodeLane (w : BitVec 96) : Except Reject Instr :=
  if field w 31 1 = 0#1 then accept (laneOfLop (unpackLane w).1 (unpackLane w).2) else .error .badField

/-- A Rennet micro-operation word (03 R77, R78). -/
def decodeMicro (w : BitVec 32) : Except Reject Instr := accept (unpackMicro w)

/-- The 96-bit word of a lane instruction; 0 for every other `Instr`. -/
def encodeLane (i : Instr) : BitVec 96 :=
  match laneParts i with
  | some (lop, f) => packLane lop f
  | none => 0#96

/-- Which stream an instruction's word belongs to. -/
inductive WordKind where
  | scalar | lane | micro | event
  deriving DecidableEq, Repr

/-- The kind of word of an instruction: an event has none. -/
def Instr.wordKind (i : Instr) : WordKind :=
  if encodeScalar i ≠ 0#32 then .scalar
  else if (laneParts i).isSome then .lane
  else if encodeMicro i ≠ 0#32 then .micro
  else .event

/-- The bytes of an instruction's word as memory holds them (00 R2); none for an event. -/
def encode (i : Instr) : List Byte :=
  match i.wordKind with
  | .scalar => bytesOfNat 4 (encodeScalar i).toNat
  | .lane => bytesOfNat 12 (encodeLane i).toNat
  | .micro => bytesOfNat 4 (encodeMicro i).toNat
  | .event => []

/-- The instruction that bytes of one stream's kind begin with, and the bytes after it. -/
def decodeBytes (k : WordKind) (bs : List Byte) : Except Reject (Instr × List Byte) :=
  match k with
  | .scalar =>
    if bs.length < 4 then .error .short
    else (decodeScalar (BitVec.ofNat 32 (natOfBytes (bs.take 4)))).map fun i => (i, bs.drop 4)
  | .lane =>
    if bs.length < 12 then .error .short
    else (decodeLane (BitVec.ofNat 96 (natOfBytes (bs.take 12)))).map fun i => (i, bs.drop 12)
  | .micro =>
    if bs.length < 4 then .error .short
    else (decodeMicro (BitVec.ofNat 32 (natOfBytes (bs.take 4)))).map fun i => (i, bs.drop 4)
  | .event => .error .unassigned

/-- The instruction the decoder reads from bits numbered as spec/opcode_table.json numbers them. A 32-bit word that is no
scalar word is read as a micro-operation word: the table gives words of both streams, and which stream a word belongs to
is no bit of it. -/
def decodeTableWord (nbits w : Nat) : Option Instr :=
  if nbits > 32 then (decodeLane (BitVec.ofNat 96 w)).toOption
  else
    match decodeScalar (BitVec.ofNat 32 w) with
    | .ok i => some i
    | .error _ => (decodeMicro (BitVec.ofNat 32 w)).toOption

/-! ## The clause header (03 R73, R74) -/

/-- A clause header. -/
structure ClauseHeader where
  /-- flag number of set A, when valid -/
  setA : Option Nat
  /-- flag number of set B, when valid -/
  setB : Option Nat
  /-- instructions after the header -/
  count : Nat
  /-- mask over `f0` to `f11` -/
  wait : BitVec 12
  yieldHint : Bool
  deriving DecidableEq, Repr, Inhabited

/-- 03 R73 and R74: the header in a slot; `none` when its LOP is not 0x000, a reserved bit is set, or a valid set names a
flag above 11. -/
def decodeHeader (w : BitVec 96) : Option ClauseHeader :=
  let a := (field w 27 4).toNat
  let av := field w 26 1 = 1#1
  let b := (field w 33 4).toNat
  let bv := field w 32 1 = 1#1
  if field w 0 10 = 0#10 && field w 31 1 = 0#1 && field w 38 58 = 0#58 &&
      !(av && decide (a > 11)) && !(bv && decide (b > 11)) then
    some { setA := if av then some a else none, setB := if bv then some b else none,
           count := (field w 22 4).toNat + 1, wait := field w 10 12, yieldHint := field w 37 1 = 1#1 }
  else none

/-- 03 R68: the long-latency lane opcodes, by number. -/
def lopLongLatency (lop : Nat) : Bool :=
  lop = 0x006 || lop = 0x007 || (0x046 ≤ lop && lop ≤ 0x04D) || (0x100 ≤ lop && lop ≤ 0x10D) || lop = 0x082 || lop = 0x083

end Sys2Proof
end

