-- ==== Sys2Proof/Machine/Map.lean ====
section
/-! DEFINITION. Sparse maps from numbers: the one form in which the machine holds memories, register files and tables. A map
is a list of key and value pairs with rising keys, so that equal maps are equal lists. -/

namespace Sys2Proof.Machine

/-- Key and value pairs, keys rising. -/
abbrev KMap (α : Type) := List (Nat × α)

/-- The value listed under a key. -/
def KMap.find {α : Type} (k : Nat) : KMap α → Option α
  | [] => none
  | (j, v) :: m => if j = k then some v else KMap.find k m

/-- Lists a value under a key, in place of any it had. -/
def KMap.put {α : Type} (k : Nat) (v : α) : KMap α → KMap α
  | [] => [(k, v)]
  | (j, w) :: m =>
    if k < j then (k, v) :: (j, w) :: m
    else if j = k then (k, v) :: m
    else (j, w) :: KMap.put k v m

/-- Takes a key out of the list. -/
def KMap.del {α : Type} (k : Nat) : KMap α → KMap α
  | [] => []
  | (j, v) :: m => if j = k then KMap.del k m else (j, v) :: KMap.del k m

/-- What the map reads as at a key: the listed value, or `d` where none is listed. -/
def KMap.read {α : Type} (d : α) (k : Nat) (m : KMap α) : α := (KMap.find k m).getD d

/-- Writes a value at a key of a map that reads as `d` where nothing is listed: writing `d` takes the entry out. -/
def KMap.write {α : Type} [DecidableEq α] (d : α) (k : Nat) (v : α) (m : KMap α) : KMap α :=
  if v = d then KMap.del k m else KMap.put k v m

/-- Keys rise strictly. -/
def KMap.rising {α : Type} : KMap α → Bool
  | [] => true
  | (_, _) :: [] => true
  | (j, _) :: (k, w) :: m => decide (j < k) && KMap.rising ((k, w) :: m)

/-- The canonical form of a map that reads as `d` where nothing is listed: keys rise and no entry equals `d`. -/
def KMap.wf {α : Type} [DecidableEq α] (d : α) (m : KMap α) : Bool :=
  KMap.rising m && m.all fun e => decide (e.2 ≠ d)

/-- Changes the value listed under a key, where one is. -/
def KMap.adjust {α : Type} (k : Nat) (f : α → α) (m : KMap α) : KMap α :=
  match KMap.find k m with
  | some v => KMap.put k (f v) m
  | none => m

/-- The keys listed. -/
def KMap.keys {α : Type} (m : KMap α) : List Nat := m.map Prod.fst

/-- The lowest key at or above `k` not listed, among `n` candidates. -/
def KMap.freeFrom {α : Type} (m : KMap α) (k : Nat) : Nat → Option Nat
  | 0 => none
  | n + 1 => if (KMap.find k m).isNone then some k else KMap.freeFrom m (k + 1) n

end Sys2Proof.Machine
end

