-- ==== Sys2Proof/Machine/State.lean ====
section
/-! DEFINITION. The state of the machine as plain data: every piece of state that the spec gives it (INVENTORY.md, State),
the reasons a step can stop, and the state right after cold reset. -/

namespace Sys2Proof.Machine

/-- Why the machine stops with a fault: the spec stops nothing (00: every misuse has a named outcome; 04 R104: a fault of a
program is a trap), so there is no such reason and no step faults. Safe. -/
inductive Fault where
  deriving DecidableEq, Repr

/-- Why the machine refuses an instruction. -/
inductive Refusal where
  /-- An instruction with no meaning yet. Raised by `exec`'s arms alone; safe. -/
  | notModelled (mnemonic : String)
  deriving DecidableEq, Repr

/-! ## Streams -/

/-- The trap causes (04 R104). -/
inductive Cause where
  | illegal | priv | context | misalign | page | perm | unowned | sharedWrite | stranded | spadBounds | stack
  | spawnDeadlock | timer | brk | syscall | hostAtomic | remote | barrier | token | queue
  deriving DecidableEq, Repr, Inhabited

/-- The trap bank (04 R103). -/
structure TrapBank where
  xpc : Word := 0
  xlpc : Word := 0
  xcause : BitVec 32 := 0
  xstatus : BitVec 32 := 0
  xaddr : Word := 0
  xmask : BitVec 32 := 0
  xlog : BitVec 32 := 0
  deriving DecidableEq, Repr, Inhabited

/-- A clause queue entry: lane address, copy of `s0` to `s15`, the header read at enqueue, and each long-latency slot counted
at enqueue with its flag (02 R36, R38, 03 R74, R75). -/
structure ClauseEntry where
  addr : Word
  caps : KMap Word
  hdr : ClauseHeader
  counts : List (Nat × Nat) := []
  deriving DecidableEq, Repr, Inhabited

/-- The clause being run: its entry, the slots reached in this run, the mark-join depth at its start (02 R37, 03 R75). -/
structure ClauseRun where
  entry : ClauseEntry
  reached : List Nat := []
  depth : Nat := 0
  deriving DecidableEq, Repr, Inhabited

/-- A path: a set of lanes with one lane PC (02 R40). -/
structure Path where
  mask : BitVec 16
  lpc : Word
  deriving DecidableEq, Repr, Inhabited

/-- A mark-join stack entry (06 R166). `ring` holds the pending paths that are not running, the next one first. A call
entry holds the return address, the caller's mask, the called clause's address and header. -/
inductive MJEntry where
  | mark (rejoin : Nat) (mask : BitVec 16) (ring : List Path) (clause : Word)
  | call (ret : Word) (mask : BitVec 16) (addr : Word) (hdr : ClauseHeader)
  deriving DecidableEq, Repr, Inhabited

/-- A long-latency instruction that has issued and not landed: its flag, and the scalar destination of `vredsc`, `vvote`. -/
structure LLPending where
  slot : Word
  flag : Option Nat
  dst : Option (Nat × Word)
  deriving DecidableEq, Repr, Inhabited

/-- Kinds of memory instruction that the operand log holds (08 R202). -/
inductive MemKind where
  | load | loadSpec | store | atomic | reduce | copyIn | copyOut | cast | fence
  deriving DecidableEq, Repr, Inhabited

/-- One lane's access of a memory instruction; lane 16 is the scalar stream. -/
structure LaneAcc where
  lane : Nat
  va : Word
  /-- data of a store, operand of an atomic, scratchpad address of a copy -/
  data : Nat := 0
  /-- compare value of `cas` -/
  cmp : Nat := 0
  /-- on its way to another device, its answer still to come (10 R242, 11 R290) -/
  sent : Bool := false
  /-- bytes of the group's own stores that go over those of a load's answer: offset in the access, byte (08 R209, 11 R271) -/
  fwd : List (Nat × Byte) := []
  deriving DecidableEq, Repr, Inhabited

/-- A translation as a leaf gives it (16 R383). -/
structure Leaf where
  tok : Nat := 0
  dev : Nat := 0
  /-- physical address of the page, its size in bits -/
  pa : Nat := 0
  bits : Nat := 16
  host : Bool := false
  ret : Nat := 0
  ms : Bool := false
  u : Bool := false
  x : Bool := false
  w : Bool := false
  r : Bool := false
  deriving DecidableEq, Repr, Inhabited

/-- A lane piece of a transfer operation (13 R322): its global side as translated, and where in scratchpads (team, offset) it is
written or read. -/
structure Piece where
  lane : Nat
  va : Word
  pa : Nat := 0
  leaf : Leaf := {}
  remote : Bool := false
  tok : Nat := 0
  locs : List (Nat × Nat)
  n : Nat
  /-- a poisoned address: nothing is read, zero is written poisoned (13 R320) -/
  void : Bool := false
  /-- the places that a higher lane of the instruction has written already: counted, not written (13 R322) -/
  lose : List (Nat × Nat) := []
  deriving DecidableEq, Repr, Inhabited

/-- What a copy adds to its accesses (13 R318): its number, its queue, the offsets of its objects, its lanes' pieces. -/
structure CopyInfo where
  id : Nat
  queue : Nat
  l : Nat
  ru : Option Nat
  pieces : List Piece
  deriving DecidableEq, Repr, Inhabited

/-- A memory instruction's accesses left pending, its form and its destination (08 R202). -/
structure MemOp where
  kind : MemKind
  lane : Bool
  slot : Word
  size : Nat
  ty : BitVec 4 := 0
  op : Nat := 0
  sext : Bool := false
  dst : Nat := 0
  /-- lanes that take a uniform access's result (02 R33); 0 when each lane takes its own -/
  bcast : BitVec 16 := 0
  accs : List LaneAcc
  hint : Nat := 0
  order : Nat := 0
  scope : Nat := 1
  kernel : Bool := false
  flag : Option Nat := none
  log : Option Nat := none
  /-- how many operand-log entries its group had taken before its own (08 R201) -/
  age : Nat := 0
  copy : Option CopyInfo := none
  /-- a fault found: its cause and its lanes -/
  fault : Option (Cause × BitVec 16 × Word) := none
  /-- the exited group that a store adopted from a residual record came from (08 R206) -/
  orig : Option Nat := none
  /-- a scratchpad store in the try buffer (08 R209) -/
  spad : Bool := false
  /-- re-issued by `xret`: a new fault of it is a logged one (08 R205) -/
  reissued : Bool := false
  /-- issued inside `try`: a rollback of a lane discards what has not landed (08 R211) -/
  tried : Bool := false
  deriving DecidableEq, Repr, Inhabited

/-- The try checkpoint and what it holds (08 R208 to R212). -/
structure TryState where
  sd : Nat
  landing : Word
  savedS : KMap Word
  savedP : KMap Bool := []
  savedK : KMap (BitVec 16)
  savedLive : BitVec 16
  /-- register line to its 16 slots with their poison -/
  shadow : KMap (List (BitVec 32 × Bool)) := []
  buffer : List MemOp := []
  /-- lane to its watched sectors -/
  watch : KMap (List Nat) := []
  aborted : BitVec 16 := 0
  depth : Nat := 1
  deriving DecidableEq, Repr, Inhabited

/-- A wait record (17 R414): the object (the team that holds it and its offset), target parity, registered, signalled, phase. -/
structure WaitRec where
  team : Nat
  obj : Nat
  t : Bool
  registered : Bool
  signalled : Bool := false
  phase : BitVec 32 := 0
  deriving DecidableEq, Repr, Inhabited

/-- A group, or a sequencer stream (group number 64), with everything it holds (02 R29, 09 R220). -/
structure Group where
  team : Nat := 0
  grp : Nat := 0
  isSeq : Bool := false
  pc : Word := 0
  s : KMap Word := []
  sPoison : KMap Bool := []
  /-- vector registers, key 16 x register + lane -/
  v : KMap (BitVec 32) := []
  vPoison : KMap Bool := []
  k : KMap (BitVec 16) := []
  flags : KMap Nat := []
  present : BitVec 16 := 0xFFFF
  live : BitVec 16 := 0xFFFF
  kernel : Bool := false
  laneStopped : Bool := false
  halted : Bool := false
  ended : Bool := false
  /-- stopped by pre-emption or eviction (08 R214) -/
  out : Bool := false
  bank : TrapBank := {}
  retired : Bool := false
  gtime : Word := 0
  gtcmp : Word := 0
  chkint : BitVec 32 := 0
  tryabort : BitVec 32 := 0
  timerDue : Bool := false
  queue : List ClauseEntry := []
  run : Option ClauseRun := none
  path : Option Path := none
  /-- mark-join stack, top first -/
  stack : List MJEntry := []
  pending : List LLPending := []
  oplog : KMap MemOp := []
  storeq : List MemOp := []
  /-- logged faults held, oldest entry first (08 R200, R201) -/
  faults : List MemOp := []
  /-- operand-log entries taken so far, and those taken when the stream last entered kernel mode (08 R201, R203) -/
  taken : Nat := 0
  entered : Nat := 0
  /-- log entry whose fault the handler was given (08 R204) -/
  handling : Option Nat := none
  tr : Option TryState := none
  wait : Option WaitRec := none
  waited : Nat := 0
  /-- stall reasons of the scalar and the lane stream (18 R437) -/
  stall : Nat := 0
  lstall : Nat := 14
  /-- scalar issue opportunities for which `yield` makes it the last choice (05 R139); opportunities of each kind in which it was
  ready and passed over, and its core's opportunity count when it last issued; while switched out, the opportunities since (14 R356) -/
  yieldLeft : Nat := 0
  passS : Nat := 0
  passL : Nat := 0
  lastS : Nat := 0
  lastL : Nat := 0
  /-- control lines in the register-line cache that an uncorrectable error struck: key 2 x line + half (09 R222, R223; log entry 81) -/
  lineBad : KMap Bool := []
  /-- lanes of a stalled `vspawn` already placed, with its slot (02 R44) -/
  spawned : Option (Word × BitVec 16) := none
  /-- when it became resident (02 R46) -/
  born : Nat := 0
  /-- cycles run in try since pre-emption was asked for (08 R214) -/
  grace : Option Nat := none
  deriving DecidableEq, Repr, Inhabited

/-- The residual record of an exited group (02 R54, 08 R206). -/
structure Residual where
  team : Nat
  grp : Nat
  storeq : List MemOp
  deriving DecidableEq, Repr, Inhabited

/-! ## Teams and clusters -/

/-- A spawn bin (02 R44, R45): the entry that keys it, its threads of four words, the cycles since the first. -/
structure SpawnBin where
  entry : Word
  threads : List (List (BitVec 32))
  age : Nat := 0
  deriving DecidableEq, Repr, Inhabited

/-- Where a team or cluster stands with its cores (08 R214 to R216, 14 R353). -/
inductive Residence where
  | resident | stopping | saving | preempted | evicted | ended
  deriving DecidableEq, Repr, Inhabited

/-- A cluster (02 R29, R48). -/
structure Cluster where
  part : Nat := 0
  task : Nat := 0
  w : Nat := 1
  h : Nat := 1
  orient : Bool := false
  die : Nat := 0
  col : Nat := 0
  row : Nat := 0
  fuse : Bool := false
  gx : Word := 0
  gy : Word := 0
  gz : Word := 0
  members : List Nat := []
  res : Residence := .resident
  prio : Nat := 0
  /-- when it became placeable, and the wait that it keeps while it is resident (14 R350, R353) -/
  since : Nat := 0
  accrued : Nat := 0
  shares : List Nat := []
  chk : BitVec 32 := 0
  cor : Nat := 0
  status : Nat := 1
  failTeam : Word := 0
  /-- token ids lent by the launch record and to be returned are found in the table (15 R378) -/
  submitter : Nat := 0
  deriving DecidableEq, Repr, Inhabited

/-! ## Cores: Press, Ladle, caches, counters -/

/-- An accumulator tile (12 R293): 128 x 128 words, mode, poison and suspect by sector of 8 words. -/
structure Acc where
  elems : KMap (BitVec 32) := []
  /-- 0 clear, 1 FP32, 2 INT32 -/
  mode : Nat := 0
  poison : KMap Bool := []
  suspect : KMap Bool := []
  deriving DecidableEq, Repr, Inhabited

/-- A mould operand as read at issue (12 R296): its object offset and its binding. -/
structure Mould where
  obj : Nat
  tbase : Nat
  tsize : Nat
  z : Nat
  deriving DecidableEq, Repr, Inhabited

/-- A Press instruction in a member's queue (12 R294). `fmt` is the format block read at issue, `bad` the poison of its two
sectors. -/
inductive PressOp where
  | mma (zd : Nat) (acc relA relB chk : Bool) (a b : Mould) (kk : Nat) (fmt : List Byte) (bad : Bool × Bool)
  | mzero (zd : Nat)
  | mdrain (zd : Nat) (clr : Bool) (d : Mould) (fmt : List Byte) (bad : Bool × Bool)
  | mcheckMode (force nocorr : Bool)
  | mcheckInject (arm : Bool) (q row col : Nat) (x : BitVec 32)
  | join (id : Nat)
  deriving DecidableEq, Repr, Inhabited

/-- A sub-array (12 R312, R313): gated, waking, idle cycles. -/
structure SubArray where
  gated : Bool := false
  waking : Bool := false
  idle : Nat := 0
  deriving DecidableEq, Repr, Inhabited

/-- An error that strikes a checked step of the next `mma` of a Press (12 R308): which step and element, what it changes in the low 32 bits of
the element's step integer, and whether it is gone when the element is computed again (0), only when the whole step is (1), or never (2). -/
structure PressErr where
  step : Nat
  row : Nat
  col : Nat
  x : BitVec 32
  lasts : Nat
  deriving DecidableEq, Repr, Inhabited

/-- A Press (12). `retry` holds arrivals refused and to be retried: object offsets, and what to do after the last. -/
structure Press where
  z : KMap Acc := []
  queue : List PressOp := []
  retry : List Nat := []
  /-- the check mode as this member has applied it (12 R310) -/
  force : Bool := false
  nocorr : Bool := false
  inject : Option (Nat × Nat × Nat × BitVec 32) := none
  /-- STEPS, CORR, RECOMP, UNCORR, PSECT, OPPOIS, WAKES by code (12 R311) -/
  ctr : KMap Word := []
  sub : KMap SubArray := []
  /-- the `mma` at the head of the queue has observed its moulds full (12 R301) -/
  seen : Bool := false
  /-- the errors still to come: the environment's choices (log entry 64) -/
  errors : List PressErr := []
  deriving DecidableEq, Repr, Inhabited

/-- Where a count of an engine that finds a broken object is reported (17 R419): in a stream's `c.chkint`, in the status byte of a notice, in
bit 7, at an offset of a team's scratchpad, or in a landing window's NOOBJ. -/
inductive CountSrc where
  | stream (g : Nat)
  | byte (team off : Nat)
  | window (w : Nat)
  deriving DecidableEq, Repr, Inhabited

/-- A team (02 R29). -/
structure Team where
  part : Nat := 0
  cluster : Nat := 0
  member : Nat := 0
  core : Option Nat := none
  vregs : Nat := 8
  spad : Nat := 0
  arg : Word := 0
  hvec : Word := 0
  evthr : BitVec 32 := 0
  spawntmr : BitVec 16 := 0
  trygrace : BitVec 24 := 0
  /-- scratchpad bytes and poison by sector (09 R224, R226); while switched out, the watch copies and what is to be written at
  relaunch (17 R421, 13 R333) -/
  mem : KMap Byte := []
  poison : KMap Bool := []
  shares : List Nat := []
  bins : KMap SpawnBin := []
  res : Residence := .resident
  /-- the control-region check code of its image is broken (09 R221) -/
  broken : Bool := false
  /-- its image slot in the context area (09 R219, 14 R350) -/
  img : Nat := 0
  /-- while switched out: offsets of the objects with watch copies, held sums of arrivals and bytes with where their engines report
  (17 R419, R421) -/
  watched : List Nat := []
  held : KMap (Nat × Nat × List CountSrc) := []
  /-- what is saved of the member's Press while switched out (12 R314) -/
  press : Option Press := none
  /-- the groups' `c.chkint` ORed at their ends, and CORCNT (04 R100) -/
  chk : BitVec 32 := 0
  deriving DecidableEq, Repr, Inhabited

/-- A transfer operation (13 R317, R322): the copy it belongs to, its stream, its 128-byte line and its pieces. -/
structure Xfer where
  id : Nat
  g : Nat
  kind : MemKind
  line : Option Nat
  pieces : List Piece
  l : Nat
  ru : Option Nat
  hint : Nat
  scope : Nat
  /-- its pieces of another device's pages are on their way, the others performed (10 R242, 11 R290) -/
  sent : Bool := false
  deriving DecidableEq, Repr, Inhabited

/-- A count refused and held (13 R323): its queue, the copy, the team and offset of the object, arrivals, bytes, the stream that it is
counted for, and, of a notice's arrival, where its status byte lies (13 R332). -/
structure HeldCount where
  queue : Nat
  id : Nat
  team : Nat
  obj : Nat
  arr : Nat
  n : Nat
  g : Nat
  status : Option (Nat × Nat) := none
  deriving DecidableEq, Repr, Inhabited

/-- A transfer operation of a `vcast` that a member's network interface has reserved its buffer for (13 R330), its bytes on their way
there: the issuing core and queue, the copy, its stream, the member's team, the offset of its object, and each piece's offset, length,
bytes, poison, and whether a higher lane writes the same bytes. -/
structure CastLand where
  core : Nat
  queue : Nat
  id : Nat
  g : Nat
  team : Nat
  obj : Nat
  pieces : List (Nat × Nat × Nat × Bool × Bool)
  deriving DecidableEq, Repr, Inhabited

/-- A kick notice in a kick register (13 R331). -/
structure Notice where
  bytes : List Byte
  sender : Nat
  senderTeam : Nat
  addr : Nat
  deriving DecidableEq, Repr, Inhabited

/-- What a Ladle queue holds: a transfer operation; a kick pull with the team that took it, the bytes already landed (13 R332) and whether a
read of another device's page is on its way; or a join point of `qfence` (05 R131). -/
inductive LadleOp where
  | xfer (x : Xfer)
  | pull (n : Notice) (team done : Nat) (sent : Bool)
  | join (id : Nat)
  deriving DecidableEq, Repr, Inhabited

/-- An L1 line (09 R227): its number (physical address / 128), valid and poison bits by sector, token id, generation, wide bit,
data. -/
structure L1Line where
  line : Nat
  valid : BitVec 4
  poison : BitVec 4
  tok : Nat
  gen : Nat
  wide : Bool
  data : BitVec 1024
  deriving DecidableEq, Repr, Inhabited

/-- A TLB entry: partition, page number at the leaf's size, leaf (16 R386). -/
structure TlbEntry where
  part : Nat
  vpage : Nat
  leaf : Leaf
  deriving DecidableEq, Repr, Inhabited

/-- A core position (01 R11, R15). -/
structure Core where
  pipes : Nat := 128
  /-- enabled since its start stage (19 R450) -/
  on : Bool := true
  team : Option Nat := none
  /-- 0x40 + 16: V and PART of its core-map byte (14 R340) -/
  mapV : Bool := true
  mapPart : Nat := 0
  heldMap : Option (Bool × Nat) := none
  cycle : Word := 0
  pressgate : BitVec 32 := 16384
  press : Press := {}
  ladle : KMap (List LadleOp) := []
  counts : List HeldCount := []
  kick : Option Notice := none
  /-- L1 sets of at most 12 lines, the most recently used first (09 R227) -/
  l1 : KMap (List L1Line) := []
  /-- lines (virtual address / 128) that the instruction caches hold: 0 scalar code, 1 lane code, 2 sequencer code (01 R15, 02 R35) -/
  icache : KMap (List Nat) := []
  tlb : List TlbEntry := []
  /-- register lines that the register-line cache holds, key 65536 x group key + line (09 R223) -/
  lines : KMap Bool := []
  /-- issue opportunities so far; by engine, the cycle in which it last accepted an instruction (14 R355, R356) -/
  slots : Nat := 0
  engines : KMap Nat := []
  pmc : KMap Word := []
  pmsel : KMap (BitVec 32) := []
  freeze : Bool := false
  smpctl : Word := 0
  smpbase : Word := 0
  smplen : Nat := 4
  smphead : Nat := 0
  smptail : Nat := 0
  smpdrop : BitVec 32 := 0
  /-- the group number last sampled; 64 before the first sample (18 R436) -/
  sampled : Nat := 64
  deriving DecidableEq, Repr, Inhabited

/-! ## Rennet units -/

/-- A microprogram slot (10 R259). -/
structure NbSlot where
  words : List (BitVec 32)
  team : Nat
  deriving DecidableEq, Repr, Inhabited

/-- A run (10 R257, R260). `state` is the code of 10 R262. -/
structure NbRun where
  seq : Nat
  team : Nat
  /-- the stream that queued it, and the join points of `qfence` it is held behind (05 R131) -/
  g : Nat := 0
  after : List Nat := []
  prog : List (BitVec 32)
  /-- leaf physical base of each used stream: stream to (virtual base, physical base) -/
  streams : KMap (Word × Nat)
  strides : KMap Nat
  count : Nat
  start : Nat
  wmask : BitVec 4
  state : Nat := 0
  ctr : Nat := 0
  r : Nat := 0
  rows : Nat := 0
  pois : Bool := false
  n : KMap (BitVec 256) := []
  np : KMap Bool := []
  deriving DecidableEq, Repr, Inhabited

/-- An ordinary operation that waits at a Rennet unit (10 R261): whose, its address, and how many accesses it makes there. -/
structure RnOp where
  g : Nat
  pa : Nat
  n : Nat
  deriving DecidableEq, Repr, Inhabited

/-- A Rennet unit (10). `waiting` stands in arrival order. -/
structure Rennet where
  slots : KMap NbSlot := []
  queue : List NbRun := []
  done : List NbRun := []
  seq : Nat := 0
  waiting : List RnOp := []
  /-- ordinary operations served in the arbitration window of the run suspended (10 R261) -/
  served : Nat := 0
  deriving DecidableEq, Repr, Inhabited

/-! ## Partitions, queues, tasks -/

/-- States of a task entry (14 R348). -/
inductive TaskState where
  | free | armed | ready | running
  deriving DecidableEq, Repr, Inhabited

/-- A task entry (14 R348). `submitter` is a holder id; `queue` the host queue it came from. -/
structure Task where
  record : List Byte := []
  poisoned : Bool := false
  count : Nat := 0
  submitter : Nat := 0
  queue : Option Nat := none
  prio : Nat := 0
  state : TaskState := .free
  /-- clusters placed and ended, and the grid indices given, rising (02 R51) -/
  used : List Nat := []
  placed : Nat := 0
  endedN : Nat := 0
  stopped : Bool := false
  status : Nat := 1
  detail : Nat := 0
  chk : BitVec 32 := 0
  cor : Nat := 0
  failTeam : Word := 0
  since : Nat := 0
  deriving DecidableEq, Repr, Inhabited

/-- A reserved rectangle (14 R352): candidate task or cluster, and its cores. -/
structure Reserve where
  task : Option Nat
  cluster : Option Nat
  cores : List Nat
  deriving DecidableEq, Repr, Inhabited

/-- A partition's registers and scheduler (14 R338, 15 R358, 16 R382, R402, 19 R442, R452). -/
structure Partition where
  pctxbase : Word := 0
  pctxlen : BitVec 32 := 0
  phvec : Word := 0
  pevthr : BitVec 32 := 1000000
  pspawntmr : BitVec 16 := 2048
  ptrygrace : BitVec 24 := 8192
  ppressgate : BitVec 32 := 16384
  ptaskbase : Word := 0
  ptaskn : BitVec 17 := 0
  pfqbase : Word := 0
  pfqen : Bool := false
  pfqlog2 : BitVec 4 := 0
  pfqhead : BitVec 16 := 0
  pfqtail : BitVec 16 := 0
  pfqwerr : Bool := false
  pfqbad : Bool := false
  pfqovf : Bool := false
  presage : BitVec 32 := 10000
  pagestep : BitVec 32 := 1000
  pwaymask : BitVec 16 := 0xFFFF
  heldWays : Option (BitVec 16) := none
  ptokfirst : BitVec 24 := 0
  ptokcount : BitVec 25 := 0
  pptroot : Word := 0
  phacbase : Word := 0
  phacctl : BitVec 32 := 0
  phacirq : BitVec 32 := 0
  pwinb : Word := 0
  resetting : Bool := false
  /-- the task table's entries, whose bytes in memory are the device's own (14 R348; log entry 83) -/
  tasks : KMap Task := []
  /-- clusters waiting for relaunch, oldest first -/
  relaunchq : List Nat := []
  reserve : Option Reserve := none
  serial : Nat := 1
  /-- the queue whose record was taken last, for the round-robin of 14 R341 -/
  lastq : Option Nat := none
  deriving DecidableEq, Repr, Inhabited

/-- A host work queue (14 R338). -/
structure HostQueue where
  assignV : Bool := false
  part : BitVec 3 := 0
  base : Word := 0
  loc : Bool := false
  en : Bool := false
  log2 : BitVec 4 := 0
  priocap : BitVec 3 := 7
  head : BitVec 12 := 0
  tail : BitVec 12 := 0
  bad : Bool := false
  readerr : Bool := false
  /-- task of its last record, while that is not complete -/
  last : Option Nat := none
  deriving DecidableEq, Repr, Inhabited

/-! ## Memory system -/

/-- An interleave entry (16 R387). -/
structure IlvEntry where
  cls : Nat
  mode : Nat
  slots : List Nat
  deriving DecidableEq, Repr, Inhabited

/-- An L2 line (09 R230 to R232): its number (physical address / 128), its way, valid and dirty sectors, those being fetched, hint,
requesters queued on the fill. Its bytes and poison bits stand in `State.mem` and `State.poison`; where its DRAM copy is poisoned and it is
not, in `State.beneath` (log entry 38). -/
structure L2Line where
  line : Nat := 0
  way : Nat := 0
  valid : BitVec 4 := 0
  dirty : BitVec 4 := 0
  fetching : BitVec 4 := 0
  hint : BitVec 2 := 0
  waiters : Nat := 0
  deriving DecidableEq, Repr, Inhabited

/-- A boundary register of the Turner (16 R396, R400) with the entry the frame is moving to. -/
structure Bound where
  frame : Nat
  b : Nat
  newEntry : IlvEntry
  deriving DecidableEq, Repr, Inhabited

/-- A unit being dropped or dropped (16 R393): kind 1 stack, 2 channel, 3 bank. -/
structure Dropped where
  kind : Nat
  stack : Nat
  chan : Nat := 0
  pc : Nat := 0
  bg : Nat := 0
  bank : Nat := 0
  deriving DecidableEq, Repr, Inhabited

/-- The Turner and the tables it keeps (16). -/
structure Turner where
  /-- entries that differ from the controller's build -/
  entries : KMap IlvEntry := []
  classes : KMap (List Nat) := []
  /-- repair maps: key 2^18 x (12 x drop + stack) + slot, value (channel, spare slot) -/
  repair : KMap (Nat × Nat) := []
  bounds : KMap Bound := []
  state : Nat := 0
  refused : Bool := false
  doneN : Nat := 0
  total : Nat := 0
  need : Nat := 0
  current : Option Dropped := none
  next : Nat := 0
  drops : List Dropped := []
  lost : List Dropped := []
  waitingDrops : List Dropped := []
  released : List Nat := []
  /-- spare slots taken: key 2^18 x stack + slot; extents taken: key 32 x that + channel -/
  spareUsed : KMap Bool := []
  extUsed : KMap Bool := []
  tblsel : Word := 0
  deriving DecidableEq, Repr, Inhabited

/-- Post-package repair (16 R400, R401). -/
structure Ppr where
  state : Nat := 0
  cmd : Word := 0
  left : Nat := 0
  /-- repairs used: bank group key to count -/
  used : KMap Nat := []
  deriving DecidableEq, Repr, Inhabited

/-- The capability list's parts that no other state gives (16 R403). The die clocks are 0 MHz before start stage 1, for which 01 R18 gives
none (log entry 51); what the platform fixes (01 R20) is free (log entry 60). -/
structure Caps where
  capgen : BitVec 32 := 0
  atomicOps : Bool := Config.rootAtomics
  peerHost : Bool := Config.peerHost
  visframes : Nat := 320000
  sparebase : Nat := 240298
  mirframes : Nat := 2 * (Config.booted 0xFFF).mirrorPairs
  workStacks : BitVec 12 := 0xFFF
  /-- the stacks that worked at cold reset, for which the interleave table was built (16 R476) -/
  built : BitVec 12 := 0xFFF
  rates : List Nat := [48000, 48000, 48000]
  clocks : List Nat := [0, 0, 0]
  deadChans : KMap Bool := []
  dropsPer : KMap Nat := []
  deriving DecidableEq, Repr, Inhabited

/-- A channel's error counters, trackers and Brusher position (18 R427, R428, R430). -/
structure ChErr where
  cecnt : BitVec 32 := 0
  uecnt : BitVec 16 := 0
  rfmcnt : BitVec 16 := 0
  brkcnt : BitVec 16 := 0
  deccnt : BitVec 32 := 0
  /-- corrections by bank; of the 16 tracker entries by index, the row tracked and its count -/
  banks : KMap Nat := []
  rows : KMap (Nat × Nat) := []
  scrub : Nat := 0
  passDone : Bool := false
  deriving DecidableEq, Repr, Inhabited

/-- The reliability registers (18 R426, R429, R432). -/
structure Ras where
  vec : BitVec 16 := 0
  irqen : Bool := false
  bankthr : BitVec 16 := 256
  rowthr : BitVec 16 := 8
  refused : Bool := false
  ovf : Bool := false
  head : BitVec 6 := 0
  tail : BitVec 6 := 0
  brushEn : Bool := false
  passh : BitVec 8 := 24
  passes : BitVec 32 := 0
  rows : BitVec 32 := 0
  postpone : BitVec 4 := 4
  level : BitVec 16 := 64
  log : KMap (BitVec 128) := []
  chan : KMap ChErr := []
  /-- bank (32 x device channel + 16 x pseudo-channel + 4 x bank group + bank) to rolling activation count, and to owed refreshes -/
  acts : KMap Nat := []
  owed : KMap Nat := []
  /-- bank to the refresh-management command that it waits for: 1 due, 2 due with no activation before it -/
  rfm : KMap Nat := []
  deriving DecidableEq, Repr, Inhabited

/-! ## Ports and links -/

/-- A landing window (19 R443). -/
structure Landing where
  base : Word := 0
  off : BitVec 20 := 0
  en : Bool := false
  part : BitVec 3 := 0
  len : BitVec 20 := 0
  m : BitVec 4 := 0
  cluster : BitVec 24 := 0
  obj : BitVec 20 := 0
  bytes : BitVec 32 := 0
  noobj : Bool := false
  ended : Bool := false
  fault : Bool := false
  /-- bytes of a count held; posted writes waiting behind it as (offset, length, data) -/
  held : Option Nat := none
  waiting : List (Nat × Nat × Nat) := []
  deriving DecidableEq, Repr, Inhabited

/-- A transaction sent to another device (19 R446): its queue, its tag, and whether the bytes that it carries are poisoned (09 R236). -/
structure Txn where
  queue : Nat
  tag : Nat
  bad : Bool := false
  deriving DecidableEq, Repr, Inhabited

/-- A flit kept for replay (19 R445): its sequence number and the transactions it carries. -/
structure Flit where
  seq : Nat
  void : Bool
  beats : List Txn
  deriving DecidableEq, Repr, Inhabited

/-- A Globutu Link (19 R445 to R447). -/
structure Link where
  working : Bool := true
  nextSeq : Nat := 0
  expect : Nat := 0
  window : List Flit := []
  replays : Nat := 0
  lastNak : Option Nat := none
  /-- transactions of void flits and of links that went down, still to be re-emitted (19 R446, R447) -/
  again : List Txn := []
  /-- flits put on the wire, newest first: (type, sequence number) -/
  sent : List (Nat × Nat) := []
  deriving DecidableEq, Repr, Inhabited

/-- What the device answers to a request from outside: data with its poison, or Unsupported Request (19 R442, R444); to a remote
transaction a trap cause (10 R242). -/
inductive Answer where
  | data (n v : Nat) (bad : Bool)
  | unsupported
  | done
  | cause (code : Nat)
  deriving DecidableEq, Repr, Inhabited

/-- Links, remote transactions and tags (19 R446 to R448). -/
structure Links where
  en : Bool := false
  devnum : BitVec 10 := 0
  link : KMap Link := []
  /-- tags performed for a (device, queue), with their answers: key 2^16 x device + queue, newest first, at most 1,024 -/
  tags : KMap (List (Nat × Answer)) := []
  /-- next order number to perform, per (device, queue); transactions held for their turn -/
  order : KMap Nat := []
  later : KMap (List Nat) := []
  /-- outgoing transactions not yet acknowledged: (queue, tag, link); the next tag -/
  out : List (Nat × Nat × Nat) := []
  nextTag : Nat := 0
  deriving DecidableEq, Repr, Inhabited

/-- The Polgily mailbox (19 R453, R454). -/
structure Mailbox where
  state : Nat := 0
  reason : BitVec 16 := 0
  op : Nat := 0
  buf : KMap Byte := []
  session : Bool := false
  reports : Nat := 0
  deriving DecidableEq, Repr, Inhabited

/-! ## The machine -/

/-- Who moves next when the agenda is empty: a stream by its key, or the run of a Rennet unit. -/
inductive Agent where
  | idle
  | scalar (g : Nat)
  | lane (g : Nat)
  | rennet (u : Nat)
  deriving DecidableEq, Repr, Inhabited

/-- A join point of `qfence` (05 R131): its stream and core, the Ladle queues and the Press stream named, and the Rennet runs
(unit, sequence number) entered before it. -/
structure Join where
  id : Nat
  g : Nat
  core : Nat
  ladle : BitVec 4
  press : Bool
  rennet : Bool
  before : List (Nat × Nat)
  deriving DecidableEq, Repr, Inhabited

/-- One entry of the schedule: an event, a choice of who moves, or what no row of the opcode table names: cycles passing
on a core (with the cycles that its Press's sub-arrays worked), time passing, an L1 line or a TLB entry being replaced, a
DRAM row of a bank being activated, a host CPU writing its own memory, a sector of host memory being marked poisoned or clean, the
write half of a proxied atomic (10 R256), the landing of a `vcast` operation at a member (13 R330), a read of a register of window A by a
function (00 R4, 19 R441). -/
inductive Turn where
  | event (i : Instr)
  | select (a : Agent)
  | clock (core cycles busy : Nat)
  | wait (ns : Nat)
  | dropL1 (core line : Nat)
  | dropTlb (core idx : Nat)
  | dropTlb2 (die idx : Nat)
  | activate (bank : Nat)
  | hostStore (a : Nat) (b : Byte)
  | hostPoison (sector : Nat) (bad : Bool)
  | proxyWrite
  | castLand (i : Nat)
  | regRead (fn off n : Nat)
  /-- a sideband correction of a sector read in a row (18 R428) -/
  | correctDram (chan bank row : Nat)
  /-- an error in a step of the next `mma` at a core (12 R308) -/
  | pressError (core : Nat) (e : PressErr)
  /-- `n` single-bit corrections in a core's memories (18 R435) -/
  | correctCore (core n : Nat)
  deriving DecidableEq, Repr

/-- The whole machine. -/
structure State where
  /-- the schedule still to come: the environment's choices (log entry 3) -/
  agenda : List Turn
  cur : Agent
  /-- counter of free values drawn (log entry 8) -/
  free : Nat
  /-- wall-clock time in ns (log entry 4) -/
  now : Nat
  failed : Bool
  stage : Nat
  groups : KMap Group
  residuals : KMap Residual
  teams : KMap Team
  clusters : KMap Cluster
  cores : KMap Core
  rennets : KMap Rennet
  parts : KMap Partition
  queues : KMap HostQueue
  l2priv : Bool
  heldL2 : Option Bool
  tokbase : Word
  tokn : BitVec 25
  /-- device memory by physical address, and its poison by sector (09 R235, R236) -/
  mem : KMap Byte
  poison : KMap Bool
  /-- check lines (16 R389, R390): key 128 x code group (physical address / 1024) + byte position -/
  check : KMap Byte
  /-- the poison of check lines in DRAM: key 4 x code group + sector (16 R392, 18 R430) -/
  checkBad : KMap Bool
  /-- the L2 slices: key 512 x channel + set to at most 16 lines, the most recently used first (09 R230) -/
  l2 : KMap (List L2Line)
  /-- sectors that an L2 line holds valid and clean and whose DRAM copy is poisoned (09 R235) -/
  beneath : KMap Bool
  l2tlb : KMap (List TlbEntry)
  /-- host memory by address, its poison by sector (09 R236), and the bytes that the proxy has still to write (10 R256) -/
  hostMem : KMap Byte
  hostBad : KMap Bool
  proxy : KMap Byte
  joins : List Join
  nextJoin : Nat
  /-- network-interface reservations of `vcast`, oldest first (13 R330, R337) -/
  casts : List CastLand
  turner : Turner
  ppr : Ppr
  caps : Caps
  ras : Ras
  landing : KMap Landing
  lwmiss : BitVec 32
  links : Links
  mail : Mailbox
  /-- MSI-X messages sent, newest first: (function, vector) -/
  msix : List (Nat × Nat)
  /-- answers given to the outside, newest first -/
  answers : List Answer
  deriving DecidableEq, Repr

/-- What an address of memory that nothing has written reads as (log entry 1). -/
def unwritten : Byte := 0

/-- The canonical form of a memory: addresses rise and no entry holds what an unlisted address reads as. -/
def Memory.wf (m : List Host.Cell) : Bool := KMap.wf unwritten m

/-- Device memory (09 R235) with its poison bits and its check lines, and host memory with its poison bits, have their canonical
form. -/
def State.memWf (s : State) : Bool :=
  Memory.wf s.mem && KMap.wf false s.poison && Memory.wf s.check && Memory.wf s.hostMem && KMap.wf false s.hostBad

/-- The machine right after cold reset (19 R450): start stage 0, every register at its reset value, nothing placed, memory
with nothing listed. -/
def State.reset : State where
  agenda := []
  cur := .idle
  free := 0
  now := 0
  failed := false
  stage := 0
  groups := []
  residuals := []
  teams := []
  clusters := []
  cores := []
  rennets := []
  parts := []
  queues := []
  l2priv := false
  heldL2 := none
  tokbase := 0
  tokn := 0
  mem := []
  poison := []
  check := []
  checkBad := []
  l2 := []
  beneath := []
  l2tlb := []
  hostMem := []
  hostBad := []
  proxy := []
  joins := []
  nextJoin := 0
  casts := []
  turner := {}
  ppr := {}
  caps := {}
  ras := {}
  landing := []
  lwmiss := 0
  links := {}
  mail := {}
  msix := []
  answers := []

end Sys2Proof.Machine
end

