-- ==== Sys2Proof/Machine/Base.lean ====
section
/-! DEFINITION. Reading and writing the parts of State: streams, teams, clusters, cores, registers with their poison, device
memory by byte and sector, scratchpads, and the counters of events. -/

namespace Sys2Proof.Machine

/-! ## Records of State -/

/-- The group or sequencer stream of a key. -/
def State.grp (s : State) (g : Nat) : Group := KMap.read {} g s.groups

/-- Stores a stream's record. -/
def State.setGrp (s : State) (g : Nat) (x : Group) : State := { s with groups := KMap.put g x s.groups }

/-- Changes a stream's record. -/
def State.onGrp (s : State) (g : Nat) (f : Group → Group) : State := s.setGrp g (f (s.grp g))

/-- The team of a holder id. -/
def State.tm (s : State) (t : Nat) : Team := KMap.read {} t s.teams

/-- Stores a team's record. -/
def State.setTm (s : State) (t : Nat) (x : Team) : State := { s with teams := KMap.put t x s.teams }

/-- Changes a team's record. -/
def State.onTm (s : State) (t : Nat) (f : Team → Team) : State := s.setTm t (f (s.tm t))

/-- The cluster of a holder id. -/
def State.cl (s : State) (c : Nat) : Cluster := KMap.read {} c s.clusters

/-- Stores a cluster's record. -/
def State.setCl (s : State) (c : Nat) (x : Cluster) : State := { s with clusters := KMap.put c x s.clusters }

/-- Changes a cluster's record. -/
def State.onCl (s : State) (c : Nat) (f : Cluster → Cluster) : State := s.setCl c (f (s.cl c))

/-- A core position. -/
def State.coreAt (s : State) (n : Nat) : Core := KMap.read {} n s.cores

/-- Stores a core's record. -/
def State.setCore (s : State) (n : Nat) (x : Core) : State := { s with cores := KMap.put n x s.cores }

/-- Changes a core's record. -/
def State.onCore (s : State) (n : Nat) (f : Core → Core) : State := s.setCore n (f (s.coreAt n))

/-- A Rennet unit. -/
def State.unitAt (s : State) (u : Nat) : Rennet := KMap.read {} u s.rennets

/-- Changes a Rennet unit's record. -/
def State.onUnit (s : State) (u : Nat) (f : Rennet → Rennet) : State :=
  { s with rennets := KMap.put u (f (s.unitAt u)) s.rennets }

/-- A partition. -/
def State.partAt (s : State) (p : Nat) : Partition := KMap.read {} p s.parts

/-- Changes a partition's record. -/
def State.onPart (s : State) (p : Nat) (f : Partition → Partition) : State :=
  { s with parts := KMap.put p (f (s.partAt p)) s.parts }

/-- A host work queue. -/
def State.queueAt (s : State) (q : Nat) : HostQueue := KMap.read {} q s.queues

/-- Changes a host work queue. -/
def State.onQueue (s : State) (q : Nat) (f : HostQueue → HostQueue) : State :=
  { s with queues := KMap.put q (f (s.queueAt q)) s.queues }

/-- The stream whose step this is. -/
def State.me (s : State) : Nat :=
  match s.cur with
  | .scalar g | .lane g => g
  | _ => 0

/-- The key of a stream of a team. -/
def streamKey (team grp : Nat) : Nat := team * 128 + grp

/-- The team of a stream key; for a sequencer stream, the anchor team. -/
def keyTeam (g : Nat) : Nat := g / 128

/-- The group number of a stream key; 64 is the sequencer stream. -/
def keyGrp (g : Nat) : Nat := g % 128

/-- The team record of a stream. -/
def State.gTeam (s : State) (g : Nat) : Team := s.tm (keyTeam g)

/-- The cluster id of a stream. -/
def State.gCluster (s : State) (g : Nat) : Nat := (s.gTeam g).cluster

/-- The core that a stream runs on. -/
def State.gCore (s : State) (g : Nat) : Nat := (s.gTeam g).core.getD 0

/-- The partition of a stream. -/
def State.gPart (s : State) (g : Nat) : Nat := (s.gTeam g).part

/-- The stream keys of a team's groups, ascending, the sequencer stream last. -/
def State.teamStreams (s : State) (t : Nat) : List Nat := (KMap.keys s.groups).filter fun g => keyTeam g = t

/-- The stream keys of a team's groups without the sequencer stream. -/
def State.teamGroups (s : State) (t : Nat) : List Nat := (s.teamStreams t).filter fun g => keyGrp g < 64

/-! ## Events counted (18 R434, R435) -/

/-- 18 R434: counts `n` events of a code on a core; `g` is the group number they are attributed to, if any. -/
def Core.count (c : Core) (code n : Nat) (g : Option Nat) : Core :=
  if c.freeze || n = 0 then c
  else
    { c with pmc := (List.range 8).foldl (fun m i =>
        let sel := KMap.read 0 i c.pmsel
        let match1 := sel.extractLsb' 0 8 = BitVec.ofNat 8 code
        let grpOk := sel.extractLsb' 15 1 = 0#1 || g = some (sel.extractLsb' 8 7).toNat
        if match1 && grpOk then KMap.write 0 i (KMap.read 0 i m + BitVec.ofNat 64 n) m else m) c.pmc }

/-- Counts events on the core of a stream, attributed to it; a switched-out stream counts nowhere. A core that
counts nothing is left as it stands. -/
def State.count (s : State) (g code n : Nat) : State :=
  match (s.gTeam g).core with
  | none => s
  | some k =>
    let c := s.coreAt k
    if c.pmsel.isEmpty then s else s.setCore k (c.count code n (some (keyGrp g)))

/-- Counts events on a core, attributed to no group. -/
def State.countCore (s : State) (k code n : Nat) : State :=
  let c := s.coreAt k
  if c.pmsel.isEmpty then s else s.setCore k (c.count code n none)

/-! ## Registers (04 R92, 09 R223) -/

/-- Is the slot of a scalar register poisoned? -/
def Group.sBad (x : Group) (i : Nat) : Bool := i ≠ 0 && KMap.read false i x.sPoison

/-- A scalar register as an instruction reads it: `s0` is zero, and a poisoned slot reads as zero (03 R60, R91). -/
def Group.sGet (x : Group) (i : Nat) : Word :=
  if i = 0 || KMap.read false i x.sPoison then 0 else KMap.read 0 i x.s

/-- Writes a scalar register; a write of `s0` is ignored (03 R60), and a write clears the slot's poison (09 R223). -/
def Group.sSet (x : Group) (i : Nat) (v : Word) : Group :=
  if i = 0 then x else { x with s := KMap.write 0 i v x.s, sPoison := KMap.write false i false x.sPoison }

/-- Sets bits of `c.chkint` (04 R99). -/
def Group.chk (x : Group) (bits : BitVec 32) : Group := { x with chkint := x.chkint ||| bits }

/-- PCONS, SCONS, PRCOR, PRUNC and PADDR of `c.chkint` (04 R99). -/
def pcons : BitVec 32 := 1
/-- SCONS -/
def scons : BitVec 32 := 2
/-- PRCOR -/
def prcor : BitVec 32 := 4
/-- PRUNC -/
def prunc : BitVec 32 := 8
/-- PADDR -/
def paddr : BitVec 32 := 16

/-- 03 R91: a scalar instruction that reads a poisoned slot sets SCONS. -/
def Group.readsS (x : Group) (rs : List Nat) : Group := if rs.any x.sBad then x.chk scons else x

/-- The slot key of register `r` of lane `t`. -/
def vkey (t r : Nat) : Nat := 16 * r + t

/-- The bits in register `r` of lane `t`. -/
def Group.vRaw (x : Group) (t r : Nat) : BitVec 32 := KMap.read 0 (vkey t r) x.v

/-- Is the slot of a vector register poisoned? -/
def Group.vBad (x : Group) (t r : Nat) : Bool := KMap.read false (vkey t r) x.vPoison

/-- 08 R209: copies a register line, all its slots, into the shadow area at its first write inside `try`. -/
def Group.shadowLine (x : Group) (r : Nat) : Group :=
  match x.tr with
  | none => x
  | some y =>
    if (KMap.find r y.shadow).isSome then x
    else { x with tr := some { y with shadow := KMap.put r ((List.range 16).map fun t => (x.vRaw t r, x.vBad t r)) y.shadow } }

/-- Writes a vector slot with its poison bit. -/
def Group.vSetP (x : Group) (t r : Nat) (v : BitVec 32) (p : Bool) : Group :=
  let x := x.shadowLine r
  { x with v := KMap.write 0 (vkey t r) v x.v, vPoison := KMap.write false (vkey t r) p x.vPoison }

/-- Writes a vector slot; the write clears its poison (09 R223). -/
def Group.vSet (x : Group) (t r : Nat) (v : BitVec 32) : Group := x.vSetP t r v false

/-- A predicate register; `k0` is all ones (04 R92). -/
def Group.kGet (x : Group) (i : Nat) : BitVec 16 := if i = 0 then 0xFFFF else KMap.read 0 i x.k

/-- Writes the bits in `m` of a predicate register; a write of `k0` is ignored (04 R92, R93). -/
def Group.kSet (x : Group) (i : Nat) (m v : BitVec 16) : Group :=
  if i = 0 then x else { x with k := KMap.write 0 i ((x.kGet i &&& ~~~ m) ||| (v &&& m)) x.k }

/-- The count of a completion flag. -/
def Group.flag (x : Group) (f : Nat) : Nat := KMap.read 0 f x.flags

/-- 03 R91: adds to the count of a flag. -/
def Group.raiseBy (x : Group) (f n : Nat) : Group := { x with flags := KMap.write 0 f (x.flag f + n) x.flags }

/-- 03 R91: lowers the count of a flag by one, where one is named. -/
def Group.lower (x : Group) (f : Option Nat) : Group :=
  match f with
  | some f => { x with flags := KMap.write 0 f (x.flag f - 1) x.flags }
  | none => x

/-- Lanes of a mask, ascending (00 R7). -/
def lanes (m : BitVec 16) : List Nat := (List.range 16).filter fun t => m.getLsbD t

/-- The mask of a list of lanes. -/
def maskOf (ts : List Nat) : BitVec 16 := ts.foldl (fun m t => m ||| (1#16 <<< t)) 0#16

/-- The lanes of the path running: all live lanes at the start of a clause, none when the lane stream is idle. -/
def Group.pathMask (x : Group) : BitVec 16 :=
  match x.path with
  | some p => p.mask
  | none => 0

/-- The mode number of `xstatus`. -/
def Group.inTry (x : Group) : Bool := x.tr.isSome

/-! ## Numbers -/

/-- Bits [h:l] of a number (03 R89). -/
def bits (x h l : Nat) : Nat := x / 2 ^ l % 2 ^ (h + 1 - l)

/-- The low `n` bits of a number read as two's complement (03 R89). -/
def sext (x n : Nat) : Int :=
  let y := x % 2 ^ n
  if y < 2 ^ (n - 1) then (y : Int) else (y : Int) - 2 ^ n

/-- An integer as an `n`-bit pattern (03 R89). -/
def wrap (x : Int) (n : Nat) : Nat := (x % (2 ^ n : Int)).toNat

/-- 03 R89: clamps to the signed range of `n` bits. -/
def satS (x : Int) (n : Nat) : Int := max (-(2 ^ (n - 1) : Int)) (min x (2 ^ (n - 1) - 1 : Int))

/-- 03 R89: clamps to the unsigned range of `n` bits. -/
def satN (x : Int) (n : Nat) : Int := max 0 (min x (2 ^ n - 1 : Int))

/-- The address of a 64-bit register plus a signed offset, wrapped. -/
def offsetBy (a : Word) (i : Int) : Word := a + BitVec.ofInt 64 i

/-! ## Device memory (09 R235, R236) -/

/-- The frames that are mirrored: the even frames below MIRFRAMES (16 R391, R476). -/
def State.mirrored (s : State) (frame : Nat) : Bool := frame % 2 = 0 && decide (frame < s.caps.mirframes)

/-- Where the copy of a byte of a mirrored pair's first frame lies (16 R391). -/
def mirrorOf (a : Nat) : Nat := (a + 0x20_0000) ^^^ 0x200

/-- Byte `k` of a structure laid out in mirrored bytes (16 R391). -/
def mirroredByte (base k : Nat) : Nat := base + 0x40_0000 * (k / 0x20_0000) + k % 0x20_0000

/-- A byte of device memory. -/
def State.byteAt (s : State) (a : Nat) : Byte := KMap.read unwritten a s.mem

/-- Bytes of device memory. -/
def State.bytesAt (s : State) (a n : Nat) : List Byte := (List.range n).map fun i => s.byteAt (a + i)

/-- The stored poison bit of the sector that holds a byte. -/
def State.badAt (s : State) (a : Nat) : Bool := KMap.read false (a / 32) s.poison

/-- Stores bytes at rising addresses of a memory. -/
def putBytes (m : KMap Byte) (a : Nat) : List Byte → KMap Byte
  | [] => m
  | b :: bs => putBytes (KMap.write unwritten a b m) (a + 1) bs

/-- The sectors that hold any byte of a range. -/
def sectorsOf (a n : Nat) : List Nat := (List.range ((a + n + 31) / 32 - a / 32)).map fun i => a / 32 + i

/-- 09 R236: a store clears the poison of the sectors that it writes whole, and keeps that of the others. -/
def clearWhole (p : KMap Bool) (a n : Nat) : KMap Bool :=
  (sectorsOf a n).foldl (fun p k => if a ≤ 32 * k ∧ 32 * k + 32 ≤ a + n then KMap.write false k false p else p) p

/-- 16 R388: `h`, the exclusive-or of the line number's three-bit pieces. -/
def lineHash (o : Nat) : Nat := bits o 2 0 ^^^ bits o 5 3 ^^^ bits o 8 6 ^^^ bits o 11 9 ^^^ bits o 13 12

/-- 16 R389: α^n · x in GF(2⁸) with the polynomial x⁸ + x⁴ + x³ + x² + 1. -/
def gfAlpha : Nat → Byte → Byte
  | 0, x => x
  | n + 1, x => gfAlpha n ((x <<< 1) ^^^ if x.msb then 0x1D#8 else 0#8)

/-- 16 R389: `h` of the line that holds a byte. -/
def checkRow (a : Nat) : Nat := lineHash (bits a 20 7)

/-- Where the check byte of a byte stands in `State.check`. -/
def checkKey (a : Nat) : Nat := 128 * (a / 1024) + a % 128

/-- 16 R390: the check lines after bytes are written: c[k] ⊕ α^h · (new[k] ⊕ old[k]). -/
def State.checkAfter (s : State) (a : Nat) (bs : List Byte) : KMap Byte :=
  (bs.zipIdx).foldl (fun c e =>
    let i := a + e.2
    KMap.write unwritten (checkKey i) (KMap.read unwritten (checkKey i) c ^^^ gfAlpha (checkRow i) (e.1 ^^^ s.byteAt i)) c) s.check

/-- The line of an L2 set that holds a line number. -/
def lineIn (n : Nat) (ls : List L2Line) : Option L2Line := ls.find? fun x => x.line = n

/-- The line of the L2 slices that holds a line number; a line has one home set. -/
def State.l2Line (s : State) (n : Nat) : Option L2Line := s.l2.findSome? fun e => lineIn n e.2

/-- Does the home's L2 slice hold the sector of an address valid (09 R230)? -/
def State.l2Holds (s : State) (a : Nat) : Bool :=
  match s.l2Line (a / 128) with
  | some x => x.valid.getLsbD (a / 32 % 4)
  | none => false

/-- Stores bytes in device memory at one copy, its check lines with them (16 R390). -/
def State.storeAt (s : State) (a : Nat) (bs : List Byte) : State :=
  { s with mem := putBytes s.mem a bs, poison := clearWhole s.poison a bs.length, check := s.checkAfter a bs }

/-- 16 R391: a write updates both copies of a mirrored frame. The bytes lie in one 512-byte block. -/
def State.storeBlock (s : State) (a : Nat) (bs : List Byte) : State :=
  let s := s.storeAt a bs
  if s.mirrored (a / 0x20_0000) then s.storeAt (mirrorOf a) bs else s

/-- Cuts a range into pieces that each lie in one 32-byte sector: (start, length). -/
def sectorPieces (a : Nat) : Nat → Nat → List (Nat × Nat)
  | 0, _ => []
  | _, 0 => []
  | fuel + 1, n =>
    let k := min n (32 - a % 32)
    (a, k) :: sectorPieces (a + k) fuel (n - k)

/-- Stores bytes in device memory. -/
def State.store (s : State) (a : Nat) (bs : List Byte) : State :=
  if a / 512 = (a + bs.length - 1) / 512 then s.storeBlock a bs
  else (sectorPieces a bs.length bs.length).foldl (fun s p => s.storeBlock p.1 ((bs.drop (p.1 - a)).take p.2)) s

/-- Marks a sector of device memory poisoned or clean, both copies of a mirrored one. -/
def State.setBad (s : State) (k : Nat) (b : Bool) : State :=
  let p := KMap.write false k b s.poison
  { s with poison := if s.mirrored (32 * k / 0x20_0000) then KMap.write false (mirrorOf (32 * k) / 32) b p else p }

end Sys2Proof.Machine
end

