-- ==== Sys2Proof/Machine/Translate.lean ====
section
/-! DEFINITION. From a virtual address to a byte: the interleave and repair tables, lost units, page walks and TLBs (16), and the
owner-token check (15 R358 to R366). -/

namespace Sys2Proof.Machine

/-! ## Where a line lies (16 R387 to R396) -/

/-- 16 R476: the interleave entry that the Polgily controller's build gives a frame. -/
def State.builtEntry (s : State) (f : Nat) : IlvEntry :=
  let b := Config.booted s.caps.built
  { cls := b.cls f
    mode := if f < s.caps.mirframes then 2 + f % 2
      else if f < s.caps.visframes + s.turner.released.length + 397 then 1 else 0
    slots := (List.range 9).map fun j => b.slot f j }

/-- The interleave entry of a frame; a released frame is unused. -/
def State.entryOf (s : State) (f : Nat) : IlvEntry :=
  if s.turner.released.contains f then { cls := 0, mode := 0, slots := [] }
  else (KMap.find f s.turner.entries).getD (s.builtEntry f)

/-- The stacks of a class, by position. -/
def State.classOf (s : State) (c : Nat) : List Nat :=
  (KMap.find c s.turner.classes).getD ((List.range 9).map fun j => (Config.booted s.caps.built).stack c j)

/-- The interleave entry that steers an access to a line: the new one below the boundary of a frame in flight, the old one
at or above it (16 R396). -/
def State.entryFor (s : State) (f o : Nat) : IlvEntry :=
  match s.turner.bounds.find? (fun b => b.2.frame = f) with
  | some b => if o < b.2.b then b.2.newEntry else s.entryOf f
  | none => s.entryOf f

/-- A DRAM position. -/
structure Place where
  stack : Nat
  chan : Nat
  pc : Nat
  bg : Nat
  bank : Nat
  column : Nat
  row : Nat
  deriving DecidableEq, Repr, Inhabited

/-- 16 R388: the DRAM position of position `p` of a slot. -/
def placeOf (stack slot p : Nat) : Place :=
  { stack, chan := bits p 4 0 ^^^ bits slot 4 0, pc := bits p 5 5 ^^^ bits slot 5 5, bg := bits p 7 6 ^^^ bits slot 7 6,
    bank := bits p 9 8 ^^^ bits slot 9 8, column := bits slot 11 10 * 2 + bits p 10 10,
    row := bits slot 17 12 * 1024 + bits slot 9 0 }

/-- Does a position lie in a unit that is dropped or lost? -/
def Dropped.holds (d : Dropped) (x : Place) : Bool :=
  d.stack = x.stack &&
    (d.kind = 1 || (d.kind = 2 && d.chan = x.chan) ||
      (d.kind = 3 && d.chan = x.chan && d.pc = x.pc && d.bg = x.bg && d.bank = x.bank))

/-- The key of a repair-map entry: drop `i` of a stack, slot. -/
def repairKey (stack i slot : Nat) : Nat := 2 ^ 18 * (12 * i + stack) + slot

/-- 16 R396: does a bank or channel drop in progress not yet steer a line of a frame: at or above the frame's boundary? -/
def State.beforeStep (s : State) (f o : Nat) : Bool := s.turner.bounds.any fun b => b.2.frame = f && decide (b.2.b ≤ o)

/-- 16 R394: sends a line of slot `slot`, position `p`, through the repair maps of its stack's bank and channel drops, in the
order made; the drop in progress, the last, where `old` is false. -/
def State.throughRepair (s : State) (stack slot p : Nat) (old : Bool) : Place :=
  let ds := (s.turner.drops.filter fun d => d.stack = stack && d.kind ≠ 1)
  let now := match s.turner.current with | some d => d.stack = stack && d.kind ≠ 1 | none => false
  let r := (List.range (if old && now then ds.length - 1 else ds.length)).foldl (fun (acc : Nat × Nat) i =>
    match ds[i]?, KMap.find (repairKey stack i acc.1) s.turner.repair with
    | some d, some (c', s') =>
      if d.holds (placeOf stack acc.1 acc.2) then (s', acc.2 / 32 * 32 + (c' ^^^ s' % 32)) else acc
    | _, _ => acc) (slot, p)
  placeOf stack r.1 r.2

/-- The position of the line at class position `j` of the code group of line `o` of frame `f`. -/
def State.placeAt (s : State) (f o j : Nat) : Place :=
  let e := s.entryFor f o
  let stack := ((s.classOf e.cls)[j]?).getD 0
  s.throughRepair stack ((e.slots[j]?).getD 0) (o / 8) (s.beforeStep f o)

/-- 16 R388: where a device physical address lies. -/
def State.locate (s : State) (dpa : Nat) : Place :=
  let f := bits dpa 39 21
  let o := bits dpa 20 7
  s.placeAt f o ((f % 9 + 1 + lineHash o) % 9)

/-- The device channel of a line: the number of its Rennet unit and of its home L2 slice (01 R12, 16 R388). -/
def State.homeOf (s : State) (dpa : Nat) : Nat :=
  let x := s.locate dpa
  32 * x.stack + x.chan

/-- Is a position on a unit marked lost (16 R392)? -/
def State.isLost (s : State) (x : Place) : Bool := s.turner.lost.any fun d => d.holds x

/-- Is a sector poisoned in its DRAM, whatever the home's L2 slice holds? -/
def State.badBelow (s : State) (a : Nat) : Bool := s.badAt a || (KMap.find (a / 32) s.beneath).isSome

/-- 16 R392: is a sector unreadable in DRAM: its line on a lost unit, and another line of its group, or the check line, lost, or poisoned
there? -/
def State.undecodable (s : State) (a : Nat) : Bool :=
  !s.turner.lost.isEmpty &&
    (let f := bits a 39 21
     let o := bits a 20 7
     s.isLost (s.locate a) &&
       (((List.range 8).any fun i =>
          let o' := o / 8 * 8 + i
          o' ≠ o && (s.isLost (s.placeAt f o' ((f % 9 + 1 + lineHash o') % 9)) || s.badBelow (2 ^ 21 * f + 128 * o' + a % 128)))
        || s.isLost (s.placeAt f o (f % 9)) || KMap.read false (4 * (a / 1024) + a / 32 % 4) s.checkBad))

/-- One copy of a sector reads as poisoned: what the home's L2 slice holds valid needs no decoding. -/
def State.badCopy (s : State) (a : Nat) : Bool := s.badAt a || (s.undecodable a && !s.l2Holds a)

/-- A sector of device memory reads as poisoned: no copy is clean (09 R222, 16 R391). -/
def State.bad (s : State) (a : Nat) : Bool :=
  s.badCopy a && (!s.mirrored (a / 0x20_0000) || s.badCopy (mirrorOf a))

/-- 16 R389: a byte decoded from the check line and the other seven lines of its code group. -/
def State.decodeByte (s : State) (a : Nat) : Byte :=
  let h := checkRow a
  let others := (List.range 8).map fun i => a / 1024 * 1024 + 128 * i + a % 128
  let sum := others.foldl (fun c b => if b = a then c else c ^^^ gfAlpha (checkRow b) (s.byteAt b)) (KMap.read unwritten (checkKey a) s.check)
  gfAlpha (255 - h) sum

/-- Bytes in one sector of one copy: of a line on a lost unit as its code group gives them (16 R392). -/
def State.copyBytes (s : State) (a n : Nat) : List Byte :=
  if !s.turner.lost.isEmpty && s.isLost (s.locate a) then (List.range n).map fun i => s.decodeByte (a + i) else s.bytesAt a n

/-- The bytes of a range in one sector as a read gives them: of the second copy where the first is poisoned (16 R391). -/
def State.loadBytes (s : State) (a n : Nat) : List Byte :=
  if s.badCopy a && s.mirrored (a / 0x20_0000) && !s.badCopy (mirrorOf a) then s.copyBytes (mirrorOf a) n else s.copyBytes a n

/-- Is any sector of a range poisoned? -/
def State.badRange (s : State) (a n : Nat) : Bool := (sectorsOf a n).any fun k => s.bad (32 * k)

/-- Bytes of a longer range, each sector of a poisoned one reading as zeros (03 R91). -/
def State.consumeBytes (s : State) (a n : Nat) : List Byte :=
  (sectorPieces a n n).flatMap fun p => if s.bad p.1 then List.replicate p.2 0 else s.loadBytes p.1 p.2

/-! ## Token entries (15 R358 to R360) -/

/-- The fields of a token entry. -/
structure TokEntry where
  gen : Nat := 0
  lender : Nat := 0
  holder : Nat := 0
  base : Nat := 0
  log2 : Nat := 0
  /-- 0 FREE, 1 HELD, 2 SHARED, 3 LENT, 4 STRANDED, 5 MEMSIDE -/
  state : Nat := 0
  space : Nat := 0
  suspect : Nat := 0
  shares : Nat := 0
  lentsh : Nat := 0
  deriving DecidableEq, Repr, Inhabited

/-- 15 R359: the fields in an entry's 128 bits. -/
def TokEntry.ofNat (x : Nat) : TokEntry :=
  { gen := bits x 127 112, lender := bits x 111 88, holder := bits x 87 64, base := bits x 63 28, log2 := bits x 27 23,
    state := bits x 22 20, space := bits x 19 19, suspect := bits x 18 18, shares := bits x 17 9, lentsh := bits x 8 0 }

/-- 15 R359: the entry's 128 bits. -/
def TokEntry.toNat (e : TokEntry) : Nat :=
  e.lentsh + 2 ^ 9 * e.shares + 2 ^ 18 * e.suspect + 2 ^ 19 * e.space + 2 ^ 20 * e.state + 2 ^ 23 * e.log2 +
    2 ^ 28 * e.base + 2 ^ 64 * e.holder + 2 ^ 88 * e.lender + 2 ^ 112 * e.gen

/-- 15 R358: where the entry of a token id lies. -/
def State.tokAddr (s : State) (id : Nat) : Nat := mirroredByte s.tokbase.toNat (16 * id)

/-- An id names an entry when it is below TOKN. -/
def State.tokExists (s : State) (id : Nat) : Bool := decide (id < s.tokn.toNat)

/-- A token entry as it stands. -/
def State.tokRaw (s : State) (id : Nat) : TokEntry := TokEntry.ofNat (natOfBytes (s.loadBytes (s.tokAddr id) 16))

/-- 15 R360: an entry as the checks and instructions read it: STRANDED and suspect where it is malformed or both copies are
poisoned. -/
def State.tok (s : State) (id : Nat) : TokEntry :=
  let e := s.tokRaw id
  if e.state ≥ 6 || e.lentsh > e.shares || e.log2 > (if e.space = 0 then 24 else 31) || s.bad (s.tokAddr id) then
    { e with state := 4, suspect := 1 }
  else e

/-- The lines of an L1 that meet a condition; a set that holds none is not listed. -/
def keepLines (keep : L1Line → Bool) (m : KMap (List L1Line)) : KMap (List L1Line) :=
  (m.map fun e => (e.1, e.2.filter keep)).filter fun e => !e.2.isEmpty

/-- 15 R367: drops every L1 line tagged with a token id, on every core. -/
def State.dropTagged (s : State) (id : Nat) : State :=
  { s with cores := s.cores.map fun c => (c.1, { c.2 with l1 := keepLines (fun x => decide (x.tok ≠ id)) c.2.l1 }) }

/-- Writes a token entry, both copies (15 R358, R367): a generation that wraps drops the L1 lines tagged with the id. -/
def State.setTok (s : State) (id : Nat) (e : TokEntry) : State :=
  let old := s.tokRaw id
  let s := s.store (s.tokAddr id) (bytesOfNat 16 e.toNat)
  if old.gen = 0xFFFF && e.gen = 0 then s.dropTagged id else s

/-- One more generation, wrapping (15 R368). -/
def TokEntry.bump (e : TokEntry) : TokEntry := { e with gen := (e.gen + 1) % 65536 }

/-! ## Who accesses (15 R362 to R364) -/

/-- An accessor: the partition whose tables it walks, the holder ids it matches, the token ids it has shares of, its mode, and
the core whose TLB and L1 it uses. -/
structure Who where
  part : Nat
  holders : List Nat
  shares : List Nat := []
  kernel : Bool := false
  core : Option Nat := none
  die : Option Nat := none
  deriving DecidableEq, Repr, Inhabited

/-- The holder id of memory. -/
def memoryHolder : Nat := 0xFFFFFF

/-- 15 R362: the holder id of a host function: port 0 host, 1 peer. -/
def hostHolder (port part : Nat) : Nat := 0xA00000 + 8 * port + part

/-- 15 R362: the holder id of a Ladle queue of a core (its number is 128 x die + 16 x column + row). -/
def ladleHolder (core queue : Nat) : Nat :=
  0x800000 + 512 * (core / 128) + 64 * (core / 16 % 8) + 4 * (core % 16) + queue

/-- 15 R362: the holder id of a peer landing window. -/
def windowHolder (w : Nat) : Nat := 0xC00000 + w

/-- 15 R362: the holder id of a remote device. -/
def remoteHolder (dev part : Nat) : Nat := 0xE00000 + 8 * dev + part

/-- 15 R364: the accessor that a stream is, in a mode. A group acts as its team and its cluster, a sequencer stream as its
cluster. -/
def State.whoIs (s : State) (g : Nat) (kernel : Bool) : Who :=
  let t := s.gTeam g
  let c := t.cluster
  { part := t.part
    holders := if keyGrp g = 64 then [c] else [keyTeam g, c]
    shares := if keyGrp g = 64 then (s.cl c).shares else t.shares ++ (s.cl c).shares
    kernel
    core := t.core
    die := t.core.map fun k => k / 128 }

/-- 15 R364: the same for an operation performed from a Ladle queue of a core: it matches that queue's holder id too. -/
def Who.onQueue (w : Who) (core queue : Nat) : Who := { w with holders := w.holders ++ [ladleHolder core queue] }

/-- 15 R364: the accessor that the scheduler and the host function of a partition are, with kernel rights (14 R345). -/
def hostWho (port part : Nat) : Who := { part, holders := [hostHolder port part], kernel := true }

/-! ## Page walks (16 R382 to R385) -/

/-- Access kinds of `translate` (16 R385). -/
inductive AccKind where
  | read | write | execute | atomic
  deriving DecidableEq, Repr

/-- A table entry of 16 bytes; none when both copies of its sector are poisoned (16 R384). -/
def State.tableEntry (s : State) (a : Nat) : Option Nat :=
  if s.bad a then none else some (natOfBytes (s.loadBytes a 16))

/-- 16 R384: may a table lie here: the first frame of a mirrored pair? -/
def State.tableOk (s : State) (pa : Nat) : Bool := decide (pa < 2 ^ 40) && s.mirrored (pa / 2 ^ 21)

/-- 16 R384: may a local page lie here: every frame it covers visible, not released and no mirror copy? -/
def State.pageOk (s : State) (pa sizeBits : Nat) : Bool :=
  let f0 := pa / 2 ^ 21
  let n := if sizeBits ≤ 21 then 1 else 2 ^ (sizeBits - 21)
  decide (pa < 2 ^ 40) && decide (f0 + n ≤ s.caps.visframes + s.turner.released.length) &&
    !(s.turner.released.any fun f => f0 ≤ f && decide (f < f0 + n)) &&
    (if n = 1 then !(decide (f0 < s.caps.mirframes) && decide (f0 % 2 = 1)) else decide (f0 ≥ s.caps.mirframes))

/-- A leaf read from its 128 bits (16 R383). -/
def leafOf (x sizeBits : Nat) : Leaf :=
  { tok := bits x 127 104, dev := bits x 103 94, pa := 2 ^ 16 * bits x 63 16, bits := sizeBits, host := bits x 9 9 = 1,
    ret := bits x 8 7, ms := bits x 6 6 = 1, u := bits x 5 5 = 1, x := bits x 4 4 = 1, w := bits x 3 3 = 1, r := bits x 2 2 = 1 }

/-- 16 R384: the outcome of a leaf entry at a level. -/
def State.leafOk (s : State) (x sizeBits : Nat) : Bool :=
  let l := leafOf x sizeBits
  let own := s.links.devnum.toNat
  bits x 93 64 = 0 && bits x 15 10 = 0 && (sizeBits = 16 || bits x 27 16 = 0) &&
    (if l.dev = own then (l.host || s.pageOk l.pa sizeBits) else !l.host)

/-- One level of a walk: `lvl` levels of table remain. -/
def State.walkFrom (s : State) (va : Nat) : Nat → Nat → Option Leaf
  | 0, _ => none
  | lvl + 1, base =>
    if !s.tableOk base then none
    else
      match s.tableEntry (base + 16 * bits va (28 + 12 * lvl - 1) (16 + 12 * lvl)) with
      | none => none
      | some x =>
        if x % 2 = 0 then none
        else if x / 2 % 2 = 1 then
          if lvl = 2 || !s.leafOk x (16 + 12 * lvl) then none else some (leafOf x (16 + 12 * lvl))
        else if bits x 15 2 ≠ 0 || bits x 127 64 ≠ 0 then none
        else s.walkFrom va lvl (2 ^ 16 * bits x 63 16)

/-- 16 R384: the walk of a partition's tables; `none` is PAGE. -/
def State.walk (s : State) (part va : Nat) : Option Leaf := s.walkFrom va 3 (s.partAt part).pptroot.toNat

/-- The TLB entry that maps an address (16 R386). -/
def tlbFind (es : List TlbEntry) (part va : Nat) : Option Leaf :=
  (es.find? fun e => e.part = part && e.vpage = va / 2 ^ e.leaf.bits).map fun e => e.leaf

/-- 16 R386: the leaf of an address, from the core's L1 TLB, its die's L2 TLB, or a walk. -/
def State.leafFor (s : State) (w : Who) (va : Nat) : Option Leaf :=
  let l1 := match w.core with
    | some k => tlbFind (s.coreAt k).tlb w.part va
    | none => none
  let l2 := match w.die with
    | some d => tlbFind (KMap.read [] d s.l2tlb) w.part va
    | none => none
  match l1 with
  | some l => some l
  | none =>
    match l2 with
    | some l => some l
    | none => s.walk w.part va

/-- 16 R386: keeps a translation in the core's L1 TLB (256 entries) and the die's L2 TLB (16,384). -/
def State.fillTlb (s : State) (w : Who) (va : Nat) (l : Leaf) : State :=
  let e : TlbEntry := { part := w.part, vpage := va / 2 ^ l.bits, leaf := l }
  let s := match w.core with
    | some k => if (tlbFind (s.coreAt k).tlb w.part va).isSome then s else s.onCore k fun c => { c with tlb := (e :: c.tlb).take 256 }
    | none => s
  match w.die with
  | some d =>
    if (tlbFind (KMap.read [] d s.l2tlb) w.part va).isSome then s
    else { s with l2tlb := KMap.put d ((e :: KMap.read [] d s.l2tlb).take 16384) s.l2tlb }
  | none => s

/-- 16 R385: do the permission bits of a leaf allow an access? -/
def permits (l : Leaf) (k : AccKind) (kernel : Bool) : Bool :=
  (kernel || l.u) &&
    match k with
    | .read => l.r
    | .write => l.w
    | .execute => l.x
    | .atomic => l.r && l.w

/-! ## The token check (15 R365, R366) -/

/-- 15 R365: the live entry that covers a physical address, found from the page-table entry's token id: `none` is
UNOWNED. -/
def State.covering (s : State) (r pa : Nat) (space : Nat) : Option Nat :=
  let b := (s.tokRaw r).base * 65536
  if !s.tokExists r || pa < b || (pa - b) / 65536 ≥ 2 ^ 24 then none
  else
    let g := (pa - b) / 65536
    match (List.range 25).find? (fun j =>
      let id := (r + g) / 2 ^ j * 2 ^ j
      s.tokExists id && (s.tok id).state ≠ 0) with
    | none => none
    | some j =>
      let id := (r + g) / 2 ^ j * 2 ^ j
      let e := s.tok id
      if e.base * 65536 ≤ pa && pa < e.base * 65536 + 65536 * 2 ^ e.log2 && e.space = space then some id else none

/-- 15 R366: the fault that a covering entry gives an access; `none` allows it. -/
def tokFault (w : Who) (id : Nat) (e : TokEntry) (write : Bool) : Option Cause :=
  match e.state with
  | 1 | 3 => if w.holders.contains e.holder || e.holder = memoryHolder then none else some .unowned
  | 2 =>
    if write then some .sharedWrite
    else if w.holders.contains e.holder || w.shares.contains id || e.holder = memoryHolder then none
    else some .unowned
  | 5 => none
  | 0 => some .unowned
  | _ => some .stranded

/-- What a translation finds: the physical address, its leaf, and the covering token's id, generation and whether a cluster
holds it (09 R227). -/
structure Xlat where
  pa : Nat
  leaf : Leaf
  remote : Bool
  tok : Nat := 0
  gen : Nat := 0
  wide : Bool := false
  deriving DecidableEq, Repr, Inhabited

/-- A holder id that names a cluster (15 R362). -/
def isClusterId (h : Nat) : Bool := h / 0x400000 = 1

/-- 03 R91 `translate`: the outcome of the translation check and the owner-token check, without its effect on the TLBs. -/
def State.xlate (s : State) (w : Who) (va : Nat) (k : AccKind) : Except Cause Xlat :=
  if va ≥ 2 ^ 52 then .error .page
  else
    match s.leafFor w va with
    | none => .error .page
    | some l =>
      if !permits l k w.kernel then .error .perm
      else
        let pa := l.pa + va % 2 ^ l.bits
        if l.dev ≠ s.links.devnum.toNat then .ok { pa, leaf := l, remote := true }
        else
          match s.covering l.tok pa (if l.host then 1 else 0) with
          | none => .error .unowned
          | some id =>
            let e := s.tok id
            match tokFault w id e (k = .write || k = .atomic) with
            | some c => .error c
            | none => .ok { pa, leaf := l, remote := false, tok := id, gen := e.gen, wide := isClusterId e.holder }

/-- The translation with its effect: what is found is kept in the TLBs. -/
def State.touch (s : State) (w : Who) (va : Nat) : State :=
  match s.leafFor w va with
  | some l => if va < 2 ^ 52 then s.fillTlb w va l else s
  | none => s

/-- The hint in force: a page's own where the instruction gives none (16 R383). -/
def hintOf (l : Leaf) (h : Nat) : Nat := if h = 0 then l.ret else h

end Sys2Proof.Machine
end

