-- ==== Sys2Proof/Machine/Memory.lean ====
section
/-! DEFINITION. Loads and stores at their agents: the L1 and L2 (09 R227 to R232), host memory, memory through translation for
the device's own accesses, and the scratchpads (09 R224, R226). -/

namespace Sys2Proof.Machine

/-! ## L2 marks (09 R230 to R232) -/

/-- 16 R392, 18 R427: a read of a line on a lost unit is decoded from the rest of its code group, and counted there. -/
def State.countDecode (s : State) (pa : Nat) : State :=
  if s.turner.lost.isEmpty then s
  else
    let x := s.locate pa
    if !s.isLost x then s
    else
      let n := 32 * x.stack + x.chan
      let c := KMap.read ({} : ChErr) n s.ras.chan
      { s with ras := { s.ras with chan := KMap.put n { c with deccnt := c.deccnt + 1 } s.ras.chan } }

/-- The ways in which a partition allocates (09 R233): in Private mode those of its mask. -/
def State.l2Ways (s : State) (p : Nat) : BitVec 16 := if s.l2priv then (s.partAt p).pwaymask else 0xFFFF

/-- 09 R231: the line replaced: after a bypass hit first, then short-lived, default, long-lived ones, of each kind the least recently
used; a line whose fill is under way stays. -/
def l2Victim (ls : List L2Line) (ways : BitVec 16) : Option L2Line :=
  let c := (ls.filter fun x => ways.getLsbD x.way && x.fetching = 0).reverse
  [3, 1, 0, 2].findSome? fun h => c.find? fun x => x.hint.toNat = h

/-- 09 R231, R232: the way that a miss takes, and the line that leaves it. -/
def l2Room (ls : List L2Line) (ways : BitVec 16) : Option (Nat × Option Nat) :=
  match (List.range 16).find? fun w => ways.getLsbD w && !(ls.any fun x => x.way = w) with
  | some w => some (w, none)
  | none => (l2Victim ls ways).map fun x => (x.way, some x.line)

/-- 09 R231: a ninth long-lived line demotes the least recently used of them to default. -/
def l2Demote (ls : List L2Line) : List L2Line :=
  let long := ls.filter fun x => x.hint = 2#2
  if long.length ≤ 8 then ls
  else ls.map fun x => if (long.getLast?.map L2Line.line) = some x.line then { x with hint := 0 } else x

/-- The key of the set of a line in its home slice (09 R230). -/
def State.l2Key (s : State) (pa : Nat) : Nat := 512 * s.homeOf pa + Config.l2Set (pa / 128) % 512

/-- 09 R235: sectors of an L2 line leave it: a dirty one is written back, of a clean one the DRAM copy is left. -/
def State.leaveL2 (s : State) (x : L2Line) (m : BitVec 4) : State :=
  if s.beneath.isEmpty then s
  else
    (List.range 4).foldl (fun s i =>
      let k := 4 * x.line + i
      if !(m.getLsbD i && (KMap.find k s.beneath).isSome) then s
      else { s with
        poison := if x.dirty.getLsbD i then s.poison else KMap.write false k true s.poison
        beneath := KMap.del k s.beneath }) s

/-- 09 R230 to R232: an access touches a line of its home slice, as the most recently used of its set: a store makes its sector valid
and dirty; a load of a sector that is not valid starts a fetch of it and queues its requester until the fill; the hint of the last
access is kept. A bypass access that misses allocates nothing. -/
def State.touchL2 (s : State) (p pa hint : Nat) (write : Bool) : State :=
  let n := pa / 128
  let bit : BitVec 4 := 1#4 <<< (pa / 32 % 4)
  let hit := s.l2Line n
  let has := match hit with | some x => x.valid &&& bit ≠ 0 | none => false
  let ls := KMap.read [] (s.l2Key pa) s.l2
  let room := l2Room ls (s.l2Ways p)
  let upd (x : L2Line) : L2Line :=
    if write then { x with valid := x.valid ||| bit, dirty := x.dirty ||| bit, fetching := x.fetching &&& ~~~bit, hint := BitVec.ofNat 2 hint }
    else if has then { x with hint := BitVec.ofNat 2 hint }
    else { x with fetching := x.fetching ||| bit, waiters := min 32 (x.waiters + 1), hint := BitVec.ofNat 2 hint }
  let s1 := if write || has then s else s.countDecode pa
  let s2 := if s.beneath.isEmpty then s1
    else match hit, room with
      | none, some (_, some out) => if hint = 3 then s1 else (lineIn out ls).elim s1 fun y => s1.leaveL2 y 0xF
      | _, _ => s1
  { s2 with l2 :=
      match hit with
      | some x => if hint = 3 && !write && !has then s.l2 else KMap.put (s.l2Key pa) (l2Demote (upd x :: ls.filter fun y => y.line ≠ n)) s.l2
      | none =>
        if hint = 3 then s.l2
        else match room with
          | none => s.l2
          | some (w, out) => KMap.put (s.l2Key pa) (l2Demote (upd { line := n, way := w } :: ls.filter fun y => some y.line ≠ out)) s.l2 }

/-- Changes a line of the L2 slices, or takes it out. -/
def State.onL2 (s : State) (n : Nat) (f : L2Line → Option L2Line) : State :=
  let s1 := if s.beneath.isEmpty then s
    else match s.l2Line n with
      | some x => s.leaveL2 x (x.valid &&& ~~~((f x).elim 0 L2Line.valid))
      | none => s
  { s1 with l2 := (s.l2.map fun e => (e.1, e.2.filterMap fun x => if x.line = n then f x else some x)).filter fun e => !e.2.isEmpty }

/-- 16 R397: the dirty sectors of a line enter the home slice that its address has now. -/
def State.enterL2 (s : State) (x : L2Line) : State :=
  if x.dirty = 0 then s
  else
    let key := s.l2Key (128 * x.line)
    let ls := KMap.read [] key s.l2
    match l2Room ls 0xFFFF with
    | none => s
    | some (w, out) =>
      let y := { x with way := w, valid := x.dirty, fetching := 0, waiters := 0 }
      let s1 := match out.bind fun n => lineIn n ls with
        | some z => s.leaveL2 z 0xF
        | none => s
      { s1 with l2 := KMap.put key (l2Demote (y :: ls.filter fun z => some z.line ≠ out)) s1.l2 }

/-- Every line of the L2 slices is written back and, where `drop` says so, invalidated (09 R233). -/
def State.flushL2 (s : State) (drop : Bool) : State :=
  let s1 := (s.l2.flatMap Prod.snd).foldl (fun s x => s.leaveL2 x (if drop then x.valid else x.dirty)) s
  { s1 with l2 := if drop then [] else s.l2.map fun e => (e.1, e.2.map fun x => { x with dirty := 0 }) }

/-- 19 R452: the dirty lines of some ways of the L2 slices are written back. -/
def State.writeBackWays (s : State) (ways : BitVec 16) : State :=
  let s1 := ((s.l2.flatMap Prod.snd).filter fun x => ways.getLsbD x.way).foldl (fun s x => s.leaveL2 x x.dirty) s
  { s1 with l2 := s.l2.map fun e => (e.1, e.2.map fun x => if ways.getLsbD x.way then { x with dirty := 0 } else x) }

/-- Drops an L2 line, its dirty sectors written back (09 R234). -/
def State.dropL2 (s : State) (pa : Nat) : State := s.onL2 (pa / 128) fun _ => none

/-- A line without one of its sectors; none when no other is left. -/
def L2Line.without (x : L2Line) (i : Nat) : Option L2Line :=
  let bit : BitVec 4 := 1#4 <<< i
  let y := { x with valid := x.valid &&& ~~~bit, dirty := x.dirty &&& ~~~bit }
  if y.valid = 0 && y.fetching = 0 then none else some y

/-- 10 R242: the home slice writes back and invalidates the target sector of an atomic. -/
def State.dropSector (s : State) (pa : Nat) : State := s.onL2 (pa / 128) fun x => x.without (pa / 32 % 4)

/-- 09 R232: does an ordinary access wait at its home slice: a 33rd requester of a line before its fill, or no way of its partition to
allocate while every one is being filled? -/
def State.l2Busy (s : State) (p : Nat) (x : Xlat) : Bool :=
  match s.l2Line (x.pa / 128) with
  | some y => !y.valid.getLsbD (x.pa / 32 % 4) && decide (y.waiters ≥ 32)
  | none => s.l2.any fun e => decide (s.l2Ways p ≠ 0) && (l2Room e.2 (s.l2Ways p)).isNone && e.1 = s.l2Key x.pa

/-- 10 R261: does the Rennet unit of a memory-side address keep ordinary operations waiting: a segment of a run is under way, or the
arbitration window of the suspended run is over? -/
def State.unitBusy (s : State) (x : Xlat) : Bool :=
  x.leaf.ms && !x.leaf.host && !x.remote && !s.rennets.isEmpty &&
    (let u := s.unitAt (s.homeOf x.pa)
     u.queue.any fun r => r.state = 1 || (r.state = 2 && decide (u.served ≥ 32)))

/-- 16 R401: is a DRAM position in the row that post-package repair is at work on? -/
def State.inRepair (s : State) (x : Place) : Bool :=
  s.ppr.state = 1 &&
    (let v := s.ppr.cmd.toNat
     x.stack = bits v 63 60 && x.chan = bits v 59 55 && x.pc = bits v 54 54 && x.bg = bits v 53 52 && x.bank = bits v 51 50 && x.row = bits v 49 34)

/-- 16 R401: does an access meet that row in DRAM? One that the home's L2 slice serves does not. -/
def State.rowBusy (s : State) (x : Xlat) : Bool :=
  !x.leaf.host && !x.remote && s.inRepair (s.locate x.pa) && (x.leaf.ms || !s.l2Holds x.pa)

/-- Does an access of a partition wait at its home (09 R232, 10 R261, 16 R401)? -/
def State.homeBusy (s : State) (p : Nat) (x : Xlat) : Bool :=
  s.unitBusy x || s.rowBusy x || (!x.leaf.ms && !x.leaf.host && !x.remote && !s.l2.isEmpty && s.l2Busy p x)

/-- 10 R261: an operation that a unit serves during the window of a suspended run counts in it. -/
def State.served (s : State) (x : Xlat) : State :=
  if x.leaf.ms && !x.leaf.host && !x.remote && (s.rennets.any fun u => u.2.queue.any fun r => r.state = 2) then
    s.onUnit (s.homeOf x.pa) fun u => if u.queue.any fun r => r.state = 2 then { u with served := u.served + 1 } else u
  else s

/-! ## L1 (09 R227 to R229) -/

/-- 09 R229: the core whose L1 holds a line for an accessing core: its own, or the slice of a fused cluster. The slice of a member that has
ended and given up its core holds no line (log entry 72). -/
def State.l1Core (s : State) (k pa : Nat) : Option Nat :=
  match (s.coreAt k).team with
  | none => some k
  | some t =>
    let c := s.cl (s.tm t).cluster
    if !c.fuse || c.members.isEmpty then some k
    else (c.members[pa / 128 % c.members.length]?).bind fun m => (s.tm m).core

/-- The set of an L1 that a physical address falls in. -/
def l1Key (pa : Nat) : Nat := Config.l1Set (pa / 128) % 1024

/-- The line of an L1 that holds a physical address, its sector valid. -/
def Core.l1Find (c : Core) (pa : Nat) : Option L1Line :=
  (KMap.read [] (l1Key pa) c.l1).find? fun y => y.line = pa / 128 && y.valid.getLsbD (pa / 32 % 4)

/-- Puts a line in front of its set; of more than 12 the least recently used goes (09 R227). -/
def Core.l1Put (c : Core) (pa : Nat) (y : L1Line) : Core :=
  { c with l1 := KMap.put (l1Key pa) ((y :: (KMap.read [] (l1Key pa) c.l1).filter fun z => z.line ≠ y.line).take 12) c.l1 }

/-- Takes a line out of an L1. -/
def Core.l1Drop (c : Core) (n : Nat) : Core := { c with l1 := keepLines (fun y => decide (y.line ≠ n)) c.l1 }

/-- The line of an address as its home holds it now, tagged as its token check found. -/
def State.l1Image (s : State) (x : Xlat) : L1Line :=
  let a := x.pa / 128 * 128
  { line := x.pa / 128, valid := 0xF
    poison := (List.range 4).foldl (fun m i => if s.bad (a + 32 * i) then m ||| (1#4 <<< i) else m) 0
    tok := x.tok, gen := x.gen, wide := x.wide
    data := BitVec.ofNat 1024 (natOfBytes ((List.range 4).flatMap fun i => s.loadBytes (a + 32 * i) 32)) }

/-- Changes a core that exists; a hole has no state to change (01 R11). -/
def State.withCore (s : State) (k : Nat) (f : Core → Core) : State := { s with cores := KMap.adjust k f s.cores }

/-- Changes the core whose L1 a line belongs in, where there is one. -/
def State.onL1 (s : State) (k : Option Nat) (f : Core → Core) : State :=
  match k with
  | some k => s.withCore k f
  | none => s

/-- 09 R227: refills the line of an address, retagged. -/
def State.l1Fill (s : State) (k : Option Nat) (x : Xlat) : State := s.onL1 k fun c => c.l1Put x.pa (s.l1Image x)

/-- Bytes within a sector of an L1 line. -/
def L1Line.bytes (y : L1Line) (pa n : Nat) : List Byte := ((bytesOfNat 128 y.data.toNat).drop (pa % 128)).take n

/-- 18 R435: a request of a stream to a home slice; a load for a line whose fill is under way is queued on it (09 R232). -/
def State.countRequest (s : State) (g : Nat) (x : Xlat) (load : Bool) : State :=
  if x.remote || x.leaf.host || x.leaf.ms then s
  else
    let queued := match s.l2Line (x.pa / 128) with
      | some y => y.fetching ≠ 0 && !y.valid.getLsbD (x.pa / 32 % 4)
      | none => false
    (s.count g 0x09 1).count g 0x0A (if load && queued then 1 else 0)

/-- 09 R227, R274: a load through the L1 of core `k`: a hit under a wide tag gives what the line holds; any other load gives what
the home holds, a hit with the line's own poison bit, and a miss refills the line unless the hint is bypass. -/
def State.l1Load (s : State) (k g : Nat) (x : Xlat) (n hint : Nat) : List Byte × Bool × State :=
  let k1 := s.l1Core k x.pa
  let miss (s : State) : State := (if hint = 3 then s else s.l1Fill k1 x).touchL2 (s.gPart g) x.pa hint false
  match k1.bind fun k => (s.coreAt k).l1Find x.pa with
  | some y =>
    if y.tok = x.tok && y.gen = x.gen then
      let s1 := (s.count g 0x06 1).onL1 k1 fun c => c.l1Put x.pa y
      (if y.wide then y.bytes x.pa n else s.loadBytes x.pa n, y.poison.getLsbD (x.pa / 32 % 4), s1)
    else (s.loadBytes x.pa n, s.bad x.pa, miss (((s.count g 0x07 1).count g 0x08 1).countRequest g x true))
  | none => (s.loadBytes x.pa n, s.bad x.pa, miss ((s.count g 0x07 1).countRequest g x true))

/-- 09 R227: a store that hits updates the line. -/
def State.l1Store (s : State) (k : Nat) (x : Xlat) (bs : List Byte) : State :=
  let k1 := s.l1Core k x.pa
  match k1.bind fun k => (s.coreAt k).l1Find x.pa with
  | some y =>
    let old := bytesOfNat 128 y.data.toNat
    let new := old.take (x.pa % 128) ++ bs ++ old.drop (x.pa % 128 + bs.length)
    let bit : BitVec 4 := 1#4 <<< (x.pa / 32 % 4)
    s.onL1 k1 fun c => c.l1Put x.pa { y with data := BitVec.ofNat 1024 (natOfBytes new), poison := if bs.length < 32 then y.poison else y.poison &&& ~~~bit }
  | none => s

/-- Drops an L1 line (10 R242: an atomic invalidates the line in the issuing core). -/
def State.l1DropLine (s : State) (k pa : Nat) : State := s.onL1 (s.l1Core k pa) fun c => c.l1Drop (pa / 128)

/-- 09 R228: drops the lines of a core's L1 whose wide bit is set; in a fused L1, nothing. -/
def State.dropWide (s : State) (k : Nat) : State :=
  let fused := match (s.coreAt k).team with
    | some t => (s.cl (s.tm t).cluster).fuse
    | none => false
  if fused || (s.coreAt k).l1.isEmpty then s else s.withCore k fun c => { c with l1 := keepLines (fun y => !y.wide) c.l1 }

/-- 09 R228: an acquire at cluster scope or wider invalidates the wide lines of its core's L1. -/
def State.acquire (s : State) (g scope : Nat) : State :=
  if scope < 3 then s
  else
    match (s.gTeam g).core with
    | none => s
    | some k => s.dropWide k

/-! ## Host memory (the outside's own, log entry 10) -/

/-- A byte of host memory as the device finds it: the proxy reads what it has still to write itself (10 R256). -/
def State.hostByte (s : State) (a : Nat) : Byte := (KMap.find a s.proxy).getD (KMap.read unwritten a s.hostMem)

/-- Bytes of host memory. -/
def State.hostBytes (s : State) (a n : Nat) : List Byte := (List.range n).map fun i => s.hostByte (a + i)

/-- Is a sector of host memory poisoned (09 R236)? -/
def State.hostBadAt (s : State) (a : Nat) : Bool := KMap.read false (a / 32) s.hostBad

/-- Stores bytes in host memory. -/
def State.hostStore (s : State) (a : Nat) (bs : List Byte) : State :=
  { s with hostMem := putBytes s.hostMem a bs, hostBad := clearWhole s.hostBad a bs.length }

/-- 10 R256: the proxy's write of every atomic whose read is done. -/
def State.flushProxy (s : State) : State :=
  if s.proxy.isEmpty then s else { s.proxy.foldl (fun s e => s.hostStore e.1 [e.2]) s with proxy := [] }

/-- 10 R256: the write half of a proxied atomic is to come: a host CPU's write before it is overwritten. -/
def State.proxyPut (s : State) (a : Nat) (bs : List Byte) : State :=
  { s with proxy := (bs.zipIdx).foldl (fun m e => KMap.put (a + e.2) e.1 m) s.proxy }

/-- Draws the next answer that the outside gives to a read of `n` bytes (log entry 9). -/
def State.outside (s : State) (n : Nat) : List Byte × State :=
  (bytesOfNat n (Config.outsideRead s.free), { s with free := s.free + 1 })

/-- The causes with which an access to another device may come back (10 R242); REMOTE where it performs nothing (19 R448). -/
def remoteCauses : List Cause := [.page, .perm, .unowned, .sharedWrite, .stranded, .hostAtomic, .remote]

/-- What another device answers to an access: its data with its poison, or the cause of a fault found there (10 R242, log entry 9). -/
def remoteReply (n : Nat) : Except Cause (Nat × Bool) :=
  if n % 2 = 0 then .ok (n / 4, n / 2 % 2 = 1) else .error (remoteCauses[n / 2 % 7]?.getD .remote)

/-- Draws the next such answer. -/
def State.remoteAnswer (s : State) : Except Cause (Nat × Bool) × State :=
  (remoteReply (Config.outsideRead s.free), { s with free := s.free + 1 })

/-! ## Transactions of other devices (19 R445 to R448) -/

/-- 19 R448: does a working link reach the other devices? -/
def State.linked (s : State) : Bool := s.links.en && s.links.link.any fun l => l.2.working

/-- 19 R447: the link of a transaction to a device for an address: the first working one from (D + bits(a, 20, 5)) mod 36 on. -/
def State.routeTo (s : State) (dev pa : Nat) : Option Nat :=
  ((List.range 36).map fun i => (dev + bits pa 20 5 + i) % 36).find? fun n => (KMap.read ({ working := false } : Link) n s.links.link).working

/-- 19 R445: a flit with some transactions goes out on a link and into its replay window of 1,024 flits. -/
def Link.send (l : Link) (bs : List Txn) : Link :=
  if l.window.length ≥ 1024 then l
  else { l with window := l.window ++ [{ seq := l.nextSeq, void := false, beats := bs }], nextSeq := (l.nextSeq + 1) % 4096, sent := (0, l.nextSeq) :: l.sent }

/-- 19 R445 to R447: a queue's access of another device becomes a transaction with a tag of its own on the link that the address takes; poison
goes with the bytes (09 R236). -/
def State.sendRemote (s : State) (queue dev pa : Nat) (bad : Bool := false) : State :=
  match s.routeTo dev pa with
  | none => s
  | some n =>
    let k := s.links
    let l := (KMap.read ({} : Link) n k.link).send [{ queue, tag := k.nextTag, bad }]
    { s with links := { k with link := KMap.put n l k.link, out := (queue, k.nextTag, n) :: k.out, nextTag := k.nextTag + 1 } }

/-! ## Accesses at a translated address -/

/-- The agent's load of bytes within one sector, past the L1: data, poison. -/
def State.rawLoad (s : State) (x : Xlat) (n : Nat) : List Byte × Bool :=
  if x.leaf.host then (s.hostBytes x.pa n, s.hostBadAt x.pa) else (s.loadBytes x.pa n, s.bad x.pa)

/-- 09 R219: the offset in a partition's context area of a byte of device memory, whichever copy of its mirrored pair it is of. -/
def Partition.areaOff (p : Partition) (pa : Nat) : Option Nat :=
  let b := p.pctxbase.toNat
  if pa < b || p.pctxlen = 0 then none
  else
    let d := pa - b
    let w := d % 0x40_0000
    let o := 0x20_0000 * (d / 0x40_0000) + if w < 0x20_0000 then w else (w - 0x20_0000) ^^^ 0x200
    if o < 0x20_0000 * p.pctxlen.toNat then some o else none

/-- 09 R219: the bytes of a team's image. -/
def imageBytes : Nat := 0x49_0000

/-- 09 R219: where byte `o` of a team's image lies in device memory. -/
def State.imageAt (s : State) (t o : Nat) : Nat :=
  mirroredByte (s.partAt (s.tm t).part).pctxbase.toNat (imageBytes * (s.tm t).img + o)

/-- 09 R219: where the image of a stream begins in its team's. -/
def streamImage (grp : Nat) : Nat := 0x1000 + 0xC000 * grp

/-- The offset in a team's image of a byte of device memory. -/
def State.inImage (s : State) (t pa : Nat) : Option Nat :=
  match (s.partAt (s.tm t).part).areaOff pa with
  | some o => if o / imageBytes = (s.tm t).img then some (o % imageBytes) else none
  | none => none

/-- 02 R45: a group that starts takes nothing from the image of the group that had its number before: no sector of it is poisoned. -/
def State.freshStream (s : State) (t grp : Nat) : State :=
  let mine (pa : Nat) : Bool := match s.inImage t pa with
    | some o => decide (streamImage grp ≤ o) && decide (o < streamImage grp + 0xC000)
    | none => false
  { s with poison := s.poison.filter fun e => !mine (32 * e.1) }

/-- 09 R220, R221: may kernel code write this byte of a switched-out team's image: the vector, scalar or trap-bank region of a
stream's image? -/
def imageWritable (o : Nat) : Bool :=
  decide (0x1000 ≤ o) && decide (o < 0x31_0000) && decide (o < 0x30_1000 + 0xC000) &&
    (let q := (o - 0x1000) % 0xC000
     decide (q < 0x4200) || (decide (0x4240 ≤ q) && decide (q < 0x4280)))

/-- Is a team switched out, or, for a team that has ended, its cluster, whose sequencer stream's image the anchor's is (02 R54)? -/
def State.isAway (s : State) (y : Team) : Bool :=
  let r := if y.res = .ended then (s.cl y.cluster).res else y.res
  r = .preempted || r = .evicted

/-- 09 R221: a write to any other region of a switched-out team's image breaks the check code in its header. -/
def State.touchImages (s : State) (pa : Nat) : State :=
  { s with teams := s.teams.map fun e =>
      match (s.partAt e.2.part).areaOff pa with
      | some o => if o / imageBytes = e.2.img && s.isAway e.2 && !imageWritable (o % imageBytes) then (e.1, { e.2 with broken := true }) else e
      | none => e }

/-- The agent's store of bytes within one sector, for an accessor of a partition. -/
def State.rawStore (s : State) (p : Nat) (x : Xlat) (bs : List Byte) (hint : Nat) : State :=
  if x.remote then s
  else if x.leaf.host then s.flushProxy.hostStore x.pa bs
  else if x.leaf.ms then (((s.store x.pa bs).touchImages x.pa).dropL2 x.pa).served x
  else ((s.store x.pa bs).touchImages x.pa).touchL2 p x.pa (hintOf x.leaf hint) true

/-- What a load past the L1s leaves at the agent (09 R230, R234, 10 R261). -/
def State.touchHome (s : State) (p : Nat) (x : Xlat) (hint : Nat) : State :=
  if x.remote || x.leaf.host then s
  else if x.leaf.ms then ((s.dropL2 x.pa).served x).countDecode x.pa
  else s.touchL2 p x.pa (hintOf x.leaf hint) false

/-- A load past the L1s: its data and poison, and what it leaves at the agent. A memory-side page is read in DRAM, once its line has left
the L2 (09 R234). -/
def State.homeRead (s : State) (p : Nat) (x : Xlat) (n hint : Nat) : (List Byte × Bool) × State :=
  let t := s.touchHome p x hint
  ((if x.leaf.ms then t else s).rawLoad x n, t)

/-- Marks a sector that a store of poisoned bytes reached (09 R236). -/
def State.carryPoison (s : State) (x : Xlat) (bad : Bool) : State :=
  if !bad || x.remote then s
  else if x.leaf.host then { s with hostBad := KMap.write false (x.pa / 32) true s.hostBad }
  else s.setBad (x.pa / 32) true

/-- The device's own read of a range through translation, sector by sector: the bytes and the poison of each sector's part, or the
cause and the address of the first fault; a page of another device that no working link reaches faults with REMOTE (10 R242). -/
def State.readPieces (s : State) (w : Who) (va n : Nat) : Except (Cause × Nat) (List (List Byte × Bool)) :=
  (sectorPieces va n n).foldl (fun r p =>
    match r with
    | .error e => .error e
    | .ok ds =>
      match s.xlate w p.1 .read with
      | .error c => .error (c, p.1)
      | .ok x =>
        if x.remote then
          match if s.linked then remoteReply (Config.outsideRead (s.free + (p.1 - va))) else .error .remote with
          | .error c => .error (c, p.1)
          | .ok (v, b) => .ok (ds ++ [(bytesOfNat p.2 v, b)])
        else .ok (ds ++ [s.rawLoad x p.2])) (.ok [])

/-- The bytes of a range through translation, and whether any sector is poisoned. -/
def State.readVirtual (s : State) (w : Who) (va n : Nat) : Except (Cause × Nat) (List Byte × Bool) :=
  match s.readPieces w va n with
  | .error e => .error e
  | .ok ds => .ok (ds.flatMap Prod.fst, ds.any Prod.snd)

/-- The bytes of pieces as a consumption reads them: zeros of a poisoned one (03 R91). -/
def consumedBytes (ds : List (List Byte × Bool)) : List Byte := ds.flatMap fun d => if d.2 then List.replicate d.1.length 0 else d.1

/-- Does a range of the device's own accesses wait at the home of any part of it (09 R232, 10 R261)? -/
def State.rangeBusy (s : State) (w : Who) (va n : Nat) (k : AccKind) : Bool :=
  !(s.rennets.isEmpty && s.l2.isEmpty && s.ppr.state ≠ 1) && (sectorPieces va n n).any fun p =>
    match s.xlate w p.1 k with
    | .ok x => s.homeBusy w.part x
    | .error _ => false

/-- Does translation let the device write at an address, and a link reach it (14 R347)? -/
def State.canWrite (s : State) (w : Who) (va : Nat) : Bool :=
  match s.xlate w va .write with
  | .ok x => !x.remote || s.linked
  | .error _ => false

/-- The device's own write of a range through translation; `none` when any of it faults, and then nothing is written. -/
def State.writeVirtual (s : State) (w : Who) (va : Nat) (bs : List Byte) : Option State :=
  let ps := sectorPieces va bs.length bs.length
  if ps.all fun p => s.canWrite w p.1 then
    some (ps.foldl (fun s p =>
      match s.xlate w p.1 .write with
      | .ok x => s.rawStore w.part x ((bs.drop (p.1 - va)).take p.2) 0
      | .error _ => s) s)
  else none

/-- 09 R236: the bytes that a write through translation carried poisoned. -/
def State.poisonRange (s : State) (w : Who) (va n : Nat) : State :=
  (sectorPieces va n n).foldl (fun s p =>
    match s.xlate w p.1 .write with
    | .ok x => s.carryPoison x true
    | .error _ => s) s

/-! ## Scratchpads (09 R224, R226) -/

/-- 09 R224: the team and offset that a scratchpad address of a stream names, for an access of `n` bytes. A window of a member whose team
has ended still names its scratchpad's bytes as they were (log entry 72). -/
def State.spadLoc (s : State) (team a n : Nat) : Option (Nat × Nat) :=
  let t := s.tm team
  if a + n ≤ t.spad then some (team, a)
  else if a ≥ 0x1000000 then
    let m := (a - 0x1000000) / 2 ^ 20
    let o := (a - 0x1000000) % 2 ^ 20
    match (s.cl t.cluster).members[m]? with
    | some t' => if o + n ≤ (s.tm t').spad then some (t', o) else none
    | none => none
  else none

/-- Bytes of a team's scratchpad. -/
def Team.bytesAt (t : Team) (o n : Nat) : List Byte := (List.range n).map fun i => KMap.read unwritten (o + i) t.mem

/-- The poison bit of the scratchpad sector that holds a byte. -/
def Team.badAt (t : Team) (o : Nat) : Bool := KMap.read false (o / 32) t.poison

/-- Stores bytes in a scratchpad; poison clears in sectors written whole (05 R123). -/
def Team.storeAt (t : Team) (o : Nat) (bs : List Byte) : Team :=
  { t with mem := putBytes t.mem o bs, poison := clearWhole t.poison o bs.length }

/-- Marks a scratchpad sector. -/
def Team.setBad (t : Team) (k : Nat) (b : Bool) : Team := { t with poison := KMap.write false k b t.poison }

/-! ## Identity (04 R102) -/

/-- `c.teamid` of a team. -/
def State.teamId (s : State) (t : Nat) : Word :=
  let x := s.tm t
  let k := x.core.getD 0
  BitVec.ofNat 64 (x.part * 2 ^ 39 + k / 128 * 2 ^ 37 + k / 16 % 8 * 2 ^ 34 + k % 16 * 2 ^ 30 + t)

/-! ## Messages and the fault queue (08 R207, 14 R346, R347) -/

/-- Sends an MSI-X message of a partition's function: function p + 1 of the host port (14 R345, 19 R441). -/
def State.msi (s : State) (p vec : Nat) : State := { s with msix := (p + 1, vec) :: s.msix }

/-- A fault-queue record (08 R207). -/
structure FaultRec where
  kind : Nat
  grp : Nat := 0
  teamid : Word := 0
  xcause : BitVec 32 := 0
  xstatus : BitVec 32 := 0
  xpc : Word := 0
  xlpc : Word := 0
  xaddr : Word := 0
  xmask : BitVec 32 := 0
  deriving DecidableEq, Repr, Inhabited

/-- The 64 bytes of a record (08 R207). -/
def FaultRec.toBytes (r : FaultRec) : List Byte :=
  bytesOfNat 4 r.kind ++ bytesOfNat 4 r.grp ++ bytesOfNat 8 r.teamid.toNat ++ bytesOfNat 4 r.xcause.toNat ++
  bytesOfNat 4 r.xstatus.toNat ++ bytesOfNat 8 r.xpc.toNat ++ bytesOfNat 8 r.xlpc.toNat ++ bytesOfNat 8 r.xaddr.toNat ++
  bytesOfNat 4 r.xmask.toNat ++ List.replicate 12 0

/-- 14 R347: writes a record to a partition's fault queue. -/
def State.postRaw (s : State) (p : Nat) (r : FaultRec) : State :=
  let q := s.partAt p
  let size := 2 ^ q.pfqlog2.toNat
  if !q.pfqen || (q.pfqtail.toNat + 1) % size = q.pfqhead.toNat then s.onPart p fun q => { q with pfqovf := true }
  else
    match s.writeVirtual (hostWho 0 p) (q.pfqbase.toNat + 64 * q.pfqtail.toNat) r.toBytes with
    | none => s.onPart p fun q => { q with pfqwerr := true, pfqen := false }
    | some s1 => s1.onPart p fun q => { q with pfqtail := BitVec.ofNat 16 ((q.pfqtail.toNat + 1) % size) }

/-! ## Host-page access counters (16 R402) -/

/-- 16 R402: counts one transfer that reaches the host port or a link for a page of host memory or of another device. The
counter table is read and written as the partition's host function. A table that cannot be read or written counts nothing, and neither do the
counter's own transfers (log entry 73). -/
def State.hac (s : State) (p va : Nat) : State :=
  let q := s.partAt p
  if q.phacctl.getLsbD 31 = false then s
  else
    let lg := (q.phacctl.extractLsb' 26 5).toNat
    let thr := (q.phacctl.extractLsb' 0 26).toNat
    let ea := q.phacbase.toNat + 8 * (va / 2 ^ 16 % 2 ^ lg)
    match s.readVirtual (hostWho 0 p) ea 8 with
    | .error _ => s
    | .ok (bs, bad) =>
      let x := if bad then 0 else natOfBytes bs
      let tag := va / 2 ^ 16 % 2 ^ 36
      let cnt := if x / 2 ^ 28 = tag then x % 2 ^ 28 + 1 else 1
      let hit := thr ≠ 0 && cnt = thr
      match s.writeVirtual (hostWho 0 p) ea (bytesOfNat 8 (tag * 2 ^ 28 + if hit then 0 else cnt % 2 ^ 28)) with
      | none => s
      | some s1 =>
        if hit then
          let s2 := s1.postRaw p { kind := 5, xaddr := BitVec.ofNat 64 (va / 2 ^ 16 * 2 ^ 16) }
          if q.phacirq.getLsbD 31 then s2.msi p (q.phacirq.extractLsb' 0 16).toNat else s2
        else s1

/-- An access of a page outside device memory: the proxy, which serves one operation at a time, finishes the atomic before it (10
R256), and the transfer is counted (16 R402). -/
def State.hacFor (s : State) (w : Who) (va : Nat) (x : Xlat) : State :=
  let s := if x.leaf.host && x.leaf.ms && !x.remote then s.flushProxy else s
  if x.remote || x.leaf.host then s.hac w.part va else s

/-- 16 R402: counts the transfers of a range that reach a port or a link. -/
def State.countHost (s : State) (w : Who) (va n : Nat) (k : AccKind) : State :=
  (sectorPieces va n n).foldl (fun s p =>
    match s.xlate w p.1 k with
    | .ok x => s.hacFor w p.1 x
    | .error _ => s) s

/-- 14 R347: posts a record to a partition's fault queue; the transfers of one that is written are counted (16 R402). -/
def State.post (s : State) (p : Nat) (r : FaultRec) : State :=
  let q := s.partAt p
  let s1 := s.postRaw p r
  if (s1.partAt p).pfqtail = q.pfqtail then s1
  else s1.countHost (hostWho 0 p) (q.pfqbase.toNat + 64 * q.pfqtail.toNat) 64 .write

/-- What a read of a range through translation leaves: the TLBs and the homes touched, the transfers to ports and links counted (16
R402), the answers of other devices drawn. -/
def State.touchRange (s : State) (w : Who) (va n : Nat) : State :=
  (sectorPieces va n n).foldl (fun s p =>
    match s.xlate w p.1 .read with
    | .error _ => s
    | .ok x => ((s.touch w p.1).hacFor w p.1 x).touchHome w.part x 0) { s with free := s.free + n }

end Sys2Proof.Machine
end

