-- ==== Sys2Proof/Machine/Tokens.lean ====
section
/-! DEFINITION. Changes of token entries that instructions and the ends of holders make (15 R368 to R379). -/

namespace Sys2Proof.Machine

/-- 15 R362: does a pattern name a holder, memory excepted? -/
def namesHolder (h : Nat) : Bool :=
  if h < 0x800000 then decide (h % 2 ^ 19 ≠ 0)
  else if h / 2 ^ 21 = 4 then decide (h % 2 ^ 21 / 2 ^ 11 = 0)
  else if h / 2 ^ 21 = 5 then decide (h % 2 ^ 21 / 16 = 0)
  else if h / 2 ^ 21 = 6 then decide (h % 2 ^ 21 / 256 = 0)
  else if h / 2 ^ 20 = 14 then decide (h % 2 ^ 20 / 2 ^ 13 = 0)
  else false

/-- A holder id that names a team or a cluster. -/
def isLocalId (h : Nat) : Bool := decide (h < 0x800000)

/-- Is the team or cluster of an id live? A switched-out one is (15 R369). -/
def State.holderLive (s : State) (h : Nat) : Bool :=
  if isClusterId h then
    match KMap.find h s.clusters with
    | some c => c.res ≠ .ended
    | none => false
  else
    match KMap.find h s.teams with
    | some t => t.res ≠ .ended
    | none => false

/-- The share slots of a holder (15 R377). -/
def State.sharesOf (s : State) (h : Nat) : List Nat := if isClusterId h then (s.cl h).shares else (s.tm h).shares

/-- Stores the share slots of a holder. -/
def State.setShares (s : State) (h : Nat) (l : List Nat) : State :=
  if isClusterId h then s.onCl h fun c => { c with shares := l } else s.onTm h fun t => { t with shares := l }

/-- 15 R371: an entry after a share leaves it: `lent` of the lent ones. At zero shares it leaves SHARED. -/
def TokEntry.dropShare (e : TokEntry) (lent : Nat) : TokEntry :=
  let e := { e with shares := e.shares - 1, lentsh := e.lentsh - lent }
  if e.shares = 0 then { e with state := if e.lender ≠ 0 then 3 else 1, lentsh := 0 }.bump else e

/-- 11 R280: a holder that a token comes to acquires: the wide L1 lines of its cores are invalidated (09 R228). -/
def State.holderAcquires (s : State) (h : Nat) : State :=
  let ts := if isClusterId h then (s.cl h).members else [h]
  (ts.filterMap fun t => (s.tm t).core).foldl State.dropWide s

/-- Returns one lent share of a token, as `tret.sh` does (15 R371, R378). -/
def State.returnShare (s : State) (id : Nat) : State :=
  let e := s.tok id
  if e.state = 2 && e.shares > 0 then (s.setTok id (e.dropShare 1)).holderAcquires e.holder else s

/-- Returns every share slot of a holder (15 R378). -/
def State.returnShares (s : State) (h : Nat) : State :=
  ((s.sharesOf h).foldl State.returnShare s).setShares h []

/-- 15 R378: what the end of a holder does to one entry, in order: LENT returns to its lender, HELD and SHARED pass to the parent, and the
parent takes the ended holder's place as lender. -/
def TokEntry.holderEnds (e : TokEntry) (h parent : Nat) : TokEntry :=
  let e1 := if e.holder = h && e.state = 3 then { e with state := 1, holder := e.lender, lender := 0 }.bump else e
  let e2 := if e1.holder = h && (e1.state = 1 || e1.state = 2) then { e1 with holder := parent }.bump else e1
  if e2.lender = h then { e2 with lender := parent } else e2

/-- 15 R379: what a core failure or partition reset does to one entry of an ended holder: it is stranded and suspect. -/
def TokEntry.holderLost (e : TokEntry) (h host : Nat) : TokEntry :=
  let e1 := if e.holder = h && (e.state = 1 || e.state = 2 || e.state = 3) then { e with state := 4, suspect := 1 }.bump else e
  if e1.lender = h then { e1 with lender := host } else e1

/-- Applies a change to every live entry of the token table. One that only reads as STRANDED (15 R360) is not rewritten, but for the lender
that it names (R378, R379). -/
def State.mapTokens (s : State) (f : TokEntry → TokEntry) : State :=
  (List.range s.tokn.toNat).foldl (fun s id =>
    let e := s.tokRaw id
    let e' := if s.tok id = e then f e else { e with lender := (f (s.tok id)).lender }
    if e.state = 0 || e' = e then s
    else if e'.holder = e.holder then s.setTok id e'
    else (s.setTok id e').holderAcquires e'.holder) s

/-- Do a run's rows meet a range of device memory? -/
def NbRun.meets (r : NbRun) (lo hi : Nat) : Bool :=
  r.streams.any fun e => (List.range (r.count - r.start)).any fun i =>
    let a := e.2.2 + i * KMap.read 0 e.1 r.strides
    decide (a < hi) && decide (lo < a + 256)

/-- 11 R280: is an access of an engine to the region of a token, translated under a holder, still to be performed: a piece of a copy, or a
near-bank run's? -/
def State.enginesOn (s : State) (h id : Nat) : Bool :=
  let e := s.tok id
  let copies (k q : Nat) (op : LadleOp) : Bool := match op with
    | .xfer t => ((s.whoIs t.g false).onQueue k q).holders.contains h && t.pieces.any fun p => !p.remote && !p.void && p.tok = id
    | _ => false
  (s.cores.any fun c => c.2.ladle.any fun q => q.2.any (copies c.1 q.1)) ||
    s.rennets.any fun u => u.2.queue.any fun r =>
      (s.whoIs r.g false).holders.contains h && e.space = 0 && r.meets (65536 * e.base) (65536 * (e.base + 2 ^ e.log2))

/-- 15 R378, R368: do engines' accesses keep what a holder holds from passing on? -/
def State.enginesHold (s : State) (h : Nat) : Bool :=
  (List.range s.tokn.toNat).any fun id =>
    let e := s.tok id
    e.holder = h && (e.state = 1 || e.state = 2 || e.state = 3) && s.enginesOn h id

/-- 15 R378: the end of a team or cluster, applied to the token table. -/
def State.endHolder (s : State) (h parent : Nat) : State :=
  (s.returnShares h).mapTokens fun e => e.holderEnds h parent

/-- 15 R379: the loss of a team or cluster, applied to the token table. -/
def State.loseHolder (s : State) (h part : Nat) : State :=
  (s.returnShares h).mapTokens fun e => e.holderLost h (hostHolder 0 part)

/-- What lending a read share comes to (15 R370). -/
inductive ShareOutcome where
  | lent | noShare | noSlot
  deriving DecidableEq, Repr

/-- 15 R370: lends one read share of a SHARED token into a slot of a team or cluster. -/
def State.lendShare (s : State) (id h : Nat) : ShareOutcome × State :=
  let e := s.tok id
  if e.lentsh = e.shares then (.noShare, s)
  else if (s.sharesOf h).length ≥ 8 then (.noSlot, s)
  else (.lent, ((s.setTok id { e with lentsh := e.lentsh + 1 }).setShares h (s.sharesOf h ++ [id])).holderAcquires h)

end Sys2Proof.Machine
end

