-- ==== Sys2Proof/Machine/Barrier.lean ====
section
/-! DEFINITION. Barrier objects: their layout, arrivals and counts, completion and signalling (17 R405 to R411, R421), and the
task counts that completions lower (14 R349). -/

namespace Sys2Proof.Machine

/-! ## Task entries (14 R342, R343, R348) -/

/-- A little-endian field of a launch record. -/
def recField (r : List Byte) (o n : Nat) : Nat := natOfBytes ((r.drop o).take n)

/-- The number of clusters of a record's grid. -/
def recGrid (r : List Byte) : Nat := (recField r 0x20 4 + 1) * (recField r 0x24 4 + 1) * (recField r 0x28 4 + 1)

/-- 14 R342: the fields in offset order, each with its offset and whether its value is allowed. -/
def recChecks (r : List Byte) : List (Nat × Bool) :=
  let f := recField r
  let w := f 6 1 % 16
  let h := f 6 1 / 16
  let adr (x : Nat) : Bool := decide (x < 2 ^ 52)
  [ (0x00, f 0 1 = 1),
    (0x01, f 1 1 < 8),
    (0x02, 1 ≤ f 2 1 && f 2 1 ≤ 64),
    (0x03, 1 ≤ f 3 1 && f 3 1 ≤ 32),
    (0x04, 1 ≤ f 4 2 && f 4 2 ≤ 256),
    (0x06, 1 ≤ w * h && w * h ≤ 12),
    (0x07, f 7 1 < 8),
    (0x08, f 8 8 ≠ 0 && f 8 8 % 4 = 0 && adr (f 8 8)),
    (0x10, f 0x10 8 % 4 = 0 && adr (f 0x10 8)),
    (0x18, adr (f 0x18 8)),
    (0x20, recGrid r ≤ 2 ^ 32),
    (0x2C, f 0x2C 4 = 0),
    (0x30, f 0x30 8 ≠ 0 && f 0x30 8 % 64 = 0 && adr (f 0x30 8)),
    (0x38, f 0x3B 1 % 128 = 0),
    (0x3E, f 0x3E 2 = 0),
    (0x40, f 0x43 1 % 64 = 0 && (f 0x43 1 < 128 || recGrid r = 1)),
    (0x44, f 0x47 1 % 128 = 0),
    (0x48, (r.drop 0x48).all fun b => b = 0) ]

/-- 14 R343: the offset of the first failing field. -/
def recBad (r : List Byte) : Option Nat := ((recChecks r).find? fun c => !c.2).map Prod.fst

/-- The task entry of an index. -/
def State.taskAt (s : State) (p i : Nat) : Task := KMap.read {} i (s.partAt p).tasks

/-- 14 R348, 16 R391: where an entry of the task table starts. -/
def State.taskAddr (s : State) (p i : Nat) : Nat := mirroredByte (s.partAt p).ptaskbase.toNat (256 * i)

/-- 14 R348: an entry of the task table is written, both copies. The layout of its 256 bytes is the device's own (log entry 83). -/
def State.putTask (s : State) (p i : Nat) : State :=
  { s.store (s.taskAddr p i) ((List.range 256).map fun k => Config.taskByte (s.free + k)) with free := s.free + 256 }

/-- Stores a task entry. -/
def State.setTask (s : State) (p i : Nat) (t : Task) : State :=
  (s.onPart p fun q => { q with tasks := KMap.put i t q.tasks }).putTask p i

/-- 14 R345: the 64 bytes of a completion record. -/
def Task.completion (t : Task) : List Byte :=
  bytesOfNat 1 t.status ++ bytesOfNat 1 t.detail ++ [0, 0] ++
  bytesOfNat 4 ((t.chk.toNat % 32) + 256 * min 255 t.cor) ++ bytesOfNat 8 t.endedN ++ bytesOfNat 8 t.failTeam.toNat ++
  List.replicate 40 0

/-- 14 R345: completes a task: the record, the decrement of NOTIFY, the MSI-X message; the entry becomes FREE. The decrement may
ready another task, whose record is then checked (R343); `fuel` bounds that chain, every link of which frees an entry. -/
def State.completeTask (s : State) (p i : Nat) : Nat → State
  | 0 => s
  | fuel + 1 =>
    let t := s.taskAt p i
    let compl := recField t.record 0x30 8
    let s1 : State :=
      match s.writeVirtual (hostWho 0 p) compl t.completion with
      | some s1 => s1.countHost (hostWho 0 p) compl 64 .write
      | none => s.post p { kind := 3, xaddr := BitVec.ofNat 64 compl }
    let s2 := (s1.onPart p fun q => { q with tasks := KMap.del i q.tasks }).putTask p i
    let s2 : State := match t.queue with
      | some q => if (s2.queueAt q).last = some i then s2.onQueue q fun x => { x with last := none } else s2
      | none => s2
    let nv := recField t.record 0x38 4
    let s3 : State :=
      if nv < 2 ^ 31 then s2
      else
        let j := nv % 2 ^ 24
        let u := s2.taskAt p j
        if u.state ≠ .armed then s2.post p { kind := 4, xaddr := BitVec.ofNat 64 j }
        else if u.count > 1 then s2.setTask p j { u with count := u.count - 1 }
        else
          let u := { u with count := 0, state := .ready, since := s2.now }
          match u.poisoned, recBad u.record with
          | true, _ => (s2.setTask p j { u with status := 5 }).completeTask p j fuel
          | false, some o => (s2.setTask p j { u with status := 2, detail := o }).completeTask p j fuel
          | false, none => s2.setTask p j u
    if recField t.record 7 1 / 4 % 2 = 1 then s3.msi p (recField t.record 0x3C 2) else s3

/-- The links that a chain of completions can have: one for each entry listed. -/
def State.taskFuel (s : State) (p : Nat) : Nat := (s.partAt p).tasks.length + 1

/-- 14 R343, R348: an entry becomes READY: its record is checked; a bad or poisoned one completes the task at once. -/
def State.readyTask (s : State) (p i : Nat) : State :=
  let u := { s.taskAt p i with count := 0, state := .ready, since := s.now }
  match u.poisoned, recBad u.record with
  | true, _ => (s.setTask p i { u with status := 5 }).completeTask p i (s.taskFuel p)
  | false, some o => (s.setTask p i { u with status := 2, detail := o }).completeTask p i (s.taskFuel p)
  | false, none => s.setTask p i u

/-- 14 R349: lowers an armed entry's count; at zero it becomes READY. -/
def State.lowerTask (s : State) (p i e : Nat) : State :=
  let t := s.taskAt p i
  if t.count = e then s.readyTask p i else s.setTask p i { t with count := t.count - e }

/-- 14 R349: the decrement of a notify target: does it find its entry ARMED? If not, a record of kind 4 is posted. -/
def State.notifyTask (s : State) (p i : Nat) (teamid : Word) : Bool × State :=
  if (s.taskAt p i).state = .armed then (true, s.lowerTask p i 1)
  else (false, s.post p { kind := 4, teamid, xaddr := BitVec.ofNat 64 i })

/-! ## The object (17 R405, R406) -/

/-- A barrier object's fields. -/
structure Obj where
  phase : BitVec 32 := 0
  exparr : Nat := 0
  pendarr : Nat := 0
  expbytes : Nat := 0
  pendbytes : Nat := 0
  reg : Nat := 0
  obs : Nat := 0
  nv : Bool := false
  task : Nat := 0
  nfail : Bool := false
  overrun : Bool := false
  mv : Bool := false
  darr : Nat := 0
  z : Nat := 0
  tsize : Nat := 0
  tbase : Nat := 0
  deriving DecidableEq, Repr, Inhabited

/-- 17 R405: the fields in an object's 32 bytes. -/
def Obj.ofBytes (b : List Byte) : Obj :=
  let x := natOfBytes b
  { phase := BitVec.ofNat 32 x, exparr := bits x 47 32, pendarr := bits x 63 48, expbytes := bits x 95 64,
    pendbytes := bits x 127 96, reg := bits x 137 128, obs := bits x 153 144, nv := bits x 191 191 = 1, task := bits x 183 160,
    nfail := bits x 251 251 = 1, overrun := bits x 250 250 = 1, mv := bits x 249 249 = 1, darr := bits x 248 241,
    z := bits x 240 233, tsize := bits x 232 212, tbase := bits x 211 192 }

/-- 17 R405: an object's 32 bytes. -/
def Obj.toBytes (o : Obj) : List Byte :=
  let b (x : Bool) : Nat := if x then 1 else 0
  bytesOfNat 32 (o.phase.toNat + 2 ^ 32 * o.exparr + 2 ^ 48 * o.pendarr + 2 ^ 64 * o.expbytes + 2 ^ 96 * o.pendbytes +
    2 ^ 128 * o.reg + 2 ^ 144 * o.obs + 2 ^ 160 * o.task + 2 ^ 191 * b o.nv + 2 ^ 192 * o.tbase + 2 ^ 212 * o.tsize +
    2 ^ 233 * o.z + 2 ^ 241 * o.darr + 2 ^ 249 * b o.mv + 2 ^ 250 * b o.overrun + 2 ^ 251 * b o.nfail)

/-- 17 R406: a zero field holds a nonzero bit. -/
def objBadBits (b : List Byte) : Bool :=
  let x := natOfBytes b
  bits x 143 138 ≠ 0 || bits x 159 154 ≠ 0 || bits x 190 184 ≠ 0 || bits x 255 252 ≠ 0

/-- The object at an offset of a team's scratchpad. -/
def State.objAt (s : State) (t o : Nat) : Obj := Obj.ofBytes ((s.tm t).bytesAt o 32)

/-- 17 R406: is the object broken: poisoned, or a zero field not zero? -/
def State.objBroken (s : State) (t o : Nat) : Bool := (s.tm t).badAt o || objBadBits ((s.tm t).bytesAt o 32)

/-- Stores an object. -/
def State.setObj (s : State) (t o : Nat) (x : Obj) : State := s.onTm t fun y => y.storeAt o x.toBytes

/-- 17 R411 `reload`. -/
def Obj.reload (x : Obj) : Obj :=
  if x.mv && x.phase.getLsbD 0 then { x with pendarr := x.darr, pendbytes := 0 }
  else { x with pendarr := x.exparr, pendbytes := x.expbytes }

/-! ## Signalling (17 R411, R421) -/

/-- 08 R216, 17 R421: an evicted cluster is queued for relaunch. -/
def State.queueRelaunch (s : State) (c : Nat) : State :=
  let x := s.cl c
  if x.res = .evicted && !(s.partAt x.part).relaunchq.contains c then
    (s.onCl c fun y => { y with since := s.now - y.accrued }).onPart x.part fun q => { q with relaunchq := q.relaunchq ++ [c] }
  else s

/-- Does a stream wait, unsignalled, on an object for a parity? -/
def Group.waitsOn (x : Group) (t o : Nat) (parity : Bool) : Bool :=
  match x.wait with
  | some w => w.team = t && w.obj = o && w.t = parity && !w.signalled
  | none => false

/-- Signals a stream's wait record with a phase. -/
def Group.signal (x : Group) (phase : BitVec 32) : Group :=
  { x with wait := x.wait.map fun w => { w with signalled := true, phase := phase } }

/-- Signals every stalled waiter of an object whose target parity is the phase's; registered ones observe. -/
def State.signalAll (s : State) (t o : Nat) (x : Obj) : Obj × State :=
  let ws := s.groups.filter fun e => e.2.waitsOn t o (x.phase.getLsbD 0)
  let n := (ws.filter fun e => match e.2.wait with | some w => w.registered | none => false).length
  let s1 := ws.foldl (fun s e => (s.onGrp e.1 fun y => y.signal x.phase).queueRelaunch (s.gCluster e.1)) s
  ({ x with obs := min (x.obs + n) x.reg }, s1)

/-- 17 R411 `complete`, the object as it stands before and after; the notify target is lowered. -/
def State.completeObj (s : State) (t o : Nat) (x : Obj) : State :=
  let x1 := { x with phase := x.phase + 1 }.reload
  let r := s.signalAll t o { x1 with obs := 0 }
  if x.nv then
    let n := r.2.notifyTask (r.2.tm t).part x.task (r.2.teamId t)
    n.2.setObj t o { r.1 with nfail := r.1.nfail || !n.1 }
  else r.2.setObj t o r.1

/-- 17 R410 `accept`: applies `a` arrivals, `n` bytes counted and `x` bytes expected to the object at an offset of a team's
scratchpad; the status code. A phase with both counts zero takes nothing but bytes expected: all else is an overrun (R411). -/
def State.accept (s : State) (t o a n x : Nat) : Nat × State :=
  let b := s.objAt t o
  if b.obs < b.reg then (2, s)
  else if a > b.pendarr || b.pendbytes + x > 2 ^ 32 - 1 || (b.pendarr = 0 && b.pendbytes = 0 && x = 0) then (3, s.setObj t o { b with overrun := true })
  else
    let pend := b.pendbytes + x
    let b1 := { b with pendarr := b.pendarr - a, pendbytes := pend - n, overrun := b.overrun || decide (n > pend) }
    if b1.pendarr = 0 && b1.pendbytes = 0 then (1, s.completeObj t o b1) else (0, s.setObj t o b1)

/-- Is the team switched out, so that its objects are watch copies (17 R421)? -/
def Team.isOut (t : Team) : Bool := t.res = .preempted || t.res = .evicted

/-- 17 R419: a discarded count is reported to where its engine reports. -/
def State.discardTo (s : State) : CountSrc → State
  | .stream g => if (KMap.find g s.groups).isSome then s.onGrp g fun x => x.chk scons else s
  | .byte t o => s.onTm t fun y => y.storeAt o ((y.bytesAt o 1).map fun b => b ||| 0x80)
  | .window w => { s with landing := KMap.put w { KMap.read {} w s.landing with noobj := true } s.landing }

/-- 17 R421: a resident team's held sum for an object is applied ahead of what comes next, as one accept; a refused one is kept, and
one on a broken object is discarded (R419). -/
def State.flushHeld (s : State) (t o : Nat) : State :=
  let y := s.tm t
  match KMap.find o y.held with
  | none => s
  | some h =>
    if y.isOut then s
    else if s.objBroken t o then h.2.2.foldl State.discardTo (s.setTm t { y with held := KMap.del o y.held })
    else
      let r := s.accept t o h.1 h.2.1 0
      if r.1 = 2 then s else r.2.onTm t fun z => { z with held := KMap.del o z.held }

/-- 17 R410, R421: an arrival or count as an engine or another core makes it: to a watched or resident object at once; to another
object of a switched-out team into the held sums of at most 16 objects, else refused. `none` is a broken object (R419), and `src` says where
an engine reports one. -/
def State.arriveAt (s : State) (t o a n x : Nat) (src : Option CountSrc) : Option (Nat × State) :=
  let keep (h : Nat × Nat × List CountSrc) (y : Team) : State := s.setTm t { y with held := KMap.put o (h.1 + a, h.2.1 + n, (h.2.2 ++ src.toList).dedup) y.held }
  let y := s.tm t
  if y.isOut && !y.watched.contains o then
    match KMap.find o y.held with
    | some h => some (0, keep h y)
    | none => if y.held.length ≥ 16 then some (2, s) else some (0, keep (0, 0, []) y)
  else
    let s1 := s.flushHeld t o
    if s1.objBroken t o then none else some (s1.accept t o a n x)

end Sys2Proof.Machine
end

