-- ==== Sys2Proof/Machine/Numbers.lean ====
section
/-! DEFINITION. Float formats, exact values and rounding (07 R173 to R180), the special functions (R190, R191), conversions
(R192, R193) and block scales (R176, R194 to R196). -/

namespace Sys2Proof.Machine

/-! ## Formats and values -/

/-- A float format (07 R173): exponent and fraction widths, bias, exponent of the top binade, and the significand of the largest
finite value there. -/
structure Fmt where
  eb : Nat
  fb : Nat
  bias : Nat
  emax : Int
  maxM : Nat
  /-- 0 with infinities, 1 E4M3, 2 E2M1 -/
  kind : Nat
  deriving DecidableEq, Repr

/-- The format of an element of a float type code (03 R66, 07 R173). -/
def fmtOf (ty : BitVec 4) : Fmt :=
  match ty.toNat with
  | 5 => { eb := 11, fb := 52, bias := 1023, emax := 1023, maxM := 2 ^ 53 - 1, kind := 0 }
  | 6 => { eb := 8, fb := 7, bias := 127, emax := 127, maxM := 255, kind := 0 }
  | 7 => { eb := 5, fb := 10, bias := 15, emax := 15, maxM := 2047, kind := 0 }
  | 8 => { eb := 4, fb := 3, bias := 7, emax := 8, maxM := 14, kind := 1 }
  | 9 => { eb := 5, fb := 2, bias := 15, emax := 15, maxM := 7, kind := 0 }
  | 10 => { eb := 2, fb := 1, bias := 1, emax := 2, maxM := 3, kind := 2 }
  | _ => { eb := 8, fb := 23, bias := 127, emax := 127, maxM := 2 ^ 24 - 1, kind := 0 }

/-- FP32. -/
def fp32 : Fmt := fmtOf 4#4

/-- The width of a format. -/
def Fmt.width (f : Fmt) : Nat := 1 + f.eb + f.fb

/-- An exact value: NaN, an infinity, or a signed quotient of naturals. -/
inductive FVal where
  | nan
  | inf (neg : Bool)
  | fin (neg : Bool) (n d : Nat)
  deriving DecidableEq, Repr

/-- The sign bit's value. -/
def signBit (f : Fmt) (neg : Bool) : Nat := if neg then 2 ^ (f.eb + f.fb) else 0

/-- The default NaN of a format; +0 in E2M1, which has none (07 R174, R179 step 8). -/
def Fmt.nan (f : Fmt) : Nat :=
  match f.kind with
  | 0 => (2 ^ f.eb - 1) * 2 ^ f.fb + 2 ^ (f.fb - 1)
  | 1 => 0x7F
  | _ => 0

/-- The pattern of the largest finite magnitude. -/
def Fmt.largest (f : Fmt) : Nat := (f.emax + f.bias).toNat * 2 ^ f.fb + (f.maxM - 2 ^ f.fb)

/-- The pattern of an overflow: ±∞, the NaN of the sign in E4M3, ±6 in E2M1 (07 R179 step 3). -/
def Fmt.overflow (f : Fmt) (neg : Bool) : Nat :=
  signBit f neg +
    match f.kind with
    | 0 => (2 ^ f.eb - 1) * 2 ^ f.fb
    | 1 => 0x7F
    | _ => 7

/-- A power of two as a quotient. -/
def pow2 (e : Int) : Nat × Nat := if 0 ≤ e then (2 ^ e.toNat, 1) else (1, 2 ^ (-e).toNat)

/-- The value of a pattern (07 R173, R175). -/
def Fmt.value (f : Fmt) (x : Nat) : FVal :=
  let neg := x / 2 ^ (f.eb + f.fb) % 2 = 1
  let e := x / 2 ^ f.fb % 2 ^ f.eb
  let m := x % 2 ^ f.fb
  let top := e = 2 ^ f.eb - 1
  if f.kind = 0 && top then (if m = 0 then .inf neg else .nan)
  else if f.kind = 1 && top && m = 2 ^ f.fb - 1 then .nan
  else if e = 0 then
    let q := pow2 (1 - (f.bias : Int) - f.fb)
    .fin neg (m * q.1) q.2
  else
    let q := pow2 ((e : Int) - f.bias - f.fb)
    .fin neg ((2 ^ f.fb + m) * q.1) q.2

/-- The exponent of the binade that holds n / d, n not zero. -/
def ilog2 (n d : Nat) : Int :=
  let e := (Nat.log2 n : Int) - Nat.log2 d
  let q := pow2 e
  if n * q.2 < d * q.1 then e - 1 else e

/-- 07 R179 step 2: of the neighbours `m` and `m + 1`, with remainder `r` of `den`, does the code choose the greater magnitude? -/
def roundsUp (rm : Nat) (neg : Bool) (m r den : Nat) : Bool :=
  match rm with
  | 1 => false
  | 2 => neg && r ≠ 0
  | 3 => !neg && r ≠ 0
  | 4 => r ≠ 0 && 2 * r ≥ den
  | _ => decide (2 * r > den) || (r ≠ 0 && 2 * r = den && m % 2 = 1)

/-- Does the code take the overflow step when the magnitude lies at or beyond it (07 R179 step 2)? -/
def overflows (rm : Nat) (neg : Bool) : Bool :=
  match rm with
  | 1 => false
  | 2 => neg
  | 3 => !neg
  | _ => true

/-- 07 R179 steps 3 and 7: an overflow, which saturation clamps. -/
def Fmt.over (f : Fmt) (neg sat : Bool) : Nat := if sat then signBit f neg + f.largest else f.overflow neg

/-- 07 R179: rounds ±n/d to a format. -/
def Fmt.roundFin (f : Fmt) (rm : Nat) (sat neg : Bool) (n d : Nat) : Nat :=
  if n = 0 then signBit f neg
  else
    let emin : Int := 1 - f.bias
    let e := min f.emax (max emin (ilog2 n d))
    let q := pow2 (e - f.fb)
    let num := n * q.2
    let den := d * q.1
    let m := num / den
    let r := num % den
    if m ≥ f.maxM + 1 && e = f.emax then
      (if overflows rm neg then f.over neg sat else signBit f neg + f.largest)
    else
      let m' := if roundsUp rm neg m r den then m + 1 else m
      if m' ≥ f.maxM + 1 && e = f.emax then f.over neg sat
      else signBit f neg + (if m' < 2 ^ f.fb then m' else (e - emin + 1).toNat * 2 ^ f.fb + (m' - 2 ^ f.fb))

/-- 03 R90, 07 R179: `round`. -/
def Fmt.round (f : Fmt) (rm : Nat) (sat : Bool) (x : FVal) : Nat :=
  match x with
  | .nan => f.nan
  | .inf neg => f.over neg sat
  | .fin neg n d => f.roundFin rm sat neg n d

/-! ## Exact arithmetic -/

/-- Negation. -/
def FVal.neg : FVal → FVal
  | .nan => .nan
  | .inf s => .inf (!s)
  | .fin s n d => .fin (!s) n d

/-- The exact sum; a zero sum of opposite signs is −0 under `.rdn` and +0 else (07 R179 step 6, R184). -/
def FVal.add (rm : Nat) : FVal → FVal → FVal
  | .nan, _ => .nan
  | _, .nan => .nan
  | .inf s, .inf t => if s = t then .inf s else .nan
  | .inf s, _ => .inf s
  | _, .inf t => .inf t
  | .fin s n d, .fin t m e =>
    let a := n * e
    let b := m * d
    if s = t then .fin s (a + b) (d * e)
    else if a = b then .fin (rm = 2) 0 1
    else if a > b then .fin s (a - b) (d * e)
    else .fin t (b - a) (d * e)

/-- The exact product; 0 × ∞ is NaN (07 R184). -/
def FVal.mul : FVal → FVal → FVal
  | .nan, _ => .nan
  | _, .nan => .nan
  | .inf s, .inf t => .inf (s ^^ t)
  | .inf s, .fin t m _ => if m = 0 then .nan else .inf (s ^^ t)
  | .fin s n _, .inf t => if n = 0 then .nan else .inf (s ^^ t)
  | .fin s n d, .fin t m e => .fin (s ^^ t) (n * m) (d * e)

/-- The exact quotient with the special cases of 07 R190. -/
def FVal.div : FVal → FVal → FVal
  | .nan, _ => .nan
  | _, .nan => .nan
  | .inf _, .inf _ => .nan
  | .inf s, .fin t _ _ => .inf (s ^^ t)
  | .fin s _ _, .inf t => .fin (s ^^ t) 0 1
  | .fin s n d, .fin t m e => if m = 0 then (if n = 0 then .nan else .inf (s ^^ t)) else .fin (s ^^ t) (n * e) (d * m)

/-- Is a value NaN? -/
def FVal.isNan : FVal → Bool
  | .nan => true
  | _ => false

/-- Is a value zero? -/
def FVal.isZero : FVal → Bool
  | .fin _ n _ => n = 0
  | _ => false

/-- Order of two values that are not NaN, the zeros equal: is the first less? -/
def FVal.lt : FVal → FVal → Bool
  | .nan, _ => false
  | _, .nan => false
  | .inf s, .inf t => s && !t
  | .inf s, _ => s
  | _, .inf t => !t
  | .fin s n d, .fin t m e =>
    let a : Int := if s then -(n * e : Nat) else (n * e : Nat)
    let b : Int := if t then -(m * d : Nat) else (m * d : Nat)
    decide (a < b)

/-- The sign. -/
def FVal.sign : FVal → Bool
  | .nan => false
  | .inf s => s
  | .fin s _ _ => s

/-- Equality of two values that are not NaN, the zeros equal. -/
def FVal.eqv (x y : FVal) : Bool := !x.isNan && !y.isNan && !x.lt y && !y.lt x

/-- An integer as an exact value. -/
def FVal.ofInt (x : Int) : FVal := .fin (x < 0) x.natAbs 1

/-! ## Integer square root and roots -/

/-- The integer square root, bit by bit. -/
def isqrt (n : Nat) : Nat :=
  (List.range (Nat.log2 n / 2 + 1)).reverse.foldl (fun r i => if (r + 2 ^ i) * (r + 2 ^ i) ≤ n then r + 2 ^ i else r) 0

/-- A quotient that lies between the same neighbours, at a format's precision, as the root of n/d, and is exact when the root
is. -/
def rootQuot (fb n d : Nat) : Nat × Nat :=
  if n = 0 then (0, 1)
  else
    let p := ((fb : Int) + 4 - ilog2 n d / 2).toNat
    let x := n * 4 ^ p
    let s := isqrt (x / d)
    if s * s * d = x then (s, 2 ^ p) else (2 * s + 1, 2 ^ (p + 1))

/-- 07 R190: the root, with its special cases. -/
def FVal.sqrt (fb : Nat) : FVal → FVal
  | .nan => .nan
  | .inf s => if s then .nan else .inf false
  | .fin s n d =>
    if n = 0 then .fin s 0 1
    else if s then .nan
    else
      let q := rootQuot fb n d
      .fin false q.1 q.2

/-! ## Elements of a type -/

/-- Element `i` of a register image under a type (03 R66). -/
def elem (ty : BitVec 4) (x i : Nat) : Nat := x / 2 ^ (tyWidth ty * i) % 2 ^ tyWidth ty

/-- The register image of elements. -/
def packElems (ty : BitVec 4) (es : List Nat) : Nat :=
  es.foldr (fun e acc => e % 2 ^ tyWidth ty + 2 ^ tyWidth ty * acc) 0

/-- Applies a function to each element index and packs the results. -/
def eachElem (ty : BitVec 4) (f : Nat → Nat) : Nat := packElems ty ((List.range (tyCount ty)).map f)

/-- An integer element's value (06 R144). -/
def intVal (ty : BitVec 4) (x : Nat) : Int := if tySigned ty then sext x (tyWidth ty) else (x % 2 ^ tyWidth ty : Nat)

/-- Clamps an integer to the range of a type (03 R89). -/
def satTy (ty : BitVec 4) (x : Int) : Int := if tySigned ty then satS x (tyWidth ty) else satN x (tyWidth ty)

/-- Narrows an integer to a type: saturated under S, wrapped otherwise. -/
def narrow (ty : BitVec 4) (sat : Bool) (x : Int) : Nat := wrap (if sat then satTy ty x else x) (tyWidth ty)

/-! ## Float operations by pattern -/

/-- 07 R184: fused multiply-add, and with it the plain sum and product. -/
def fAdd (f : Fmt) (rm : Nat) (sat : Bool) (a b : Nat) : Nat := f.round rm sat (FVal.add rm (f.value a) (f.value b))

/-- 07 R184 `vfmul`. -/
def fMul (f : Fmt) (rm : Nat) (sat : Bool) (a b : Nat) : Nat := f.round rm sat (FVal.mul (f.value a) (f.value b))

/-- 07 R184 `vffma`. -/
def fFma (f : Fmt) (rm : Nat) (sat : Bool) (a b c : Nat) : Nat :=
  f.round rm sat (FVal.add rm (FVal.mul (f.value a) (f.value b)) (f.value c))

/-- 07 R186: is pattern `a` below `b`, −0 below +0? -/
def fBelow (f : Fmt) (a b : Nat) : Bool :=
  let x := f.value a
  let y := f.value b
  x.lt y || (x.isZero && y.isZero && x.sign && !y.sign)

/-- 07 R186: the lesser (or greater) operand, bit for bit. -/
def fMinMax (f : Fmt) (greater : Bool) (a b : Nat) : Nat :=
  match (f.value a).isNan, (f.value b).isNan with
  | true, true => f.nan
  | true, false => b
  | false, true => a
  | false, false => if greater then (if fBelow f a b then b else a) else (if fBelow f b a then b else a)

/-- 07 R187: a float condition. -/
def fCond (f : Fmt) (cond a b : Nat) : Bool :=
  let x := f.value a
  let y := f.value b
  let un := x.isNan || y.isNan
  match cond with
  | 0 => x.eqv y
  | 1 => un || !x.eqv y
  | 2 => !un && x.lt y
  | 3 => !un && !y.lt x
  | 4 => !un && y.lt x
  | 5 => !un && !x.lt y
  | 6 => un
  | _ => !un

/-- 07 R188: the class number of a pattern. -/
def fClass (f : Fmt) (x : Nat) : Nat :=
  let neg := x / 2 ^ (f.eb + f.fb) % 2 = 1
  let e := x / 2 ^ f.fb % 2 ^ f.eb
  let m := x % 2 ^ f.fb
  if e = 2 ^ f.eb - 1 then
    if m = 0 then (if neg then 0 else 7) else if m ≥ 2 ^ (f.fb - 1) then 9 else 8
  else if e = 0 then
    if m = 0 then (if neg then 3 else 4) else (if neg then 2 else 5)
  else if neg then 1 else 6

/-- Rounds ±n/d to an integer by a rounding code. -/
def roundInt (rm : Nat) (neg : Bool) (n d : Nat) : Int :=
  let m := n / d
  let r := n % d
  let k := if roundsUp rm neg m r d then m + 1 else m
  if neg then -(k : Int) else k

/-- 07 R189: rounds to an integral value in the same format. -/
def fRoundInt (f : Fmt) (rm x : Nat) : Nat :=
  match f.value x with
  | .nan => f.nan
  | .inf _ => x
  | .fin neg n d => f.roundFin 0 false neg (roundInt rm neg n d).natAbs 1

/-! ## Conversions (07 R193) -/

/-- 07 R193: an exact value as an integer type's pattern. -/
def intOfVal (dt : BitVec 4) (rm : Nat) (sat : Bool) (v : FVal) : Nat :=
  let w := tyWidth dt
  match v with
  | .nan => 0
  | .inf neg => wrap (satTy dt (if neg then -(2 ^ w : Int) else (2 ^ w : Int))) w
  | .fin neg n d => narrow dt sat (roundInt rm neg n d)

/-- 07 R193: converts one element from type `st` to type `dt`. -/
def convert (st dt : BitVec 4) (rm : Nat) (sat : Bool) (x : Nat) : Nat :=
  match tyFloat st, tyFloat dt with
  | true, true => (fmtOf dt).round rm sat ((fmtOf st).value x)
  | false, true => (fmtOf dt).round rm sat (FVal.ofInt (intVal st x))
  | true, false => intOfVal dt rm sat ((fmtOf st).value x)
  | false, false => narrow dt sat (intVal st x)

/-! ## Special functions (07 R191) -/

/-- The exponent of a value that is a power of two. -/
def powerOfTwo (n d : Nat) : Option Int :=
  let e := ilog2 n d
  let q := pow2 e
  if n ≠ 0 && n * q.2 = d * q.1 then some e else none

/-- The unit of the last place of FP32 at a value n/d, with subnormal spacing below 2^-126 (07 R191). -/
def ulpAt (n d : Nat) : Nat × Nat := pow2 (max (-126) (ilog2 n d) - 23)

/-- The part's own result of a special function: its free pattern where that lies within `tol` of ±n/d, else the pattern nearest to
±n/d (07 R191; log entry 8). -/
def withinBound (op a : Nat) (neg : Bool) (n d : Nat) (tol : Nat × Nat) : Nat :=
  let p := (Config.special op (BitVec.ofNat 32 a)).toNat
  match fp32.value p with
  | .fin s m e =>
    let x : Int := if s then -(m * d : Nat) else (m * d : Nat)
    let y : Int := if neg then -(n * e : Nat) else (n * e : Nat)
    if (x - y).natAbs * tol.2 ≤ tol.1 * (e * d) then p else fp32.roundFin 0 false neg n d
  | _ => fp32.roundFin 0 false neg n d

/-- `k` ulp. -/
def ulps (k n d : Nat) : Nat × Nat :=
  let u := ulpAt n d
  (k * u.1, u.2)

/-- An absolute error of 2^-b. -/
def absTol (b : Nat) : Nat × Nat := (1, 2 ^ b)

/-- The terms x^i / i! of a number of 192 fraction bits, `k` of them from the i-th, which is `t`. -/
def expTerms (x : Nat) : Nat → Nat → Nat → List Nat
  | 0, _, _ => []
  | k + 1, i, t => t :: expTerms x k (i + 1) (t * x / 2 ^ 192 / (i + 1))

/-- 2^f for f with 192 fraction bits, below 1; the result has 192 fraction bits, right to about 180 of them (log entry 8). -/
def exp2Frac (f : Nat) : Nat :=
  (expTerms (f * 0xb17217f7d1cf79abc9e3b39803f2f6af40f343267298b62d / 2 ^ 192) 60 0 (2 ^ 192)).sum

/-- The first `k` binary digits of log2 of m, from 1 to 2 with 400 fraction bits, after `acc`. -/
def log2Digits : Nat → Nat → Nat → Nat
  | 0, _, acc => acc
  | k + 1, m, acc =>
    let q := m * m / 2 ^ 400
    if q ≥ 2 ^ 401 then log2Digits k (q / 2) (2 * acc + 1) else log2Digits k q (2 * acc)

/-- log2 of n/d, not zero, with 160 fraction bits (log entry 8). -/
def log2Approx (n d : Nat) : Int :=
  let e := ilog2 n d
  let q := pow2 e
  e * 2 ^ 160 + log2Digits 160 (n * q.2 * 2 ^ 400 / (d * q.1)) 0

/-- The sum of the terms at even or odd places, signs alternating. -/
def alternating : List Nat → Int
  | a :: _ :: r => a - alternating r
  | [a] => a
  | [] => 0

/-- 2/π with 448 fraction bits. -/
def twoOverPi : Nat :=
  0xa2f9836e4e441529fc2757d1f534ddc0db6295993c439041fe5163abdebbc561b7246e3a424dd2e006492eea09d1921cfe1deb1cb129a73e

/-- The sine of n/d radians with 192 fraction bits, right to about 180 of them (log entry 8); `turn` quarter turns more. -/
def sinApprox (n d turn : Nat) : Int :=
  let u := n * twoOverPi / (d * 2 ^ 256)
  let ts := expTerms (u % 2 ^ 192 * 0x1921fb54442d18469898cc51701b839a252049c1114cf98e8 / 2 ^ 192) 60 0 (2 ^ 192)
  match (u / 2 ^ 192 + turn) % 4 with
  | 0 => alternating (ts.drop 1)
  | 1 => alternating ts
  | 2 => -alternating (ts.drop 1)
  | _ => -alternating ts

/-- 07 R191 `vfrcp`. Where 1/a lies beyond the FP32 range, R179 gives the overflow of its sign (07 R180). -/
def fRcp (a : Nat) : Nat :=
  match fp32.value a with
  | .nan => fp32.nan
  | .inf s => signBit fp32 s
  | .fin s n d =>
    if n = 0 then fp32.overflow s
    else if (powerOfTwo n d).isSome && fp32.roundFin 1 false false d n = fp32.roundFin 3 false false d n then
      signBit fp32 s + fp32.roundFin 0 false false d n
    else if fp32.roundFin 0 false false d n = fp32.overflow false then fp32.overflow s
    else withinBound 0x046 a s d n (ulpAt d n)

/-- 07 R191 `vfrsq`. -/
def fRsq (a : Nat) : Nat :=
  match fp32.value a with
  | .nan => fp32.nan
  | .inf s => if s then fp32.nan else 0
  | .fin s n d =>
    if n = 0 then fp32.overflow s
    else if s then fp32.nan
    else
      let q := rootQuot 180 d n
      match powerOfTwo n d with
      | some e => if e % 2 = 0 then fp32.roundFin 0 false false q.1 q.2 else withinBound 0x047 a false q.1 q.2 (ulps 2 q.1 q.2)
      | none => withinBound 0x047 a false q.1 q.2 (ulps 2 q.1 q.2)

/-- 07 R191 `vfexp2`. Of an integral operand below -149 the exact result is no FP32 value: it is within the bound (log entry 82). -/
def fExp2 (a : Nat) : Nat :=
  match fp32.value a with
  | .nan => fp32.nan
  | .inf s => if s then 0 else fp32.overflow false
  | .fin s n d =>
    if !s && decide (n ≥ 128 * d) then fp32.overflow false
    else if n % d = 0 && (!s || decide (n / d ≤ 149)) then
      let q := pow2 (if s then -((n / d : Nat) : Int) else ((n / d : Nat) : Int))
      fp32.roundFin 0 false false q.1 q.2
    else
      let x : Int := (if s then -((min n (200 * d) * 2 ^ 192 : Nat) : Int) else ((n * 2 ^ 192 : Nat) : Int)) / (d : Int)
      let q := pow2 (x / 2 ^ 192 - 192)
      let m := exp2Frac (x % 2 ^ 192).toNat
      withinBound 0x049 a false (m * q.1) q.2 (ulps 2 (m * q.1) q.2)

/-- 07 R191 `vflog2`. -/
def fLog2 (a : Nat) : Nat :=
  match fp32.value a with
  | .nan => fp32.nan
  | .inf s => if s then fp32.nan else fp32.overflow false
  | .fin s n d =>
    if n = 0 then fp32.overflow true
    else if s then fp32.nan
    else
      match powerOfTwo n d with
      | some k => fp32.roundFin 0 false (decide (k < 0)) k.natAbs 1
      | none =>
        let x := log2Approx n d
        withinBound 0x04A a (decide (x < 0)) x.natAbs (2 ^ 160)
          (if d ≤ 2 * n ∧ n ≤ 2 * d then absTol 22 else ulps 2 x.natAbs (2 ^ 160))

/-- 07 R191 `vfsin`. -/
def fSin (a : Nat) : Nat :=
  match fp32.value a with
  | .fin s n d =>
    if n = 0 then signBit fp32 s
    else
      let x := sinApprox n d 0
      withinBound 0x04B a (decide (x < 0) != s) x.natAbs (2 ^ 192) (absTol 21)
  | _ => fp32.nan

/-- 07 R191 `vfcos`. -/
def fCos (a : Nat) : Nat :=
  match fp32.value a with
  | .fin _ n d =>
    if n = 0 then 0x3F800000
    else
      let x := sinApprox n d 1
      withinBound 0x04C a (decide (x < 0)) x.natAbs (2 ^ 192) (absTol 21)
  | _ => fp32.nan

/-! ## Block scales (07 R176, R194 to R196) -/

/-- 07 R176: the value of an E3M5 pattern, as a quotient; `0xFF` is a zero block. -/
def e3m5 (x : Nat) : Nat × Nat :=
  if x = 0xFF then (0, 1)
  else if x / 32 = 0 then (x % 32, 128)
  else
    let q := pow2 ((x / 32 : Nat) - 3)
    ((32 + x % 32) * q.1, 32 * q.2)

/-- Is E3M5 pattern `s` at least a quotient? -/
def e3m5Ge (s n d : Nat) : Bool :=
  let q := e3m5 s
  decide (q.1 * d ≥ n * q.2)

/-- The largest magnitude of some values: none of them infinite gives a quotient. -/
def amaxOf (ys : List FVal) : Option (Nat × Nat) :=
  ys.foldl (fun acc y =>
    match acc, y with
    | none, _ => none
    | some _, .inf _ => none
    | some a, .nan => some a
    | some a, .fin _ n d => if n * a.2 > a.1 * d then some (n, d) else some a) (some (0, 1))

/-- 07 R195: the scale of a rule (0 max, 1 pow2, 2 given). -/
def blockScale (rule : Nat) (ys : List FVal) (given : Nat) : Nat :=
  if rule = 2 then (if given % 256 = 0 || given % 256 = 0xFF then 0xFF else given % 256)
  else
    let cands := if rule = 0 then (List.range 254).map (· + 1) else [0x01, 0x02, 0x04, 0x08, 0x10, 0x20, 0x40, 0x60, 0x80, 0xA0, 0xC0, 0xE0]
    let top := if rule = 0 then 0xFE else 0xE0
    match amaxOf ys with
    | none => top
    | some (0, _) => 0xFF
    | some (n, d) => (cands.find? fun s => e3m5Ge s n (6 * d)).getD top

/-- 07 R194: the E2M1 code of one product under a scale. -/
def blockCode (rm s : Nat) (y : FVal) : Nat :=
  let e2m1 := fmtOf 10#4
  if s = 0xFF then 0
  else
    match y with
    | .nan => 0
    | .inf neg => e2m1.over neg false
    | .fin neg n d =>
      let q := e3m5 s
      e2m1.roundFin rm false neg (n * q.2) (d * q.1)

/-- 07 R196: one unpacked element. An infinite m gives ±∞ for a nonzero code, under the scale of value 0 also (log entry 56). -/
def blockValue (rm code s m : Nat) : Nat :=
  if s = 0xFF then 0
  else
    let q := e3m5 s
    let e := (fmtOf 10#4).value code
    match fp32.value m with
    | .inf _ => fp32.round rm false (FVal.mul e (fp32.value m))
    | y => fp32.round rm false (FVal.mul (FVal.mul e (.fin false q.1 q.2)) y)

end Sys2Proof.Machine
end

