-- ==== Sys2Proof/Machine/Perform.lean ====
section
/-! DEFINITION. Performing the accesses of memory instructions: the operand log and the store queue (08 R202, R203), loads, stores and
atomics at their homes (10 R240 to R256). -/

namespace Sys2Proof.Machine

/-! ## The operand log and store queue (08 R202, R203) -/

/-- 08 R202: the operand-log entry that an instruction takes: the lowest free one (log entry 66). -/
def Group.freeLog (x : Group) : Option Nat := KMap.freeFrom x.oplog 0 16

/-- 08 R202: an operation takes an entry, the newest of its group. -/
def Group.takeLog (x : Group) (e : Nat) (o : MemOp) : Group :=
  { x with oplog := KMap.put e { o with log := some e, age := x.taken } x.oplog, taken := x.taken + 1 }

/-- 08 R201: puts an operation among others in the order of their entries' ages, behind those as old. -/
def byAge (o : MemOp) : List MemOp → List MemOp
  | [] => [o]
  | q :: qs => if q.age > o.age then o :: q :: qs else q :: byAge o qs

/-- Does an operation pass through the store queue in lane order, so that a lane's fault holds the lanes behind it (10 R245, 11 R272)? -/
def MemOp.inOrder (o : MemOp) : Bool := o.kind = .store || o.kind = .reduce

/-- Is an entry one with accesses on their way to another device? -/
def MemOp.waitsRemote (o : MemOp) : Bool := o.accs.any fun a => a.sent

/-- Was an operation issued by the handler of the fault that the stream last took, so that it passes what that fault holds (08 R203)? -/
def Group.handlers (x : Group) (o : MemOp) : Bool := o.kernel && decide (x.entered ≤ o.age)

/-- The group's own stores that are not performed, oldest first: on their way, held with a fault, queued; then the handler's own. -/
def Group.ownStores (x : Group) : List MemOp :=
  let l := (((x.oplog.map Prod.snd).filter fun o => o.waitsRemote) ++ x.faults ++ x.storeq).filter fun o => o.kind = .store
  (l.filter fun o => !x.handlers o) ++ l.filter x.handlers

/-- The value of a field of bytes with some bytes replaced: bytes of `b` at `pb` over those of `a` at `pa`. -/
def overlay (a : List Byte) (pa : Nat) (b : List Byte) (pb : Nat) : List Byte :=
  (List.range a.length).map fun i =>
    if pb ≤ pa + i ∧ pa + i < pb + b.length then (b[pa + i - pb]?).getD 0 else (a[i]?).getD 0

/-- Do two translations name one memory? -/
def Xlat.sameSpace (x y : Xlat) : Bool := x.remote = y.remote && x.leaf.host = y.leaf.host && x.leaf.dev = y.leaf.dev

/-- Do two accesses of `n` and `m` bytes overlap? -/
def Xlat.overlaps (x y : Xlat) (n m : Nat) : Bool := x.sameSpace y && decide (x.pa < y.pa + m) && decide (y.pa < x.pa + n)

/-- Where a store of the group goes: one whose translation for a write faults, where a read of its address would (11 R268). -/
def State.storeXlat (s : State) (g : Nat) (o : MemOp) (a : LaneAcc) : Option Xlat :=
  match s.xlate (s.whoIs g o.kernel) a.va.toNat .write with
  | .ok y => some y
  | .error _ => (s.xlate (s.whoIs g o.kernel) a.va.toNat .read).toOption

/-- 11 R268, R271: bytes of the group's own stores that are not performed over those a load reads, oldest store first. -/
def State.forwarded (s : State) (g : Nat) (x : Xlat) (bs : List Byte) : List Byte :=
  (s.grp g).ownStores.foldl (fun bs o =>
    o.accs.foldl (fun bs a =>
      match s.storeXlat g o a with
      | some y => if x.sameSpace y then overlay bs x.pa (bytesOfNat o.size a.data) y.pa else bs
      | none => bs) bs) bs

/-- What an instruction of a stream reads of a range through translation: its group's own stores over each part (11 R271). -/
def State.readOwn (s : State) (g : Nat) (w : Who) (va n : Nat) : Except (Cause × Nat) (List (List Byte × Bool)) :=
  match s.readPieces w va n with
  | .error e => .error e
  | .ok ds => .ok (((sectorPieces va n n).zip ds).map fun p =>
      match s.xlate w p.1.1 .read with
      | .ok x => (s.forwarded g x p.2.1, p.2.2)
      | .error _ => p.2)

/-- 08 R209: bytes that one lane, or the scalar stream (16), has in the try buffer over those it reads from global memory. -/
def State.buffered (s : State) (g lane : Nat) (x : Xlat) (bs : List Byte) : List Byte :=
  match (s.grp g).tr with
  | none => bs
  | some y => y.buffer.foldl (fun bs o =>
      if o.spad then bs
      else o.accs.foldl (fun bs a =>
        if a.lane ≠ lane then bs
        else
          match s.xlate (s.whoIs g o.kernel) a.va.toNat .write with
          | .ok z => if x.sameSpace z then overlay bs x.pa (bytesOfNat o.size a.data) z.pa else bs
          | .error _ => bs) bs) bs

/-- Does an access of the group overlap a reduction still in its store queue? A load of it waits (11 R271). -/
def State.behindReduce (s : State) (g : Nat) (x : Xlat) (n : Nat) : Bool :=
  (s.grp g).storeq.any fun o => o.kind = .reduce && o.accs.any fun a =>
    match s.xlate (s.whoIs g o.kernel) a.va.toNat .write with
    | .ok y => x.overlaps y n o.size
    | .error _ => false

/-- Is a stream still there with the operation that waits at a unit: neither gone, halted nor switched out, and stalled for it or with stores
queued? -/
def State.waitsStill (s : State) (o : RnOp) : Bool :=
  match KMap.find o.g s.groups with
  | some x => !x.halted && !x.out && (x.stall = 15 || x.lstall = 15 || !x.storeq.isEmpty)
  | none => false

/-- 10 R261: does an operation of `n` accesses at the unit of an address wait in the arbitration window of a suspended run: behind one that
came before it, or because the window's 32 would be passed? -/
def State.unitTurn (s : State) (g : Nat) (x : Xlat) (n : Nat) : Bool :=
  x.leaf.ms && !x.leaf.host && !x.remote && !s.rennets.isEmpty &&
    (let u := s.unitAt (s.homeOf x.pa)
     (u.queue.any fun r => r.state = 2) && (decide (u.served + n > 32) || match u.waiting.find? s.waitsStill with | some o => o.g ≠ g | none => false))

/-- Does an operation of a stream with `n` accesses at the home of an address wait there (09 R232, 10 R261)? -/
def State.holdsOp (s : State) (g : Nat) (x : Xlat) (n : Nat) : Bool := s.homeBusy (s.gPart g) x || s.unitTurn g x n

/-- 10 R261: an ordinary operation of a stream waits at the unit of its line, if it is a unit that keeps it. -/
def State.waitAtUnit (s : State) (g : Nat) (x : Xlat) (n : Nat) : State :=
  if !s.unitBusy x && !s.unitTurn g x n then s
  else s.onUnit (s.homeOf x.pa) fun u => if u.waiting.any fun o => o.g = g then u else { u with waiting := u.waiting ++ [{ g, pa := x.pa, n }] }

/-- The accesses, of those translated, that go to the same unit as one of them. -/
def State.nearOps (s : State) (xs : List Xlat) (x : Xlat) : Nat :=
  if s.rennets.isEmpty then 1 else (xs.filter fun y => y.leaf.ms && !y.leaf.host && !y.remote && s.homeOf y.pa = s.homeOf x.pa).length

/-- 10 R261: an operation of a stream that its unit serves waits there no more. -/
def State.unwait (s : State) (g : Nat) (x : Xlat) : State :=
  if x.leaf.ms && !x.leaf.host && !x.remote && !s.rennets.isEmpty && ((s.unitAt (s.homeOf x.pa)).waiting.any fun o => o.g = g) then
    s.onUnit (s.homeOf x.pa) fun u => { u with waiting := u.waiting.filter fun o => o.g ≠ g }
  else s

/-! ## Single accesses -/

/-- What performing one access comes to. -/
inductive Perf where
  | done (s : State)
  | fault (c : Cause)
  /-- it is on its way to another device -/
  | remote (s : State) (a : LaneAcc)

/-- Loads `n` bytes for a stream at a translated address: through the L1 for an ordinary device page, at the agent else
(10 R242), with the store queue's and the try buffer's own bytes over them. -/
def State.loadAt (s : State) (g lane : Nat) (kernel : Bool) (va : Nat) (x : Xlat) (n hint : Nat) : List Byte × Bool × State :=
  let w := s.whoIs g kernel
  let s := ((s.touch w va).hacFor w va x).unwait g x
  let r : List Byte × Bool × State :=
    if x.leaf.host || x.leaf.ms then
      let h := s.homeRead (s.gPart g) x n hint
      (h.1.1, h.1.2, h.2)
    else s.l1Load (s.gCore g) g x n (hintOf x.leaf hint)
  (r.2.2.buffered g lane x (r.2.2.forwarded g x r.1), r.2.1, r.2.2)

/-- 08 R209, 11 R271: the group's own bytes over an access of `n` bytes, by offset: those that come out the same over any bytes read. -/
def State.ownBytes (s : State) (g lane : Nat) (x : Xlat) (n : Nat) : List (Nat × Byte) :=
  let own (b : Byte) : List Byte := s.buffered g lane x (s.forwarded g x (List.replicate n b))
  ((((own 0x00).zip (own 0xFF)).zipIdx).filter fun e => e.1.1 = e.1.2).map fun e => (e.2, e.1.1)

/-- Writes the bytes of a loaded access to the lanes that take it (10 R244), poison carried into the slots. -/
def Group.putLoad (x : Group) (o : MemOp) (lane : Nat) (bs : List Byte) (bad : Bool) : Group :=
  let v := natOfBytes bs
  let ts := if o.bcast = 0 then [lane] else lanes o.bcast
  let w : Nat := if o.sext then wrap (sext v (8 * o.size)) 32 else v
  ts.foldl (fun x t => (List.range (max 1 (o.size / 4))).foldl (fun x i =>
    x.vSetP t (o.dst + i) (BitVec.ofNat 32 (w / 2 ^ (32 * i))) bad) x) x

/-- The new value of an atomic operation (10 R250): the operation, its type, the value held, the operand, the compare value. -/
def atomicNew (op : Nat) (ty : BitVec 4) (old v c : Nat) : Nat :=
  let fl := tyFloat ty
  match op with
  | 0 => if fl then fAdd fp32 0 false old v else (old + v) % 2 ^ tyWidth ty
  | 1 => if fl then fMinMax fp32 false old v else if intVal ty v < intVal ty old then v else old
  | 2 => if fl then fMinMax fp32 true old v else if intVal ty old < intVal ty v then v else old
  | 3 => old &&& v
  | 4 => old ||| v
  | 5 => old ^^^ v
  | 6 => v
  | _ => if old = c then v else old

/-- 10 R256: may an atomic go to this page? A proxied host page takes every one; another host page only what PCI Express
AtomicOps carry, where the root port completes them. -/
def State.atomicOk (s : State) (x : Xlat) (op : Nat) (ty : BitVec 4) : Bool :=
  !x.leaf.host || x.leaf.ms || (s.caps.atomicOps && (op = 6 || op = 7 || (op = 0 && !tyFloat ty)))

/-- 10 R242, R251, R256: the read-modify-write at the performing agent: the old value, whether the target was poisoned, the state
after. The home slice has written back and dropped the target sector; the proxy's write is still to come. -/
def State.readModifyWrite (s : State) (x : Xlat) (op : Nat) (ty : BitVec 4) (v c : Nat) : Nat × Bool × State :=
  let n := tyWidth ty / 8
  let s := if x.leaf.host then s else if x.leaf.ms then ((s.dropL2 x.pa).served x).countDecode x.pa else (s.dropSector x.pa).countDecode x.pa
  let d := s.rawLoad x n
  if d.2 then ((if tyFloat ty then fp32.nan else 0), true, s)
  else
    let old := natOfBytes d.1
    let new := bytesOfNat n (atomicNew op ty old v c)
    (old, false,
      if x.leaf.host && x.leaf.ms then s.proxyPut x.pa new
      else if x.leaf.host then s.hostStore x.pa new
      else (s.store x.pa new).touchImages x.pa)

/-- 10 R251: one indivisible read-modify-write of a stream: the old value, whether the target was poisoned, the state after. -/
def State.atomicAt (s : State) (g : Nat) (kernel : Bool) (va : Nat) (x : Xlat) (op : Nat) (ty : BitVec 4) (v c : Nat) : Nat × Bool × State :=
  let w := s.whoIs g kernel
  let s := (((s.touch w va).hacFor w va x).unwait g x).l1DropLine (s.gCore g) x.pa
  s.readModifyWrite x op ty v c

/-- A store of `n` bytes performed at its home (10 R245); an issuing core's L1 line that holds the sector is updated (09 R227). -/
def State.storeTo (s : State) (g : Nat) (kernel : Bool) (va : Nat) (x : Xlat) (bs : List Byte) (hint : Nat) : State :=
  let w := s.whoIs g kernel
  let s := ((s.touch w va).hacFor w va x).unwait g x
  let s := match (s.gTeam g).core with
    | some k => if x.leaf.host || x.leaf.ms then s else s.l1Store k x bs
    | none => s
  (s.countRequest g x false).rawStore w.part x bs hint

/-- Marks PCONS or SCONS of a stream (03 R91). -/
def State.consumed (s : State) (g : Nat) (lane : Bool) : State :=
  (s.onGrp g fun x => x.chk (if lane then pcons else scons)).count g 0x14 1

/-- 13 R322: puts a piece among others in ascending lane order. -/
def byLane (p : Piece) : List Piece → List Piece
  | [] => [p]
  | q :: qs => if q.lane > p.lane then p :: q :: qs else q :: byLane p qs

/-- 13 R317, R322: a lane's piece of a copy enters its queue: it joins the transfer operation of its copy that meets its 128-byte
line, or makes a new one. A void piece meets no line. -/
def State.enterPiece (s : State) (g : Nat) (o : MemOp) (lane : Nat) (x : Option Xlat) : State :=
  match o.copy with
  | none => s
  | some c =>
    match c.pieces.find? fun p => p.lane = lane with
    | none => s
    | some p =>
      let p1 : Piece := match x with
        | some x => { p with pa := x.pa, leaf := x.leaf, remote := x.remote, tok := x.tok }
        | none => p
      let line : Option Nat := x.map fun x => (if x.leaf.host then 2 ^ 60 else 0) + (if x.remote then 2 ^ 61 * (1 + x.leaf.dev) else 0) + x.pa / 128
      let fits (op : LadleOp) : Bool := match op with
        | .xfer t => t.id = c.id && t.line = line && line.isSome && !t.sent
        | _ => false
      s.onCore (s.gCore g) fun y =>
        let q := KMap.read [] c.queue y.ladle
        let q1 : List LadleOp :=
          if q.any fits then q.map fun op => match op with
            | .xfer t => if fits op then .xfer { t with pieces := byLane p1 t.pieces } else op
            | _ => op
          else q ++ [.xfer { id := c.id, g, kind := o.kind, line, pieces := [p1], l := c.l, ru := c.ru, hint := o.hint, scope := o.scope }]
        { y with ladle := KMap.put c.queue q1 y.ladle }

/-- 13 R321, 15 R364: who makes the accesses of an operation: a copy's are performed from its Ladle queue. -/
def State.copyWho (s : State) (g : Nat) (o : MemOp) : Who :=
  match o.copy with
  | some c => (s.whoIs g o.kernel).onQueue (s.gCore g) c.queue
  | none => s.whoIs g o.kernel

/-- Is a lane's piece of a copy void? -/
def MemOp.voidLane (o : MemOp) (lane : Nat) : Bool :=
  match o.copy with
  | some c => c.pieces.any fun p => p.lane = lane && p.void
  | none => false

/-- 10 R242, 19 R448: an access of another device goes out; with no working link it faults. -/
def State.goRemote (s : State) (g : Nat) (w : Who) (a : LaneAcc) (x : Xlat) : Perf :=
  if !s.linked then .fault .remote
  else .remote (((s.touch w a.va.toNat).hacFor w a.va.toNat x).sendRemote g x.leaf.dev x.pa) { a with sent := true }

/-- Performs one access of a memory instruction of a stream. -/
def State.performAcc (s : State) (g : Nat) (o : MemOp) (a : LaneAcc) : Perf :=
  let w := s.whoIs g o.kernel
  let va := a.va.toNat
  match o.kind with
  | .load | .loadSpec =>
    match s.xlate w va .read with
    | .error c => .fault c
    | .ok x =>
      if x.remote then s.goRemote g w { a with fwd := s.ownBytes g a.lane x o.size } x
      else
        let r := s.loadAt g a.lane o.kernel va x o.size o.hint
        if o.lane then .done (r.2.2.onGrp g fun y => y.putLoad o a.lane r.1 r.2.1)
        else
          let v := if r.2.1 then 0 else natOfBytes r.1
          let s1 := if r.2.1 then r.2.2.consumed g false else r.2.2
          .done (s1.onGrp g fun y => y.sSet o.dst (BitVec.ofInt 64 (if o.sext then sext v (8 * o.size) else (v : Int))))
  | .atomic | .reduce =>
    match s.xlate w va (if o.kind = .atomic then .atomic else .write) with
    | .error c => .fault c
    | .ok x =>
      if x.remote then s.goRemote g w a x
      else if !s.atomicOk x o.op o.ty then .fault .hostAtomic
      else
        let r := s.atomicAt g o.kernel va x o.op o.ty a.data a.cmp
        let s1 := if r.2.1 then r.2.2.consumed g o.lane else r.2.2
        if o.kind = .reduce then .done s1
        else if o.lane then .done (s1.onGrp g fun y => y.putLoad { o with size := tyWidth o.ty / 8, sext := false } a.lane (bytesOfNat (tyWidth o.ty / 8) r.1) false)
        else .done (s1.onGrp g fun y => y.sSet o.dst (BitVec.ofInt 64 (if o.sext then sext r.1 (tyWidth o.ty) else (r.1 : Int))))
  | .store =>
    match s.xlate w va .write with
    | .error c => .fault c
    | .ok x =>
      if x.remote then s.goRemote g w a x
      else .done (s.storeTo g o.kernel va x (bytesOfNat o.size a.data) o.hint)
  | .copyIn | .copyOut | .cast =>
    if o.voidLane a.lane then .done (s.enterPiece g o a.lane none)
    else
      match s.xlate (s.copyWho g o) va (if o.kind = .copyOut then .write else .read) with
      | .error c => .fault c
      | .ok x => if x.remote && !s.linked then .fault .remote else .done ((s.touch w va).enterPiece g o a.lane (some x))
  | .fence => .done s

/-- The fault that an access would find now. -/
def State.faultAt (s : State) (g : Nat) (o : MemOp) (a : LaneAcc) : Option Cause :=
  match s.performAcc g o a with
  | .fault c => some c
  | _ => none

/-- Performs accesses in lane order: those that fault, are on their way to another device, or lie behind a store's fault are kept, in
order, with their causes. -/
def State.performAll (s : State) (g : Nat) (o : MemOp) : List LaneAcc → State × List (LaneAcc × Option Cause)
  | [] => (s, [])
  | a :: as =>
    if a.sent then let r := s.performAll g o as; (r.1, (a, none) :: r.2)
    else
      match s.performAcc g o a with
      | .done s1 => s1.performAll g o as
      | .remote s1 b => let r := s1.performAll g o as; (r.1, (b, none) :: r.2)
      | .fault c =>
        if o.inOrder then (s, (a, some c) :: as.map fun b => (b, s.faultAt g o b))
        else let r := s.performAll g o as; (r.1, (a, some c) :: r.2)

/-- 10 R241: the fault that a list of left accesses reports: the cause of the lowest faulting lane, the lanes that share it, and
that lane's address. -/
def faultOf (left : List (LaneAcc × Option Cause)) : Option (Cause × BitVec 16 × Word) :=
  match left.find? fun e => e.2.isSome with
  | some (a, some c) => some (c, maskOf ((left.filter fun e => e.2 = some c && e.1.lane < 16).map fun e => e.1.lane), a.va)
  | _ => none

/-- Performs the accesses of an instruction that takes an operand-log entry; what is left stays pending in it with the fault found. -/
def State.performLog (s : State) (g e : Nat) (o : MemOp) : State :=
  let r := s.performAll g o o.accs
  r.1.onGrp g fun x => x.takeLog e { o with accs := r.2.map Prod.fst, fault := faultOf r.2 }

end Sys2Proof.Machine
end

