-- ==== Sys2Proof/Machine/Ending.lean ====
section
/-! DEFINITION. How groups, teams, clusters and tasks end (02 R54, 08 R200, R206, 14 R345, 15 R378). -/

namespace Sys2Proof.Machine

/-- What an exited group leaves to be performed (02 R54, 08 R206): its stores on their way, held with a fault and queued, oldest first. -/
def Group.storesAtExit (x : Group) : List MemOp :=
  ((x.oplog.map Prod.snd).filter fun o => o.inOrder && o.waitsRemote).map (fun o => { o with accs := o.accs.filter fun a => a.sent, fault := none }) ++
    (x.faults.filter fun o => o.inOrder) ++ x.storeq

/-- 02 R54, 04 R100: ends one stream. Its registers and its loads in flight go; its `c.chkint` joins the team's, a sequencer stream's the
cluster's. -/
def State.endStream (s : State) (g : Nat) : State :=
  match KMap.find g s.groups with
  | none => s
  | some x =>
    let s1 := { s with
      groups := KMap.del g s.groups
      cores := s.cores.map fun (c : Nat × Core) => if c.2.lines.isEmpty then c else (c.1, { c.2 with lines := c.2.lines.filter fun l => l.1 / 65536 ≠ g }) }
    if keyGrp g = 64 then
      s1.onCl (s1.gCluster g) fun c =>
        { c with chk := c.chk ||| (x.chkint &&& 31), cor := min 255 (c.cor + (x.chkint.extractLsb' 8 8).toNat) }
    else s1.onTm (keyTeam g) fun t => { t with chk := t.chk ||| (x.chkint &&& 31) }

/-- 02 R54, 08 R206, R218: a stream executes `exit`: its stores stay in a residual record. -/
def State.exitStream (s : State) (g : Nat) : State :=
  match KMap.find g s.groups with
  | none => s
  | some x =>
    let older := match KMap.find g s.residuals with
      | some r => r.storeq
      | none => []
    let left := older ++ x.storesAtExit
    { s with residuals := if left.isEmpty then s.residuals else KMap.put g { team := keyTeam g, grp := keyGrp g, storeq := left } s.residuals }.endStream g

/-- 15 R378, 11 R280: what a stream that does not exit has queued is performed before what its team holds goes back; a store that faults
is dropped (log entry 50). -/
def State.drainStream (s : State) (g : Nat) : State :=
  ((s.grp g).faults.filter (fun o => o.inOrder) ++ (s.grp g).storeq).foldl (fun s o => (s.performAll g o (o.accs.filter fun a => !a.sent)).1) s

/-- The stream key of a cluster's sequencer stream, which its anchor team's id carries. -/
def State.seqKey (s : State) (c : Nat) : Nat := streamKey ((s.cl c).members.headD 0) 64

/-- Frees the core that a team holds (02 R54); a fused L1 goes (09 R237). -/
def State.freeCore (s : State) (t : Nat) : State :=
  match (s.tm t).core with
  | none => s
  | some k =>
    let fuse := (s.cl (s.tm t).cluster).fuse
    let s1 := s.onTm t fun y => { y with core := none }
    if (s.coreAt k).team = some t then s1.onCore k fun c => { c with team := none, l1 := if fuse then [] else c.l1 } else s1

/-- The holder that takes what an ended cluster held: its task's submitter, or the host function (15 R378). -/
def State.parentOf (s : State) (c : Nat) : Nat :=
  let x := s.cl c
  if isLocalId x.submitter && !s.holderLive x.submitter then hostHolder 0 x.part else x.submitter

/-- 14 R345: the first status other than DONE that is recorded stands. -/
def firstStatus (old new : Nat) : Nat := if old = 1 then new else old

/-- 14 R345: completes a task when every placed cluster has ended and none remains to be placed. -/
def State.tryCompleteTask (s : State) (p i : Nat) : State :=
  let t := s.taskAt p i
  if t.state = .running && t.endedN = t.placed && (t.stopped || decide (t.placed ≥ recGrid t.record)) then
    s.completeTask p i (s.taskFuel p)
  else s

/-- 02 R54: ends a cluster whose teams and sequencer stream have ended. -/
def State.tryEndCluster (s : State) (c : Nat) : State :=
  let x := s.cl c
  if x.res = .ended || !(x.members.all fun t => (s.tm t).res = .ended) || (KMap.find (s.seqKey c) s.groups).isSome ||
      (KMap.find (s.seqKey c) s.residuals).isSome || s.enginesHold c then s
  else
    let s1 := s.endHolder c (s.parentOf c)
    let s2 := x.members.foldl State.freeCore s1
    let s3 := s2.onCl c fun y => { y with res := .ended, shares := [] }
    let y := s3.cl c
    let s4 := s3.setTask x.part x.task (
      let t := s3.taskAt x.part x.task
      { t with endedN := t.endedN + 1, chk := t.chk ||| y.chk, cor := min 255 (t.cor + y.cor), status := firstStatus t.status y.status,
               failTeam := if t.failTeam = 0 then y.failTeam else t.failTeam })
    s4.tryCompleteTask x.part x.task

/-- Frees what a team holds in the Rennet units: its microprogram slots (10 R259). -/
def State.freeSlots (s : State) (t : Nat) : State :=
  { s with rennets := s.rennets.map fun u =>
      (u.1, { u.2 with slots := u.2.slots.filter fun e => e.2.team ≠ t }) }

/-- 02 R54: does a team end: all its groups ended, no thread in a bin, no residual record left, and what its engines do under its holdings
done (15 R378)? -/
def State.teamDone (s : State) (t : Nat) : Bool :=
  (s.tm t).res ≠ .ended && (s.teamGroups t).isEmpty && ((s.tm t).bins.all fun b => b.2.threads.isEmpty) &&
    !(s.residuals.any fun r => r.2.team = t && r.2.grp < 64) && !s.enginesHold t

/-- The members of a cluster that hold a core: those that have not ended, and the anchor (02 R54). -/
def State.coreMembers (s : State) (c : Nat) : List Nat := (s.cl c).members.filter fun t => (s.tm t).core.isSome

/-- The streams of a cluster, its sequencer stream among them. -/
def State.clusterStreams (s : State) (c : Nat) : List Nat := (s.cl c).members.flatMap s.teamStreams

/-- 08 R214, 14 R353: when the last member of a cluster is saved or has ended, a pre-empted cluster enters its partition's relaunch queue; an
evicted one when its awaited phase completes (02 R56), which may have come about during the save. -/
def State.settleOut (s : State) (c : Nat) : State :=
  if !(s.coreMembers c).isEmpty then s
  else if (s.cl c).res = .stopping then
    (s.onCl c fun y => { y with res := .preempted, since := s.now - y.accrued }).onPart (s.cl c).part fun q =>
      { q with relaunchq := q.relaunchq ++ [c] }
  else if (s.cl c).res = .saving then
    let s1 := s.onCl c fun y => { y with res := .evicted }
    if (s1.clusterStreams c).any fun g => match (s1.grp g).wait with | some w => w.signalled | none => false then s1.queueRelaunch c else s1
  else s

/-- 02 R54, 15 R378: ends a team that is done; its core is freed, the anchor's only with the cluster. A cluster whose other members are
saved is then switched out. -/
def State.tryEndTeam (s : State) (t : Nat) : State :=
  if !s.teamDone t then s
  else
    let x := s.tm t
    let s1 := (s.endHolder t x.cluster).freeSlots t
    let s2 := if (s1.cl x.cluster).members.headD 0 = t then s1 else s1.freeCore t
    let s3 := s2.onTm t fun y => { y with res := .ended, shares := [], bins := [] }
    let s4 := s3.onCl x.cluster fun c => { c with chk := c.chk ||| x.chk }
    (s4.tryEndCluster x.cluster).settleOut x.cluster

/-- 15 R378: an operation of an engine is over: a team all whose groups have ended, and its cluster, may have waited for it. -/
def State.lateEnd (s : State) (t : Nat) : State :=
  if (s.teamGroups t).isEmpty then (s.tryEndTeam t).tryEndCluster (s.tm t).cluster else s

/-- Ends every group of a team at once and drops its spawn bins. -/
def State.endTeamNow (s : State) (t : Nat) : State :=
  (((s.teamGroups t).foldl (fun s g => (s.drainStream g).endStream g) s).onTm t fun x => { x with bins := [] }).tryEndTeam t

/-- Records a cluster's failure status with the team that failed, the task's first one where no other failed before (14 R345). -/
def State.failCluster (s : State) (c t status : Nat) : State :=
  let id := s.teamId t
  let x := s.cl c
  let u := s.taskAt x.part x.task
  let s1 := s.onCl c fun x => if x.status = 1 then { x with status := status, failTeam := id } else x
  if u.state = .running && u.failTeam = 0 then s1.setTask x.part x.task { u with failTeam := id } else s1

/-- 08 R200: ends the team of a group, or for a sequencer stream the whole cluster, with a status. The members' Presses discard
what they have not begun. -/
def State.endWithStatus (s : State) (g status : Nat) : State :=
  let t := keyTeam g
  let c := s.gCluster g
  let s1 := s.failCluster c t status
  if keyGrp g < 64 then s1.endTeamNow t
  else
    let ms := (s1.cl c).members
    let s2 := ms.foldl (fun s m =>
      match (s.tm m).core with
      | some k => s.onCore k fun x => { x with press := { x.press with queue := [] } }
      | none => s) s1
    let s3 := (s2.drainStream g).endStream g
    (ms.foldl State.endTeamNow s3).tryEndCluster c

end Sys2Proof.Machine
end

