-- ==== Sys2Proof/Machine/Ops.lean ====
section
/-! DEFINITION. The operations that instructions share: taking a trap and returning from one (08 R197 to R206), aborts of `try`
(R208 to R213), the faults held in the operand log and their re-issue (R202 to R205). -/

namespace Sys2Proof.Machine

/-! ## Traps (08 R197 to R201) -/

/-- The code of a cause (04 R104). -/
def Cause.code : Cause → Nat
  | .illegal => 0x01
  | .priv => 0x02
  | .context => 0x03
  | .misalign => 0x04
  | .page => 0x05
  | .perm => 0x06
  | .unowned => 0x07
  | .sharedWrite => 0x08
  | .stranded => 0x09
  | .spadBounds => 0x0A
  | .stack => 0x0B
  | .spawnDeadlock => 0x0C
  | .timer => 0x0D
  | .brk => 0x0E
  | .syscall => 0x0F
  | .hostAtomic => 0x10
  | .remote => 0x11
  | .barrier => 0x12
  | .token => 0x13
  | .queue => 0x14

/-- What a trap reports (08 R198). -/
structure TrapInfo where
  cause : Cause
  lane : Bool := false
  slot : Word := 0
  mask : BitVec 16 := 0
  addr : Word := 0
  log : Option Nat := none
  imprecise : Bool := false
  /-- the exited group, for a store fault after exit (08 R206) -/
  orig : Option Nat := none
  deriving DecidableEq, Repr, Inhabited

/-- The `xcause` that a trap writes (04 R103). -/
def TrapInfo.xcause (i : TrapInfo) : BitVec 32 :=
  BitVec.ofNat 32 (i.cause.code + (if i.lane then 0x100 else 0) + (if i.imprecise then 0x200 else 0) +
    (match i.orig with | some o => 0x400 + 0x10000 * o | none => 0))

/-- The `xstatus` of a stream, with the previous mode (04 R103, 08 R198). -/
def Group.xstatus (x : Group) (pmode : Bool) : BitVec 32 :=
  BitVec.ofNat 32 (0x10000 * x.pathMask.toNat + 0x100 * x.stack.length + if pmode then 1 else 0)

/-- 04 R103, R105: the bank that a trap in user mode writes. -/
def Group.trapBank (x : Group) (i : TrapInfo) : TrapBank :=
  { xpc := x.pc
    xlpc := i.slot
    xcause := i.xcause
    xstatus := x.xstatus false
    xaddr := i.addr
    xmask := i.mask.setWidth 32
    xlog := match i.log with | some e => BitVec.ofNat 32 (16 + e) | none => 0 }

/-- 08 R212: puts back every slot of the shadow lines of some lanes. -/
def Group.restoreLines (x : Group) (y : TryState) (m : BitVec 16) : Group :=
  y.shadow.foldl (fun x e => (lanes m).foldl (fun x t =>
    let v := (e.2[t]?).getD (0, false)
    { x with v := KMap.write 0 (vkey t e.1) v.1 x.v, vPoison := KMap.write false (vkey t e.1) v.2 x.vPoison }) x) x

/-- Lowers a list of flags. -/
def Group.lowerAll (x : Group) (fs : List Nat) : Group := fs.foldl (fun x f => x.lower (some f)) x

/-- The flags of a queued clause's counted slots. -/
def ClauseEntry.flagsOf (e : ClauseEntry) : List Nat := e.counts.map Prod.snd

/-- The flags of a running clause's counted slots that were not reached (03 R75). -/
def ClauseRun.unreached (r : ClauseRun) : List Nat :=
  (r.entry.counts.filter fun c => !r.reached.contains c.1).map Prod.snd

/-- Is an operand-log entry a load's, whose results a whole-group abort discards (08 R212, R218)? -/
def MemOp.discarded (o : MemOp) : Bool := o.kind = .load || o.kind = .loadSpec

/-- 08 R212 `abort_group`, for a stream in `try`; the LANES of an abort with code LANES are the rolled-back ones (R211). -/
def Group.aborted (x : Group) (y : TryState) (code detail : Nat) : Group :=
  let lost := (x.queue.flatMap ClauseEntry.flagsOf) ++ (match x.run with | some r => r.unreached | none => []) ++
    (x.pending.filterMap fun p => p.flag) ++ ((x.oplog.filter fun e => e.2.discarded).filterMap fun e => e.2.flag) ++
    y.buffer.filterMap fun o => o.flag
  let x1 := (x.restoreLines y 0xFFFF).lowerAll lost
  let x2 := { x1 with
    s := y.savedS, sPoison := y.savedP, k := y.savedK, live := y.savedLive, queue := [], run := none, path := none, stack := [],
    pending := [], oplog := x.oplog.filter fun e => !e.2.discarded
    tryabort := BitVec.ofNat 32 (0x10000 * (if code = 8 then y.aborted else y.savedLive).toNat + 0x100 * detail + code)
    tr := none, pc := y.landing, out := x.out || x.grace.isSome, grace := none, stall := 0, lstall := 14 }
  x2.sSet y.sd (x2.tryabort.setWidth 64)

/-- 08 R212: aborts a group's `try`; outside `try` nothing. -/
def State.abortGroup (s : State) (g code detail : Nat) : State :=
  match (s.grp g).tr with
  | none => s
  | some y => (s.onGrp g fun x => x.aborted y code detail).count g 0x13 1

/-- 08 R213: SYNC. -/
def State.abortSync (s : State) (g : Nat) : State := s.abortGroup g 7 0

/-- 08 R200, R207: the record of a trap in kernel mode. -/
def State.kernelRecord (s : State) (g : Nat) (i : TrapInfo) : FaultRec :=
  let x := s.grp g
  let b := x.trapBank i
  { kind := 2, grp := keyGrp g, teamid := s.teamId (keyTeam g), xcause := b.xcause, xstatus := x.xstatus true, xpc := b.xpc,
    xlpc := b.xlpc, xaddr := b.xaddr, xmask := b.xmask }

/-- 08 R200: a trap in kernel mode halts the stream, posts a record, and ends the team with "kernel fault"; for a sequencer
stream, the cluster. -/
def State.kernelFault (s : State) (g : Nat) (i : TrapInfo) : State :=
  ((s.onGrp g fun x => { x with halted := true, laneStopped := true }).post (s.gPart g) (s.kernelRecord g i)).endWithStatus g 3

/-- 08 R197: trap entry in user mode: the bank, kernel mode, the handler's address, the lane stream stopped. -/
def Group.enter (x : Group) (i : TrapInfo) (hvec : Word) : Group :=
  { x with bank := x.trapBank i, retired := i.log.isSome, kernel := true, pc := hvec &&& ~~~ 3#64, laneStopped := true,
           stall := 13, lstall := 13, handling := i.log, entered := x.taken }

/-- Is an access of another device by one of a group's streams on its way, as a load or an atomic (10 R242)? -/
def Group.inFlight (x : Group) (lane : Bool) : Bool :=
  x.oplog.any fun e => e.2.lane = lane && (e.2.kind = .load || e.2.kind = .loadSpec || e.2.kind = .atomic) && e.2.accs.any fun a => a.sent

/-- A precise lane trap that no operand-log entry holds, found while a scalar access is on its way: the scalar stream is not at a
boundary (05 R112), so the lane instruction waits and finds the trap again (08 R201). -/
def TrapInfo.early (i : TrapInfo) (x : Group) : Bool := i.lane && !i.imprecise && i.log.isNone && x.inFlight false

/-- TAKING AN EXCEPTION (03 R91 `trap`, 08 R197, R200, R208): inside `try` the abort FAULT takes its place; in kernel mode it is
a kernel fault; in user mode the bank is written and the handler entered. -/
def State.trap (s : State) (g : Nat) (i : TrapInfo) : State :=
  let x := s.grp g
  if x.inTry then s.abortGroup g 6 i.cause.code
  else if i.early x then s.onGrp g fun x => { x with lstall := 2 }
  else if x.kernel then s.kernelFault g i
  else s.onGrp g fun x => x.enter i (s.gTeam g).hvec

/-- A precise trap of a scalar instruction (08 R198). -/
def State.trapS (s : State) (c : Cause) (addr : Word) : State := s.trap s.me { cause := c, addr }

/-- A precise trap of a lane instruction at the slot of the path running (08 R198). -/
def State.trapL (s : State) (c : Cause) (mask : BitVec 16) (addr : Word) : State :=
  let x := s.grp s.me
  s.trap s.me { cause := c, lane := true, slot := (match x.path with | some p => p.lpc | none => 0), mask, addr }

/-! ## Stream progress -/

/-- A scalar instruction issues: the PC moves to `pc`, and the instruction counts (18 R435). -/
def State.goto (s : State) (pc : Word) : State :=
  let s := s.onGrp s.me fun x => { x with pc := pc, stall := 0 }
  s.count s.me 0x03 1

/-- The scalar stream goes on with the next word. -/
def State.nextPc (s : State) : State := s.goto ((s.grp s.me).pc + 4)

/-- Writes a scalar register of the stream. -/
def State.setS (s : State) (d : BitVec 6) (v : Word) : State := s.onGrp s.me fun x => x.sSet d.toNat v

/-- Writes a destination and goes on: the end of a scalar instruction. -/
def State.finish (s : State) (d : BitVec 6) (v : Word) : State := (s.setS d v).nextPc

/-- The scalar stream stalls with a reason of 18 R437; the instruction has not begun (05 R112). -/
def State.stallS (s : State) (r : Nat) : State := s.onGrp s.me fun x => { x with stall := r }

/-- The lane stream stalls with a reason. -/
def State.stallL (s : State) (r : Nat) : State := s.onGrp s.me fun x => { x with lstall := r }

/-- The value a scalar instruction reads from a register. -/
def State.rs (s : State) (a : BitVec 6) : Word := (s.grp s.me).sGet a.toNat

/-- 03 R91: records the consumption of poisoned scalar registers. -/
def State.uses (s : State) (rs : List (BitVec 6)) : State :=
  let x := s.grp s.me
  if rs.any fun r => x.sBad r.toNat then (s.onGrp s.me fun x => x.chk scons).count s.me 0x14 1 else s

/-- 04 R99: a poisoned register used as an address, one of `as`, sets PADDR also. -/
def State.usesAt (s : State) (as rs : List (BitVec 6)) : State :=
  let s1 := s.uses (as ++ rs)
  if as.any fun a => (s.grp s.me).sBad a.toNat then s1.onGrp s.me fun x => x.chk paddr else s1

/-- The same with one address register. -/
def State.usesAddr (s : State) (a : BitVec 6) (rs : List (BitVec 6)) : State := s.usesAt [a] rs

/-! ## Logged faults and re-issue (08 R202 to R205) -/

/-- Is the faulted part of an operation held apart from its operand-log entry, with the logged faults (08 R203)? -/
def MemOp.apart (o : MemOp) : Bool := o.kind = .store || o.kind = .reduce || o.kind = .copyOut

/-- Holds what is left of an operation as a logged fault in entry `e`: of a store the part that is on its way stays in the entry (08 R203,
R205). -/
def Group.holdFault (x : Group) (e : Nat) (o : MemOp) (left : List (LaneAcc × Option Cause)) : Group :=
  let o1 := { o with accs := (left.map Prod.fst).filter fun a => !o.apart || !a.sent, fault := faultOf left, log := some e }
  let kept := if o.apart then { o1 with accs := (left.map Prod.fst).filter fun a => a.sent, fault := none } else o1
  { x with oplog := KMap.put e kept x.oplog, faults := byAge o1 x.faults }

/-- 08 R205: an access re-issued by `xret` that faulted again takes a fresh entry, where one is free, and is held as a logged
fault. -/
def Group.refault (x : Group) (e : Nat) (o : MemOp) (left : List (LaneAcc × Option Cause)) : Group :=
  { x with oplog := KMap.del e x.oplog, faults := x.faults.filter fun f => f.log ≠ some e, taken := x.taken + 1 }.holdFault
    (x.freeLog.getD e) { o with age := x.taken } left

/-- An acquire load or atomic whose accesses have all been performed acquires (11 R275). -/
def State.acquireDone (s : State) (g : Nat) (o : MemOp) (left : List LaneAcc) : State :=
  if o.order % 2 = 1 && !o.inOrder && left.isEmpty then s.acquire g o.scope else s

/-- 08 R204, R205: the access that `xret` re-issues from an entry, in a mode: what is held apart, and what is on its way. -/
def Group.logged (x : Group) (e : Nat) (kernel : Bool) : Option MemOp :=
  let op : Option MemOp := match x.faults.find? fun f => f.log = some e && f.apart with
    | some o => some { o with accs := ((KMap.find e x.oplog).map fun (q : MemOp) => q.accs).getD [] ++ o.accs }
    | none => KMap.find e x.oplog
  (op.filter fun o => !o.accs.isEmpty).map fun o => { o with kernel := kernel, fault := none, reissued := true }

/-- The home that keeps an operation waiting (09 R232, 10 R261), with the accesses that it makes there. -/
def State.busyUnit (s : State) (g : Nat) (o : MemOp) : Option (Xlat × Nat) :=
  let xs := o.accs.filterMap fun a => if a.sent then none else s.storeXlat g o a
  (xs.find? fun y => s.holdsOp g y (s.nearOps xs y)).map fun y => (y, s.nearOps xs y)

/-- The transfer operations in a Ladle queue of a core (13 R317); join points take no place. -/
def Core.ladleUsed (c : Core) (q : Nat) : Nat :=
  ((KMap.read [] q c.ladle).filter fun op => match op with | .join _ => false | _ => true).length

/-- Has the queue of a re-issued copy no room for its lanes' pieces (13 R317)? -/
def State.ladleFull (s : State) (g : Nat) (o : MemOp) : Bool :=
  match o.copy with
  | none => false
  | some c => decide ((s.coreAt (s.gCore g)).ladleUsed c.queue + o.accs.length > 64)

/-- 10 R261, 13 R317: what `xret` waits for before it re-issues an access: its home, or room in its Ladle queue. -/
def State.reissueHeld (s : State) (g e : Nat) (kernel : Bool) : Option State :=
  match (s.grp g).logged e kernel with
  | none => none
  | some o =>
    match if o.copy.isSome then none else s.busyUnit g o with
    | some y => some (s.waitAtUnit g y.1 y.2)
    | none => if s.ladleFull g o then some s else none

/-- 08 R204, R205: re-issues the logged access of an entry, in a mode, for its lanes not yet performed. -/
def State.reissue (s : State) (g e : Nat) (kernel : Bool) : State :=
  match (s.grp g).logged e kernel with
  | none => s
  | some o =>
    let r := s.performAll g o o.accs
    let s1 := r.1.count g 0x10 1
    if (faultOf r.2).isSome then s1.onGrp g fun x => x.refault e o r.2
    else
      (s1.onGrp g fun x => { x with
        faults := x.faults.filter fun f => f.log ≠ some e
        oplog := KMap.put e { o with accs := r.2.map Prod.fst, log := some e } x.oplog }).acquireDone g o (r.2.map Prod.fst)

/-- 04 R105, 08 R204: drops a logged access: it is never performed, and a load's destination keeps its value. What a store's fault
held behind it in its own entry stands first in the store queue again (log entry 18). -/
def Group.dropLog (x : Group) (e : Nat) : Group :=
  let rest : List MemOp := match x.faults.find? fun f => f.log = some e && f.inOrder with
    | some f =>
      let m : BitVec 16 := match f.fault with | some q => q.2.1 | none => 0
      let behind := if f.lane then f.accs.filter fun a => !m.getLsbD a.lane else []
      if behind.isEmpty then [] else [{ f with accs := behind, fault := none }]
    | none => []
  { x with faults := x.faults.filter fun f => f.log ≠ some e
           storeq := rest ++ x.storeq
           oplog := x.oplog.map fun o => if o.1 = e then (e, { o.2 with accs := o.2.accs.filter fun a => a.sent, fault := none }) else o }

/-- The address after a path's clause: the clause end (02 R37). -/
def clauseEnd (addr : Word) (h : ClauseHeader) : Word := addr + BitVec.ofNat 64 (12 * (h.count + 1))

/-- The clause whose slots the running path executes: the called one inside a `vcall` (06 R169), else the queued one. -/
def Group.curClause (x : Group) : Option (Word × ClauseHeader) :=
  match x.stack.find? fun e => match e with | .call .. => true | _ => false with
  | some (.call _ _ a h) => some (a, h)
  | _ => x.run.map fun r => (r.entry.addr, r.entry.hdr)

/-- 08 R204: does an `xlpc` name an instruction slot of the clause the path is executing, or its end? -/
def Group.xlpcOk (x : Group) (l : Word) : Bool :=
  match x.curClause with
  | none => false
  | some (a, h) =>
    let d := (l - a).toNat
    d % 12 = 0 && decide (12 ≤ d) && decide (d ≤ 12 * (h.count + 1))

/-- Is the trap being returned from a precise lane trap that was not retired, whose `xlpc` the return uses (08 R204)? -/
def Group.usesXlpc (x : Group) : Bool :=
  !(x.bank.xcause.getLsbD 9) && x.bank.xcause.getLsbD 8 && !x.retired

/-- 02 R38: an outstanding result lands: its scalar destination is written and its flag lowered in one step. -/
def Group.landOne (x : Group) (p : LLPending) : Group :=
  let y := x.lower p.flag
  match p.dst with
  | some d => y.sSet d.1 d.2
  | none => y

/-- 06 R145: every long-latency result still in flight lands before the group resumes. -/
def Group.landPending (x : Group) : Group := x.pending.foldl Group.landOne { x with pending := [] }

/-- 04 R105: the operand-log entry that `xlog` names as pending; an `xret` over a trap bank that names none re-issues nothing. -/
def Group.pendLog (x : Group) : Option Nat := if x.bank.xlog.getLsbD 4 then some (x.bank.xlog.extractLsb' 0 4).toNat else none

/-- THE RETURN FROM AN EXCEPTION (08 R204): the logged access is re-issued or dropped, the mode and both streams resume. -/
def State.xret (s : State) (g : Nat) : State :=
  let x := s.grp g
  if x.usesXlpc && !x.xlpcOk x.bank.xlpc then s.trap g { cause := .illegal }
  else
    let mode := x.bank.xstatus.getLsbD 0
    let s := s.onGrp g Group.landPending
    let s1 :=
      match x.pendLog, x.handling with
      | some e, _ => s.reissue g e mode
      | none, some e => s.onGrp g fun y => y.dropLog e
      | none, none => s
    s1.onGrp g fun y =>
      { y with
        kernel := mode
        handling := none
        bank := { y.bank with xlog := y.bank.xlog &&& ~~~ 16#32 }
        pc := if !x.bank.xcause.getLsbD 9 && !x.bank.xcause.getLsbD 8 && x.retired then x.bank.xpc + 4 else x.bank.xpc
        path := if x.usesXlpc then y.path.map fun p => { p with lpc := x.bank.xlpc } else y.path
        spawned := match y.spawned, y.path with
          | some w, some p => if x.usesXlpc && x.bank.xlpc ≠ p.lpc then none else some w
          | w, _ => w
        laneStopped := false
        stall := 0
        lstall := if y.run.isSome then 1 else 14 }

end Sys2Proof.Machine
end

