-- ==== Sys2Proof/Machine/Access.lean ====
section
/-! DEFINITION. Stores inside `try` (08 R209 to R211), per-lane rollback, prefetches, and the scalar memory instructions
(05 R121 to R124, 10 R248, R253). -/

namespace Sys2Proof.Machine

/-! ## Rollback and the try buffer (08 R209 to R211) -/

/-- 06 R170: lanes leave the live mask and every path and mask of the mark-join stack. -/
def Group.leave (x : Group) (m : BitVec 16) : Group :=
  { x with
    live := x.live &&& ~~~ m
    path := x.path.map fun p => { p with mask := p.mask &&& ~~~ m }
    stack := x.stack.map fun e =>
      match e with
      | .mark r k ring c => .mark r (k &&& ~~~ m) ((ring.map fun p => { p with mask := p.mask &&& ~~~ m }).filter fun p => p.mask ≠ 0) c
      | .call r k a h => .call r (k &&& ~~~ m) a h }

/-- 06 R168, 02 R42: the running path has arrived at the top entry: the next pending path of its ring resumes; when all have arrived,
the entry is popped and its live lanes go on after the rejoin slot. Under a top that is no mark entry, nothing. -/
def Group.arrive (x : Group) : Group :=
  match x.stack with
  | .mark r k (p :: ps) c :: st => { x with path := some p, stack := .mark r k ps c :: st }
  | .mark r k [] c :: st => { x with path := some { mask := k &&& x.live, lpc := c + BitVec.ofNat 64 (12 * (r + 1)) }, stack := st }
  | _ => x

/-- 02 R42: a running path that has arrived, all of whose lanes have ended: where that pops its entry and leaves the path of an outer mark entry
with no lane either, that one has arrived too. `n` bounds the entries. -/
def Group.arriveOn (x : Group) : Nat → Group
  | 0 => x
  | n + 1 =>
    let y := x.arrive
    match y.stack with
    | .mark .. :: _ => if y.stack.length < x.stack.length && y.pathMask = 0 then y.arriveOn n else y
    | _ => y

/-- 06 R170: lanes leave; a running path all of whose lanes have gone has arrived at once. -/
def Group.depart (x : Group) (m : BitVec 16) : Group :=
  let y := x.leave m
  if x.pathMask ≠ 0 && y.pathMask = 0 then y.arriveOn y.stack.length else y

/-- 02 R42: a path that returns from a called clause with no lane left has arrived at the mark entry below, if that entry had a lane. -/
def Group.resettle (x : Group) : Group :=
  match x.stack with
  | .mark _ k ring _ :: _ => if x.pathMask = 0 && (k ≠ 0 || !ring.isEmpty) then x.arriveOn x.stack.length else x
  | _ => x

/-- 08 R211: what a rollback of lanes leaves of an access issued inside `try` that has not landed: the other lanes'. -/
def MemOp.withoutLanes (o : MemOp) (m : BitVec 16) : MemOp :=
  if !o.tried || !o.discarded then o
  else if o.bcast ≠ 0 then { o with bcast := o.bcast &&& ~~~m, accs := if o.bcast &&& ~~~m = 0 then [] else o.accs }
  else { o with accs := o.accs.filter fun a => a.lane ≥ 16 || !m.getLsbD a.lane }

/-- 04 R108: the bits of `k1` to `k7` of some lanes as the checkpoint has them. -/
def Group.restorePreds (x : Group) (y : TryState) (m : BitVec 16) : Group :=
  (List.range 7).foldl (fun x i => x.kSet (i + 1) m (KMap.read 0 (i + 1) y.savedK)) x

/-- 08 R211: rolls lanes of a group in `try` back, with an abort code and detail; when no lane stays live the group aborts with
LANES. -/
def State.rollLanes (s : State) (g : Nat) (m : BitVec 16) (code detail : Nat) : State :=
  match (s.grp g).tr with
  | none => s
  | some y =>
    let s1 := (s.onGrp g fun x =>
      let x1 := ((x.restoreLines y m).restorePreds y m).depart m
      { x1 with
        oplog := x1.oplog.map fun e => (e.1, e.2.withoutLanes m)
        tr := some { y with
          buffer := y.buffer.map fun o => { o with accs := o.accs.filter fun a => a.lane ≥ 16 || !m.getLsbD a.lane }
          watch := y.watch.filter fun e => !m.getLsbD e.1
          aborted := y.aborted ||| m }
        tryabort := BitVec.ofNat 32 (0x10000 * m.toNat + 0x100 * detail + code) }).count g 0x13 1
    if (s1.grp g).live = 0 then s1.abortGroup g 8 0 else s1

/-- The physical sector that an access of a stream names, for the watch sets (08 R210). -/
def Xlat.sector (x : Xlat) : Nat := 2 ^ 61 * x.leaf.dev + (if x.leaf.host then 2 ^ 60 else 0) + x.pa / 32

/-- 08 R210: lanes whose watch set holds a sector that a buffered store writes. -/
def TryState.watchers (y : TryState) (sectors : List Nat) : BitVec 16 :=
  maskOf ((y.watch.filter fun e => e.2.any fun k => sectors.contains k).map Prod.fst)

/-- 08 R209, R210: a store enters the try buffer: the 33rd entry aborts the group, and its flag is lowered (R212); a watched sector rolls its watchers back. The
accesses have been translated; their sectors are given. -/
def State.bufferStore (s : State) (g : Nat) (o : MemOp) (sectors : List Nat) : State :=
  match (s.grp g).tr with
  | none => s
  | some y =>
    if y.buffer.length ≥ 32 then (s.onGrp g fun x => x.lower o.flag).abortGroup g 3 0
    else
      let s1 := s.onGrp g fun x => { x with tr := some { y with buffer := y.buffer ++ [o] } }
      let m := y.watchers sectors
      if m = 0 then s1 else s1.rollLanes g m 2 0

/-- 08 R209: bytes that one lane, or the scalar stream (16), has in the try buffer over those it reads from a scratchpad. -/
def State.bufferedSpad (s : State) (g lane team o : Nat) (bs : List Byte) : List Byte :=
  match (s.grp g).tr with
  | none => bs
  | some y => y.buffer.foldl (fun bs op =>
      if !op.spad then bs
      else op.accs.foldl (fun bs a =>
        match s.spadLoc (keyTeam g) a.va.toNat op.size with
        | some (t', o') => if a.lane = lane && t' = team then overlay bs o (bytesOfNat op.size a.data) o' else bs
        | none => bs) bs) bs

/-- Is a fault of one of the group's own stores held (08 R203)? One adopted from an exited group holds no store of this group. -/
def Group.holdsFault (x : Group) : Bool := x.faults.any fun o => o.inOrder && o.orig.isNone

/-- 08 R203: does a queued store lie behind none of the group's stores that are held with a fault? The handler's own pass what was held when
it was entered, but not a faulted store of their own. -/
def Group.passesFaults (x : Group) (o : MemOp) : Bool :=
  !x.holdsFault || (x.handlers o && !(x.faults.any fun f => f.inOrder && f.orig.isNone && x.handlers f && decide (f.age < o.age)))

/-- The stores of the queue that no fault holds back. -/
def Group.drains (x : Group) : List MemOp := x.storeq.filter x.passesFaults

/-- The stores of the queue that an ordered access or a fence waits for: in a handler those that no fault holds back, else all (08 R203). -/
def Group.queued (x : Group) : List MemOp := if x.kernel then x.drains else x.storeq

/-- Are loads or atomics of a stream not yet performed: in a handler those on their way (08 R203), else all that are pending? -/
def Group.awaits (x : Group) (lane : Bool) : Bool :=
  x.oplog.any fun e => e.2.lane = lane && (e.2.kind = .load || e.2.kind = .loadSpec || e.2.kind = .atomic) &&
    (if x.kernel then e.2.accs.any fun a => a.sent else !e.2.accs.isEmpty)

/-- Are stores of a stream on their way to another device, not yet acknowledged (11 R290)? -/
def Group.storesOut (x : Group) (lane : Bool) : Bool :=
  x.oplog.any fun e => e.2.lane = lane && e.2.inOrder && e.2.accs.any fun a => a.sent

/-- Are stores of a stream not yet performed: queued, on their way, or, outside a handler, held with a fault? -/
def Group.storesLeft (x : Group) (lane : Bool) : Bool :=
  (x.queued.any fun o => o.lane = lane) || x.storesOut lane || (!x.kernel && x.faults.any fun o => o.inOrder && o.lane = lane)

/-- 10 R251, 11 R271: does an atomic of a stream, with its order code, wait for what comes before it: the group's earlier stores, the
stream's earlier loads, for a release also what is on its way? -/
def Group.atomicWaits (x : Group) (lane : Bool) (order : Nat) : Bool :=
  !x.queued.isEmpty || x.awaits lane || (!x.kernel && x.faults.any fun o => o.inOrder) ||
    (decide (order / 2 % 2 = 1) && (x.storesOut true || x.storesOut false))

/-- 11 R267: does a release wait for the write half of a proxied atomic? -/
def State.proxyHolds (s : State) (order : Nat) : Bool := order / 2 % 2 = 1 && !s.proxy.isEmpty

/-! ## Prefetch (10 R248) -/

/-- 10 R248: the translation of a line that a prefetch brings in; anything wrong is ignored. -/
def State.prefetchable (s : State) (g : Nat) (va : Nat) : Option Xlat :=
  match s.xlate (s.whoIs g (s.grp g).kernel) va .read with
  | .ok x => if x.remote || x.leaf.host || x.leaf.ms then none else some x
  | .error _ => none

/-- Does a prefetch wait at its home slice (09 R232)? -/
def State.prefetchBusy (s : State) (g : Nat) (va : Nat) : Bool :=
  match s.prefetchable g va with
  | some x => s.homeBusy (s.gPart g) x
  | none => false

/-- 10 R248: brings a line, every sector of it, into the home L2 slice, and into the L1 unless the hint in force is bypass. Under that hint
a line that the slice does not hold is not brought in (09 R231; log entry 67). -/
def State.prefetch (s : State) (g : Nat) (va hint : Nat) : State :=
  let w := s.whoIs g (s.grp g).kernel
  match s.prefetchable g va with
  | none => s
  | some x =>
    let s1 := ((s.touch w va).countRequest g x true).touchL2 w.part x.pa (hintOf x.leaf hint) false
    let s2 := s1.onL2 (x.pa / 128) fun y => some { y with fetching := y.fetching ||| ~~~y.valid }
    if hintOf x.leaf hint = 3 then s2 else s2.l1Fill (s.l1Core (s.gCore g) x.pa) x

/-- 10 R263: would a prefetch inside `try` find a memory-side page? -/
def State.prefetchMs (s : State) (g : Nat) (va : Nat) : Bool :=
  (s.grp g).inTry &&
    match s.xlate (s.whoIs g (s.grp g).kernel) va .read with
    | .ok x => x.leaf.ms
    | .error _ => false

/-- 08 R202, 10 R245: a store takes an entry and enters the store queue. -/
def Group.enterStore (x : Group) (e : Nat) (o : MemOp) : Group :=
  { x.takeLog e { o with accs := [] } with storeq := x.storeq ++ [{ o with log := some e, age := x.taken }] }

/-! ## Scalar accesses -/

/-- 05 R121: the address of a scalar access. -/
def State.scalarAddr (s : State) (o : BitVec 8) (z : BitVec 2) (a : BitVec 6) : Word :=
  s.rs a + BitVec.ofInt 64 (o.toInt * 2 ^ z.toNat)

/-- 05 R122, R253: a precise scalar access: performed at issue, its registers used then (05 R112); a fault is held in the operand log;
another device's answer is waited for. -/
def State.preciseAccess (s : State) (o : MemOp) (va : Word) (k : AccKind) (use : State → State) : State :=
  let g := s.me
  let x := s.grp g
  match x.freeLog with
  | none => s.stallS 9
  | some e =>
    let held := match s.xlate (s.whoIs g x.kernel) va.toNat k with
      | .ok y => if s.holdsOp g y 1 then some (s.waitAtUnit g y 1) else if s.behindReduce g y o.size then some s else none
      | .error _ => none
    match held with
    | some s1 => s1.stallS 15
    | none =>
      match o.accs.head? with
      | none => s
      | some a =>
        let s := use s
        match s.performAcc g o a with
        | .done s1 => s1.nextPc
        | .fault c =>
          if x.inTry then s.trapS c va
          else (s.onGrp g fun y => y.takeLog e { o with fault := some (c, 0, va) }).trap g { cause := c, addr := va, log := some e }
        | .remote s1 b => (s1.onGrp g fun y => y.takeLog e { o with accs := [b], tried := x.inTry }).stallS 2

/-- `ld` (05 R121, R122). -/
def execLd (o : BitVec 8) (h : BitVec 2) (x : BitVec 1) (z : BitVec 2) (a d : BitVec 6) (s : State) : Host.Outcome State Fault Refusal :=
  let va := s.scalarAddr o z a
  let s1 := s.usesAddr a []
  let n := 2 ^ z.toNat
  if va.toNat % n ≠ 0 then .next (s1.trapS .misalign va)
  else if va.toNat ≥ 2 ^ 52 then .next (s1.trapS .page va)
  else .next (s.preciseAccess
    { kind := .load, lane := false, slot := 0, size := n, sext := x = 1#1, dst := d.toNat, accs := [{ lane := 16, va }],
      hint := h.toNat, kernel := (s.grp s.me).kernel } va .read fun s => s.usesAddr a [])

/-- 05 R122: a scalar store enters the group's store queue, or the try buffer inside `try` (R124). -/
def State.scalarStore (s : State) (va : Word) (n data hint : Nat) (use : State → State) : State :=
  let g := s.me
  let x := s.grp g
  let o : MemOp := { kind := .store, lane := false, slot := 0, size := n, accs := [{ lane := 16, va, data }], hint, kernel := x.kernel }
  if x.inTry then
    let s := use s
    match s.xlate (s.whoIs g x.kernel) va.toNat .write with
    | .error c => s.trapS c va
    | .ok y =>
      let s1 := s.bufferStore g o [y.sector]
      if (s1.grp g).inTry then s1.nextPc else s1
  else
    match x.freeLog with
    | none => s.stallS 9
    | some e =>
      ((use s).onGrp g fun y => y.enterStore e o).nextPc

/-- `st` (05 R121, R122). -/
def execSt (o : BitVec 8) (h : BitVec 2) (z : BitVec 2) (a r : BitVec 6) (s : State) : Host.Outcome State Fault Refusal :=
  let va := s.scalarAddr o z a
  let s1 := s.usesAddr a [r]
  let n := 2 ^ z.toNat
  if va.toNat % n ≠ 0 then .next (s1.trapS .misalign va)
  else if va.toNat ≥ 2 ^ 52 then .next (s1.trapS .page va)
  else .next (s.scalarStore va n ((s.rs r).toNat % 2 ^ (8 * n)) h.toNat fun s => s.usesAddr a [r])

/-- `lds` (05 R123): a poisoned sector reads as zero and sets SCONS. -/
def execLds (o : BitVec 8) (x : BitVec 1) (z : BitVec 2) (a d : BitVec 6) (s : State) : Host.Outcome State Fault Refusal :=
  let va := s.scalarAddr o z a
  let s1 := s.usesAddr a []
  let g := s.me
  let n := 2 ^ z.toNat
  if va.toNat % n ≠ 0 then .next (s1.trapS .misalign va)
  else
    match s.spadLoc (keyTeam g) va.toNat n with
    | none => .next (s1.trapS .spadBounds va)
    | some (t, off) =>
      let bad := (s.tm t).badAt off
      let v := natOfBytes (s.bufferedSpad g 16 t off ((s.tm t).bytesAt off n))
      let s2 := if bad then s1.consumed g false else s1
      .next (s2.finish d (if bad then 0 else BitVec.ofInt 64 (if x = 1#1 then sext v (8 * n) else (v : Int))))

/-- `sts` (05 R123): no earlier load of the stream is left to be performed (11 R271). -/
def execSts (o : BitVec 8) (z : BitVec 2) (a r : BitVec 6) (s : State) : Host.Outcome State Fault Refusal :=
  let va := s.scalarAddr o z a
  let s1 := s.usesAddr a [r]
  let g := s.me
  let n := 2 ^ z.toNat
  let data := (s.rs r).toNat % 2 ^ (8 * n)
  if va.toNat % n ≠ 0 then .next (s1.trapS .misalign va)
  else
    match s.spadLoc (keyTeam g) va.toNat n with
    | none => .next (s1.trapS .spadBounds va)
    | some (t, off) =>
      if (s.grp g).inTry then
        let op : MemOp := { kind := .store, lane := false, slot := 0, size := n, accs := [{ lane := 16, va, data }], spad := true }
        let s2 := s1.bufferStore g op []
        .next (if (s2.grp g).inTry then s2.nextPc else s2)
      else if (s.grp g).awaits false then .next (s.stallS 15)
      else .next ((s1.onTm t fun y => y.storeAt off (bytesOfNat n data)).nextPc)

/-- The type of an `amo`: width and signedness (10 R253). -/
def amoTy (z x : BitVec 1) : BitVec 4 := if z = 1#1 then (if x = 1#1 then 3 else 2) else (if x = 1#1 then 1 else 0)

/-- `amo` (10 R253): waits for the group's earlier stores (R251), then performs one read-modify-write. -/
def execAmo (o : BitVec 2) (x z : BitVec 1) (p : BitVec 3) (b a d : BitVec 6) (s : State) : Host.Outcome State Fault Refusal :=
  let g := s.me
  let y := s.grp g
  let va := s.rs a
  let rs := if p = 7#3 then [b, d] else [b]
  let s1 := s.usesAddr a rs
  let n := if z = 1#1 then 8 else 4
  if y.inTry then .next (s.abortSync g)
  else if va.toNat % n ≠ 0 then .next (s1.trapS .misalign va)
  else if va.toNat ≥ 2 ^ 52 then .next (s1.trapS .page va)
  else if y.atomicWaits false o.toNat || s.proxyHolds o.toNat then .next (s.stallS 15)
  else
    let s2 := s.preciseAccess
      { kind := .atomic, lane := false, slot := 0, size := n, ty := amoTy z x, op := p.toNat, sext := x = 1#1 && z = 0#1, dst := d.toNat,
        accs := [{ lane := 16, va, data := (s.rs b).toNat % 2 ^ (8 * n), cmp := (s.rs d).toNat % 2 ^ (8 * n) }],
        order := o.toNat, scope := 4, kernel := y.kernel } va .atomic fun s => s.usesAddr a rs
    .next (if o.getLsbD 0 && (s2.grp g).pc = y.pc + 4 then s2.acquire g 4 else s2)

/-- `pfetch` (10 R248). -/
def execPfetch (o : BitVec 8) (h : BitVec 2) (a : BitVec 6) (s : State) : Host.Outcome State Fault Refusal :=
  let va := s.scalarAddr o 3#2 a
  if (s.grp s.me).sBad a.toNat || va.toNat % 8 ≠ 0 then .next s.nextPc
  else if s.prefetchMs s.me va.toNat then .next (s.abortSync s.me)
  else if s.prefetchBusy s.me va.toNat then .next (s.stallS 15)
  else .next (s.prefetch s.me va.toNat h.toNat).nextPc

end Sys2Proof.Machine
end

