-- ==== Sys2Proof/Machine/Fetch.lean ====
section
/-! DEFINITION. Fetching code: scalar words, lane slots, clause headers (03 R64, R72 to R74), and how a stream stands at its next
instruction. -/

namespace Sys2Proof.Machine

/-- Bytes of code through translation with execute access, each with the poison of its sector (03 R64, R72). Code in another device's page
is its answers, which an instruction draws by sector; with no working link there is none (10 R242, 19 R448). -/
def State.fetchCells (s : State) (g a n : Nat) : Except Cause (List (Byte × Bool)) :=
  let w := s.whoIs g (s.grp g).kernel
  (sectorPieces a n n).foldl (fun r p =>
    match r with
    | .error c => .error c
    | .ok cs =>
      match s.xlate w p.1 .execute with
      | .error c => .error c
      | .ok x =>
        if x.remote then
          match if s.linked then remoteReply (Config.outsideRead (s.free + (p.1 - a))) else .error .remote with
          | .error c => .error c
          | .ok (v, b) => .ok (cs ++ (bytesOfNat p.2 v).map fun y => (y, b))
        else
          let d := s.rawLoad x p.2
          .ok (cs ++ d.1.map fun y => (y, d.2))) (.ok [])

/-- The bytes alone, and whether any sector of them is poisoned. -/
def State.fetchBytes (s : State) (g a n : Nat) : Except Cause (List Byte × Bool) :=
  (s.fetchCells g a n).map fun cs => (cs.map Prod.fst, cs.any Prod.snd)

/-- Does a range of code reach into another device's page? -/
def State.codeFar (s : State) (g a n : Nat) : Bool :=
  (sectorPieces a n n).any fun p => match s.xlate (s.whoIs g (s.grp g).kernel) p.1 .execute with | .ok x => x.remote | .error _ => false

/-- The instruction cache of a core that a stream's fetches go through: 0 scalar code, 1 lane code, 2 sequencer code (01 R15). -/
def codeCache (g : Nat) (lane : Bool) : Nat := if lane then 1 else if keyGrp g = 64 then 2 else 0

/-- Does an instruction cache of a stream's core hold the line of an address? -/
def State.codeHeld (s : State) (g : Nat) (lane : Bool) (a : Nat) : Bool :=
  (KMap.read [] (codeCache g lane) (s.coreAt (s.gCore g)).icache).contains (a / 128)

/-- Code that an instruction read beside its own word: the answers of another device are drawn, and the transfers to ports and links that no
instruction cache spares are counted (16 R402). -/
def State.drew (s : State) (g a n : Nat) : State :=
  let w := s.whoIs g (s.grp g).kernel
  let s1 := if s.codeFar g a n then { s with free := s.free + n } else s
  (sectorPieces a n n).foldl (fun s p =>
    match s.xlate w p.1 .execute with
    | .ok x => if s.codeHeld g true p.1 && !x.remote then s else s.hacFor w p.1 x
    | .error _ => s) s1

/-- What the scalar stream finds at its PC: an instruction, a word that is refused (poisoned or not), or a fetch fault. -/
inductive Fetched where
  | instr (i : Instr)
  | bad (poisoned : Bool)
  | fault (c : Cause)
  deriving DecidableEq, Repr

/-- 03 R64: the scalar word at a stream's PC; a poisoned word reads as zero. -/
def State.fetchScalar (s : State) (g : Nat) : Fetched :=
  match s.fetchBytes g (s.grp g).pc.toNat 4 with
  | .error c => .fault c
  | .ok (bs, poisoned) =>
    if poisoned then .bad true
    else
      match decodeBytes .scalar bs with
      | .ok (i, _) => .instr i
      | .error _ => .bad false

/-- 03 R72: the lane word at a lane address; a poisoned slot reads as zero. -/
def State.fetchLane (s : State) (g : Nat) (a : Word) : Fetched :=
  match s.fetchBytes g a.toNat 12 with
  | .error c => .fault c
  | .ok (bs, poisoned) =>
    if poisoned then .bad true
    else
      match decodeBytes .lane bs with
      | .ok (i, _) => .instr i
      | .error _ => .bad false

/-! ## Clause headers (03 R73, R74) -/

/-- What reading a clause's code at enqueue or at a `vcall` finds. -/
inductive HeaderRead where
  | fault (c : Cause)
  /-- refused (03 R74); poisoned or not -/
  | bad (poisoned : Bool)
  | ok (h : ClauseHeader)
  deriving DecidableEq, Repr

/-- 03 R73, R74: the header at a lane address. -/
def State.readHeader (s : State) (g : Nat) (a : Word) : HeaderRead :=
  match s.fetchBytes g a.toNat 12 with
  | .error c => .fault c
  | .ok (bs, poisoned) =>
    if poisoned then .bad true
    else match decodeHeader (BitVec.ofNat 96 (natOfBytes bs)) with
      | some h => .ok h
      | none => .bad false

/-- 05 R125: how many bytes of code `clause` reads: its header, and as many slots as the header's count names, before that header is checked.
A poisoned header reads as zeros. -/
def State.clauseLen (s : State) (g : Nat) (a : Word) : Nat :=
  match s.fetchBytes g a.toNat 12 with
  | .error _ => 12
  | .ok (bs, poisoned) => 24 + if poisoned then 0 else 12 * bits (natOfBytes bs) 25 22

/-- 05 R125: the fetch fault of the code that `clause` reads. -/
def State.clauseFault (s : State) (g : Nat) (a : Word) : Option Cause :=
  match s.fetchBytes g a.toNat (s.clauseLen g a) with
  | .error c => some c
  | .ok _ => none

/-- The flag that a header gives an instruction of flag set A (`false`) or B. -/
def headerFlag (h : ClauseHeader) (setB : Bool) : Option Nat := if setB then h.setB else h.setA

/-- 03 R74, R75: the slots of a clause that count at enqueue, each with its flag. -/
def State.slotCounts (s : State) (g : Nat) (a : Word) (h : ClauseHeader) : Except Cause (List (Nat × Nat)) :=
  (s.fetchCells g a.toNat (12 * (h.count + 1))).map fun cs =>
    (List.range h.count).filterMap fun i =>
      let slot := (cs.drop (12 * (i + 1))).take 12
      let w := natOfBytes (slot.map Prod.fst)
      match headerFlag h (bits w 55 55 = 1) with
      | some f => if !slot.any Prod.snd && lopLongLatency (w % 1024) then some (i + 1, f) else none
      | none => none

end Sys2Proof.Machine
end

