-- ==== Sys2Proof/Machine/Joins.lean ====
section
/-! DEFINITION. Join points of `qfence` in the Ladle, Press and Rennet queues (05 R131), and what waits for the accesses before an
ordering instruction (05 R129, R130). -/

namespace Sys2Proof.Machine

/-- The head of a Ladle queue is this join point. -/
def State.ladleHeadIs (s : State) (k q id : Nat) : Bool :=
  match KMap.read [] q (s.coreAt k).ladle with
  | .join i :: _ => i = id
  | _ => false

/-- The head of a Press queue is this join point. -/
def State.pressHeadIs (s : State) (k id : Nat) : Bool :=
  (s.coreAt k).press.retry.isEmpty &&
    match (s.coreAt k).press.queue with
    | .join i :: _ => i = id
    | _ => false

/-- The cores of a cluster's members. -/
def State.memberCores (s : State) (c : Nat) : List Nat := (s.cl c).members.filterMap fun t => (s.tm t).core

/-- The Ladle queues that a mask names. -/
def named4 (m : BitVec 4) : List Nat := (List.range 4).filter fun q => m.getLsbD q

/-- 05 R131: has every operation entered into a named queue before the join point completed, a `vcast` landed (13 R330)? -/
def State.joinReady (s : State) (j : Join) : Bool :=
  (named4 j.ladle).all (fun q => s.ladleHeadIs j.core q j.id && !(s.casts.any fun c => c.core = j.core && c.queue = q)) &&
  (!j.press || (s.memberCores (s.gCluster j.g)).all fun k => s.pressHeadIs k j.id) &&
  (!j.rennet || j.before.all fun b => !((s.unitAt b.1).queue.any fun r => r.seq = b.2))

/-- Takes a join point out of every queue. -/
def State.dropJoin (s : State) (j : Join) : State :=
  let s1 := (named4 j.ladle).foldl (fun s q => s.onCore j.core fun c =>
    { c with ladle := KMap.write [] q ((KMap.read [] q c.ladle).filter fun o => o ≠ .join j.id) c.ladle }) s
  let s2 := if j.press then (s1.memberCores (s1.gCluster j.g)).foldl (fun s k => s.onCore k fun c =>
    { c with press := { c.press with queue := c.press.queue.filter fun o => o ≠ .join j.id } }) s1 else s1
  { s2 with
    joins := s2.joins.filter fun x => x.id ≠ j.id
    rennets := if j.rennet then s2.rennets.map fun u =>
        (u.1, { u.2 with queue := u.2.queue.map fun r => { r with after := r.after.filter fun i => i ≠ j.id } })
      else s2.rennets }

/-- Completes the join points that are ready, oldest first. -/
def State.settle (s : State) : Nat → State
  | 0 => s
  | n + 1 =>
    match s.joins.find? fun j => s.joinReady j with
    | some j => (s.dropJoin j).settle n
    | none => s

/-- Completes every join point that is ready. -/
def State.settleJoins (s : State) : State := s.settle s.joins.length

/-- 05 R131: places a join point in the named queues. -/
def State.placeJoin (s : State) (g : Nat) (q : BitVec 4) (press rennet : Bool) : State :=
  let k := s.gCore g
  let id := s.nextJoin
  let before := if rennet then s.rennets.flatMap fun u => (u.2.queue.filter fun r => r.g = g).map fun r => (u.1, r.seq) else []
  let j : Join := { id, g, core := k, ladle := q, press, rennet, before }
  let s1 := (named4 q).foldl (fun s i => s.onCore k fun c => { c with ladle := KMap.put i (KMap.read [] i c.ladle ++ [.join id]) c.ladle }) s
  let s2 := if press then (s1.memberCores (s1.gCluster g)).foldl (fun s k => s.onCore k fun c =>
    { c with press := { c.press with queue := c.press.queue ++ [.join id] } }) s1 else s1
  ({ s2 with joins := s2.joins ++ [j], nextJoin := id + 1 }).settleJoins

/-- 05 R130, 11 R290: has everything that a release of the scalar stream waits for been performed: its own loads and stores, those of
another device's pages acknowledged there (a lane access whose flag was seen clear has been performed); in a handler the handler's? -/
def Group.scalarDrained (x : Group) : Bool := !x.storesLeft false && !x.awaits false

/-- 05 R130, 11 R267: the same with the write half of every proxied atomic done. -/
def State.released (s : State) (g : Nat) : Bool := (s.grp g).scalarDrained && s.proxy.isEmpty

/-- 12 R294: the instructions of a Press queue, the one that waits for a release among them; join points of `qfence` take no entry. -/
def Press.pending (p : Press) : Nat :=
  (p.queue.filter fun op => match op with | .join _ => false | _ => true).length + if p.retry.isEmpty then 0 else 1

/-- Has every Press instruction of a cluster's sequencer stream completed? -/
def State.pressIdle (s : State) (c : Nat) : Bool :=
  (s.memberCores c).all fun k => (s.coreAt k).press.queue.isEmpty && (s.coreAt k).press.retry.isEmpty

end Sys2Proof.Machine
end

