-- ==== Sys2Proof/Machine/Barriers.lean ====
section
/-! DEFINITION. Instructions on barrier objects: setting up (17 R408, R409), arrivals (R412), waiting (R414, R415), and the
retries of an engine's counts (R419, R421). -/

namespace Sys2Proof.Machine

/-- What the checks of 17 R407 find. -/
inductive ObjCheck where
  | trap (c : Cause)
  /-- the address register is poisoned -/
  | poison
  | ok (t o : Nat)
  deriving DecidableEq, Repr

/-- 17 R407, checks 1 to 4 for a scalar stream: `repair` is `binit` without KEEP, exempt from check 4. -/
def State.objCheck (s : State) (a : BitVec 6) (repair : Bool) : ObjCheck :=
  let va := (s.rs a).toNat
  match s.spadLoc (keyTeam s.me) va 1 with
  | none => .trap .spadBounds
  | some (t, o) =>
    if va % 32 ≠ 0 then .trap .misalign
    else if (s.grp s.me).sBad a.toNat then .poison
    else if !repair && s.objBroken t o then .trap .barrier
    else .ok t o

/-- 17 R407, check 3: a poisoned address register sets PADDR and SCONS and makes no access. -/
def State.objPoison (s : State) : State := (s.onGrp s.me fun x => x.chk (paddr ||| scons)).count s.me 0x14 1

/-- Runs the checks of 17 R407 and then an operation on the object; a poisoned address gives a destination status 4. -/
def State.onObj (s : State) (a : BitVec 6) (d : Option (BitVec 6)) (repair : Bool) (f : State → Nat → Nat → State) : State :=
  if (s.grp s.me).inTry then s.abortSync s.me
  else
    match s.objCheck a repair with
    | .trap c => s.trapS c (s.rs a)
    | .poison => match d with
      | some d => s.objPoison.finish d 4
      | none => s.objPoison.nextPc
    | .ok t o => (f (s.flushHeld t o) t o).flushHeld t o

/-! ## Setting up -/

/-- 17 R408: the object that `binit` writes over the one that stands. -/
def binitObj (old : Obj) (keep : Bool) (b c : Word) : Obj :=
  let base : Obj := if keep then old else {}
  let x : Obj := { base with
    exparr := (b.extractLsb' 0 16).toNat, expbytes := (b.extractLsb' 16 32).toNat, reg := (b.extractLsb' 48 10).toNat
    obs := (b.extractLsb' 48 10).toNat, task := (c.extractLsb' 0 24).toNat, nv := c.getLsbD 31, overrun := false, nfail := false }
  x.reload

/-- `binit` (17 R408). -/
def execBinit (k : BitVec 1) (b a c : BitVec 6) (s : State) : Host.Outcome State Fault Refusal :=
  let keep := k = 1#1
  .next (s.onObj a none (!keep) fun s t o =>
    let s1 := s.uses [b, c]
    let vb := s.rs b
    let vc := s.rs c
    if vb.extractLsb' 58 6 ≠ 0#6 || (vb.extractLsb' 0 16 = 0#16 && vb.extractLsb' 16 32 = 0#32) then s1.trapS .barrier vb
    else if vc.extractLsb' 32 32 ≠ 0#32 || vc.extractLsb' 24 7 ≠ 0#7 then s1.trapS .barrier vc
    else
      let r := s1.signalAll t o (binitObj (s.objAt t o) keep vb vc)
      (r.2.setObj t o r.1).nextPc)

/-- 13 R327: is a swizzle code allowed for a tile size? -/
def swizzleOk (z tsize : Nat) : Bool :=
  let c := 4 + z % 4
  let sh := z / 4 % 16
  z = 0 || (z < 64 && c + 3 ≤ sh && sh ≤ 15 && tsize % 2 ^ (c + 3) = 0)

/-- `mbind` (17 R409). -/
def execMbind (b a : BitVec 6) (s : State) : Host.Outcome State Fault Refusal :=
  .next (s.onObj a none false fun s t o =>
    let s1 := s.uses [b]
    let v := s.rs b
    let tbase := (v.extractLsb' 0 20).toNat
    let tsize := (v.extractLsb' 20 21).toNat
    let z := (v.extractLsb' 41 8).toNat
    let darr := (v.extractLsb' 49 8).toNat
    let x := s.objAt t o
    if tsize = 0 then (s1.setObj t o { x with mv := false, tbase := 0, tsize := 0, z := 0, darr := 0 }).nextPc
    else if v.extractLsb' 57 7 ≠ 0#7 || tsize % 128 ≠ 0 || tsize > 2 ^ 20 || darr = 0 then s1.trapS .barrier v
    else if tbase % 128 ≠ 0 then s1.trapS .misalign v
    else if tbase + tsize > (s.tm t).spad then s1.trapS .spadBounds (BitVec.ofNat 64 tbase)
    else if !swizzleOk z tsize then s1.trapS .barrier v
    else (s1.setObj t o { x with mv := true, tbase, tsize, z, darr }).nextPc)

/-! ## Arrivals -/

/-- 18 R435: an arrival refused with status 2 is counted. -/
def State.countRefusal (s : State) (g status : Nat) : State := if status = 2 then s.count g 0x18 1 else s

/-- 17 R412, 11 R281: one arrival of the scalar stream, a release of its earlier accesses; the status goes to `d`. -/
def State.arriveS (s : State) (t o arr x : Nat) (d : BitVec 6) : State :=
  let g := s.me
  if !s.released g then s.stallS 15
  else
    let r := s.accept t o arr 0 x
    (r.2.countRefusal g r.1).finish d (BitVec.ofNat 64 r.1)

/-- `arrive` (17 R412). -/
def execArrive (e : BitVec 13) (a d : BitVec 6) (s : State) : Host.Outcome State Fault Refusal :=
  if e.toInt ≤ 0 then .next (s.trapS .illegal 0)
  else .next (s.onObj a (some d) false fun s t o => s.arriveS t o e.toNat 0 d)

/-- `arriveb` (17 R412). -/
def execArriveb (t : BitVec 1) (b a d : BitVec 6) (s : State) : Host.Outcome State Fault Refusal :=
  .next (s.onObj a (some d) false fun s tm o =>
    let s1 := s.uses [b]
    if (s.rs b).toNat ≥ 2 ^ 32 then s1.trapS .barrier (s.rs b)
    else if !s.released s.me then s.stallS 15
    else s1.arriveS tm o (if t = 1#1 then 0 else 1) (s.rs b).toNat d)

/-- `bdrop` (17 R412): its decrements follow the reload. -/
def execBdrop (w : BitVec 1) (a d : BitVec 6) (s : State) : Host.Outcome State Fault Refusal :=
  .next (s.onObj a (some d) false fun s t o =>
    let g := s.me
    let x := s.objAt t o
    if !s.released g then s.stallS 15
    else if x.exparr = 0 || (w = 1#1 && x.reg = 0) then (s.setObj t o { x with overrun := true }).finish d 3
    else
      let r := s.accept t o 1 0 0
      if r.1 ≤ 1 then
        let y := r.2.objAt t o
        let y1 : Obj := { y with exparr := y.exparr - 1, reg := if w = 1#1 then y.reg - 1 else y.reg }
        (r.2.setObj t o (if w = 1#1 then { y1 with obs := min y1.obs y1.reg } else y1)).finish d (BitVec.ofNat 64 r.1)
      else (r.2.countRefusal g r.1).finish d (BitVec.ofNat 64 r.1))

/-! ## Waiting -/

/-- Clears a stream's wait record. -/
def State.clearWait (s : State) (g : Nat) : State := s.onGrp g fun x => { x with wait := none, waited := 0 }

/-- 17 R414: what `waitph` does with the object at an offset of a team's scratchpad. -/
def State.waitOn (s : State) (t o : Nat) (registered parity : Bool) (d : BitVec 6) : State :=
  let g := s.me
  let x := s.grp g
  let b := s.objAt t o
  let same := match x.wait with
    | some w => w.team = t && w.obj = o && w.t = parity
    | none => false
  let seen := match x.wait with
    | some w => if same && w.signalled then some w.phase else none
    | none => none
  match seen with
  | some p => ((s.clearWait g).acquire g 6).finish d (p.setWidth 64)
  | none =>
    if b.phase.getLsbD 0 = parity then
      let s1 := s.clearWait g
      let s2 := if registered then s1.setObj t o { b with obs := min (b.obs + 1) b.reg } else s1
      (s2.acquire g 6).finish d (b.phase.setWidth 64)
    else
      s.onGrp g fun y => { y with
        wait := some { team := t, obj := o, t := parity, registered }
        waited := if same then y.waited else 0
        stall := 6 }

/-- `waitph` (17 R414). -/
def execWaitph (r t : BitVec 1) (a d : BitVec 6) (s : State) : Host.Outcome State Fault Refusal :=
  .next (s.onObj a (some d) false fun s tm o => s.waitOn tm o (r = 1#1) (t = 1#1) d)

/-- The event WAITPH_WAKE (17 R414): a stalled `waitph` whose record is signalled executes again and completes. -/
def execWaitphWake (g : Nat) (s : State) : Host.Outcome State Fault Refusal :=
  let x := s.grp g
  match x.wait, s.fetchScalar g with
  | some w, .instr (.waitph r t a d) =>
    if w.signalled && !x.halted && !x.out then
      let s1 := ({ s with cur := .scalar g }).onObj a (some d) false fun s tm o => s.waitOn tm o (r = 1#1) (t = 1#1) d
      .next { s1 with cur := s.cur }
    else .next s
  | _, _ => .next s

/-- `testph` (17 R415). -/
def execTestph (t : BitVec 1) (a d : BitVec 6) (s : State) : Host.Outcome State Fault Refusal :=
  .next (s.onObj a (some d) false fun s tm o =>
    let p := (s.objAt tm o).phase
    let hit := p.getLsbD 0 = (t = 1#1)
    let s1 := if hit then s.acquire s.me 6 else s
    s1.finish d (p.setWidth 64 ||| if hit then 0x100000000#64 else 0))

end Sys2Proof.Machine
end

