-- ==== Sys2Proof/Machine/Clauses.lean ====
section
/-! DEFINITION. The clause queue and the completion flags: `clause`, `waitf`, `testf` (02 R36, R38, 05 R125 to R127), and the
start of a clause (02 R37). -/

namespace Sys2Proof.Machine

/-- How many counted slots of a list are on a flag. -/
def countsOn (cs : List (Nat × Nat)) (f : Nat) : Nat := (cs.filter fun c => c.2 = f).length

/-- 02 R36: the entries that the clause queue holds; the running clause holds its own until it ends (R37). -/
def Group.queueLen (x : Group) : Nat := x.queue.length + if x.run.isSome then 1 else 0

/-- 02 R37 `started_count`: outstanding operations of the clauses that have begun. -/
def Group.started (x : Group) (f : Nat) : Nat := x.flag f - (x.queue.map fun e => countsOn e.counts f).sum

/-- 02 R38: raises the flag of each counted slot. -/
def Group.raiseCounts (x : Group) (cs : List (Nat × Nat)) : Group := cs.foldl (fun x c => x.raiseBy c.2 1) x

/-- 02 R36: the copy of `s0` to `s15`. -/
def Group.captured (x : Group) : KMap Word := (List.range 16).foldl (fun m i => KMap.write 0 i (x.sGet i) m) []

/-- `clause` (05 R125): a group stream in user mode only (02 R49, 08 R199). -/
def execClause (i : BitVec 19) (a : BitVec 6) (s : State) : Host.Outcome State Fault Refusal :=
  let g := s.me
  let x := s.grp g
  let l := s.rs a + 16 * i.signExtend 64
  if keyGrp g = 64 || x.kernel then .next (s.trapS .context 0)
  else
    if l.toNat % 16 ≠ 0 then .next ((s.usesAddr a []).trapS .misalign l)
    else
      let s1 := (s.usesAddr a []).drew g l.toNat (s.clauseLen g l)
      match s.clauseFault g l, s.readHeader g l with
      | some c, _ => .next (s1.trapS c l)
      | none, .fault c => .next (s1.trapS c l)
      | none, .bad poisoned => .next ((if poisoned then s1.consumed g false else s1).trapS .illegal l)
      | none, .ok h =>
        match s.slotCounts g l h with
        | .error c => .next (s1.trapS c l)
        | .ok cs =>
          if x.queueLen ≥ 8 || (List.range 12).any fun f => decide (x.flag f + countsOn cs f > 63) then .next (s.stallS 5)
          else
            let s2 := s1.uses ((List.range 16).map fun r => BitVec.ofNat 6 r)
            let e : ClauseEntry := { addr := l, caps := x.captured, hdr := h, counts := cs }
            .next ((s2.onGrp g fun y => { y.raiseCounts cs with queue := y.queue ++ [e] }).nextPc)

/-- The flags that a mask names and that are pending. -/
def Group.pendingOf (x : Group) (m : BitVec 12) : BitVec 12 :=
  (List.range 12).foldl (fun r f => if m.getLsbD f && x.flag f ≠ 0 then r ||| (1#12 <<< f) else r) 0#12

/-- `waitf` (05 R126): a group stream in user mode only (02 R49, 08 R199). -/
def execWaitf (m : BitVec 12) (s : State) : Host.Outcome State Fault Refusal :=
  let x := s.grp s.me
  if keyGrp s.me = 64 || x.kernel then .next (s.trapS .context 0)
  else if x.pendingOf m ≠ 0#12 then .next (s.stallS 4)
  else .next s.nextPc

/-- `testf` (05 R127): a group stream only. -/
def execTestf (m : BitVec 12) (d : BitVec 6) (s : State) : Host.Outcome State Fault Refusal :=
  if keyGrp s.me = 64 then .next (s.trapS .context 0)
  else .next (s.finish d (((s.grp s.me).pendingOf m).setWidth 64))

/-- 02 R37: may the head clause of the queue start? -/
def Group.canStart (x : Group) : Bool :=
  match x.queue with
  | e :: _ => x.run.isNone && !x.laneStopped && !x.halted && !x.out && (List.range 12).all fun f => !e.hdr.wait.getLsbD f || x.started f = 0
  | [] => false

/-- 02 R37: the lane stream begins the head clause at its first slot, with every live lane. -/
def Group.start (x : Group) : Group :=
  match x.queue with
  | e :: q =>
    { x with
      queue := q
      run := some { entry := e, depth := x.stack.length }
      path := some { mask := x.live, lpc := e.addr + 12 }
      lstall := 1 }
  | [] => x

/-- 08 R214: is a stream's team being stopped, so that its lane stream issues nothing more? One in `try` runs on. -/
def State.halting (s : State) (g : Nat) : Bool := (s.gTeam g).res = .stopping && !(s.grp g).inTry

/-- The event CLAUSE_START (02 R37): where the head clause may not start yet, nothing happens. -/
def execClauseStart (g : Nat) (s : State) : Host.Outcome State Fault Refusal :=
  let x := s.grp g
  if s.halting g then .next s
  else if x.canStart then .next (s.onGrp g Group.start)
  else .next (s.onGrp g fun y => { y with lstall := if y.run.isNone && !y.queue.isEmpty && !y.laneStopped then 4 else y.lstall })

end Sys2Proof.Machine
end

