-- ==== Sys2Proof/Machine/Lane.lean ====
section
/-! DEFINITION. What lane instructions share: the lanes they act on (02 R32, R33), their checks (03 R72), their sources (R67) with
the consumption of poison (R91), register order (02 R34), flag counting (R38, 03 R75), and the writing of results. -/

namespace Sys2Proof.Machine

/-! ## Lanes -/

/-- 02 R32: active(G). -/
def Group.active (x : Group) (f : LaneWord) : BitVec 16 :=
  let k := x.kGet f.guard.toNat
  x.live &&& x.pathMask &&& (if f.gneg = 1#1 then ~~~k else k)

/-- 02 R33: the lanes for which the body of an instruction runs: all active ones, or the lowest under U. -/
def bodyLanes (f : LaneWord) (m : BitVec 16) : List Nat := if f.u = 1#1 then (lanes m).take 1 else lanes m

/-- The slot that the running path has reached. -/
def Group.slot (x : Group) : Word :=
  match x.path with
  | some p => p.lpc
  | none => 0

/-! ## Registers (02 R30, R34, 03 R66) -/

/-- The registers that a field of a type names. -/
def wide (ty : BitVec 4) : Nat := if tyPair ty then 2 else 1

/-- 03 R72 step 2: fields as (first register, how many): each below the declared count, and aligned to its size. -/
def regsOk (vregs : Nat) (l : List (Nat × Nat)) : Bool := l.all fun r => decide (r.1 + r.2 ≤ vregs) && r.1 % r.2 = 0

/-- The registers and lanes that a logged access has still to write. -/
def MemOp.awaited (o : MemOp) (m : BitVec 16) (r : Nat × Nat) : Bool :=
  let n := max 1 ((if o.kind = .atomic then tyWidth o.ty / 8 else o.size) / 4)
  let ts := if o.bcast = 0 then maskOf (o.accs.map fun a => a.lane) else o.bcast
  o.lane && (o.kind = .load || o.kind = .loadSpec || o.kind = .atomic) && !o.accs.isEmpty && ts &&& m ≠ 0 &&
    decide (r.1 < o.dst + n) && decide (o.dst < r.1 + r.2)

/-- 02 R34: does an earlier instruction still have to write one of these registers in one of these lanes? -/
def Group.waitsFor (x : Group) (m : BitVec 16) (l : List (Nat × Nat)) : Bool :=
  x.oplog.any fun e => l.any fun r => e.2.awaited m r

/-- 08 R209: would writing these registers take a 33rd line into the shadow area? -/
def Group.overflowsShadow (x : Group) (l : List (Nat × Nat)) : Bool :=
  match x.tr with
  | none => false
  | some y =>
    let new := ((l.flatMap fun r => (List.range r.2).map fun i => r.1 + i).dedup).filter fun r => (KMap.find r y.shadow).isNone
    decide (y.shadow.length + new.length > 32)

/-- The running path goes to the next slot; the instruction and its pipe cycles count (02 R31, 18 R435). -/
def State.laneNext (s : State) (f : LaneWord) (m : BitVec 16) (cost : Nat) : State :=
  let g := s.me
  let s1 := s.onGrp g fun x => { x with path := x.path.map fun p => { p with lpc := p.lpc + 12 }, lstall := 0, spawned := none }
  (s1.count g 0x02 1).count g 0x04 (cost * (bodyLanes f m).length)

/-- 03 R72 step 2 and 02 R34: the checks of the register fields that an instruction uses, and then its body on active(G). -/
def State.laneBody (s : State) (f : LaneWord) (regs : List (Nat × Nat)) (body : BitVec 16 → State) : State :=
  let x := s.grp s.me
  let m := x.active f
  if !regsOk (s.gTeam s.me).vregs regs then s.trapL .illegal m 0
  else if x.waitsFor m regs then s.stallL 2
  else body m

/-! ## Sources (03 R67, R91) -/

/-- 03 R91: the value that a poisoned source of a type takes. -/
def subst (ty : BitVec 4) : Nat := if tyFloat ty then eachElem ty fun _ => (fmtOf ty).nan else 0

/-- A register or pair of a lane, consumed as a type: its value, and whether poison was consumed. -/
def Group.srcReg (x : Group) (ty : BitVec 4) (t r : Nat) : Nat × Bool :=
  let bad := x.vBad t r || (tyPair ty && x.vBad t (r + 1))
  let v := (x.vRaw t r).toNat + if tyPair ty then 2 ^ 32 * (x.vRaw t (r + 1)).toNat else 0
  (if bad then subst ty else v, bad)

/-- `cap(i)`: a captured scalar of the running clause (03 R90). -/
def Group.cap (x : Group) (i : Nat) : Word :=
  match x.run with
  | some r => KMap.read 0 i r.entry.caps
  | none => 0

/-- A captured scalar read as a type. -/
def Group.srcCap (x : Group) (ty : BitVec 4) (i : Nat) : Nat :=
  if tyPair ty then (x.cap i).toNat else (x.cap i).toNat % 2 ^ 32

/-- An immediate read as a type. -/
def srcImm (ty : BitVec 4) (v : BitVec 32) : Nat :=
  if ty = 3#4 then (v.signExtend 64).toNat
  else if ty = 5#4 then convert 4#4 5#4 0 false v.toNat
  else v.toNat

/-- Source A of an instruction of `n` sources. -/
def Group.srcA (x : Group) (f : LaneWord) (n : Nat) (ty : BitVec 4) (t : Nat) : Nat × Bool :=
  if n = 1 && f.kind = 2#2 then (srcImm ty f.imm, false) else x.srcReg ty t f.va.toNat

/-- Source B of an instruction of `n` sources. -/
def Group.srcB (x : Group) (f : LaneWord) (n : Nat) (ty : BitVec 4) (t : Nat) : Nat × Bool :=
  if f.kind = 1#2 || f.kind = 3#2 then (x.srcCap ty (f.vb.toNat % 16), false)
  else if n = 2 && f.kind = 2#2 then (srcImm ty f.imm, false)
  else x.srcReg ty t f.vb.toNat

/-- Source C of an instruction of three sources. -/
def Group.srcC (x : Group) (f : LaneWord) (ty : BitVec 4) (t : Nat) : Nat × Bool :=
  if f.kind = 2#2 || f.kind = 3#2 then (srcImm ty f.imm, false) else x.srcReg ty t f.vc.toNat

/-- The vector field of source A, if the kind makes it one. -/
def regA (f : LaneWord) (n : Nat) (ty : BitVec 4) : List (Nat × Nat) :=
  if n = 1 && f.kind = 2#2 then [] else [(f.va.toNat, wide ty)]

/-- The vector field of source B, if the kind makes it one. -/
def regB (f : LaneWord) (n : Nat) (ty : BitVec 4) : List (Nat × Nat) :=
  if f.kind = 1#2 || f.kind = 3#2 || (n = 2 && f.kind = 2#2) then [] else [(f.vb.toNat, wide ty)]

/-- The vector field of source C, if the kind makes it one. -/
def regC (f : LaneWord) (ty : BitVec 4) : List (Nat × Nat) :=
  if f.kind = 2#2 || f.kind = 3#2 then [] else [(f.vc.toNat, wide ty)]

/-! ## Results -/

/-- Writes a value to `n` registers of a lane, the lower register first. -/
def Group.vWrite (x : Group) (t r n v : Nat) : Group :=
  (List.range n).foldl (fun x i => x.vSet t (r + i) (BitVec.ofNat 32 (v / 2 ^ (32 * i)))) x

/-- Writes each body lane's value, or under U the one value to every active lane (02 R33). -/
def Group.vResults (x : Group) (f : LaneWord) (m : BitVec 16) (r n : Nat) (vs : List (Nat × Nat)) : Group :=
  if f.u = 1#1 then
    match vs with
    | v :: _ => (lanes m).foldl (fun x t => x.vWrite t r n v.2) x
    | [] => x
  else vs.foldl (fun x v => x.vWrite v.1 r n v.2) x

/-- Writes each body lane's bit to a predicate, or under U the one bit to every active lane; other lanes keep theirs (04 R93). -/
def Group.kResults (x : Group) (f : LaneWord) (m : BitVec 16) (k : Nat) (vs : List (Nat × Bool)) : Group :=
  if f.u = 1#1 then
    match vs with
    | v :: _ => x.kSet k m (if v.2 then m else 0)
    | [] => x
  else x.kSet k m (maskOf ((vs.filter fun v => v.2).map Prod.fst))

/-- 03 R91: PCONS where a lane instruction consumed poison. -/
def State.pconsIf (s : State) (b : Bool) : State := if b then s.consumed s.me true else s

/-- A lane instruction that writes vector registers: `res` gives a lane's value and whether it consumed poison. -/
def State.laneCalc (s : State) (f : LaneWord) (srcs : List (Nat × Nat)) (dst : Nat × Nat) (cost : Nat)
    (res : Group → Nat → Nat × Bool) : State :=
  s.laneBody f (srcs ++ [dst]) fun m =>
    let x := s.grp s.me
    if m ≠ 0 && x.overflowsShadow [dst] then s.abortGroup s.me 4 0
    else
      let rs := (bodyLanes f m).map fun t => (t, res x t)
      let s1 := s.onGrp s.me fun y => y.vResults f m dst.1 dst.2 (rs.map fun r => (r.1, r.2.1))
      (s1.pconsIf (rs.any fun r => r.2.2)).laneNext f m cost

/-- A lane instruction that writes a predicate. -/
def State.laneTest (s : State) (f : LaneWord) (srcs : List (Nat × Nat)) (kd : Nat) (cost : Nat)
    (res : Group → Nat → Bool × Bool) : State :=
  s.laneBody f srcs fun m =>
    let x := s.grp s.me
    let rs := (bodyLanes f m).map fun t => (t, res x t)
    let s1 := s.onGrp s.me fun y => y.kResults f m kd (rs.map fun r => (r.1, r.2.1))
    (s1.pconsIf (rs.any fun r => r.2.2)).laneNext f m cost

/-- One source, one result. -/
def calc1 (f : LaneWord) (ta : BitVec 4) (fn : Nat → Nat) (x : Group) (t : Nat) : Nat × Bool :=
  let a := x.srcA f 1 ta t
  (fn a.1, a.2)

/-- Two sources, one result. -/
def calc2 (f : LaneWord) (ta tb : BitVec 4) (fn : Nat → Nat → Nat) (x : Group) (t : Nat) : Nat × Bool :=
  let a := x.srcA f 2 ta t
  let b := x.srcB f 2 tb t
  (fn a.1 b.1, a.2 || b.2)

/-- Three sources, one result. -/
def calc3 (f : LaneWord) (ta tb tc : BitVec 4) (fn : Nat → Nat → Nat → Nat) (x : Group) (t : Nat) : Nat × Bool :=
  let a := x.srcA f 3 ta t
  let b := x.srcB f 3 tb t
  let c := x.srcC f tc t
  (fn a.1 b.1 c.1, a.2 || b.2 || c.2)

/-- The cost of a type in pipe cycles per lane (02 R31, 07 R183). -/
def tyCost (ty : BitVec 4) : Nat := if ty = 5#4 then 4 else 1

/-- An instruction of one source of type `ta` and a result of type `td`. -/
def State.lane1 (s : State) (f : LaneWord) (ta td : BitVec 4) (fn : Nat → Nat) : State :=
  s.laneCalc f (regA f 1 ta) (f.vd.toNat, wide td) (max (tyCost ta) (tyCost td)) (calc1 f ta fn)

/-- An instruction of two sources and a result. -/
def State.lane2 (s : State) (f : LaneWord) (ta tb td : BitVec 4) (fn : Nat → Nat → Nat) : State :=
  s.laneCalc f (regA f 2 ta ++ regB f 2 tb) (f.vd.toNat, wide td) (tyCost td) (calc2 f ta tb fn)

/-- An instruction of three sources and a result. -/
def State.lane3 (s : State) (f : LaneWord) (ta tb tc td : BitVec 4) (fn : Nat → Nat → Nat → Nat) : State :=
  s.laneCalc f (regA f 3 ta ++ regB f 3 tb ++ regC f tc) (f.vd.toNat, wide td) (tyCost td) (calc3 f ta tb tc fn)

/-! ## Long-latency instructions (02 R38, 03 R75) -/

/-- Is the running path inside a clause entered by `vcall`? -/
def Group.inCall (x : Group) : Bool := x.stack.any fun e => match e with | .call .. => true | _ => false

/-- Raises a flag at issue; a count of 63 holds the issue. -/
def Group.raiseAtIssue (x : Group) (f : Option Nat) : Option (Group × Option Nat) :=
  match f with
  | none => some (x, none)
  | some f => if x.flag f ≥ 63 then none else some (x.raiseBy f 1, some f)

/-- 03 R75: the flag that this execution of a long-latency slot counts on: the one raised at enqueue for its first execution in the
run, one raised now otherwise. `none` holds the issue. -/
def Group.issueLL (x : Group) (f : LaneWord) : Option (Group × Option Nat) :=
  let setB := f.md.getLsbD 3
  match x.run, x.curClause with
  | some r, some (a, h) =>
    let i := (x.slot - a).toNat / 12
    if x.inCall then x.raiseAtIssue (headerFlag h setB)
    else
      match r.entry.counts.find? fun c => c.1 = i && !r.reached.contains i with
      | some c => some ({ x with run := some { r with reached := r.reached ++ [i] } }, some c.2)
      | none => x.raiseAtIssue (headerFlag h setB)
  | _, _ => some (x, none)

/-- A long-latency instruction that has issued: it lands by an event, or at once where no lane is active (02 R38). -/
def Group.pendLL (x : Group) (slot : Word) (flag : Option Nat) (dst : Option (Nat × Word)) (empty : Bool) : Group :=
  if empty then
    let y := x.lower flag
    match dst with
    | some d => y.sSet d.1 d.2
    | none => y
  else if flag.isNone && dst.isNone then x
  else { x with pending := x.pending ++ [{ slot, flag, dst }] }

/-- A long-latency instruction that writes vector registers: its results are written at issue, where every later reader of the group
finds them (02 R34), and its flag is lowered at its landing. -/
def State.laneLong (s : State) (f : LaneWord) (srcs : List (Nat × Nat)) (dst : Nat × Nat) (cost : Nat)
    (res : Group → Nat → Nat × Bool) : State :=
  s.laneBody f (srcs ++ [dst]) fun m =>
    let x := s.grp s.me
    match x.issueLL f with
    | none => s.stallL 5
    | some (x1, flag) =>
      if m ≠ 0 && x.overflowsShadow [dst] then s.abortGroup s.me 4 0
      else
        let s1 := s.setGrp s.me (x1.pendLL x.slot flag none (m = 0))
        s1.laneCalc f srcs dst cost res

/-- The event LONG_LATENCY_COMPLETION (02 R38, R39): the i-th outstanding result lands: its scalar destination is written and its
flag lowered in one step. -/
def execLongLatencyCompletion (g i : Nat) (s : State) : Host.Outcome State Fault Refusal :=
  match (s.grp g).pending[i]? with
  | none => .next s
  | some p =>
    .next (s.onGrp g fun x => { x with pending := x.pending.eraseIdx i }.landOne p)

end Sys2Proof.Machine
end

