-- ==== Sys2Proof/Machine/LaneControl.lean ====
section
/-! DEFINITION. Control of the lane PC (06 R163 to R171), the end of a clause (02 R37, 06 R166), spawning (02 R44 to R46), and the
lanes' own rollback (08 R211). -/

namespace Sys2Proof.Machine

/-! ## Paths (02 R40 to R43) -/

/-- 02 R42: at a switch point the running path goes to the end of the top mark entry's ring and the next one resumes. -/
def Group.switchPath (x : Group) : Group :=
  match x.stack, x.path with
  | .mark r k (p :: ps) c :: st, some q => { x with path := some p, stack := .mark r k (ps ++ [q]) c :: st }
  | _, _ => x

/-- Is the top entry of the stack a mark entry? -/
def Group.topMark (x : Group) : Bool :=
  match x.stack with
  | .mark .. :: _ => true
  | _ => false

/-- 06 R164: parts of a divergent path take its place in the ring of the top entry, and the first runs. -/
def Group.diverge (x : Group) (parts : List Path) : Group :=
  match x.stack, parts with
  | .mark r k ring c :: st, p :: ps => { x with path := some p, stack := .mark r k (ps ++ ring) c :: st }
  | _, p :: _ => { x with path := some p }
  | _, [] => x

/-- A control instruction issues: it counts, and the lane PC goes where it says. -/
def State.laneGo (s : State) (f : LaneWord) (m : BitVec 16) (h : Group → Group) : State := (s.laneNext f m 1).onGrp s.me h

/-- The set P of 06 R163: the live lanes of the running path. -/
def Group.here (x : Group) : BitVec 16 := x.live &&& x.pathMask

/-- The slot number of the running path in the clause at an address. -/
def Group.slotIn (x : Group) (a : Word) : Nat := (x.slot - a).toNat / 12

/-- The address of a slot of the clause at an address. -/
def slotAddr (a : Word) (n : Nat) : Word := a + BitVec.ofNat 64 (12 * n)

/-- Places the path after its move: alone, or as parts of a divergent one, which need a mark entry on top; a taken backward branch
then switches paths (06 R164, R165). -/
def State.branchTo (s : State) (f : LaneWord) (m : BitVec 16) (parts : List Path) (back : Bool) : State :=
  if parts.length > 1 && !(s.grp s.me).topMark then s.trapL .stack m 0
  else
    s.laneGo f m fun x =>
      let y := x.diverge parts
      let y : Group := if parts.length > 1 then y else { x with path := parts.head? }
      if back then y.switchPath else y

/-- `vbra` (06 R164). -/
def execVbra (f : LaneWord) (s : State) : Host.Outcome State Fault Refusal :=
  let x := s.grp s.me
  let m := x.active f
  match x.curClause with
  | none => .next s
  | some (a, h) =>
    let n := f.imm.toNat % 32
    let own := x.slotIn a
    let rest := x.here &&& ~~~ m
    if n = 0 || n > h.count + 1 then .next (s.trapL .illegal m 0)
    else
      let taken : Path := { mask := m, lpc := slotAddr a n }
      let past : Path := { mask := rest, lpc := slotAddr a (own + 1) }
      let parts := if rest = 0 then [taken] else if m = 0 then [past] else [taken, past]
      .next (s.branchTo f m parts (m ≠ 0 && decide (n ≤ own)))

/-- `vbrax` (06 R165). -/
def execVbrax (f : LaneWord) (s : State) : Host.Outcome State Fault Refusal :=
  .next (s.laneBody f [(f.va.toNat, 1)] fun m =>
    let x := s.grp s.me
    match x.curClause with
    | none => s
    | some (a, h) =>
      let own := x.slotIn a
      let rest := x.here &&& ~~~ m
      let vs := (lanes m).map fun t => (t, x.srcReg 0#4 t f.va.toNat)
      let s1 := s.pconsIf (vs.any fun v => v.2.2)
      let bad := maskOf ((vs.filter fun v => v.2.1 = 0 || decide (v.2.1 > h.count + 1)).map Prod.fst)
      if bad ≠ 0 then s1.trapL .illegal bad 0
      else
        let slots := ((List.range (h.count + 1)).map (· + 1)).filter fun n => vs.any fun v => v.2.1 = n
        let taken : List Path := slots.map fun n =>
          { mask := maskOf ((vs.filter fun v => v.2.1 = n).map Prod.fst), lpc := slotAddr a n }
        let past : Path := { mask := rest, lpc := slotAddr a (own + 1) }
        let parts := if rest = 0 && !taken.isEmpty then taken else taken ++ [past]
        s1.branchTo f m parts (match slots.head? with | some n => decide (n ≤ own) | none => false))

/-! ## Marks, joins and calls -/

/-- Does a slot of a clause hold a `vjoin`? -/
def State.holdsJoin (s : State) (g : Nat) (a : Word) (n : Nat) : Bool :=
  match s.fetchLane g (slotAddr a n) with
  | .instr (.vjoin _) => true
  | _ => false

/-- `vmark` (06 R167). -/
def execVmark (f : LaneWord) (s : State) : Host.Outcome State Fault Refusal :=
  let x := s.grp s.me
  match x.curClause with
  | none => .next s
  | some (a, h) =>
    let n := f.imm.toNat % 32
    if n ≤ x.slotIn a || n > h.count || !s.holdsJoin s.me a n then .next (s.trapL .illegal x.here 0)
    else if x.stack.length ≥ 32 then .next (s.trapL .stack x.here 0)
    else .next (s.laneGo f x.here fun y => { y with stack := .mark n x.here [] a :: y.stack })

/-- `vjoin` (06 R168). -/
def execVjoin (f : LaneWord) (s : State) : Host.Outcome State Fault Refusal :=
  let x := s.grp s.me
  match x.stack, x.curClause with
  | .mark r _ _ c :: _, some (a, _) =>
    if c = a && r = x.slotIn a then .next (s.laneGo f x.here Group.arrive) else .next (s.trapL .stack x.here 0)
  | _, _ => .next (s.trapL .stack x.here 0)

/-- `vcall` (06 R169). -/
def execVcall (f : LaneWord) (s : State) : Host.Outcome State Fault Refusal :=
  let g := s.me
  let x := s.grp g
  let m := x.here
  let l := x.cap (f.vb.toNat % 16) + 16 * f.imm.signExtend 64
  if l.toNat % 16 ≠ 0 then .next (s.trapL .misalign m l)
  else
    match s.readHeader g l with
    | .fault c => .next (s.trapL c m l)
    | .bad poisoned => .next (((s.drew g l.toNat 12).pconsIf poisoned).trapL .illegal m l)
    | .ok h =>
      if x.stack.length ≥ 32 then .next (s.trapL .stack m 0)
      else
        .next ((s.drew g l.toNat 12).laneGo f m fun y => { y with
          stack := .call (x.slot + 12) m l h :: y.stack
          path := y.path.map fun p => { p with lpc := l + 12 } })

/-- 06 R169: the return from a called clause, where the top entry is a call entry. -/
def Group.return? (x : Group) : Option Group :=
  match x.stack with
  | .call ret _ _ _ :: st => some (Group.resettle { x with stack := st, path := x.path.map fun p => { p with lpc := ret } })
  | _ => none

/-- `vret` (06 R169). -/
def execVret (f : LaneWord) (s : State) : Host.Outcome State Fault Refusal :=
  let x := s.grp s.me
  match x.return? with
  | some _ => .next (s.laneGo f x.here fun y => y.return?.getD y)
  | none => .next (s.trapL .stack x.here 0)

/-- `vexit` (06 R170): inside `try` it aborts with SYNC (R146). -/
def execVexit (f : LaneWord) (s : State) : Host.Outcome State Fault Refusal :=
  let m := (s.grp s.me).active f
  if (s.grp s.me).inTry then .next (s.abortSync s.me)
  else .next (s.laneGo f m fun y => y.depart m)

/-! ## The end of a clause (02 R37, 03 R75, 06 R166) -/

/-- Has the running path reached the end of the clause that it executes? -/
def Group.atEnd (x : Group) : Bool :=
  match x.curClause, x.path with
  | some (a, h), some p => p.lpc = clauseEnd a h
  | _, _ => false

/-- 02 R37, 03 R75: the queued clause ends: the flags of counted slots never reached are lowered and its entry is freed. -/
def Group.endClause (x : Group) : Group :=
  match x.run with
  | some r => { x.lowerAll r.unreached with run := none, path := none, lstall := 14 }
  | none => x

/-- What the lane stream does at the end of a clause: a called one returns; the queued one ends; an entry it pushed and left on top
traps with STACK, at the clause end. -/
def State.laneEnd (s : State) : State :=
  let g := s.me
  let x := s.grp g
  match x.run with
  | none => s
  | some r =>
    if x.inCall then
      match x.return? with
      | some y => s.setGrp g y
      | none => s.trapL .stack x.here 0
    else if x.stack.length ≠ r.depth then s.trapL .stack x.here 0
    else s.onGrp g Group.endClause

/-! ## Spawning (02 R44 to R46, 06 R171) -/

/-- The bin of a team that an entry keys, or the first empty one. -/
def Team.binFor (t : Team) (e : Word) : Option Nat :=
  match t.bins.find? fun b => b.2.entry = e && !b.2.threads.isEmpty with
  | some b => some b.1
  | none => (List.range 16).find? fun i =>
      match KMap.find i t.bins with
      | some b => b.threads.isEmpty
      | none => true

/-- The lowest free group number of a team; that of an exited group is free while its residual record stands (log entry 50). -/
def State.freeGroup (s : State) (t : Nat) : Option Nat :=
  (List.range 64).find? fun n => (KMap.find (streamKey t n) s.groups).isNone

/-- A group as it starts (02 R45, R52): its lanes, its PC, its launch argument. -/
def startGroup (team grp : Nat) (pc arg : Word) (m : BitVec 16) (born : Nat) : Group :=
  { team, grp, pc, present := m, live := m, born, s := KMap.write 0 1 arg [] }

/-- 02 R45: a bin launches a new group in its team, with a fresh context image, and is then empty; while the team holds 64 groups it waits (R46). -/
def State.launchBin (s : State) (t i : Nat) : State :=
  match KMap.find i (s.tm t).bins, s.freeGroup t with
  | some b, some n =>
    if b.threads.isEmpty then s
    else
      let m := maskOf (List.range b.threads.length)
      let x0 := startGroup t n b.entry (s.tm t).arg m s.now
      let x := (b.threads.zipIdx).foldl (fun x e => (e.1.zipIdx).foldl (fun x w => x.vSet e.2 w.2 w.1) x) x0
      ((s.freshStream t n).onTm t fun y => { y with bins := KMap.del i y.bins }).setGrp (streamKey t n) x
  | _, _ => s

/-- 02 R45, 04 R106: has a bin of a team run out its timer? A `c.spawntmr` of 0 acts as 1. -/
def Team.binTimeOut (t : Team) (b : SpawnBin) : Bool := !b.threads.isEmpty && decide (b.age ≥ max 1 t.spawntmr.toNat)

/-- 02 R44, R46: places one lane's thread; `none` stalls: a full bin, or one due by its timer while the team holds 64 groups. -/
def State.placeThread (s : State) (t : Nat) (e : Word) (args : List (BitVec 32)) : Option State :=
  match (s.tm t).binFor e with
  | none => none
  | some i =>
    let b : SpawnBin := (KMap.find i (s.tm t).bins).getD { entry := e, threads := [] }
    if b.threads.length ≥ 16 || ((s.tm t).binTimeOut b && (s.freeGroup t).isNone) then none
    else
      let b1 : SpawnBin := { entry := e, threads := b.threads ++ [args], age := if b.threads.isEmpty then 0 else b.age }
      let s1 := s.onTm t fun y => { y with bins := KMap.put i b1 y.bins }
      some (if b1.threads.length = 16 then s1.launchBin t i else s1)

/-- Places the threads of lanes in order: the lanes placed, whether all were, and the state. -/
def State.placeAll (s : State) (t : Nat) (e : Word) (args : Nat → List (BitVec 32)) : List Nat → List Nat → List Nat × Bool × State
  | done, [] => (done, true, s)
  | done, l :: ls =>
    match s.placeThread t e (args l) with
    | some s1 => s1.placeAll t e args (done ++ [l]) ls
    | none => (done, false, s)

/-- The lanes of the `vspawn` at the running slot that have been placed. -/
def Group.placedLanes (x : Group) : BitVec 16 :=
  match x.spawned with
  | some w => if w.1 = x.slot then w.2 else 0
  | none => 0

/-- `vspawn` (06 R171, 02 R44 to R46). -/
def execVspawn (f : LaneWord) (s : State) : Host.Outcome State Fault Refusal :=
  .next (s.laneBody f [(f.va.toNat, 4)] fun m =>
    let g := s.me
    let x := s.grp g
    let e := x.cap (f.vb.toNat % 16) + 4 * f.imm.signExtend 64
    if x.inTry then s.abortSync g
    else if e.toNat % 4 ≠ 0 then s.trapL .misalign m e
    else
      let arg (t i : Nat) : Nat × Bool := x.srcReg 0#4 t (f.va.toNat + i)
      let args (t : Nat) : List (BitVec 32) := (List.range 4).map fun i => BitVec.ofNat 32 (arg t i).1
      let todo := lanes (m &&& ~~~ x.placedLanes)
      let r := s.placeAll (keyTeam g) e args [] todo
      let s1 := r.2.2.pconsIf (r.1.any fun t => (List.range 4).any fun i => (arg t i).2)
      if r.2.1 then s1.laneNext f m 1
      else (s1.onGrp g fun y => { y with spawned := some (x.slot, x.placedLanes ||| maskOf r.1) }).stallL 10)

/-- The event SPAWN_TIMER_EXPIRY (02 R45, R46): `c.spawntmr` cycles have passed since the bin's first thread; or a full bin that waited
for a group number launches. -/
def execSpawnTimerExpiry (team bin : Nat) (s : State) : Host.Outcome State Fault Refusal :=
  match KMap.find bin (s.tm team).bins with
  | some b =>
    if (b.threads.length = 16 || (s.tm team).binTimeOut b) && (s.tm team).res = .resident then .next (s.launchBin team bin)
    else .next s
  | none => .next s

/-- 02 R46: the group of a list that has been resident longest. -/
def State.oldest (s : State) (gs : List Nat) : Option Nat :=
  gs.foldl (fun o g => match o with
    | some h => if (s.grp g).born < (s.grp h).born then some g else some h
    | none => some g) none

/-- The event SPAWN_DEADLOCK (02 R46): every group of the team is stalled on `vspawn`: the oldest traps, with the lanes not yet
placed. -/
def execSpawnDeadlock (team : Nat) (s : State) : Host.Outcome State Fault Refusal :=
  let gs := s.teamGroups team
  if gs.isEmpty || !(gs.all fun g => (s.grp g).lstall = 10 && !(s.grp g).laneStopped) then .next s
  else
    match s.oldest gs with
    | none => .next s
    | some g =>
      let x := s.grp g
      let m := match s.fetchLane g x.slot with
        | .instr (.vspawn f) => x.active f &&& ~~~ x.placedLanes
        | _ => 0
      .next (s.trap g { cause := .spawnDeadlock, lane := true, slot := x.slot, mask := m })

/-! ## `vlabort` (08 R208, R211) -/

/-- `vlabort`: outside `try` ignored; inside, rolls the active lanes back and is a switch point. Its flag is lowered. -/
def execVlabort (f : LaneWord) (s : State) : Host.Outcome State Fault Refusal :=
  .next (s.laneBody f [] fun m =>
    let g := s.me
    let x := s.grp g
    match x.issueLL f with
    | none => s.stallL 5
    | some (y, flag) =>
      let s1 := (s.setGrp g (y.lower flag)).laneNext f m 1
      if !x.inTry then s1
      else
        let s2 := if m = 0 then s1 else s1.rollLanes g m 1 (f.imm.toNat % 256)
        let gone := x.here &&& ~~~ m = 0 && x.here ≠ 0
        if (s2.grp g).inTry && !gone then s2.onGrp g Group.switchPath else s2)

end Sys2Proof.Machine
end

