-- ==== Sys2Proof/Machine/LaneMemory.lean ====
section
/-! DEFINITION. Lane memory instructions (10 R238 to R252): addresses, checks at issue, global accesses, scratchpad accesses, prefetch,
the lane fence, and lane arrivals (17 R413). -/

namespace Sys2Proof.Machine

/-! ## Addresses and checks (10 R239, R240) -/

/-- A lane's address, and whether a slot that forms it is poisoned. -/
structure LaneAddr where
  lane : Nat
  bad : Bool
  addr : Word
  deriving DecidableEq, Repr, Inhabited

/-- The register field of a lane address: a pair under kind 00 of a global form. -/
def addrRegs (f : LaneWord) (glob : Bool) : Nat × Nat := (f.va.toNat, if glob && f.kind = 0#2 then 2 else 1)

/-- 10 R239: the global address of a lane, with its byte offset. -/
def Group.globalAddr (x : Group) (f : LaneWord) (off : Word) (t : Nat) : LaneAddr :=
  let r := f.va.toNat
  if f.kind = 1#2 then
    { lane := t, bad := x.vBad t r, addr := x.cap (f.vb.toNat % 16) + (x.vRaw t r).signExtend 64 + off }
  else
    { lane := t, bad := x.vBad t r || x.vBad t (r + 1), addr := (x.vRaw t (r + 1) ++ x.vRaw t r : BitVec 64) + off }

/-- The signed 29-bit offset of a global form. -/
def memOff (f : LaneWord) : Word := (f.imm.extractLsb' 0 29).signExtend 64

/-- 10 R239: the scratchpad address of a lane in plain mode. -/
def Group.spadAddr (x : Group) (f : LaneWord) (t : Nat) : LaneAddr :=
  let base := if f.kind = 1#2 then x.cap (f.vb.toNat % 16) else 0
  { lane := t, bad := x.vBad t f.va.toNat, addr := base + (x.vRaw t f.va.toNat).setWidth 64 + f.imm.signExtend 64 }

/-- What a lane's checks find: the cause and the address it reports. -/
abbrev LaneFault := Option (Cause × Word)

/-- 10 R240: of lanes with their faults: the cause of the lowest failing lane, the lanes that fail with it, its address. -/
def lowestFault (l : List (Nat × LaneFault)) : Option (Cause × BitVec 16 × Word) :=
  match l.find? fun e => e.2.isSome with
  | some (_, some (c, a)) => some (c, maskOf ((l.filter fun e => (e.2.map Prod.fst) = some c).map Prod.fst), a)
  | _ => none

/-- 10 R240 steps 2 and 3 for a global address. -/
def globalFault (n : Nat) (a : LaneAddr) : LaneFault :=
  if a.bad then none
  else if a.addr.toNat % n ≠ 0 then some (.misalign, a.addr)
  else if a.addr.toNat ≥ 2 ^ 52 then some (.page, a.addr)
  else none

/-- 10 R240 step 1: a poisoned address sets PADDR and PCONS. -/
def State.poisonAddr (s : State) (as : List LaneAddr) : State :=
  if as.any fun a => a.bad then (s.onGrp s.me fun x => x.chk paddr).consumed s.me true else s

/-- Writes zero, unpoisoned, to the destination registers of lanes (10 R240 step 1); under U to every active lane. -/
def Group.zeroDst (x : Group) (f : LaneWord) (m : BitVec 16) (d : Nat × Nat) (as : List LaneAddr) : Group :=
  if as.any fun a => a.bad then x.vResults f m d.1 d.2 ((as.filter fun a => a.bad).map fun a => (a.lane, 0)) else x

/-- 10 R249, 11 R275: has a lane fence issued whose conditions do not hold yet, or an acquire load or atomic that is not performed? -/
def Group.fenced (x : Group) : Bool :=
  x.oplog.any fun e => !e.2.accs.isEmpty &&
    (e.2.kind = .fence || (e.2.lane && !e.2.inOrder && e.2.copy.isNone && e.2.order % 2 = 1))

/-- The registers of an access of `n` bytes (10 R238). -/
def sizeRegs (n : Nat) : Nat := max 1 (n / 4)

/-! ## Global accesses -/

/-- An order code that acquires, and the scope named (10 R238). -/
def orderAcq (f : LaneWord) : Bool := f.md.getLsbD 0
/-- The scope of an ordered access. -/
def scopeOf (f : LaneWord) : Nat := (f.imm.extractLsb' 29 3).toNat

/-- What holds a lane access that has passed its checks: a Rennet unit in a segment, or a queued reduction to the same bytes. -/
def State.heldAcc (s : State) (g : Nat) (o : MemOp) : Option State :=
  let xs := o.accs.filterMap fun a => (s.xlate (s.whoIs g o.kernel) a.va.toNat .read).toOption
  xs.findSome? fun y =>
    if s.holdsOp g y (s.nearOps xs y) then some (s.waitAtUnit g y (s.nearOps xs y)) else if s.behindReduce g y o.size then some s else none

/-- 10 R240: does a lane access inside `try` find a memory-side page? -/
def State.tryMemSide (s : State) (g : Nat) (o : MemOp) (k : AccKind) : Bool :=
  (s.grp g).inTry && o.accs.any fun a =>
    match s.xlate (s.whoIs g o.kernel) a.va.toNat k with
    | .ok y => y.leaf.ms
    | .error _ => false

/-- 08 R210: the sectors that a `vldspec` adds to its lanes' watch sets; a set that would pass 16 rolls its lane back. -/
def State.watchSectors (s : State) (g : Nat) (o : MemOp) : State :=
  match (s.grp g).tr with
  | none => s
  | some y =>
    let new := o.accs.filterMap fun a =>
      match s.xlate (s.whoIs g o.kernel) a.va.toNat .read with
      | .ok x => some (a.lane, x.sector)
      | .error _ => none
    let w := new.foldl (fun w e => KMap.put e.1 (((KMap.read [] e.1 w).filter fun k => k ≠ e.2) ++ [e.2]) w) y.watch
    let tooMany := maskOf ((w.filter fun e => e.2.length > 16).map Prod.fst)
    let s1 := s.onGrp g fun x => { x with tr := some { y with watch := w } }
    if tooMany = 0 then s1 else s1.rollLanes g tooMany 2 1

/-- 08 R209: the destination lines of a load inside `try`, in the shadow area from its issue on. -/
def Group.shadowDst (x : Group) (o : MemOp) : Group :=
  if x.inTry && o.discarded then (List.range (max 1 (o.size / 4))).foldl (fun x i => x.shadowLine (o.dst + i)) x else x

/-- Issues the accesses of a load or an atomic: an operand-log entry, the accesses in lane order, the acquire of an ordered one. -/
def State.issueLoad (s : State) (f : LaneWord) (m : BitVec 16) (o : MemOp) : State :=
  let g := s.me
  match (s.grp g).freeLog with
  | none => s.stallL 9
  | some e =>
    let s1 := (s.onGrp g fun x => x.shadowDst o).performLog g e { o with tried := (s.grp g).inTry }
    let s2 := s1.acquireDone g o (KMap.read o e (s1.grp g).oplog).accs
    let s3 := s2.laneNext f m 1
    if o.kind = .loadSpec then s3.watchSectors g o else s3

/-- 08 R209, 10 R245: a lane store inside `try`: translated and checked, then one entry of the try buffer; a fault of that check aborts, and
lowers its flag (R212). -/
def State.issueBuffered (s : State) (f : LaneWord) (m : BitVec 16) (o : MemOp) : State :=
  let g := s.me
  let xs := o.accs.map fun a => (a.va, s.xlate (s.whoIs g o.kernel) a.va.toNat .write)
  match xs.findSome? fun e => match e.2 with | .error c => some (c, e.1) | .ok _ => none with
  | some (c, a) => (s.onGrp g fun x => x.lower o.flag).trapL c m a
  | none =>
    let sectors := xs.filterMap fun e => match e.2 with | .ok y => some y.sector | .error _ => none
    (s.laneNext f m 1).bufferStore g o sectors

/-- A store or reduction enters the group's store queue (10 R245, R252). -/
def State.issueStore (s : State) (f : LaneWord) (m : BitVec 16) (o : MemOp) : State :=
  let g := s.me
  match (s.grp g).freeLog with
  | none => s.stallL 9
  | some e =>
    (s.onGrp g fun x => x.enterStore e o).laneNext f m 1

/-- A lane instruction on global memory: the checks of 10 R240, its lanes' accesses, and their issue. `data` gives a lane's data,
compare value and consumption of poison; `dst` the registers that a poisoned lane's zero goes to. -/
def State.laneMem (s : State) (f : LaneWord) (regs : List (Nat × Nat)) (dst : Option (Nat × Nat)) (o : MemOp)
    (data : Group → Nat → Nat × Nat × Bool) : State :=
  s.laneBody f (addrRegs f true :: regs) fun m =>
    let g := s.me
    let x := s.grp g
    let stores := o.kind = .store || o.kind = .reduce
    if x.fenced then s.stallL 7
    else
      let as := (bodyLanes f m).map (x.globalAddr f (memOff f))
      let s1 := s.poisonAddr as
      match lowestFault (as.map fun a => (a.lane, globalFault o.size a)) with
      | some (c, k, a) => s1.trapL c k a
      | none =>
        let good := as.filter fun a => !a.bad
        let ds := good.map fun a => (a, data x a.lane)
        let o1 : MemOp := { o with
          lane := true, slot := x.slot, bcast := if f.u = 1#1 then m else 0, hint := f.hint.toNat, order := f.md.toNat % 8, scope := scopeOf f
          accs := ds.map fun d => { lane := d.1.lane, va := d.1.addr, data := d.2.1, cmp := d.2.2.1 } }
        if x.inTry && (o.kind = .atomic || o.kind = .reduce) && m ≠ 0 then s1.abortSync g
        else if s.tryMemSide g o1 (if stores then .write else .read) then s1.abortSync g
        else if m ≠ 0 && (match dst with | some d => x.overflowsShadow [d] | none => false) then s1.abortGroup g 4 0
        else if o.kind = .atomic && !good.isEmpty && (x.atomicWaits true (f.md.toNat % 8) || s.proxyHolds (f.md.toNat % 8)) then s.stallL 15
        else
          match (s1.grp g).issueLL f, s.heldAcc g (if stores then { o1 with accs := [] } else o1) with
          | none, _ => s.stallL 5
          | some _, some s2 => s2.stallL 15
          | some (y, flag), none =>
            let s2 := (s1.setGrp g (match dst with | some d => y.zeroDst f m d as | none => y)).pconsIf (ds.any fun d => d.2.2.2)
            let o2 : MemOp := { o1 with flag }
            if good.isEmpty then (s2.onGrp g fun z => z.lower flag).laneNext f m 1
            else if !(x.inTry && stores) && x.freeLog.isNone then s.stallL 9
            else if stores then (if x.inTry then s2.issueBuffered f m o2 else s2.issueStore f m o2)
            else s2.issueLoad f m o2

/-- The size of an access in bytes (10 R238). -/
def sizeOf (f : LaneWord) : Nat := 2 ^ f.sub.toNat

/-- A register, pair or quadruple of a lane, consumed as raw words: each poisoned slot gives zero (10 R245). -/
def Group.dataWords (x : Group) (t r n : Nat) : Nat × Bool :=
  ((List.range n).map fun i => 2 ^ (32 * i) * (x.srcReg 0#4 t (r + i)).1).sum |> fun v => (v, (List.range n).any fun i => x.vBad t (r + i))

/-- `vld` (10 R244). -/
def execVld (f : LaneWord) (s : State) : Host.Outcome State Fault Refusal :=
  let d := (f.vd.toNat, sizeRegs (sizeOf f))
  .next (s.laneMem f [d] (some d)
    { kind := .load, lane := true, slot := 0, size := sizeOf f, sext := f.ty = 1#4, dst := d.1, accs := [] } fun _ _ => (0, 0, false))

/-- `vldspec` (10 R246). -/
def execVldspec (f : LaneWord) (s : State) : Host.Outcome State Fault Refusal :=
  let d := (f.vd.toNat, sizeRegs (sizeOf f))
  .next (s.laneMem f [d] (some d)
    { kind := .loadSpec, lane := true, slot := 0, size := sizeOf f, sext := f.ty = 1#4, dst := d.1, accs := [] } fun _ _ => (0, 0, false))

/-- `vst` (10 R245). -/
def execVst (f : LaneWord) (s : State) : Host.Outcome State Fault Refusal :=
  let n := sizeOf f
  .next (s.laneMem f [(f.vc.toNat, sizeRegs n)] none { kind := .store, lane := true, slot := 0, size := n, accs := [] } fun x t =>
    let v := x.dataWords t f.vc.toNat (sizeRegs n)
    (v.1 % 2 ^ (8 * n), 0, v.2))

/-- `vatom` (10 R250, R251): the compare value of `cas` is read from the destination. -/
def execVatom (f : LaneWord) (s : State) : Host.Outcome State Fault Refusal :=
  let w := wide f.ty
  let n := tyWidth f.ty / 8
  .next (s.laneMem f [(f.vc.toNat, w), (f.vd.toNat, w)] (some (f.vd.toNat, w))
    { kind := .atomic, lane := true, slot := 0, size := n, ty := f.ty, op := f.sub.toNat, dst := f.vd.toNat, accs := [] } fun x t =>
      let v := x.srcReg f.ty t f.vc.toNat
      let c := if f.sub = 7#4 then x.srcReg f.ty t f.vd.toNat else (0, false)
      (v.1, c.1, v.2 || c.2))

/-- `vred` (10 R250, R252). -/
def execVred (f : LaneWord) (s : State) : Host.Outcome State Fault Refusal :=
  let n := tyWidth f.ty / 8
  .next (s.laneMem f [(f.vc.toNat, wide f.ty)] none
    { kind := .reduce, lane := true, slot := 0, size := n, ty := f.ty, op := f.sub.toNat, accs := [] } fun x t =>
      let v := x.srcReg f.ty t f.vc.toNat
      (v.1, 0, v.2))

/-! ## Scratchpad accesses (10 R247) -/

/-- 13 R327: the swizzle. -/
def swizzle (z o : Nat) : Nat := if z = 0 then o else o ^^^ (bits o (z / 4 % 16 + 2) (z / 4 % 16) * 2 ^ (4 + z % 4))

/-- A lane's scratchpad access as its checks leave it: the lane, poisoned, its team and offset. -/
structure SpadAcc where
  lane : Nat
  bad : Bool
  /-- the address that `spadLoc` decodes, for the try buffer -/
  va : Word
  team : Nat
  off : Nat
  deriving DecidableEq, Repr, Inhabited

/-- 10 R240, R247 for a lane in plain mode. -/
def State.plainSpad (s : State) (f : LaneWord) (n t : Nat) : LaneFault × SpadAcc :=
  let a := (s.grp s.me).spadAddr f t
  match s.spadLoc (keyTeam s.me) a.addr.toNat n with
  | some (tm, o) => (if !a.bad && a.addr.toNat % n ≠ 0 then some (.misalign, a.addr) else none, { lane := t, bad := a.bad, va := a.addr, team := tm, off := o })
  | none =>
    (if a.bad then none else if a.addr.toNat % n ≠ 0 then some (.misalign, a.addr) else some (.spadBounds, a.addr),
     { lane := t, bad := a.bad, va := a.addr, team := 0, off := 0 })

/-- 10 R247 for a lane in mould mode, under a binding: an offset into the tile, whose address is checked as R240 says. The tile lies in the
allocation that holds the object (log entry 79). -/
def State.mouldSpad (s : State) (f : LaneWord) (n : Nat) (team : Nat) (b : Obj) (t : Nat) : LaneFault × SpadAcc :=
  let x := s.grp s.me
  let bad := x.vBad t f.va.toNat
  let o : Word := (x.vRaw t f.va.toNat).setWidth 64 + f.imm.signExtend 64
  let rep := BitVec.ofNat 64 b.tbase + o
  let off := b.tbase + swizzle b.z o.toNat
  let va : Nat := if team = keyTeam s.me then off else 0x1000000 + 2 ^ 20 * (s.tm team).member + off
  let outside := decide (rep.toNat ≥ (s.tm team).spad) || decide (off ≥ (s.tm team).spad)
  (if bad then none else if o.toNat % n ≠ 0 || rep.toNat % n ≠ 0 then some (.misalign, rep) else if outside || o.toNat + n > b.tsize then some (.spadBounds, rep) else none,
   { lane := t, bad, va := BitVec.ofNat 64 va, team, off })

/-- 10 R247: the object of a mould-mode access: its team and offset, or the trap that its checks give. -/
def State.mouldObj (s : State) (a : Word) : Except Cause (Nat × Nat) :=
  match s.spadLoc (keyTeam s.me) a.toNat 1 with
  | none => .error .spadBounds
  | some (t, o) =>
    if a.toNat % 32 ≠ 0 then .error .misalign
    else if s.objBroken t o || !(s.objAt t o).mv then .error .barrier
    else .ok (t, o)

/-- 09 R225: the bank-conflict cycles of an instruction's rows: rows of one bank are served in successive cycles. The base of an
allocation is taken as 2 KiB-aligned (log entry 22). -/
def conflictCycles (l : List SpadAcc) : Nat :=
  let rows := (l.map fun a => (a.team, a.off / 64)).dedup
  ((rows.map fun r => (rows.filter fun q => q.1 = r.1 && q.2 % 32 = r.2 % 32).length).foldl max 1) - 1

/-- A lane scratchpad instruction: the mould, the checks of every lane, and then `body` on the lanes that access. -/
def State.laneSpad (s : State) (f : LaneWord) (regs : List (Nat × Nat)) (n : Nat)
    (body : State → BitVec 16 → List SpadAcc → State) : State :=
  s.laneBody f ((f.va.toNat, 1) :: regs) fun m =>
    let x := s.grp s.me
    let go (loc : Nat → LaneFault × SpadAcc) : State :=
      let ls := (bodyLanes f m).map fun t => (t, loc t)
      let as := ls.map fun l => l.2.2
      let s1 := s.poisonAddr (as.map fun a => { lane := a.lane, bad := a.bad, addr := a.va })
      match lowestFault (ls.map fun l => (l.1, l.2.1)) with
      | some (c, k, a) => s1.trapL c k a
      | none => if (x.issueLL f).isNone then s.stallL 5 else body (s1.count s.me 0x0B (conflictCycles (as.filter fun a => !a.bad))) m as
    if x.fenced then s.stallL 7
    else if f.md.getLsbD 0 then
      let a := x.cap (f.vb.toNat % 16)
      match s.mouldObj a with
      | .error c => s.trapL c m a
      | .ok (t, o) => go (s.mouldSpad f n t (s.objAt t o))
    else go (s.plainSpad f n)

/-- The flag of a scratchpad instruction or prefetch: raised, and lowered at its landing. -/
def State.issueShort (s : State) (f : LaneWord) (m : BitVec 16) : State :=
  match (s.grp s.me).issueLL f with
  | none => s
  | some (y, flag) => (s.setGrp s.me (y.pendLL y.slot flag none (m = 0))).laneNext f m 1

/-- `vlds` (10 R247): poison is carried into the destination slots. -/
def execVlds (f : LaneWord) (s : State) : Host.Outcome State Fault Refusal :=
  let n := sizeOf f
  let d := (f.vd.toNat, sizeRegs n)
  .next (s.laneSpad f [d] n fun s m as =>
    let g := s.me
    if m ≠ 0 && (s.grp g).overflowsShadow [d] then s.abortGroup g 4 0
    else
      let o : MemOp := { kind := .load, lane := true, slot := 0, size := n, sext := f.ty = 1#4, dst := d.1,
                         bcast := if f.u = 1#1 then m else 0, accs := [] }
      let vals := as.map fun a =>
        let t := s.tm a.team
        (a, if a.bad then (List.replicate n 0, false) else (s.bufferedSpad g a.lane a.team a.off (t.bytesAt a.off n), t.badAt a.off))
      (s.onGrp g fun x => vals.foldl (fun x v => x.putLoad o v.1.lane v.2.1 v.2.2) x).issueShort f m)

/-- `vsts` (10 R247): in `try` it takes one entry of the buffer (08 R209); outside it waits for the lane stream's earlier loads (11 R271). Whether it clears a sector's poison is decided for each lane's
access by itself (log entry 61). -/
def execVsts (f : LaneWord) (s : State) : Host.Outcome State Fault Refusal :=
  let n := sizeOf f
  .next (s.laneSpad f [(f.vc.toNat, sizeRegs n)] n fun s m as =>
    let g := s.me
    let x := s.grp g
    let ds := (as.filter fun a => !a.bad).map fun a => (a, x.dataWords a.lane f.vc.toNat (sizeRegs n))
    let s1 := s.pconsIf (ds.any fun d => d.2.2)
    if x.inTry then
      match (s1.grp g).issueLL f with
      | none => s
      | some (y, flag) =>
        if ds.isEmpty then ((s1.setGrp g (y.lower flag)).laneNext f m 1)
        else
          let op : MemOp := { kind := .store, lane := true, slot := x.slot, size := n, spad := true, flag
                              accs := ds.map fun d => { lane := d.1.lane, va := d.1.va, data := d.2.1 % 2 ^ (8 * n) } }
          ((s1.setGrp g y).laneNext f m 1).bufferStore g op []
    else if x.awaits true && !ds.isEmpty then s.stallL 15
    else
      (ds.foldl (fun s d => s.onTm d.1.team fun t => t.storeAt d.1.off (bytesOfNat n (d.2.1 % 2 ^ (8 * n)))) s1).issueShort f m)

/-! ## Prefetch and fence (10 R248, R249) -/

/-- `vpf` (10 R248): what cannot be brought in is ignored. -/
def execVpf (f : LaneWord) (s : State) : Host.Outcome State Fault Refusal :=
  .next (s.laneBody f [addrRegs f true] fun m =>
    let g := s.me
    let x := s.grp g
    if x.fenced then s.stallL 7
    else if (x.issueLL f).isNone then s.stallL 5
    else if ((bodyLanes f m).map (x.globalAddr f (memOff f))).any fun a => !a.bad && s.prefetchMs g a.addr.toNat then s.abortSync g
    else
      let as := ((bodyLanes f m).map (x.globalAddr f (memOff f))).filter fun a => !a.bad
      if as.any fun a => s.prefetchBusy g a.addr.toNat then s.stallL 15
      else (as.foldl (fun s a => s.prefetch g a.addr.toNat f.hint.toNat) s).issueShort f m)

/-- 10 R249: do the conditions of a lane fence of a kind (1 acquire, 2 release, 3 full) hold? -/
def Group.laneFenceOk (x : Group) (kind : Nat) : Bool := !x.awaits true && (kind = 1 || !x.storesLeft true)

/-- The same with the write half of every proxied atomic done (11 R267). -/
def State.fenceOk (s : State) (g kind : Nat) : Bool := (s.grp g).laneFenceOk kind && (kind = 1 || s.proxy.isEmpty)

/-- `vfence` (10 R249): it acts whatever lanes are active; later lane memory instructions wait for its conditions. -/
def execVfence (f : LaneWord) (s : State) : Host.Outcome State Fault Refusal :=
  .next (s.laneBody f [] fun m =>
    let g := s.me
    let x := s.grp g
    let kind := f.sub.toNat
    if x.fenced then s.stallL 7
    else
      match x.issueLL f with
      | none => s.stallL 5
      | some (y, flag) =>
        if s.fenceOk g kind then
          let s1 := (s.setGrp g (y.pendLL x.slot flag none false)).laneNext f m 0
          if kind = 2 then s1 else s1.acquire g f.imm.toNat
        else
          match x.freeLog with
          | none => s.stallL 9
          | some e =>
            let o : MemOp := { kind := .fence, lane := true, slot := x.slot, size := 0, op := kind, scope := f.imm.toNat, flag, log := some e,
                               accs := [{ lane := 16, va := 0 }] }
            (s.setGrp g (y.takeLog e o)).laneNext f m 0)

/-! ## Arrivals (17 R413) -/

/-- One lane's arrival in order: the statuses so far, and the state. -/
def State.arriveLanes (s : State) (bytes : Nat → Nat) : List SpadAcc → List (Nat × Nat) × State
  | [] => ([], s)
  | a :: as =>
    if a.bad then
      let r := s.arriveLanes bytes as
      ((a.lane, 4) :: r.1, r.2)
    else
      let q := (s.arriveAt a.team a.off 1 0 (bytes a.lane) none).getD (3, s)
      let r := (q.2.countRefusal s.me q.1).arriveLanes bytes as
      ((a.lane, q.1) :: r.1, r.2)

/-- 17 R407 for a lane: the address is decoded, aligned, not poisoned, and its object not broken. -/
def State.laneObj (s : State) (f : LaneWord) (t : Nat) : LaneFault × SpadAcc :=
  let x := s.grp s.me
  let base := if f.kind = 1#2 then x.cap (f.vb.toNat % 16) else 0
  let r := x.srcReg 0#4 t f.va.toNat
  let a : Word := base + BitVec.ofNat 64 r.1 + f.imm.signExtend 64
  match s.spadLoc (keyTeam s.me) a.toNat 1 with
  | none => (some (.spadBounds, a), { lane := t, bad := r.2, va := a, team := 0, off := 0 })
  | some (tm, o) =>
    (if a.toNat % 32 ≠ 0 then some (.misalign, a) else if !r.2 && s.objBroken tm o then some (.barrier, a) else none,
     { lane := t, bad := r.2, va := a, team := tm, off := o })

/-- `varrive` (17 R413): inside `try` it aborts whatever lanes are active (R407); it is a release of the group's earlier accesses (11 R281). -/
def execVarrive (f : LaneWord) (s : State) : Host.Outcome State Fault Refusal :=
  let tx := f.sub = 1#4
  .next (s.laneBody f ((f.va.toNat, 1) :: (f.vd.toNat, 1) :: if tx then [(f.vc.toNat, 1)] else []) fun m =>
    let g := s.me
    let x := s.grp g
    if x.fenced then s.stallL 7
    else if x.inTry then s.abortSync g
    else
      let ls := (bodyLanes f m).map fun t => (t, s.laneObj f t)
      match lowestFault (ls.map fun l => (l.1, l.2.1)) with
      | some (c, k, a) => s.trapL c k a
      | none =>
        if (x.issueLL f).isNone then s.stallL 5
        else if m ≠ 0 && (!x.queued.isEmpty || x.storesLeft true || x.storesLeft false || x.awaits true || !s.proxy.isEmpty) then s.stallL 15
        else
          let as := ls.map fun l => l.2.2
          let amt (t : Nat) : Nat × Bool := if tx then x.srcReg 0#4 t f.vc.toNat else (0, false)
          let s1 := (s.poisonAddr (as.map fun a => { lane := a.lane, bad := a.bad, addr := a.va })).pconsIf
            (as.any fun a => !a.bad && (amt a.lane).2)
          let r := s1.arriveLanes (fun t => (amt t).1) as
          (r.2.onGrp g fun y => y.vResults f m f.vd.toNat 1 r.1).issueShort f m)

end Sys2Proof.Machine
end

