-- ==== Sys2Proof/Machine/NearBank.lean ====
section
/-! DEFINITION. Near-bank microprograms: `nbload`, `nbrun`, `nbpoll` and the runs that Rennet units perform (10 R257 to R262, 04 R95). -/

namespace Sys2Proof.Machine

/-! ## Checking a microprogram (03 R78, 10 R259) -/

/-- A word of a microprogram as `nbload` reads it. -/
def microAt (ws : List (BitVec 32)) (i : Nat) : Option Instr :=
  match ws[i]? with
  | some w => (decodeMicro w).toOption
  | none => none

/-- Does a word access memory? -/
def isMicroMem (i : Option Instr) : Bool :=
  match i with
  | some (.nld ..) => true
  | some (.nst ..) => true
  | _ => false

/-- The index at which the segment that holds word `i` starts: after the `nsync` before it. -/
def segStart (ws : List (BitVec 32)) (i : Nat) : Nat :=
  (List.range i).foldl (fun s j => if microAt ws j = some .nsync then j + 1 else s) 0

/-- 10 R259: is word `i` one that `nbload` refuses? -/
def microOffends (ws : List (BitVec 32)) (i : Nat) : Bool :=
  let last := ws.length - 1
  let st := segStart ws i
  match microAt ws i with
  | none => true
  | some x =>
    (if i = last then x ≠ .nend else x = .nend) ||
    decide (i - st + 1 > 16) ||
    (isMicroMem (some x) && decide (((List.range (i + 1 - st)).filter fun j => isMicroMem (microAt ws (st + j))).length > 8)) ||
    (match x with
     | .nloop l =>
       let t := l.toNat
       i = 0 || microAt ws (i - 1) ≠ some .nsync || decide (t > i) || (t ≠ 0 && microAt ws (t - 1) ≠ some .nsync)
     | _ => false)

/-- The first word that `nbload` refuses. -/
def firstOffence (ws : List (BitVec 32)) : Option Nat := (List.range ws.length).find? fun i => microOffends ws i

/-- A range that an instruction of a stream reads as a consumption (03 R91): bytes of a poisoned sector read as zero. -/
def State.readConsumed (s : State) (g : Nat) (who : Who) (va n : Nat) : Except (Cause × Nat) (List Byte × Bool) :=
  match s.readOwn g who va n with
  | .error e => .error e
  | .ok ds => .ok (consumedBytes ds, ds.any Prod.snd)

/-- The words that bytes hold. -/
def microWords (bs : List Byte) : List (BitVec 32) :=
  (List.range (bs.length / 4)).map fun i => BitVec.ofNat 32 (natOfBytes ((bs.drop (4 * i)).take 4))

/-- `nbload` (10 R259): the words are read, then the channel of S(sb) is found, then the words are checked (log entry 53). -/
def execNbload (n b a d : BitVec 6) (s : State) : Host.Outcome State Fault Refusal :=
  let g := s.me
  let who := s.whoIs g (s.grp g).kernel
  let va := s.rs a
  let vb := s.rs b
  let s1 := s.usesAt [a, b] []
  let len := 4 * (n.toNat + 1)
  if (s.grp g).inTry then .next (s.abortSync g)
  else if va.toNat % 4 ≠ 0 then .next (s1.trapS .misalign va)
  else if s.rangeBusy who va.toNat len .read then .next (s.stallS 15)
  else
    match s.readConsumed g who va.toNat len with
    | .error (c, x) => .next ({ s1 with free := s1.free + len }.trapS c (BitVec.ofNat 64 x))
    | .ok (bs, bad) =>
      let ws := microWords bs
      let s1 := s1.touchRange who va.toNat len
      match s.xlate who vb.toNat .read with
      | .error c => .next (s1.trapS c vb)
      | .ok x =>
        let s1 := s1.touch who vb.toNat
        let s2 := if bad then s1.consumed g false else s1
        if x.remote || x.leaf.host then .next (s1.trapS .queue vb)
        else
          match firstOffence ws with
          | some i => .next (s2.trapS .illegal (va + 4 * BitVec.ofNat 64 i))
          | none =>
            let u := s.homeOf x.pa
            match KMap.freeFrom (s.unitAt u).slots 0 8 with
            | none => .next (s2.finish d (BitVec.allOnes 64))
            | some i =>
              let s3 := s2.onUnit u fun y => { y with slots := KMap.put i { words := ws, team := keyTeam g } y.slots }
              .next (s3.finish d (BitVec.ofNat 64 (8 * u + i)))

/-! ## Queueing a run (10 R260) -/

/-- The fields of a run descriptor. -/
structure RunDesc where
  base : Nat → Word
  stride : Nat → Nat
  count : Nat
  start : Nat
  wmask : Nat
  zero : Bool

/-- The fields in a descriptor's 64 bytes. -/
def runDesc (b : List Byte) : RunDesc :=
  { base := fun i => BitVec.ofNat 64 (recField b (8 * i) 8), stride := fun i => recField b (0x20 + 4 * i) 4, count := recField b 0x30 4,
    start := recField b 0x34 4, wmask := recField b 0x38 1, zero := (b.drop 0x39).all fun x => x = 0 }

/-- The streams that a microprogram names, and those that it writes: an `nld` or `nst` names one; an `nrow` mask, which is timing only, does not
(log entry 75). -/
def namedStreams (ws : List (BitVec 32)) : List Nat × List Nat :=
  ((List.range ws.length).filterMap (fun i => match microAt ws i with
      | some (.nld _ _ k) => some k.toNat
      | some (.nst _ _ k) => some k.toNat
      | _ => none),
   (List.range ws.length).filterMap (fun i => match microAt ws i with
      | some (.nst _ _ k) => some k.toNat
      | _ => none))

/-- The streams a descriptor uses. -/
def RunDesc.used (r : RunDesc) : List Nat := (List.range 4).filter fun i => r.base i ≠ 0

/-- The address of a row. -/
def RunDesc.row (r : RunDesc) (i k : Nat) : Word := r.base i + BitVec.ofNat 64 (k * r.stride i)

/-- 10 R260 check 1. -/
def RunDesc.fieldsBad (r : RunDesc) (ws : List (BitVec 32)) : Bool :=
  let n := namedStreams ws
  ((List.range 4).any fun i => r.stride i % 32 ≠ 0) || !(1 ≤ r.count && r.count ≤ 65536) || r.start ≥ r.count || r.wmask ≥ 16 ||
    !r.zero || (n.1.any fun i => r.base i = 0) || n.2.any fun i => !r.wmask.testBit i

/-- 10 R260 check 3: the first row of a stream that is unmapped or outside the page of the start row. -/
def State.rowOutside (s : State) (who : Who) (r : RunDesc) (i : Nat) : Option Word :=
  let va := (r.row i r.start).toNat
  if va ≥ 2 ^ 52 then some (r.row i r.start)
  else
    match s.leafFor who va with
    | none => some (r.row i r.start)
    | some l =>
      let size := 2 ^ l.bits
      let off := va % size
      if off + 256 > size then some (r.row i r.start)
      else if r.stride i = 0 then none
      else
        let k := r.start + (size - 256 - off) / r.stride i + 1
        if k < r.count then some (r.row i k) else none

/-- 10 R260 check 4: may a stream's page not be run over? -/
def State.pageRefused (s : State) (who : Who) (r : RunDesc) (i : Nat) : Bool :=
  match s.leafFor who (r.row i r.start).toNat with
  | none => true
  | some l =>
    l.host || !l.ms || l.dev ≠ s.links.devnum.toNat || !permits l .read who.kernel || (r.wmask.testBit i && !permits l .write who.kernel)

/-- 15 R365: the fault of the token check of a row of a stream, which is made when the run is queued, after the checks of 10 R260 (log entry
45). -/
def State.rowRefused (s : State) (who : Who) (r : RunDesc) (i k : Nat) : Option Cause :=
  let va := (r.row i k).toNat
  [va, va + 224].findSome? fun a =>
    (if r.wmask.testBit i then [AccKind.read, .write] else [.read]).findSome? fun m =>
      match s.xlate who a m with
      | .error c => some c
      | .ok _ => none

/-- The first row of a stream that the token check refuses. -/
def State.rowsRefused (s : State) (who : Who) (r : RunDesc) (i : Nat) : Option (Cause × Word) :=
  (List.range (r.count - r.start)).findSome? fun k => (s.rowRefused who r i (r.start + k)).map fun c => (c, r.row i (r.start + k))

/-- The traps of 10 R260's checks 1 to 4, in order, with `xaddr`, and after them those of the token check. -/
def State.runBad (s : State) (who : Who) (r : RunDesc) (ws : List (BitVec 32)) (vb : Word) : Option (Cause × Word) :=
  if r.fieldsBad ws then some (.queue, vb)
  else
    match r.used.find? fun i => (r.base i).toNat % 32 ≠ 0 with
    | some i => some (.misalign, r.base i)
    | none =>
      match r.used.findSome? fun i => s.rowOutside who r i with
      | some a => some (.page, a)
      | none =>
        match r.used.find? fun i => s.pageRefused who r i with
        | some i => some (.perm, r.row i r.start)
        | none => r.used.findSome? fun i => s.rowsRefused who r i

/-- The slot that a handle names, where the executing team holds it. -/
def State.slotOf (s : State) (h : Word) : Option (Nat × NbSlot) :=
  let u := h.toNat / 8
  match KMap.find (h.toNat % 8) (s.unitAt u).slots with
  | some x => if u < 384 && x.team = keyTeam s.me then some (u, x) else none
  | none => none

/-- The physical address of a stream's start row. -/
def State.rowPa (s : State) (who : Who) (va : Nat) : Nat :=
  match s.leafFor who va with
  | some l => l.pa + va % 2 ^ l.bits
  | none => 0

/-- `nbrun` (10 R260). -/
def execNbrun (b a d : BitVec 6) (s : State) : Host.Outcome State Fault Refusal :=
  let g := s.me
  let who := s.whoIs g (s.grp g).kernel
  let vb := s.rs b
  let s1 := s.usesAddr b [a]
  if (s.grp g).inTry then .next (s.abortSync g)
  else
    match s.slotOf (s.rs a) with
    | none => .next (s1.trapS .queue (s.rs a))
    | some (u, slot) =>
      if vb.toNat % 64 ≠ 0 then .next (s1.trapS .misalign vb)
      else if s.rangeBusy who vb.toNat 64 .read || !s.released g then .next (s.stallS 15)
      else
        match s.readConsumed g who vb.toNat 64 with
        | .error (c, x) => .next ({ s1 with free := s1.free + 64 }.trapS c (BitVec.ofNat 64 x))
        | .ok (bs, bad) =>
          let s1 := s1.touchRange who vb.toNat 64
          let s2 := if bad then s1.consumed g false else s1
          let r := runDesc bs
          match s.runBad who r slot.words vb with
          | some e => .next (s2.trapS e.1 e.2)
          | none =>
            let y := s.unitAt u
            if y.queue.length ≥ 8 then .next (s2.finish d (BitVec.allOnes 64))
            else
              let run : NbRun :=
                { seq := y.seq, team := keyTeam g, g, after := (s.joins.filter fun j => j.rennet && j.g = g).map fun j => j.id
                  prog := slot.words
                  streams := r.used.map fun i => (i, (r.row i r.start, s.rowPa who (r.row i r.start).toNat))
                  strides := r.used.map fun i => (i, r.stride i)
                  count := r.count, start := r.start, wmask := BitVec.ofNat 4 r.wmask }
              let s3 := s2.onUnit u fun y => { y with queue := y.queue ++ [run], seq := y.seq + 1 }
              .next (s3.finish d (BitVec.ofNat 64 (65536 * u + y.seq % 65536)))

/-! ## Polling (10 R262) -/

/-- The run that a ticket names, queued or ended, of a team that has not ended. -/
def State.runOf (s : State) (t : Word) : Option NbRun :=
  let u := t.toNat / 65536
  if u ≥ 512 then none
  else ((s.unitAt u).queue ++ (s.unitAt u).done).find? fun r => r.seq % 65536 = t.toNat % 65536 && (s.tm r.team).res ≠ .ended

/-- 10 R262: the word that `nbpoll` writes. -/
def NbRun.report (r : NbRun) : Word := BitVec.ofNat 64 (2 ^ 32 * r.rows + (if r.pois then 16 else 0) + r.state)

/-- `nbpoll` (10 R262). -/
def execNbpoll (e : BitVec 1) (a d : BitVec 6) (s : State) : Host.Outcome State Fault Refusal :=
  let g := s.me
  let s1 := s.uses [a]
  if (s.grp g).inTry then .next (s.abortSync g)
  else
    match s.runOf (s.rs a) with
    | none => .next (s1.finish d 15)
    | some r =>
      if e = 1#1 && r.state < 3 then .next (s.stallS 15)
      else
        let s2 := if r.pois then s1.consumed g false else s1
        let s3 := if r.state ≥ 3 then s2.acquire g 4 else s2
        .next (s3.finish d r.report)

/-! ## The run of a unit (10 R257, R258, R261) -/

/-- The Rennet unit whose step this is. -/
def State.myUnit (s : State) : Nat :=
  match s.cur with
  | .rennet u => u
  | _ => 0

/-- The run in progress on a unit. -/
def Rennet.running (y : Rennet) : Option NbRun :=
  match y.queue with
  | r :: _ => if r.state = 1 then some r else none
  | [] => none

/-- Stores the run in progress. -/
def Rennet.setRun (y : Rennet) (r : NbRun) : Rennet := { y with queue := r :: y.queue.drop 1 }

/-- Performs a micro-operation on the run in progress; where none runs, nothing happens. -/
def State.onRun (s : State) (f : State → NbRun → State) : State :=
  match (s.unitAt s.myUnit).running with
  | some r => f s r
  | none => s

/-- Stores the run of the unit, its counter at the next word. -/
def State.runNext (s : State) (r : NbRun) : State := s.onUnit s.myUnit fun y => y.setRun { r with ctr := r.ctr + 1 }

/-- The run ends with a state: its accumulators are discarded, and its report is kept until 64 later runs have ended (10 R262,
04 R95). -/
def State.runEnd (s : State) (r : NbRun) (st : Nat) : State :=
  (s.onUnit s.myUnit fun y =>
    { y with queue := y.queue.drop 1, done := ({ r with state := st, n := [], np := [] } :: y.done).take 64 }).settleJoins.lateEnd r.team

/-- The device physical address of sector `k` of the current row of a stream. A row at or above count, which an access after the last `nloop`
meets and no check has seen, follows on in physical address (log entry 76). -/
def NbRun.sectorPa (r : NbRun) (i k : Nat) : Nat :=
  (KMap.read ((0 : Word), 0) i r.streams).2 + (r.r - r.start) * KMap.read 0 i r.strides + 32 * k

/-- An accumulator. -/
def NbRun.acc (r : NbRun) (i : BitVec 3) : BitVec 256 := KMap.read 0 i.toNat r.n

/-- The poison bit of an accumulator. -/
def NbRun.accBad (r : NbRun) (i : BitVec 3) : Bool := KMap.read false i.toNat r.np

/-- Writes an accumulator with its poison bit. -/
def NbRun.setAcc (r : NbRun) (i : BitVec 3) (v : BitVec 256) (p : Bool) : NbRun :=
  { r with n := KMap.write 0 i.toNat v r.n, np := KMap.write false i.toNat p r.np }

/-- Element `i` of an accumulator. -/
def nElem (t : BitVec 4) (v : BitVec 256) (i : Nat) : Nat := v.toNat / 2 ^ ((if t = 6#4 then 16 else 32) * i) % 2 ^ (if t = 6#4 then 16 else 32)

/-- An accumulator of elements. -/
def nPack (t : BitVec 4) (f : Nat → Nat) : BitVec 256 :=
  let w := if t = 6#4 then 16 else 32
  BitVec.ofNat 256 ((List.range (256 / w)).foldr (fun i acc => f i % 2 ^ w + 2 ^ w * acc) 0)

/-- 10 R258: the immediate as an element of a type. -/
def nImm (t : BitVec 4) (i : BitVec 12) : Nat :=
  if t = 4#4 || t = 6#4 then (fmtOf t).round 0 false (FVal.ofInt i.toInt) else wrap i.toInt 32

/-- An accumulator that holds the immediate in every element. -/
def nImmAll (t : BitVec 4) (i : BitVec 12) : BitVec 256 := nPack t fun _ => nImm t i

/-- 10 R258: the element results of the arithmetic micro-operations; `z` is the destination's element before. -/
def nMulE (t : BitVec 4) (sat : Bool) (x y : Nat) : Nat :=
  if tyFloat t then fMul (fmtOf t) 0 false x y else narrow t sat (intVal t x * intVal t y)

/-- Element sum. -/
def nAddE (t : BitVec 4) (sat : Bool) (x y : Nat) : Nat :=
  if tyFloat t then fAdd (fmtOf t) 0 false x y else narrow t sat (intVal t x + intVal t y)

/-- Element multiply-accumulate, exact and rounded once. -/
def nMacE (t : BitVec 4) (sat : Bool) (x y z : Nat) : Nat :=
  if tyFloat t then fFma (fmtOf t) 0 false x y z else narrow t sat (intVal t x * intVal t y + intVal t z)

/-- The lesser, or the greater, of two elements. -/
def nMinMaxE (t : BitVec 4) (greater : Bool) (x y : Nat) : Nat :=
  if tyFloat t then fMinMax (fmtOf t) greater x y
  else if greater then (if intVal t x < intVal t y then y else x) else (if intVal t y < intVal t x then y else x)

/-- A result element by element, from the accumulator `a`, a second operand and the destination. -/
def State.nArith (s : State) (d : BitVec 3) (t : BitVec 4) (a : BitVec 3) (b : NbRun → BitVec 256 × Bool) (mac : Bool)
    (f : Nat → Nat → Nat → Nat) : State :=
  s.onRun fun s r =>
    let x := r.acc a
    let y := b r
    let z := r.acc d
    s.runNext (r.setAcc d (nPack t fun i => f (nElem t x i) (nElem t y.1 i) (nElem t z i)) (r.accBad a || y.2 || (mac && r.accBad d)))

/-- The second operand from an accumulator. -/
def nReg (b : BitVec 3) (r : NbRun) : BitVec 256 × Bool := (r.acc b, r.accBad b)

/-- The second operand from the immediate. -/
def nImmB (t : BitVec 4) (i : BitVec 12) (_ : NbRun) : BitVec 256 × Bool := (nImmAll t i, false)

/-! ## Micro-operations -/

/-- `nrow` (10 R258): timing only. -/
def execNrow (_m : BitVec 4) (s : State) : Host.Outcome State Fault Refusal := .next (s.onRun fun s r => s.runNext r)

/-- `nld` (10 R258): a sector homed elsewhere ends the run with REMOTE (R257); one of a lost unit is decoded (18 R427). -/
def execNld (d k : BitVec 3) (i : BitVec 2) (s : State) : Host.Outcome State Fault Refusal :=
  .next (s.onRun fun s r =>
    let pa := r.sectorPa i.toNat k.toNat
    if s.homeOf pa ≠ s.myUnit then s.runEnd r 4
    else if s.inRepair (s.locate pa) then s
    else if s.bad pa then (s.countDecode pa).runNext (r.setAcc d 0 true)
    else (s.countDecode pa).runNext (r.setAcc d (BitVec.ofNat 256 (natOfBytes (s.loadBytes pa 32))) false))

/-- `nst` (10 R258). As `nld`, it waits for post-package repair of its row (16 R401). -/
def execNst (a k : BitVec 3) (i : BitVec 2) (s : State) : Host.Outcome State Fault Refusal :=
  .next (s.onRun fun s r =>
    let pa := r.sectorPa i.toNat k.toNat
    if s.homeOf pa ≠ s.myUnit then s.runEnd r 4
    else if s.inRepair (s.locate pa) then s
    else
      let s1 := (s.store pa (bytesOfNat 32 (r.acc a).toNat)).touchImages pa
      let s2 := if r.accBad a then s1.setBad (pa / 32) true else s1
      s2.runNext { r with pois := r.pois || r.accBad a })

/-- `nmul` of two accumulators (10 R258). -/
def execNmul (d a b : BitVec 3) (t : BitVec 4) (s1 : BitVec 1) (s : State) : Host.Outcome State Fault Refusal :=
  .next (s.nArith d t a (nReg b) false fun x y _ => nMulE t (s1 = 1#1) x y)

/-- `nmul` with an immediate (10 R258). -/
def execNmulImm (d a : BitVec 3) (t : BitVec 4) (s1 : BitVec 1) (i : BitVec 12) (s : State) : Host.Outcome State Fault Refusal :=
  .next (s.nArith d t a (nImmB t i) false fun x y _ => nMulE t (s1 = 1#1) x y)

/-- `nadd` of two accumulators (10 R258). -/
def execNadd (d a b : BitVec 3) (t : BitVec 4) (s1 : BitVec 1) (s : State) : Host.Outcome State Fault Refusal :=
  .next (s.nArith d t a (nReg b) false fun x y _ => nAddE t (s1 = 1#1) x y)

/-- `nadd` with an immediate (10 R258). -/
def execNaddImm (d a : BitVec 3) (t : BitVec 4) (s1 : BitVec 1) (i : BitVec 12) (s : State) : Host.Outcome State Fault Refusal :=
  .next (s.nArith d t a (nImmB t i) false fun x y _ => nAddE t (s1 = 1#1) x y)

/-- `nmac` of two accumulators (10 R258). -/
def execNmac (d a b : BitVec 3) (t : BitVec 4) (s1 : BitVec 1) (s : State) : Host.Outcome State Fault Refusal :=
  .next (s.nArith d t a (nReg b) true fun x y z => nMacE t (s1 = 1#1) x y z)

/-- `nmac` with an immediate (10 R258). -/
def execNmacImm (d a : BitVec 3) (t : BitVec 4) (s1 : BitVec 1) (i : BitVec 12) (s : State) : Host.Outcome State Fault Refusal :=
  .next (s.nArith d t a (nImmB t i) true fun x y z => nMacE t (s1 = 1#1) x y z)

/-- `nmin` of two accumulators (10 R258). -/
def execNmin (d a b : BitVec 3) (t : BitVec 4) (s : State) : Host.Outcome State Fault Refusal :=
  .next (s.nArith d t a (nReg b) false fun x y _ => nMinMaxE t false x y)

/-- `nmin` with an immediate (10 R258). -/
def execNminImm (d a : BitVec 3) (t : BitVec 4) (i : BitVec 12) (s : State) : Host.Outcome State Fault Refusal :=
  .next (s.nArith d t a (nImmB t i) false fun x y _ => nMinMaxE t false x y)

/-- `nmax` of two accumulators (10 R258). -/
def execNmax (d a b : BitVec 3) (t : BitVec 4) (s : State) : Host.Outcome State Fault Refusal :=
  .next (s.nArith d t a (nReg b) false fun x y _ => nMinMaxE t true x y)

/-- `nmax` with an immediate (10 R258). -/
def execNmaxImm (d a : BitVec 3) (t : BitVec 4) (i : BitVec 12) (s : State) : Host.Outcome State Fault Refusal :=
  .next (s.nArith d t a (nImmB t i) false fun x y _ => nMinMaxE t true x y)

/-- `nxor` of two accumulators (10 R258). -/
def execNxor (d a b : BitVec 3) (s : State) : Host.Outcome State Fault Refusal :=
  .next (s.onRun fun s r => s.runNext (r.setAcc d (r.acc a ^^^ r.acc b) (r.accBad a || r.accBad b)))

/-- `nxor` with the immediate sign-extended to 32 bits and repeated (10 R258). -/
def execNxorImm (d a : BitVec 3) (i : BitVec 12) (s : State) : Host.Outcome State Fault Refusal :=
  .next (s.onRun fun s r => s.runNext (r.setAcc d (r.acc a ^^^ nImmAll 1#4 i) (r.accBad a)))

/-- `nmov` of an accumulator (10 R258). -/
def execNmov (d a : BitVec 3) (s : State) : Host.Outcome State Fault Refusal :=
  .next (s.onRun fun s r => s.runNext (r.setAcc d (r.acc a) (r.accBad a)))

/-- `nmov` of the converted immediate (10 R258). -/
def execNmovImm (d : BitVec 3) (t : BitVec 4) (i : BitVec 12) (s : State) : Host.Outcome State Fault Refusal :=
  .next (s.onRun fun s r => s.runNext (r.setAcc d (nImmAll t i) false))

/-- `nloop` (10 R258). -/
def execNloop (l : BitVec 6) (s : State) : Host.Outcome State Fault Refusal :=
  .next (s.onRun fun s r =>
    s.onUnit s.myUnit fun y => y.setRun { r with r := r.r + 1, ctr := if r.r + 1 < r.count then l.toNat else r.ctr + 1 })

/-- The frames that a run's rows lie in (10 R261). -/
def NbRun.frames (r : NbRun) : List Nat :=
  r.streams.flatMap fun e => (List.range (r.count - r.start)).flatMap fun i =>
    let a := e.2.2 + i * KMap.read 0 e.1 r.strides
    [a / 2 ^ 21, (a + 255) / 2 ^ 21]

/-! ## What waits at a unit (10 R261) -/

/-- Did this group issue a copy, not one that had its number before? Its operand-log entry stands until the copy is over. -/
def Group.issuedCopy (x : Group) (id : Nat) : Bool := x.oplog.any fun e => match e.2.copy with | some c => c.id = id | none => false

/-- 13 R326, 11 R283: a copy acts only after the stores and loads of its group before it have been performed at their homes; a store
whose fault is held has not been. -/
def State.copyMayAct (s : State) (t : Xfer) : Bool :=
  match (KMap.find t.g s.groups).filter fun x => x.issuedCopy t.id with
  | some x => x.storeq.isEmpty && !x.holdsFault && !x.storesOut true && !x.storesOut false &&
      !(x.oplog.any fun e => (e.2.kind = .load || e.2.kind = .loadSpec || e.2.kind = .atomic) && !e.2.accs.isEmpty)
  | none => !(s.residuals.any fun r => r.1 = t.g)

/-- 13 R317, R323: has a `vcast` of a queue landings still to come? Its next operation waits for them, so that the queue's order and that of
its counts are kept at each member. -/
def State.casting (s : State) (core q : Nat) : Bool := s.casts.any fun c => c.core = core && c.queue = q

/-- The translation that a piece carries. -/
def Piece.xlat (p : Piece) : Xlat := { pa := p.pa, leaf := p.leaf, remote := p.remote, tok := p.tok }

/-- 13 R331: a field of a notice. -/
def Notice.field (n : Notice) (o k : Nat) : Nat := natOfBytes ((n.bytes.drop o).take k)

/-- 15 R364, R366: the accessor that a pull reads as: the receiving cluster, with the read share that the notice holds, from a Ladle queue of
a core. -/
def State.pullWho (s : State) (core q t : Nat) (n : Notice) : Who :=
  let w : Who := { s.whoIs (streamKey t 64) false with
    holders := [(s.tm t).cluster], shares := n.field 0x18 3 :: (s.cl (s.tm t).cluster).shares }
  w.onQueue core q

/-- Where the sectors of the next piece of a pull lie, up to its 128-byte line's end. -/
def State.pullXlats (s : State) (core q : Nat) (n : Notice) (t done : Nat) : List Xlat :=
  let src := n.field 0 8
  let k := min (n.field 8 4 - done) (128 - (src + done) % 128)
  (sectorPieces (src + done) k k).filterMap fun p => (s.xlate (s.pullWho core q t n) p.1 .read).toOption

/-- Is the unit the home of a memory-side address? -/
def State.atUnit (s : State) (u : Nat) (x : Xlat) : Bool := x.leaf.ms && !x.leaf.host && !x.remote && s.homeOf x.pa = u

/-- Does what is no stream's wait at a unit: the operation that a Ladle queue performs next, or the store that an exited group does? What comes in
over a link or a port waits outside the unit (log entry 77). -/
def State.othersWait (s : State) (u : Nat) : Bool :=
  (s.cores.any fun c => c.2.ladle.any fun q =>
    match if s.casting c.1 q.1 then none else q.2.head? with
    | some (.xfer t) => !t.sent && s.copyMayAct t && t.pieces.any fun p => !p.void && s.atUnit u p.xlat
    | some (.pull n t done _) => (s.pullXlats c.1 q.1 n t done).any (s.atUnit u)
    | _ => false) ||
  (s.residuals.any fun r =>
    match r.2.storeq.head? with
    | some o => o.fault.isNone && o.accs.any fun a => !a.sent && match s.storeXlat r.1 o a with | some x => s.atUnit u x | none => false
    | none => false)

/-- Does a run name a frame that the Turner is moving (10 R261)? -/
def State.turnerWants (s : State) (r : NbRun) : Bool := s.turner.bounds.any fun b => r.frames.contains b.2.frame

/-- Is the word a run has reached directly followed by `nloop`? -/
def NbRun.loopNext (r : NbRun) : Bool :=
  match microAt r.prog (r.ctr + 1) with
  | some (.nloop _) => true
  | _ => false

/-- `nsync` (10 R258, R261, R262): a row ends where `nloop` follows; the run ends MOVED there when the Turner waits for it, is
suspended when ordinary operations wait, a stream's or another agent's, and else goes on. -/
def execNsync (s : State) : Host.Outcome State Fault Refusal :=
  .next (s.onRun fun s r =>
    let r1 := if r.loopNext && decide (r.r < r.count) then { r with rows := r.rows + 1 } else r
    if r.loopNext && s.turnerWants r then s.runEnd r1 5
    else if (s.unitAt s.myUnit).waiting.isEmpty && !s.othersWait s.myUnit then s.runNext r1
    else s.onUnit s.myUnit fun y => { y.setRun { r1 with ctr := r1.ctr + 1, state := 2 } with served := 0 })

/-- `nend` (10 R258, R262): a run that has brought r to count has completed every row. -/
def execNend (s : State) : Host.Outcome State Fault Refusal :=
  .next (s.onRun fun s r => s.runEnd { r with rows := if r.r < r.count then r.rows + 1 else r.count - r.start } 3)

/-- `nnop` (10 R258). -/
def execNnop (s : State) : Host.Outcome State Fault Refusal := .next (s.onRun fun s r => s.runNext r)

/-! ## Events of a unit -/

/-- The event RUN_START (10 R261): the head of the queue starts, where nothing runs and no join point holds it (05 R131). -/
def execRunStart (u : Nat) (s : State) : Host.Outcome State Fault Refusal :=
  match (s.unitAt u).queue with
  | r :: _ =>
    if r.state = 0 && r.after.isEmpty then
      .next (s.onUnit u fun y => y.setRun { r with state := 1, r := r.start, ctr := 0, n := [], np := [] })
    else .next s
  | [] => .next s

/-- Is the arbitration window of a unit's suspended run over (10 R261): 32 operations served, or none waiting, or no room in it for the first
that waits? -/
def State.windowOver (s : State) (u : Nat) : Bool :=
  let y := s.unitAt u
  decide (y.served ≥ 32) ||
    match y.waiting.find? s.waitsStill with
    | some o => decide (y.served + o.n > 32)
    | none => !s.othersWait u

/-- The event RUN_RESUME (10 R261): the suspended run goes on after the arbitration window. -/
def execRunResume (u : Nat) (s : State) : Host.Outcome State Fault Refusal :=
  match (s.unitAt u).queue with
  | r :: _ => if r.state = 2 && s.windowOver u then .next (s.onUnit u fun y => y.setRun { r with state := 1 }) else .next s
  | [] => .next s

end Sys2Proof.Machine
end

