-- ==== Sys2Proof/Machine/Copies.lean ====
section
/-! DEFINITION. Copies by the Ladle (13 R317 to R334): issue of `vcopy.in`, `vcopy.out` and `vcast`, the transfer operations of the
queues, held counts, and kick pulls. -/

namespace Sys2Proof.Machine

/-! ## Issue (13 R318 to R322) -/

/-- The fields of the copy word (13 R318). -/
def copySize (f : LaneWord) : Nat := 2 ^ (f.sub.toNat % 8)
/-- the queue -/
def copyQueue (f : LaneWord) : Nat := f.md.toNat % 4
/-- mould mode -/
def copyMould (f : LaneWord) : Bool := f.md.getLsbD 2
/-- the offset of L -/
def copyL (f : LaneWord) : Nat := 32 * (f.imm.toNat % 2 ^ 15)
/-- the offset of RU, under R = 1 -/
def copyRu (f : LaneWord) : Option Nat := if f.sub.getLsbD 3 then some (32 * (f.imm.toNat / 2 ^ 15 % 2 ^ 15)) else none
/-- the member mask of `vcast` -/
def castMask (f : LaneWord) : Nat := f.imm.toNat / 2 ^ 15 % 2 ^ 12

/-- The teams that a copy's scratchpad side is in: the members named by a `vcast`, else the issuing team. -/
def State.copyTeams (s : State) (f : LaneWord) (kind : MemKind) : List Nat :=
  if kind = .cast then
    (((s.cl (s.gCluster s.me)).members.zipIdx).filter fun e => (castMask f).testBit e.2).map Prod.fst
  else [keyTeam s.me]

/-- 13 R320 step 1: the object checks. -/
def State.copyObjects (s : State) (f : LaneWord) (kind : MemKind) : LaneFault :=
  let spad := (s.gTeam s.me).spad
  let c := s.cl (s.gCluster s.me)
  let bindAt := if kind = .copyOut then (copyRu f).getD 0 else copyL f
  if copyL f ≥ spad then some (.spadBounds, BitVec.ofNat 64 (copyL f))
  else if (match copyRu f with | some o => decide (kind = MemKind.copyOut ∧ o ≥ spad) | none => false) then
    some (.spadBounds, BitVec.ofNat 64 ((copyRu f).getD 0))
  else if copyMould f && (s.copyTeams f kind).any fun t => s.objBroken t bindAt || !(s.objAt t bindAt).mv then
    some (.barrier, BitVec.ofNat 64 bindAt)
  else if kind = MemKind.cast && (castMask f = 0 || decide (castMask f ≥ 2 ^ (c.w * c.h))) then some (.queue, f.imm.setWidth 64)
  else none

/-- 13 R320 steps 2 to 4 for a lane: its fault, and its piece. A trap over a tile offset of a `vcast` to members with several tile bases
reports the base of the lowest member named (log entry 69). -/
def State.copyLane (s : State) (f : LaneWord) (kind : MemKind) (t : Nat) : LaneFault × Piece :=
  let x := s.grp s.me
  let n := copySize f
  let spad := (s.gTeam s.me).spad
  let ea := x.globalAddr f 0 t
  let o := (x.srcReg 0#4 t f.vc.toNat).1
  let bindAt := if kind = .copyOut then (copyRu f).getD 0 else copyL f
  let teams := s.copyTeams f kind
  let b (tm : Nat) : Obj := s.objAt tm bindAt
  let locs : List (Nat × Nat) :=
    if copyMould f then teams.map fun tm => (tm, (b tm).tbase + swizzle (b tm).z o)
    else if kind = .cast then teams.map fun tm => (tm, o)
    else match s.spadLoc (keyTeam s.me) o n with
      | some l => [l]
      | none => []
  let base := if copyMould f then (b (teams.headD 0)).tbase else 0
  let rep : Word := BitVec.ofNat 64 (base + o)
  let out :=
    if copyMould f then teams.any fun tm => decide (o + n > (b tm).tsize)
    else if kind = .cast then decide (o + n > spad)
    else locs.isEmpty
  (if !ea.bad && ea.addr.toNat % n ≠ 0 then some (.misalign, ea.addr)
   else if o % n ≠ 0 then some (.misalign, rep)
   else if !ea.bad && ea.addr.toNat ≥ 2 ^ 52 then some (.page, ea.addr)
   else if out then some (.spadBounds, rep)
   else none,
   { lane := t, va := ea.addr, locs, n, void := ea.bad })

/-- 13 R322: a piece once others of its instruction have been written: the places that a higher lane has written are not for it. -/
def Piece.after (p : Piece) (written : List Piece) : Piece :=
  { p with lose := (p.lose ++ (written.filter fun w => w.lane > p.lane).flatMap fun w => p.locs.filter w.locs.contains).dedup }

/-- 13 R322: the pieces of a copy still to come, queued or held in its operand-log entry, once some have been written. -/
def State.wrote (s : State) (k g id : Nat) (ps : List Piece) : State :=
  let mark (op : LadleOp) : LadleOp := match op with
    | .xfer t => if t.id = id then .xfer { t with pieces := t.pieces.map fun p => p.after ps } else op
    | _ => op
  let entry (o : MemOp) : MemOp := match o.copy with
    | some c => if c.id = id then { o with copy := some { c with pieces := c.pieces.map fun p => p.after ps } } else o
    | none => o
  { s with
    cores := KMap.adjust k (fun c => { c with ladle := c.ladle.map fun q => (q.1, q.2.map mark) }) s.cores
    groups := KMap.adjust g (fun x => { x with oplog := x.oplog.map fun e => (e.1, entry e.2) }) s.groups }

/-- The transfer operations that a copy makes: one for each 128-byte line that its pieces meet (13 R322). -/
def lineCount (ps : List Piece) : Nat :=
  (ps.filter fun p => p.void).length + (((ps.filter fun p => !p.void).map fun p => p.va.toNat / 128).dedup).length

/-- 18 R435, 08 R202: an entry whose accesses are all done is freed and its flag lowered. -/
def Group.freeEntry (x : Group) (e : Nat) : Group :=
  match KMap.find e x.oplog with
  | some o => { x with oplog := KMap.del e x.oplog }.lower o.flag
  | none => x

/-- Is any part of a copy still queued in a core's Ladle, or any count of it held? -/
def Core.copyBusy (k : Core) (id : Nat) : Bool :=
  k.ladle.any (fun q => q.2.any fun op => match op with | .xfer t => t.id = id | _ => false) || k.counts.any fun c => c.id = id

/-- 13 R326: a copy every count of which has been applied, with no lane pending, frees its entry and lowers its flag. -/
def State.settleCopy (s : State) (g id : Nat) : State :=
  let x := s.grp g
  match x.oplog.find? fun e => match e.2.copy with | some c => c.id = id | none => false with
  | none => s
  | some (e, o) =>
    if !o.accs.isEmpty || (x.faults.any fun f => f.log = some e) || s.cores.any (fun k => k.2.copyBusy id) || s.casts.any (fun c => c.id = id) then s
    else s.onGrp g fun y => y.freeEntry e

/-- 13 R320 to R322: a copy instruction: its checks, and its transfer operations entered whole. -/
def State.laneCopy (s : State) (f : LaneWord) (kind : MemKind) : State :=
  s.laneBody f [addrRegs f true, (f.vc.toNat, 1)] fun m =>
    let g := s.me
    let x := s.grp g
    let ls := (bodyLanes f m).map fun t => (t, s.copyLane f kind t)
    let ps := ls.map fun l => l.2.2
    let s1 := s.poisonAddr (ps.map fun p => { lane := p.lane, bad := p.void || x.vBad p.lane f.vc.toNat, addr := p.va })
    if x.fenced then s.stallL 7
    else
      match (if m = 0 then none else s.copyObjects f kind), lowestFault (ls.map fun l => (l.1, l.2.1)) with
      | some (c, a), _ => s.trapL c m a
      | none, some (c, k, a) => s1.trapL c k a
      | none, none =>
        if x.inTry && m ≠ 0 then s1.abortSync g
        else
          match (s1.grp g).issueLL f with
          | none => s.stallL 5
          | some (y, flag) =>
            if m = 0 then (s1.setGrp g (y.lower flag)).laneNext f m 1
            else if (s.coreAt (s.gCore g)).ladleUsed (copyQueue f) + lineCount ps > 64 then s.stallL 8
            else
              match x.freeLog with
              | none => s.stallL 9
              | some e =>
                let o : MemOp := { kind, lane := true, slot := x.slot, size := copySize f, hint := f.hint.toNat, flag
                                   scope := if kind = .copyOut then f.vd.toNat % 8 else 2
                                   accs := ps.map fun p => { lane := p.lane, va := p.va }
                                   copy := some { id := s.nextJoin, queue := copyQueue f, l := copyL f, ru := copyRu f, pieces := ps } }
                let s2 : State := { s1.setGrp g y with nextJoin := s.nextJoin + 1 }
                let s3 := s2.performLog g e o
                let s4 := if kind ≠ .copyOut then s3
                  else s3.onGrp g fun z =>
                    match KMap.find e z.oplog with
                    | some q => if q.fault.isNone then z
                      else { z with faults := byAge q z.faults, oplog := KMap.put e { q with accs := [], fault := none } z.oplog }
                    | none => z
                (s4.laneNext f m 1).settleCopy g s.nextJoin

/-- `vcopy.in` (13 R324). -/
def execVcopyIn (f : LaneWord) (s : State) : Host.Outcome State Fault Refusal := .next (s.laneCopy f .copyIn)

/-- `vcopy.out` (13 R325). -/
def execVcopyOut (f : LaneWord) (s : State) : Host.Outcome State Fault Refusal := .next (s.laneCopy f .copyOut)

/-- `vcast` (13 R329). -/
def execVcast (f : LaneWord) (s : State) : Host.Outcome State Fault Refusal := .next (s.laneCopy f .cast)

/-! ## Counting (13 R323, 17 R419) -/

/-- 17 R419: where a count is reported that a broken object discards. -/
def HeldCount.src (c : HeldCount) : CountSrc :=
  match c.status with
  | some b => .byte b.1 b.2
  | none => .stream c.g

/-- 13 R323: tries one count: true when it is over, accepted or discarded; a broken object discards it, which is reported (17 R419). -/
def State.tryCount (s : State) (c : HeldCount) : Bool × State :=
  match s.arriveAt c.team c.obj c.arr c.n 0 (some c.src) with
  | none => (true, s.discardTo c.src)
  | some (2, s1) => (false, s1)
  | some (_, s1) => (true, s1)

/-- 13 R323: the Ladle counts: a count waits behind one held of its queue to its object. -/
def State.countBytes (s : State) (k : Nat) (c : HeldCount) : State :=
  let blocked := (s.coreAt k).counts.any fun h => h.queue = c.queue && h.team = c.team && h.obj = c.obj
  if blocked then s.onCore k fun y => { y with counts := y.counts ++ [c] }
  else
    let r := s.tryCount c
    if r.1 then r.2
    else (r.2.onCore k fun y => { y with counts := y.counts ++ [c] }).count c.g 0x18 1

/-- Retries held counts in order: a count refused holds those after it to its object. -/
def State.retryCounts (s : State) (k q : Nat) : List HeldCount → List (Nat × Nat) → State
  | [], _ => s
  | c :: cs, shut =>
    if c.queue ≠ q || shut.contains (c.team, c.obj) then s.retryCounts k q cs shut
    else
      let r := s.tryCount c
      if r.1 then
        let s1 := r.2.onCore k fun y => { y with counts := y.counts.erase c }
        (s1.settleCopy c.g c.id).retryCounts k q cs shut
      else (r.2.count c.g 0x18 1).retryCounts k q cs (shut ++ [(c.team, c.obj)])

/-- The event LADLE_COUNT_RETRY (13 R323). -/
def execLadleCountRetry (core q : Nat) (s : State) : Host.Outcome State Fault Refusal :=
  .next (s.retryCounts core q (s.coreAt core).counts [])

/-! ## Transfer operations (13 R324 to R329) -/

/-- Writes a piece's bytes at one scratchpad place, with the poison of their source sector (13 R324). -/
def State.landAt (s : State) (t o : Nat) (bs : List Byte) (bad : Bool) : State :=
  s.onTm t fun y =>
    let y1 := y.storeAt o bs
    if bad then (sectorsOf o bs.length).foldl (fun y k => y.setBad k true) y1 else y1

/-- 13 R324: the bytes of a piece of a `vcopy.in` or `vcast`, with their poison, read at their home; a void piece is zeros, poisoned
(R320). The bytes of another device's page are its answer's. -/
def State.pieceRead (s : State) (t : Xfer) (p : Piece) (answer : Nat × Bool) : (List Byte × Bool) × State :=
  let x := p.xlat
  if p.void then ((List.replicate p.n 0, true), s)
  else if p.remote then ((bytesOfNat p.n answer.1, answer.2), s)
  else
    let s1 := s.hacFor (s.whoIs t.g false) p.va.toNat x
    s1.homeRead (s.gPart t.g) x p.n t.hint

/-- 13 R324: one piece of a `vcopy.in`: read at its home, written and counted. -/
def State.pieceIn (s : State) (k q : Nat) (t : Xfer) (p : Piece) (answer : Nat × Bool) : State :=
  let r := s.pieceRead t p answer
  let s2 := (p.locs.filter fun l => !p.lose.contains l).foldl (fun s l => s.landAt l.1 l.2 r.1.1 r.1.2) r.2
  (s2.wrote k t.g t.id [p]).countBytes k { queue := q, id := t.id, team := keyTeam t.g, obj := t.l, arr := 0, n := p.n, g := t.g }

/-- 13 R329, R330: a transfer operation of a `vcast`: its pieces are read once, and the members' network interfaces reserved in ascending
core order; each member's bytes land by themselves. -/
def State.castOut (s : State) (k q : Nat) (t : Xfer) (ps : List (Piece × (Nat × Bool))) : State :=
  let r := ps.foldl (fun (acc : List (Piece × List Byte × Bool) × State) e =>
    let d := acc.2.pieceRead t e.1 e.2
    (acc.1 ++ [(e.1, d.1.1, d.1.2)], d.2)) ([], s)
  let teams := (ps.flatMap fun e => e.1.locs.map Prod.fst).dedup
  let chain := (List.range 384).flatMap fun c => teams.filter fun m => ((s.tm m).core.getD 0) = c
  let land (m : Nat) : CastLand :=
    { core := k, queue := q, id := t.id, g := t.g, team := m, obj := t.l
      pieces := r.1.flatMap fun e => (e.1.locs.filter fun l => l.1 = m).map fun l => (l.2, e.1.n, natOfBytes e.2.1, e.2.2, e.1.lose.contains l) }
  ({ r.2 with casts := r.2.casts ++ chain.map land } : State).wrote k t.g t.id (ps.map Prod.fst)

/-- 13 R329, R330: the bytes of a `vcast` operation land at a member and are counted there; its reservation is released. -/
def State.castLand (s : State) (c : CastLand) : State :=
  let s1 := { s with casts := s.casts.erase c }
  let s2 := c.pieces.foldl (fun s p =>
    let s' := if p.2.2.2.2 then s else s.landAt c.team p.1 (bytesOfNat p.2.1 p.2.2.1) p.2.2.2.1
    s'.countBytes c.core { queue := c.queue, id := c.id, team := c.team, obj := c.obj, arr := 0, n := p.2.1, g := c.g }) s1
  (s2.settleCopy c.g c.id).settleJoins

/-- The turn in which the `i`-th `vcast` landing comes about. -/
def State.castTurn (s : State) (i : Nat) : State :=
  match s.casts[i]? with
  | some c => s.castLand c
  | none => s

/-- A count of a piece of a `vcopy.out` on an object of the issuing team. -/
def State.countOut (s : State) (k q : Nat) (t : Xfer) (n o : Nat) : State :=
  s.countBytes k { queue := q, id := t.id, team := keyTeam t.g, obj := o, arr := 0, n, g := t.g }

/-- 13 R325: the count of a `vcopy.out` piece whose source has been read. -/
def State.countRead (s : State) (k q : Nat) (t : Xfer) (n : Nat) : State :=
  match t.ru with
  | some o => s.countOut k q t n o
  | none => s

/-- 13 R325: one piece of a `vcopy.out`: read, counted on RU, written at its home with its poison, counted on L. What another device has
acknowledged is counted. -/
def State.pieceOut (s : State) (k q : Nat) (t : Xfer) (p : Piece) : State :=
  let x := p.xlat
  let src := p.locs.headD (keyTeam t.g, 0)
  let bs := (s.tm src.1).bytesAt src.2 p.n
  let bad := (s.tm src.1).badAt src.2
  let s1 := s.countRead k q t p.n
  let s2 : State :=
    if p.void || p.remote then s1
    else
      let s3 := ((s1.hacFor (s.whoIs t.g false) p.va.toNat x).rawStore (s.gPart t.g) x bs t.hint).carryPoison x bad
      if x.leaf.host then s3 else s3.l1DropLine k x.pa
  s2.countOut k q t p.n t.l

/-- 13 R321: a fault that another device answers to a piece: its lane is pending again in the copy's operand-log entry, for `vcopy.out` as
a logged fault. A stream that has ended takes none. -/
def State.pieceFault (s : State) (t : Xfer) (p : Piece) (c : Cause) : State :=
  match (s.grp t.g).oplog.find? fun e => match e.2.copy with | some i => i.id = t.id | none => false with
  | none => s
  | some (e, o) =>
    let a : LaneAcc := { lane := p.lane, va := p.va }
    let f := some (c, 1#16 <<< p.lane, p.va)
    s.onGrp t.g fun x =>
      if o.kind = .copyOut then
        match x.faults.find? fun q => q.log = some e with
        | some q => { x with faults := x.faults.map fun z => if z.log = some e then { q with accs := q.accs ++ [a] } else z }
        | none => { x with faults := byAge { o with accs := [a], fault := f, log := some e } x.faults }
      else if o.reissued then x.refault e o ((o.accs.map fun b => (b, none)) ++ [(a, some c)])
      else { x with oplog := KMap.put e { o with accs := o.accs ++ [a], fault := o.fault.orElse fun _ => f, log := some e } x.oplog }

/-- Do the pieces of an operation wait at a home (09 R232, 10 R261)? -/
def State.xferBusy (s : State) (t : Xfer) : Bool :=
  t.pieces.any fun p => !p.void && !p.remote && s.homeBusy (s.gPart t.g) p.xlat

/-- 13 R322 to R325, R329: performs pieces of an operation with the answers to them. -/
def State.performPieces (s : State) (k q : Nat) (t : Xfer) (ps : List (Piece × (Nat × Bool))) : State :=
  match t.kind with
  | .copyOut => ps.foldl (fun s e => s.pieceOut k q t e.1) s
  | .cast => if ps.isEmpty then s else s.castOut k q t ps
  | _ => ps.foldl (fun s e => s.pieceIn k q t e.1 e.2) s

/-- Is the source of a piece of a `vcopy.out` poisoned (13 R325)? -/
def State.pieceBad (s : State) (t : Xfer) (p : Piece) : Bool :=
  let src := p.locs.headD (keyTeam t.g, 0)
  (s.tm src.1).badAt src.2

/-- The pieces of another device's pages go out (10 R242), those of a `vcopy.out` with their poison (09 R236), or fault where no link works
(19 R448). -/
def State.sendPieces (s : State) (t : Xfer) (ps : List Piece) : State :=
  ps.foldl (fun s p => (s.hacFor (s.whoIs t.g false) p.va.toNat p.xlat).sendRemote t.g p.leaf.dev p.pa (t.kind = .copyOut && s.pieceBad t p)) s

/-- The answers to the pieces sent: those that came, and the state with the faults of the others taken up. -/
def State.takeAnswers (s : State) (t : Xfer) : List Piece → List (Piece × (Nat × Bool)) × State
  | [] => ([], s)
  | p :: ps =>
    let r := s.remoteAnswer
    match if s.linked then r.1 else .error .remote with
    | .ok v => let u := r.2.takeAnswers t ps; ((p, v) :: u.1, u.2)
    | .error c => (r.2.pieceFault t p c).takeAnswers t ps

/-! ## Kick pulls (13 R331 to R334) -/

/-- 13 R332: the checks of a notice at the receiving team. -/
def State.noticeOk (s : State) (n : Notice) (t : Nat) : Bool :=
  let src := n.field 0 8
  let len := n.field 8 4
  let dst := n.field 0x0C 4
  let land := n.field 0x10 4
  let spad := (s.tm t).spad
  src % 16 = 0 && len % 16 = 0 && 16 ≤ len && len ≤ 2 ^ 20 && dst % 16 = 0 && land % 32 = 0 && n.field 0x14 4 % 32 = 0 &&
    n.field 0x1B 1 < 4 && n.field 0x1C 3 = 0 && dst + len ≤ spad && land < spad && src + len ≤ 2 ^ 52

/-- 13 R332: does the source lie inside the token's region? Each of its 64 KiB pieces that is mapped lies in the region, which is this
device's; one that is not mapped faults when it is read. -/
def State.insideToken (s : State) (w : Who) (id src len : Nat) : Bool :=
  let e := s.tok id
  let n := (src + len - 1) / 65536 - src / 65536 + 1
  s.tokExists id && decide (n ≤ 2 ^ e.log2) && (List.range n).all fun i =>
    let va := (src / 65536 + i) * 65536
    match s.leafFor w va with
    | some l =>
      let pa := l.pa + va % 2 ^ l.bits
      l.dev = s.links.devnum.toNat && e.base * 65536 ≤ pa && decide (pa < (e.base + 2 ^ e.log2) * 65536) && e.space = if l.host then 1 else 0
    | none => true

/-- 13 R332, R333: the return of a notice: the read share goes back, the status byte is written, one arrival on SBAR. An SBAR at or
above the sender's `spad`, or no object, makes no arrival and sets bit 7. A sender that has ended takes nothing; what a
switched-out one takes is applied to its saved scratchpad. -/
def State.returnNotice (s : State) (k q : Nat) (n : Notice) (status : Nat) : State :=
  let s1 := s.returnShare (n.field 0x18 3)
  let y := s1.tm n.senderTeam
  if y.res = .ended || (KMap.find n.senderTeam s1.teams).isNone then s1
  else
    let sbar := n.field 0x14 4
    let bad := decide (sbar ≥ y.spad) || sbar % 32 ≠ 0 || s1.objBroken n.senderTeam sbar
    let st := status + if bad then 0x80 else 0
    let place := s1.spadLoc n.senderTeam (n.addr + 0x1F) 1
    let s2 := match place with
      | some (t, o) => s1.onTm t fun z => z.storeAt o [BitVec.ofNat 8 st]
      | none => s1
    if bad then s2
    else s2.countBytes k { queue := q, id := 0, team := n.senderTeam, obj := sbar, arr := 1, n := 0, g := streamKey n.senderTeam 127, status := place }

/-- The event KICK_PULL (13 R332): the Ladle of a resident team takes the notice when its queue has room; a notice that fails a check is
returned. -/
def execKickPull (core : Nat) (s : State) : Host.Outcome State Fault Refusal :=
  let y := s.coreAt core
  match y.kick, y.team with
  | some n, some t =>
    let q := n.field 0x1B 1 % 4
    let w := { s.whoIs (streamKey t 64) false with holders := [(s.tm t).cluster], shares := (s.cl (s.tm t).cluster).shares }
    if y.ladleUsed q ≥ 64 || (s.tm t).res ≠ .resident then .next s
    else
      let s1 := s.onCore core fun c => { c with kick := none }
      if s.noticeOk n t && s.insideToken w (n.field 0x18 3) (n.field 0 8) (n.field 8 4) then
        .next (s1.onCore core fun c => { c with ladle := KMap.put q (KMap.read [] q c.ladle ++ [.pull n t 0 false]) c.ladle })
      else .next (s1.returnNotice core q n 0x02)
  | _, _ => .next s

/-- Takes the head of a Ladle queue off. -/
def Core.popLadle (c : Core) (q : Nat) : Core := { c with ladle := KMap.write [] q ((KMap.read [] q c.ladle).drop 1) c.ladle }

/-- Puts an operation back in front of a Ladle queue. -/
def Core.unpopLadle (c : Core) (q : Nat) (op : LadleOp) : Core := { c with ladle := KMap.put q (op :: KMap.read [] q c.ladle) c.ladle }

/-- What a pull reads in a sector: bytes and poison, another device's as it answers (10 R242), or the cause of a fault. -/
def State.pullSector (s : State) (w : Who) (a n : Nat) : Except Cause (List Byte × Bool) × State :=
  match s.xlate w a .read with
  | .error c => (.error c, s)
  | .ok x =>
    if !x.remote then
      let r := ((s.touch w a).hacFor w a x).homeRead w.part x n 0
      (.ok r.1, r.2)
    else
      let r := s.remoteAnswer
      match if s.linked then r.1 else .error .remote with
      | .ok v => (.ok (bytesOfNat n v.1, v.2), r.2.hacFor w a x)
      | .error c => (.error c, r.2)

/-- The sectors of a piece of a pull, in ascending order, up to the first fault: landed before it, they stay. -/
def State.pullSectors (s : State) (w : Who) (t : Nat) (dst : Nat → Nat) : List (Nat × Nat) → Option Cause × Nat × State
  | [] => (none, 0, s)
  | (a, n) :: ps =>
    let r := s.pullSector w a n
    match r.1 with
    | .error c => (some c, 0, r.2)
    | .ok d =>
      let u := (r.2.landAt t (dst a) d.1 d.2).pullSectors w t dst ps
      (u.1, n + u.2.1, u.2.2)

/-- 13 R332: one 128-byte piece of a pull, by 32-byte sectors: read under the cluster's read share, written, counted on LAND. -/
def State.pullPiece (s : State) (core q : Nat) (n : Notice) (t done : Nat) : State :=
  let src := n.field 0 8
  let len := n.field 8 4
  let w := s.pullWho core q t n
  let k := min (len - done) (128 - (src + done) % 128)
  let r := s.pullSectors w t (fun a => n.field 0x0C 4 + (a - src)) (sectorPieces (src + done) k k)
  let s1 := if r.2.1 = 0 then r.2.2
    else (r.2.2.countBytes core { queue := q, id := 0, team := t, obj := n.field 0x10 4, arr := 0, n := r.2.1, g := streamKey t 127 }).countCore core 0x0C r.2.1
  match r.1 with
  | some c => s1.returnNotice core q n (0x40 + c.code)
  | none =>
    if done + k ≥ len then s1.returnNotice core q n 0x01
    else s1.onCore core fun c => { c with ladle := KMap.put q (KMap.read [] q c.ladle ++ [.pull n t (done + k) false]) c.ladle }

/-- Does a piece of a pull wait at a home, or has it a sector of another device's page? -/
def State.pullWaits (s : State) (core q : Nat) (n : Notice) (t done : Nat) : Bool × List Xlat :=
  let xs := s.pullXlats core q n t done
  (xs.any (s.homeBusy (s.tm t).part), xs.filter fun x => x.remote)

/-- The event LADLE_TRANSFER (13 R322): the Ladle performs the first operation of a queue; pieces of another device's pages go out first,
and the next such event of the queue takes their answers. -/
def execLadleTransfer (core q : Nat) (s : State) : Host.Outcome State Fault Refusal :=
  match if s.casting core q then none else (KMap.read [] q (s.coreAt core).ladle).head? with
  | some (.xfer t) =>
    if (!t.sent && !s.copyMayAct t) || s.xferBusy t then .next s
    else
      let s1 := s.onCore core fun c => c.popLadle q
      let far := t.pieces.filter fun p => p.remote && !p.void
      let near := t.pieces.filter fun p => !(p.remote && !p.void)
      if !t.sent && !far.isEmpty then
        .next ((((s1.performPieces core q t (near.map fun p => (p, (0, false)))).countCore core 0x0C (near.map fun p => p.n).sum).sendPieces t far).onCore
          core fun c => c.unpopLadle q (.xfer { t with pieces := far.map fun p => p.after near, sent := true }))
      else
        let r := if t.sent then s1.takeAnswers t far else (near.map fun p => (p, (0, false)), s1)
        let s2 := (r.2.performPieces core q t r.1).countCore core 0x0C (t.pieces.map fun p => p.n).sum
        .next ((s2.settleCopy t.g t.id).settleJoins.lateEnd (keyTeam t.g))
  | some (.pull n t done sent) =>
    let w := s.pullWaits core q n t done
    if w.1 then .next s
    else
      let s1 := s.onCore core fun c => c.popLadle q
      if !sent && !w.2.isEmpty then
        .next ((w.2.foldl (fun s x => s.sendRemote (streamKey t 64) x.leaf.dev x.pa) s1).onCore
          core fun c => c.unpopLadle q (.pull n t done true))
      else .next (s1.pullPiece core q n t done).settleJoins
  | _ => .next s

end Sys2Proof.Machine
end

