-- ==== Sys2Proof/Machine/ScalarAlu.lean ====
section
/-! DEFINITION. Scalar integer, bit, immediate, branch and jump instructions (05 R114 to R120) and the instructions that only
advance (R139). -/

namespace Sys2Proof.Machine

/-! ## Results -/

/-- 05 R115: the signed quotient; -1 for division by zero, and the dividend where it overflows. -/
def divS (a b : Word) : Word := if b = 0 then BitVec.allOnes 64 else BitVec.ofInt 64 (a.toInt.tdiv b.toInt)

/-- 05 R115: the unsigned quotient. -/
def divU (a b : Word) : Word := if b = 0 then BitVec.allOnes 64 else BitVec.ofNat 64 (a.toNat / b.toNat)

/-- 05 R115: the signed remainder, of the dividend's sign. -/
def remS (a b : Word) : Word := if b = 0 then a else BitVec.ofInt 64 (a.toInt.tmod b.toInt)

/-- 05 R115: the unsigned remainder. -/
def remU (a b : Word) : Word := if b = 0 then a else BitVec.ofNat 64 (a.toNat % b.toNat)

/-- A condition as 1 or 0. -/
def oneIf (c : Bool) : Word := if c then 1 else 0

/-- The count of leading zero bits of the low `n` bits (05 R114, 06 R151). -/
def clzN (n x : Nat) : Nat := if x % 2 ^ n = 0 then n else n - 1 - Nat.log2 (x % 2 ^ n)

/-- The count of trailing zero bits of a 64-bit pattern. -/
def ctz64 (x : Word) : Nat := ((List.range 64).find? fun i => x.getLsbD i).getD 64

/-- The count of one bits of the low `n` bits. -/
def popcN (n x : Nat) : Nat := ((List.range n).filter fun i => x.testBit i).length

/-- 05 R116: the length of a field at position p, limited to the register. -/
def fieldLen (b : Word) : Nat := min (b.extractLsb' 8 7).toNat (64 - (b.extractLsb' 0 6).toNat)

/-- 05 R116 `bfx`. -/
def extractField (a b : Word) : Word := BitVec.ofNat 64 (a.toNat / 2 ^ (b.extractLsb' 0 6).toNat % 2 ^ fieldLen b)

/-- 05 R116 `bfi`: bits [p + n - 1 : p] of `d` replaced by the low `n` bits of `a`. -/
def insertField (d a b : Word) : Word :=
  let p := (b.extractLsb' 0 6).toNat
  let m : Word := BitVec.ofNat 64 ((2 ^ fieldLen b - 1) * 2 ^ p)
  (d &&& ~~~ m) ||| ((a <<< p) &&& m)

/-! ## Shapes -/

/-- 05 R114: a result of two registers. -/
def State.bin (s : State) (b a d : BitVec 6) (f : Word → Word → Word) : State :=
  (s.uses [a, b]).finish d (f (s.rs a) (s.rs b))

/-- 05 R114: a result of one register. -/
def State.un (s : State) (a d : BitVec 6) (f : Word → Word) : State := (s.uses [a]).finish d (f (s.rs a))

/-- 05 R117: a result of a register and a sign-extended immediate. -/
def State.imm (s : State) (i : BitVec 13) (a d : BitVec 6) (f : Word → Word → Word) : State :=
  (s.uses [a]).finish d (f (s.rs a) (i.signExtend 64))

/-- 03 R59, 05 R119: a branch: to the PC plus four times the offset where taken, else to the next word. -/
def State.branch (s : State) (i : BitVec 13) (b a : BitVec 6) (taken : Word → Word → Bool) : State :=
  let s1 := s.uses [a, b]
  let pc := (s.grp s.me).pc
  if taken (s.rs a) (s.rs b) then s1.goto (pc + 4 * i.signExtend 64) else s1.goto (pc + 4)

/-! ## Meanings -/

/-- `add` (05 R114). -/
def execAdd (b a d : BitVec 6) (s : State) : Host.Outcome State Fault Refusal :=
  .next (s.bin b a d fun x y => x + y)

/-- `sub` (05 R114). -/
def execSub (b a d : BitVec 6) (s : State) : Host.Outcome State Fault Refusal :=
  .next (s.bin b a d fun x y => x - y)

/-- `mul` (05 R114). -/
def execMul (b a d : BitVec 6) (s : State) : Host.Outcome State Fault Refusal :=
  .next (s.bin b a d fun x y => x * y)

/-- `mulh` (05 R114). -/
def execMulh (b a d : BitVec 6) (s : State) : Host.Outcome State Fault Refusal :=
  .next (s.bin b a d fun x y => ((x.signExtend 128) * (y.signExtend 128)).extractLsb' 64 64)

/-- `mulhu` (05 R114). -/
def execMulhu (b a d : BitVec 6) (s : State) : Host.Outcome State Fault Refusal :=
  .next (s.bin b a d fun x y => ((x.setWidth 128) * (y.setWidth 128)).extractLsb' 64 64)

/-- `div` (05 R115). -/
def execDiv (b a d : BitVec 6) (s : State) : Host.Outcome State Fault Refusal :=
  .next (s.bin b a d fun x y => divS x y)

/-- `divu` (05 R115). -/
def execDivu (b a d : BitVec 6) (s : State) : Host.Outcome State Fault Refusal :=
  .next (s.bin b a d fun x y => divU x y)

/-- `rem` (05 R115). -/
def execRem (b a d : BitVec 6) (s : State) : Host.Outcome State Fault Refusal :=
  .next (s.bin b a d fun x y => remS x y)

/-- `remu` (05 R115). -/
def execRemu (b a d : BitVec 6) (s : State) : Host.Outcome State Fault Refusal :=
  .next (s.bin b a d fun x y => remU x y)

/-- `and` (05 R114). -/
def execAnd (b a d : BitVec 6) (s : State) : Host.Outcome State Fault Refusal :=
  .next (s.bin b a d fun x y => x &&& y)

/-- `or` (05 R114). -/
def execOr (b a d : BitVec 6) (s : State) : Host.Outcome State Fault Refusal :=
  .next (s.bin b a d fun x y => x ||| y)

/-- `xor` (05 R114). -/
def execXor (b a d : BitVec 6) (s : State) : Host.Outcome State Fault Refusal :=
  .next (s.bin b a d fun x y => x ^^^ y)

/-- `andn` (05 R114). -/
def execAndn (b a d : BitVec 6) (s : State) : Host.Outcome State Fault Refusal :=
  .next (s.bin b a d fun x y => x &&& ~~~ y)

/-- `shl` (05 R114). -/
def execShl (b a d : BitVec 6) (s : State) : Host.Outcome State Fault Refusal :=
  .next (s.bin b a d fun x y => x <<< (y.extractLsb' 0 6).toNat)

/-- `shr` (05 R114). -/
def execShr (b a d : BitVec 6) (s : State) : Host.Outcome State Fault Refusal :=
  .next (s.bin b a d fun x y => x >>> (y.extractLsb' 0 6).toNat)

/-- `sra` (05 R114). -/
def execSra (b a d : BitVec 6) (s : State) : Host.Outcome State Fault Refusal :=
  .next (s.bin b a d fun x y => x.sshiftRight (y.extractLsb' 0 6).toNat)

/-- `min` (05 R114). -/
def execMin (b a d : BitVec 6) (s : State) : Host.Outcome State Fault Refusal :=
  .next (s.bin b a d fun x y => if y.slt x then y else x)

/-- `minu` (05 R114). -/
def execMinu (b a d : BitVec 6) (s : State) : Host.Outcome State Fault Refusal :=
  .next (s.bin b a d fun x y => if y.ult x then y else x)

/-- `max` (05 R114). -/
def execMax (b a d : BitVec 6) (s : State) : Host.Outcome State Fault Refusal :=
  .next (s.bin b a d fun x y => if x.slt y then y else x)

/-- `maxu` (05 R114). -/
def execMaxu (b a d : BitVec 6) (s : State) : Host.Outcome State Fault Refusal :=
  .next (s.bin b a d fun x y => if x.ult y then y else x)

/-- `slt` (05 R114). -/
def execSlt (b a d : BitVec 6) (s : State) : Host.Outcome State Fault Refusal :=
  .next (s.bin b a d fun x y => oneIf (x.slt y))

/-- `sltu` (05 R114). -/
def execSltu (b a d : BitVec 6) (s : State) : Host.Outcome State Fault Refusal :=
  .next (s.bin b a d fun x y => oneIf (x.ult y))

/-- `seq` (05 R114). -/
def execSeq (b a d : BitVec 6) (s : State) : Host.Outcome State Fault Refusal :=
  .next (s.bin b a d fun x y => oneIf (x = y))

/-- `clz` (05 R114). -/
def execClz (a d : BitVec 6) (s : State) : Host.Outcome State Fault Refusal :=
  .next (s.un a d fun x => BitVec.ofNat 64 (clzN 64 x.toNat))

/-- `ctz` (05 R114). -/
def execCtz (a d : BitVec 6) (s : State) : Host.Outcome State Fault Refusal :=
  .next (s.un a d fun x => BitVec.ofNat 64 (ctz64 x))

/-- `popc` (05 R114). -/
def execPopc (a d : BitVec 6) (s : State) : Host.Outcome State Fault Refusal :=
  .next (s.un a d fun x => BitVec.ofNat 64 (popcN 64 x.toNat))

/-- `bfx` (05 R116). -/
def execBfx (b a d : BitVec 6) (s : State) : Host.Outcome State Fault Refusal :=
  .next (s.bin b a d extractField)

/-- `bfi`, which reads its destination (05 R116). -/
def execBfi (b a d : BitVec 6) (s : State) : Host.Outcome State Fault Refusal :=
  .next ((s.uses [d, a, b]).finish d (insertField (s.rs d) (s.rs a) (s.rs b)))

/-- `addi` (05 R117). -/
def execAddi (i : BitVec 13) (a d : BitVec 6) (s : State) : Host.Outcome State Fault Refusal :=
  .next (s.imm i a d fun x y => x + y)

/-- `andi` (05 R117). -/
def execAndi (i : BitVec 13) (a d : BitVec 6) (s : State) : Host.Outcome State Fault Refusal :=
  .next (s.imm i a d fun x y => x &&& y)

/-- `ori` (05 R117). -/
def execOri (i : BitVec 13) (a d : BitVec 6) (s : State) : Host.Outcome State Fault Refusal :=
  .next (s.imm i a d fun x y => x ||| y)

/-- `xori` (05 R117). -/
def execXori (i : BitVec 13) (a d : BitVec 6) (s : State) : Host.Outcome State Fault Refusal :=
  .next (s.imm i a d fun x y => x ^^^ y)

/-- `slti` (05 R117). -/
def execSlti (i : BitVec 13) (a d : BitVec 6) (s : State) : Host.Outcome State Fault Refusal :=
  .next (s.imm i a d fun x y => oneIf (x.slt y))

/-- `sltiu` (05 R117). -/
def execSltiu (i : BitVec 13) (a d : BitVec 6) (s : State) : Host.Outcome State Fault Refusal :=
  .next (s.imm i a d fun x y => oneIf (x.ult y))

/-- `shli` (05 R117). -/
def execShli (i a d : BitVec 6) (s : State) : Host.Outcome State Fault Refusal :=
  .next (s.un a d fun x => x <<< i.toNat)

/-- `shri` (05 R117). -/
def execShri (i a d : BitVec 6) (s : State) : Host.Outcome State Fault Refusal :=
  .next (s.un a d fun x => x >>> i.toNat)

/-- `srai` (05 R117). -/
def execSrai (i a d : BitVec 6) (s : State) : Host.Outcome State Fault Refusal :=
  .next (s.un a d fun x => x.sshiftRight i.toNat)

/-- `lui` (05 R118). -/
def execLui (i : BitVec 19) (d : BitVec 6) (s : State) : Host.Outcome State Fault Refusal :=
  .next (s.finish d (i.signExtend 64 * 8192))

/-- `pcaddi` (05 R118). -/
def execPcaddi (i : BitVec 19) (d : BitVec 6) (s : State) : Host.Outcome State Fault Refusal :=
  .next (s.finish d ((s.grp s.me).pc + i.signExtend 64 * 8192))

/-- `beq` (05 R119). -/
def execBeq (i : BitVec 13) (b a : BitVec 6) (s : State) : Host.Outcome State Fault Refusal :=
  .next (s.branch i b a fun x y => x = y)

/-- `bne` (05 R119). -/
def execBne (i : BitVec 13) (b a : BitVec 6) (s : State) : Host.Outcome State Fault Refusal :=
  .next (s.branch i b a fun x y => x ≠ y)

/-- `blt` (05 R119). -/
def execBlt (i : BitVec 13) (b a : BitVec 6) (s : State) : Host.Outcome State Fault Refusal :=
  .next (s.branch i b a fun x y => x.slt y)

/-- `bge` (05 R119). -/
def execBge (i : BitVec 13) (b a : BitVec 6) (s : State) : Host.Outcome State Fault Refusal :=
  .next (s.branch i b a fun x y => !x.slt y)

/-- `bltu` (05 R119). -/
def execBltu (i : BitVec 13) (b a : BitVec 6) (s : State) : Host.Outcome State Fault Refusal :=
  .next (s.branch i b a fun x y => x.ult y)

/-- `bgeu` (05 R119). -/
def execBgeu (i : BitVec 13) (b a : BitVec 6) (s : State) : Host.Outcome State Fault Refusal :=
  .next (s.branch i b a fun x y => !x.ult y)

/-- `jal` (05 R120). -/
def execJal (i : BitVec 19) (d : BitVec 6) (s : State) : Host.Outcome State Fault Refusal :=
  .next (let pc := (s.grp s.me).pc; (s.setS d (pc + 4)).goto (pc + 4 * i.signExtend 64))

/-- `jalr` (05 R120): a target that is not a multiple of 4 traps. -/
def execJalr (i : BitVec 13) (a d : BitVec 6) (s : State) : Host.Outcome State Fault Refusal :=
  let t := s.rs a + i.signExtend 64
  let s1 := s.usesAddr a []
  if t.toNat % 4 ≠ 0 then .next (s1.trapS .misalign t)
  else .next ((s1.setS d ((s.grp s.me).pc + 4)).goto t)

/-- `nop` (05 R139). -/
def execNop (s : State) : Host.Outcome State Fault Refusal := .next s.nextPc

/-- `yield` (05 R139): the last choice of its core's issue logic for the next 64 scalar issue opportunities; group stream
only. -/
def execYield (s : State) : Host.Outcome State Fault Refusal :=
  if keyGrp s.me = 64 then .next (s.trapS .context 0)
  else .next (s.nextPc.onGrp s.me fun x => { x with yieldLeft := 64 })

end Sys2Proof.Machine
end

