-- ==== Sys2Proof/Machine/System.lean ====
section
/-! DEFINITION. Scalar instructions of the system: fences and queue joins (05 R129, R131), tasks and kicks (R132 to R134), control
registers (04 R96 to R106, 05 R135, 18 R433), `chkerr`, system calls, `exit`, `xret` and `pginv` (05 R136 to R141). -/

namespace Sys2Proof.Machine

/-! ## Fences and joins -/

/-- `fence` (05 R129, R130): a release waits for the scalar stream's stores, an acquire for its loads; an acquire at cluster scope
or wider drops the wide L1 lines (09 R228). -/
def execFence (k : BitVec 2) (sc : BitVec 3) (s : State) : Host.Outcome State Fault Refusal :=
  let g := s.me
  let x := s.grp g
  if (k.getLsbD 1 && !s.released g) || x.awaits false then .next (s.stallS 7)
  else
    let s1 := if k.getLsbD 0 then s.acquire g sc.toNat else s
    .next s1.nextPc

/-- `qfence` (05 R131): bit 4 is reserved in a group stream and bits [3:0] in a sequencer stream. -/
def execQfence (r p : BitVec 1) (q : BitVec 4) (s : State) : Host.Outcome State Fault Refusal :=
  let g := s.me
  if (keyGrp g ≠ 64 && p = 1#1) || (keyGrp g = 64 && q ≠ 0#4) then .next (s.trapS .illegal 0)
  else if (s.grp g).inTry then .next (s.abortSync g)
  else .next (s.placeJoin g q (p = 1#1) (r = 1#1)).nextPc

/-! ## Tasks and kicks -/

/-- `tsig` (05 R133): a release at device scope of the accesses before it. -/
def execTsig (e : BitVec 13) (a d : BitVec 6) (s : State) : Host.Outcome State Fault Refusal :=
  let g := s.me
  let x := s.grp g
  let p := s.gPart g
  let s1 := s.uses [a]
  let i := (s.rs a).toNat
  let t := s.taskAt p i
  if e.toInt ≤ 0 then .next (s.trapS .illegal 0)
  else if x.inTry then .next (s.abortSync g)
  else if !s.released g then .next (s.stallS 15)
  else if t.state = .free || i ≥ (s.partAt p).ptaskn.toNat || t.count < e.toNat then .next (s1.trapS .queue (s.rs a))
  else .next ((s1.lowerTask p i e.toNat).finish d (BitVec.ofNat 64 t.count))

/-- `tlaunch` (05 R132): a failed device gives it no task entry (01 R10, log entry 51). -/
def execTlaunch (b a d : BitVec 6) (s : State) : Host.Outcome State Fault Refusal :=
  let g := s.me
  let x := s.grp g
  let p := s.gPart g
  let s1 := s.usesAddr a [b]
  let va := s.rs a
  let who := s.whoIs g x.kernel
  if x.inTry then .next (s.abortSync g)
  else if va.toNat % 128 ≠ 0 then .next (s1.trapS .misalign va)
  else if (s.rs b).toNat > 65535 then .next (s1.trapS .queue (s.rs b))
  else if s.rangeBusy who va.toNat 128 .read then .next (s.stallS 15)
  else
    match s.readOwn g who va.toNat 128 with
    | .error (c, _) => .next ({ s1 with free := s1.free + 128 }.trapS c va)
    | .ok ds =>
      let bytes := ds.flatMap Prod.fst
      let bad := ds.any Prod.snd
      let s1 := s1.touchRange who va.toNat 128
      let s2 := if bad then s1.consumed g false else s1
      match if s.failed then none else KMap.freeFrom (s.partAt p).tasks 0 (s.partAt p).ptaskn.toNat with
      | none => .next (s2.finish d (BitVec.allOnes 64))
      | some i =>
        let t : Task := { record := bytes, poisoned := bad, count := (s.rs b).toNat, submitter := s.gCluster g,
                          prio := recField bytes 1 1 % 8, state := .armed }
        let s3 := s2.setTask p i t
        let s4 := if t.count = 0 then s3.readyTask p i else s3
        .next (s4.finish d (BitVec.ofNat 64 i))

/-- The member team that a kick's target word names: the cluster in bits [23:0], its declared x and y above (05 R134). -/
def State.kickTarget (s : State) (p : Nat) (w : Word) : Option Nat :=
  let c := (w.extractLsb' 0 24).toNat
  let x := (w.extractLsb' 24 4).toNat
  let y := (w.extractLsb' 28 4).toNat
  match KMap.find c s.clusters with
  | some k =>
    if w.toNat / 2 ^ 32 = 0 && k.part = p && k.res ≠ .ended && x < k.w && y < k.h then k.members[y * k.w + x]? else none
  | none => none

/-- `kick` (05 R134): the checks in the order of its table. A member whose team has ended has no core and no kick register: it
counts as not resident (log entry 52). -/
def execKick (b a d : BitVec 6) (s : State) : Host.Outcome State Fault Refusal :=
  let g := s.me
  let s1 := s.usesAddr a [b]
  let va := s.rs a
  let c := s.gCluster g
  if (s.grp g).inTry then .next (s.abortSync g)
  else if va.toNat % 32 ≠ 0 then .next (s1.trapS .misalign va)
  else
    match s.spadLoc (keyTeam g) va.toNat 32 with
    | none => .next (s1.trapS .spadBounds va)
    | some (t, o) =>
      match s.kickTarget (s.gPart g) (s.rs b) with
      | none => .next (s1.trapS .queue (s.rs b))
      | some t' =>
        let bad := (s.tm t).badAt o
        let s2 := if bad then s1.consumed g false else s1
        let bytes := if bad then List.replicate 32 0 else (s.tm t).bytesAt o 32
        let id := natOfBytes ((bytes.drop 0x18).take 3)
        let e := s.tok id
        if !s.tokExists id || e.state ≠ 2 || e.holder ≠ c || e.lentsh ≥ e.shares then .next (s2.trapS .token 0)
        else if (s.cl (s.tm t').cluster).res ≠ .resident then .next (s2.finish d 2)
        else
          match (s.tm t').core with
          | none => .next (s2.finish d 2)
          | some k =>
          if (s.coreAt k).kick.isSome then .next (s2.finish d 1)
          else if !s.released g then .next (s.stallS 15)
          else
            let s3 := s2.setTok id { e with lentsh := e.lentsh + 1 }
            let s4 := s3.onCore k fun y => { y with kick := some { bytes, sender := c, senderTeam := keyTeam g, addr := va.toNat } }
            .next (s4.finish d 0)

/-! ## Control registers (04 R96, R97) -/

/-- Who may use a control register: stated for a read, then for a write. -/
inductive CregUse where
  | unassigned | user | kernelWrite | kernel
  deriving DecidableEq, Repr

/-- 04 R97, 18 R433: the access of a register by number. -/
def cregUse (n : Nat) : CregUse :=
  if n = 0x001 then .kernelWrite
  else if n = 0x000 || n = 0x002 || n = 0x010 || n = 0x011 || (0x020 ≤ n && n ≤ 0x025) || n = 0x211 || n = 0x300 || n = 0x301 then .user
  else if (0x100 ≤ n && n ≤ 0x106) || n = 0x200 || n = 0x210 || n = 0x212 then .kernel
  else if (0x411 ≤ n && n ≤ 0x413) || n = 0x415 || n = 0x416 then .kernel
  else if 0x400 ≤ n && n ≤ 0x41F then .user
  else .unassigned

/-- 04 R97: a register that the sequencer stream has no access to. -/
def cregNoSeq (n : Nat) : Bool := n = 0x011 || n = 0x020 || n = 0x212

/-- 04 R96: the trap that a read or write of a register number takes, if any. -/
def cregTrap (n : Nat) (seq kernel write : Bool) : Option Cause :=
  match cregUse n with
  | .unassigned => some .illegal
  | u =>
    if seq && cregNoSeq n then some .context
    else if !kernel && (u = .kernel || (u = .kernelWrite && write)) then some .priv
    else none

/-- 04 R102: `c.clusterid` of a stream: X and Y read 0 in the sequencer stream. -/
def State.clusterIdReg (s : State) (g : Nat) : Word :=
  let t := s.gTeam g
  let c := s.cl t.cluster
  let xy := if keyGrp g = 64 then 0 else (t.member / c.w) * 2 ^ 32 + (t.member % c.w) * 2 ^ 28
  BitVec.ofNat 64 ((if c.orient then 2 ^ 39 else 0) + xy + t.cluster % 2 ^ 24)

/-- The value that `getc` writes (04 R97 to R106, 18 R433). -/
def State.cregRead (s : State) (g n : Nat) : Word :=
  let x := s.grp g
  let t := s.gTeam g
  let c := s.cl t.cluster
  let k := s.coreAt (s.gCore g)
  match n with
  | 0x000 => k.cycle
  | 0x001 => x.gtime
  | 0x002 => x.gtcmp
  | 0x010 => (if keyGrp g = 64 then x.chkint &&& 0xFF1F else x.chkint &&& 0x1F).setWidth 64
  | 0x011 => x.tryabort.setWidth 64
  | 0x020 => BitVec.ofNat 64 (keyGrp g)
  | 0x021 => s.teamId (keyTeam g)
  | 0x022 => s.clusterIdReg g
  | 0x023 => c.gx
  | 0x024 => c.gy
  | 0x025 => c.gz
  | 0x100 => x.bank.xpc
  | 0x101 => x.bank.xlpc
  | 0x102 => x.bank.xcause.setWidth 64
  | 0x103 => x.bank.xstatus.setWidth 64
  | 0x104 => x.bank.xaddr
  | 0x105 => x.bank.xmask.setWidth 64
  | 0x106 => x.bank.xlog.setWidth 64
  | 0x200 => t.hvec
  | 0x210 => t.evthr.setWidth 64
  | 0x211 => t.spawntmr.setWidth 64
  | 0x212 => t.trygrace.setWidth 64
  | 0x300 => 320
  | 0x301 => k.pressgate.setWidth 64
  | 0x410 => if k.freeze then 1 else 0
  | 0x411 => k.smpctl
  | 0x412 => k.smpbase
  | 0x413 => BitVec.ofNat 64 k.smplen
  | 0x414 => BitVec.ofNat 64 k.smphead
  | 0x415 => BitVec.ofNat 64 k.smptail
  | 0x416 => k.smpdrop.setWidth 64
  | _ =>
    if 0x400 ≤ n && n ≤ 0x407 then KMap.read 0 (n - 0x400) k.pmc
    else if 0x408 ≤ n && n ≤ 0x40F then (KMap.read 0 (n - 0x408) k.pmsel).setWidth 64
    else 0

/-- `getc` (05 R135). -/
def execGetc (c : BitVec 12) (d : BitVec 6) (s : State) : Host.Outcome State Fault Refusal :=
  let g := s.me
  match cregTrap c.toNat (keyGrp g = 64) (s.grp g).kernel false with
  | some t => .next (s.trapS t (c.setWidth 64))
  | none =>
    let s1 := if c = 0x414#12 then s.acquire g 2 else s
    .next (s1.finish d (s.cregRead g c.toNat))

/-- A write of a register that the stream holds (04 R98 to R103). -/
def Group.cregWrite (x : Group) (n : Nat) (v : Word) : Group :=
  let b := x.bank
  match n with
  | 0x001 =>
    if x.gtcmp ≠ 0 && v = x.gtcmp then { x with gtime := v, gtcmp := 0, timerDue := true } else { x with gtime := v }
  | 0x002 => { x with gtcmp := v }
  | 0x010 =>
    let w1c := x.chkint &&& ~~~ (v.setWidth 32 &&& 0x1F)
    { x with chkint := if x.isSeq then (w1c &&& 0xFFFF00FF) ||| (v.setWidth 32 &&& 0xFF00) else w1c }
  | 0x011 => { x with tryabort := v.setWidth 32 }
  | 0x100 => { x with bank := { b with xpc := v } }
  | 0x101 => { x with bank := { b with xlpc := v } }
  | 0x102 => { x with bank := { b with xcause := v.setWidth 32 &&& 0x003F07FF } }
  | 0x103 => { x with bank := { b with xstatus := v.setWidth 32 &&& 0xFFFF3F03 } }
  | 0x104 => { x with bank := { b with xaddr := v } }
  | 0x105 => { x with bank := { b with xmask := v.setWidth 32 &&& 0xFFFF } }
  | 0x106 => { x with bank := { b with xlog := v.setWidth 32 &&& 0x1F } }
  | _ => x

/-- A write of a register that the team holds (04 R106). -/
def Team.cregWrite (t : Team) (n : Nat) (v : Word) : Team :=
  match n with
  | 0x200 => { t with hvec := v &&& ~~~ 3#64 }
  | 0x210 => { t with evthr := v.setWidth 32 }
  | 0x211 => { t with spawntmr := v.setWidth 16 }
  | 0x212 => { t with trygrace := v.setWidth 24 }
  | _ => t

/-- A write of a register that the core holds, `c.pressgate` apart (18 R433). -/
def Core.cregWrite (k : Core) (n : Nat) (v : Word) : Core :=
  match n with
  | 0x410 => { k with freeze := v.getLsbD 0 }
  | 0x411 => { k with smpctl := v &&& 0x1FFFFFFFF }
  | 0x412 => { k with smpbase := v &&& ~~~ 63#64 }
  | 0x413 => { k with smplen := (v &&& 31).toNat }
  | 0x415 => { k with smptail := v.toNat % 65536 }
  | 0x416 => { k with smpdrop := v.setWidth 32 }
  | _ =>
    if 0x400 ≤ n && n ≤ 0x407 then { k with pmc := KMap.write 0 (n - 0x400) v k.pmc }
    else if 0x408 ≤ n && n ≤ 0x40F then { k with pmsel := KMap.write 0 (n - 0x408) (v.setWidth 32 &&& 0xFFFF) k.pmsel }
    else k

/-- Writes a control register (04 R96 to R107): a register whose fields are all RO ignores the write. -/
def State.cregWrite (s : State) (g n : Nat) (v : Word) : State :=
  if n < 0x200 then s.onGrp g fun x => x.cregWrite n v
  else if n < 0x300 then s.onTm (keyTeam g) fun t => t.cregWrite n v
  else if n = 0x301 then
    let ks := if keyGrp g = 64 then s.memberCores (s.gCluster g) else [s.gCore g]
    ks.foldl (fun s k => s.onCore k fun c => { c with pressgate := v.setWidth 32 }) s
  else if n ≥ 0x400 then s.onCore (s.gCore g) fun k => k.cregWrite n v
  else s

/-- `setc` (05 R135): a counter that it writes then counts the instruction's own events (18 R434). -/
def execSetc (c : BitVec 12) (a : BitVec 6) (s : State) : Host.Outcome State Fault Refusal :=
  let g := s.me
  if (s.grp g).inTry then .next (s.abortSync g)
  else
    match cregTrap c.toNat (keyGrp g = 64) (s.grp g).kernel true with
    | some t => .next (s.trapS t (c.setWidth 64))
    | none => .next ((s.cregWrite g c.toNat (s.rs a)).uses [a]).nextPc

/-! ## Checks, calls and ends -/

/-- Is the lane stream idle with an empty clause queue? -/
def Group.laneIdle (x : Group) : Bool := x.queue.isEmpty && x.run.isNone

/-- Is an atomic or a reduction of the group queued or on its way, whose consumption of poison is still to be seen (05 R136, 10 R251,
R252)? -/
def Group.reducing (x : Group) : Bool :=
  (x.storeq.any fun o => o.kind = .reduce) || x.oplog.any fun e => (e.2.kind = .reduce || e.2.kind = .atomic) && e.2.waitsRemote

/-- `chkerr` (05 R136): a handler does not wait for the lane stream (08 R199); a sequencer stream acquires what its Press instructions wrote
(12 R295). -/
def execChkerr (d : BitVec 6) (s : State) : Host.Outcome State Fault Refusal :=
  let g := s.me
  let x := s.grp g
  let ready := if keyGrp g = 64 then s.pressIdle (s.gCluster g) else x.kernel || (x.laneIdle && !x.reducing)
  if !ready || x.awaits false then .next (s.stallS 15)
  else .next ((if keyGrp g = 64 then s.acquire g 3 else s).finish d (s.cregRead g 0x010))

/-- `ecall` (05 R137). -/
def execEcall (e : BitVec 19) (s : State) : Host.Outcome State Fault Refusal :=
  if (s.grp s.me).inTry then .next (s.abortSync s.me) else .next (s.trapS .syscall (e.setWidth 64))

/-- `brk` (05 R137). -/
def execBrk (e : BitVec 19) (s : State) : Host.Outcome State Fault Refusal := .next (s.trapS .brk (e.setWidth 64))

/-- `exit` (02 R54, 05 R138): a group ends once its lane stream is idle and its queue empty, a sequencer stream once its Press
instructions have completed. -/
def execExit (s : State) : Host.Outcome State Fault Refusal :=
  let g := s.me
  let x := s.grp g
  let c := s.gCluster g
  if x.inTry then .next (s.abortSync g)
  else if keyGrp g = 64 then
    if s.pressIdle c then .next ((s.exitStream g).tryEndTeam (keyTeam g) |>.tryEndCluster c) else .next (s.stallS 12)
  else if x.laneIdle then .next ((s.exitStream g).tryEndTeam (keyTeam g)) else .next (s.stallS 12)

/-- `xret` (05 R140, 08 R204): privileged. It waits while the access that it re-issues cannot go out. -/
def execXret (s : State) : Host.Outcome State Fault Refusal :=
  let x := s.grp s.me
  if !x.kernel then .next (s.trapS .priv 0)
  else
    match x.pendLog.bind fun e => s.reissueHeld s.me e (x.bank.xstatus.getLsbD 0) with
    | some s1 => .next (s1.stallS 15)
    | none => .next (s.xret s.me)

/-- Drops the translations of a partition that a test names, from every TLB (05 R141). -/
def State.dropTlbs (s : State) (p : Nat) (f : TlbEntry → Bool) : State :=
  let keep (e : TlbEntry) : Bool := e.part ≠ p || !f e
  { s with
    cores := s.cores.map fun c => (c.1, { c.2 with tlb := c.2.tlb.filter keep })
    l2tlb := s.l2tlb.map fun d => (d.1, d.2.filter keep) }

/-- 05 R141: what the forms of `pginv` share: privileged, SYNC in `try`, and first a release at device scope; its registers are used when
it begins (03 R64, 05 R112). -/
def State.pginv (s : State) (use : State → State) (f : TlbEntry → Bool) : State :=
  let g := s.me
  let x := s.grp g
  if !x.kernel then s.trapS .priv 0
  else if x.inTry then s.abortSync g
  else if !s.released g then s.stallS 15
  else ((use s).dropTlbs (s.gPart g) f).nextPc

/-- Does a TLB entry map any address of a range widened to 64 KiB boundaries? -/
def TlbEntry.inRange (e : TlbEntry) (a n : Nat) : Bool :=
  n ≠ 0 && decide (e.vpage * 2 ^ e.leaf.bits < (a + n + 65535) / 65536 * 65536) && decide (a / 65536 * 65536 < (e.vpage + 1) * 2 ^ e.leaf.bits)

/-- `pginv.range` (05 R141). -/
def execPginvRange (b a : BitVec 6) (s : State) : Host.Outcome State Fault Refusal :=
  .next (s.pginv (fun s => s.usesAddr a [b]) fun e => e.inRange (s.rs a).toNat (s.rs b).toNat)

/-- `pginv.token` (05 R141). -/
def execPginvToken (a : BitVec 6) (s : State) : Host.Outcome State Fault Refusal :=
  .next (s.pginv (fun s => s.uses [a]) fun e => e.leaf.tok = (s.rs a).toNat % 2 ^ 24)

/-- `pginv.all` (05 R141). -/
def execPginvAll (s : State) : Host.Outcome State Fault Refusal := .next (s.pginv id fun _ => true)

end Sys2Proof.Machine
end

