-- ==== Sys2Proof/Machine/Try.lean ====
section
/-! DEFINITION. Speculation: `try`, `commit`, `abort` (08 R208, R209). -/

namespace Sys2Proof.Machine

/-- 08 R208: what `try` and `commit` wait for: an empty clause queue, an idle lane stream, every scalar load landed. -/
def Group.tryDrained (x : Group) : Bool := x.queue.isEmpty && x.run.isNone && !x.awaits false

/-- 08 R208: the checkpoint that an outermost `try` takes. -/
def Group.checkpoint (x : Group) (d : Nat) (landing : Word) : Group :=
  { x with tr := some { sd := d, landing, savedS := x.s, savedP := x.sPoison, savedK := x.k, savedLive := x.live } }

/-- `try` (08 R208): a group stream only. -/
def execTryStart (i : BitVec 19) (d : BitVec 6) (s : State) : Host.Outcome State Fault Refusal :=
  let g := s.me
  let x := s.grp g
  if keyGrp g = 64 then .next (s.trapS .context 0)
  else if !x.tryDrained then .next (s.stallS 11)
  else
    match x.tr with
    | some y =>
      if y.depth = 255 then .next (s.abortGroup g 6 0x0B)
      else .next ((s.onGrp g fun x => { x with tr := some { y with depth := y.depth + 1 } }).finish d 0)
    | none => .next ((s.onGrp g fun x => x.checkpoint d.toNat (x.pc + 4 * i.signExtend 64)).finish d 0)

/-- The scratchpad stores of the try buffer are performed in program order. -/
def State.commitSpad (s : State) (g : Nat) (o : MemOp) : State :=
  o.accs.foldl (fun s a =>
    match s.spadLoc (keyTeam g) a.va.toNat o.size with
    | some (t, off) => s.onTm t fun y => y.storeAt off (bytesOfNat o.size a.data)
    | none => s) s

/-- 08 R208: the outermost `commit`: buffered stores enter the store queue in program order, rolled-back lanes return. A group that
pre-emption let finish its `try` stops after it (R214). -/
def State.commitOuter (s : State) (g : Nat) (y : TryState) : State :=
  let s1 := (y.buffer.filter fun o => o.spad).foldl (fun s o => s.commitSpad g o) s
  let done := (y.buffer.filter fun o => o.spad || o.accs.isEmpty).filterMap fun o => o.flag
  (s1.onGrp g fun x => { x.lowerAll done with
    oplog := x.oplog.map fun e => (e.1, { e.2 with tried := false })
    storeq := x.storeq ++ (y.buffer.filter fun o => !o.spad && !o.accs.isEmpty).map fun o => { o with age := x.taken }
    live := x.live ||| y.aborted
    out := x.out || x.grace.isSome
    grace := none
    tr := none }).count g 0x12 1

/-- `commit` (08 R208): a group stream only; ignored outside `try`. -/
def execCommit (d : BitVec 6) (s : State) : Host.Outcome State Fault Refusal :=
  let g := s.me
  let x := s.grp g
  if keyGrp g = 64 then .next (s.trapS .context 0)
  else
    match x.tr with
    | none => .next s.nextPc
    | some y =>
      if !x.tryDrained then .next (s.stallS 11)
      else if y.depth > 1 then .next ((s.onGrp g fun x => { x with tr := some { y with depth := y.depth - 1 } }).finish d 0)
      else if match x.grace with | some n => decide (n > (s.gTeam g).trygrace.toNat) | none => false then .next (s.abortGroup g 5 0)
      else .next ((s.commitOuter g y).finish d (y.aborted.setWidth 64))

/-- `abort` (08 R208): a group stream only; ignored outside `try`. -/
def execAbort (e : BitVec 8) (s : State) : Host.Outcome State Fault Refusal :=
  let g := s.me
  if keyGrp g = 64 then .next (s.trapS .context 0)
  else if (s.grp g).inTry then .next (s.abortGroup g 1 e.toNat)
  else .next s.nextPc

end Sys2Proof.Machine
end

