-- ==== Sys2Proof/Machine/Events.lean ====
section
/-! DEFINITION. Events of streams: accesses that land or are performed (08 R202, R203, 10 R245), faults found later (08 R203, R205,
R206), timers (04 R98), stalls that end (17 R422), undecodable code (03 R61, R64), and what replays re-issue (10 R255). -/

namespace Sys2Proof.Machine

/-! ## Faults taken at a boundary (08 R201, R203, R205, R213, 04 R98) -/

/-- May a fault of a stream be taken now, at a boundary of its scalar stream (05 R112): user mode, neither halted nor switched out (08 R200,
R201), no scalar access on its way? -/
def Group.takesFaults (x : Group) : Bool := !x.kernel && !x.halted && !x.out && !x.inFlight false

/-- A load, atomic or copy whose faults are precise (10 R241, 13 R321). -/
def MemOp.precise (o : MemOp) : Bool :=
  o.kind = .load || o.kind = .loadSpec || o.kind = .atomic || o.kind = .copyIn || o.kind = .cast

/-- A precise fault of a lane access that was found after issue and is still to be taken (08 R203). -/
def Group.dueLoadFault (x : Group) : Option Nat :=
  (x.oplog.find? fun e => e.2.fault.isSome && e.2.lane && e.2.precise && decide (x.handling ≠ some e.1) &&
    !(x.faults.any fun f => f.log = some e.1)).map Prod.fst

/-- 08 R203, 10 R241: takes the precise fault held in an operand-log entry. -/
def State.takeLoadFault (s : State) (g e : Nat) : State :=
  let x := s.grp g
  match KMap.find e x.oplog with
  | none => s
  | some o =>
    match o.fault with
    | some (c, m, a) =>
      if o.lane && o.precise && x.takesFaults && x.handling ≠ some e && !(x.faults.any fun f => f.log = some e) then
        s.trap g { cause := c, lane := true, slot := o.slot, mask := m, addr := a, log := some e }
      else s
    | none => s

/-- The event POSTISSUE_LOAD_FAULT (08 R203). -/
def execPostissueLoadFault (g e : Nat) (s : State) : Host.Outcome State Fault Refusal := .next (s.takeLoadFault g e)

/-- What the trap of a logged fault reports. -/
def MemOp.imprecise (o : MemOp) (f : Cause × BitVec 16 × Word) : TrapInfo :=
  { cause := f.1, lane := o.lane, slot := if o.lane then o.slot else 0, mask := f.2.1, addr := f.2.2, log := o.log, imprecise := true, orig := o.orig }

/-- Takes the oldest logged fault with IMPRECISE = 1, behind a precise lane fault that is due (08 R201); inside `try` it aborts the group
with FAULT and stays held (08 R213). -/
def State.takeImprecise (s : State) (g : Nat) : State :=
  let x := s.grp g
  if !x.takesFaults || x.dueLoadFault.isSome then s
  else
    match x.faults.find? fun o => o.fault.isSome with
    | none => s
    | some o =>
      match o.fault with
      | none => s
      | some f => s.trap g (o.imprecise f)

/-- The event IMPRECISE_STORE_FAULT (08 R203). -/
def execImpreciseStoreFault (g : Nat) (s : State) : Host.Outcome State Fault Refusal := .next (s.takeImprecise g)

/-- 04 R98: takes a timer event that is due: held in kernel mode and behind a fault that is due; inside `try` an abort, else a trap. -/
def State.takeTimer (s : State) (g : Nat) : State :=
  let x := s.grp g
  if !x.timerDue || !x.takesFaults || x.dueLoadFault.isSome || x.faults.any (fun o => o.fault.isSome) then s
  else
    let s1 := s.onGrp g fun y => { y with timerDue := false }
    if x.inTry then s1.abortGroup g 9 0 else s1.trap g { cause := .timer }

/-- The event TIMER_EVENT (04 R98). -/
def execTimerEvent (g : Nat) (s : State) : Host.Outcome State Fault Refusal := .next (s.takeTimer g)

/-- 10 R263, 05 R112: a `vfence` whose conditions do not hold, with no later instruction of its path issued, has not begun: the path stands
at it again, and its slot's flag as before it. One that later instructions have passed keeps its entry (log entry 68). -/
def Group.unfence (x : Group) : Group :=
  match x.path, x.oplog.find? fun e => e.2.kind = .fence && !e.2.accs.isEmpty with
  | some p, some (e, o) =>
    if p.lpc ≠ o.slot + 12 then x
    else
      let y := { x with oplog := KMap.del e x.oplog, path := some { p with lpc := o.slot } }
      match x.run, x.curClause with
      | some r, some (a, _) =>
        let i := (o.slot - a).toNat / 12
        if !x.inCall && (r.entry.counts.any fun c => c.1 = i) then { y with run := some { r with reached := r.reached.filter fun n => n ≠ i } }
        else y.lower o.flag
      | _, _ => y.lower o.flag
  | _, _ => x

/-- A stream stops (08 R214, R215). -/
def Group.stopped (x : Group) : Group := { x.unfence with out := true }

/-- 08 R214 steps 1 and 2: a stream in `try` runs on for its grace; another takes the trap that is due and stops at its boundary, which it
reaches when a scalar access on its way has landed (05 R112); its lane stream issues nothing more (`State.seeks`). -/
def State.stopStream (s : State) (g : Nat) : State :=
  if (s.grp g).inTry then s.onGrp g fun y => { y with grace := some 0 }
  else if (s.grp g).inFlight false then s
  else
    let s1 := match (s.grp g).dueLoadFault with
      | some e => s.takeLoadFault g e
      | none => s
    let s2 := (s1.takeImprecise g).takeTimer g
    if (KMap.find g s2.groups).isSome then s2.onGrp g Group.stopped else s2

/-! ## Accesses that land (08 R202, 10 R242, R244, R251, 11 R290) -/

/-- Some bytes of an answer replaced by the group's own (11 R271). -/
def overBytes (bs : List Byte) (fwd : List (Nat × Byte)) : List Byte := fwd.foldl (fun bs e => bs.set e.1 e.2) bs

/-- The answer to an access of another device, a value with its poison, lands (10 R242 to R252): a load carries the poison into its slots,
inside `try` a first write of a line like any other (08 R209, log entry 15); an atomic on a poisoned target gives the substitute and a consumption, a reduction on one a consumption. -/
def State.landAcc (s : State) (g : Nat) (o : MemOp) (a : LaneAcc) (v : Nat × Bool) : State :=
  let n := if o.kind = .atomic then tyWidth o.ty / 8 else o.size
  match o.kind with
  | .load | .loadSpec =>
    let bs := overBytes (bytesOfNat n v.1) a.fwd
    if o.lane then s.onGrp g fun x => x.putLoad o a.lane bs v.2
    else
      let s1 := if v.2 then s.consumed g false else s
      s1.onGrp g fun x => x.sSet o.dst (if v.2 then 0 else BitVec.ofInt 64 (if o.sext then sext (natOfBytes bs) (8 * n) else (natOfBytes bs : Int)))
  | .atomic =>
    let s1 := if v.2 then s.consumed g o.lane else s
    let w := if v.2 then (if tyFloat o.ty then fp32.nan else 0) else v.1 % 2 ^ (8 * n)
    if o.lane then s1.onGrp g fun x => x.putLoad { o with size := n, sext := false } a.lane (bytesOfNat n w) false
    else s1.onGrp g fun x => x.sSet o.dst (BitVec.ofInt 64 (if o.sext then sext w (8 * n) else (w : Int)))
  | .reduce => if v.2 then s.consumed g true else s
  | _ => s

/-- The answers to the accesses of an entry that are on their way, in lane order, or after 2 ms the cause REMOTE to each (19 R448): what is
left, unsent, with the causes that came back. -/
def State.landAll (s : State) (g : Nat) (o : MemOp) (late : Bool) : List LaneAcc → State × List (LaneAcc × Option Cause)
  | [] => (s, [])
  | a :: as =>
    if !a.sent then let r := s.landAll g o late as; (r.1, (a, none) :: r.2)
    else
      let r := if late then (.error .remote, s) else s.remoteAnswer
      match r.1 with
      | .ok v => (r.2.landAcc g o a v).landAll g o late as
      | .error c => let u := r.2.landAll g o late as; (u.1, ({ a with sent := false, fwd := [] }, some c) :: u.2)

/-- Lanes of two lists of accesses, ascending. -/
def mergeAccs (a b : List LaneAcc) : List LaneAcc := (List.range 17).flatMap fun t => (a ++ b).filter fun x => x.lane = t

/-- An entry with nothing left, and nothing queued or held under it, is freed and its flag lowered (08 R202). -/
def Group.freeDone (x : Group) (e : Nat) : Group :=
  match KMap.find e x.oplog with
  | some o =>
    if o.accs.isEmpty && !(x.storeq.any (fun q => q.log = some e) || x.faults.any fun q => q.log = some e) then x.freeEntry e else x
  | none => x

/-- 08 R203, 11 R290: a store or reduction after the answers to its accesses: one that another device refused is a logged fault, with the
lanes held already if there are any. -/
def Group.settleStore (x : Group) (e : Nat) (o : MemOp) (left : List (LaneAcc × Option Cause)) : Group :=
  let y := { x with oplog := KMap.put e { o with accs := [], fault := none } x.oplog }
  if left.isEmpty then y.freeDone e
  else
    match x.faults.find? fun q => q.log = some e with
    | some _ => { y with faults := y.faults.map fun q => if q.log = some e then { q with accs := mergeAccs (left.map Prod.fst) q.accs } else q }
    | none => y.holdFault e o left

/-- What an entry's answers come to (10 R241, R242, 08 R205): a store's above; a load or atomic with nothing left is freed and acquires if
it is an acquire, a scalar one moves its stream on; a fault of a re-issued access is a logged one, of a lane access a precise one found
after issue, of a scalar access a trap at once. Behind a fault that is held it stays pending. -/
def State.settleLanded (s : State) (g e : Nat) (o : MemOp) (left : List (LaneAcc × Option Cause)) : State :=
  let accs := left.map Prod.fst
  if o.inOrder then s.onGrp g fun x => x.settleStore e o left
  else
    match faultOf left with
    | none =>
      let s1 := s.onGrp g fun y =>
        if !accs.isEmpty then { y with oplog := KMap.put e { o with accs } y.oplog }
        else
          let z := y.freeEntry e
          if o.lane || o.reissued then z else { z with pc := z.pc + 4, stall := 0 }
      s1.acquireDone g o accs
    | some (c, m, va) =>
      let held := o.fault.isSome || (s.grp g).faults.any fun q => q.log = some e
      let o1 := { o with accs, fault := if held then o.fault else some (c, if o.lane then m else 0, va), log := some e }
      if !held && o.reissued then s.onGrp g fun x => x.refault e o left
      else
        let s1 := s.onGrp g fun x => { x with oplog := KMap.put e o1 x.oplog }
        if held then s1
        else if o.lane then s1.takeLoadFault g e
        else s1.trap g { cause := c, addr := va, log := some e }

/-- A stream of a team being pre-empted that has reached its boundary stops there (08 R214). -/
def State.stopLater (s : State) (g : Nat) : State :=
  if (KMap.find g s.groups).isSome && (s.gTeam g).res = .stopping && !(s.grp g).out && !(s.grp g).inTry then s.stopStream g else s

/-- The answers of another device to an entry of a live stream. -/
def State.landEntry (s : State) (g e : Nat) (o : MemOp) (late : Bool) : State :=
  let r := s.landAll g o late o.accs
  (r.1.settleLanded g e o r.2).stopLater g

/-! ## Exited groups (02 R54, 08 R206) -/

/-- An operation of an exited group: done apart from any live group that has its number; the poison that it consumed joins the team's
(04 R100, 10 R252). -/
def State.asGone (s : State) (g : Nat) (f : State → State × List (LaneAcc × Option Cause)) : State × List (LaneAcc × Option Cause) :=
  let r := f { s with groups := KMap.del g s.groups }
  let bits := (r.1.grp g).chkint &&& 31
  let s1 := if bits = 0 then r.1 else r.1.onTm (keyTeam g) fun t => { t with chk := t.chk ||| bits }
  ({ s1 with groups := match KMap.find g s.groups with
      | some x => KMap.put g x s1.groups
      | none => KMap.del g s1.groups }, r.2)

/-- Stores what is left of a residual record; an empty one is freed, and its team or cluster may end (02 R54, 08 R206). -/
def State.setResidual (s : State) (g : Nat) (r : Residual) : State :=
  if r.storeq.isEmpty then
    (({ s with residuals := KMap.del g s.residuals }).tryEndTeam r.team).tryEndCluster (s.tm r.team).cluster
  else { s with residuals := KMap.put g r s.residuals }

/-- What is left of an operation of a record: the part on its way, and the part held with a fault. -/
def splitLeft (o : MemOp) (left : List (LaneAcc × Option Cause)) : List MemOp :=
  let out := (left.map Prod.fst).filter fun a => a.sent
  let held := (left.map Prod.fst).filter fun a => !a.sent
  (if out.isEmpty then [] else [{ o with accs := out, fault := none }]) ++
    if held.isEmpty then [] else [{ o with accs := held, fault := faultOf left }]

/-- Puts operations in the place of one in a list. -/
def replaceOp (o : MemOp) (os : List MemOp) : List MemOp → List MemOp
  | [] => []
  | x :: xs => if x = o then os ++ xs else x :: replaceOp o os xs

/-- Answers come to the accesses that an exited group had on their way under a log entry. -/
def State.landResidual (s : State) (g e : Nat) (late : Bool) : State :=
  match KMap.find g s.residuals with
  | none => s
  | some r =>
    match r.storeq.find? fun o => o.log = some e && o.waitsRemote with
    | none => s
    | some o =>
      let p := s.asGone g fun s => s.landAll g o late o.accs
      p.1.setResidual g { r with storeq := replaceOp o (splitLeft o p.2) r.storeq }

/-- The event ACCESS_COMPLETION (08 R202): answers land, a lane fence's conditions hold, or an entry with nothing left is freed; its flag
is lowered. -/
def execAccessCompletion (g e : Nat) (s : State) : Host.Outcome State Fault Refusal :=
  let x := s.grp g
  match KMap.find e x.oplog with
  | none => .next (s.landResidual g e false)
  | some o =>
    if o.kind = .fence then
      if s.fenceOk g o.op then
        let s1 := s.onGrp g fun y => y.freeEntry e
        .next (if o.op = 2 then s1 else s1.acquire g o.scope)
      else .next s
    else if o.waitsRemote then .next (s.landEntry g e o false)
    else
      match o.copy with
      | some c => .next (s.settleCopy g c.id)
      | none => .next (if o.accs.isEmpty then s.onGrp g fun y => y.freeDone e else s)

/-- The event REMOTE_TIMEOUT (19 R448): no response within 2 ms. -/
def execRemoteTimeout (g e : Nat) (s : State) : Host.Outcome State Fault Refusal :=
  match KMap.find e (s.grp g).oplog with
  | some o => .next (if o.waitsRemote then s.landEntry g e o true else s)
  | none => .next (s.landResidual g e true)

/-! ## Stores (08 R203, 10 R245, R252) -/

/-- Has an operation the order of a release (10 R238)? -/
def MemOp.releases (o : MemOp) : Bool := o.order / 2 % 2 = 1

/-- 08 R203, 11 R271, R275: the queued operation that may be performed next: the first that no store's fault holds back; none while a load
or an atomic is on its way (one whose fault is held keeps no store back, 05 R112); a release waits for what is on its way to other
devices. -/
def Group.nextStore (x : Group) : Option MemOp :=
  if x.oplog.any fun e => e.2.precise && e.2.copy.isNone && e.2.waitsRemote then none
  else x.drains.head?.filter fun o => !(o.releases && (x.storesOut true || x.storesOut false))

/-- A queued operation of a live group leaves the store queue: performed at its homes, or on its way to another device's, its entry kept
until the acknowledgement; a fault is logged and held (08 R203). A store from the try buffer has no entry; it takes one now, if it needs
one (log entry 66). -/
def State.performStore (s : State) (g : Nat) (o : MemOp) : State :=
  match s.busyUnit g o with
  | some y => s.waitAtUnit g y.1 y.2
  | none =>
    let r := s.performAll g o o.accs
    let drop (x : Group) : Group := { x with storeq := x.storeq.erase o }
    if s.proxyHolds o.order then s
    else if r.2.isEmpty then
      r.1.onGrp g fun x => match o.log with
        | some e => (drop x).freeEntry e
        | none => (drop x).lower o.flag
    else
      match o.log.orElse fun _ => (s.grp g).freeLog with
      | none => s
      | some e =>
        r.1.onGrp g fun x =>
          let y := if o.log.isSome then drop x else { drop x with taken := x.taken + 1 }
          let o := if o.log.isSome then o else { o with age := x.taken }
          if (faultOf r.2).isSome then y.holdFault e o r.2
          else { y with oplog := KMap.put e { o with accs := r.2.map Prod.fst, log := some e } y.oplog }

/-- 08 R203, R206: is a store of an exited group held with a fault by a group that adopted it, so that those behind it wait? -/
def State.adopted (s : State) (r : Residual) : Bool :=
  (s.teamGroups r.team).any fun h => ((s.grp h).faults ++ (s.grp h).storeq).any fun o => o.orig = some r.grp

/-- The next store of an exited group is performed, or sent on its way, or keeps the fault found (08 R206); a release waits for those on
their way before it (11 R275, R290). -/
def State.performResidual (s : State) (g : Nat) (r : Residual) : State :=
  match r.storeq.find? fun o => o.fault.isSome || o.accs.isEmpty || o.accs.any fun a => !a.sent with
  | none => if r.storeq.isEmpty then s.setResidual g r else s
  | some o =>
    if o.fault.isSome || s.adopted r || s.proxyHolds o.order || (o.releases && r.storeq.any fun q => q.waitsRemote) then s
    else
      match s.busyUnit g o with
      | some _ => s
      | none =>
        let p := s.asGone g fun s => s.performAll g o o.accs
        p.1.setResidual g { r with storeq := replaceOp o (splitLeft o p.2) r.storeq }

/-- The event STORE_PERFORMED (10 R245): the next store of a group's queue, or of an exited group's record, is performed. -/
def execStorePerformed (g : Nat) (s : State) : Host.Outcome State Fault Refusal :=
  match KMap.find g s.groups, KMap.find g s.residuals with
  | some x, r =>
    match x.nextStore, r with
    | some o, _ => .next (s.performStore g o)
    | none, some r => .next (s.performResidual g r)
    | none, none => .next s
  | none, some r => .next (s.performResidual g r)
  | none, none => .next s

/-! ## Faults of stores after exit (08 R206) -/

/-- 08 R206: the record of a store fault that no live group can take; it names no stream's status or PC (log entry 58). -/
def State.postExitRecord (s : State) (r : Residual) (o : MemOp) (f : Cause × BitVec 16 × Word) : FaultRec :=
  let i := { o.imprecise f with orig := some (o.orig.getD r.grp) }
  { kind := 1, grp := r.grp, teamid := s.teamId r.team, xcause := i.xcause, xlpc := i.slot, xaddr := i.addr, xmask := i.mask.setWidth 32 }

/-- The event POST_EXIT_STORE_FAULT (08 R206): the team's lowest live group adopts the store and traps; with none, the fault is posted
and the store dropped. -/
def execPostExitStoreFault (g : Nat) (s : State) : Host.Outcome State Fault Refusal :=
  match KMap.find g s.residuals with
  | none => .next s
  | some r =>
    match r.storeq.find? fun o => o.fault.isSome with
    | none => .next s
    | some o =>
      let os := r.storeq.erase o
      match o.fault with
      | none => .next s
      | some f =>
        match (s.teamGroups r.team).find? fun h => !(s.grp h).halted with
        | none => .next ((s.post (s.tm r.team).part (s.postExitRecord r o f)).setResidual g { r with storeq := os })
        | some h =>
          match (s.grp h).freeLog with
          | none => .next s
          | some e =>
            let o1 : MemOp := { o with log := some e, orig := some (o.orig.getD r.grp), flag := none }
            let s1 := s.onGrp h fun x => { x.takeLog e { o1 with accs := [], fault := none } with
              faults := byAge { o1 with age := x.taken } x.faults }
            .next ((s1.takeImprecise h).setResidual g { r with storeq := os })

/-! ## Stalls that end (17 R422) -/

/-- Does what an engine stall of a stream waits for hold, by its reason (18 R437)? -/
def State.awaitedHolds (s : State) (g reason : Nat) (lane : Bool) : Bool :=
  let x := s.grp g
  match reason with
  | 5 => lane || x.queueLen < 8
  | 7 => if lane then !x.fenced else s.released g && !x.awaits false
  | 8 => if keyGrp g = 64 then (s.memberCores (s.gCluster g)).all fun k => (s.coreAt k).press.pending < 16
         else (List.range 4).all fun q => decide ((s.coreAt (s.gCore g)).ladleUsed q < 64)
  | 9 => x.freeLog.isSome
  | 10 => (s.freeGroup (keyTeam g)).isSome
  | 11 => x.tryDrained
  | 12 => if keyGrp g = 64 then s.pressIdle (s.gCluster g) else x.laneIdle
  | 15 => true
  | _ => false

/-- The event ENGINE_STALL_RELEASE (17 R422): a stream whose awaited drain, room or completion has come is ready again, and its
instruction, which had not begun, is tried again. -/
def execEngineStallRelease (g : Nat) (s : State) : Host.Outcome State Fault Refusal :=
  let x := s.grp g
  .next (if (KMap.find g s.groups).isNone then s
    else s.onGrp g fun y => { y with
      stall := if s.awaitedHolds g x.stall false then 1 else x.stall
      lstall := if s.awaitedHolds g x.lstall true then 1 else x.lstall })

/-! ## Replays (10 R255, 16 R398) -/

/-- The event REPLAY_REISSUE (10 R255): operations that waited at a unit that is no longer their line's home go to the home it has
now, in their order. -/
def execReplayReissue (unit : Nat) (s : State) : Host.Outcome State Fault Refusal :=
  let u := s.unitAt unit
  let gone := u.waiting.filter fun o => s.homeOf o.pa ≠ unit
  if gone.isEmpty then .next s
  else
    let s1 := s.onUnit unit fun u => { u with waiting := u.waiting.filter fun o => s.homeOf o.pa = unit }
    .next (gone.foldl (fun s o => (s.onUnit (s.homeOf o.pa) fun u => { u with waiting := u.waiting ++ [o] }).count o.g 0x11 1) s1)

/-! ## Code that cannot run (03 R61, R64, R72) -/

/-- 03 R72: active(G) of a slot that no instruction has, by its guard bits; a poisoned slot reads as zeros. The slot is the one that was fetched:
its answers are drawn when it traps. -/
def State.rawActive (s : State) (g : Nat) : BitVec 16 :=
  let x := s.grp g
  match s.fetchBytes g x.slot.toNat 12 with
  | .ok (bs, bad) =>
    let w := if bad then 0 else natOfBytes bs
    x.active { (default : LaneWord) with gneg := BitVec.ofNat 1 (bits w 14 14), guard := BitVec.ofNat 3 (bits w 13 11) }
  | .error _ => x.here

/-- The event UNASSIGNED_ENCODING (03 R61, R72): a word that no instruction has, or a lane slot whose sector is poisoned, traps with
ILLEGAL; the poison of the code is consumed, and of a slot of another device's page its answers are drawn. -/
def execUnassignedEncoding (lane poisoned : Bool) (s : State) : Host.Outcome State Fault Refusal :=
  let s1 := if poisoned then s.consumed s.me lane else s
  let drawn : State := { s1 with free := if s.codeFar s.me (s.grp s.me).slot.toNat 12 then s1.free + 12 else s1.free }
  .next (if lane then drawn.trapL .illegal (s.rawActive s.me) 0 else s1.trapS .illegal 0)

/-- The event FETCH_FAULT (03 R64): a fetch finds no mapping or no permission: PAGE or PERM, or the cause of the token check. The
mask of a lane fetch is the path's live lanes, and the address that of the word that was fetched (log entry 59). -/
def execFetchFault (lane : Bool) (cause : Nat) (addr : BitVec 64) (s : State) : Host.Outcome State Fault Refusal :=
  let c : Cause := match remoteCauses.find? fun c => c.code = cause with
    | some c => c
    | none => .page
  .next (if lane then s.trapL c (s.grp s.me).here addr else s.trapS c addr)

end Sys2Proof.Machine
end

