-- ==== Sys2Proof/Machine/LaneInt.lean ====
section
/-! DEFINITION. Lane integer instructions (06 R147 to R155). -/

namespace Sys2Proof.Machine

/-! ## Element results -/

/-- 06 R144: applies an exact function of two elements and narrows the result, clamped under S. -/
def intElems2 (ty : BitVec 4) (sat : Bool) (fn : Int → Int → Int) (a b : Nat) : Nat :=
  eachElem ty fun e => narrow ty sat (fn (intVal ty (elem ty a e)) (intVal ty (elem ty b e)))

/-- 06 R144 for three elements. -/
def intElems3 (ty : BitVec 4) (sat : Bool) (fn : Int → Int → Int → Int) (a b c : Nat) : Nat :=
  eachElem ty fun e => narrow ty sat (fn (intVal ty (elem ty a e)) (intVal ty (elem ty b e)) (intVal ty (elem ty c e)))

/-- 06 R144 for one element. -/
def intElems1 (ty : BitVec 4) (sat : Bool) (fn : Int → Int) (a : Nat) : Nat :=
  eachElem ty fun e => narrow ty sat (fn (intVal ty (elem ty a e)))

/-- The saturate bit of an instruction that has one (03 R68). -/
def satOf (f : LaneWord) : Bool := f.md.getLsbD 3

/-- 06 R148: the quotient, as 05 R115 with W in place of 64. -/
def laneQuot (ty : BitVec 4) (a b : Nat) : Nat :=
  let w := tyWidth ty
  if b % 2 ^ w = 0 then 2 ^ w - 1 else wrap ((intVal ty a).tdiv (intVal ty b)) w

/-- 06 R148: the remainder. -/
def laneRem (ty : BitVec 4) (a b : Nat) : Nat :=
  let w := tyWidth ty
  if b % 2 ^ w = 0 then a else wrap ((intVal ty a).tmod (intVal ty b)) w

/-- 06 R150: shifts and rotates a W-bit pattern by an element of B modulo W. -/
def shiftElems (ty : BitVec 4) (fn : Nat → Nat → Nat) (a b : Nat) : Nat :=
  eachElem ty fun e => fn (elem ty a e) (elem ty b e % tyWidth ty)

/-- A W-bit pattern shifted right with copies of its top bit. -/
def sraN (w x c : Nat) : Nat := wrap (sext x w / (2 ^ c : Nat)) w

/-- A W-bit pattern rotated left. -/
def rotN (w x c : Nat) : Nat := (x * 2 ^ c % 2 ^ w) + x / 2 ^ (w - c)

/-- The count of leading zeros of a W-bit pattern (06 R151). -/
def lzcN (w x : Nat) : Nat := if x % 2 ^ w = 0 then w else w - 1 - Nat.log2 (x % 2 ^ w)

/-- The count of one bits of a W-bit pattern (06 R151). -/
def onesN (w x : Nat) : Nat := ((List.range w).filter fun i => x.testBit i).length

/-- 06 R152 `vbfx`. -/
def laneExtract (ty : BitVec 4) (a b : Nat) : Nat :=
  let w := tyWidth ty
  let p := bits b 5 0
  let n := bits b 14 8
  if p ≥ w || n = 0 then 0
  else
    let n := min n (w - p)
    let x := bits a (p + n - 1) p
    if tySigned ty then wrap (sext x n) w else x

/-- 06 R152 `vbfi`. -/
def laneInsert (ty : BitVec 4) (a b c : Nat) : Nat :=
  let w := tyWidth ty
  let p := bits b 5 0
  let n := bits b 14 8
  if p ≥ w || n = 0 then c
  else
    let n := min n (w - p)
    c - bits c (p + n - 1) p * 2 ^ p + bits a (n - 1) 0 * 2 ^ p

/-- 06 R153: an integer condition. -/
def intCond (ty : BitVec 4) (cond a b : Nat) : Bool :=
  let x := intVal ty a
  let y := intVal ty b
  match cond with
  | 0 => decide (x = y)
  | 1 => decide (x ≠ y)
  | 2 => decide (x < y)
  | 3 => decide (x ≤ y)
  | 4 => decide (x > y)
  | _ => decide (x ≥ y)

/-- 06 R153: combines a new bit with the present one by mod[22:20]. -/
def combine (md : BitVec 4) (old new : Bool) : Bool :=
  match (md &&& 7#4).toNat with
  | 0 => new
  | 1 => old && new
  | _ => old || new

/-- 06 R155: the other signedness of a four-byte type under `.mix`. -/
def mixTy (ty : BitVec 4) (mix : Bool) : BitVec 4 := if mix then (if ty = 11#4 then 12 else 11) else ty

/-- 06 R155: the four-way dot product. -/
def dot4 (ty : BitVec 4) (mix sat : Bool) (a b c : Nat) : Nat :=
  let rt : BitVec 4 := if ty = 12#4 && !mix then 0 else 1
  let p (e : Nat) : Int := intVal ty (elem ty a e) * intVal (mixTy ty mix) (elem ty b e)
  narrow rt sat (intVal rt c + p 0 + p 1 + p 2 + p 3)

/-! ## Shapes -/

/-- A row of two sources of the instruction's type (06 R147). -/
def State.int2 (s : State) (f : LaneWord) (fn : Nat → Nat → Nat) : State := s.lane2 f f.ty f.ty f.ty fn

/-- A row of one source. -/
def State.int1 (s : State) (f : LaneWord) (fn : Nat → Nat) : State := s.lane1 f f.ty f.ty fn

/-- A row of three sources. -/
def State.int3 (s : State) (f : LaneWord) (fn : Nat → Nat → Nat → Nat) : State := s.lane3 f f.ty f.ty f.ty f.ty fn

/-! ## Meanings -/

/-- `vadd` (06 R147). -/
def execVadd (f : LaneWord) (s : State) : Host.Outcome State Fault Refusal :=
  .next (s.int2 f (intElems2 f.ty (satOf f) fun a b => a + b))

/-- `vsub` (06 R147). -/
def execVsub (f : LaneWord) (s : State) : Host.Outcome State Fault Refusal :=
  .next (s.int2 f (intElems2 f.ty (satOf f) fun a b => a - b))

/-- `vmul` (06 R147). -/
def execVmul (f : LaneWord) (s : State) : Host.Outcome State Fault Refusal :=
  .next (s.int2 f (intElems2 f.ty (satOf f) fun a b => a * b))

/-- `vmulh` (06 R147). -/
def execVmulh (f : LaneWord) (s : State) : Host.Outcome State Fault Refusal :=
  .next (s.int2 f (intElems2 f.ty false fun a b => a * b / (2 ^ tyWidth f.ty : Nat)))

/-- `vmad` (06 R147). -/
def execVmad (f : LaneWord) (s : State) : Host.Outcome State Fault Refusal :=
  .next (s.int3 f (intElems3 f.ty (satOf f) fun a b c => a * b + c))

/-- `vdiv` (06 R148): long-latency. -/
def execVdiv (f : LaneWord) (s : State) : Host.Outcome State Fault Refusal :=
  .next (s.laneLong f (regA f 2 f.ty ++ regB f 2 f.ty) (f.vd.toNat, wide f.ty) 1 (calc2 f f.ty f.ty (laneQuot f.ty)))

/-- `vrem` (06 R148): long-latency. -/
def execVrem (f : LaneWord) (s : State) : Host.Outcome State Fault Refusal :=
  .next (s.laneLong f (regA f 2 f.ty ++ regB f 2 f.ty) (f.vd.toNat, wide f.ty) 1 (calc2 f f.ty f.ty (laneRem f.ty)))

/-- `vmin` (06 R147). -/
def execVmin (f : LaneWord) (s : State) : Host.Outcome State Fault Refusal :=
  .next (s.int2 f (intElems2 f.ty false fun a b => min a b))

/-- `vmax` (06 R147). -/
def execVmax (f : LaneWord) (s : State) : Host.Outcome State Fault Refusal :=
  .next (s.int2 f (intElems2 f.ty false fun a b => max a b))

/-- `vabs` (06 R147). -/
def execVabs (f : LaneWord) (s : State) : Host.Outcome State Fault Refusal :=
  .next (s.int1 f (intElems1 f.ty (satOf f) fun a => (a.natAbs : Int)))

/-- `vabsdiff` (06 R147). -/
def execVabsdiff (f : LaneWord) (s : State) : Host.Outcome State Fault Refusal :=
  .next (s.int2 f (intElems2 f.ty (satOf f) fun a b => ((a - b).natAbs : Int)))

/-- `vand` (06 R149). -/
def execVand (f : LaneWord) (s : State) : Host.Outcome State Fault Refusal :=
  .next (s.int2 f fun a b => a &&& b)

/-- `vor` (06 R149). -/
def execVor (f : LaneWord) (s : State) : Host.Outcome State Fault Refusal :=
  .next (s.int2 f fun a b => a ||| b)

/-- `vxor` (06 R149). -/
def execVxor (f : LaneWord) (s : State) : Host.Outcome State Fault Refusal :=
  .next (s.int2 f fun a b => a ^^^ b)

/-- `vnot` (06 R149). -/
def execVnot (f : LaneWord) (s : State) : Host.Outcome State Fault Refusal :=
  .next (s.int1 f fun a => 2 ^ tyWidth f.ty - 1 - a)

/-- `vshl` (06 R150). -/
def execVshl (f : LaneWord) (s : State) : Host.Outcome State Fault Refusal :=
  .next (s.int2 f (shiftElems f.ty fun a c => a * 2 ^ c % 2 ^ tyWidth f.ty))

/-- `vshr` (06 R150). -/
def execVshr (f : LaneWord) (s : State) : Host.Outcome State Fault Refusal :=
  .next (s.int2 f (shiftElems f.ty fun a c => a / 2 ^ c))

/-- `vsra` (06 R150). -/
def execVsra (f : LaneWord) (s : State) : Host.Outcome State Fault Refusal :=
  .next (s.int2 f (shiftElems f.ty fun a c => sraN (tyWidth f.ty) a c))

/-- `vrot` (06 R150). -/
def execVrot (f : LaneWord) (s : State) : Host.Outcome State Fault Refusal :=
  .next (s.int2 f (shiftElems f.ty fun a c => rotN (tyWidth f.ty) a c))

/-- `vclz` (06 R151). -/
def execVclz (f : LaneWord) (s : State) : Host.Outcome State Fault Refusal :=
  .next (s.int1 f fun a => eachElem f.ty fun e => lzcN (tyWidth f.ty) (elem f.ty a e))

/-- `vpopc` (06 R151). -/
def execVpopc (f : LaneWord) (s : State) : Host.Outcome State Fault Refusal :=
  .next (s.int1 f fun a => eachElem f.ty fun e => onesN (tyWidth f.ty) (elem f.ty a e))

/-- `vbfx` (06 R152). -/
def execVbfx (f : LaneWord) (s : State) : Host.Outcome State Fault Refusal :=
  .next (s.int2 f (laneExtract f.ty))

/-- `vbfi` (06 R152). -/
def execVbfi (f : LaneWord) (s : State) : Host.Outcome State Fault Refusal :=
  .next (s.int3 f (laneInsert f.ty))

/-- `vcmp` (06 R153). -/
def execVcmp (f : LaneWord) (s : State) : Host.Outcome State Fault Refusal :=
  let kd := f.vd.toNat % 8
  .next (s.laneTest f (regA f 2 f.ty ++ regB f 2 f.ty) kd 1 fun x t =>
    let a := x.srcA f 2 f.ty t
    let b := x.srcB f 2 f.ty t
    (combine f.md ((x.kGet kd).getLsbD t) (intCond f.ty f.sub.toNat a.1 b.1), a.2 || b.2))

/-- `vsel` (06 R154): both sources are read, whichever is selected. -/
def execVsel (f : LaneWord) (s : State) : Host.Outcome State Fault Refusal :=
  .next (s.laneCalc f (regA f 2 f.ty ++ regB f 2 f.ty) (f.vd.toNat, wide f.ty) 1 fun x t =>
    let a := x.srcA f 2 f.ty t
    let b := x.srcB f 2 f.ty t
    (if (x.kGet (f.vc.toNat % 8)).getLsbD t then a.1 else b.1, a.2 || b.2))

/-- `vdp4` (06 R155). -/
def execVdp4 (f : LaneWord) (s : State) : Host.Outcome State Fault Refusal :=
  .next (s.lane3 f f.ty (mixTy f.ty (f.sub = 1#4)) 1#4 1#4 (dot4 f.ty (f.sub = 1#4) (satOf f)))

end Sys2Proof.Machine
end

