-- ==== Sys2Proof/Machine/LaneFloat.lean ====
section
/-! DEFINITION. Lane float instructions (07 R182 to R196). -/

namespace Sys2Proof.Machine

/-! ## What the rows share -/

/-- The rounding code of an instruction (03 R68). -/
def rmOf (f : LaneWord) : Nat := f.md.toNat % 8

/-- A row of two sources, each element a function of the elements (07 R183). -/
def State.float2 (s : State) (f : LaneWord) (fn : Fmt → Nat → Nat → Nat) : State :=
  s.lane2 f f.ty f.ty f.ty fun a b => eachElem f.ty fun e => fn (fmtOf f.ty) (elem f.ty a e) (elem f.ty b e)

/-- A long-latency row of one source. -/
def State.floatLong1 (s : State) (f : LaneWord) (fn : Nat → Nat) : State :=
  s.laneLong f (regA f 1 f.ty) (f.vd.toNat, wide f.ty) (tyCost f.ty) (calc1 f f.ty fn)

/-- 07 R185: the two-way dot product of packed elements and an FP32 addend, rounded once. -/
def dot2 (ty : BitVec 4) (rm : Nat) (sat : Bool) (a b c : Nat) : Nat :=
  let p (e : Nat) : FVal := FVal.mul ((fmtOf ty).value (elem ty a e)) ((fmtOf ty).value (elem ty b e))
  fp32.round rm sat (FVal.add rm (FVal.add rm (fp32.value c) (p 0)) (p 1))

/-- 07 R192: what `vcvt` writes for source `a` where the destination holds `d`. -/
def cvtImage (f : LaneWord) (a d : Nat) : Nat :=
  let conv := convert f.sub f.ty (rmOf f) (satOf f)
  let cs := tyCount f.sub
  let cd := tyCount f.ty
  let e := f.imm.toNat % 8
  if cs = cd then eachElem f.ty fun i => conv (elem f.sub a i)
  else if cs = 1 then eachElem f.ty fun i => if i = e then conv a else elem f.ty d i
  else conv (elem f.sub a e)

/-- Does `vcvt` read its destination: the insert shape (07 R192)? -/
def cvtInserts (f : LaneWord) : Bool := tyCount f.sub = 1 && decide (tyCount f.ty > 1)

/-- 07 R194: the codes and the scale of eight FP32 values under a multiplier: the image of the pair. -/
def packBlock (rule rm : Nat) (xs : List Nat) (m given : Nat) : Nat :=
  let ys := xs.map fun x => FVal.mul (fp32.value x) (fp32.value m)
  let sc := blockScale rule ys given
  packElems 10#4 (ys.map fun y => blockCode rm sc y) + 2 ^ 32 * sc

/-- 07 R196: the eight FP32 values of a block, as the image of eight registers. -/
def unpackBlock (rm codes sc m : Nat) : Nat :=
  ((List.range 8).map fun i => 2 ^ (32 * i) * blockValue rm (elem 10#4 codes i) (sc % 256) m).sum

/-! ## Meanings -/

/-- `vfadd` (07 R184). -/
def execVfadd (f : LaneWord) (s : State) : Host.Outcome State Fault Refusal :=
  .next (s.float2 f fun g => fAdd g (rmOf f) (satOf f))

/-- `vfmul` (07 R184). -/
def execVfmul (f : LaneWord) (s : State) : Host.Outcome State Fault Refusal :=
  .next (s.float2 f fun g => fMul g (rmOf f) (satOf f))

/-- `vffma` (07 R184). -/
def execVffma (f : LaneWord) (s : State) : Host.Outcome State Fault Refusal :=
  .next (s.lane3 f f.ty f.ty f.ty f.ty fun a b c => eachElem f.ty fun e =>
    fFma (fmtOf f.ty) (rmOf f) (satOf f) (elem f.ty a e) (elem f.ty b e) (elem f.ty c e))

/-- `vfmin` (07 R186). -/
def execVfmin (f : LaneWord) (s : State) : Host.Outcome State Fault Refusal :=
  .next (s.float2 f fun g => fMinMax g false)

/-- `vfmax` (07 R186). -/
def execVfmax (f : LaneWord) (s : State) : Host.Outcome State Fault Refusal :=
  .next (s.float2 f fun g => fMinMax g true)

/-- `vfcmp` (07 R187). -/
def execVfcmp (f : LaneWord) (s : State) : Host.Outcome State Fault Refusal :=
  let kd := f.vd.toNat % 8
  .next (s.laneTest f (regA f 2 f.ty ++ regB f 2 f.ty) kd (tyCost f.ty) fun x t =>
    let a := x.srcA f 2 f.ty t
    let b := x.srcB f 2 f.ty t
    (combine f.md ((x.kGet kd).getLsbD t) (fCond (fmtOf f.ty) f.sub.toNat a.1 b.1), a.2 || b.2))

/-- `vfrcp` (07 R191). -/
def execVfrcp (f : LaneWord) (s : State) : Host.Outcome State Fault Refusal := .next (s.floatLong1 f fRcp)

/-- `vfrsq` (07 R191). -/
def execVfrsq (f : LaneWord) (s : State) : Host.Outcome State Fault Refusal := .next (s.floatLong1 f fRsq)

/-- `vfsqrt` (07 R190). -/
def execVfsqrt (f : LaneWord) (s : State) : Host.Outcome State Fault Refusal :=
  .next (s.floatLong1 f fun a => (fmtOf f.ty).round (rmOf f) false (FVal.sqrt (fmtOf f.ty).fb ((fmtOf f.ty).value a)))

/-- `vfexp2` (07 R191). -/
def execVfexp2 (f : LaneWord) (s : State) : Host.Outcome State Fault Refusal := .next (s.floatLong1 f fExp2)

/-- `vflog2` (07 R191). -/
def execVflog2 (f : LaneWord) (s : State) : Host.Outcome State Fault Refusal := .next (s.floatLong1 f fLog2)

/-- `vfsin` (07 R191). -/
def execVfsin (f : LaneWord) (s : State) : Host.Outcome State Fault Refusal := .next (s.floatLong1 f fSin)

/-- `vfcos` (07 R191). -/
def execVfcos (f : LaneWord) (s : State) : Host.Outcome State Fault Refusal := .next (s.floatLong1 f fCos)

/-- `vfdiv` (07 R190). -/
def execVfdiv (f : LaneWord) (s : State) : Host.Outcome State Fault Refusal :=
  let g := fmtOf f.ty
  .next (s.laneLong f (regA f 2 f.ty ++ regB f 2 f.ty) (f.vd.toNat, wide f.ty) (tyCost f.ty)
    (calc2 f f.ty f.ty fun a b => g.round (rmOf f) false (FVal.div (g.value a) (g.value b))))

/-- `vfclass` (07 R188). -/
def execVfclass (f : LaneWord) (s : State) : Host.Outcome State Fault Refusal :=
  .next (s.laneTest f (regA f 1 f.ty) (f.vd.toNat % 8) (tyCost f.ty) fun x t =>
    let a := x.srcA f 1 f.ty t
    (f.imm.getLsbD (fClass (fmtOf f.ty) a.1), a.2))

/-- `vfdot2` (07 R185). -/
def execVfdot2 (f : LaneWord) (s : State) : Host.Outcome State Fault Refusal :=
  .next (s.lane3 f f.ty f.ty 4#4 4#4 (dot2 f.ty (rmOf f) (satOf f)))

/-- `vfround` (07 R189). -/
def execVfround (f : LaneWord) (s : State) : Host.Outcome State Fault Refusal :=
  .next (s.lane1 f f.ty f.ty fun a => eachElem f.ty fun e => fRoundInt (fmtOf f.ty) (rmOf f) (elem f.ty a e))

/-- `vcvt` (07 R192, R193). -/
def execVcvt (f : LaneWord) (s : State) : Host.Outcome State Fault Refusal :=
  let d := (f.vd.toNat, wide f.ty)
  .next (s.laneCalc f (regA f 1 f.sub ++ if cvtInserts f then [d] else []) d (max (tyCost f.sub) (tyCost f.ty)) fun x t =>
    let a := x.srcA f 1 f.sub t
    let o := if cvtInserts f then x.srcReg f.ty t d.1 else (0, false)
    (cvtImage f a.1 o.1, a.2 || o.2))

/-- `vpackbs` (07 R194, R195). -/
def execVpackbs (f : LaneWord) (s : State) : Host.Outcome State Fault Refusal :=
  let given := f.sub = 2#4
  let n := if given then 3 else 2
  .next (s.laneCalc f ((f.va.toNat, 8) :: regB f n 4#4 ++ if given then regC f 0#4 else []) (f.vd.toNat, 2) 1 fun x t =>
    let xs := (List.range 8).map fun i => x.srcReg 4#4 t (f.va.toNat + i)
    let b := x.srcB f n 4#4 t
    let c := if given then x.srcC f 0#4 t else (0, false)
    (packBlock f.sub.toNat (rmOf f) (xs.map Prod.fst) b.1 c.1, (xs.any fun v => v.2) || b.2 || c.2))

/-- `vunpackbs` (07 R196). -/
def execVunpackbs (f : LaneWord) (s : State) : Host.Outcome State Fault Refusal :=
  .next (s.laneCalc f ((f.va.toNat, 2) :: regB f 2 4#4) (f.vd.toNat, 8) 1 fun x t =>
    let a := x.srcReg 10#4 t f.va.toNat
    let sc := x.srcReg 0#4 t (f.va.toNat + 1)
    let b := x.srcB f 2 4#4 t
    (unpackBlock (rmOf f) a.1 sc.1 b.1, a.2 || sc.2 || b.2))

end Sys2Proof.Machine
end

