-- ==== Sys2Proof/Machine/LaneMove.lean ====
section
/-! DEFINITION. Lane moves between lanes, bytes, predicates and the scalar stream (06 R156 to R162). -/

namespace Sys2Proof.Machine

/-! ## Moves -/

/-- `vmov` (06 R156). -/
def execVmov (f : LaneWord) (s : State) : Host.Outcome State Fault Refusal :=
  .next (s.laneCalc f (regB f 2 f.ty) (f.vd.toNat, wide f.ty) 1 fun x t => x.srcB f 2 f.ty t)

/-- 06 R157: the lane that a shuffle reads for lane `t`: mode, B, active lanes; `none` where there is none. -/
def shuffleLane (mode b t : Nat) (m : BitVec 16) : Option Nat :=
  let n : Option Nat :=
    match mode with
    | 0 => some (bits b 3 0)
    | 1 => if bits b 4 0 ≤ t then some (t - bits b 4 0) else none
    | 2 => some (t + bits b 4 0)
    | _ => some (t ^^^ bits b 3 0)
  match n with
  | some n => if n ≤ 15 && m.getLsbD n then some n else none
  | none => none

/-- `vshfl` (06 R157). -/
def execVshfl (f : LaneWord) (s : State) : Host.Outcome State Fault Refusal :=
  let d := (f.vd.toNat, wide f.ty)
  .next (s.laneBody f (regA f 2 f.ty ++ regB f 2 f.ty ++ [d]) fun m =>
    let x := s.grp s.me
    if m ≠ 0 && x.overflowsShadow [d] then s.abortGroup s.me 4 0
    else
      let rs := (bodyLanes f m).map fun t =>
        let b := x.srcB f 2 f.ty t
        let from_ := shuffleLane f.sub.toNat b.1 t m
        let a := x.srcA f 2 f.ty (from_.getD t)
        (t, a.1, from_.isSome, a.2 || b.2)
      let s1 := s.onGrp s.me fun y =>
        (y.vResults f m d.1 d.2 (rs.map fun r => (r.1, r.2.1))).kResults f m (f.vc.toNat % 8) (rs.map fun r => (r.1, r.2.2.1))
      (s1.pconsIf (rs.any fun r => r.2.2.2)).laneNext f m 1)

/-- 06 R158: the permuted bytes. -/
def permuteBytes (a b c : Nat) : Nat :=
  let pool := bytesOfNat 4 a ++ bytesOfNat 4 b
  natOfBytes ((bytesOfNat 4 c).map fun ctl =>
    let p := (pool[(ctl.extractLsb' 0 3).toNat]?).getD 0
    match (ctl.extractLsb' 3 2).toNat with
    | 0 => p
    | 1 => p.extractLsb' 0 4 ++ p.extractLsb' 4 4
    | 2 => 0x00
    | _ => 0xFF)

/-- `vprmt` (06 R158). -/
def execVprmt (f : LaneWord) (s : State) : Host.Outcome State Fault Refusal :=
  .next (s.lane3 f 0#4 0#4 0#4 0#4 permuteBytes)

/-- 06 R159: the speculation status of a lane. -/
def Group.specStatus (x : Group) (t : Nat) : Nat :=
  match x.tr with
  | none => 0
  | some y =>
    2 ^ 16 * min 32 y.buffer.length + 2 ^ 8 * min 255 y.depth + (if (KMap.read [] t y.watch).isEmpty then 0 else 4) +
      (if y.buffer.any fun o => o.accs.any fun a => a.lane = t then 2 else 0) + 1

/-- `vspec` (06 R159). -/
def execVspec (f : LaneWord) (s : State) : Host.Outcome State Fault Refusal :=
  .next (s.laneCalc f [] (f.vd.toNat, 1) 1 fun x t => (x.specStatus t, false))

/-! ## Reports to the scalar stream (06 R160) -/

/-- 06 R160: the reduction of values by an operation and type, as 64 bits. -/
def reduceVals (op : Nat) (ty : BitVec 4) (vs : List Nat) : Word :=
  let w := tyWidth ty
  let lo : Int := if tySigned ty then -(2 ^ (w - 1) : Int) else 0
  let hi : Int := if tySigned ty then (2 ^ (w - 1) - 1 : Int) else (2 ^ w - 1 : Int)
  let is := vs.map (intVal ty)
  match op with
  | 0 => BitVec.ofInt 64 is.sum
  | 1 => BitVec.ofInt 64 (is.foldl min hi)
  | 2 => BitVec.ofInt 64 (is.foldl max lo)
  | 3 => vs.foldl (fun a v => a &&& BitVec.ofNat 64 v) (BitVec.allOnes 64)
  | 4 => vs.foldl (fun a v => a ||| BitVec.ofNat 64 v) 0
  | _ => vs.foldl (fun a v => a ^^^ BitVec.ofNat 64 v) 0

/-- 06 R160: the result of a vote among lanes on a predicate. -/
def voteVal (op : Nat) (k : BitVec 16) (ts : List Nat) : Word :=
  let yes := ts.filter fun t => k.getLsbD t
  match op with
  | 0 => (maskOf yes).setWidth 64
  | 1 => if yes.isEmpty then 0 else 1
  | 2 => if yes.length = ts.length then 1 else 0
  | _ => BitVec.ofNat 64 yes.length

/-- 06 R160: a report issues: its value is written and its flag lowered in one step at its completion. -/
def State.report (s : State) (f : LaneWord) (m : BitVec 16) (v : Word) : State :=
  let x := s.grp s.me
  match x.issueLL f with
  | none => s.stallL 5
  | some (y, flag) => (s.setGrp s.me (y.pendLL x.slot flag (some (f.vd.toNat % 64, v)) (m = 0))).laneNext f m 1

/-- `vredsc` (06 R160). -/
def execVredsc (f : LaneWord) (s : State) : Host.Outcome State Fault Refusal :=
  .next (s.laneBody f [(f.va.toNat, wide f.ty)] fun m =>
    let vs := (bodyLanes f m).map fun t => (s.grp s.me).srcReg f.ty t f.va.toNat
    if ((s.grp s.me).issueLL f).isNone then s.stallL 5
    else (s.pconsIf (vs.any fun v => v.2)).report f m (reduceVals f.sub.toNat f.ty (vs.map Prod.fst)))

/-- `vvote` (06 R160). -/
def execVvote (f : LaneWord) (s : State) : Host.Outcome State Fault Refusal :=
  .next (s.laneBody f [] fun m => s.report f m (voteVal f.sub.toNat ((s.grp s.me).kGet (f.va.toNat % 8)) (bodyLanes f m)))

/-! ## Predicates -/

/-- 06 R161: a predicate operation. -/
def kopBit (op : Nat) (a b : Bool) : Bool :=
  match op with
  | 0 => a && b
  | 1 => a || b
  | 2 => a ^^ b
  | 3 => a && !b
  | 4 => a || !b
  | 5 => !a
  | _ => a

/-- `vkop` (06 R161). -/
def execVkop (f : LaneWord) (s : State) : Host.Outcome State Fault Refusal :=
  .next (s.laneTest f [] (f.vd.toNat % 8) 1 fun x t =>
    (kopBit f.sub.toNat ((x.kGet (f.va.toNat % 8)).getLsbD t) ((x.kGet (f.vb.toNat % 8)).getLsbD t), false))

/-- `vkmov` (06 R162). -/
def execVkmov (f : LaneWord) (s : State) : Host.Outcome State Fault Refusal :=
  .next (if f.sub = 0#4 then s.laneCalc f [] (f.vd.toNat, 1) 1 fun x _ => ((x.kGet (f.va.toNat % 8)).toNat, false)
    else s.laneTest f (regB f 2 0#4) (f.vd.toNat % 8) 1 fun x t =>
      let b := x.srcB f 2 0#4 t
      (b.1.testBit t, b.2))

end Sys2Proof.Machine
end

