-- ==== Sys2Proof/Machine/Press.lean ====
section
/-! DEFINITION. Press instructions of the sequencer stream: their checks at issue and their queueing (12 R293 to R300, R303, R304,
R310, R311, R313). -/

namespace Sys2Proof.Machine

/-! ## The cluster of a Press stream -/

/-- The member teams of the executing stream's cluster. -/
def State.myMembers (s : State) : List Nat := (s.cl (s.gCluster s.me)).members

/-- Changes the Press of a member team's core. -/
def State.onPress (s : State) (t : Nat) (f : Press → Press) : State :=
  match (s.tm t).core with
  | some k => s.onCore k fun c => { c with press := f c.press }
  | none => s

/-- The Press of a member team's core. A member that has ended has no core (02 R54), and nothing stands in its Press (log entry 57). -/
def State.pressOf (s : State) (t : Nat) : Press :=
  match (s.tm t).core with
  | some k => (s.coreAt k).press
  | none => {}

/-- The members that have a core: a Press instruction acts on theirs (12 R294, 02 R54). -/
def State.pressMembers (s : State) : List Nat := s.myMembers.filter fun t => (s.tm t).core.isSome

/-- 12 R294: appends an instruction to the queue of every member, or stalls while one is full. -/
def State.pressIssue (s0 s : State) (op : Nat → PressOp) : State :=
  let ms := s.pressMembers
  if ms.any fun t => (s.pressOf t).pending ≥ 16 then s0.stallS 8
  else (ms.foldl (fun s t => s.onPress t fun p => { p with queue := p.queue ++ [op t] }) s).nextPc

/-! ## Format blocks (12 R297, R298) -/

/-- An operand section of a format block. -/
structure OpFmt where
  fmt : Nat
  blk : Nat
  flags : Nat
  bsbase : Nat
  bandaddr : Nat
  zero : Nat
  deriving DecidableEq, Repr, Inhabited

/-- The section at an offset of a format block. -/
def opFmtAt (b : List Byte) (o : Nat) : OpFmt :=
  { fmt := recField b o 1, blk := recField b (o + 1) 1, flags := recField b (o + 2) 2, bsbase := recField b (o + 4) 4,
    bandaddr := recField b (o + 8) 4, zero := recField b (o + 0xC) 4 }

/-- Is an element format one of integers? -/
def OpFmt.isInt (f : OpFmt) : Bool := f.fmt = 11 || f.fmt = 15

/-- 12 R298: bits of an element. -/
def OpFmt.width (f : OpFmt) : Nat := if f.fmt = 6 then 16 else if f.fmt = 10 || f.fmt = 15 then 4 else 8

/-- 12 R298: the k-step depth. -/
def OpFmt.depth (f : OpFmt) : Nat := if f.fmt = 6 then 2 else if f.fmt = 10 || f.fmt = 15 then 8 else 4

/-- 12 R298: the LSB exponent. -/
def OpFmt.lsb (f : OpFmt) : Nat := if f.fmt = 6 then 133 else if f.fmt = 8 then 9 else if f.fmt = 9 then 16 else if f.fmt = 10 then 1 else 0

/-- The block length along K; 0 for none. -/
def OpFmt.blockLen (f : OpFmt) : Nat := if f.blk = 0 then 0 else 4 * 2 ^ f.blk

/-- Are band scales present? -/
def OpFmt.banded (f : OpFmt) : Bool := f.flags % 2 = 1

/-- 12 R297: BANDV and BANDADDR. -/
def OpFmt.bandOk (f : OpFmt) (spad : Nat) : Bool :=
  if f.banded then f.bandaddr % 4 = 0 && f.bandaddr + 4 ≤ spad else f.bandaddr = 0

/-- 12 R297, R298: the fields of an operand section. -/
def OpFmt.ok (f : OpFmt) (spad : Nat) : Bool :=
  [6, 8, 9, 10, 11, 15].contains f.fmt && f.blk ≤ 3 && (!f.isInt || f.blk = 0) && f.flags / 2 = 0 && f.bandOk spad &&
    (f.blk ≠ 0 || f.bsbase = 0) && f.zero = 0

/-- 12 R299: bytes from line to line. -/
def OpFmt.pitch (f : OpFmt) (k : Nat) : Nat := k * f.width / 8

/-- 12 R298: is K a multiple of the block length, where there is one? -/
def OpFmt.divides (f : OpFmt) (k : Nat) : Bool := f.blk = 0 || k % f.blockLen = 0

/-- 12 R299: does the block-scale array lie wholly below `spad`? -/
def OpFmt.scalesOk (f : OpFmt) (k spad : Nat) : Bool := f.blk = 0 || f.bsbase + 128 * (k / f.blockLen) ≤ spad

/-- 12 R297: the output section. -/
structure OutFmt where
  fmt : Nat
  rm : Nat
  flags : Nat
  obsbase : Nat
  mult : Nat
  zero : Nat
  deriving DecidableEq, Repr, Inhabited

/-- The output section of a format block. -/
def outFmtOf (b : List Byte) : OutFmt :=
  { fmt := recField b 0x20 1, rm := recField b 0x21 1, flags := recField b 0x22 1, obsbase := recField b 0x24 4,
    mult := recField b 0x28 4, zero := recField b 0x23 1 + recField b 0x2C 4 }

/-- The saturate flag. -/
def OutFmt.sat (o : OutFmt) : Bool := o.flags % 2 = 1

/-- The scale rule of a BSF4 output. -/
def OutFmt.rule (o : OutFmt) : Nat := o.flags / 2 % 4

/-- 12 R297, R306: the fields of the output section. -/
def OutFmt.ok (o : OutFmt) (spad : Nat) : Bool :=
  [1, 4, 6, 8, 9, 10].contains o.fmt && o.rm ≤ 4 && o.flags / 8 = 0 && o.zero = 0 &&
    (if o.fmt = 10 then o.rule ≤ 1 && !o.sat && o.obsbase % 4 = 0 && o.obsbase + 2048 ≤ spad else o.rule = 0 && o.obsbase = 0)

/-- 12 R306: bytes of a row of output. -/
def OutFmt.rowBytes (o : OutFmt) : Nat :=
  if o.fmt = 1 || o.fmt = 4 then 512 else if o.fmt = 6 then 256 else if o.fmt = 10 then 64 else 128

/-! ## Descriptors and moulds (12 R296) -/

/-- 12 R300 check 2: what is wrong with a descriptor register; `lo` bits of offset, aligned to `al`, zero fields elsewhere. -/
def descBad (v : Word) (isA : Bool) (al spad size : Nat) : Option Cause :=
  let o := (v.extractLsb' 0 20).toNat
  let k := (v.extractLsb' 32 13).toNat
  let zeros := if isA then v.extractLsb' 45 19 = 0#19 && v.extractLsb' 20 12 = 0#12 && 1 ≤ k && k ≤ 4096 else v.extractLsb' 20 44 = 0#44
  if !zeros then some .queue
  else if o % al ≠ 0 then some .misalign
  else if o + size > spad then some .spadBounds
  else none

/-- The offset that a descriptor names. -/
def descOff (v : Word) : Nat := (v.extractLsb' 0 20).toNat

/-- 12 R296: the binding of a mould as a member holds it. -/
def State.mouldAt (s : State) (t o : Nat) : Mould :=
  let x := s.objAt t o
  { obj := o, tbase := x.tbase, tsize := x.tsize, z := x.z }

/-- 12 R300 check 4, 17 R419: has a mould no binding, or is it broken, at some member? -/
def State.unbound (s : State) (o : Nat) : Bool := s.pressMembers.any fun t => s.objBroken t o || !(s.objAt t o).mv

/-- Is a mould's tile too small at some member? -/
def State.tileSmall (s : State) (o n : Nat) : Bool := s.pressMembers.any fun t => (s.objAt t o).tsize < n

/-- The allocation size of the executing cluster's members. -/
def State.mySpad (s : State) : Nat := (s.gTeam s.me).spad

/-- A format block as the anchor member holds it, and which of its two sectors are poisoned. -/
def State.fmtBlock (s : State) (o : Nat) : List Byte × (Bool × Bool) :=
  let t := s.gTeam s.me
  (t.bytesAt o 64, (t.badAt o, t.badAt (o + 32)))

/-- 12 R300 check 5: the mode that a member's tile has once the queued instructions are done; 0 clear, 1 FP32, 2 INT32. -/
def Press.modeAfter (p : Press) (zd : Nat) : Nat :=
  p.queue.foldl (fun m op =>
    match op with
    | .mma z _ _ _ _ _ _ _ f bad =>
      if z ≠ zd || bad.1 || bad.2 then m
      else if (opFmtAt f 0).isInt && (opFmtAt f 0x10).isInt then 2 else 1
    | .mzero z => if z = zd then 0 else m
    | .mdrain z clr _ _ _ => if z = zd && clr then 0 else m
    | _ => m) (KMap.read ({} : Acc) zd p.z).mode

/-- 12 R297: a format block with a poisoned sector sets SCONS at issue. -/
def State.fmtPoison (s : State) (bad : Bool × Bool) : State := if bad.1 || bad.2 then s.consumed s.me false else s

/-! ## Meanings -/

/-- A trap of a Press instruction with `xaddr` an offset or a number. -/
def State.trapN (s : State) (c : Cause) (n : Nat) : State := s.trapS c (BitVec.ofNat 64 n)

/-- 12 R300 checks 3 to 5 of `mma`: the trap that they give, with `xaddr`. -/
def State.mmaBad (s : State) (zd : Nat) (acc : Bool) (va : Word) (oa ob oc : Nat) (fb : List Byte) (bad : Bool × Bool) :
    Option (Cause × Word) :=
  let spad := s.mySpad
  let a := opFmtAt fb 0
  let b := opFmtAt fb 0x10
  let k := (va.extractLsb' 32 13).toNat
  let n := BitVec.ofNat 64
  let used := !bad.1
  if used && !(a.ok spad && b.ok spad) then some (.queue, n oc)
  else if used && !(k % min a.depth b.depth = 0 && a.divides k && b.divides k) then some (.queue, va)
  else if s.unbound oa then some (.barrier, n oa)
  else if s.unbound ob then some (.barrier, n ob)
  else if used && s.tileSmall oa (128 * a.pitch k) then some (.spadBounds, n oa)
  else if used && s.tileSmall ob (128 * b.pitch k) then some (.spadBounds, n ob)
  else if used && !(a.scalesOk k spad && b.scalesOk k spad) then some (.queue, n oc)
  else
    let m := if a.isInt && b.isInt then 2 else 1
    if acc && used && s.pressMembers.any fun t =>
        let h := (s.pressOf t).modeAfter zd
        h ≠ 0 && h ≠ m then some (.queue, n zd)
    else none

/-- `mma` (12 R300): its operands address scratchpad (R296). -/
def execMma (k : BitVec 1) (c b a : BitVec 6) (y x u : BitVec 1) (z : BitVec 3) (s : State) : Host.Outcome State Fault Refusal :=
  if keyGrp s.me ≠ 64 then .next (s.trapS .context 0)
  else
    let s1 := s.usesAt [a, b, c] []
    let spad := s.mySpad
    let va := s.rs a
    let vb := s.rs b
    let vc := s.rs c
    match descBad va true 32 spad 1, descBad vb false 32 spad 1, descBad vc false 64 spad 64 with
    | some e, _, _ => .next (s1.trapS e va)
    | none, some e, _ => .next (s1.trapS e vb)
    | none, none, some e => .next (s1.trapS e vc)
    | none, none, none =>
      let f := s.fmtBlock (descOff vc)
      match s.mmaBad z.toNat (u = 1#1) va (descOff va) (descOff vb) (descOff vc) f.1 f.2 with
      | some e => .next (s1.trapS e.1 e.2)
      | none =>
        .next (s.pressIssue (s1.fmtPoison f.2) fun t =>
          .mma z.toNat (u = 1#1) (x = 1#1) (y = 1#1) (k = 1#1) (s.mouldAt t (descOff va)) (s.mouldAt t (descOff vb))
            (va.extractLsb' 32 13).toNat f.1 f.2)

/-- `mzero` (12 R303). -/
def execMzero (z : BitVec 3) (s : State) : Host.Outcome State Fault Refusal :=
  if keyGrp s.me ≠ 64 then .next (s.trapS .context 0)
  else .next (s.pressIssue s fun _ => .mzero z.toNat)

/-- 12 R304: the checks of `mdrain` after its descriptors. -/
def State.mdrainBad (s : State) (zd oa oc : Nat) (fb : List Byte) (bad : Bool × Bool) : Option (Cause × Word) :=
  let spad := s.mySpad
  let o := outFmtOf fb
  let n := BitVec.ofNat 64
  if !bad.1 && !((opFmtAt fb 0).bandOk spad && (opFmtAt fb 0x10).bandOk spad) then some (.queue, n oc)
  else if !bad.2 && !o.ok spad then some (.queue, n oc)
  else if s.unbound oa then some (.barrier, n oa)
  else if !bad.2 && o.fmt = 1 && o.sat && s.pressMembers.any fun t => (s.pressOf t).modeAfter zd = 2 then some (.queue, n zd)
  else if !bad.2 && s.tileSmall oa (128 * o.rowBytes) then some (.spadBounds, n oa)
  else none

/-- `mdrain` (12 R304): its operands address scratchpad (R296). -/
def execMdrain (c a : BitVec 6) (l : BitVec 1) (z : BitVec 3) (s : State) : Host.Outcome State Fault Refusal :=
  if keyGrp s.me ≠ 64 then .next (s.trapS .context 0)
  else
    let s1 := s.usesAt [a, c] []
    let spad := s.mySpad
    let va := s.rs a
    let vc := s.rs c
    match descBad va false 32 spad 1, descBad vc false 64 spad 64 with
    | some e, _ => .next (s1.trapS e va)
    | none, some e => .next (s1.trapS e vc)
    | none, none =>
      let f := s.fmtBlock (descOff vc)
      match s.mdrainBad z.toNat (descOff va) (descOff vc) f.1 f.2 with
      | some e => .next (s1.trapS e.1 e.2)
      | none => .next (s.pressIssue (s1.fmtPoison f.2) fun t => .mdrain z.toNat (l = 1#1) (s.mouldAt t (descOff va)) f.1 f.2)

/-- `mcheck.mode` (12 R310). -/
def execMcheckMode (a : BitVec 6) (s : State) : Host.Outcome State Fault Refusal :=
  if keyGrp s.me ≠ 64 then .next (s.trapS .context 0)
  else
    let v := s.rs a
    let s1 := s.uses [a]
    if v.extractLsb' 2 62 ≠ 0#62 then .next (s1.trapS .queue v)
    else .next (s.pressIssue s1 fun _ => .mcheckMode (v.getLsbD 0) (v.getLsbD 1))

/-- `mcheck.inject` (12 R310). -/
def execMcheckInject (b a : BitVec 6) (s : State) : Host.Outcome State Fault Refusal :=
  if keyGrp s.me ≠ 64 then .next (s.trapS .context 0)
  else
    let v := s.rs a
    let x := s.rs b
    let s1 := s.uses [a, b]
    let m := (v.extractLsb' 0 4).toNat
    if v.extractLsb' 18 46 ≠ 0#46 || m ≥ s.myMembers.length then .next (s1.trapS .queue v)
    else if x.extractLsb' 32 32 ≠ 0#32 then .next (s1.trapS .queue x)
    else .next (s.pressIssue s1 fun t =>
      .mcheckInject (s.myMembers[m]? = some t) (v.extractLsb' 4 2).toNat (v.extractLsb' 6 6).toNat (v.extractLsb' 12 6).toNat (x.setWidth 32))

/-- Adds to a Press counter (12 R311). -/
def Press.bump (p : Press) (code n : Nat) : Press :=
  { p with ctr := KMap.write 0 code (KMap.read 0 code p.ctr + BitVec.ofNat 64 n) p.ctr }

/-- 12 R312, R313: starts the wake of every gated sub-array, counting WAKES. -/
def Press.wakeAll (p : Press) : Press :=
  let gatedQ := (List.range 4).filter fun q => (KMap.read ({} : SubArray) q p.sub).gated && !(KMap.read ({} : SubArray) q p.sub).waking
  gatedQ.foldl (fun p q => { p with sub := KMap.put q { KMap.read ({} : SubArray) q p.sub with waking := true } p.sub }) (p.bump 6 gatedQ.length)

/-- Sets every sub-array's idle count to zero. -/
def Press.busy (p : Press) : Press := { p with sub := p.sub.map fun e => (e.1, { e.2 with idle := 0 }) }

/-- `mwake` (12 R313): performed at issue at every member. -/
def execMwake (s : State) : Host.Outcome State Fault Refusal :=
  if keyGrp s.me ≠ 64 then .next (s.trapS .context 0)
  else .next (s.pressMembers.foldl (fun s t => s.onPress t fun p => p.wakeAll.busy) s).nextPc

/-- 12 R311: a counter of one member; code 7 is the mask of gated sub-arrays. -/
def Press.stat (p : Press) (code : Nat) : Word :=
  if code = 7 then BitVec.ofNat 64 (((List.range 4).filter fun q => (KMap.read ({} : SubArray) q p.sub).gated).map fun q => 2 ^ q).sum
  else KMap.read 0 code p.ctr

/-- `mstat` (12 R311): it waits for the Press stream, whose writes it acquires (R295). -/
def execMstat (l : BitVec 1) (c : BitVec 4) (a d : BitVec 6) (s : State) : Host.Outcome State Fault Refusal :=
  if keyGrp s.me ≠ 64 then .next (s.trapS .context 0)
  else
    let v := s.rs a
    let s1 := s.uses [a]
    let ms := s.myMembers
    let all := v.getLsbD 4
    let m := (v.extractLsb' 0 4).toNat
    if v.extractLsb' 5 59 ≠ 0#59 || (!all && m ≥ ms.length) then .next (s1.trapS .queue v)
    else if !s.pressIdle (s.gCluster s.me) then .next (s.stallS 15)
    else
      let who := if all then ms else (ms[m]?).toList
      let vals := who.map fun t => (s.pressOf t).stat c.toNat
      let r := if c = 7#4 then vals.foldl (fun x y => x ||| y) 0#64 else vals.foldl (fun x y => x + y) 0#64
      let s2 := if l = 1#1 && c ≠ 7#4 then who.foldl (fun s t => s.onPress t fun p => { p with ctr := KMap.write 0 c.toNat 0 p.ctr }) s1 else s1
      .next ((s2.acquire s.me 3).finish d r)

end Sys2Proof.Machine
end

