-- ==== Sys2Proof/Machine/Switch.lean ====
section
/-! DEFINITION. Switching a team or cluster out (08 R214, R215, 12 R314, 13 R334, R336, 17 R421): stopping its streams, what a save
waits for, the context image (09 R219 to R223), and the events of a pre-emption and of an eviction. -/

namespace Sys2Proof.Machine

/-! ## Context images (09 R219, R220) -/

/-- The parts of a team's image that its launch initialises and its save writes: the header, of each stream the declared lines and the
rest below the reserved part, the team's bytes of the scratchpad image, the accumulators. -/
def State.imageHolds (s : State) (t o : Nat) : Bool :=
  decide (o < 0x1000) ||
    (decide (o < 0x30_D000) && (let q := (o - 0x1000) % 0xC000
      decide (q < 64 * (s.tm t).vregs) || (decide (0x4000 ≤ q) && decide (q < 0xA800)))) ||
    (decide (0x31_0000 ≤ o) && decide (o < 0x31_0000 + (s.tm t).spad)) || decide (0x41_0000 ≤ o)

/-- A launch or a save begins from an image of zeros without poison. -/
def State.clearImage (s : State) (t : Nat) : State :=
  let mine (pa : Nat) : Bool := match s.inImage t pa with | some o => s.imageHolds t o | none => false
  let s1 := (s.mem.filter fun e => mine e.1).foldl (fun s e => s.storeAt e.1 [0]) s
  { s1 with poison := s1.poison.filter fun e => !mine (32 * e.1) }

/-- Writes bytes of a team's image, both copies. -/
def State.putImage (s : State) (t o : Nat) (bs : List Byte) : State :=
  (sectorPieces o bs.length bs.length).foldl (fun s p => s.storeBlock (s.imageAt t p.1) ((bs.drop (p.1 - o)).take p.2)) s

/-- 09 R223: the sector of a slot written back poisoned is stored poisoned. -/
def State.badImage (s : State) (t o : Nat) : State := s.setBad (s.imageAt t o / 32) true

/-- Writes what the device lays out in its own way (09 R220). -/
def State.putOwn (s : State) (t o n : Nat) : State :=
  { s.putImage t o ((List.range n).map fun i => Config.imageByte (s.free + i)) with free := s.free + n }

/-- The 64 bytes of a register line of a stream: 0 to 255 are vector lines, 256 to 263 scalar ones (09 R220). -/
def Group.lineBytes (x : Group) (line : Nat) : List Byte :=
  if line < 256 then (List.range 16).flatMap fun t => bytesOfNat 4 (x.vRaw t line).toNat
  else (List.range 8).flatMap fun i => bytesOfNat 8 (KMap.read 0 (8 * (line - 256) + i) x.s).toNat

/-- Is a slot in one 32-byte sector of a register line poisoned? -/
def Group.sectorBad (x : Group) (line half : Nat) : Bool :=
  if line < 256 then (List.range 8).any fun i => x.vBad (8 * half + i) line
  else (List.range 4).any fun i => x.sBad (8 * (line - 256) + 4 * half + i)

/-- 09 R223: a register line is written back to both mirror copies. -/
def State.saveLine (s : State) (t g line : Nat) : State :=
  let x := s.grp g
  let o := streamImage (keyGrp g) + 64 * line
  (List.range 2).foldl (fun s h => if x.sectorBad line h then s.badImage t (o + 32 * h) else s) (s.putImage t o (x.lineBytes line))

/-- The lane PC of a lane: of the path running, or of a pending path (02 R40); none of a lane in no path. -/
def Group.lanePc (x : Group) (t : Nat) : Option Word :=
  let ring := x.stack.flatMap fun e => match e with | .mark _ _ ps _ => ps | .call .. => []
  ((x.path.toList ++ ring).find? fun p => p.mask.getLsbD t).map Path.lpc

/-- The vector lines that a stream declares: none for a sequencer stream (09 R220). -/
def State.declared (s : State) (g : Nat) : Nat := if keyGrp g = 64 then 0 else (s.tm (keyTeam g)).vregs

/-- 09 R220: the control regions of a stream in pieces that no line boundary cuts: offset, how many bytes of the device's own layout, else
the bytes. Of a region of entries what the entries held take is the device's own layout, the running clause's among them (02 R37). The widths
of the trap bank's fields are the model's (log entry 74). -/
def Group.controls (x : Group) : List (Nat × Nat × List Byte) :=
  let own (o n : Nat) : List (Nat × Nat × List Byte) := (List.range ((n + 63) / 64)).map fun i => (o + 64 * i, min 64 (n - 64 * i), [])
  [(0x4200, 0, (List.range 8).flatMap fun i => bytesOfNat 2 (x.kGet i).toNat), (0x4210, 48, []),
   (0x4240, 0, bytesOfNat 8 x.bank.xpc.toNat ++ bytesOfNat 8 x.bank.xlpc.toNat ++
    bytesOfNat 4 x.bank.xcause.toNat ++ bytesOfNat 4 x.bank.xstatus.toNat ++ bytesOfNat 8 x.bank.xaddr.toNat ++
    bytesOfNat 4 x.bank.xmask.toNat ++ bytesOfNat 4 x.bank.xlog.toNat ++ [if x.retired then 1 else 0])] ++
  (List.range 16).map (fun i => match x.lanePc i with
    | some l => (0x4280 + 8 * i, 0, bytesOfNat 8 l.toNat)
    | none => (0x4280 + 8 * i, 8, [])) ++
  own 0x4300 (192 * min 8 x.queueLen) ++ own 0x4900 (32 * min 32 x.stack.length) ++ own 0x4D00 (384 * min 16 x.oplog.length)

/-- Writes those of a stream's control lines that are wanted, a sector that an error struck poisoned (09 R223). -/
def State.saveControl (s : State) (t g : Nat) (want : Nat → Bool) : State :=
  let b := streamImage (keyGrp g)
  let x := s.grp g
  let s1 := (x.controls.filter fun c => want (c.1 / 64)).foldl (fun (s : State) c =>
    if c.2.2.isEmpty then s.putOwn t (b + c.1) c.2.1 else s.putImage t (b + c.1) c.2.2) s
  ((KMap.keys x.lineBad).filter fun k => want (k / 2)).foldl (fun s k => s.badImage t (b + 32 * k)) s1

/-- 09 R220: the registers, trap bank and control regions of a stream, written to its image. -/
def State.saveStream (s : State) (t g : Nat) : State :=
  ((List.range (s.declared g) ++ (List.range 8).map (256 + ·)).foldl (fun (s : State) l => s.saveLine t g l) s).saveControl t g fun _ => true

/-- 08 R214 step 5, 04 R94, 09 R226: the scratchpad image and the accumulators with their poison. -/
def State.saveTeamData (s : State) (t : Nat) : State :=
  let x := s.tm t
  let s1 := x.mem.foldl (fun s e => s.putImage t (0x31_0000 + e.1) [e.2]) s
  let s2 := x.poison.foldl (fun s e => s.badImage t (0x31_0000 + 32 * e.1)) s1
  match x.press with
  | none => s2
  | some p => p.z.foldl (fun s z =>
      let s' := z.2.elems.foldl (fun s e => s.putImage t (0x41_0000 + 65536 * z.1 + 4 * e.1) (bytesOfNat 4 e.2.toNat)) s
      z.2.poison.foldl (fun s e => s.badImage t (0x41_0000 + 65536 * z.1 + 32 * e.1)) s') s2

/-- The image of a team that is switched out, or at its launch. -/
def State.saveImage (s : State) (t : Nat) : State :=
  (s.teamStreams t).foldl (fun s g => s.saveStream t g) (((s.clearImage t).saveTeamData t).putOwn t 0 0x1000)

/-- Bytes of a team's image, from whichever copy is clean (09 R222). -/
def State.imageNat (s : State) (t o n : Nat) : Nat := natOfBytes (s.loadBytes (s.imageAt t o) n)

/-- Are both copies of a sector of a team's image poisoned (09 R222)? -/
def State.imageBad (s : State) (t o : Nat) : Bool := s.bad (s.imageAt t o)

/-- 09 R222: a sector with one clean copy has the other rewritten from it. -/
def State.repairImage (s : State) (t o : Nat) : State :=
  let a := s.imageAt t o / 32 * 32
  if s.mirrored (a / 0x20_0000) && (s.badCopy a != s.badCopy (mirrorOf a)) then s.storeBlock a (s.loadBytes a 32) else s

/-- Offsets, in a range of a team's image, of the sectors that may not read as clean zeros: those with a listed byte or poison bit, and
every sector where a unit is lost. -/
def State.imageSectors (s : State) (t lo n : Nat) : List Nat :=
  if !s.turner.lost.isEmpty then (List.range (n / 32)).map fun i => lo + 32 * i
  else
    let near (pa : Nat) : Option Nat := match s.inImage t pa with
      | some o => if lo ≤ o ∧ o < lo + n then some (o / 32 * 32) else none
      | none => none
    ((s.mem.filterMap fun e => near e.1) ++ s.poison.filterMap fun e => near (32 * e.1)).dedup

/-- 09 R222: the sectors of a range of a team's image that one copy holds clean have the other rewritten. -/
def State.repairRange (s : State) (t lo n : Nat) : State := (s.imageSectors t lo n).foldl (fun s o => s.repairImage t o) s

/-- 09 R221, R222: the registers and the trap bank of a stream, read back from its image on core `k`; slots of a sector that no copy holds
clean are poisoned, of a line that the core's cache still holds those alone that were poisoned there (R223). -/
def State.loadStream (s0 : State) (t k : Nat) (g : Nat) : State :=
  let b := streamImage (keyGrp g)
  let s := s0.repairRange t b 0xA800
  let old := s.grp g
  let kept (line : Nat) : Bool := (KMap.find (65536 * g + line) (s.coreAt k).lines).isSome
  let vslots := List.range (16 * s.declared g)
  let v := vslots.foldl (fun m j => KMap.write 0 j (BitVec.ofNat 32 (s.imageNat t (b + 4 * j) 4)) m) []
  let vp := vslots.foldl (fun m j => KMap.write false j (s.imageBad t (b + 4 * j) && (!kept (j / 16) || KMap.read false j old.vPoison)) m) []
  let ss := (List.range 64).foldl (fun m j => if j = 0 then m else KMap.write 0 j (BitVec.ofNat 64 (s.imageNat t (b + 0x4000 + 8 * j) 8)) m) []
  let sp := (List.range 64).foldl (fun m j => if j = 0 then m else KMap.write false j (s.imageBad t (b + 0x4000 + 8 * j) && (!kept (256 + j / 8) || old.sBad j)) m) []
  let f (o n : Nat) : Nat := s.imageNat t (b + 0x4240 + o) n
  s.onGrp g fun x => { x with
    v := v, vPoison := vp, s := ss, sPoison := sp, lineBad := []
    bank := { xpc := BitVec.ofNat 64 (f 0 8), xlpc := BitVec.ofNat 64 (f 8 8), xcause := BitVec.ofNat 32 (f 16 4) &&& 0x003F07FF,
              xstatus := BitVec.ofNat 32 (f 20 4) &&& 0xFFFF3F03, xaddr := BitVec.ofNat 64 (f 24 8),
              xmask := BitVec.ofNat 32 (f 32 4) &&& 0xFFFF, xlog := BitVec.ofNat 32 (f 36 4) &&& 0x1F }
    retired := f 40 1 % 2 = 1 }

/-- 08 R216, 09 R222, R226: the scratchpad image read back, with its poison. -/
def State.loadSpad (s0 : State) (t : Nat) : State :=
  let offs := s0.imageSectors t 0x31_0000 (s0.tm t).spad
  let s := s0.repairRange t 0x31_0000 (s0.tm t).spad
  let y : Team := offs.foldl (fun y o =>
    let y1 := y.storeAt (o - 0x31_0000) (s.loadBytes (s.imageAt t o) 32)
    if s.imageBad t o then y1.setBad ((o - 0x31_0000) / 32) true else y1) { s.tm t with mem := [], poison := [] }
  s.onTm t fun z => { z with mem := y.mem, poison := y.poison }

/-- 04 R94: the poison bits of the accumulators, read back. -/
def State.loadAccPoison (s : State) (t : Nat) (p : Press) : Press :=
  { p with z := p.z.map fun z =>
      let b := 0x41_0000 + 65536 * z.1
      (z.1, (s.imageSectors t b 65536).foldl (fun (a : Acc) o =>
        if s.imageBad t o then { a with poison := KMap.write false ((o - b) / 32) true a.poison } else a) z.2) }

/-- 17 R421, 13 R333: watch copies replace their objects in a restored scratchpad, and the status bytes of returned notices are
written. -/
def Team.overlaid (y : Team) (out : Team) : Team :=
  let y1 := out.watched.foldl (fun (y : Team) o => (y.storeAt o (out.bytesAt o 32)).setBad (o / 32) (out.badAt o)) y
  out.mem.foldl (fun y e => if out.watched.any fun o => o ≤ e.1 && decide (e.1 < o + 32) then y else y.storeAt e.1 [e.2]) y1

/-- 09 R222: is what no copy holds clean in a team's image a control region's: the header, or, of a stream that it has, what lies
beyond the vector and scalar lines? `grp` tells the streams. -/
def State.imageLost (s : State) (t : Nat) (grp : Nat → Bool) : Bool :=
  (s.imageSectors t 0 0x30_D000).any fun o =>
    s.imageBad t o &&
      (decide (o < 0x1000) || (grp ((o - 0x1000) / 0xC000) && decide (0x4200 ≤ (o - 0x1000) % 0xC000) && decide ((o - 0x1000) % 0xC000 < 0xA800)))

/-! ## Stopping (08 R214) -/

/-- The members of a cluster that have not ended. -/
def State.liveMembers (s : State) (c : Nat) : List Nat := (s.cl c).members.filter fun t => (s.tm t).res ≠ .ended

/-- Puts a cluster and its members that have not ended in a state of residence. -/
def State.residence (s : State) (c : Nat) (r : Residence) : State :=
  (s.liveMembers c).foldl (fun s t => s.onTm t fun y => { y with res := r }) (s.onCl c fun y => { y with res := r })

/-- 13 R334: a notice in the kick register of a team's core is returned with status 3. -/
def State.returnKick (s : State) (t : Nat) : State :=
  match (s.tm t).core with
  | none => s
  | some k =>
    match (s.coreAt k).kick with
    | none => s
    | some n => (s.onCore k fun c => { c with kick := none }).returnNotice k 0 n 0x03

/-- 08 R214: pre-emption of a resident cluster begins, and the notices in its kick registers are returned (13 R334). A cluster that is not
resident is left as it is. -/
def State.preempt (s : State) (c : Nat) : State :=
  match KMap.find c s.clusters with
  | none => s
  | some x =>
    if x.res ≠ .resident then s
    else
      let s1 := (s.coreMembers c).foldl State.returnKick (s.residence c .stopping)
      (s1.clusterStreams c).foldl State.stopStream s1

/-! ## What a save waits for (08 R214 steps 3 and 4, 13 R336) -/

/-- Have a stream's loads and long-latency results landed? A fault found is held (08 R214). -/
def Group.landed (x : Group) : Bool :=
  x.pending.isEmpty && x.oplog.all fun e =>
    e.2.copy.isSome || !e.2.precise || !(e.2.accs.any fun a => a.sent)

/-- Does a transfer operation, a piece of a pull or a landing of a `vcast` write a team's scratchpad (08 R215)? -/
def State.ladleInto (s : State) (t : Nat) : Bool :=
  (s.cores.any fun c => c.2.ladle.any fun q => q.2.any fun op =>
    match op with
    | .xfer x => x.kind ≠ .copyOut && x.pieces.any fun p => p.locs.any fun l => l.1 = t
    | .pull _ u _ _ => u = t
    | .join _ => false) || s.casts.any fun c => c.team = t

/-- Is an operation that reads or writes a team's scratchpad still to be performed, or the count of one still held (13 R336)? -/
def State.ladleUses (s : State) (t : Nat) : Bool :=
  s.ladleInto t || s.cores.any fun c =>
    (c.2.ladle.any fun q => q.2.any fun op =>
      match op with
      | .xfer x => x.pieces.any fun p => p.locs.any fun l => l.1 = t
      | _ => false) || c.2.counts.any fun h => h.team = t && h.arr = 0

/-- Has a team's Press finished what it has begun: are all its arrivals accepted (12 R314)? -/
def State.pressDone (s : State) (t : Nat) : Bool :=
  match (s.tm t).core with
  | some k => (s.coreAt k).press.retry.isEmpty
  | none => true

/-- 08 R214 step 5, 12 R314, 13 R336: is a team stopped with everything landed, so that its save can complete (log entry 70)? -/
def State.saveReady (s : State) (t : Nat) : Bool :=
  (s.teamStreams t).all (fun g => (s.grp g).out && (s.grp g).landed) && !s.ladleUses t && s.pressDone t

/-- 17 R421: the objects of a team that get watch copies: those on which a stream of its cluster holds a wait record. -/
def State.watchedOf (s : State) (t : Nat) : List Nat :=
  ((s.clusterStreams (s.tm t).cluster).filterMap fun g =>
    match (s.grp g).wait with
    | some w => if w.team = t then some w.obj else none
    | none => none).dedup

/-- 17 R421: what stays of a scratchpad whose image is saved: the watch copies. -/
def Team.watchCopies (y : Team) : Team :=
  { y with mem := y.mem.filter fun e => y.watched.any fun o => o ≤ e.1 && decide (e.1 < o + 32)
           poison := y.poison.filter fun e => y.watched.any fun o => o / 32 = e.1 }

/-- 14 R356: a stream leaves its core, with the opportunities since it last issued in place of the core's count then. -/
def Group.leaveCore (x : Group) (slots : Nat) : Group := { x with lastS := slots - x.lastS, lastL := slots - x.lastL }

/-- The save of a team completes: its image is written, its Press is kept for the core that takes its place (12 R314; whether a
sub-array is gated belongs to the core), and the core is free. A fused L1 goes (09 R237). -/
def State.saveTeam (s0 : State) (t : Nat) (res : Residence) : State :=
  let s := s0.returnKick t
  let x := s.tm t
  let fuse := (s.cl x.cluster).fuse
  let s1 := s.onTm t fun y => { y with
    watched := s.watchedOf t
    press := x.core.map fun k => { (s.coreAt k).press with sub := [] } }
  let s2 := s1.saveImage t
  let s3 := s2.onTm t fun y => { y.watchCopies with res := if y.res = .ended then .ended else res, core := none }
  match x.core with
  | none => s3
  | some k =>
    let s4 := (s3.teamStreams t).foldl (fun s g => s.onGrp g fun y => y.leaveCore (s3.coreAt k).slots) s3
    s4.onCore k fun c => { c with team := none, press := { sub := c.press.sub }, l1 := if fuse then [] else c.l1 }

/-- The event PREEMPT_SAVE_COMPLETE (08 R214 step 5): the save of a member that has stopped is complete, in a pre-emption or an eviction. -/
def execPreemptSaveComplete (team : Nat) (s : State) : Host.Outcome State Fault Refusal :=
  let c := (s.tm team).cluster
  let res : Option Residence := match (s.cl c).res with | .stopping => some .preempted | .saving => some .evicted | _ => none
  match res with
  | some r => if (s.coreMembers c).contains team && s.saveReady team then .next ((s.saveTeam team r).settleOut c) else .next s
  | none => .next s

/-- The event TRYGRACE_EXPIRY (08 R214 step 2): a group in `try` that has run `c.trygrace` cycles since pre-emption was asked for
aborts with PREEMPT and stops at the landing. -/
def execTrygraceExpiry (g : Nat) (s : State) : Host.Outcome State Fault Refusal :=
  let x := s.grp g
  match x.grace with
  | some n => if x.inTry && decide (n ≥ (s.gTeam g).trygrace.toNat) then .next (s.abortGroup g 5 0) else .next s
  | none => .next s

/-- 18 R433: the measurement registers of a core are 0, `c.smplen` 4, at each placement of a team on it. -/
def Core.clearCounters (c : Core) : Core :=
  { c with pmc := [], pmsel := [], freeze := false, smpctl := 0, smpbase := 0, smplen := 4, smphead := 0, smptail := 0, smpdrop := 0, sampled := 64 }

/-! ## Wait eviction (08 R215, 02 R55) -/

/-- Has a group stalled in `waitph` waited, unsignalled, on its phase for longer than a threshold? -/
def Group.waitedOver (x : Group) (n : Nat) : Bool :=
  match x.wait with
  | some w => x.stall = 6 && !w.signalled && decide (x.waited > n)
  | none => false

/-- 08 R215: is a team eligible: every live group waits longer than `c.evthr`, no transfer into its scratchpad is in flight, no thread is
in a bin? -/
def State.teamEvictable (s : State) (t : Nat) : Bool :=
  (s.tm t).evthr ≠ 0 && (s.teamGroups t).all (fun g => (s.grp g).waitedOver (s.tm t).evthr.toNat) && !s.ladleInto t &&
    (s.tm t).bins.all (fun b => b.2.threads.isEmpty)

/-- 02 R55, 08 R215, 12 R314: is a resident cluster eligible as a whole, every Press instruction of it completed? -/
def State.evictable (s : State) (c : Nat) : Bool :=
  (s.cl c).res = .resident && (s.liveMembers c).all s.teamEvictable &&
    ((s.liveMembers c).any fun t => !(s.teamGroups t).isEmpty) &&
    (s.coreMembers c).all fun t => match (s.tm t).core with | some k => (s.coreAt k).press.pending = 0 | none => true

/-- 08 R215: evicts a cluster: its streams stop, the notices in its kick registers are returned (13 R334), and every member is saved; one
with an operation of its scratchpad still to be performed later (13 R336). -/
def State.evict (s : State) (c : Nat) : State :=
  let s1 := (s.coreMembers c).foldl State.returnKick (s.residence c .saving)
  let s2 := (s1.clusterStreams c).foldl (fun s g => s.onGrp g Group.stopped) s1
  ((s2.coreMembers c).foldl (fun s t => if s.saveReady t then s.saveTeam t .evicted else s) s2).settleOut c

/-- The event WAIT_EVICTION (08 R215). -/
def execWaitEviction (cluster : Nat) (s : State) : Host.Outcome State Fault Refusal :=
  .next (if (KMap.find cluster s.clusters).isSome && s.evictable cluster then s.evict cluster else s)

/-! ## Register lines (09 R223) -/

/-- Poisons the slots of one 32-byte sector of a register line: lines 0 to 255 are vector lines, 256 to 263 scalar ones. -/
def Group.poisonSector (x : Group) (line half : Nat) : Group :=
  if line < 256 then
    (List.range 8).foldl (fun x i => { x with vPoison := KMap.write false (vkey (8 * half + i) line) true x.vPoison }) x
  else
    (List.range 4).foldl (fun x i => { x with sPoison := KMap.write false (8 * (line - 256) + 4 * half + i) true x.sPoison }) x

/-- 09 R223: writes a register or control line of a resident stream back to its image; its poison goes with it. -/
def State.writeLine (s : State) (g line : Nat) : State :=
  if line < 264 then s.saveLine (keyTeam g) g line
  else (s.saveControl (keyTeam g) g fun l => l = line).onGrp g fun x => { x with lineBad := x.lineBad.filter fun e => e.1 / 2 ≠ line }

/-- 09 R223: room for a line among 32,768: an evictable line goes first, then one of the same team, which is written back if it differs
from its image; of several the lowest-numbered (log entry 44). An evictable line was written when its team was saved. -/
def State.roomForLine (s : State) (k : Nat) : State :=
  let l := (s.coreAt k).lines
  let drop (s : State) (key : Nat) : State := s.onCore k fun c => { c with lines := KMap.del key c.lines }
  if l.length < 32768 then s
  else
    match l.find? fun e => (s.coreAt k).team ≠ some (keyTeam (e.1 / 65536)) with
    | some e => drop s e.1
    | none =>
      match l.head? with
      | none => s
      | some e => drop (s.writeLine (e.1 / 65536) (e.1 % 65536)) e.1

/-- Is there such a line in a stream's image: a vector line below the declared count, a scalar or a control line (09 R220)? -/
def State.hasLine (s : State) (g line : Nat) : Bool := decide (line < s.declared g) || (decide (256 ≤ line) && decide (line < 672))

/-- An uncorrectable error in a register line (09 R223): the slots of its sector are poisoned; of a control line the sector is, which ends
the team once the line is fetched again (R222). A switched-out stream's line is struck where a core's cache still holds it: its image, which
holds the same, is poisoned too. -/
def State.strikeLine (s : State) (g line half : Nat) : State :=
  let mark (s : State) : State := s.onGrp g fun x =>
    if line < 264 then x.poisonSector line half else { x with lineBad := KMap.put (2 * line + half) true x.lineBad }
  if (KMap.find g s.groups).isNone || !s.hasLine g line then s
  else if !s.isAway (s.tm (keyTeam g)) then mark s
  else if s.cores.any fun c => (KMap.find (65536 * g + line) c.2.lines).isSome then
    (mark s).badImage (keyTeam g) (streamImage (keyGrp g) + 64 * line + 32 * half)
  else s

/-- The event REGISTER_LINE_FILL (09 R222, R223): a line of a resident stream's image, numbered from the image's start, is fetched.
`copies` says of its two sectors (bits 0 and 1) whether the read finds both mirror copies in error; a sector that no copy of the image
holds clean is as good as such a one. Then the slots of a vector or scalar line are poisoned, and a line of another region ends the team
with "context lost". Of a sector with one clean copy, that one is used, and the other rewritten from it. A line that is in the cache
already is no miss, and a vector line at or above the declared count is never read (R220). -/
def execRegisterLineFill (g line copies : Nat) (s : State) : Host.Outcome State Fault Refusal :=
  match KMap.find g s.groups, (s.gTeam g).core with
  | some x, some k =>
    let t := keyTeam g
    let o := streamImage (keyGrp g) + 64 * line
    let halves := (List.range 2).filter fun h => decide (copies / 2 ^ h % 2 = 1) || s.imageBad t (o + 32 * h)
    if x.out || !s.hasLine g line || (KMap.find (65536 * g + line) (s.coreAt k).lines).isSome then .next s
    else if 264 ≤ line && !halves.isEmpty then .next (s.endWithStatus g 4)
    else
      let s1 := (s.repairImage t o).repairImage t (o + 32)
      let s2 := s1.onGrp g fun x => halves.foldl (fun x h => x.poisonSector line h) x
      .next ((s2.roomForLine k).onCore k fun c => { c with lines := KMap.put (65536 * g + line) true c.lines })
  | _, _ => .next s

end Sys2Proof.Machine
end

