-- ==== Sys2Proof/Machine/TokenOps.lean ====
section
/-! DEFINITION. The token instructions (15 R368 to R376). -/

namespace Sys2Proof.Machine

/-- Is a store queued, or an engine's access translated, that will access the region of this token under this holder (11 R280)? What is held
behind a store's fault has not been translated (08 R203). -/
def State.storesTo (s : State) (h id : Nat) : Bool :=
  let hits (g : Nat) (q : List MemOp) : Bool := q.any fun o => o.accs.any fun a =>
    let w := s.whoIs g o.kernel
    w.holders.contains h &&
      match s.xlate w a.va.toNat .write with
      | .ok y => !y.remote && y.tok = id
      | .error _ => false
  s.groups.any (fun e => hits e.1 e.2.drains) || s.residuals.any (fun e => hits e.1 e.2.storeq) || s.enginesOn h id

/-- 15 R368, 11 R280: have the accesses that a transfer from a holder releases been performed? -/
def State.transferReady (s : State) (h id : Nat) : Bool :=
  s.released s.me && !(s.grp s.me).awaits false && !s.storesTo h id

/-- The holder ids that the executing stream acts as (15 R364, R368). -/
def State.acting (s : State) : List Nat := (s.whoIs s.me false).holders

/-! ## What a token instruction comes to at the device of its token -/

/-- A trap TOKEN; a wait for the accesses of 11 R280; or the entry changed, with the result. -/
inductive TokOut where
  | trap
  | wait
  | done (s : State) (r : Word)

/-- 15 R362, R369: a value that may be passed as a holder: bits [63:24] zero, a holder named, memory only where it is allowed. -/
def namesTarget (b : Word) (memory : Bool) : Bool := b.toNat < 2 ^ 24 && (namesHolder b.toNat || (memory && b.toNat = memoryHolder))

/-- 15 R369: may a token be passed by an executor that acts as some holders to the one that a value names? -/
def State.targetFor (s : State) (acting : List Nat) (b : Word) (memory : Bool) : Bool :=
  namesTarget b memory && (!isLocalId b.toNat || s.holderLive b.toNat) && !acting.contains b.toNat

/-- 15 R369: may a token be passed by the executing stream? -/
def State.targetOk (s : State) (b : Word) (memory : Bool) : Bool := s.targetFor s.acting b memory

/-- A change of a token that is a transfer: it waits for what it releases, changes the entry, and the holder that the token comes to acquires
(11 R280). -/
def State.transfer (s : State) (ready : Bool) (id : Nat) (e' : TokEntry) (r : Word) : TokOut :=
  if !ready then .wait else .done ((s.setTok id e').holderAcquires e'.holder) r

/-- `tlend` (15 R369, R370) of an executor that acts as some holders; `ready` tells of which holder and token the accesses have been
performed. -/
def State.lendTok (s : State) (acting : List Nat) (ready : Nat → Nat → Bool) (k : BitVec 2) (b : Word) (id : Nat) : TokOut :=
  let e := s.tok id
  let h := b.toNat
  let mine := acting.contains e.holder
  if e.state = 2 then
    if !mine || k ≠ 0#2 || !(namesTarget b false && isLocalId h && s.holderLive h) then .trap
    else if e.lentsh < e.shares && (s.sharesOf h).length < 8 && !ready e.holder id then .wait
    else
      match s.lendShare id h with
      | (.noShare, _) => .done s 2
      | (.noSlot, _) => .done s 1
      | (.lent, s1) => .done s1 0
  else if !mine || e.state ≠ (if k = 2#2 then 3 else 1) || !s.targetFor acting b false then .trap
  else
    let e' : TokEntry :=
      if k = 0#2 then { e with state := 3, lender := e.holder, holder := h }
      else if k = 1#2 then { e with lender := 0, holder := h }
      else if h = e.lender then { e with state := 1, holder := h, lender := 0 }
      else { e with holder := h }
    s.transfer (ready e.holder id) id e'.bump 0

/-- `tret` (15 R371); `slot` is the holder that has a share slot of the token. -/
def State.retTok (s : State) (acting : List Nat) (ready : Nat → Nat → Bool) (share : Bool) (slot : Option Nat) (id : Nat) : TokOut :=
  let e := s.tok id
  let mine := acting.contains e.holder
  if !share then
    if !mine || e.state ≠ 3 then .trap
    else s.transfer (ready e.holder id) id { e with state := 1, holder := e.lender, lender := 0 }.bump 0
  else if e.state ≠ 2 then .trap
  else
    match slot with
    | some t => (s.setShares t ((s.sharesOf t).erase id)).transfer (ready t id) id (e.dropShare 1) 0
    | none => if mine && e.lentsh < e.shares then s.transfer (ready e.holder id) id (e.dropShare 0) 0 else .trap

/-- `tshare` (15 R372). -/
def State.shareTok (s : State) (acting : List Nat) (ready : Nat → Nat → Bool) (b : Word) (id : Nat) : TokOut :=
  let e := s.tok id
  let n := b.toNat
  if !acting.contains e.holder || !(e.state = 1 || e.state = 3) || n = 0 || n > 511 then .trap
  else s.transfer (ready e.holder id) id { e with state := 2, shares := n, lentsh := 0 }.bump 0

/-- One more than the greater generation, wrapping (15 R373, R374). -/
def nextGen (a b : Nat) : Nat := (max a b + 1) % 65536

/-- `tsplit` (15 R373); a base that breaks 15 R361 traps. -/
def State.splitTok (s : State) (acting : List Nat) (ready : Nat → Nat → Bool) (id : Nat) : TokOut :=
  let e := s.tok id
  let half := 2 ^ (e.log2 - 1)
  let u := id + half
  let eu := s.tok u
  if !acting.contains e.holder || !(e.state = 1 || e.state = 3) || e.log2 = 0 || !s.tokExists u || eu.state ≠ 0 ||
      e.base % 2 ^ e.log2 ≠ 0 || eu.base ≠ e.base + half then .trap
  else if !ready e.holder id then .wait
  else
    let e' : TokEntry := { e with log2 := e.log2 - 1, gen := nextGen e.gen eu.gen, shares := 0, lentsh := 0 }
    .done (((s.setTok id e').setTok u { e' with base := eu.base }).holderAcquires e.holder) (BitVec.ofNat 64 u)

/-- `tjoin` (15 R374). -/
def State.joinTok (s : State) (acting : List Nat) (ready : Nat → Nat → Bool) (id : Nat) : TokOut :=
  let e := s.tok id
  let b := id ^^^ 2 ^ e.log2
  let f := s.tok b
  let lo := min id b
  let hi := max id b
  let el := if id = lo then e else f
  let eh := if id = lo then f else e
  if !s.tokExists b || f.state = 0 || f.log2 ≠ e.log2 || f.space ≠ e.space || f.holder ≠ e.holder || f.state ≠ e.state ||
      !(e.state = 1 || (e.state = 3 && f.lender = e.lender)) || !acting.contains e.holder || e.log2 ≥ 24 ||
      el.base % 2 ^ (e.log2 + 1) ≠ 0 || eh.base ≠ el.base + 2 ^ e.log2 then .trap
  else if !ready e.holder id || !ready f.holder b then .wait
  else
    let l' : TokEntry := { el with log2 := e.log2 + 1, suspect := max e.suspect f.suspect, gen := nextGen e.gen f.gen }
    let h' : TokEntry := { base := eh.base, gen := (eh.gen + 1) % 65536 }
    .done (((s.setTok lo l').setTok hi h').holderAcquires e.holder) (BitVec.ofNat 64 lo)

/-- 15 R376: an entry both of whose copies are poisoned is rewritten with its sector; the other entry of the sector stands as it read (log
entry 78). -/
def State.cleanTok (s : State) (id : Nat) : State :=
  if !s.bad (s.tokAddr id) then s
  else
    let o := id ^^^ 1
    (if s.tokExists o then s.setTok o (s.tok o) else s).setBad (s.tokAddr id / 32) false

/-- 15 R358: does a token id lie in a partition's range? -/
def Partition.ownsTok (p : Partition) (id : Nat) : Bool :=
  decide (p.ptokfirst.toNat ≤ id) && decide (id < p.ptokfirst.toNat + p.ptokcount.toNat)

/-- `treclaim` (15 R376) for a partition. -/
def State.reclaimTok (s : State) (acting : List Nat) (ready : Nat → Nat → Bool) (part : Nat) (clean : Bool) (b : Word) (id : Nat) : TokOut :=
  let e := s.tok id
  let h := b.toNat
  if e.state ≠ 4 || !(s.partAt part).ownsTok id || !s.targetFor acting b true then .trap
  else
    let e' : TokEntry := { e with state := if h = memoryHolder then 5 else 1, holder := h, lender := 0, shares := 0, lentsh := 0,
                                  suspect := if clean then 0 else e.suspect }
    (s.cleanTok id).transfer (ready e.holder id) id e'.bump 0

/-! ## Tokens of another device -/

/-- Does a link reach a token's device, and has what the instruction releases been performed? If not, the trap REMOTE or the wait (15 R368). -/
def State.reachesToken (s : State) (v : Word) : Option State :=
  if !s.linked then some (s.trapS .remote v)
  else if !s.released s.me || (s.grp s.me).awaits false then some (s.stallS 15)
  else none

/-- 15 R368: a token of another device: the other device decides and answers with a result, or with TOKEN, or STRANDED where the
instruction can have it; one that cannot be reached gives REMOTE. Where S(sb) can be no right operand, no result comes. -/
def State.remoteToken (s : State) (v : Word) (d : BitVec 6) (stranded valid : Bool) (result : Nat → Word) : State :=
  match s.reachesToken v with
  | some s1 => s1
  | none =>
    let n := Config.outsideRead s.free
    let s1 := { s with free := s.free + 1 }
    if n % 3 = 2 && !stranded then s1.trapS .stranded v
    else if n % 3 = 1 || !valid then s1.trapS .token v
    else s1.finish d (result (n / 3))

/-- What a token instruction comes to here: a trap, a wait as an engine stall (before which nothing has begun), or its end. -/
def State.endToken (s s1 : State) (v : Word) (d : BitVec 6) (o : TokOut) : State :=
  match o with
  | .trap => s1.trapS .token v
  | .wait => s.stallS 15
  | .done s2 r => s2.finish d r

/-- 15 R368: the checks that the token instructions share, and then an operation on the entry of the id; `result` is what another device's
token answers, `valid` says whether it can answer any. -/
def State.onToken (s : State) (a d : BitVec 6) (others : List (BitVec 6)) (stranded valid : Bool) (result : Nat → Nat → Word)
    (f : State → Nat → TokOut) : State :=
  let v := s.rs a
  let s1 := s.uses (a :: others)
  let id := (v.extractLsb' 0 24).toNat
  if (s.grp s.me).inTry then s.abortSync s.me
  else if v.extractLsb' 34 30 ≠ 0#30 then s1.trapS .token v
  else if v.extractLsb' 24 10 ≠ s.links.devnum then s1.remoteToken v d stranded valid (result id)
  else if !s.tokExists id then s1.trapS .token v
  else if (s.tok id).state = 4 && !stranded then s1.trapS .stranded v
  else s.endToken s1 v d (f s1 id)

/-! ## The instructions -/

/-- `tlend` (15 R369, R370). -/
def execTlend (k : BitVec 2) (b a d : BitVec 6) (s : State) : Host.Outcome State Fault Refusal :=
  let h := s.rs b
  .next (s.onToken a d [b] false (namesTarget h false) (fun _ n => if k = 0#2 && isLocalId h.toNat then BitVec.ofNat 64 (n % 3) else 0)
    fun s1 id => s1.lendTok s.acting s.transferReady k h id)

/-- The holder among those the executor acts as that has a share slot of a token. -/
def State.slotHolder (s : State) (id : Nat) : Option Nat := s.acting.find? fun h => (s.sharesOf h).contains id

/-- `tret` (15 R371). -/
def execTret (h : BitVec 1) (a d : BitVec 6) (s : State) : Host.Outcome State Fault Refusal :=
  .next (s.onToken a d [] false true (fun _ _ => 0) fun s1 id => s1.retTok s.acting s.transferReady (h = 1#1) (s.slotHolder id) id)

/-- `tshare` (15 R372). -/
def execTshare (b a d : BitVec 6) (s : State) : Host.Outcome State Fault Refusal :=
  let n := (s.rs b).toNat
  .next (s.onToken a d [b] false (decide (1 ≤ n) && decide (n ≤ 511)) (fun _ _ => 0) fun s1 id => s1.shareTok s.acting s.transferReady (s.rs b) id)

/-- `tsplit` (15 R373). -/
def execTsplit (a d : BitVec 6) (s : State) : Host.Outcome State Fault Refusal :=
  .next (s.onToken a d [] false true (fun id n => BitVec.ofNat 64 (id + 2 ^ (n % 24))) fun s1 id => s1.splitTok s.acting s.transferReady id)

/-- `tjoin` (15 R374). -/
def execTjoin (a d : BitVec 6) (s : State) : Host.Outcome State Fault Refusal :=
  .next (s.onToken a d [] false true (fun id n => BitVec.ofNat 64 (min id (id ^^^ 2 ^ (n % 24)))) fun s1 id =>
    s1.joinTok s.acting s.transferReady id)

/-- 15 R375: the role of the executor in an entry. -/
def State.roleIn (s : State) (id : Nat) (e : TokEntry) : Nat :=
  if keyGrp s.me ≠ 64 && e.holder = keyTeam s.me then 1
  else if e.holder = s.gCluster s.me then 2
  else if (s.slotHolder id).isSome then 3
  else 0

/-- 15 R375: a report that another device may answer, of an id where it is known. -/
def answeredReport (w : BitVec 2) (id : Option Nat) (n : Nat) : Word :=
  match w.toNat, id with
  | 0, _ => BitVec.ofNat 64 n
  | 1, some id => BitVec.ofNat 64 (n * 2 ^ 34 + id)
  | 1, none => BitVec.ofNat 64 (n / 2 ^ 24 * 2 ^ 34 + n % 2 ^ 24)
  | _, _ => BitVec.ofNat 64 (n % 2 ^ 36 * 65536)

/-- 15 R375: the report of an entry, in which an executor has a role. -/
def TokEntry.report (e : TokEntry) (role : Nat) (w : BitVec 2) (id : Nat) : Word :=
  match w.toNat with
  | 0 => BitVec.ofNat 64 (2 ^ 48 * e.gen + 2 ^ 24 * e.holder + 2 ^ 15 * e.shares + 2 ^ 6 * e.lentsh + 32 * e.suspect + 4 * e.state + role)
  | 1 => BitVec.ofNat 64 (2 ^ 40 * e.lender + 2 ^ 35 * e.log2 + 2 ^ 34 * e.space + id)
  | _ => BitVec.ofNat 64 (e.base * 65536)

/-- 15 R375: the report of an entry to the executing stream. -/
def State.tokReport (s : State) (w : BitVec 2) (id : Nat) (e : TokEntry) : Word := e.report (s.roleIn id e) w id

/-- 15 R375: the report of the covering token of a virtual address; of another device's page, the report that the device answers, or the one
that no token covers it. Nothing traps for state or holder. -/
def State.queryAddr (s : State) (w : BitVec 2) (a d : BitVec 6) : State :=
  let g := s.me
  let va := s.rs a
  let s1 := s.usesAddr a []
  let who := s.whoIs g (s.grp g).kernel
  if va.toNat ≥ 2 ^ 52 then s1.trapS .page va
  else
    match s.leafFor who va.toNat with
    | none => s1.trapS .page va
    | some l =>
      let s2 := s1.touch who va.toNat
      if !permits l .read who.kernel then s2.trapS .perm va
      else if l.dev ≠ s.links.devnum.toNat then
        match s2.reachesToken va with
        | some s3 => s3
        | none =>
          let n := Config.outsideRead s.free
          { s2 with free := s.free + 1 }.finish d (if n % 2 = 0 then (if w = 1#2 then BitVec.ofNat 64 l.tok else 0) else answeredReport w none (n / 2))
      else
        match s.covering l.tok (l.pa + va.toNat % 2 ^ l.bits) (if l.host then 1 else 0) with
        | some id => s2.finish d (s.tokReport w id (s.tokRaw id))
        | none => s2.finish d (if w = 1#2 then BitVec.ofNat 64 l.tok else 0)

/-- `tquery` (15 R375): it reports the entry that stands (R360; log entry 65). -/
def execTquery (x : BitVec 1) (w : BitVec 2) (a d : BitVec 6) (s : State) : Host.Outcome State Fault Refusal :=
  if x = 1#1 then
    .next (if (s.grp s.me).inTry then s.abortSync s.me else s.queryAddr w a d)
  else .next (s.onToken a d [] true true (fun id n => answeredReport w (some id) n) fun s1 id => .done s1 (s.tokReport w id (s.tokRaw id)))

/-- `treclaim` (15 R376): privileged. -/
def execTreclaim (c : BitVec 1) (b a d : BitVec 6) (s : State) : Host.Outcome State Fault Refusal :=
  if !(s.grp s.me).kernel then .next (s.trapS .priv 0)
  else
    .next (s.onToken a d [b] true (namesTarget (s.rs b) true) (fun _ _ => 0) fun s1 id =>
      s1.reclaimTok s.acting s.transferReady (s.gPart s.me) (c = 1#1) (s.rs b) id)

end Sys2Proof.Machine
end

