-- ==== Sys2Proof/Machine/Links.lean ====
section
/-! DEFINITION. Globutu Links (19 R445 to R448, 11 R290): flits received, replays and void flits, re-emission, the remote transactions
that arrive, loss of a link. -/

namespace Sys2Proof.Machine

/-! ## Transactions that arrive (19 R446, 10 R242, 15 R364) -/

/-- A transaction beat of another device. The spec gives no layout of the beats of a flit: this one is the model's (log entry 34). -/
structure Beat where
  dev : Nat
  part : Nat
  queue : Nat
  tag : Nat
  order : Nat
  /-- 0 load, 1 store, 2 atomic, 3 an operation on a token (15 R368) -/
  op : Nat
  /-- of an atomic, its operation; of a token: 0 to 2 `tlend` by kind, 3 `tret`, 4 `tret.sh`, 5 `tshare`, 6 `tsplit`, 7 `tjoin`, 8 to 10
  `tquery` by w, 11 `treclaim`, 12 `treclaim.clean`, 13 to 15 `tquery.addr` by w -/
  aop : Nat
  ty : BitVec 4
  ms : Bool
  n : Nat
  tok : Nat
  pa : Nat
  data : Nat
  cmp : Nat
  /-- the poison of a store's bytes (09 R236) -/
  bad : Bool
  deriving DecidableEq, Repr, Inhabited

/-- A beat's fields in the number that stands for it. -/
def Beat.ofNat (x : Nat) : Beat :=
  { dev := bits x 9 0, part := bits x 12 10, queue := bits x 28 13, tag := bits x 44 29, order := bits x 60 45, op := bits x 62 61
    aop := bits x 66 63, ty := BitVec.ofNat 4 (bits x 70 67), ms := bits x 71 71 = 1, n := bits x 79 72, tok := bits x 103 80
    pa := bits x 143 104, data := bits x 655 144, cmp := bits x 719 656, bad := bits x 720 720 = 1 }

/-- The key of a source device's queue. -/
def Beat.key (b : Beat) : Nat := 2 ^ 16 * b.dev + b.queue

/-- 10 R242, 15 R366: the token check of a remote access at this device; none allows it. -/
def State.remoteCheck (s : State) (b : Beat) : Option Cause :=
  let w : Who := { part := b.part, holders := [remoteHolder b.dev b.part], kernel := true }
  match s.covering b.tok b.pa 0 with
  | none => some .unowned
  | some id => tokFault w id (s.tok id) (b.op ≠ 0)

/-- 15 R368, R375: what an operation of another device on a token comes to here, its executor matched as a remote-device holder, which has no
role in a report. What a transfer releases of the old holder has been performed first (11 R280). -/
def State.tokenBeat (s : State) (b : Beat) : Except Cause TokOut :=
  let acting := [remoteHolder b.dev b.part]
  let ready (h id : Nat) : Bool := !s.storesTo h id
  let v := BitVec.ofNat 64 b.data
  let id := b.tok
  if b.aop ≥ 13 then
    let w := BitVec.ofNat 2 (b.aop - 13)
    .ok (match s.covering id b.pa 0 with
      | some i => .done s ((s.tokRaw i).report 0 w i)
      | none => .done s (if w = 1#2 then BitVec.ofNat 64 id else 0))
  else if !s.tokExists id then .error .token
  else if (s.tok id).state = 4 && b.aop < 8 then .error .stranded
  else .ok (match b.aop with
    | 3 => s.retTok acting ready false none id
    | 4 => s.retTok acting ready true none id
    | 5 => s.shareTok acting ready v id
    | 6 => s.splitTok acting ready id
    | 7 => s.joinTok acting ready id
    | 11 => s.reclaimTok acting ready b.part false v id
    | 12 => s.reclaimTok acting ready b.part true v id
    | n => if n < 3 then s.lendTok acting ready (BitVec.ofNat 2 n) v id else .done s ((s.tokRaw id).report 0 (BitVec.ofNat 2 (n - 8)) id))

/-- Where a transaction of another device is performed. -/
def Beat.xlat (b : Beat) : Xlat := { pa := b.pa, leaf := { pa := b.pa, ms := b.ms }, remote := false, tok := b.tok }

/-- 11 R290: a remote transaction performed at its home here: its answer and the state after. -/
def State.performRemote (s : State) (b : Beat) : Answer × State :=
  if s.failed || (s.partAt b.part).resetting then (.cause Cause.remote.code, s)
  else if b.op = 3 then
    match s.tokenBeat b with
    | .error c => (.cause c.code, s)
    | .ok .trap => (.cause Cause.token.code, s)
    | .ok .wait => (.done, s)
    | .ok (.done s1 r) => (.data 8 r.toNat false, s1)
  else
    match s.remoteCheck b with
    | some c => (.cause c.code, s)
    | none =>
      let x := b.xlat
      if b.op = 0 then
        let d := s.rawLoad x b.n
        (.data b.n (natOfBytes d.1) d.2, s.touchHome b.part x 0)
      else if b.op = 1 then (.done, (s.rawStore b.part x (bytesOfNat b.n b.data) 0).carryPoison x b.bad)
      else
        let r := s.readModifyWrite x b.aop b.ty b.data b.cmp
        (.data (tyWidth b.ty / 8) r.1 r.2.1, r.2.2)

/-- 19 R446: performs a transaction whose turn it is, keeps its tag among the last 1,024 of its queue, and answers it. -/
def State.takeRemote (s : State) (b : Beat) : State :=
  let r := s.performRemote b
  let k := r.2.links
  let s1 := { r.2 with links := { k with
    tags := KMap.put b.key (((b.tag, r.1) :: KMap.read [] b.key k.tags).take 1024) k.tags
    order := KMap.put b.key ((b.order + 1) % 65536) k.order } }
  { s1 with answers := r.1 :: s1.answers }

/-- Does a transaction have to wait: at its home (10 R261), or for what the transfer of a token releases (15 R368)? -/
def State.beatWaits (s : State) (b : Beat) : Bool :=
  if b.op = 3 then (match s.tokenBeat b with | .ok .wait => true | _ => false) else s.homeBusy b.part b.xlat

/-- The transactions held for their turn, performed as far as the order numbers go and nothing keeps one waiting. -/
def State.takeLater (s : State) (key : Nat) : Nat → State
  | 0 => s
  | fuel + 1 =>
    match (KMap.read [] key s.links.later).find? fun x =>
        (Beat.ofNat x).order = KMap.read 0 key s.links.order && !s.beatWaits (Beat.ofNat x) with
    | none => s
    | some x =>
      let s1 := { s with links := { s.links with later := KMap.put key ((KMap.read [] key s.links.later).erase x) s.links.later } }
      (s1.takeRemote (Beat.ofNat x)).takeLater key fuel

/-- 19 R446: a transaction arrives: one whose tag is on record is answered from it and not performed again; one whose order number is
still to come, modulo 65,536, or which has to wait, is held. -/
def State.arriveRemote (s : State) (x : Nat) : State :=
  let b := Beat.ofNat x
  match (KMap.read [] b.key s.links.tags).find? fun t => t.1 = b.tag with
  | some t => { s with answers := t.2 :: s.answers }
  | none =>
    let next := KMap.read 0 b.key s.links.order
    if b.order = next && !s.beatWaits b then (s.takeRemote b).takeLater b.key ((KMap.read [] b.key s.links.later).length + 1)
    else if (b.order + 65536 - next) % 65536 < 32768 then { s with links := { s.links with later := KMap.put b.key (KMap.read [] b.key s.links.later ++ [x]) s.links.later } }
    else s

/-! ## Links (19 R445, R447) -/

/-- Changes a link. -/
def State.onLink (s : State) (n : Nat) (f : Link → Link) : State :=
  { s with links := { s.links with link := KMap.put n (f (KMap.read ({} : Link) n s.links.link)) s.links.link } }

/-- A link's record. -/
def State.linkAt (s : State) (n : Nat) : Link := KMap.read ({ working := false } : Link) n s.links.link

/-- 19 R445: flits acknowledged leave the replay window, the last SEQ received in order and those before it; with them their
transactions. -/
def State.ackFlits (s : State) (n seq : Nat) : State :=
  let w := (s.linkAt n).window
  match w.findIdx? fun f => f.seq = seq with
  | none => s
  | some i =>
    let gone := (w.take (i + 1)).flatMap fun f => if f.void then [] else f.beats
    let s1 := s.onLink n fun l => { l with window := l.window.drop (i + 1) }
    { s1 with links := { s1.links with out := s1.links.out.filter fun o => !(gone.any fun b => b.queue = o.1 && b.tag = o.2.1) } }

/-- 19 R447: a link goes down: the capability list clears its bit, and what it had not had acknowledged is re-emitted on the link that
comes next. -/
def State.linkDown (s : State) (n : Nat) : State :=
  let l := s.linkAt n
  let pend := (l.window.flatMap fun f => f.beats) ++ l.again
  let s1 := s.onLink n fun l => { l with working := false, window := [], again := [] }
  let s2 := { s1 with caps := { s1.caps with capgen := s1.caps.capgen + 2 } }
  match ((List.range 36).map fun i => (n + 1 + i) % 36).find? fun m => (s2.linkAt m).working with
  | none => s2
  | some m => s2.onLink m fun l => { l with again := l.again ++ pend.dedup }

/-- 19 R445, R446: a NAK: replay from the SEQ it names; an entry that fails its code goes as a void flit, its transactions to be
re-emitted. Sixteen consecutive replays of one SEQ take the link down. -/
def State.replayFrom (s : State) (n seq : Nat) (damaged : List Nat) : State :=
  let l := s.linkAt n
  match l.window.findIdx? fun f => f.seq = seq with
  | none => s
  | some i =>
    let count := if l.lastNak = some seq then l.replays + 1 else 1
    let part := l.window.drop i
    let bad (f : Flit) : Bool := !f.void && damaged.contains f.seq
    let part1 := part.map fun f => if bad f then { f with void := true } else f
    let s1 := s.onLink n fun l => { l with
      window := l.window.take i ++ part1, replays := count, lastNak := some seq
      again := l.again ++ (part.filter bad).flatMap fun f => f.beats
      sent := (part1.map fun f => ((if f.void then 1 else 0), f.seq)).reverse ++ l.sent }
    if count ≥ 16 then s1.linkDown n else s1

/-- 19 R445: answers with a NAK that names the SEQ expected. -/
def State.nak (s : State) (n : Nat) : State := s.onLink n fun l => { l with sent := (3, l.expect) :: l.sent }

/-- Transactions held whose turn has come and whose home is free again are performed. -/
def State.retryRemotes (s : State) : State :=
  (KMap.keys s.links.later).foldl (fun s key => s.takeLater key (KMap.read [] key s.links.later).length) s

/-- The event FLIT_RECEIVE (19 R445): `header` is the flit's, `crcOk` says that its CRC holds, and `beats` are the transactions of a data
flit; of a NAK, the SEQs of this side's window entries that fail their code. -/
def execFlitReceive (link : Nat) (header : BitVec 32) (crcOk : Bool) (beats : List Nat) (s : State) : Host.Outcome State Fault Refusal :=
  if !s.links.en || !(s.linkAt link).working || decide (link ≥ 36) then .next s
  else if !crcOk then .next (s.nak link)
  else
    let seq := (header.extractLsb' 20 12).toNat
    let s1 := s.ackFlits link (header.extractLsb' 8 12).toNat
    match (header.extractLsb' 4 4).toNat with
    | 0 | 1 =>
      if seq ≠ (s1.linkAt link).expect then .next (s1.nak link)
      else
        let s2 := s1.onLink link fun l => { l with expect := (seq + 1) % 4096 }
        .next (if header.extractLsb' 4 4 = 0#4 then beats.foldl State.arriveRemote s2.retryRemotes else s2)
    | 3 => .next (s1.replayFrom link seq beats)
    | _ => .next s1.retryRemotes

/-- A link's first transaction of a queue and tag to be re-emitted goes out. -/
def Link.reemit (l : Link) (queue tag : Nat) : Link :=
  match l.again.find? fun b => b.queue = queue && b.tag = tag with
  | some b => { l.send [b] with again := l.again.erase b }
  | none => l

/-- The event TRANSACTION_REEMIT (19 R446): a transaction of a void flit goes out again under its tag in a later flit. -/
def execTransactionReemit (link queue tag : Nat) (s : State) : Host.Outcome State Fault Refusal :=
  if !(s.linkAt link).working || !(s.linkAt link).again.any (fun b => b.queue = queue && b.tag = tag) then .next s
  else .next (s.onLink link fun l => l.reemit queue tag)

/-- The event LOSS_OF_LOCK (19 R447). -/
def execLossOfLock (link : Nat) (s : State) : Host.Outcome State Fault Refusal :=
  .next (if (s.linkAt link).working then s.linkDown link else s)

/-- 19 R447, R450: the links are trained: each is up, its sequences from 0. -/
def State.trainLinks (s : State) : State :=
  { s with links := { s.links with link := (List.range 36).map fun n => (n, {}) }, caps := { s.caps with capgen := s.caps.capgen + 2 } }

/-- The event LNKCFG_WRITE (19 R448): DEVNUM is ignored while EN is 1; EN rising at start stage 2 trains the links (R450). The capability list
tells DEVNUM and the links (16 R403). -/
def execLnkcfgWrite (v : BitVec 64) (s : State) : Host.Outcome State Fault Refusal :=
  let en := v.getLsbD 0
  let dev := if s.links.en then s.links.devnum else v.extractLsb' 32 10
  let s1 := { s with
    links := { s.links with en := en, devnum := dev }
    caps := if dev = s.links.devnum then s.caps else { s.caps with capgen := s.caps.capgen + 2 } }
  .next (if en && !s.links.en && decide (s.stage = 2) then s1.trainLinks else s1)

end Sys2Proof.Machine
end

