-- ==== Sys2Proof/Machine/Placement.lean ====
section
/-! DEFINITION. Placement (14 R344, R350 to R353, 02 R48 to R53): rectangles of free cores, the order of candidates, launch of a
cluster, relaunch of a switched-out one (08 R216), reservation and pre-emption. -/

namespace Sys2Proof.Machine

/-! ## Rectangles (02 R48, 14 R351) -/

/-- A rectangle: its orientation and its cores by member index. -/
structure Rect where
  orient : Bool
  cores : List Nat
  deriving DecidableEq, Repr, Inhabited

/-- The core of a position (01 R11). -/
def coreNo (die col row : Nat) : Nat := 128 * die + 16 * col + row

/-- 02 R48: the cores of the members of a shape whose lowest column and row are given; transposed, x runs along the rows. -/
def rectAt (w h : Nat) (orient : Bool) (die c0 r0 : Nat) : Rect :=
  { orient
    cores := (List.range (w * h)).map fun m =>
      if orient then coreNo die (c0 + m / w) (r0 + m % w) else coreNo die (c0 + m % w) (r0 + m / w) }

/-- 14 R351: the rectangles of one orientation, by die, anchor column and anchor row. -/
def rectsOf (w h : Nat) (orient : Bool) : List Rect :=
  let cols := if orient then h else w
  let rows := if orient then w else h
  (List.range 3).flatMap fun die => (List.range (9 - cols)).flatMap fun c0 => (List.range (17 - rows)).map fun r0 =>
    rectAt w h orient die c0 r0

/-- 14 R351: the rectangles of a shape, upright ones first. -/
def rects (w h : Nat) : List Rect := rectsOf w h false ++ rectsOf w h true

/-- 14 R340: is a core one of a partition's? A hole or a disabled core is not listed among the cores. -/
def State.usable (s : State) (p k : Nat) : Bool :=
  match KMap.find k s.cores with
  | some c => c.on && c.mapV && c.mapPart = p
  | none => false

/-- A candidate for placement (14 R350): the next cluster of a task, or a switched-out cluster. -/
structure Cand where
  relaunch : Bool
  idx : Nat
  prio : Nat
  since : Nat
  deriving DecidableEq, Repr, Inhabited

/-- Is a partition's reservation for this candidate? -/
def Reserve.isFor (r : Reserve) (c : Cand) : Bool := if c.relaunch then r.cluster = some c.idx else r.task = some c.idx

/-- 14 R340, R351, R352: is a core free for a candidate: no team, no held map change, not reserved for another candidate? -/
def State.freeFor (s : State) (p : Nat) (c : Cand) (k : Nat) : Bool :=
  s.usable p k && (s.coreAt k).team.isNone && (s.coreAt k).heldMap.isNone &&
    match (s.partAt p).reserve with
    | some r => r.isFor c || !r.cores.contains k
    | none => true

/-- 14 R351: the first rectangle of a shape whose cores are all free for a candidate. -/
def State.findRect (s : State) (p : Nat) (c : Cand) (w h : Nat) : Option Rect := (rects w h).find? fun r => r.cores.all (s.freeFor p c)

/-- 14 R351: does a rectangle of a shape exist among a partition's enabled cores at all? -/
def State.shapeExists (s : State) (p w h : Nat) : Bool := (rects w h).any fun r => r.cores.all (s.usable p)

/-! ## Candidates (14 R350) -/

/-- 14 R350: the effective priority of a base priority and a wait begun at a moment. -/
def State.effPrio (s : State) (p base since : Nat) : Nat :=
  let step := (s.partAt p).pagestep.toNat
  min 7 (base + if step = 0 then 0 else (s.now - since) / (1000 * step))

/-- 14 R350: the order in which candidates are tried; where the spec leaves a tie, the lower number first (log entry 30). -/
def Cand.before (a b : Cand) : Bool :=
  decide (a.prio > b.prio) || (a.prio = b.prio &&
    ((a.relaunch && !b.relaunch) || (a.relaunch = b.relaunch &&
      (decide (a.since < b.since) || (a.since = b.since && decide (a.idx < b.idx))))))

/-- Enters a candidate in its place. -/
def Cand.insert (c : Cand) : List Cand → List Cand
  | [] => [c]
  | d :: ds => if c.before d then c :: d :: ds else d :: c.insert ds

/-- Has a task clusters that remain to be placed? -/
def Task.placeable (t : Task) : Bool := (t.state = .ready || t.state = .running) && !t.stopped && decide (t.placed < recGrid t.record)

/-- 14 R350: a partition's candidates, in the order in which a pass tries them. -/
def State.candidates (s : State) (p : Nat) : List Cand :=
  let q := s.partAt p
  let ts := (q.tasks.filter fun e => e.2.placeable).map fun e =>
    ({ relaunch := false, idx := e.1, prio := s.effPrio p e.2.prio e.2.since, since := e.2.since } : Cand)
  let cs := q.relaunchq.map fun c =>
    ({ relaunch := true, idx := c, prio := s.effPrio p (s.cl c).prio (s.cl c).since, since := (s.cl c).since } : Cand)
  (ts ++ cs).foldr Cand.insert []

/-! ## Launch -/

/-- 15 R363: a serial that no live team or cluster of the partition has, and the next to try. -/
def State.newSerial (s : State) (p : Nat) : Nat × State :=
  let n := (s.partAt p).serial
  let at' (j : Nat) : Nat := (n + j - 1) % (2 ^ 19 - 1) + 1
  let taken (k : Nat) : Bool := s.holderLive (p * 2 ^ 19 + k) || s.holderLive (0x400000 + p * 2 ^ 19 + k)
  let j := ((List.range (s.teams.length + s.clusters.length + 1)).find? fun j => !taken (at' j)).getD 0
  (at' j, s.onPart p fun q => { q with serial := at' j + 1 })

/-- 14 R350: image slots of a partition that no live or switched-out cluster holds, at most `n` of them. -/
def State.freeImages (s : State) (p n : Nat) : List Nat :=
  let total := (s.partAt p).pctxlen.toNat * 0x20_0000 / imageBytes
  let held := (s.teams.filter fun t => t.2.part = p && (s.cl t.2.cluster).res ≠ .ended).map fun t => t.2.img
  (((List.range (min total (held.length + n))).filter fun i => !held.contains i).take n)

/-- The `k`-th number that a rising list does not hold (02 R51: each index is given once). -/
def nthUnused (k : Nat) : List Nat → Nat
  | [] => k
  | u :: us => if u ≤ k then nthUnused (k + 1) us else k

/-- Enters a number in a rising list. -/
def insertRising (k : Nat) : List Nat → List Nat
  | [] => [k]
  | u :: us => if k < u then k :: u :: us else u :: insertRising k us

/-- What the tokens of a launch record come to at placement (14 R344). -/
inductive LaunchTokens where
  | fail | wait | ok
  deriving DecidableEq, Repr

/-- 14 R344: the outcome for the tokens of LTOK and STOK. The transfer of LTOK waits for stores still to be performed under its
holder (11 R280). -/
def State.launchTokens (s : State) (t : Task) : LaunchTokens :=
  let l := recField t.record 0x40 4
  let h := recField t.record 0x44 4
  let lid := l % 2 ^ 24
  let hid := h % 2 ^ 24
  let lbad := decide (l ≥ 2 ^ 31) && !(s.tokExists lid && (s.tok lid).state = 1 && (s.tok lid).holder = t.submitter)
  let hbad := decide (h ≥ 2 ^ 31) && !(s.tokExists hid && (s.tok hid).state = 2 && (s.tok hid).holder = t.submitter)
  if lbad || hbad then .fail
  else if (decide (h ≥ 2 ^ 31) && (s.tok hid).lentsh ≥ (s.tok hid).shares) ||
    (decide (l ≥ 2 ^ 31) && s.storesTo t.submitter lid) then .wait
  else .ok

/-- 14 R344, 15 R369, R370: lends the token of LTOK to the anchor team or the cluster, and a share of STOK's to the cluster. -/
def State.lendTokens (s : State) (t : Task) (c team : Nat) : State :=
  let l := recField t.record 0x40 4
  let h := recField t.record 0x44 4
  let s1 := if l < 2 ^ 31 then s
    else
      let id := l % 2 ^ 24
      let e := s.tok id
      s.setTok id ({ e with state := 3, lender := e.holder, holder := if l / 2 ^ 30 % 2 = 1 then c else team } : TokEntry).bump
  if h < 2 ^ 31 then s1 else (s1.lendShare (h % 2 ^ 24) c).2

/-- 02 R52, 14 R338: a member team with its launch values, and its groups; the Press of its core is as at a cluster launch (12 R310,
R311), whether a sub-array is gated apart. -/
def State.launchTeam (s : State) (p c t m k img : Nat) (r : List Byte) : State :=
  let q := s.partAt p
  let arg := BitVec.ofNat 64 (recField r 0x18 8)
  let s1 := s.setTm t {
    part := p, cluster := c, member := m, core := some k, vregs := 8 * recField r 3 1, spad := 4096 * recField r 4 2
    arg := arg, hvec := q.phvec, evthr := q.pevthr, spawntmr := q.pspawntmr, trygrace := q.ptrygrace, img := img }
  let s2 := s1.onCore k fun x => { x.clearCounters with team := some t, press := { sub := x.press.sub }, pressgate := q.ppressgate }
  (List.range (recField r 2 1)).foldl (fun s g =>
    s.setGrp (streamKey t g) (startGroup t g (BitVec.ofNat 64 (recField r 8 8)) arg 0xFFFF s.now)) s2

/-- Draws a serial for each of `n` teams of a partition. -/
def State.newTeams (s : State) (p : Nat) : Nat → List Nat × State
  | 0 => ([], s)
  | n + 1 =>
    let x := s.newSerial p
    let t := p * 2 ^ 19 + x.1
    let y := (x.2.setTm t { part := p }).newTeams p n
    (t :: y.1, y.2)

/-- 04 R102: a grid register: the size along an axis less one above the cluster's index. -/
def gridReg (n i : Nat) : Word := BitVec.ofNat 64 (2 ^ 32 * (n - 1) + i)

/-- 14 R351, 02 R51 to R53: places the next cluster of a task on a rectangle, with image slots for its members, whose images are initialised
(09 R237). -/
def State.launch (s : State) (p i : Nat) (r : Rect) (imgs : List Nat) : State :=
  let t := s.taskAt p i
  let rec' := t.record
  let w := recField rec' 6 1 % 16
  let h := recField rec' 6 1 / 16
  let k := nthUnused (Config.indexChoice s.free % (recGrid rec' - t.placed)) t.used
  let nx := recField rec' 0x20 4 + 1
  let ny := recField rec' 0x24 4 + 1
  let nz := recField rec' 0x28 4 + 1
  let x := { s with free := s.free + 1 }.newSerial p
  let c := 0x400000 + p * 2 ^ 19 + x.1
  let y := (x.2.setCl c { part := p }).newTeams p (w * h)
  let a := r.cores.headD 0
  let s1 := y.2.setCl c {
    part := p, task := i, w := w, h := h, orient := r.orient, die := a / 128, col := a / 16 % 8, row := a % 16
    fuse := recField rec' 7 1 % 2 = 1, gx := gridReg nx (k % nx), gy := gridReg ny (k / nx % ny)
    gz := gridReg nz (k / (nx * ny)), members := y.1, prio := t.prio, since := t.since, accrued := s.now - t.since
    submitter := t.submitter }
  let s2 := (y.1.zip (r.cores.zip imgs)).zipIdx.foldl (fun s e => s.launchTeam p c e.1.1 e.2 e.1.2.1 e.1.2.2 rec') s1
  let seq := recField rec' 0x10 8
  let t0 := y.1.headD 0
  let s3 := if seq = 0 then s2
    else s2.setGrp (streamKey t0 64)
      { team := t0, grp := 64, isSeq := true, pc := BitVec.ofNat 64 seq, s := KMap.write 0 1 (BitVec.ofNat 64 (recField rec' 0x18 8)) [], born := s.now }
  let s3 := y.1.foldl State.saveImage s3
  let s4 := s3.setTask p i { t with state := .running, placed := t.placed + 1, used := insertRising k t.used }
  s4.lendTokens t c t0

/-- 14 R344, R345, R351: placement of a task stops with a status. -/
def State.haltTask (s : State) (p i status : Nat) : State :=
  let t := s.taskAt p i
  (s.setTask p i { t with status := firstStatus t.status status, stopped := true, state := .running }).tryCompleteTask p i

/-- What trying a candidate comes to. -/
inductive Tried where
  | passed
  | stopped (s : State)
  | placed (s : State)

/-- 14 R352: a reservation ends when its candidate is placed. -/
def State.endReserve (s : State) (p : Nat) (c : Cand) : State :=
  match (s.partAt p).reserve with
  | some r => if r.isFor c then s.onPart p fun q => { q with reserve := none } else s
  | none => s

/-- Tries the next cluster of a task. -/
def State.tryTask (s : State) (p : Nat) (c : Cand) : Tried :=
  let t := s.taskAt p c.idx
  let w := recField t.record 6 1 % 16
  let h := recField t.record 6 1 / 16
  if !t.placeable then .passed
  else if !s.shapeExists p w h then .stopped ((s.haltTask p c.idx 7).endReserve p c)
  else
    match s.findRect p c w h, s.freeImages p (w * h) with
    | some r, imgs =>
      if imgs.length < w * h then .passed
      else
        match s.launchTokens t with
        | .fail => .stopped ((s.haltTask p c.idx 6).endReserve p c)
        | .wait => .passed
        | .ok => .placed ((s.launch p c.idx r imgs).endReserve p c)
    | none, _ => .passed

/-! ## Relaunch (08 R216) -/

/-- 14 R356: streams come onto a core with the opportunities that each was without issuing, the core's count raised so that they stand in
their order. -/
def State.joinCore (s : State) (t k : Nat) : State :=
  let gs := s.teamStreams t
  let n := (s.coreAt k).slots + (gs.map fun g => max (s.grp g).lastS (s.grp g).lastL).foldl max 0
  gs.foldl (fun s g => s.onGrp g fun x => x.leaveCore n) (s.onCore k fun c => { c with slots := n })

/-- 08 R216, 09 R221, R222: a member of a relaunched cluster, or its ended anchor, on its core: its Press, its registers and its scratchpad
are restored, watch copies over their objects, a stalled `waitph` executing again (17 R414), and the sums held for its objects applied in rising offset (17 R421); older wide lines of
the core's L1 go (11 R291). A member whose image
is broken ends with "context lost" and runs nothing; where the sequencer stream's is, or the team has ended before, its cluster does (log
entry 20). -/
def State.restoreTeam (s0 : State) (t k : Nat) : State :=
  let x := s0.tm t
  let s := ((x.press.elim [] fun p => KMap.keys p.z).foldl (fun s z => s.repairRange t (0x41_0000 + 65536 * z) 65536) (s0.repairRange t 0 0x1000)).joinCore t k
  let has (grp : Nat) : Bool := (KMap.find (streamKey t grp) s.groups).isSome
  let lostSeq := has 64 && (x.res = .ended && x.broken || s.imageLost t fun g => g = 64)
  let lost := x.broken || lostSeq || s.imageLost t has
  let s1 := s.onTm t fun y => { y with core := some k, res := if y.res = .ended then .ended else .resident, watched := [], press := none, broken := false }
  let s2 := s1.onCore k fun c => { c.clearCounters with
    team := some t, press := { s1.loadAccPoison t (x.press.getD {}) with sub := c.press.sub }, l1 := keepLines (fun y => !y.wide) c.l1 }
  let s3 := if lost then s2 else (s2.teamStreams t).foldl (fun s g => s.loadStream t k g) ((s2.loadSpad t).onTm t fun y => y.overlaid x)
  let s4 := (s3.teamStreams t).foldl (fun s g => s.onGrp g fun y => { y with out := false, stall := if y.stall = 6 then 1 else y.stall }) s3
  if lost then s4.endWithStatus (streamKey t (if lostSeq then 64 else 0)) 4 else (KMap.keys x.held).foldl (fun s o => s.flushHeld t o) s4

/-- Restores a switched-out cluster on a rectangle. An ended anchor team's core is still the cluster's (02 R54). -/
def State.restore (s : State) (c : Nat) (r : Rect) : State :=
  let x := s.cl c
  let a := r.cores.headD 0
  let s1 := s.onCl c fun y => { y with
    res := .resident, orient := r.orient, die := a / 128, col := a / 16 % 8, row := a % 16, accrued := s.now - y.since }
  let s2 := s1.onPart x.part fun q => { q with relaunchq := q.relaunchq.filter fun d => d ≠ c }
  (x.members.zip r.cores).foldl (fun s e => if (s.tm e.1).isOut || (x.members.headD 0 = e.1 && (s.cl c).res ≠ .ended) then s.restoreTeam e.1 e.2 else s) s2

/-- Is nothing of a residual record on its way or about to drain: what is left of it is held behind a fault (08 R206)? -/
def State.residualDrained (s : State) (r : Residual) : Bool :=
  !(r.storeq.any fun o => o.waitsRemote) && (s.adopted r || (r.storeq.headD default).fault.isSome)

/-- 11 R291: have the store queues of a switched-out cluster's streams, and of its exited groups, drained? What a held fault keeps waits for
its handler. -/
def State.storesDrained (s : State) (c : Nat) : Bool :=
  ((s.clusterStreams c).all fun g => (s.grp g).drains.isEmpty && !(s.grp g).storesOut true && !(s.grp g).storesOut false) &&
    s.residuals.all fun r => !(s.cl c).members.contains r.2.team || s.residualDrained r.2

/-- Tries a switched-out cluster whose store queues have drained (11 R291); one that has ended meanwhile leaves the queue. -/
def State.tryRelaunch (s : State) (p : Nat) (c : Cand) : Tried :=
  let x := s.cl c.idx
  if !(s.partAt p).relaunchq.contains c.idx then .passed
  else if x.res = .ended then .stopped ((s.onPart p fun q => { q with relaunchq := q.relaunchq.filter fun d => d ≠ c.idx }).endReserve p c)
  else
    match if s.storesDrained c.idx then s.findRect p c x.w x.h else none with
    | some r => .placed ((s.restore c.idx r).endReserve p c)
    | none => .passed

/-- Tries a candidate. -/
def State.tryCand (s : State) (p : Nat) (c : Cand) : Tried := if c.relaunch then s.tryRelaunch p c else s.tryTask p c

/-- Places a candidate as often as it fits: a task's clusters one after another. -/
def State.placeEach (s : State) (p : Nat) (c : Cand) : Nat → State
  | 0 => s
  | fuel + 1 =>
    match s.tryCand p c with
    | .passed => s
    | .stopped s1 => s1
    | .placed s1 => s1.placeEach p c fuel

/-- The event PLACEMENT_PASS (14 R350): every candidate that fits is placed, in order. A failed device takes no launch (01 R10). -/
def execPlacementPass (p : Nat) (s : State) : Host.Outcome State Fault Refusal :=
  if s.failed then .next s
  else .next ((s.candidates p).foldl (fun s c => s.placeEach p c (s.cores.length + 1)) s)

/-- Does a candidate fit now? -/
def State.fits (s : State) (p : Nat) (c : Cand) : Bool :=
  match s.tryCand p c with
  | .placed _ => true
  | _ => false

/-- The event RELAUNCH (08 R216): a cluster of its partition's relaunch queue that fits, and before which no candidate fits. A failed device
relaunches none, as it launches none (01 R10; log entry 51). -/
def execRelaunch (cluster : Nat) (s : State) : Host.Outcome State Fault Refusal :=
  let p := (s.cl cluster).part
  let cs := s.candidates p
  let isMine (c : Cand) : Bool := c.relaunch && c.idx = cluster
  match cs.find? isMine with
  | none => .next s
  | some c =>
    if s.failed || (cs.takeWhile fun d => !isMine d).any (s.fits p) then .next s
    else
      match s.tryRelaunch p c with
      | .placed s1 | .stopped s1 => .next s1
      | .passed => .next s

/-! ## Reservation (14 R352) -/

/-- The shape of a candidate. -/
def State.shapeOf (s : State) (p : Nat) (c : Cand) : Nat × Nat :=
  if c.relaunch then ((s.cl c.idx).w, (s.cl c.idx).h)
  else
    let b := recField (s.taskAt p c.idx).record 6 1
    (b % 16, b / 16)

/-- The base priority of a candidate. -/
def State.baseOf (s : State) (p : Nat) (c : Cand) : Nat := if c.relaunch then (s.cl c.idx).prio else (s.taskAt p c.idx).prio

/-- The first rectangle with the fewest cores that hold teams. -/
def State.leastHeld (s : State) : List Rect → Option Rect
  | [] => none
  | r :: rs =>
    match s.leastHeld rs with
    | none => some r
    | some b =>
      let n (x : Rect) : Nat := (x.cores.filter fun k => (s.coreAt k).team.isSome).length
      if n r ≤ n b then some r else some b

/-- 14 R352: the rectangle that is reserved: of the upright ones, else of the transposed ones, the one with the fewest held cores. -/
def State.chooseReserve (s : State) (p w h : Nat) : Option Rect :=
  match s.leastHeld ((rectsOf w h false).filter fun r => r.cores.all (s.usable p)) with
  | some r => some r
  | none => s.leastHeld ((rectsOf w h true).filter fun r => r.cores.all (s.usable p))

/-- 14 R352: the resident teams on a reserved rectangle: eligible clusters are evicted, and for a candidate of base priority 7 those
of lower base priority are pre-empted. -/
def State.clearReserve (s : State) (base : Nat) (cores : List Nat) : State :=
  cores.foldl (fun s k =>
    match (s.coreAt k).team with
    | none => s
    | some t =>
      let c := (s.tm t).cluster
      if s.evictable c then s.evict c
      else if base = 7 && decide ((s.cl c).prio < 7) then s.preempt c
      else s) s

/-- The event RESERVATION (14 R352): for the head candidate, when it has waited longer than AGE and no reservation stands; while one
stands, what it clears for its candidate is cleared. -/
def execReservation (p : Nat) (s : State) : Host.Outcome State Fault Refusal :=
  let age := (s.partAt p).presage.toNat
  match (s.partAt p).reserve with
  | some r =>
    match (s.candidates p).find? fun c => r.isFor c with
    | some c => .next (s.clearReserve (s.baseOf p c) r.cores)
    | none => .next s
  | none =>
    match (s.candidates p).head? with
    | none => .next s
    | some c =>
      if age = 0 || s.now - c.since ≤ 1000 * age then .next s
      else
        let sh := s.shapeOf p c
        match s.chooseReserve p sh.1 sh.2 with
        | none => .next s
        | some r =>
          let s1 := s.onPart p fun q => { q with reserve := some {
            task := if c.relaunch then none else some c.idx, cluster := if c.relaunch then some c.idx else none, cores := r.cores } }
          .next (s1.clearReserve (s.baseOf p c) r.cores)

/-! ## Pre-emption (14 R353) and the core map (14 R340) -/

/-- The event PPREEMPT_CLUSTER (14 R353): a write of PPREEMPT with a cluster id; one that is not resident is ignored. -/
def execPpreemptCluster (p cluster : Nat) (s : State) : Host.Outcome State Fault Refusal :=
  .next (if (s.cl cluster).part = p then s.preempt cluster else s)

/-- The event PPREEMPT_ALL (14 R353). -/
def execPpreemptAll (p : Nat) (s : State) : Host.Outcome State Fault Refusal :=
  .next (((s.clusters.filter fun c => c.2.part = p).map Prod.fst).foldl State.preempt s)

/-- 14 R340: a core changes partition: a reservation that includes it ends. -/
def State.setCoreMap (s : State) (k : Nat) (v : Bool) (p : Nat) : State :=
  let old := s.coreAt k
  let s1 := s.onCore k fun c => { c with mapV := v, mapPart := p, heldMap := none }
  if old.mapV = v && old.mapPart = p then s1
  else
    { s1 with parts := s1.parts.map fun q =>
        (q.1, match q.2.reserve with
          | some r => if r.cores.contains k then { q.2 with reserve := none } else q.2
          | none => q.2) }

/-- The event CORE_MAP_CHANGE (14 R340): a held change takes effect once the core holds no team. -/
def execCoreMapChange (core : Nat) (s : State) : Host.Outcome State Fault Refusal :=
  let c := s.coreAt core
  match c.heldMap with
  | some m => .next (if c.team.isNone then s.setCoreMap core m.1 m.2 else s)
  | none => .next s

/-- 14 R339: is a partition at a context boundary: no team of it resident? -/
def State.atContextBoundary (s : State) (p : Nat) : Bool := !(s.cores.any fun k => match k.2.team with | some t => (s.tm t).part = p | none => false)

/-- The event L2_MODE_CHANGE (09 R233, 14 R339): a held way mask takes effect at its partition's context boundary, a held mode at
one of every partition; the slices have written back and invalidated every line. -/
def execL2ModeChange (s : State) : Host.Outcome State Fault Refusal :=
  let modeDue := s.heldL2.isSome && (List.range 8).all s.atContextBoundary
  let due := (List.range 8).filter fun p => (s.partAt p).heldWays.isSome && s.atContextBoundary p
  if !modeDue && due.isEmpty then .next s
  else
    let s1 := due.foldl (fun s p => s.onPart p fun q => { q with pwaymask := q.heldWays.getD q.pwaymask, heldWays := none }) s
    let s2 : State := if modeDue then { s1 with l2priv := s1.heldL2.getD s1.l2priv, heldL2 := none } else s1
    .next (s2.flushL2 true)

end Sys2Proof.Machine
end

