-- ==== Sys2Proof/Machine/PressRun.lean ====
section
/-! DEFINITION. What a member's Press performs from its queue: `mma` with its residue checks (12 R301, R302, R307 to R309), `mdrain`
(R305, R306), `mzero`, `mcheck`, retried arrivals, and the gating of sub-arrays (R312, R313). -/

namespace Sys2Proof.Machine

/-! ## Operands (12 R299) -/

/-- 13 R327: the swizzle. -/
def swz (z o : Nat) : Nat := if z = 0 then o else o ^^^ (bits o (z / 4 % 16 + 2) (z / 4 % 16) * 2 ^ (4 + z % 4))

/-- Bytes of a scratchpad as the Press reads them: zeros in a poisoned sector. -/
def Team.pressBytes (t : Team) (o n : Nat) : List Byte := if t.badAt o then List.replicate n 0 else t.bytesAt o n

/-- Where element `k` of a line lies in a scratchpad. -/
def OpFmt.place (f : OpFmt) (m : Mould) (kk line k : Nat) : Nat := m.tbase + swz m.z (line * f.pitch kk + k * f.width / 8)

/-- The pattern of element `k` of a line. -/
def OpFmt.pattern (f : OpFmt) (t : Team) (m : Mould) (kk line k : Nat) : Nat :=
  let b := natOfBytes (t.pressBytes (f.place m kk line k) (if f.width = 16 then 2 else 1))
  if f.width = 4 then b / 16 ^ (k % 2) % 16 else b

/-- Where the block scale of element `k` of a line lies. -/
def OpFmt.scaleAt (f : OpFmt) (kk line k : Nat) : Nat := f.bsbase + line * (kk / f.blockLen) + k / f.blockLen

/-- The block-scale pattern of element `k` of a line; `0x60`, which is 1, where there are no blocks. -/
def OpFmt.scale (f : OpFmt) (t : Team) (kk line k : Nat) : Nat :=
  if f.blk = 0 then 0x60 else natOfBytes (t.pressBytes (f.scaleAt kk line k) 1)

/-- 12 R299: a BF16 pattern as the Press reads it: a subnormal is a zero of its sign. -/
def flushBf16 (x : Nat) : Nat := if x / 128 % 256 = 0 then x / 32768 * 32768 else x

/-- The value of an element; +0 in a zero block (12 R302). -/
def OpFmt.value (f : OpFmt) (t : Team) (m : Mould) (kk line k : Nat) : FVal :=
  let x := f.pattern t m kk line k
  if f.scale t kk line k = 0xFF then .fin false 0 1
  else if f.fmt = 11 then FVal.ofInt (sext x 8)
  else if f.fmt = 15 then FVal.ofInt (sext x 4)
  else if f.fmt = 6 then (fmtOf 6#4).value (flushBf16 x)
  else (fmtOf (BitVec.ofNat 4 f.fmt)).value x

/-- The poisoned sectors that elements `k` to `k + n - 1` of a line, and their scales, are read from. -/
def OpFmt.badSectors (f : OpFmt) (t : Team) (m : Mould) (kk line k n : Nat) : List Nat :=
  ((List.range n).flatMap fun i =>
    (if t.badAt (f.place m kk line (k + i)) then [f.place m kk line (k + i) / 32] else []) ++
    (if f.blk ≠ 0 && t.badAt (f.scaleAt kk line (k + i)) then [f.scaleAt kk line (k + i) / 32] else [])).dedup

/-! ## Accumulators (12 R293) -/

/-- An element of a tile. -/
def Acc.at (z : Acc) (r c : Nat) : BitVec 32 := KMap.read 0 (128 * r + c) z.elems

/-- The sector of an element. -/
def accSector (r c : Nat) : Nat := 16 * r + c / 8

/-- 12 R301: a quadrant's elements as +0 with clean sectors, in every quadrant. -/
def Acc.zeroed (z : Acc) : Acc := { z with elems := [], poison := [], suspect := [] }

/-- Every sector of a tile. -/
def allSectors : KMap Bool := (List.range 2048).map fun k => (k, true)

/-! ## A step of `mma` (12 R301, R302) -/

/-- What an `mma` works on at one member. -/
structure MmaJob where
  team : Team
  fa : OpFmt
  fb : OpFmt
  ma : Mould
  mb : Mould
  kk : Nat
  deriving Repr, Inhabited

/-- The k-step depth of the pair. -/
def MmaJob.depth (j : MmaJob) : Nat := min j.fa.depth j.fb.depth

/-- Does the pair accumulate integers? -/
def MmaJob.isInt (j : MmaJob) : Bool := j.fa.isInt && j.fb.isInt

/-- The exact step sum of an element. -/
def MmaJob.sum (j : MmaJob) (step r c : Nat) : FVal :=
  (List.range j.depth).foldl (fun acc i =>
    let k := step * j.depth + i
    FVal.add 0 acc (FVal.mul (j.fa.value j.team j.ma j.kk r k) (j.fb.value j.team j.mb j.kk c k))) (.fin false 0 1)

/-- The step sum as the integer of the fixed-point window (12 R302); zero where it is not finite. -/
def MmaJob.window (j : MmaJob) (x : FVal) : Int :=
  match x with
  | .fin neg n d => let m : Int := (n * 2 ^ (j.fa.lsb + j.fb.lsb) / d : Nat); if neg then -m else m
  | _ => 0

/-- An integer of the window as an exact value. -/
def MmaJob.ofWindow (j : MmaJob) (i : Int) : FVal := .fin (i < 0) i.natAbs (2 ^ (j.fa.lsb + j.fb.lsb))

/-- The step sum scaled by the blocks (12 R302). -/
def MmaJob.scaled (j : MmaJob) (step r c : Nat) (x : FVal) : FVal :=
  let k := step * j.depth
  let sa := j.fa.scale j.team j.kk r k
  let sb := j.fb.scale j.team j.kk c k
  match x with
  | .fin .. =>
    if sa = 0xFF || sb = 0xFF then .fin false 0 1
    else FVal.mul (FVal.mul x (.fin false (e3m5 sa).1 (e3m5 sa).2)) (.fin false (e3m5 sb).1 (e3m5 sb).2)
  | _ => FVal.mul (FVal.mul x (.fin false (e3m5 sa).1 (e3m5 sa).2)) (.fin false (e3m5 sb).1 (e3m5 sb).2)

/-- One accumulation into an element. -/
def MmaJob.accumulate (j : MmaJob) (step r c : Nat) (old : BitVec 32) (x : FVal) : BitVec 32 :=
  if j.isInt then old + BitVec.ofInt 32 (j.window x)
  else
    match FVal.add 0 (fp32.value old.toNat) (j.scaled step r c x) with
    | .fin _ 0 _ => 0
    | v => BitVec.ofNat 32 (fp32.round 0 false v)

/-- Every element of a step accumulated, those of `hits` with sums of their own. -/
def MmaJob.runStep (j : MmaJob) (step : Nat) (hits : List (Nat × Nat × FVal)) (z : Acc) : Acc :=
  let elems := (List.range 16384).foldl (fun m i =>
    let r := i / 128
    let c := i % 128
    let x := match hits.find? fun h => h.1 = r && h.2.1 = c with
      | some h => h.2.2
      | none => j.sum step r c
    KMap.write 0 i (j.accumulate step r c (KMap.read 0 i z.elems) x) m) z.elems
  let badA := (List.range 128).filter fun r => !(j.fa.badSectors j.team j.ma j.kk r (step * j.depth) j.depth).isEmpty
  let badB := (List.range 128).filter fun c => !(j.fb.badSectors j.team j.mb j.kk c (step * j.depth) j.depth).isEmpty
  let poison := badA.foldl (fun p r => (List.range 16).foldl (fun p b => KMap.write false (16 * r + b) true p) p) z.poison
  { z with elems, poison := badB.foldl (fun p c => (List.range 128).foldl (fun p r => KMap.write false (accSector r c) true p) p) poison }

/-- A member's Press between steps: the tile, the Press, and CORCNT to add. -/
structure MmaState where
  z : Acc
  press : Press
  corr : Nat := 0
  deriving Repr, Inhabited

/-- XOR of a pattern into the low 32 bits of a window integer (12 R310). -/
def injectInto (i : Int) (x : BitVec 32) : Int :=
  let low := wrap i 32
  i - low + ((BitVec.ofNat 32 low ^^^ x).toNat : Int)

/-- An element of a checked step that an injection or an error strikes: its step integer, and what is XORed into it, with how long each
lasts (12 R308, R315). -/
structure Struck where
  r : Nat
  c : Nat
  i : Int
  xs : List (BitVec 32 × Nat)
  deriving Repr, Inhabited

/-- The element's integer while the errors stand that last at least `k`. -/
def Struck.value (e : Struck) (k : Nat) : Int := injectInto e.i ((e.xs.filter fun x => k ≤ x.2).foldl (fun a x => a ^^^ x.1) 0)

/-- 12 R307: the rows, or the columns, that fail their check modulo 2^31 - 1. -/
def failing (line : Struck → Nat) (vs : List (Struck × Int)) : List Nat :=
  (vs.map fun v => line v.1).dedup.filter fun n => ((vs.filter fun v => line v.1 = n).map fun v => v.2 - v.1.i).sum % 2147483647 ≠ 0

/-- The rows and the columns that fail. -/
def failingSet (vs : List (Struck × Int)) : List Nat × List Nat := (failing Struck.r vs, failing Struck.c vs)

/-- 12 R308: the sectors of sub-array `q` that a step left uncorrected marks suspect. -/
def suspectSectors (q : Nat) (bad : List Nat × List Nat) : List Nat :=
  let rows := if bad.1.isEmpty then (List.range 64).map fun i => 64 * (q / 2) + i else bad.1
  let cols := if bad.2.isEmpty then (List.range 64).map fun i => 64 * (q % 2) + i else bad.2
  (rows.flatMap fun r => cols.map fun c => accSector r c).dedup

/-- What the checks of a step come to in one sub-array (12 R308): the integers accumulated, the element corrected, the step recomputed, or
the sectors left suspect. -/
structure StepVerdict where
  vals : List (Struck × Int)
  corr : Bool := false
  recomp : Bool := false
  suspect : List Nat := []
  deriving Repr, Inhabited

/-- 12 R308: judges the struck elements of sub-array `q`. -/
def judgeStep (nocorr : Bool) (q : Nat) (es : List Struck) : StepVerdict :=
  let vals (k : Nat) : List (Struck × Int) := es.map fun e => (e, e.value k)
  let left (vs : List (Struck × Int)) : StepVerdict := { vals := vs, suspect := suspectSectors q (failingSet vs) }
  match failingSet (vals 0) with
  | ([], []) => { vals := vals 0 }
  | (rs, cs) =>
    let again := es.map fun e => (e, e.value (if rs = [e.r] && cs = [e.c] then 1 else 0))
    if nocorr then left (vals 0)
    else if rs.length = 1 && cs.length = 1 && failingSet again = ([], []) then { vals := again, corr := true }
    else if failingSet (vals 2) = ([], []) then { vals := vals 2, recomp := true }
    else left (vals 2)

/-- The element of an armed injection (12 R310). -/
def injectAt (q row col : Nat) : Nat × Nat := (64 * (q / 2) + row, 64 * (q % 2) + col)

/-- 12 R310: is an armed injection used at a step: is its element's sum finite there? -/
def MmaJob.injects (j : MmaJob) (step : Nat) (p : Press) : Bool :=
  match p.inject with
  | some (q, row, col, _) => match j.sum step (injectAt q row col).1 (injectAt q row col).2 with
    | .fin .. => true
    | _ => false
  | none => false

/-- 12 R308, R310, R315: what strikes a checked step, by element: the armed injection, which a new computation of the element is without,
and the errors of the step. An element whose step is not finite is left out of the checks (R307). -/
def MmaJob.struck (j : MmaJob) (step : Nat) (p : Press) : List Struck :=
  let inj : List (Nat × Nat × BitVec 32 × Nat) := match j.injects step p, p.inject with
    | true, some (q, row, col, x) => [((injectAt q row col).1, (injectAt q row col).2, x, 0)]
    | _, _ => []
  let all := inj ++ ((p.errors.filter fun e => e.step = step && decide (e.row < 128) && decide (e.col < 128)).map fun e => (e.row, e.col, e.x, e.lasts))
  (all.map fun e => (e.1, e.2.1)).dedup.filterMap fun k =>
    match j.sum step k.1 k.2 with
    | .fin neg n d => some {
        r := k.1, c := k.2, i := j.window (.fin neg n d)
        xs := (all.filter fun e => e.1 = k.1 && e.2.1 = k.2).map fun e => (e.2.2.1, e.2.2.2) }
    | _ => none

/-- The sub-array of an element. -/
def quadrantOf (r c : Nat) : Nat := 2 * (r / 64) + c / 64

/-- 12 R307, R308, R310: one step, checked or not. Each sub-array judges what strikes it; a step is counted once, as recomputed or as left
uncorrected, and every correction adds to CORCNT. -/
def MmaJob.step (j : MmaJob) (checking : Bool) (y : MmaState) (step : Nat) : MmaState :=
  if !checking then { y with z := j.runStep step [] y.z }
  else
    let p := y.press.bump 0 1
    let es := j.struck step p
    let vs := ((List.range 4).filter fun q => es.any fun e => quadrantOf e.r e.c = q).map fun q =>
      judgeStep p.nocorr q (es.filter fun e => quadrantOf e.r e.c = q)
    let z := j.runStep step ((vs.flatMap StepVerdict.vals).map fun v => (v.1.r, v.1.c, j.ofWindow v.2)) y.z
    let p1 := if j.injects step p then { p with inject := none } else p
    let corrs := (vs.filter StepVerdict.corr).length
    let recomps := if vs.any StepVerdict.recomp then 1 else 0
    { z := { z with suspect := (vs.flatMap StepVerdict.suspect).foldl (fun m k => KMap.write false k true m) z.suspect }
      press := ((p1.bump 1 corrs).bump 2 recomps).bump 3 (if vs.any fun v => !v.suspect.isEmpty then 1 else 0)
      corr := y.corr + corrs + recomps }

/-- Operand sectors that an `mma` consumes poisoned (12 R311 OPPOIS). -/
def MmaJob.poisoned (j : MmaJob) : List Nat :=
  ((List.range 128).flatMap fun l => j.fa.badSectors j.team j.ma j.kk l 0 j.kk ++ j.fb.badSectors j.team j.mb j.kk l 0 j.kk).dedup

/-! ## Performing at a member -/

/-- Is the sequencer's cluster of a core resident, so that its Press goes on (12 R314)? -/
def State.pressRuns (s : State) (k : Nat) : Bool :=
  match (s.coreAt k).team with
  | some t => (s.cl (s.tm t).cluster).res = .resident
  | none => false

/-- Sets bits of the sequencer's `c.chkint` for the team on a core. -/
def State.seqChk (s : State) (t : Nat) (m : BitVec 32) : State :=
  let g := s.seqKey (s.tm t).cluster
  if (KMap.find g s.groups).isSome then s.onGrp g fun x => x.chk m else s

/-- 12 R308, 04 R100: adds to CORCNT, saturating at 255, and sets PRCOR. -/
def State.seqCorr (s : State) (t n : Nat) : State :=
  let g := s.seqKey (s.tm t).cluster
  if n = 0 || (KMap.find g s.groups).isNone then s
  else s.onGrp g fun x =>
    let c := min 255 ((x.chkint.extractLsb' 8 8).toNat + n)
    { x with chkint := (x.chkint &&& 0xFFFF00FF) ||| prcor ||| BitVec.ofNat 32 (256 * c) }

/-- 12 R301: the Press's arrivals on moulds of its member; a refused one is retried, one on a broken object is discarded and sets SCONS
(17 R419). -/
def State.pressArrive (s : State) (t : Nat) (os : List Nat) : State :=
  os.foldl (fun s o =>
    match s.arriveAt t o 1 0 0 none with
    | none => s.seqChk t scons
    | some (st, s1) =>
      if st = 2 then (s1.onPress t fun p => { p with retry := p.retry ++ [o] }).countCore ((s1.tm t).core.getD 0) 0x18 1 else s1) s

/-- The moulds that an `mma` releases; one that is both its A and its B mould once (12 R315; log entry 80). -/
def mmaReleases (relA relB : Bool) (a b : Mould) : List Nat :=
  (if relA then [a.obj] else []) ++ (if relB && (b.obj ≠ a.obj || !relA) then [b.obj] else [])

/-- Takes the head of a member's Press queue. -/
def State.pressPop (s : State) (t : Nat) : State := (s.onPress t fun p => { p with queue := p.queue.drop 1, seen := false }).settleJoins

/-- Stores a tile. -/
def State.setAcc (s : State) (t zd : Nat) (z : Acc) : State := s.onPress t fun p => { p with z := KMap.put zd z p.z }

/-- 12 R301, R302: an `mma` whose moulds are ready, at a member. -/
def State.mmaAt (s : State) (t zd : Nat) (acc chk : Bool) (a b : Mould) (kk : Nat) (fmt : List Byte) : State :=
  let p := s.pressOf t
  let j : MmaJob := { team := s.tm t, fa := opFmtAt fmt 0, fb := opFmtAt fmt 0x10, ma := a, mb := b, kk }
  let z0 := KMap.read ({} : Acc) zd p.z
  let z1 := if acc then z0 else z0.zeroed
  let z2 := { z1 with mode := if j.isInt then 2 else 1 }
  let pz := j.poisoned
  let r := (List.range (kk / j.depth)).foldl (j.step (chk || p.force)) { z := z2, press := p.bump 5 pz.length }
  let s1 := s.onPress t fun _ => { r.press with z := KMap.put zd r.z r.press.z, errors := [] }
  let s2 := s1.seqCorr t r.corr
  if pz.isEmpty then s2 else s2.seqChk t scons

/-- The tile after a poisoned `mma` (12 R301): +0 with every sector poisoned; `acc` 1 leaves suspect marks set (R309). -/
def Acc.allPoisoned (acc : Bool) (z : Acc) : Acc :=
  { z with elems := [], poison := allSectors, suspect := if acc then z.suspect else [] }

/-- Is any sub-array of a Press gated? -/
def Press.anyGated (p : Press) : Bool := p.sub.any fun e => e.2.gated

/-- The event PRESS_MMA_PERFORM (12 R301): where the head is no `mma`, an earlier release is still refused, or a mould is not full,
nothing happens. Gated sub-arrays are woken once the moulds have been observed full, which is not asked again. -/
def execPressMmaPerform (core : Nat) (s : State) : Host.Outcome State Fault Refusal :=
  match (s.coreAt core).team, (s.coreAt core).press.queue with
  | some t, .mma zd acc relA relB chk a b kk fmt bad :: _ =>
    let p := s.pressOf t
    let brokeA := s.objBroken t a.obj
    let brokeB := s.objBroken t b.obj
    let full (broken : Bool) (o : Nat) : Bool := broken || (s.objAt t o).phase.getLsbD 0
    if !s.pressRuns core || !p.retry.isEmpty || !(p.seen || (full brokeA a.obj && full brokeB b.obj)) then .next s
    else
      let poisoned := bad.1 || bad.2 || brokeA || brokeB
      let rels := mmaReleases relA relB a b
      if poisoned then
        let s1 := s.setAcc t zd ((KMap.read ({} : Acc) zd p.z).allPoisoned acc)
        let s2 := if brokeA || brokeB then s1.seqChk t scons else s1
        .next ((s2.pressArrive t rels).pressPop t)
      else if p.anyGated then .next (s.onPress t fun q => { q.wakeAll with seen := true })
      else
        let s1 := s.mmaAt t zd acc chk a b kk fmt
        .next (((s1.pressArrive t rels).pressPop t).onPress t Press.busy)
  | _, _ => .next s

/-- The event PRESS_MZERO_PERFORM (12 R303). -/
def execPressMzeroPerform (core : Nat) (s : State) : Host.Outcome State Fault Refusal :=
  match (s.coreAt core).team, (s.coreAt core).press.queue with
  | some t, .mzero zd :: _ =>
    if !s.pressRuns core || !(s.pressOf t).retry.isEmpty then .next s else .next ((s.setAcc t zd {}).pressPop t)
  | _, _ => .next s

/-- The event PRESS_MCHECK_PERFORM (12 R310). -/
def execPressMcheckPerform (core : Nat) (s : State) : Host.Outcome State Fault Refusal :=
  match (s.coreAt core).team, (s.coreAt core).press.queue with
  | some t, .mcheckMode force nocorr :: _ =>
    if !s.pressRuns core || !(s.pressOf t).retry.isEmpty then .next s
    else .next ((s.onPress t fun p => { p with force, nocorr }).pressPop t)
  | some t, .mcheckInject arm q row col x :: _ =>
    if !s.pressRuns core || !(s.pressOf t).retry.isEmpty then .next s
    else .next ((if arm then s.onPress t fun p => { p with inject := some (q, row, col, x) } else s).pressPop t)
  | _, _ => .next s

/-- The event PRESS_RELEASE_RETRY (12 R301, R305): the oldest refused arrival is made again; one on an object broken meanwhile is discarded
(17 R419). -/
def execPressReleaseRetry (core : Nat) (s : State) : Host.Outcome State Fault Refusal :=
  match (s.coreAt core).team with
  | some t =>
    match (s.pressOf t).retry with
    | o :: rest =>
      let s1 := s.onPress t fun p => { p with retry := rest }
      match s1.arriveAt t o 1 0 0 none with
      | none => .next (s1.seqChk t scons).settleJoins
      | some (st, s2) => .next (if st = 2 then s else s2.settleJoins)
    | [] => .next s
  | none => .next s

/-! ## `mdrain` (12 R305, R306) -/

/-- A band scale as a factor: an infinite one of a BSF4 operand is a NaN (07 R177). -/
def OpFmt.bandFactor (f : OpFmt) (v : FVal) : FVal :=
  match f.fmt, v with
  | 10, .inf _ => .nan
  | _, v => v

/-- A band scale as a factor, and whether it is poisoned, which reads as +0 (12 R305). -/
def OpFmt.band (f : OpFmt) (t : Team) (i : Nat) : FVal × Bool :=
  if !f.banded then (.fin false 1 1, false)
  else if t.badAt (f.bandaddr + 2 * i) then (.fin false 0 1, true)
  else (f.bandFactor ((fmtOf 6#4).value (flushBf16 (natOfBytes (t.bytesAt (f.bandaddr + 2 * i) 2)))), false)

/-- What an `mdrain` works on at one member. -/
structure DrainJob where
  z : Acc
  a0 : FVal × Bool
  a1 : FVal × Bool
  b0 : FVal × Bool
  b1 : FVal × Bool
  out : OutFmt
  deriving Repr

/-- The band scales of an element. -/
def DrainJob.bands (j : DrainJob) (r c : Nat) : (FVal × Bool) × (FVal × Bool) :=
  (if r < 64 then j.a0 else j.a1, if c < 64 then j.b0 else j.b1)

/-- The exact value of an element before conversion. -/
def DrainJob.value (j : DrainJob) (r c : Nat) : FVal :=
  let w := j.z.at r c
  let v := if j.z.mode = 2 then FVal.ofInt w.toInt else fp32.value w.toNat
  let b := j.bands r c
  FVal.mul (FVal.mul (FVal.mul v b.1.1) b.2.1) (fp32.value j.out.mult)

/-- Is an element's output poisoned: its sector poisoned or suspect, or a band scale of it poisoned? -/
def DrainJob.bad (j : DrainJob) (r c : Nat) : Bool :=
  let k := accSector r c
  KMap.read false k j.z.poison || KMap.read false k j.z.suspect || (j.bands r c).1.2 || (j.bands r c).2.2

/-- 12 R306: the pattern of an element of every format but BSF4. -/
def DrainJob.conv (j : DrainJob) (r c : Nat) : Nat :=
  if j.out.fmt = 1 then
    if j.z.mode = 2 then (j.z.at r c).toNat else intOfVal 1#4 j.out.rm j.out.sat (j.value r c)
  else (fmtOf (BitVec.ofNat 4 j.out.fmt)).round j.out.rm j.out.sat (j.value r c)

/-- The scale and the codes of a block of 8 columns. -/
def DrainJob.block (j : DrainJob) (r b : Nat) : Nat × Nat :=
  let ys := (List.range 8).map fun i => j.value r (8 * b + i)
  let s := blockScale j.out.rule ys 0
  (s, (ys.map fun y => blockCode j.out.rm s y).foldr (fun e acc => e + 16 * acc) 0)

/-- The output of a row in pieces of 16 bytes: (offset in the tile, bytes, poisoned). -/
def DrainJob.rowPieces (j : DrainJob) (r : Nat) : List (Nat × List Byte × Bool) :=
  let n := j.out.rowBytes
  let per := 2048 / n
  (List.range (n / 16)).map fun q =>
    let cs := (List.range per).map fun i => per * q + i
    let bytes := if j.out.fmt = 10 then (List.range 4).flatMap fun i => bytesOfNat 4 (j.block r (4 * q + i)).2
      else cs.flatMap fun c => bytesOfNat (n / 128) (j.conv r c)
    (r * n + 16 * q, bytes, cs.any fun c => j.bad r c)

/-- Writes pieces to a tile through its swizzle; sectors are written whole, poisoned where a piece is. -/
def Team.putPieces (t : Team) (m : Mould) (ps : List (Nat × List Byte × Bool)) : Team :=
  let t1 := ps.foldl (fun t p => { t with mem := putBytes t.mem (m.tbase + swz m.z p.1) p.2.1 }) t
  let at16 (p : Nat × List Byte × Bool) : Nat := (m.tbase + swz m.z p.1) / 32
  let clean := ps.foldl (fun q p => KMap.write false (at16 p) false q) t1.poison
  { t1 with poison := (ps.filter fun p => p.2.2).foldl (fun q p => KMap.write false (at16 p) true q) clean }

/-- 12 R306: writes the block scales of a BSF4 output, poisoned bytes poisoning their sectors. -/
def Team.putScales (t : Team) (j : DrainJob) : Team :=
  let base := j.out.obsbase
  let t1 := t.storeAt base ((List.range 2048).map fun i => BitVec.ofNat 8 (j.block (i / 16) (i % 16)).1)
  (List.range 2048).foldl (fun t i =>
    if (List.range 8).any fun e => j.bad (i / 16) (8 * (i % 16) + e) then t.setBad ((base + i) / 32) true else t) t1

/-- The accumulator sectors that a drain writes out poisoned (12 R309). -/
def Acc.badCount (z : Acc) : Nat :=
  ((List.range 2048).filter fun k => KMap.read false k z.poison || KMap.read false k z.suspect).length

/-- Does a drain of a tile write raw words, so that no band scale is read (12 R305)? -/
def OutFmt.raw (f : OutFmt) (z : Acc) : Bool := f.fmt = 1 && z.mode = 2

/-- 12 R309, R311: what every `mdrain` of a tile reports: PSECT for the sectors written out poisoned, and PRUNC where any is suspect. -/
def State.drainReport (s : State) (t : Nat) (z : Acc) : State :=
  let s1 := s.onPress t fun p => p.bump 4 z.badCount
  if z.suspect.isEmpty then s1 else s1.seqChk t prunc

/-- 12 R305: an `mdrain` that is not poisoned, at a member. -/
def State.mdrainAt (s : State) (t zd : Nat) (d : Mould) (fmt : List Byte) : State :=
  let z := KMap.read ({} : Acc) zd (s.pressOf t).z
  let y := s.tm t
  let fa := opFmtAt fmt 0
  let fb := opFmtAt fmt 0x10
  let out := outFmtOf fmt
  let band (f : OpFmt) (i : Nat) : FVal × Bool := if out.raw z then (.fin false 1 1, false) else f.band y i
  let j : DrainJob := { z, a0 := band fa 0, a1 := band fa 1, b0 := band fb 0, b1 := band fb 1, out }
  let y1 := y.putPieces d ((List.range 128).flatMap fun r => j.rowPieces r)
  let y2 := if j.out.fmt = 10 then y1.putScales j else y1
  let s2 := (s.setTm t y2).drainReport t z
  if j.a0.2 || j.a1.2 || j.b0.2 || j.b1.2 then s2.seqChk t scons else s2

/-- 12 R305: a poisoned `mdrain`: zero bytes, every sector poisoned, over the output size or, where it is not known, the tile. -/
def Team.drainPoison (t : Team) (d : Mould) (fmt : List Byte) (outBad : Bool) : Team :=
  let n := if outBad then d.tsize else 128 * (outFmtOf fmt).rowBytes
  t.putPieces d ((List.range (n / 16)).map fun i => (16 * i, List.replicate 16 0, true))

/-- The event PRESS_MDRAIN_PERFORM (12 R305): where the head is no `mdrain`, an earlier release is still refused, or the mould is
not empty, nothing happens. -/
def execPressMdrainPerform (core : Nat) (s : State) : Host.Outcome State Fault Refusal :=
  match (s.coreAt core).team, (s.coreAt core).press.queue with
  | some t, .mdrain zd clr d fmt bad :: _ =>
    let broke := s.objBroken t d.obj
    if !s.pressRuns core || !(s.pressOf t).retry.isEmpty || !(broke || !(s.objAt t d.obj).phase.getLsbD 0) then .next s
    else
      let s1 : State :=
        if bad.1 || bad.2 || broke then
          let s1 := (s.onTm t fun y => y.drainPoison d fmt bad.2).drainReport t (KMap.read ({} : Acc) zd (s.pressOf t).z)
          if broke then s1.seqChk t scons else s1
        else s.mdrainAt t zd d fmt
      let s2 := if clr then s1.setAcc t zd {} else s1
      .next ((s2.pressArrive t [d.obj]).pressPop t)
  | _, _ => .next s

/-- An error is to strike a step of the next `mma` at a core whose Press holds a team's state. -/
def State.pressError (s : State) (core : Nat) (e : PressErr) : State :=
  match (s.coreAt core).team with
  | some t => s.onPress t fun p => { p with errors := p.errors ++ [e] }
  | none => s

/-! ## Gating (12 R312, R313) -/

/-- 12 R312: the value of `c.pressgate` in force at a core. -/
def State.gateLimit (s : State) (core : Nat) : Nat :=
  let c := s.coreAt core
  if c.team.isSome then c.pressgate.toNat
  else if c.mapV then (s.partAt c.mapPart).ppressgate.toNat
  else 16384

/-- The event SUBARRAY_GATE (12 R312): a limit of 0 never gates (04 R106). -/
def execSubarrayGate (core q : Nat) (s : State) : Host.Outcome State Fault Refusal :=
  let x := KMap.read ({} : SubArray) q (s.coreAt core).press.sub
  if q < 4 && !x.gated && s.gateLimit core ≠ 0 && x.idle ≥ s.gateLimit core then
    .next (s.onCore core fun c => { c with press := { c.press with sub := KMap.put q { x with gated := true, waking := false } c.press.sub } })
  else .next s

/-- The event SUBARRAY_WAKE_DONE (12 R313). -/
def execSubarrayWakeDone (core q : Nat) (s : State) : Host.Outcome State Fault Refusal :=
  let x := KMap.read ({} : SubArray) q (s.coreAt core).press.sub
  if x.waking then
    .next (s.onCore core fun c => { c with press := { c.press with sub := KMap.put q { gated := false, waking := false, idle := 0 } c.press.sub } })
  else .next s

end Sys2Proof.Machine
end

