-- ==== Sys2Proof/Machine/Queues.lean ====
section
/-! DEFINITION. Host work queues and the fault queue's configuration (14 R338, R339, R341): the writes of QCTL, QTAIL and PFQCTL, and
the take of a record. -/

namespace Sys2Proof.Machine

/-- The event QCTL_WRITE (14 R339): a write that changes LOG2SIZE while EN is 1, or that sets EN with LOG2SIZE outside 1 to 12, is
ignored and sets BADCFG; EN rising sets HEAD to 0. -/
def execQctlWrite (q : Nat) (v : BitVec 32) (s : State) : Host.Outcome State Fault Refusal :=
  let x := s.queueAt q
  let en := v.getLsbD 31
  let log2 := v.extractLsb' 12 4
  if (x.en && log2 ≠ x.log2) || (en && (decide (log2.toNat = 0) || decide (log2.toNat > 12))) then
    .next (s.onQueue q fun y => { y with bad := true })
  else
    .next (s.onQueue q fun y => { y with
      en := en, log2 := log2, priocap := v.extractLsb' 0 3, head := if en && !y.en then 0 else y.head })

/-- The event QTAIL_DOORBELL (14 R339, R341): a TAIL at or above the ring size is ignored and sets BADCFG. -/
def execQtailDoorbell (q : Nat) (v : BitVec 32) (s : State) : Host.Outcome State Fault Refusal :=
  let tail := v.extractLsb' 0 12
  .next (s.onQueue q fun y => if tail.toNat ≥ 2 ^ y.log2.toNat then { y with bad := true } else { y with tail := tail })

/-- The event PFQCTL_WRITE (14 R339). -/
def execPfqctlWrite (p : Nat) (v : BitVec 32) (s : State) : Host.Outcome State Fault Refusal :=
  let x := s.partAt p
  let en := v.getLsbD 31
  let log2 := v.extractLsb' 16 4
  let head := v.extractLsb' 0 16
  let size := 2 ^ (if x.pfqen then x.pfqlog2 else log2).toNat
  if (x.pfqen && log2 ≠ x.pfqlog2) || (en && decide (log2.toNat < 4)) || decide (head.toNat ≥ size) then
    .next (s.onPart p fun y => { y with pfqbad := true })
  else
    .next (s.onPart p fun y => { y with
      pfqen := en, pfqlog2 := log2, pfqhead := head, pfqtail := if en && !y.pfqen then head else y.pfqtail })

/-- 14 R341: the record in the slot at HEAD and whether a sector of it is poisoned; none where the read fails, which a read of host memory may
(log entry 10). -/
def State.readRecord (s : State) (x : HostQueue) : Option (List Byte × Bool) :=
  let a := x.base.toNat + 128 * x.head.toNat
  if x.loc then if Config.hostReadFails s.free then none else some (s.hostBytes a 128, (sectorsOf a 128).any fun k => s.hostBadAt (32 * k))
  else
    match s.readVirtual (hostWho 0 x.part.toNat) a 128 with
    | .ok r => some r
    | .error _ => none

/-- 14 R341: has a queue a record to be taken for a partition: enabled, assigned, not empty, and its next record not held back by SER? -/
def State.queueWaits (s : State) (p : Nat) (x : HostQueue) : Bool :=
  x.en && x.assignV && x.part.toNat = p && x.head ≠ x.tail &&
    !(x.last.isSome && match s.readRecord x with | some r => recField r.1 7 1 / 2 % 2 = 1 | none => false)

/-- 14 R341: the queue that a partition serves next, round-robin: the first that waits after the one served last. -/
def State.queueDue (s : State) (p : Nat) : Option Nat :=
  let qs := (s.queues.filter fun e => s.queueWaits p e.2).map Prod.fst
  let after (q : Nat) : Bool := match (s.partAt p).lastq with
    | some l => decide (l < q)
    | none => true
  (qs.find? after).or qs.head?

/-- 14 R341: takes a record as a READY task of its queue's partition in a free entry, its priority lowered to PRIOCAP, and advances
HEAD. -/
def State.takeRecord (s : State) (q i : Nat) (r : List Byte) (bad : Bool) : State :=
  let x := s.queueAt q
  let p := x.part.toNat
  let t : Task := { record := r, poisoned := bad, submitter := hostHolder 0 p, queue := some q,
                    prio := min (recField r 1 1 % 8) x.priocap.toNat }
  let s1 := s.onQueue q fun y => { y with head := BitVec.ofNat 12 ((y.head.toNat + 1) % 2 ^ y.log2.toNat), last := some i }
  ((s1.setTask p i t).onPart p fun y => { y with lastq := some q }).readyTask p i

/-- The event QUEUE_RECORD_TAKE (14 R341): nothing happens where it is another queue's turn. -/
def execQueueRecordTake (q : Nat) (s : State) : Host.Outcome State Fault Refusal :=
  let x := s.queueAt q
  let p := x.part.toNat
  if s.failed || (s.partAt p).resetting || !x.en || !x.assignV || x.head = x.tail || s.queueDue p ≠ some q then .next s
  else
    match s.readRecord x with
    | none => .next (({ s with free := s.free + 1 } : State).onQueue q fun y => { y with readerr := true, en := false })
    | some (r, bad) =>
      match KMap.freeFrom (s.partAt p).tasks 0 (s.partAt p).ptaskn.toNat with
      | none => .next s
      | some i =>
        let a := x.base.toNat + 128 * x.head.toNat
        let w := hostWho 0 p
        if !x.loc && s.rangeBusy w a 128 .read then .next s
        else .next ((if x.loc then { s with free := s.free + 1 } else s.touchRange w a 128).takeRecord q i r bad)

end Sys2Proof.Machine
end

