-- ==== Sys2Proof/Machine/Ras.lean ====
section
/-! DEFINITION. Reliability (18 R426 to R432, 09 R235, 16 R401): the log, corrections and their trackers, uncorrectable errors, the
Brusher, refresh and activations, post-package repair. -/

namespace Sys2Proof.Machine

/-! ## The log (18 R429) -/

/-- 18 R429: the fields of a log entry that hold a DRAM position. -/
def Place.logBits (x : Place) (row : Bool) : Nat :=
  2 ^ 116 * x.stack + 2 ^ 111 * x.chan + 2 ^ 110 * x.pc + 2 ^ 108 * x.bg + 2 ^ 106 * x.bank + if row then 2 ^ 90 * x.row else 0

/-- 18 R429: writes an entry at HEAD and sends the vector; dropped with OVF when the ring is full. RASCTL belongs to the physical
function. -/
def State.rasPost (s : State) (kind fields count : Nat) : State :=
  let r := s.ras
  if (r.head.toNat + 1) % 64 = r.tail.toNat then { s with ras := { r with ovf := true } }
  else
    let e := BitVec.ofNat 128 (2 ^ 120 * kind + fields + 2 ^ 32 * count)
    let s1 := { s with ras := { r with log := KMap.put r.head.toNat e r.log, head := r.head + 1 } }
    if r.irqen then { s1 with msix := (0, r.vec.toNat) :: s1.msix } else s1

/-- The counters of a device channel. -/
def State.chErr (s : State) (n : Nat) : ChErr := KMap.read {} n s.ras.chan

/-- Stores the counters of a device channel. -/
def State.setChErr (s : State) (n : Nat) (x : ChErr) : State := { s with ras := { s.ras with chan := KMap.put n x s.ras.chan } }

/-- One more in a saturating field (18 R427). -/
def satInc {w : Nat} (x : BitVec w) : BitVec w := if x = BitVec.allOnes w then x else x + 1

/-- The device channel of a position (01 R12). -/
def Place.channel (x : Place) : Nat := 32 * x.stack + x.chan

/-- The number of a bank in its channel. -/
def Place.bankNo (x : Place) : Nat := 16 * x.pc + 4 * x.bg + x.bank

/-- The number of a row in its channel: the Brusher's ascending order (log entry 31). -/
def Place.rowNo (x : Place) : Nat := 65536 * x.bankNo + x.row

/-- The index of a row's tracker entry, else of a free one, else of the one with the lowest count, the lowest index first. -/
def trackerSlot (rows : KMap (Nat × Nat)) (row : Nat) : Nat :=
  match rows.find? fun e => e.2.1 = row with
  | some e => e.1
  | none =>
    match KMap.freeFrom rows 0 16 with
    | some i => i
    | none =>
      let low := (rows.map fun e => e.2.2).foldl min (rows.headD (0, 0, 0)).2.2
      ((rows.find? fun e => e.2.2 = low).map Prod.fst).getD 0

/-- 18 R428: a correction counts in its channel, its bank and its row's tracker entry. -/
def State.correction (s : State) (x : Place) : State :=
  let n := x.channel
  let c := s.chErr n
  let inBank := KMap.read 0 x.bankNo c.banks + 1
  let bankDue := s.ras.bankthr ≠ 0 && decide (inBank ≥ s.ras.bankthr.toNat)
  let i := trackerSlot c.rows x.rowNo
  let inRow := match KMap.find i c.rows with | some e => if e.1 = x.rowNo then e.2 + 1 else 1 | none => 1
  let rowDue := s.ras.rowthr ≠ 0 && decide (inRow ≥ s.ras.rowthr.toNat)
  let s1 := s.setChErr n { c with
    cecnt := satInc c.cecnt
    banks := KMap.write 0 x.bankNo (if bankDue then 0 else inBank) c.banks
    rows := if rowDue then KMap.del i c.rows else KMap.put i (x.rowNo, inRow) c.rows }
  let s2 := if bankDue then s1.rasPost 2 (x.logBits false) s1.ras.bankthr.toNat else s1
  if rowDue then s2.rasPost 1 (x.logBits true) s2.ras.rowthr.toNat else s2

/-- A stack works and a channel of it is not dropped. -/
def State.chanWorks (s : State) (n : Nat) : Bool := s.caps.workStacks.getLsbD (n / 32) && !KMap.read false n s.caps.deadChans

/-- 18 R428: whatever read a sector of a row of a working channel, sideband code corrected it. -/
def State.correctRow (s : State) (n b r : Nat) : State :=
  if s.chanWorks n && decide (b < 32) && decide (r < 65536) then
    s.correction { stack := n / 32, chan := n % 32, pc := b / 16, bg := b / 4 % 4, bank := b % 4, column := 0, row := r }
  else s

/-- 18 R428: a sector poisoned in DRAM adds one to UECNT and posts kind 3. -/
def State.countUncorrectable (s : State) (x : Place) : State :=
  let c := s.chErr x.channel
  let s1 := s.setChErr x.channel { c with uecnt := satInc c.uecnt }
  s1.rasPost 3 (x.logBits true) (s1.chErr x.channel).uecnt.toNat

/-- 16 R391: the sector of a mirrored pair's first frame whose copy a sector is, else itself: the home's L2 slice holds a line under the
address of the first. -/
def State.firstCopy (s : State) (k : Nat) : Nat :=
  let f := 32 * k / 0x20_0000
  if f % 2 = 1 && decide (f < s.caps.mirframes) then ((32 * k ^^^ 0x200) - 0x20_0000) / 32 else k

/-- 09 R235: a sector that neither code recovers is poisoned in its DRAM: one copy of it as everything reads it, unless the home's L2 slice
holds the sector; where it holds it dirty, the writeback replaces it, in both copies (18 R431). -/
def State.poisonCopy (s : State) (k : Nat) : State :=
  let home := s.firstCopy k
  let mark := { s with poison := KMap.write false k true s.poison }
  match s.l2Line (home / 4) with
  | some x =>
    if !x.valid.getLsbD (home % 4) then mark
    else if x.dirty.getLsbD (home % 4) then s
    else if home = k then { s with beneath := KMap.put k true s.beneath }
    else mark
  | none => mark

/-- 09 R235, R237: a dirty L2 sector is poisoned; its line is the one copy of a mirrored pair that erred, and both are written back from it. -/
def State.strikeL2 (s : State) (k : Nat) : State := s.setBad k true

/-- The event UNCORRECTABLE_ERROR (09 R235, R237, R226, R223, 12 R309): which storage (0 DRAM, 1 scratchpad, 2 register line, 3
accumulator, 4 L1, 5 L2), which unit of it (a core; for a register line, the stream) and which sector there (DRAM and L2: the sector's
number; scratchpad: the sector of the resident team's allocation; register line: 2 x line + half; accumulator: 2,048 x tile + sector; L1:
the sector's number). An L1 line, which is write-through, is dropped whole (09 R227); a clean L2 sector too. -/
def execUncorrectableError (kind unit loc : Nat) (s : State) : Host.Outcome State Fault Refusal :=
  match kind with
  | 0 => .next ((s.poisonCopy loc).countUncorrectable (s.locate (32 * loc)))
  | 1 => match (s.coreAt unit).team with
    | some t => .next (if 32 * loc < (s.tm t).spad then s.onTm t fun y => y.setBad loc true else s)
    | none => .next s
  | 2 => .next (s.strikeLine unit (loc / 2) (loc % 2))
  | 3 => .next (if (s.coreAt unit).team.isSome && decide (loc < 16384) then s.onCore unit fun c =>
      let z := KMap.read ({} : Acc) (loc / 2048) c.press.z
      { c with press := { c.press with z := KMap.put (loc / 2048) { z with poison := KMap.write false (loc % 2048) true z.poison } c.press.z } } else s)
  | 4 => .next (s.withCore unit fun c => c.l1Drop (loc / 4))
  | 5 =>
    match s.l2Line (loc / 4) with
    | some x => .next (if x.dirty.getLsbD (loc % 4) then s.strikeL2 loc else s.dropSector (32 * loc))
    | none => .next s
  | _ => .next s

/-- The event L2_FILL (09 R232): a fill arrives, makes the sectors fetched valid, and serves every requester queued on its line. -/
def execL2Fill (line : Nat) (s : State) : Host.Outcome State Fault Refusal :=
  .next (s.onL2 line fun y => some { y with valid := y.valid ||| y.fetching, fetching := 0, waiters := 0 })

/-! ## The Brusher (18 R430) -/

/-- 18 R430: a channel goes on to its next row, with the row counted if it was scrubbed; after the last of its 2,097,152 rows its pass is
done, and when every working channel's is, PASSES advances and kind 6 is posted. -/
def State.brushOn (s : State) (n : Nat) (scrubbed : Bool) : State :=
  let c := s.chErr n
  let last := c.scrub + 1 ≥ 2 ^ 21
  let s1 := s.setChErr n { c with scrub := if last then 0 else c.scrub + 1, passDone := last }
  let s2 := { s1 with ras := { s1.ras with rows := if scrubbed then s1.ras.rows + 1 else s1.ras.rows } }
  if last && (List.range 384).all fun i => !s2.chanWorks i || (s2.chErr i).passDone then
    let s3 := { s2 with ras := { s2.ras with passes := s2.ras.passes + 1, rows := 0, chan := s2.ras.chan.map fun (e : Nat × ChErr) => (e.1, { e.2 with passDone := false }) } }
    s3.rasPost 6 0 s3.ras.passes.toNat
  else s2

/-- The position of the row that a channel scrubs next. -/
def State.scrubRow (s : State) (n : Nat) : Place :=
  let i := (s.chErr n).scrub
  let b := i / 65536
  { stack := n / 32, chan := n % 32, pc := b / 16, bg := b / 4 % 4, bank := b % 4, column := 0, row := i % 65536 }

/-- What a scrub reads: a sector of data (its number in device memory), a sector of a check line (2^36 above 4 x code group + sector), or one
that holds neither. -/
def State.scrubPlace (s : State) (sector : Nat) : Place :=
  if sector < 2 ^ 36 then s.locate (32 * sector)
  else
    let g := (sector - 2 ^ 36) / 4
    s.placeAt (g / 2048) (8 * (g % 2048)) (g / 2048 % 9)

/-- 18 R430: what the code group or the mirror copy recovers is written back: of a mirrored pair one copy of which is clean, the other is
written from it; a check line's sector is computed from its group. -/
def State.scrubRecover (s : State) (sector : Nat) : State :=
  if sector ≥ 2 ^ 36 then { s with checkBad := KMap.write false (sector - 2 ^ 36) false s.checkBad }
  else
    let a := 32 * s.firstCopy sector
    if s.mirrored (a / 0x20_0000) && s.badCopy a != s.badCopy (mirrorOf a) then s.storeBlock a (s.loadBytes a 32) else s

/-- 18 R430: what nothing recovers is written poisoned. -/
def State.scrubPoison (s : State) (sector : Nat) : State :=
  if sector ≥ 2 ^ 36 then { s with checkBad := KMap.write false (sector - 2 ^ 36) true s.checkBad } else s.poisonCopy sector

/-- The event BRUSHER_ROW_SCRUB (18 R430): a channel's Brusher finds something in a sector of the row that it scrubs: 1 correctable by sideband
code, 2 recovered by its code group or mirror copy, 3 neither; with 0 the rest of the row is clean, and it goes on to the next. `sector`
names the sector (`State.scrubPlace`); one of another row is a sector of this row that holds no data. A lost unit's row is skipped, and a
channel that has completed its pass waits for the others. -/
def execBrusherRowScrub (chan finding sector : Nat) (s : State) : Host.Outcome State Fault Refusal :=
  let x := s.scrubRow chan
  let c := s.chErr chan
  if !s.ras.brushEn || !s.chanWorks chan || c.passDone || decide (384 ≤ chan) then .next s
  else if s.isLost x then .next (s.brushOn chan false)
  else
    let y := s.scrubPlace sector
    let mine := y.channel = chan && y.rowNo = x.rowNo
    match finding with
    | 1 => .next (s.correction x)
    | 2 =>
      let s1 := s.setChErr chan { c with deccnt := c.deccnt + 1 }
      .next (if mine then s1.scrubRecover sector else s1)
    | 3 => .next ((if mine then s.scrubPoison sector else s).countUncorrectable x)
    | _ => .next (s.brushOn chan true)

/-! ## Refresh and activations (18 R432, 13 R335) -/

/-- The bank of a position, numbered over the device. -/
def Place.bankOf (x : Place) : Nat := 32 * x.channel + x.bankNo

/-- Does the operation at the head of a core's Ladle queue, a transfer or a piece of a pull (13 R335), keep a row of a bank open? -/
def State.burstOn (s : State) (core bank : Nat) : Bool :=
  (s.coreAt core).ladle.any fun q =>
    match q.2.head? with
    | some (.xfer x) => x.pieces.any fun p => !p.remote && !p.void && !p.leaf.host && (s.locate p.pa).bankOf = bank
    | some (.pull n t done _) => (s.pullXlats core q.1 n t done).any fun y => !y.remote && !y.leaf.host && (s.locate y.pa).bankOf = bank
    | _ => false

/-- Is a bank kept open by some Ladle's burst? -/
def State.bankBusy (s : State) (bank : Nat) : Bool := s.cores.any fun c => s.burstOn c.1 bank

/-- 18 R432: every owed refresh of a bank is issued, each lowering its activation count by floor(LEVEL / 2). -/
def State.refreshBank (s : State) (bank : Nat) : State :=
  let n := KMap.read 0 bank s.ras.owed
  let a := KMap.read 0 bank s.ras.acts
  { s with ras := { s.ras with owed := KMap.write 0 bank 0 s.ras.owed, acts := KMap.write 0 bank (a - n * (s.ras.level.toNat / 2)) s.ras.acts } }

/-- 18 R432: what an activation count asks for: a command at LEVEL, one before any further activation at 3 x LEVEL. -/
def State.rfmFor (s : State) (a : Nat) : Nat := if a ≥ 3 * s.ras.level.toNat then 2 else if a ≥ s.ras.level.toNat then 1 else 0

/-- 18 R432: the refresh-management command that is due, if one is: the count falls by LEVEL and RFMCNT rises. -/
def State.manageBank (s : State) (bank : Nat) : State :=
  if KMap.read 0 bank s.ras.rfm = 0 then s
  else
    let c := s.chErr (bank / 32)
    let s1 := s.setChErr (bank / 32) { c with rfmcnt := c.rfmcnt + 1 }
    let a := KMap.read 0 bank s.ras.acts - s.ras.level.toNat
    { s1 with ras := { s1.ras with acts := KMap.write 0 bank a s1.ras.acts, rfm := KMap.write 0 bank (s.rfmFor a) s1.ras.rfm } }

/-- 18 R432: an activation of a bank; one that has reached 3 x LEVEL takes none until its command has been issued, whatever a refresh takes off
its count, and one that a burst holds open none either. -/
def State.activate (s : State) (bank : Nat) : State :=
  if KMap.read 0 bank s.ras.rfm = 2 || s.bankBusy bank then s
  else
    let a := KMap.read 0 bank s.ras.acts + 1
    { s with ras := { s.ras with
        acts := KMap.write 0 bank a s.ras.acts, rfm := KMap.write 0 bank (max (KMap.read 0 bank s.ras.rfm) (s.rfmFor a)) s.ras.rfm } }

/-- 13 R335, 18 R432: a bank that owes POSTPONE refreshes breaks a burst on it: every owed refresh and the due command are issued, and BRKCNT
rises. -/
def State.breakBurst (s : State) (bank : Nat) : State :=
  let c := s.chErr (bank / 32)
  ((s.setChErr (bank / 32) { c with brkcnt := c.brkcnt + 1 }).refreshBank bank).manageBank bank

/-- The event REFRESH_DUE (18 R432): one more refresh is owed; owed ones are postponed while the bank is busy, up to POSTPONE, and
issued at once otherwise. One past the limit breaks the burst. -/
def execRefreshDue (bank : Nat) (s : State) : Host.Outcome State Fault Refusal :=
  let n := KMap.read 0 bank s.ras.owed + 1
  let s1 := { s with ras := { s.ras with owed := KMap.write 0 bank n s.ras.owed } }
  .next (if !s.bankBusy bank then s1.refreshBank bank else if n > s.ras.postpone.toNat then s1.breakBurst bank else s1)

/-- The event REFRESH_MANAGEMENT_COMMAND (18 R432): issued once the bank is closed; a burst is never broken by it alone. -/
def execRefreshManagementCommand (bank : Nat) (s : State) : Host.Outcome State Fault Refusal :=
  .next (if s.bankBusy bank then s else s.manageBank bank)

/-- The event BURST_BREAK (13 R335, 18 R432): a bank that owes POSTPONE refreshes breaks a burst on it: every owed refresh and the due
command are issued, and BRKCNT rises. -/
def execBurstBreak (core bank : Nat) (s : State) : Host.Outcome State Fault Refusal :=
  if !s.burstOn core bank || decide (KMap.read 0 bank s.ras.owed < s.ras.postpone.toNat) then .next s
  else .next (s.breakBurst bank)

/-! ## Post-package repair (16 R400, R401) -/

/-- The position that a PPRCMD names. -/
def pprPlace (v : Word) : Place :=
  let x := v.toNat
  { stack := bits x 63 60, chan := bits x 59 55, pc := bits x 54 54, bg := bits x 53 52, bank := bits x 51 50, column := 0, row := bits x 49 34 }

/-- The bank group of a PPRCMD. -/
def pprGroup (v : Word) : Nat := v.toNat / 2 ^ 52

/-- 16 R400: the repairs left in a bank group of this part, which its field of 8 bits holds. -/
def State.pprLeft (s : State) (group : Nat) : Nat := Config.pprLeft group % 256 - KMap.read 0 group s.ppr.used

/-- The event PPRCMD_WRITE (16 R401): ignored while a repair is under way; with no repair left STATE becomes 3. -/
def execPprcmdWrite (v : BitVec 64) (s : State) : Host.Outcome State Fault Refusal :=
  if s.ppr.state = 1 then .next s
  else
    let left := s.pprLeft (pprGroup v)
    .next { s with ppr := { s.ppr with state := if left = 0 then 3 else 1, cmd := v, left := left } }

/-- The event PPR_COMPLETE (16 R401, 18 R429): the row is repaired, its lines written back as they were; kind 7, or 8 where it failed. -/
def execPprComplete (ok : Bool) (s : State) : Host.Outcome State Fault Refusal :=
  if s.ppr.state ≠ 1 then .next s
  else
    let g := pprGroup s.ppr.cmd
    let s1 := { s with ppr := { s.ppr with
      state := if ok then 2 else 3, used := if ok then KMap.put g (KMap.read 0 g s.ppr.used + 1) s.ppr.used else s.ppr.used
      left := if ok then s.ppr.left - 1 else s.ppr.left } }
    .next (s1.rasPost (if ok then 7 else 8) ((pprPlace s.ppr.cmd).logBits true) 0)

end Sys2Proof.Machine
end

