-- ==== Sys2Proof/Machine/Registers.lean ====
section
/-! DEFINITION. Writes of window A through the host port (00 R4, R5, 14 R338 to R340, 15 R358, 16 R382, R400, R402, 18 R426, R427, 19
R442, R443, R453): each register that has no row of its own in the opcode table. -/

namespace Sys2Proof.Machine

/-- The low bits of a number with some bytes of another in their place: `n` bytes at byte `i`. -/
def mergeBytes (old i n v : Nat) : Nat :=
  let lo := 2 ^ (8 * i)
  let hi := 2 ^ (8 * (i + n))
  old / hi * hi + v % 2 ^ (8 * n) * lo + old % lo

/-! ## Partition registers -/

/-- A register of a partition that a write reaches: its offset, bytes and value as its RW fields stand. -/
def Partition.regs (p : Partition) : List (Nat × Nat × Nat) :=
  [(0x000, 8, p.pctxbase.toNat), (0x008, 4, p.pctxlen.toNat), (0x010, 8, p.phvec.toNat), (0x018, 4, p.pevthr.toNat),
   (0x01C, 4, p.pspawntmr.toNat), (0x020, 4, p.ptrygrace.toNat), (0x024, 4, p.ppressgate.toNat), (0x028, 8, p.ptaskbase.toNat),
   (0x030, 4, p.ptaskn.toNat), (0x038, 8, p.pfqbase.toNat), (0x044, 4, 0), (0x050, 4, p.presage.toNat), (0x054, 4, p.pagestep.toNat),
   (0x060, 4, (p.heldWays.getD p.pwaymask).toNat), (0x068, 4, p.ptokfirst.toNat), (0x06C, 4, p.ptokcount.toNat), (0x070, 8, p.pptroot.toNat),
   (0x078, 8, p.phacbase.toNat), (0x080, 4, p.phacctl.toNat), (0x084, 4, p.phacirq.toNat), (0x088, 8, p.pwinb.toNat)]

/-- A number's bits from `l` up, as a register that keeps only those. -/
def keepFrom (l x : Nat) : Word := BitVec.ofNat 64 (x / 2 ^ l * 2 ^ l)

/-- Writes a register of a partition by its offset: reserved bits keep their zero (00 R5); a write of PWAYMASK is held (14 R339); PFQBASE is
refused while EN is 1; PFQSTAT's flags clear where ones are written. -/
def Partition.write (p : Partition) (o x : Nat) : Partition :=
  match o with
  | 0x000 => { p with pctxbase := keepFrom 21 x }
  | 0x008 => { p with pctxlen := BitVec.ofNat 32 x }
  | 0x010 => { p with phvec := keepFrom 2 x }
  | 0x018 => { p with pevthr := BitVec.ofNat 32 x }
  | 0x01C => { p with pspawntmr := BitVec.ofNat 16 x }
  | 0x020 => { p with ptrygrace := BitVec.ofNat 24 x }
  | 0x024 => { p with ppressgate := BitVec.ofNat 32 x }
  | 0x028 => { p with ptaskbase := keepFrom 21 x }
  | 0x030 => { p with ptaskn := BitVec.ofNat 17 x }
  | 0x038 => if p.pfqen then { p with pfqbad := true } else { p with pfqbase := keepFrom 6 x }
  | 0x044 => { p with pfqwerr := p.pfqwerr && !x.testBit 2, pfqbad := p.pfqbad && !x.testBit 1, pfqovf := p.pfqovf && !x.testBit 0 }
  | 0x050 => { p with presage := BitVec.ofNat 32 x }
  | 0x054 => { p with pagestep := BitVec.ofNat 32 x }
  | 0x060 => { p with heldWays := some (BitVec.ofNat 16 x) }
  | 0x068 => { p with ptokfirst := BitVec.ofNat 24 x }
  | 0x06C => { p with ptokcount := BitVec.ofNat 25 x }
  | 0x070 => { p with pptroot := keepFrom 16 (x % 2 ^ 40) }
  | 0x078 => { p with phacbase := keepFrom 16 x }
  | 0x080 => { p with phacctl := BitVec.ofNat 32 x }
  | 0x084 => { p with phacirq := BitVec.ofNat 32 (x / 2 ^ 31 * 2 ^ 31 + x % 2 ^ 16) }
  | 0x088 => { p with pwinb := keepFrom 36 x }
  | _ => p

/-! ## Queue registers -/

/-- The registers of a host work queue. -/
def HostQueue.regs (q : HostQueue) : List (Nat × Nat × Nat) := [(0x00, 8, q.base.toNat + if q.loc then 1 else 0), (0x14, 4, 0)]

/-- Writes a register of a host work queue: QBASE is refused while EN is 1 (14 R339); QSTAT's flags clear where ones are written. -/
def HostQueue.write (q : HostQueue) (o x : Nat) : HostQueue :=
  match o with
  | 0x00 => if q.en then { q with bad := true } else { q with base := keepFrom 7 x, loc := x.testBit 0 }
  | 0x14 => { q with bad := q.bad && !x.testBit 1, readerr := q.readerr && !x.testBit 0 }
  | _ => q

/-! ## Landing windows (19 R443) -/

/-- LWCTL as it reads. -/
def Landing.ctl (x : Landing) : Nat :=
  x.len.toNat + 2 ^ 28 * x.part.toNat + (if x.en then 2 ^ 31 else 0) + 2 ^ 32 * x.off.toNat

/-- The registers of a landing window. -/
def Landing.regs (x : Landing) : List (Nat × Nat × Nat) :=
  [(0x00, 8, x.base.toNat), (0x08, 8, x.ctl), (0x10, 8, x.obj.toNat + 2 ^ 20 * x.cluster.toNat + 2 ^ 44 * x.m.toNat), (0x18, 8, 0)]

/-- Writes a register of a landing window: while EN is 1 only a write that clears EN acts; one that sets EN with LEN 0 or past the
aperture is ignored. -/
def Landing.write (x : Landing) (o v : Nat) : Landing :=
  match o with
  | 0x00 => if x.en then x else { x with base := keepFrom 16 v }
  | 0x08 =>
    let en := v.testBit 31
    let len := v % 2 ^ 20
    let off := v / 2 ^ 32 % 2 ^ 20
    if (x.en && en) || (en && (decide (len = 0) || decide (off + len > 2 ^ 20))) then x
    else { x with en := en, len := BitVec.ofNat 20 len, part := BitVec.ofNat 3 (v / 2 ^ 28), off := BitVec.ofNat 20 off }
  | 0x10 => if x.en then x else { x with obj := BitVec.ofNat 20 v, cluster := BitVec.ofNat 24 (v / 2 ^ 20), m := BitVec.ofNat 4 (v / 2 ^ 44) }
  | 0x18 => { x with noobj := x.noobj && !v.testBit 3, ended := x.ended && !v.testBit 2, fault := x.fault && !v.testBit 1 }
  | _ => x

/-! ## Device registers -/

/-- The registers of device scope that lie at one place each. -/
def State.devRegs (s : State) : List (Nat × Nat × Nat) :=
  let r := s.ras
  [(0x100, 4, if s.heldL2.getD s.l2priv then 1 else 0), (0x200, 8, s.tokbase.toNat), (0x208, 4, s.tokn.toNat), (0x308, 8, 0),
   (0x320, 8, s.turner.tblsel.toNat),
   (0x1000, 8, r.rowthr.toNat + 2 ^ 16 * r.bankthr.toNat + (if r.irqen then 2 ^ 47 else 0) + 2 ^ 48 * r.vec.toNat), (0x1008, 8, 0),
   (0x1018, 8, r.tail.toNat), (0x1020, 8, r.passh.toNat + if r.brushEn then 2 ^ 63 else 0), (0x1030, 8, r.level.toNat + 2 ^ 16 * r.postpone.toNat)]

/-- 14 R339, 15 R358: is a team of any partition resident? -/
def State.anyResident (s : State) : Bool := s.cores.any fun c => c.2.team.isSome

/-- Writes a device register at one place. TOKBASE and TOKN ignore a write while a team is resident (15 R358); L2MODE is held (14 R339);
ACTCFG and BRUSHCTL refuse a field outside its range (18 R426). -/
def State.writeDev (s : State) (o x : Nat) : State :=
  let r := s.ras
  match o with
  | 0x100 => { s with heldL2 := some (x.testBit 0) }
  | 0x200 => if s.anyResident then s else { s with tokbase := keepFrom 21 x }
  | 0x208 => if s.anyResident then s else { s with tokn := BitVec.ofNat 25 x }
  | 0x308 => if x.testBit 61 then { s with turner := { s.turner with refused := false } } else s
  | 0x320 => { s with turner := { s.turner with
      tblsel := BitVec.ofNat 64 (x / 2 ^ 62 * 2 ^ 62 + x / 2 ^ 42 % 2 ^ 6 * 2 ^ 42 + x % 2 ^ 19) } }
  | 0x1000 => { s with ras := { r with
      rowthr := BitVec.ofNat 16 x, bankthr := BitVec.ofNat 16 (x / 2 ^ 16), irqen := x.testBit 47, vec := BitVec.ofNat 16 (x / 2 ^ 48) } }
  | 0x1008 => { s with ras := { r with refused := r.refused && !x.testBit 1, ovf := r.ovf && !x.testBit 0 } }
  | 0x1018 => { s with ras := { r with tail := BitVec.ofNat 6 x } }
  | 0x1020 =>
    let h := x % 2 ^ 8
    if h < 1 || h > 168 then { s with ras := { r with refused := true } }
    else { s with ras := { r with passh := BitVec.ofNat 8 h, brushEn := x.testBit 63 } }
  | 0x1030 =>
    let l := x % 2 ^ 16
    let p := x / 2 ^ 16 % 2 ^ 4
    if l < 16 || l > 4096 || p < 1 || p > 8 then { s with ras := { r with refused := true } }
    else { s with ras := { r with level := BitVec.ofNat 16 l, postpone := BitVec.ofNat 4 p } }
  | _ => s

/-- CHERR of a channel as it reads, 16 bytes (18 R427). -/
def ChErr.toNat (c : ChErr) : Nat :=
  2 ^ 16 * c.uecnt.toNat + 2 ^ 32 * c.cecnt.toNat + 2 ^ 64 * (c.deccnt.toNat + 2 ^ 32 * c.brkcnt.toNat + 2 ^ 48 * c.rfmcnt.toNat)

/-- CHERR with a new value. -/
def ChErr.ofNat (c : ChErr) (x : Nat) : ChErr :=
  { c with
    uecnt := BitVec.ofNat 16 (x / 2 ^ 16), cecnt := BitVec.ofNat 32 (x / 2 ^ 32), deccnt := BitVec.ofNat 32 (x / 2 ^ 64)
    brkcnt := BitVec.ofNat 16 (x / 2 ^ 96), rfmcnt := BitVec.ofNat 16 (x / 2 ^ 112) }

/-- 14 R340: a write of a core-map byte: a free core changes at once, one that holds a team when it is free; a hole ignores it. -/
def State.writeCorMap (s : State) (k v : Nat) : State :=
  match KMap.find k s.cores with
  | none => s
  | some c =>
    let b := v.testBit 7
    let p := v % 8
    if c.team.isNone then s.setCoreMap k b p
    else s.onCore k fun y => { y with heldMap := if y.mapV = b && y.mapPart = p then none else some (b, p) }

/-- One register of a list that holds a byte at an offset. -/
def regOf (rs : List (Nat × Nat × Nat)) (o : Nat) : Option (Nat × Nat × Nat) := rs.find? fun r => r.1 ≤ o && decide (o < r.1 + r.2.1)

/-- 14 R338, R340, 19 R441: writes the bytes of one register that a write reaches, through a function (0 the physical one, `p` + 1 that of
partition `p`), and says how many bytes it took. A partition's function reaches its own registers and its queues alone. -/
def State.writeOne (s : State) (fn off n v : Nat) : State × Nat :=
  let take (r : Nat × Nat × Nat) (o : Nat) : Nat := min n (r.1 + r.2.1 - o)
  let value (r : Nat × Nat × Nat) (o : Nat) : Nat := mergeBytes r.2.2 (o - r.1) (take r o) v
  if 0x20000 ≤ off ∧ off < 0x28000 then
    let p := (off - 0x20000) / 0x1000
    let o := off % 0x1000
    match regOf (s.partAt p).regs o with
    | some r => (if fn = 0 ∨ fn = p + 1 then s.onPart p fun q => q.write r.1 (value r o) else s, take r o)
    | none => (s, 1)
  else if 0x100000 ≤ off ∧ off < 0x140000 then
    let q := (off - 0x100000) / 0x20
    let o := off % 0x20
    let x := s.queueAt q
    match regOf x.regs o with
    | some r => (if fn = 0 ∨ (x.assignV ∧ fn = x.part.toNat + 1) then s.onQueue q fun y => y.write r.1 (value r o) else s, take r o)
    | none => (s, 1)
  else if fn ≠ 0 then (s, 1)
  else if 0x2000 ≤ off ∧ off < 0x4000 then
    let w := (off - 0x2000) / 0x20
    let o := off % 0x20
    let x := KMap.read ({} : Landing) w s.landing
    match regOf x.regs o with
    | some r => ({ s with landing := KMap.put w (x.write r.1 (value r o)) s.landing }, take r o)
    | none => (s, 1)
  else if 0x4000 ≤ off ∧ off < 0x6000 then
    (s.onQueue (off - 0x4000) fun q => { q with assignV := v.testBit 7, part := BitVec.ofNat 3 v }, 1)
  else if 0xA000 ≤ off ∧ off < 0xB800 then
    let c := (off - 0xA000) / 16
    let x := KMap.read ({} : ChErr) c s.ras.chan
    let o := off % 16
    let k := min n (16 - o)
    ({ s with ras := { s.ras with chan := KMap.put c (x.ofNat (mergeBytes x.toNat o k v)) s.ras.chan } }, k)
  else if 0xC000 ≤ off ∧ off < 0xD000 then
    ({ s with mail := { s.mail with buf := KMap.write 0 (off - 0xC000) (BitVec.ofNat 8 v) s.mail.buf } }, 1)
  else if 0xD000 ≤ off ∧ off < 0xD180 then (s.writeCorMap (off - 0xD000) v, 1)
  else
    match regOf s.devRegs off with
    | some r => (s.writeDev r.1 (value r off), take r off)
    | none => (s, 1)

/-- A write of several bytes, register by register. -/
def State.writeRegs (s : State) (fn : Nat) : Nat → Nat → Nat → Nat → State
  | 0, _, _, _ => s
  | fuel + 1, off, n, v =>
    if n = 0 then s
    else
      let r := s.writeOne fn off n v
      let k := max 1 r.2
      r.1.writeRegs fn fuel (off + k) (n - k) (v / 2 ^ (8 * k))

/-- The event REGISTER_WRITE (00 R4): a write of `n` bytes at an offset of window A through a function, under the access codes of what it
reaches. None is accepted before start stage 1 (19 R450). -/
def execRegisterWrite (fn off n : Nat) (v : BitVec 64) (s : State) : Host.Outcome State Fault Refusal :=
  .next (if s.stage = 0 then s else s.writeRegs fn (min n 8) off (min n 8) v.toNat)

end Sys2Proof.Machine
end

