-- ==== Sys2Proof/Machine/Turner.lean ====
section
/-! DEFINITION. The Turner (16 R392 to R400): lost units, drops of banks, channels and stacks, group steps, released frames. -/

namespace Sys2Proof.Machine

/-! ## Spare slots and extents (16 R394, R395) -/

/-- Frames of the device: the program-visible ones, those released, and the 397 device-owned ones (16 R476). -/
def State.allFrames (s : State) : Nat := s.caps.visframes + s.turner.released.length + 397

/-- The slots of a frame on a stack. -/
def State.slotsOn (s : State) (e : IlvEntry) (stack : Nat) : List Nat :=
  ((s.classOf e.cls).zip e.slots).filterMap fun x => if x.1 = stack then some x.2 else none

/-- 16 R395: the slots that released frames gave up on a stack. -/
def State.releasedSlots (s : State) (stack : Nat) : List Nat :=
  s.turner.released.flatMap fun f => s.slotsOn ((KMap.find f s.turner.entries).getD (s.builtEntry f)) stack

/-- The lowest spare slot of a stack with a property: one given up by a frame, or one at or above SPAREBASE. -/
def State.lowestSpare (s : State) (stack : Nat) (ok : Nat → Bool) : Option Nat :=
  match (s.releasedSlots stack).filter ok with
  | x :: xs => some (xs.foldl min x)
  | [] => ((List.range (2 ^ 18 - s.caps.sparebase)).map fun i => s.caps.sparebase + i).find? ok

/-- The key of an extent of a slot. -/
def extKey (stack slot chan : Nat) : Nat := 32 * (2 ^ 18 * stack + slot) + chan

/-- 16 R395: is a spare slot wholly free: not used, no extent of it in use? -/
def State.slotFree (s : State) (stack slot : Nat) : Bool :=
  !KMap.read false (2 ^ 18 * stack + slot) s.turner.spareUsed &&
    (List.range 32).all fun c => !KMap.read false (extKey stack slot c) s.turner.extUsed

/-- Is a channel of a stack dropped, or being dropped? -/
def State.chanDropped (s : State) (stack chan : Nat) : Bool :=
  KMap.read false (32 * stack + chan) s.caps.deadChans ||
    match s.turner.current with | some d => d.kind = 2 && d.stack = stack && d.chan = chan | none => false

/-- 16 R394: the lowest channel not dropped whose extent of a spare slot is free. -/
def State.freeExtent (s : State) (stack slot : Nat) : Option Nat :=
  if KMap.read false (2 ^ 18 * stack + slot) s.turner.spareUsed then none
  else (List.range 32).find? fun c => !s.chanDropped stack c && !KMap.read false (extKey stack slot c) s.turner.extUsed

/-- The slots of a stack that are wholly free spare (16 R395, R403). -/
def State.freeSpares (s : State) (stack : Nat) : Nat :=
  ((s.releasedSlots stack ++ (List.range (2 ^ 18 - s.caps.sparebase)).map fun i => s.caps.sparebase + i).filter (s.slotFree stack)).length

/-- 16 R394: relocates a slot of a stack for its `i`-th drop into the next free extent, unless it has an entry; none where no spare is left. -/
def State.relocate (s : State) (stack i slot : Nat) : Option State :=
  if (KMap.find (repairKey stack i slot) s.turner.repair).isSome then some s
  else match s.lowestSpare stack fun x => (s.freeExtent stack x).isSome with
  | none => none
  | some x => (s.freeExtent stack x).map fun c =>
      { s with turner := { s.turner with
          repair := KMap.put (repairKey stack i slot) (c, x) s.turner.repair
          extUsed := KMap.put (extKey stack x c) true s.turner.extUsed } }

/-- 16 R394: relocates a slot of a stack for its `i`-th drop, with the slots to which earlier drops sent lines of it that the unit dropped, of
a channel `chan`, may hold. -/
def State.relocateAll (s : State) (stack i chan slot : Nat) : Option State :=
  let earlier := (List.range i).filterMap fun k =>
    match KMap.find (repairKey stack k slot) s.turner.repair with
    | some (c', x') => if c' = chan then some x' else none
    | none => none
  (slot :: earlier).foldl (fun r x => r.bind fun s => s.relocate stack i x) (some s)

/-- The bank and channel drops of a stack, in the order made. -/
def State.dropsOf (s : State) (stack : Nat) : List Dropped := s.turner.drops.filter fun d => d.stack = stack && d.kind ≠ 1

/-- 16 R394: a repair map has an entry for each slot in use of its stack: a spare slot that a frame now takes gets one for each drop made. -/
def State.relocateSpare (s : State) (stack slot : Nat) : Option State :=
  ((s.dropsOf stack).zipIdx).foldl (fun r d => r.bind fun s => s.relocateAll stack d.2 d.1.chan slot) (some s)

/-! ## Drops (16 R393 to R396) -/

/-- The stacks that work. -/
def State.workingStacks (s : State) : List Nat := (List.range 12).filter fun i => s.caps.workStacks.getLsbD i

/-- Does a frame have the stack of a drop in its class, so that the Turner handles it? -/
def State.inDrop (s : State) (d : Dropped) (f : Nat) : Bool :=
  (s.entryOf f).mode ≠ 0 && (s.classOf (s.entryOf f).cls).contains d.stack

/-- The frames from `f` on that a drop handles, in ascending order. -/
def State.framesFrom (s : State) (d : Dropped) (f : Nat) : List Nat := ((List.range (s.allFrames - f)).map fun i => f + i).filter (s.inDrop d)

/-- 18 R428: bank counters and tracker entries clear when their unit is dropped. -/
def State.clearTrackers (s : State) (d : Dropped) : State :=
  { s with ras := { s.ras with chan := s.ras.chan.map fun (e : Nat × ChErr) =>
      if e.1 / 32 ≠ d.stack then e
      else if d.kind = 1 || (d.kind = 2 && d.chan = e.1 % 32) then (e.1, { e.2 with banks := [], rows := [] })
      else if d.kind = 3 && d.chan = e.1 % 32 then
        let b := 16 * d.pc + 4 * d.bg + d.bank
        (e.1, { e.2 with banks := KMap.del b e.2.banks, rows := e.2.rows.filter fun r => r.2.1 / 65536 ≠ b })
      else e } }

/-- 16 R393: a third drop of a bank or channel of a stack is a drop of the stack. -/
def State.widen (s : State) (d : Dropped) : Dropped :=
  if d.kind ≠ 1 && KMap.read 0 d.stack s.caps.dropsPer ≥ 2 then { kind := 1, stack := d.stack } else d

/-- 16 R393: does a stack drop leave nine working stacks? -/
def State.dropAllowed (s : State) (d : Dropped) : Bool := d.kind ≠ 1 || decide (s.workingStacks.length > 9)

/-- The Turner begins a drop. -/
def State.beginDrop (s : State) (d : Dropped) : State :=
  let s1 := s.clearTrackers d
  let n := (s1.framesFrom d 0).length
  { s1 with turner := { s1.turner with
      state := 1, current := some d, next := 0, doneN := 0, total := n, need := 0
      drops := if d.kind = 1 then s1.turner.drops else s1.turner.drops ++ [d] } }

/-- 16 R393: a lost unit is dropped, after the present drop where one runs; one that may not be dropped goes on being decoded. -/
def State.dropLost (s : State) (d : Dropped) : State :=
  if s.turner.state ≠ 0 then { s with turner := { s.turner with waitingDrops := s.turner.waitingDrops ++ [d] } }
  else if s.dropAllowed (s.widen d) then s.beginDrop (s.widen d)
  else s

/-- Is a unit dropped, or being dropped, or no unit of this part? -/
def State.isDropped (s : State) (d : Dropped) : Bool :=
  decide (d.stack ≥ 12) || !s.caps.workStacks.getLsbD d.stack || (d.kind ≠ 1 && s.chanDropped d.stack d.chan) ||
    (d.kind = 3 && s.turner.drops.contains d)

/-- 16 R393: the first of the units lost during a drop that may be dropped is dropped next. -/
def State.nextDrop (s : State) : List Dropped → State
  | [] => { s with turner := { s.turner with waitingDrops := [] } }
  | w :: ws =>
    if s.isDropped w || !s.dropAllowed (s.widen w) then s.nextDrop ws
    else ({ s with turner := { s.turner with waitingDrops := ws } }).beginDrop (s.widen w)

/-- The event UNIT_LOST (16 R392): a channel, or with `chan` 32 the whole stack, is marked lost, logged, and dropped; one whose drop runs is
lost until that drop completes. -/
def execUnitLost (stack chan : Nat) (s : State) : Host.Outcome State Fault Refusal :=
  let d : Dropped := if chan < 32 then { kind := 2, stack, chan } else { kind := 1, stack }
  if (s.isDropped d && s.turner.current ≠ some d) || s.turner.lost.contains d then .next s
  else
    let s1 := { s with turner := { s.turner with lost := s.turner.lost ++ [d] } }
    let s2 := if chan < 32 then s1.rasPost 4 (2 ^ 116 * stack + 2 ^ 111 * chan) 0 else s1.rasPost 5 (2 ^ 116 * stack) 0
    .next (s2.dropLost d)

/-- REFUSED of TRNSTAT (16 R400). -/
def State.turnerRefuse (s : State) : State := { s with turner := { s.turner with refused := true } }

/-- 16 R400: a drop command: refused while a drop runs, for a unit already dropped, or where fewer than nine stacks would be left. -/
def State.dropCommand (s : State) (d : Dropped) : State :=
  if s.turner.state ≠ 0 || s.isDropped d || !s.dropAllowed (s.widen d) then s.turnerRefuse else s.beginDrop (s.widen d)

/-- The unit that a TRNCMD names (16 R400). -/
def trnUnit (v : Word) (kind : Nat) : Dropped :=
  let x := v.toNat
  { kind, stack := bits x 59 56, chan := if kind = 1 then 0 else bits x 55 51, pc := if kind = 3 then bits x 50 50 else 0
    bg := if kind = 3 then bits x 49 48 else 0, bank := if kind = 3 then bits x 47 46 else 0 }

/-- The event TRNCMD_DROP_STACK (16 R395). -/
def execTrncmdDropStack (v : BitVec 64) (s : State) : Host.Outcome State Fault Refusal := .next (s.dropCommand (trnUnit v 1))

/-- The event TRNCMD_DROP_CHANNEL (16 R394). -/
def execTrncmdDropChannel (v : BitVec 64) (s : State) : Host.Outcome State Fault Refusal := .next (s.dropCommand (trnUnit v 2))

/-- The event TRNCMD_DROP_BANK (16 R394). -/
def execTrncmdDropBank (v : BitVec 64) (s : State) : Host.Outcome State Fault Refusal := .next (s.dropCommand (trnUnit v 3))

/-- The event TRNCMD_UNKNOWN (16 R400): an unknown OP is refused. -/
def execTrncmdUnknown (v : BitVec 64) (s : State) : Host.Outcome State Fault Refusal :=
  .next (if 1 ≤ v.toNat / 2 ^ 60 ∧ v.toNat / 2 ^ 60 ≤ 3 then s else s.turnerRefuse)

/-! ## Where a frame goes -/

/-- Does a frame have a class, by its entry or by the entry that its migration gives it? -/
def State.classUsed (s : State) (c : Nat) : Bool :=
  ((List.range s.allFrames).any fun f => (s.entryOf f).cls = c && (s.entryOf f).mode ≠ 0) || s.turner.bounds.any fun b => b.2.newEntry.cls = c

/-- 16 R395: the class number with a list of stacks, else one that no frame has; none where all 256 are in use (log entry 84). -/
def State.classFor (s : State) (l : List Nat) : Option Nat :=
  match (List.range 256).find? fun c => s.classOf c = l && s.classUsed c with
  | some c => some c
  | none => (List.range 256).find? fun c => !s.classUsed c

/-- 16 R395: the entry of a frame once a stack has left its class, with the spare slot it takes: the stack searched downward from the
departing one's number. The slot passes through the repair maps of the stack it lies on (R394). -/
def State.withoutStack (s : State) (e : IlvEntry) (stack : Nat) : Option (IlvEntry × State) :=
  let cl := s.classOf e.cls
  let j := cl.findIdx fun t => t = stack
  let pick := (List.range 11).findSome? fun i =>
    let t := (stack + 11 - i) % 12
    if !s.caps.workStacks.getLsbD t || cl.contains t || s.turner.lost.any (fun d => d.kind = 1 && d.stack = t) then none
    else (s.lowestSpare t (s.slotFree t)).map fun x => (t, x)
  pick.bind fun p => (s.classFor (cl.set j p.1)).bind fun c =>
    let s1 := { s with turner := { s.turner with
      classes := KMap.put c (cl.set j p.1) s.turner.classes, spareUsed := KMap.put (2 ^ 18 * p.1 + p.2) true s.turner.spareUsed } }
    (s1.relocateSpare p.1 p.2).map fun s2 => ({ e with cls := c, slots := e.slots.set j p.2 }, s2)

/-- 16 R394: relocates the slots of a frame for a bank or channel drop, the last of its stack. -/
def State.relocateFrame (s : State) (d : Dropped) (e : IlvEntry) : Option State :=
  (s.slotsOn e d.stack).foldl (fun r x => r.bind fun s => s.relocateAll d.stack ((s.dropsOf d.stack).length - 1) d.chan x) (some s)

/-- The capability list changes: CAPGEN goes up before and after (16 R403). -/
def State.bumpCap (s : State) : State := { s with caps := { s.caps with capgen := s.caps.capgen + 2 } }

/-- The next frame of a drop enters a free boundary register, with the spare it takes, of which the capability list tells (16 R403); where
there is none left the Turner waits for frames (16 R395, R396). -/
def State.enterFrame (s : State) (d : Dropped) (i : Nat) : State :=
  match ((List.range (s.allFrames - s.turner.next)).map fun k => s.turner.next + k).find? (s.inDrop d) with
  | none => s
  | some f =>
    let e := s.entryOf f
    let r := if d.kind = 1 then s.withoutStack e d.stack else (s.relocateFrame d e).map fun s1 => (e, s1)
    match r with
    | none => { s with turner := { s.turner with state := 2, need := (s.framesFrom d f).length } }
    | some (e', s1) =>
      ({ s1 with turner := { s1.turner with
          state := 1, need := 0, next := f + 1, bounds := KMap.put i { frame := f, b := 0, newEntry := e' } s1.turner.bounds } } : State).bumpCap

/-- Fills the free ones of the sixteen boundary registers. -/
def State.enterFrames (s : State) : State :=
  match s.turner.current with
  | none => s
  | some d =>
    if s.turner.state ≠ 1 then s
    else (List.range 16).foldl (fun s i =>
      if s.turner.state ≠ 1 || (KMap.find i s.turner.bounds).isSome then s else s.enterFrame d i) s

/-- 16 R393, R403, R404: the present drop ends: the capability list changes, lost marks of the unit go, and a unit lost meanwhile is
dropped. -/
def State.endDrop (s : State) (d : Dropped) : State :=
  let c := s.caps
  let c1 : Caps := { c with
    capgen := c.capgen + 2
    workStacks := if d.kind = 1 then c.workStacks &&& ~~~(1#12 <<< d.stack) else c.workStacks
    deadChans := if d.kind = 2 then KMap.put (32 * d.stack + d.chan) true c.deadChans else c.deadChans
    dropsPer := if d.kind = 1 then c.dropsPer else KMap.put d.stack (KMap.read 0 d.stack c.dropsPer + 1) c.dropsPer }
  let t := s.turner
  let s1 := { s with
    caps := c1
    turner := { t with
      state := 0, current := none, lost := t.lost.filter fun l => l.stack ≠ d.stack || !(d.kind = 1 || l = d) } }
  s1.nextDrop t.waitingDrops

/-- Ends the drop once every frame of it has been moved. -/
def State.settleDrop (s : State) : State :=
  match s.turner.current with
  | none => s
  | some d => if s.turner.state = 1 && s.turner.bounds.isEmpty && (s.framesFrom d s.turner.next).isEmpty then s.endDrop d else s

/-! ## Group steps (16 R397) -/

/-- Is the word that a suspended run has reached the `nloop` that follows its row's `nsync`? -/
def NbRun.atRowEnd (r : NbRun) : Bool :=
  r.state = 2 && match microAt r.prog r.ctr with
    | some (.nloop _) => true
    | _ => false

/-- 10 R261: runs that name a frame: one suspended at its row's end is ended MOVED. -/
def State.endMovedRuns (s : State) (f : Nat) : State :=
  s.rennets.foldl (fun s u =>
    match u.2.queue.find? fun r => r.atRowEnd && r.frames.contains f with
    | some r => { ({ s with cur := .rennet u.1 }).runEnd r 5 with cur := s.cur }
    | none => s) s

/-- 10 R261: does a run still under way name a frame, so that the step waits? -/
def State.runOn (s : State) (f : Nat) : Bool := s.rennets.any fun u => u.2.queue.any fun r => (r.state = 1 || r.state = 2) && r.frames.contains f

/-- The lines of the dropped unit in a code group; none of a frame given up meanwhile. -/
def State.movingLines (s : State) (d : Dropped) (f b : Nat) : List Nat :=
  if s.turner.released.contains f then []
  else ((List.range 8).map fun i => 2 ^ 14 * f + b + i).filter fun n => d.holds (s.locate (128 * n))

/-- 16 R397 steps 3 and 4: the lines of the dropped unit in a code group move: the departing slice keeps none of them, a line on a lost unit
is decoded, and a sector that cannot be is poisoned (R392), which counts as poison in DRAM (18 R428). -/
def State.moveGroup (s : State) (ns : List Nat) : State :=
  ns.foldl (fun s' n =>
    let bad := (List.range 4).filter fun k => s.undecodable (128 * n + 32 * k)
    let s1 := bad.foldl (fun s' k => (s'.poisonCopy (4 * n + k)).countUncorrectable (s.locate (128 * n))) s'
    let s2 := if s.isLost (s.locate (128 * n)) then
        { s1 with mem := ((List.range 4).filter fun k => !bad.contains k).foldl (fun m k => putBytes m (128 * n + 32 * k) (s.copyBytes (128 * n + 32 * k) 32)) s1.mem }
      else s1
    s2.dropL2 (128 * n)) s

/-- 16 R395: the spare slots of an entry of a frame that is given up are used no more. -/
def State.dropSpares (s : State) (e : IlvEntry) : State :=
  { s with turner := { s.turner with
      spareUsed := ((s.classOf e.cls).zip e.slots).foldl (fun m x => KMap.del (2 ^ 18 * x.1 + x.2) m) s.turner.spareUsed } }

/-- 16 R396, R397: one group of a frame in flight is stepped; at 16,384 the frame's new entry replaces the old and its register is
free. The dirty sectors of the moved lines go on to their new home slices. -/
def State.stepGroup (s : State) (d : Dropped) (i : Nat) (x : Bound) : State :=
  let ns := s.movingLines d x.frame x.b
  let sent := ns.filterMap s.l2Line
  let s1 := s.moveGroup ns
  let b := x.b + 8
  let s2 : State :=
    if b < 16384 then { s1 with turner := { s1.turner with bounds := KMap.put i { x with b := b } s1.turner.bounds } }
    else
      let s1 := if d.kind = 1 && s1.turner.released.contains x.frame then (s1.dropSpares x.newEntry).bumpCap else s1
      let t := s1.turner
      ({ s1 with turner := { t with
          bounds := KMap.del i t.bounds, doneN := t.doneN + 1
          entries := if d.kind = 1 then KMap.put x.frame x.newEntry t.entries else t.entries } }).settleDrop
  sent.foldl State.enterL2 s2

/-- The event TURNER_GROUP_STEP (16 R397): boundary register `i` advances by one group, after the frames that come next have entered
free registers; a step waits for a run that names its frame. -/
def execTurnerGroupStep (i : Nat) (s : State) : Host.Outcome State Fault Refusal :=
  match s.turner.current with
  | none => .next s
  | some d =>
    let s1 := s.enterFrames
    match KMap.find i s1.turner.bounds with
    | none => .next s1.settleDrop
    | some x =>
      let s2 := s1.endMovedRuns x.frame
      .next (if s2.runOn x.frame then s2 else s2.stepGroup d i x)

/-- The event FRMREL_WRITE (16 R395, R400, 01 R14): a visible frame that is neither mirrored nor in any TLB is given up: its slots become
spare, the capacity falls, and a Turner that waits for frames goes on. A frame in flight keeps its boundary register, which group steps bring
to its end (16 R404). -/
def execFrmrelWrite (v : BitVec 32) (s : State) : Host.Outcome State Fault Refusal :=
  let f := (v.extractLsb' 0 19).toNat
  let maps (e : TlbEntry) : Bool := !e.leaf.host && e.leaf.dev = s.links.devnum.toNat && decide (e.leaf.pa / 2 ^ 21 ≤ f) &&
    decide (f ≤ (e.leaf.pa + 2 ^ e.leaf.bits - 1) / 2 ^ 21)
  let mapped := (s.cores.any fun c => c.2.tlb.any maps) || s.l2tlb.any fun t => t.2.any maps
  if f < s.caps.mirframes || f ≥ s.caps.visframes + s.turner.released.length || s.turner.released.contains f || mapped then .next s
  else
    let s := s.dropSpares (s.entryOf f)
    .next { s with
      turner := { s.turner with
        released := s.turner.released ++ [f], need := s.turner.need - 1, state := if s.turner.state = 2 then 1 else s.turner.state }
      caps := { s.caps with visframes := s.caps.visframes - 1, capgen := s.caps.capgen + 2 } }

end Sys2Proof.Machine
end

