-- ==== Sys2Proof/Machine/Start.lean ====
section
/-! DEFINITION. Start, resets, the Polgily mailbox and failures of units (19 R450 to R454, 15 R379, 01 R10, R22, R26). -/

namespace Sys2Proof.Machine

/-! ## Teams and clusters that are lost (15 R379) -/

/-- 13 R337, 15 R379: a core's Ladle queues, landings and held counts, and its kick register are emptied; a share in flight goes back. -/
def State.emptyCore (s : State) (k : Nat) : State :=
  let c := s.coreAt k
  let pulls := (c.ladle.flatMap fun q => q.2.filterMap fun op => match op with | .pull n .. => some n | _ => none) ++ c.kick.toList
  let s1 := pulls.foldl (fun s n => s.returnShare (n.field 0x18 3)) { s with casts := s.casts.filter fun l => l.core ≠ k }
  s1.onCore k fun y => { y with ladle := [], counts := [], kick := none, press := { sub := y.press.sub } }

/-- 15 R379: a team ends without R378: its streams and what they still had queued go, its tokens are stranded, its core is free. At a
partition reset its Ladle and kick register are emptied (13 R337). -/
def State.loseTeam (s : State) (reset : Bool) (t : Nat) : State :=
  if (s.tm t).res = .ended then s
  else
    let p := (s.tm t).part
    let gs := s.teamStreams t
    let s1 := gs.foldl State.endStream s
    let s2 := (s1.joins.filter fun j => gs.contains j.g).foldl State.dropJoin { s1 with residuals := s1.residuals.filter fun r => r.2.team ≠ t }
    let s3 : State := match (s.tm t).core with
      | some k => (if reset then s2.emptyCore k else s2.onCore k fun y => { y with press := { sub := y.press.sub } }).freeCore t
      | none => s2
    ((s3.loseHolder t p).freeSlots t).onTm t fun y => { y with res := .ended, shares := [], bins := [], held := [] }

/-- 15 R379: a cluster that has not ended is lost with its teams. -/
def State.loseCluster (s : State) (reset : Bool) (c : Nat) : State :=
  let x := s.cl c
  if x.res = .ended then s
  else
    let s1 := x.members.foldl (fun s t => s.loseTeam reset t) s
    let s2 := x.members.foldl State.freeCore s1
    (s2.loseHolder c x.part).onCl c fun y => { y with res := .ended, shares := [], chk := (x.members.map fun t => (s2.tm t).chk).foldl (fun a b => a ||| b) y.chk }

/-- 14 R345: the end of a cluster is entered in its task's record, with the status and the team that failed. -/
def State.enterEnd (s : State) (c status : Nat) (failTeam : Word) : State :=
  let x := s.cl c
  let t := s.taskAt x.part x.task
  s.setTask x.part x.task { t with
    endedN := t.endedN + 1, chk := t.chk ||| x.chk, cor := min 255 (t.cor + x.cor)
    status := firstStatus t.status status, failTeam := if t.failTeam = 0 then failTeam else t.failTeam }

/-- 14 R345: a cluster has ended: its task's record is told, and the task completes if it was the last. -/
def State.recordEnd (s : State) (c status : Nat) (failTeam : Word) : State :=
  let x := s.cl c
  (s.enterEnd c status failTeam).tryCompleteTask x.part x.task

/-- 01 R10: the device is failed, and the Polgily controller reports it in its mailbox (log entry 51). -/
def State.failDevice (s : State) : State := { s with failed := true, mail := { s.mail with state := 3, reason := Config.failReason } }

/-- 01 R26: a die with fewer than eight enabled cores fails the device. -/
def State.checkDies (s : State) : State :=
  if (List.range 3).any fun d => decide ((s.cores.filter fun c => c.1 / 128 = d && c.2.on).length < 8) then s.failDevice else s

/-- The event CORE_FAILURE (15 R379, 01 R26): the cluster that holds the core ends with CTXLOST, and the core is enabled no more. -/
def execCoreFailure (core : Nat) (s : State) : Host.Outcome State Fault Refusal :=
  match KMap.find core s.cores with
  | none => .next s
  | some k =>
    let s1 : State := match k.team with
      | none => s
      | some t =>
        let c := (s.tm t).cluster
        let id := s.teamId t
        if (s.cl c).res = .ended then s else (s.loseCluster false c).recordEnd c 4 id
    let s1 := s1.emptyCore core
    let s2 := { s1 with cores := KMap.del core s1.cores, caps := { s1.caps with capgen := s1.caps.capgen + 2 } }
    .next s2.checkDies

/-! ## Partition reset (19 R452) -/

/-- 19 R452 step 3: performs what the exited groups of a partition still have queued. -/
def State.drainResiduals (s : State) (p : Nat) : State :=
  (s.residuals.filter fun r => (s.tm r.2.team).part = p).foldl (fun s r =>
    r.2.storeq.foldl (fun s o => (s.asGone r.1 fun s => s.performAll r.1 o (o.accs.filter fun a => !a.sent)).1) s) s

/-- 19 R452 step 4: the runs of a partition's teams end. -/
def State.endRuns (s : State) (p : Nat) : State :=
  { s with rennets := s.rennets.map fun (u : Nat × Rennet) => (u.1, { u.2 with queue := u.2.queue.filter fun r => (s.tm r.team).part ≠ p }) }.settleJoins

/-- 14 R353: the RESET completion of a task whose record can be written, whatever it had recorded. -/
def State.resetTask (s : State) (p : Nat) (t : Task) : State :=
  let compl := recField t.record 0x30 8
  match s.writeVirtual (hostWho 0 p) compl ({ t with status := 8 } : Task).completion with
  | some s1 => s1.countHost (hostWho 0 p) compl 64 .write
  | none => s

/-- What a partition keeps at its reset: the serial numbers go on (15 R363), and its range of token ids is what the host wrote (15 R381). -/
def Partition.afterReset (p : Partition) : Partition := { serial := p.serial, ptokfirst := p.ptokfirst, ptokcount := p.ptokcount }

/-- 19 R452: a partition reset. The queued stores of step 3 are performed while their holders stand (log entry 37). The ended clusters are
told in their tasks' records (14 R345). -/
def State.resetPartition (s : State) (p : Nat) : State :=
  let ts := (s.teams.filter fun t => t.2.part = p && t.2.res ≠ .ended).map Prod.fst
  let cs := (s.clusters.filter fun c => c.2.part = p && c.2.res ≠ .ended).map Prod.fst
  let s1 := ((ts.flatMap s.teamStreams).foldl State.drainStream s).drainResiduals p
  let s2 := cs.foldl (fun s c => (s.loseCluster true c).enterEnd c 1 0) s1
  let s3 := (ts.foldl (fun s t => s.loseTeam true t) s2).endRuns p
  let s3 := if s3.l2priv then s3.writeBackWays (s3.partAt p).pwaymask else s3
  let s4 := (s3.partAt p).tasks.foldl (fun s t => (s.resetTask p t.2).putTask p t.1) s3
  { s4 with
    queues := s4.queues.map fun q => if q.2.assignV && q.2.part.toNat = p then (q.1, { assignV := true, part := q.2.part }) else q
    landing := s4.landing.map fun w => if w.2.part.toNat = p then (w.1, { w.2 with en := false, held := none, waiting := [] }) else w
    parts := KMap.put p (s4.partAt p).afterReset s4.parts }

/-- The event PARTITION_RESET (19 R452): a write of PRSTCTL. -/
def execPartitionReset (p : Nat) (s : State) : Host.Outcome State Fault Refusal :=
  .next (if s.stage = 0 || decide (p ≥ 8) then s else s.resetPartition p)

/-- The event FUNCTION_LEVEL_RESET (19 R452). -/
def execFunctionLevelReset (p : Nat) (s : State) : Host.Outcome State Fault Refusal :=
  .next (if decide (p ≥ 8) then s else s.resetPartition p)

/-! ## Start (19 R450, 01 R13, R475) -/

/-- 01 R475: the capability list of a part with some working stacks. Of fewer than nine, with which the device stays in stage 0, R475 gives
no figures: the model's are no spare slot and no visible frame (log entry 51). -/
def capsFor (working : BitVec 12) : Caps :=
  let n := (workingList working).length
  if n < 9 then { workStacks := working, built := working, visframes := 0, mirframes := 0, sparebase := 262144 }
  else { workStacks := working, built := working, sparebase := spareBase n, visframes := builtFrames n - 397, mirframes := 2 * (Config.booted working).mirrorPairs }

/-- 01 R475, 16 R394: a channel or bank that does not work at cold reset is dropped at once: every slot of its stack is relocated. That a
stack with more than two of them makes a third drop, and that a frame stays where spare runs out, is the model's choice (log entry 71). -/
def State.dropNow (s : State) (d : Dropped) : State :=
  let s1 := { s with turner := { s.turner with current := some d, drops := s.turner.drops ++ [d] } }
  ((s1.framesFrom d 0).foldl (fun s f => (s.relocateFrame d (s.entryOf f)).getD s) s1).endDrop d

/-- The units of this part that do not work at cold reset, on the stacks that do (01 R475). -/
def deadAt (working : BitVec 12) : List Dropped :=
  (Config.deadUnits.map fun d => ({ kind := d.1, stack := d.2.1, chan := d.2.2.1, pc := d.2.2.2.1, bg := d.2.2.2.2.1, bank := d.2.2.2.2.2 } : Dropped)).filter
    fun d => (d.kind = 2 || d.kind = 3) && decide (d.stack < 12) && working.getLsbD d.stack

/-- The event COLD_RESET (19 R450): the machine as at power-good, with the stacks that work and the units of them that do not (01 R475). The
repairs used in a part stay used (16 R401), and what lies outside the device stays. With fewer than nine stacks it stays in stage 0, and
the mailbox reports a memory failure. -/
def execColdReset (working : BitVec 12) (s : State) : Host.Outcome State Fault Refusal :=
  let n := (workingList working).length
  let r := (deadAt working).foldl State.dropNow { State.reset with caps := capsFor working }
  .next { State.reset with
    agenda := s.agenda, free := s.free, now := s.now, hostMem := s.hostMem, hostBad := s.hostBad, msix := s.msix, answers := s.answers
    turner := r.turner, ppr := { used := s.ppr.used }, caps := { r.caps with capgen := 0 }
    mail := if n < 9 then { state := 3, reason := 2 } else {} }

/-- 01 R15, R26: the cores of this part: positions with at least 64 lane pipes and all four sub-arrays. -/
def partCores : List Nat := (List.range 384).filter fun k => decide (Config.corePipes k ≥ 64) && Config.subArraysOk k

/-- 19 R450: the cores that start stage 1 enables: the first eight of each die (log entry 35). -/
def stage1Cores : List Nat := (List.range 3).flatMap fun d => (partCores.filter fun k => k / 128 = d).take 8

/-- The event STAGE1_REACHED (19 R450). -/
def execStage1Reached (s : State) : Host.Outcome State Fault Refusal :=
  if s.stage ≠ 0 || s.mail.reason ≠ 0 then .next s
  else
    let s1 := { s with
      stage := 1
      cores := partCores.map fun k => (k, ({ pipes := Config.corePipes k, on := stage1Cores.contains k } : Core))
      caps := { s.caps with capgen := s.caps.capgen + 2, clocks := [1200, 1200, 1200] } }
    .next s1.checkDies

/-- The event STAGE2_REACHED (19 R450): every good core at 2.4 GHz, the Brusher enabled, the links trained where LNKCFG enables them.
Nothing stops. -/
def execStage2Reached (s : State) : Host.Outcome State Fault Refusal :=
  if s.stage ≠ 1 then .next s
  else
    let s1 := { s with
      stage := 2
      cores := s.cores.map fun c => (c.1, { c.2 with on := true })
      ras := { s.ras with brushEn := true }
      caps := { s.caps with capgen := s.caps.capgen + 2, clocks := [2400, 2400, 2400] } }
    .next (if s.links.en then s1.trainLinks else s1)

/-- What a core keeps at a warm reset: what its Changed-by tables say no warm reset changes (04 R109, 18 R440). -/
def Core.afterWarm (c : Core) : Core :=
  { pipes := c.pipes, tlb := c.tlb, pressgate := c.pressgate, cycle := c.cycle, pmc := c.pmc, pmsel := c.pmsel, freeze := c.freeze, smpctl := c.smpctl, smpbase := c.smpbase
    smplen := c.smplen, smphead := c.smphead, smptail := c.smptail, smpdrop := c.smpdrop, sampled := c.sampled }

/-- 19 R451: what a warm reset leaves: memory, the tables and boundaries of the Turner, the repairs, and what is no register; and every
register that the Changed-by table of its chapter lets cold reset change but not warm reset (00 R1: 04 R109, 14 R357, 15 R381, 16 R404, 18 R440; log
entry 54). Every other register is at its reset value, and the device is in stage 2. -/
def State.afterWarm (s : State) : State :=
  { State.reset with
    agenda := s.agenda, free := s.free, now := s.now, hostMem := s.hostMem, hostBad := s.hostBad, msix := s.msix, answers := s.answers
    mem := s.mem, poison := s.poison, check := s.check, checkBad := s.checkBad, failed := s.failed, stage := 2
    l2priv := s.l2priv, heldL2 := s.heldL2, l2tlb := s.l2tlb, tokbase := s.tokbase, tokn := s.tokn, queues := s.queues
    cores := s.cores.map fun c => (c.1, c.2.afterWarm)
    parts := s.parts.map fun p => (p.1, p.2.afterReset)
    turner := { s.turner with refused := false, tblsel := 0 }
    ppr := { used := s.ppr.used }
    caps := { s.caps with capgen := s.caps.capgen + 2, clocks := [2400, 2400, 2400] }
    ras := s.ras
    mail := { reports := s.mail.reports } }

/-- The event WARM_RESET (19 R451): every partition is reset as R452 states, then the rest. -/
def execWarmReset (s : State) : Host.Outcome State Fault Refusal :=
  .next (if s.stage = 0 then s else (((List.range 8).foldl State.resetPartition s).flushL2 true).afterWarm)

/-! ## The mailbox (19 R453, R454) -/

/-- 19 R453: a write of PGCMD with a known OP; ignored while a command is busy, and REASON becomes 3. -/
def State.mailCommand (s : State) (op : Nat) : State :=
  if s.stage = 0 then s
  else if s.mail.state = 1 then { s with mail := { s.mail with reason := 3 } }
  else { s with mail := { s.mail with state := 1, op := op, reason := 0 } }

/-- The event PGCMD_ATTEST (19 R454). -/
def execPgcmdAttest (s : State) : Host.Outcome State Fault Refusal := .next (s.mailCommand 1)

/-- The event PGCMD_OPEN_SESSION (19 R454). -/
def execPgcmdOpenSession (s : State) : Host.Outcome State Fault Refusal := .next (s.mailCommand 2)

/-- The event PGCMD_CLOSE_SESSION (19 R454). -/
def execPgcmdCloseSession (s : State) : Host.Outcome State Fault Refusal := .next (s.mailCommand 3)

/-- The event PGCMD_LOAD_FIRMWARE (19 R454). -/
def execPgcmdLoadFirmware (s : State) : Host.Outcome State Fault Refusal := .next (s.mailCommand 4)

/-- The event PGCMD_UNKNOWN (19 R453): refused with REASON 4. -/
def execPgcmdUnknown (op : BitVec 8) (s : State) : Host.Outcome State Fault Refusal :=
  if s.stage = 0 || (1 ≤ op.toNat && op.toNat ≤ 4) then .next s
  else if s.mail.state = 1 then .next { s with mail := { s.mail with reason := 3 } }
  else .next { s with mail := { s.mail with state := 3, reason := 4 } }

/-- 19 R454: the effect of a command that the controller carries out: a signed report in PGBUF, a session key opened or erased; an
accepted firmware image. -/
def State.mailEffect (s : State) : State :=
  match s.mail.op with
  | 1 =>
    let n := s.mail.reports
    { s with mail := { s.mail with
        reports := n + 1, buf := (List.range 4096).foldl (fun m i => KMap.write 0 i (Config.report n i) m) [] } }
  | 2 => { s with mail := { s.mail with session := true } }
  | 3 => { s with mail := { s.mail with session := false } }
  | _ => s

/-- The event POLGILY_COMMAND_DONE (19 R453): the busy command is done, or refused with a reason. -/
def execPolgilyCommandDone (ok : Bool) (reason : BitVec 16) (s : State) : Host.Outcome State Fault Refusal :=
  if s.mail.state ≠ 1 then .next s
  else if ok then
    let s1 := s.mailEffect
    .next { s1 with mail := { s1.mail with state := 2, reason := 0 } }
  else .next { s with mail := { s.mail with state := 3, reason := reason } }

/-! ## Bridges and power (01 R10, R22) -/

/-- The event BRIDGE_LANE_FAILURE (01 R10): the rate falls; with every lane lost the device is failed. -/
def execBridgeLaneFailure (bridge rate : Nat) (s : State) : Host.Outcome State Fault Refusal :=
  match s.caps.rates[bridge]? with
  | none => .next s
  | some r =>
    let s1 := { s with caps := { s.caps with rates := s.caps.rates.set bridge (min r rate), capgen := s.caps.capgen + 2 } }
    .next (if min r rate = 0 then s1.failDevice else s1)

/-- The event POWER_LIMIT (01 R22): a die's clock is lowered; no unit stops. -/
def execPowerLimit (die mhz : Nat) (s : State) : Host.Outcome State Fault Refusal :=
  match s.caps.clocks[die]? with
  | none => .next s
  | some c =>
    .next (if mhz < c then { s with caps := { s.caps with clocks := s.caps.clocks.set die mhz, capgen := s.caps.capgen + 2 } } else s)

end Sys2Proof.Machine
end

