-- ==== Sys2Proof/Machine/Windows.lean ====
section
/-! DEFINITION. The ports (19 R442 to R444, 17 R420): window B, landing windows and their counts; and the stall sampler (18 R436 to
R438). -/

namespace Sys2Proof.Machine

/-! ## Window B (19 R442) -/

/-- An answer to a request from outside. -/
def State.answer (s : State) (a : Answer) : State := { s with answers := a :: s.answers }

/-- 19 R442: is there a function of partition `p` on a port: the host port's, or the peer port's when it serves a host? None answers
before start stage 1 (R450). -/
def State.hasFunction (s : State) (port p : Nat) : Bool := s.stage ≠ 0 && decide (p < 8) && (port = 0 || (port = 1 && s.caps.peerHost))

/-- 19 R442: the record of kind 6 that a fault of window B posts. -/
def State.windowFault (s : State) (p va : Nat) : State := s.post p { kind := 6, xaddr := BitVec.ofNat 64 va }

/-- The poison of a write from outside: it is marked above the bytes of its data (09 R236, log entry 42). -/
def isPoisoned (n data : Nat) : Bool := data.testBit (8 * n)

/-- The event WINDOW_B_READ (19 R442): a fault completes with Unsupported Request and posts kind 6. A read that meets a near-bank segment
waits (10 R261). -/
def execWindowBRead (port p o n : Nat) (s : State) : Host.Outcome State Fault Refusal :=
  if !s.hasFunction port p || decide (o + n > 2 ^ 36) then .next (s.answer .unsupported)
  else
    let va := (s.partAt p).pwinb.toNat + o
    let w := hostWho port p
    match s.readVirtual w va n with
    | .ok (bs, bad) => .next (if s.rangeBusy w va n .read then s else (s.touchRange w va n).answer (.data n (natOfBytes bs) bad))
    | .error _ => .next ((s.answer .unsupported).windowFault p va)

/-- The event WINDOW_B_WRITE (19 R442): a write that faults is dropped and posts kind 6. A write that meets a near-bank segment waits (10
R261). -/
def execWindowBWrite (port p o n data : Nat) (s : State) : Host.Outcome State Fault Refusal :=
  if !s.hasFunction port p || decide (o + n > 2 ^ 36) then .next s
  else
    let va := (s.partAt p).pwinb.toNat + o
    let w := hostWho port p
    match s.writeVirtual w va (bytesOfNat n data) with
    | some s1 =>
      let s2 := s1.countHost w va n .write
      .next (if s.rangeBusy w va n .write then s else if isPoisoned n data then s2.poisonRange w va n else s2)
    | none => .next (s.windowFault p va)

/-! ## Landing windows (19 R443, R444) -/

/-- A landing window. -/
def State.window (s : State) (w : Nat) : Landing := KMap.read {} w s.landing

/-- Changes a landing window. -/
def State.onWindow (s : State) (w : Nat) (f : Landing → Landing) : State := { s with landing := KMap.put w (f (s.window w)) s.landing }

/-- 19 R444: does an enabled window hold a write of `n` bytes at an offset of the aperture? -/
def Landing.takes (x : Landing) (o n : Nat) : Bool :=
  x.en && decide (65536 * x.off.toNat ≤ o) && decide (o + n ≤ 65536 * (x.off.toNat + x.len.toNat)) && decide (0 < n)

/-- 19 R444, 17 R419, R420, R421: counts a write of `n` bytes on the window's object; a refused count is held. -/
def State.landingCount (s : State) (w n : Nat) : State :=
  let x := s.window w
  let c := x.cluster.toNat
  let live := isClusterId c && match KMap.find c s.clusters with | some y => y.res ≠ .ended | none => false
  if !live then s.onWindow w fun y => { y with ended := true, held := none }
  else
    let y := s.cl c
    match y.members[x.m.toNat]? with
    | none => s.onWindow w fun y => { y with noobj := true, held := none }
    | some t =>
      let o := x.obj.toNat
      if o % 32 ≠ 0 || o ≥ (s.tm t).spad then s.onWindow w fun y => { y with noobj := true, held := none }
      else
        match s.arriveAt t o 0 n 0 (some (.window w)) with
        | none => s.onWindow w fun y => { y with noobj := true, held := none }
        | some (2, s1) => s1.onWindow w fun y => { y with held := some n }
        | some (_, s1) => s1.onWindow w fun y => { y with held := none, bytes := y.bytes + BitVec.ofNat 32 n }

/-- 19 R444: a landing write of a window is performed under its holder and then counted; a fault drops it and counts nothing. -/
def State.land (s : State) (w o n data : Nat) : State :=
  let x := s.window w
  let va := x.base.toNat + (o - 65536 * x.off.toNat)
  let who : Who := { part := x.part.toNat, holders := [windowHolder w], kernel := true }
  match s.writeVirtual who va (bytesOfNat n data) with
  | none => s.onWindow w fun y => { y with fault := true }
  | some s1 =>
    let s2 := s1.countHost who va n .write
    (if isPoisoned n data then s2.poisonRange who va n else s2).landingCount w n

/-- Does a landing write meet a near-bank segment, so that it waits (10 R261)? -/
def State.landBusy (s : State) (w o n : Nat) : Bool :=
  let x := s.window w
  s.rangeBusy { part := x.part.toNat, holders := [windowHolder w], kernel := true } (x.base.toNat + (o - 65536 * x.off.toNat)) n .write

/-- The event LANDING_WRITE (19 R444): the lowest enabled window that holds the write takes it; behind a held count it waits (17 R420);
one that no window holds is dropped and counted in LWMISS. -/
def execLandingWrite (o n data : Nat) (s : State) : Host.Outcome State Fault Refusal :=
  match (List.range 256).find? fun w => (s.window w).takes o n with
  | none => .next { s with lwmiss := s.lwmiss + 1 }
  | some w =>
    if (s.window w).held.isSome then .next (s.onWindow w fun y => { y with waiting := y.waiting ++ [(o, n, data)] })
    else .next (if s.landBusy w o n then s else s.land w o n data)

/-- The event APERTURE_NONPOSTED (19 R444): Unsupported Request. -/
def execApertureNonposted (_o : Nat) (s : State) : Host.Outcome State Fault Refusal := .next (s.answer .unsupported)

/-- 17 R420: the writes that waited behind a held count are performed in posted order, until one is held again. -/
def State.landWaiting (s : State) (w : Nat) : List (Nat × Nat × Nat) → State
  | [] => s.onWindow w fun y => { y with waiting := [] }
  | (o, n, d) :: rest =>
    if (s.window w).held.isSome then s.onWindow w fun y => { y with waiting := (o, n, d) :: rest }
    else (s.land w o n d).landWaiting w rest

/-- The event LANDING_COUNT_RETRY (17 R420): the held count is tried again; when it is over, the writes behind it go on. It waits while one of
them would meet a near-bank segment (10 R261). -/
def execLandingCountRetry (w : Nat) (s : State) : Host.Outcome State Fault Refusal :=
  match (s.window w).held with
  | none => .next s
  | some n =>
    let s1 := s.landingCount w n
    .next (if (s.window w).waiting.any fun e => s.landBusy w e.1 e.2.1 then s else if (s1.window w).held.isSome then s1 else s1.landWaiting w (s1.window w).waiting)

/-! ## The sampler (18 R436 to R438) -/

/-- 18 R437: the reason of the scalar stream. -/
def Group.sreason (x : Group) : Nat := if x.halted then 13 else x.stall

/-- 18 R437: the reason of the lane stream; the lowest where several hold. -/
def Group.lreason (x : Group) : Nat :=
  if x.isSeq then 14
  else if x.run.isNone && x.queue.isEmpty then (if x.laneStopped then 13 else 14)
  else if x.run.isNone then
    let ready := match x.queue with
      | e :: _ => (List.range 12).all fun f => !e.hdr.wait.getLsbD f || x.started f = 0
      | [] => false
    if ready then (if x.laneStopped then 13 else 1) else 4
  else if x.laneStopped then min 13 (if x.lstall = 0 then 13 else x.lstall)
  else x.lstall

/-- 18 R436: the scratchpad address of the object that a stream waits on under reason 6, in its own allocation or the cluster window. -/
def State.awaited (s : State) (g : Nat) : Nat :=
  match (s.grp g).wait with
  | some w => if (s.grp g).stall ≠ 6 then 0 else if w.team = keyTeam g then w.obj else 0x0100_0000 + 2 ^ 20 * (s.tm w.team).member + w.obj
  | none => 0

/-- 18 R436: a sample record. -/
def State.sampleRecord (s : State) (core g : Nat) : List Byte :=
  let x := s.grp g
  let fl := ((List.range 12).filter fun i => x.flag i ≠ 0).foldl (fun m i => m + 2 ^ i) 0
  let lpc := match x.path with | some p => p.lpc.toNat | none => 0
  bytesOfNat 8 (s.coreAt core).cycle.toNat ++ bytesOfNat 8 x.pc.toNat ++ bytesOfNat 8 lpc ++ bytesOfNat 8 (s.teamId (keyTeam g)).toNat ++
  bytesOfNat 1 (keyGrp g) ++ bytesOfNat 1 x.sreason ++ bytesOfNat 1 x.lreason ++
  bytesOfNat 1 ((if x.kernel then 1 else 0) + if x.inTry then 2 else 0) ++ bytesOfNat 2 x.live.toNat ++ bytesOfNat 2 fl ++
  bytesOfNat 1 x.queue.length ++ bytesOfNat 1 x.stack.length ++ bytesOfNat 6 0 ++ bytesOfNat 8 (s.awaited g) ++ bytesOfNat 8 0

/-- 18 R436: the stream sampled next: in ascending group number from the one after the last, the sequencer stream as 64. -/
def State.nextSample (s : State) (core t : Nat) : Option Nat :=
  let gs := s.teamStreams t
  let last := (s.coreAt core).sampled
  match gs.find? fun g => keyGrp g > last with
  | some g => some g
  | none => gs.head?

/-- The event SAMPLE (18 R436 to R438): at a multiple of PERIOD, of at least 256 cycles, one record is written with kernel rights; one that finds the
ring full, or whose store faults, is dropped and counted. Nothing is sampled while no team is resident, or while the team is in a
handler with FREEZE set. -/
def execSample (core : Nat) (s : State) : Host.Outcome State Fault Refusal :=
  let c := s.coreAt core
  match c.team with
  | none => .next s
  | some t =>
    let period := max 256 (c.smpctl.toNat % 2 ^ 32)
    let handler := c.freeze && (s.teamStreams t).any fun g => (s.grp g).kernel
    if !c.smpctl.getLsbD 32 || handler || c.cycle.toNat % period ≠ 0 then .next s
    else
      match s.nextSample core t with
      | none => .next s
      | some g =>
        let size := 2 ^ (if 4 ≤ c.smplen ∧ c.smplen ≤ 16 then c.smplen else 4)
        let head := c.smphead % size
        let s0 := s.onCore core fun y => { y with sampled := keyGrp g }
        let dropped := s0.onCore core fun y => { y with smpdrop := if y.smpdrop = BitVec.allOnes 32 then y.smpdrop else y.smpdrop + 1 }
        if (head + 1) % size = c.smptail % size then .next dropped
        else
          if s.rangeBusy (s.whoIs g true) (c.smpbase.toNat + 64 * head) 64 .write then .next s
          else match s0.writeVirtual (s.whoIs g true) (c.smpbase.toNat + 64 * head) (s.sampleRecord core g) with
          | some s1 =>
            .next ((s1.countHost (s.whoIs g true) (c.smpbase.toNat + 64 * head) 64 .write).onCore core fun y => { y with smphead := (head + 1) % size })
          | none => .next dropped

end Sys2Proof.Machine
end

