-- ==== Sys2Proof/Machine/Dispatch.lean ====
section
/-! DEFINITION. The one match from an instruction to its meaning. -/

namespace Sys2Proof.Machine

/-- The meaning of every instruction, micro-operation and event. -/
def exec (i : Instr) (s : State) : Host.Outcome State Fault Refusal :=
  match i with
  | .add b a d => Sys2Proof.Machine.execAdd b a d s
  | .sub b a d => Sys2Proof.Machine.execSub b a d s
  | .mul b a d => Sys2Proof.Machine.execMul b a d s
  | .mulh b a d => Sys2Proof.Machine.execMulh b a d s
  | .mulhu b a d => Sys2Proof.Machine.execMulhu b a d s
  | .div b a d => Sys2Proof.Machine.execDiv b a d s
  | .divu b a d => Sys2Proof.Machine.execDivu b a d s
  | .rem b a d => Sys2Proof.Machine.execRem b a d s
  | .remu b a d => Sys2Proof.Machine.execRemu b a d s
  | .and b a d => Sys2Proof.Machine.execAnd b a d s
  | .or b a d => Sys2Proof.Machine.execOr b a d s
  | .xor b a d => Sys2Proof.Machine.execXor b a d s
  | .andn b a d => Sys2Proof.Machine.execAndn b a d s
  | .shl b a d => Sys2Proof.Machine.execShl b a d s
  | .shr b a d => Sys2Proof.Machine.execShr b a d s
  | .sra b a d => Sys2Proof.Machine.execSra b a d s
  | .min b a d => Sys2Proof.Machine.execMin b a d s
  | .minu b a d => Sys2Proof.Machine.execMinu b a d s
  | .max b a d => Sys2Proof.Machine.execMax b a d s
  | .maxu b a d => Sys2Proof.Machine.execMaxu b a d s
  | .slt b a d => Sys2Proof.Machine.execSlt b a d s
  | .sltu b a d => Sys2Proof.Machine.execSltu b a d s
  | .seq b a d => Sys2Proof.Machine.execSeq b a d s
  | .clz a d => Sys2Proof.Machine.execClz a d s
  | .ctz a d => Sys2Proof.Machine.execCtz a d s
  | .popc a d => Sys2Proof.Machine.execPopc a d s
  | .bfx b a d => Sys2Proof.Machine.execBfx b a d s
  | .bfi b a d => Sys2Proof.Machine.execBfi b a d s
  | .addi n1 a d => Sys2Proof.Machine.execAddi n1 a d s
  | .andi n1 a d => Sys2Proof.Machine.execAndi n1 a d s
  | .ori n1 a d => Sys2Proof.Machine.execOri n1 a d s
  | .xori n1 a d => Sys2Proof.Machine.execXori n1 a d s
  | .shli n1 a d => Sys2Proof.Machine.execShli n1 a d s
  | .shri n1 a d => Sys2Proof.Machine.execShri n1 a d s
  | .srai n1 a d => Sys2Proof.Machine.execSrai n1 a d s
  | .slti n1 a d => Sys2Proof.Machine.execSlti n1 a d s
  | .sltiu n1 a d => Sys2Proof.Machine.execSltiu n1 a d s
  | .lui n1 d => Sys2Proof.Machine.execLui n1 d s
  | .pcaddi n1 d => Sys2Proof.Machine.execPcaddi n1 d s
  | .beq n1 b a => Sys2Proof.Machine.execBeq n1 b a s
  | .bne n1 b a => Sys2Proof.Machine.execBne n1 b a s
  | .blt n1 b a => Sys2Proof.Machine.execBlt n1 b a s
  | .bge n1 b a => Sys2Proof.Machine.execBge n1 b a s
  | .bltu n1 b a => Sys2Proof.Machine.execBltu n1 b a s
  | .bgeu n1 b a => Sys2Proof.Machine.execBgeu n1 b a s
  | .jal n1 d => Sys2Proof.Machine.execJal n1 d s
  | .jalr n1 a d => Sys2Proof.Machine.execJalr n1 a d s
  | .ld o h x z a d => Sys2Proof.Machine.execLd o h x z a d s
  | .st o h z a s1 => Sys2Proof.Machine.execSt o h z a s1 s
  | .lds o x z a d => Sys2Proof.Machine.execLds o x z a d s
  | .sts o z a s1 => Sys2Proof.Machine.execSts o z a s1 s
  | .amo o x z p b a d => Sys2Proof.Machine.execAmo o x z p b a d s
  | .pfetch o h a => Sys2Proof.Machine.execPfetch o h a s
  | .clause n1 a => Sys2Proof.Machine.execClause n1 a s
  | .waitf m => Sys2Proof.Machine.execWaitf m s
  | .testf m d => Sys2Proof.Machine.execTestf m d s
  | .binit k b a c => Sys2Proof.Machine.execBinit k b a c s
  | .arrive e a d => Sys2Proof.Machine.execArrive e a d s
  | .arriveb t b a d => Sys2Proof.Machine.execArriveb t b a d s
  | .waitph r t a d => Sys2Proof.Machine.execWaitph r t a d s
  | .testph t a d => Sys2Proof.Machine.execTestph t a d s
  | .bdrop w a d => Sys2Proof.Machine.execBdrop w a d s
  | .mbind b a => Sys2Proof.Machine.execMbind b a s
  | .tlend k b a d => Sys2Proof.Machine.execTlend k b a d s
  | .tret h a d => Sys2Proof.Machine.execTret h a d s
  | .tsplit a d => Sys2Proof.Machine.execTsplit a d s
  | .tjoin a d => Sys2Proof.Machine.execTjoin a d s
  | .tshare b a d => Sys2Proof.Machine.execTshare b a d s
  | .tquery x w a d => Sys2Proof.Machine.execTquery x w a d s
  | .treclaim c b a d => Sys2Proof.Machine.execTreclaim c b a d s
  | .tryStart n1 d => Sys2Proof.Machine.execTryStart n1 d s
  | .commit d => Sys2Proof.Machine.execCommit d s
  | .abort e => Sys2Proof.Machine.execAbort e s
  | .fence k s1 => Sys2Proof.Machine.execFence k s1 s
  | .qfence r p q => Sys2Proof.Machine.execQfence r p q s
  | .tsig e a d => Sys2Proof.Machine.execTsig e a d s
  | .tlaunch b a d => Sys2Proof.Machine.execTlaunch b a d s
  | .kick b a d => Sys2Proof.Machine.execKick b a d s
  | .ecall e => Sys2Proof.Machine.execEcall e s
  | .xret => Sys2Proof.Machine.execXret s
  | .getc c d => Sys2Proof.Machine.execGetc c d s
  | .setc c a => Sys2Proof.Machine.execSetc c a s
  | .chkerr d => Sys2Proof.Machine.execChkerr d s
  | .exit => Sys2Proof.Machine.execExit s
  | .nop => Sys2Proof.Machine.execNop s
  | .brk e => Sys2Proof.Machine.execBrk e s
  | .yield => Sys2Proof.Machine.execYield s
  | .pginvRange b a => Sys2Proof.Machine.execPginvRange b a s
  | .pginvToken a => Sys2Proof.Machine.execPginvToken a s
  | .pginvAll => Sys2Proof.Machine.execPginvAll s
  | .mma k c b a y x u z => Sys2Proof.Machine.execMma k c b a y x u z s
  | .mzero z => Sys2Proof.Machine.execMzero z s
  | .mdrain c a l z => Sys2Proof.Machine.execMdrain c a l z s
  | .mcheckMode a => Sys2Proof.Machine.execMcheckMode a s
  | .mcheckInject b a => Sys2Proof.Machine.execMcheckInject b a s
  | .mwake => Sys2Proof.Machine.execMwake s
  | .mstat l c a d => Sys2Proof.Machine.execMstat l c a d s
  | .nbload n b a d => Sys2Proof.Machine.execNbload n b a d s
  | .nbrun b a d => Sys2Proof.Machine.execNbrun b a d s
  | .nbpoll e a d => Sys2Proof.Machine.execNbpoll e a d s
  | .vadd f => Sys2Proof.Machine.execVadd f s
  | .vsub f => Sys2Proof.Machine.execVsub f s
  | .vmul f => Sys2Proof.Machine.execVmul f s
  | .vmulh f => Sys2Proof.Machine.execVmulh f s
  | .vmad f => Sys2Proof.Machine.execVmad f s
  | .vdiv f => Sys2Proof.Machine.execVdiv f s
  | .vrem f => Sys2Proof.Machine.execVrem f s
  | .vmin f => Sys2Proof.Machine.execVmin f s
  | .vmax f => Sys2Proof.Machine.execVmax f s
  | .vabs f => Sys2Proof.Machine.execVabs f s
  | .vabsdiff f => Sys2Proof.Machine.execVabsdiff f s
  | .vand f => Sys2Proof.Machine.execVand f s
  | .vor f => Sys2Proof.Machine.execVor f s
  | .vxor f => Sys2Proof.Machine.execVxor f s
  | .vnot f => Sys2Proof.Machine.execVnot f s
  | .vshl f => Sys2Proof.Machine.execVshl f s
  | .vshr f => Sys2Proof.Machine.execVshr f s
  | .vsra f => Sys2Proof.Machine.execVsra f s
  | .vrot f => Sys2Proof.Machine.execVrot f s
  | .vclz f => Sys2Proof.Machine.execVclz f s
  | .vpopc f => Sys2Proof.Machine.execVpopc f s
  | .vbfx f => Sys2Proof.Machine.execVbfx f s
  | .vbfi f => Sys2Proof.Machine.execVbfi f s
  | .vcmp f => Sys2Proof.Machine.execVcmp f s
  | .vsel f => Sys2Proof.Machine.execVsel f s
  | .vdp4 f => Sys2Proof.Machine.execVdp4 f s
  | .vfadd f => Sys2Proof.Machine.execVfadd f s
  | .vfmul f => Sys2Proof.Machine.execVfmul f s
  | .vffma f => Sys2Proof.Machine.execVffma f s
  | .vfmin f => Sys2Proof.Machine.execVfmin f s
  | .vfmax f => Sys2Proof.Machine.execVfmax f s
  | .vfcmp f => Sys2Proof.Machine.execVfcmp f s
  | .vfrcp f => Sys2Proof.Machine.execVfrcp f s
  | .vfrsq f => Sys2Proof.Machine.execVfrsq f s
  | .vfsqrt f => Sys2Proof.Machine.execVfsqrt f s
  | .vfexp2 f => Sys2Proof.Machine.execVfexp2 f s
  | .vflog2 f => Sys2Proof.Machine.execVflog2 f s
  | .vfsin f => Sys2Proof.Machine.execVfsin f s
  | .vfcos f => Sys2Proof.Machine.execVfcos f s
  | .vfdiv f => Sys2Proof.Machine.execVfdiv f s
  | .vfclass f => Sys2Proof.Machine.execVfclass f s
  | .vfdot2 f => Sys2Proof.Machine.execVfdot2 f s
  | .vfround f => Sys2Proof.Machine.execVfround f s
  | .vcvt f => Sys2Proof.Machine.execVcvt f s
  | .vpackbs f => Sys2Proof.Machine.execVpackbs f s
  | .vunpackbs f => Sys2Proof.Machine.execVunpackbs f s
  | .vmov f => Sys2Proof.Machine.execVmov f s
  | .vshfl f => Sys2Proof.Machine.execVshfl f s
  | .vvote f => Sys2Proof.Machine.execVvote f s
  | .vredsc f => Sys2Proof.Machine.execVredsc f s
  | .vprmt f => Sys2Proof.Machine.execVprmt f s
  | .vspec f => Sys2Proof.Machine.execVspec f s
  | .vbra f => Sys2Proof.Machine.execVbra f s
  | .vbrax f => Sys2Proof.Machine.execVbrax f s
  | .vmark f => Sys2Proof.Machine.execVmark f s
  | .vjoin f => Sys2Proof.Machine.execVjoin f s
  | .vcall f => Sys2Proof.Machine.execVcall f s
  | .vret f => Sys2Proof.Machine.execVret f s
  | .vexit f => Sys2Proof.Machine.execVexit f s
  | .vspawn f => Sys2Proof.Machine.execVspawn f s
  | .vkop f => Sys2Proof.Machine.execVkop f s
  | .vkmov f => Sys2Proof.Machine.execVkmov f s
  | .vld f => Sys2Proof.Machine.execVld f s
  | .vst f => Sys2Proof.Machine.execVst f s
  | .vlds f => Sys2Proof.Machine.execVlds f s
  | .vsts f => Sys2Proof.Machine.execVsts f s
  | .vldspec f => Sys2Proof.Machine.execVldspec f s
  | .vatom f => Sys2Proof.Machine.execVatom f s
  | .vred f => Sys2Proof.Machine.execVred f s
  | .vpf f => Sys2Proof.Machine.execVpf f s
  | .vcopyIn f => Sys2Proof.Machine.execVcopyIn f s
  | .vcopyOut f => Sys2Proof.Machine.execVcopyOut f s
  | .vcast f => Sys2Proof.Machine.execVcast f s
  | .vfence f => Sys2Proof.Machine.execVfence f s
  | .varrive f => Sys2Proof.Machine.execVarrive f s
  | .vlabort f => Sys2Proof.Machine.execVlabort f s
  | .nrow m => Sys2Proof.Machine.execNrow m s
  | .nld d k s1 => Sys2Proof.Machine.execNld d k s1 s
  | .nst a k s1 => Sys2Proof.Machine.execNst a k s1 s
  | .nmul d a b t s1 => Sys2Proof.Machine.execNmul d a b t s1 s
  | .nmulImm d a t s1 n1 => Sys2Proof.Machine.execNmulImm d a t s1 n1 s
  | .nadd d a b t s1 => Sys2Proof.Machine.execNadd d a b t s1 s
  | .naddImm d a t s1 n1 => Sys2Proof.Machine.execNaddImm d a t s1 n1 s
  | .nmac d a b t s1 => Sys2Proof.Machine.execNmac d a b t s1 s
  | .nmacImm d a t s1 n1 => Sys2Proof.Machine.execNmacImm d a t s1 n1 s
  | .nmin d a b t => Sys2Proof.Machine.execNmin d a b t s
  | .nminImm d a t n1 => Sys2Proof.Machine.execNminImm d a t n1 s
  | .nmax d a b t => Sys2Proof.Machine.execNmax d a b t s
  | .nmaxImm d a t n1 => Sys2Proof.Machine.execNmaxImm d a t n1 s
  | .nxor d a b => Sys2Proof.Machine.execNxor d a b s
  | .nxorImm d a n1 => Sys2Proof.Machine.execNxorImm d a n1 s
  | .nmov d a => Sys2Proof.Machine.execNmov d a s
  | .nmovImm d t n1 => Sys2Proof.Machine.execNmovImm d t n1 s
  | .nloop l => Sys2Proof.Machine.execNloop l s
  | .nsync => Sys2Proof.Machine.execNsync s
  | .nend => Sys2Proof.Machine.execNend s
  | .nnop => Sys2Proof.Machine.execNnop s
  | .clauseStart g => Sys2Proof.Machine.execClauseStart g s
  | .longLatencyCompletion g n1 => Sys2Proof.Machine.execLongLatencyCompletion g n1 s
  | .accessCompletion g e => Sys2Proof.Machine.execAccessCompletion g e s
  | .storePerformed g => Sys2Proof.Machine.execStorePerformed g s
  | .engineStallRelease g => Sys2Proof.Machine.execEngineStallRelease g s
  | .waitphWake g => Sys2Proof.Machine.execWaitphWake g s
  | .postissueLoadFault g e => Sys2Proof.Machine.execPostissueLoadFault g e s
  | .impreciseStoreFault g => Sys2Proof.Machine.execImpreciseStoreFault g s
  | .postExitStoreFault g => Sys2Proof.Machine.execPostExitStoreFault g s
  | .timerEvent g => Sys2Proof.Machine.execTimerEvent g s
  | .spawnTimerExpiry team bin => Sys2Proof.Machine.execSpawnTimerExpiry team bin s
  | .spawnDeadlock team => Sys2Proof.Machine.execSpawnDeadlock team s
  | .trygraceExpiry g => Sys2Proof.Machine.execTrygraceExpiry g s
  | .preemptSaveComplete team => Sys2Proof.Machine.execPreemptSaveComplete team s
  | .waitEviction cluster => Sys2Proof.Machine.execWaitEviction cluster s
  | .relaunch cluster => Sys2Proof.Machine.execRelaunch cluster s
  | .placementPass p => Sys2Proof.Machine.execPlacementPass p s
  | .reservation p => Sys2Proof.Machine.execReservation p s
  | .queueRecordTake q => Sys2Proof.Machine.execQueueRecordTake q s
  | .qtailDoorbell q v => Sys2Proof.Machine.execQtailDoorbell q v s
  | .qctlWrite q v => Sys2Proof.Machine.execQctlWrite q v s
  | .pfqctlWrite p v => Sys2Proof.Machine.execPfqctlWrite p v s
  | .ppreemptCluster p cluster => Sys2Proof.Machine.execPpreemptCluster p cluster s
  | .ppreemptAll p => Sys2Proof.Machine.execPpreemptAll p s
  | .l2ModeChange => Sys2Proof.Machine.execL2ModeChange s
  | .coreMapChange core => Sys2Proof.Machine.execCoreMapChange core s
  | .registerLineFill g line copies => Sys2Proof.Machine.execRegisterLineFill g line copies s
  | .l2Fill line => Sys2Proof.Machine.execL2Fill line s
  | .uncorrectableError kind unit loc => Sys2Proof.Machine.execUncorrectableError kind unit loc s
  | .unitLost stack chan => Sys2Proof.Machine.execUnitLost stack chan s
  | .trncmdDropStack v => Sys2Proof.Machine.execTrncmdDropStack v s
  | .trncmdDropChannel v => Sys2Proof.Machine.execTrncmdDropChannel v s
  | .trncmdDropBank v => Sys2Proof.Machine.execTrncmdDropBank v s
  | .trncmdUnknown v => Sys2Proof.Machine.execTrncmdUnknown v s
  | .turnerGroupStep n1 => Sys2Proof.Machine.execTurnerGroupStep n1 s
  | .replayReissue unit => Sys2Proof.Machine.execReplayReissue unit s
  | .frmrelWrite v => Sys2Proof.Machine.execFrmrelWrite v s
  | .pprcmdWrite v => Sys2Proof.Machine.execPprcmdWrite v s
  | .pprComplete ok => Sys2Proof.Machine.execPprComplete ok s
  | .brusherRowScrub chan finding sector => Sys2Proof.Machine.execBrusherRowScrub chan finding sector s
  | .refreshDue bank => Sys2Proof.Machine.execRefreshDue bank s
  | .refreshManagementCommand bank => Sys2Proof.Machine.execRefreshManagementCommand bank s
  | .burstBreak core bank => Sys2Proof.Machine.execBurstBreak core bank s
  | .sample core => Sys2Proof.Machine.execSample core s
  | .pressMmaPerform core => Sys2Proof.Machine.execPressMmaPerform core s
  | .pressMdrainPerform core => Sys2Proof.Machine.execPressMdrainPerform core s
  | .pressMzeroPerform core => Sys2Proof.Machine.execPressMzeroPerform core s
  | .pressMcheckPerform core => Sys2Proof.Machine.execPressMcheckPerform core s
  | .pressReleaseRetry core => Sys2Proof.Machine.execPressReleaseRetry core s
  | .subarrayGate core q => Sys2Proof.Machine.execSubarrayGate core q s
  | .subarrayWakeDone core q => Sys2Proof.Machine.execSubarrayWakeDone core q s
  | .ladleTransfer core q => Sys2Proof.Machine.execLadleTransfer core q s
  | .ladleCountRetry core q => Sys2Proof.Machine.execLadleCountRetry core q s
  | .kickPull core => Sys2Proof.Machine.execKickPull core s
  | .landingWrite o n data => Sys2Proof.Machine.execLandingWrite o n data s
  | .apertureNonposted o => Sys2Proof.Machine.execApertureNonposted o s
  | .landingCountRetry w => Sys2Proof.Machine.execLandingCountRetry w s
  | .windowBRead port p o n => Sys2Proof.Machine.execWindowBRead port p o n s
  | .windowBWrite port p o n data => Sys2Proof.Machine.execWindowBWrite port p o n data s
  | .flitReceive link header crcOk beats => Sys2Proof.Machine.execFlitReceive link header crcOk beats s
  | .transactionReemit link queue tag => Sys2Proof.Machine.execTransactionReemit link queue tag s
  | .lossOfLock link => Sys2Proof.Machine.execLossOfLock link s
  | .remoteTimeout g e => Sys2Proof.Machine.execRemoteTimeout g e s
  | .runStart u => Sys2Proof.Machine.execRunStart u s
  | .runResume u => Sys2Proof.Machine.execRunResume u s
  | .lnkcfgWrite v => Sys2Proof.Machine.execLnkcfgWrite v s
  | .registerWrite fn off n v => Sys2Proof.Machine.execRegisterWrite fn off n v s
  | .coldReset working => Sys2Proof.Machine.execColdReset working s
  | .stage1Reached => Sys2Proof.Machine.execStage1Reached s
  | .stage2Reached => Sys2Proof.Machine.execStage2Reached s
  | .warmReset => Sys2Proof.Machine.execWarmReset s
  | .partitionReset p => Sys2Proof.Machine.execPartitionReset p s
  | .functionLevelReset p => Sys2Proof.Machine.execFunctionLevelReset p s
  | .pgcmdAttest => Sys2Proof.Machine.execPgcmdAttest s
  | .pgcmdOpenSession => Sys2Proof.Machine.execPgcmdOpenSession s
  | .pgcmdCloseSession => Sys2Proof.Machine.execPgcmdCloseSession s
  | .pgcmdLoadFirmware => Sys2Proof.Machine.execPgcmdLoadFirmware s
  | .pgcmdUnknown op => Sys2Proof.Machine.execPgcmdUnknown op s
  | .polgilyCommandDone ok reason => Sys2Proof.Machine.execPolgilyCommandDone ok reason s
  | .bridgeLaneFailure bridge rate => Sys2Proof.Machine.execBridgeLaneFailure bridge rate s
  | .powerLimit die mhz => Sys2Proof.Machine.execPowerLimit die mhz s
  | .coreFailure core => Sys2Proof.Machine.execCoreFailure core s
  | .unassignedEncoding lane poisoned => Sys2Proof.Machine.execUnassignedEncoding lane poisoned s
  | .fetchFault lane cause addr => Sys2Proof.Machine.execFetchFault lane cause addr s

end Sys2Proof.Machine
end

