-- ==== Sys2Proof/Machine/Lines.lean ====
section
/-! DEFINITION. The register lines that an instruction names (09 R223), and the issue engine that it targets (14 R355). Line `r` below 256
is vector register `r` of all lanes; 256 to 263 hold the scalar registers, eight each; 264 holds the predicates (09 R220). -/

namespace Sys2Proof.Machine

/-! ## Register lines -/

/-- The vector fields of a lane instruction, as (first register, how many). -/
def vecFields (i : Instr) : List (Nat × Nat) :=
  match i with
  | .vmad f | .vffma f | .vbfi f | .vprmt f => regA f 3 f.ty ++ regB f 3 f.ty ++ regC f f.ty ++ [(f.vd.toNat, wide f.ty)]
  | .vdp4 f => regA f 3 f.ty ++ regB f 3 f.ty ++ regC f 1#4 ++ [(f.vd.toNat, 1)]
  | .vfdot2 f => regA f 3 f.ty ++ regB f 3 f.ty ++ regC f 4#4 ++ [(f.vd.toNat, 1)]
  | .vabs f | .vnot f | .vclz f | .vpopc f | .vfrcp f | .vfrsq f | .vfsqrt f | .vfexp2 f | .vflog2 f | .vfsin f | .vfcos f
  | .vfround f => regA f 1 f.ty ++ [(f.vd.toNat, wide f.ty)]
  | .vcmp f | .vfcmp f => regA f 2 f.ty ++ regB f 2 f.ty
  | .vfclass f => regA f 1 f.ty
  | .vcvt f => regA f 1 f.sub ++ [(f.vd.toNat, wide f.ty)]
  | .vpackbs f =>
    (f.va.toNat, 8) :: regB f (if f.sub = 2#4 then 3 else 2) 4#4 ++ (if f.sub = 2#4 then regC f 0#4 else []) ++ [(f.vd.toNat, 2)]
  | .vunpackbs f => (f.va.toNat, 2) :: regB f 2 4#4 ++ [(f.vd.toNat, 8)]
  | .vadd f | .vsub f | .vmul f | .vmulh f | .vdiv f | .vrem f | .vmin f | .vmax f | .vabsdiff f | .vand f | .vor f | .vxor f
  | .vshl f | .vshr f | .vsra f | .vrot f | .vbfx f | .vsel f | .vfadd f | .vfmul f | .vfmin f | .vfmax f | .vfdiv f | .vshfl f =>
    regA f 2 f.ty ++ regB f 2 f.ty ++ [(f.vd.toNat, wide f.ty)]
  | .vmov f => regB f 2 f.ty ++ [(f.vd.toNat, wide f.ty)]
  | .vspec f => [(f.vd.toNat, 1)]
  | .vredsc f => [(f.va.toNat, wide f.ty)]
  | .vkmov f => if f.sub = 0#4 then [(f.vd.toNat, 1)] else regB f 2 0#4
  | .vbrax f => [(f.va.toNat, 1)]
  | .vspawn f => [(f.va.toNat, 4)]
  | .vld f | .vldspec f => [addrRegs f true, (f.vd.toNat, sizeRegs (sizeOf f))]
  | .vst f => [addrRegs f true, (f.vc.toNat, sizeRegs (sizeOf f))]
  | .vatom f => [addrRegs f true, (f.vc.toNat, wide f.ty), (f.vd.toNat, wide f.ty)]
  | .vred f => [addrRegs f true, (f.vc.toNat, wide f.ty)]
  | .vlds f => [(f.va.toNat, 1), (f.vd.toNat, sizeRegs (sizeOf f))]
  | .vsts f => [(f.va.toNat, 1), (f.vc.toNat, sizeRegs (sizeOf f))]
  | .vpf f => [addrRegs f true]
  | .vcopyIn f | .vcopyOut f | .vcast f => [addrRegs f true, (f.vc.toNat, 1)]
  | .varrive f => (f.va.toNat, 1) :: (f.vd.toNat, 1) :: if f.sub = 1#4 then [(f.vc.toNat, 1)] else []
  | _ => []

/-- Does a lane instruction name a predicate register other than `k0`, which needs no line (02 R28)? -/
def namesPred (i : Instr) (f : LaneWord) : Bool :=
  f.guard ≠ 0#3 ||
    (match i with
     | .vcmp _ | .vfcmp _ | .vfclass _ | .vsel _ | .vshfl _ | .vvote _ | .vkop _ | .vkmov _ => true
     | _ => false)

/-- The line of a scalar register; `s0` needs none. -/
def sLine (r : Nat) : List Nat := if r = 0 then [] else [256 + r / 8]

/-- The scalar register that a lane instruction writes (06 R160). -/
def laneScalar (i : Instr) : List Nat :=
  match i with
  | .vvote f | .vredsc f => sLine (f.vd.toNat % 64)
  | _ => []

/-- The register lines of a scalar word: its fields at [12:7], [18:13], [24:19] and [30:25], as far as they name registers for its MOP
(03 R60, R61), and for `clause` the captured `s0` to `s15`. -/
def scalarLines (w : Nat) : List Nat :=
  let mop := w % 128
  let fieldAt (lo : Nat) (has : Bool) : List Nat := if has then sLine (w / 2 ^ lo % 64) else []
  let two := [0x0B, 0x0C, 0x16, 0x20, 0x21, 0x22, 0x34, 0x35, 0x36, 0x38, 0x39, 0x40, 0x42, 0x44, 0x47, 0x51]
  let three := [0x01, 0x1C, 0x24, 0x26, 0x2A, 0x2C, 0x30, 0x32, 0x3B, 0x3C, 0x49, 0x50, 0x53, 0x58, 0x59]
  fieldAt 7 (!([0x50, 0x51, 0x52].contains mop)) ++ fieldAt 13 (!(two.contains mop)) ++ fieldAt 19 (three.contains mop) ++
    fieldAt 25 (mop = 0x50 || mop = 0x52) ++ if mop = 0x20 then [256, 257] else []

/-- The register lines that an instruction reads or writes, of those that a team of `vregs` vector registers has. -/
def regLines (vregs : Nat) (i : Instr) : List Nat :=
  match laneParts i with
  | some (_, f) =>
    (((vecFields i).flatMap fun r => (List.range r.2).map fun n => r.1 + n).filter fun r => decide (r < vregs)) ++ laneScalar i ++
      if namesPred i f then [264] else []
  | none => if i.wordKind = .scalar then scalarLines (encodeScalar i).toNat else []

/-- The key of a stream's register line in its core's register-line cache. -/
def lineKey (g l : Nat) : Nat := 65536 * g + l

/-- 09 R223: does an instruction of a stream miss the register-line cache of its core? -/
def State.lineMiss (s : State) (g : Nat) (i : Instr) : Bool :=
  let held := (s.coreAt (s.gCore g)).lines
  (regLines (s.gTeam g).vregs i).any fun l => (KMap.find (lineKey g l) held).isNone

/-! ## Engines (14 R355) -/

/-- The engine that an instruction targets: 0 lane pipes, 1 scalar unit, 2 load/store, 3 scratchpad, 4 Ladle, 5 Rennet path. `vlabort`,
which the table does not name, counts with the lane pipes (log entry 55). -/
def engineOf (i : Instr) : Nat :=
  match laneParts i with
  | some (lop, _) =>
    let l := lop.toNat
    if l = 0x102 || l = 0x103 || l = 0x10C then 3
    else if 0x108 ≤ l && l ≤ 0x10A then 4
    else if 0x100 ≤ l && l ≤ 0x10B then 2
    else 0
  | none =>
    match i with
    | .ld .. | .st .. | .amo .. | .pfetch .. => 2
    | .lds .. | .sts .. => 3
    | .kick .. => 4
    | .nbload .. | .nbrun .. | .nbpoll .. => 5
    | _ =>
      let m := (encodeScalar i).toNat % 128
      if 0x24 ≤ m && m ≤ 0x2A then 3 else 1

end Sys2Proof.Machine
end

