-- ==== Sys2Proof/Machine/Readings.lean ====
section
/-! DEFINITION. Reads of window A through the host port (00 R4, R5, 14 R338, R340, 15 R358, 16 R382, R400, R402, R403, 18 R426, R427, R429,
19 R442, R443, R453): what each register shows. WO fields and reserved bits read zero, and so does every offset that has no register. -/

namespace Sys2Proof.Machine

/-- A bit of a register. -/
def bitAt (b : Bool) (i : Nat) : Nat := if b then 2 ^ i else 0

/-! ## The capability list (16 R403, 01 R13, R27) -/

/-- Bits of a list of flags, the first lowest. -/
def bitsOf (l : List Bool) : Nat := ((l.zipIdx).map fun b => bitAt b.1 b.2).sum

/-- The lane pipes of an enabled core, in groups of 8; 0 for a hole and for a core that is not enabled. -/
def State.pipeByte (s : State) (k : Nat) : Nat :=
  match KMap.find k s.cores with
  | some c => if c.on then c.pipes / 8 else 0
  | none => 0

/-- The capability list as fields: offset in it, bytes, value. -/
def State.capList (s : State) : List (Nat × Nat × Nat) :=
  let c := s.caps
  [(0x000, 4, c.capgen.toNat), (0x004, 1, s.stage), (0x005, 1, bitAt c.atomicOps 0 + bitAt c.peerHost 1), (0x006, 2, s.links.devnum.toNat),
   (0x008, 8, 2 ^ 21 * c.visframes), (0x010, 4, c.visframes), (0x014, 4, c.sparebase), (0x018, 2, c.workStacks.toNat), (0x01C, 4, c.mirframes),
   (0x020, 8, bitsOf ((List.range 36).map fun n => (KMap.read ({ working := false } : Link) n s.links.link).working))] ++
  (List.range 3).map (fun i => (0x028 + 4 * i, 4, (c.rates[i]?).getD 0)) ++
  (List.range 3).map (fun i => (0x034 + 2 * i, 2, (c.clocks[i]?).getD 0)) ++
  [(0x040, 48, bitsOf ((List.range 384).map s.chanWorks))] ++
  (List.range 12).map (fun i => (0x070 + 4 * i, 4, s.freeSpares i)) ++
  (List.range 12).map (fun i => (0x0A0 + i, 1, KMap.read 0 i c.dropsPer)) ++
  (List.range 384).map (fun k => (0x0C0 + k, 1, s.pipeByte k))

/-! ## Registers -/

/-- An interleave entry's 256 bits (16 R387). -/
def IlvEntry.toNat (e : IlvEntry) : Nat :=
  2 ^ 248 * e.cls + 2 ^ 246 * e.mode + ((e.slots.zipIdx).map fun x => 2 ^ (18 * x.2) * x.1).sum

/-- The entry that TBLSEL selects (16 R400): an interleave entry, a class or a repair-map entry; zero where there is none. -/
def State.selected (s : State) : Nat :=
  let v := s.turner.tblsel.toNat
  match v / 2 ^ 62 with
  | 0 => if v % 2 ^ 19 < s.allFrames then (s.entryOf (v % 2 ^ 19)).toNat else 0
  | 1 => (((s.classOf (v % 2 ^ 8)).zipIdx).map fun x => 2 ^ (4 * x.2) * x.1).sum
  | 2 =>
    match if bits v 47 44 < 12 ∧ bits v 43 42 < 2 then KMap.find (repairKey (bits v 47 44) (bits v 43 42) (v % 2 ^ 18)) s.turner.repair else none with
    | some (c, x) => 2 ^ 63 + 2 ^ 18 * c + x
    | none => 0
  | _ => 0

/-- The registers of a partition as they read. -/
def Partition.reads (p : Partition) : List (Nat × Nat × Nat) :=
  p.regs.filter (fun r => r.1 ≠ 0x044) ++
  [(0x040, 4, p.pfqhead.toNat + 2 ^ 16 * p.pfqlog2.toNat + bitAt p.pfqen 31),
   (0x044, 4, 2 ^ 16 * p.pfqtail.toNat + bitAt p.pfqwerr 2 + bitAt p.pfqbad 1 + bitAt p.pfqovf 0), (0x090, 4, bitAt p.resetting 1)]

/-- The registers of a host work queue as they read. -/
def HostQueue.reads (q : HostQueue) : List (Nat × Nat × Nat) :=
  [(0x00, 8, q.base.toNat + bitAt q.loc 0), (0x08, 4, bitAt q.en 31 + 2 ^ 12 * q.log2.toNat + q.priocap.toNat), (0x0C, 4, q.head.toNat),
   (0x10, 4, q.tail.toNat), (0x14, 4, bitAt q.bad 1 + bitAt q.readerr 0)]

/-- The registers of a landing window as they read. -/
def Landing.reads (x : Landing) : List (Nat × Nat × Nat) :=
  x.regs.filter (fun r => r.1 ≠ 0x18) ++
  [(0x18, 8, 2 ^ 32 * x.bytes.toNat + bitAt x.noobj 3 + bitAt x.ended 2 + bitAt x.fault 1 + bitAt x.held.isSome 0)]

/-- The registers of device scope that lie at one place each, as they read. -/
def State.devReads (s : State) : List (Nat × Nat × Nat) :=
  let t := s.turner
  let r := s.ras
  s.devRegs.filter (fun x => x.1 ≠ 0x308 && x.1 ≠ 0x1008) ++
  [(0x308, 8, 2 ^ 62 * t.state + bitAt t.refused 61 + 2 ^ 40 * t.doneN + 2 ^ 19 * t.total + t.need),
   (0x368, 8, 2 ^ 62 * s.ppr.state + 2 ^ 24 * s.pprLeft (pprGroup s.ppr.cmd)), (0x500, 8, 2 ^ 32 * s.links.devnum.toNat + bitAt s.links.en 0),
   (0x580, 4, s.lwmiss.toNat), (0x708, 8, 2 ^ 62 * s.mail.state + s.mail.reason.toNat), (0x1008, 8, bitAt r.refused 1 + bitAt r.ovf 0),
   (0x1010, 8, r.head.toNat), (0x1028, 8, 2 ^ 32 * r.passes.toNat + r.rows.toNat)] ++
  (List.range 4).map (fun i => (0x328 + 8 * i, 8, s.selected / 2 ^ (64 * i) % 2 ^ 64)) ++
  (List.range 16).map fun i => (0x400 + 8 * i, 8,
    match KMap.find i t.bounds with
    | some b => 2 ^ 63 + 2 ^ 32 * b.frame + b.b
    | none => 0)

/-- A byte of the registers of a list. -/
def byteOf (rs : List (Nat × Nat × Nat)) (o : Nat) : Byte :=
  match regOf rs o with
  | some r => BitVec.ofNat 8 (r.2.2 / 2 ^ (8 * (o - r.1)))
  | none => 0

/-- 14 R340: a byte of the core map; a hole's reads zero. -/
def State.corMapByte (s : State) (k : Nat) : Byte :=
  match KMap.find k s.cores with
  | some c =>
    let m := c.heldMap.getD (c.mapV, c.mapPart)
    BitVec.ofNat 8 (bitAt m.1 7 + m.2)
  | none => 0

/-- A byte of window A as a function reads it (0 the physical one, `p` + 1 that of partition `p`): a partition's function sees its own
registers and its queues alone (14 R338). -/
def State.regByte (s : State) (fn o : Nat) : Byte :=
  if 0x20000 ≤ o ∧ o < 0x28000 then
    let p := (o - 0x20000) / 0x1000
    if fn = 0 ∨ fn = p + 1 then byteOf (s.partAt p).reads (o % 0x1000) else 0
  else if 0x100000 ≤ o ∧ o < 0x140000 then
    let x := s.queueAt ((o - 0x100000) / 0x20)
    if fn = 0 ∨ (x.assignV ∧ fn = x.part.toNat + 1) then byteOf x.reads (o % 0x20) else 0
  else if fn ≠ 0 then 0
  else if 0x1400 ≤ o ∧ o < 0x1800 then
    BitVec.ofNat 8 ((KMap.read 0 ((o - 0x1400) / 16) s.ras.log : BitVec 128).toNat / 2 ^ (8 * (o % 16)))
  else if 0x2000 ≤ o ∧ o < 0x4000 then byteOf (KMap.read ({} : Landing) ((o - 0x2000) / 0x20) s.landing).reads (o % 0x20)
  else if 0x4000 ≤ o ∧ o < 0x6000 then
    let x := s.queueAt (o - 0x4000)
    BitVec.ofNat 8 (bitAt x.assignV 7 + x.part.toNat)
  else if 0x8000 ≤ o ∧ o < 0x9000 then byteOf s.capList (o - 0x8000)
  else if 0xA000 ≤ o ∧ o < 0xB800 then
    BitVec.ofNat 8 ((KMap.read ({} : ChErr) ((o - 0xA000) / 16) s.ras.chan).toNat / 2 ^ (8 * (o % 16)))
  else if 0xC000 ≤ o ∧ o < 0xD000 then KMap.read 0 (o - 0xC000) s.mail.buf
  else if 0xD000 ≤ o ∧ o < 0xD180 then s.corMapByte (o - 0xD000)
  else byteOf s.devReads o

/-- A read of `n` bytes of window A through a function is answered; before start stage 1 the port answers none (19 R450). -/
def State.regRead (s : State) (fn o n : Nat) : State :=
  { s with answers :=
      (if s.stage = 0 then .unsupported else .data n (natOfBytes ((List.range n).map fun i => s.regByte fn (o + i))) false) :: s.answers }

end Sys2Proof.Machine
end

