-- ==== Sys2Proof/Machine/Turns.lean ====
section
/-! DEFINITION. The turns of the schedule that no row of the opcode table names (log entry 3), the boundaries of streams (08 R201), what a
stream finds at its next instruction, and the placing of one instruction where the next step finds it. -/

namespace Sys2Proof.Machine

/-! ## Cycles (01 R18, 04 R98, 18 R434, R439) -/

/-- Is a reason of 18 R437 one of an engine stall (17 R422)? -/
def isEngineStall (r : Nat) : Bool := r = 5 || (7 ≤ r && r ≤ 12) || r = 15

/-- 04 R98: does `c.gtime` become equal to `c.gtcmp` within the next `n` cycles? -/
def Group.timerWithin (x : Group) (n : Nat) : Bool :=
  let d := (x.gtcmp - x.gtime).toNat
  x.gtcmp ≠ 0 && d ≠ 0 && decide (d ≤ n)

/-- `n` cycles of a resident stream: its timer (04 R98), its wait (08 R215) and its grace (08 R214). -/
def Group.tick (x : Group) (n : Nat) : Group :=
  let due := x.timerWithin n
  { x with
    gtime := x.gtime + BitVec.ofNat 64 n
    gtcmp := if due then 0 else x.gtcmp
    timerDue := x.timerDue || due
    waited := if x.wait.isSome && x.stall = 6 then x.waited + n else x.waited
    grace := x.grace.map fun k => if x.inTry then k + n else k }

/-- 18 R435: the waits of a stream that `n` cycles count on its core. -/
def Core.countWaits (c : Core) (x : Group) (n : Nat) : Core :=
  let g := some x.grp
  let each (f : Nat → Bool) : Nat := ((if f x.sreason then 1 else 0) + if x.isSeq then 0 else if f x.lreason then 1 else 0) * n
  let c1 := c.count 0x0D (each fun r => r = 6) g
  let c2 := c1.count 0x0E (each fun r => r = 4) g
  c2.count 0x0F (each isEngineStall) g

/-- 02 R45, 14 R354: the cycles of a bin that holds threads. -/
def SpawnBin.tick (b : SpawnBin) (n : Nat) : SpawnBin := if b.threads.isEmpty then b else { b with age := b.age + n }

/-- 12 R312: `n` cycles of a Press, of which its sub-arrays worked `busy`: a sub-array that does nothing counts idle cycles. -/
def Press.tick (p : Press) (n busy : Nat) : Press :=
  { p with sub := (List.range 4).foldl (fun m q =>
      let x := KMap.read ({} : SubArray) q m
      KMap.put q { x with idle := if busy ≠ 0 then 0 else if x.gated then x.idle else x.idle + n } m) p.sub }

/-- The cycles that a core itself counts: its counter, its Press, and the events of 18 R435 that are the core's. -/
def Core.tick (c : Core) (n busy : Nat) : Core :=
  let gated := ((List.range 4).filter fun q => (KMap.read ({} : SubArray) q c.press.sub).gated).length
  let c1 := ((c.count 0x01 n none).count 0x16 busy none).count 0x17 (gated * n) none
  { c1 with cycle := c1.cycle + BitVec.ofNat 64 n, press := c1.press.tick n busy }

/-- `n` cycles of a core's clock pass, its streams standing as they do; a core that is not enabled counts none (18 R439). -/
def State.clock (s : State) (k n busy : Nat) : State :=
  match KMap.find k s.cores with
  | none => s
  | some c =>
    if !c.on then s
    else
      let gs : List Nat := match c.team with
        | some t => s.teamStreams t
        | none => []
      let c1 := gs.foldl (fun c g => c.countWaits (s.grp g) n) (c.tick n busy)
      let s1 := s.setCore k c1
      let s2 := gs.foldl (fun s g => s.onGrp g fun x => x.tick n) s1
      match c.team with
      | some t => s2.onTm t fun y => { y with bins := y.bins.map fun (b : Nat × SpawnBin) => (b.1, b.2.tick n) }
      | none => s2

/-! ## The schedule -/

/-- A turn that no row of the opcode table names. -/
def State.turn (s : State) : Turn → State
  | .event _ => s
  | .select a => { s with cur := a }
  | .clock k n busy => s.clock k n busy
  | .wait ns => { s with now := s.now + ns }
  | .dropL1 k line => s.withCore k fun c => c.l1Drop line
  | .dropTlb k i => s.withCore k fun c => { c with tlb := c.tlb.eraseIdx i }
  | .dropTlb2 d i => { s with l2tlb := KMap.adjust d (fun es => es.eraseIdx i) s.l2tlb }
  | .activate bank => s.activate bank
  | .hostStore a b => s.hostStore a [b]
  | .hostPoison k bad => { s with hostBad := KMap.write false k bad s.hostBad }
  | .proxyWrite => s.flushProxy
  | .castLand i => s.castTurn i
  | .regRead fn o n => s.regRead fn o n
  | .correctDram n b r => s.correctRow n b r
  | .pressError k e => s.pressError k e
  | .correctCore k n => s.countCore k 0x15 n

/-- Is an event one that the schedule may hold? Those of undecodable code and of fetches come from the fetch alone. -/
def isScheduled (i : Instr) : Bool :=
  match i with
  | .unassignedEncoding .. => false
  | .fetchFault .. => false
  | _ => i.wordKind = .event

/-! ## Streams -/

/-- May a stream run: it exists, and is neither halted nor switched out (08 R200, R214)? -/
def State.runs (s : State) (g : Nat) : Bool :=
  (KMap.find g s.groups).isSome && !(s.grp g).halted && !(s.grp g).out && !(s.grp g).ended

/-- 08 R201: what falls due at a stream's boundary before its next scalar instruction: a lane fault found, then the oldest logged
fault, then the timer. Kernel mode holds all of them. -/
def Group.boundary (x : Group) (g : Nat) : Option Instr :=
  if !x.takesFaults then none
  else
    match x.dueLoadFault with
    | some e => some (.postissueLoadFault g e)
    | none =>
      if x.faults.any fun o => o.fault.isSome then some (.impreciseStoreFault g)
      else if x.timerDue then some (.timerEvent g)
      else none

/-- What a fetch of `n` bytes that found something leaves: translations kept (16 R386), lines in the instruction cache that were asked of
their home (02 R35), answers of another device drawn, transfers to ports and links counted (16 R402). -/
def State.fetched (s : State) (g : Nat) (lane : Bool) (a n : Nat) : State :=
  let w := s.whoIs g (s.grp g).kernel
  (sectorPieces a n n).foldl (fun s p =>
    match s.xlate w p.1 .execute with
    | .error _ => s
    | .ok x =>
      let s := s.touch w p.1
      let c := codeCache g lane
      if x.remote then ({ s with free := s.free + n } : State).hacFor w p.1 x
      else if s.codeHeld g lane p.1 then s
      else (((s.countRequest g x true).touchHome w.part x 0).hacFor w p.1 x).withCore (s.gCore g) fun k =>
        { k with icache := KMap.put c (p.1 / 128 :: KMap.read [] c k.icache) k.icache }) s

/-- Does a fetch that misses the instruction cache wait at a home (09 R232, 10 R261)? -/
def State.fetchBusy (s : State) (g : Nat) (lane : Bool) (a : Word) (n : Nat) : Bool :=
  (sectorPieces a.toNat n n).any fun p => !s.codeHeld g lane p.1 && s.rangeBusy (s.whoIs g (s.grp g).kernel) p.1 p.2 .execute

/-- The address of a stream's next instruction, and its bytes. -/
def Group.nextCode (x : Group) (lane : Bool) : Word × Nat := if lane then (x.slot, 12) else (x.pc, 4)

/-- The reason for which a stream does not issue (18 R437). -/
def Group.reason (x : Group) (lane : Bool) : Nat := if lane then x.lstall else x.stall

/-- A stream does not issue, for a reason; a register-line miss counts once (18 R435). -/
def State.holdStream (s : State) (g : Nat) (lane : Bool) (r : Nat) : State :=
  let s1 := if r = 3 && (s.grp g).reason lane ≠ 3 then s.count g 0x05 1 else s
  s1.onGrp g fun x => if lane then { x with lstall := r } else { x with stall := r }

/-- What a stream finds at its next instruction: a reason that keeps it from being fetched or from its registers, or what runs and the
state that the fetch leaves. -/
inductive Prepared where
  | held (r : Nat)
  | runs (i : Instr) (s : State)
  deriving DecidableEq, Repr

/-- What a stream finds at its next instruction: a fetch that waits at a home, the instruction, which waits for its register lines
(09 R223), a word that is refused (03 R64, R72), or a fetch fault. -/
def State.prepare (s : State) (g : Nat) (lane : Bool) : Prepared :=
  let c := (s.grp g).nextCode lane
  if s.fetchBusy g lane c.1 c.2 then .held 15
  else
    match if lane then s.fetchLane g c.1 else s.fetchScalar g with
    | .instr i => if s.lineMiss g i then .held 3 else .runs i (s.fetched g lane c.1.toNat c.2)
    | .bad p =>
      let t := s.fetched g lane c.1.toNat c.2
      .runs (.unassignedEncoding lane p) (if lane then { t with free := s.free } else t)
    | .fault q => .runs (.fetchFault lane q.code c.1) s

/-- 17 R414: a `waitph` stalls until its record is signalled. -/
def Group.parked (x : Group) : Bool :=
  x.stall = 6 && match x.wait with | some w => !w.signalled | none => false

/-- Does a stream stand at an instruction to issue? A scalar stream with something due at its boundary, with an access of another
device on its way (05 R112, 10 R242), or stalled in `waitph`, does not; nor a lane stream that is stopped (08 R214), idle, or at the end of its clause. -/
def State.seeks (s : State) (g : Nat) (lane : Bool) : Bool :=
  let x := s.grp g
  s.runs g && if lane then !s.halting g && !x.laneStopped && x.path.isSome && !x.atEnd else (x.boundary g).isNone && !x.inFlight false && !x.parked

/-! ## Placing one instruction to be fetched next -/

/-- A frame of the data pool for the code and the rows of the instruction placed. -/
def runnerFrame : Nat := 200001

/-- A team, alone in its cluster on core 0, whose core's TLB maps the 64 KiB at virtual address 0 to that frame, and one token that
memory holds over all of it: what a fetch by a stream of it needs. The token table is at DPA 0. The core's caches hold the lines of the
registers that the instruction names, and its code. -/
def State.withRunner (s : State) (g : Nat) (x : Group) (i : Except Reject Instr) : State :=
  let leaf : Leaf := { tok := 0, dev := s.links.devnum.toNat, pa := 0x20_0000 * runnerFrame, bits := 16, u := true, x := true, w := true, r := true }
  let e : TokEntry := { gen := 1, holder := memoryHolder, log2 := 24, state := 1 }
  let lines : KMap Bool := match i with
    | .ok i => (regLines 256 i).foldl (fun m l => KMap.put (lineKey g l) true m) []
    | .error _ => []
  let core : Core := { team := some 1, tlb := [{ part := 0, vpage := 0, leaf }], lines, icache := [(0, [2]), (1, [2]), (2, [2])] }
  let s1 : State := { s with
    agenda := []
    groups := KMap.put g x s.groups
    teams := KMap.put 1 { cluster := 0x40_0001, core := some 0, vregs := 256 } s.teams
    clusters := KMap.put 0x40_0001 { members := [1] } s.clusters
    cores := KMap.put 0 core s.cores
    tokbase := 0
    tokn := 1 }
  let s2 := s1.storeAt 0 (bytesOfNat 16 e.toNat)
  { s2 with poison := KMap.del 0 s2.poison }

/-- Bytes placed at virtual address 0x100 of the runner. -/
def State.withCode (s : State) (bs : List Byte) : State :=
  let s1 := s.storeAt (0x20_0000 * runnerFrame + 0x100) bs
  { s1 with poison := KMap.del (0x1_0000 * runnerFrame + 8) s1.poison }

/-- A scalar word where the scalar stream of a group, or for a word of the Press (MOP 0x50 to 0x55) of the sequencer, fetches next. -/
def State.withScalarWord (s : State) (w : Nat) : State :=
  let seq := decide (0x50 ≤ w % 128) && decide (w % 128 ≤ 0x55)
  let g := if seq then streamKey 1 64 else streamKey 1 0
  let x : Group := { team := 1, grp := keyGrp g, isSeq := seq, pc := 0x100 }
  { (s.withRunner g x (decodeScalar (BitVec.ofNat 32 w))).withCode (bytesOfNat 4 w) with cur := .scalar g }

/-- A lane word as the first slot of the clause that a group's lane stream is running. -/
def State.withLaneWord (s : State) (w : Nat) : State :=
  let g := streamKey 1 0
  let hdr : ClauseHeader := { setA := none, setB := none, count := 1, wait := 0, yieldHint := false }
  let x : Group := { team := 1, pc := 0x200, run := some { entry := { addr := 0xF4, caps := [], hdr } },
                     path := some { mask := 0xFFFF, lpc := 0x100 } }
  { (s.withRunner g x (decodeLane (BitVec.ofNat 96 w))).withCode (bytesOfNat 12 w) with cur := .lane g }

/-- A micro-operation word as the next of the run in progress on Rennet unit 0, whose rows lie in a frame that is all homed there. -/
def State.withMicroWord (s : State) (w : Nat) : State :=
  let row : Word × Nat := (0, 0x20_0000 * runnerFrame)
  let run : NbRun :=
    { seq := 0, team := 1, prog := [BitVec.ofNat 32 w], streams := [(0, row), (1, row), (2, row), (3, row)], strides := [],
      count := 1, start := 0, wmask := 15, state := 1 }
  { s with
    agenda := []
    cur := .rennet 0
    rennets := KMap.put 0 { queue := [run], seq := 1 } s.rennets
    turner := { s.turner with
      entries := KMap.put runnerFrame { cls := 0, mode := 0, slots := List.replicate 9 0 } s.turner.entries
      classes := KMap.put 0 (List.replicate 9 0) s.turner.classes } }

/-- The word of an instruction placed where the next step finds it (log entry 36). -/
def State.withWord (s : State) (nbits w : Nat) : State :=
  if nbits > 32 then s.withLaneWord w
  else
    match decodeScalar (BitVec.ofNat 32 w), decodeMicro (BitVec.ofNat 32 w) with
    | .error _, .ok _ => s.withMicroWord w
    | _, _ => s.withScalarWord w

end Sys2Proof.Machine
end

