-- ==== Sys2Proof/Machine/Issue.lean ====
section
/-! DEFINITION. What moves next: the first turn of the schedule (log entry 3), or a stream or Rennet unit; and which of a core's groups a
slot issues (14 R355, R356). -/

namespace Sys2Proof.Machine

/-- What moves: an instruction that a slot of its stream kind issues, beside the groups found ready there; another event or
micro-operation; or a turn that is over. -/
inductive Move where
  | slot (lane : Bool) (ready : List Nat) (i : Instr) (s : State)
  | run (i : Instr) (s : State)
  | go (s : State)
  deriving DecidableEq, Repr

/-- The agent that a stream of a kind is. -/
def streamAgent (g : Nat) (lane : Bool) : Agent := if lane then .lane g else .scalar g

/-! ## Choosing (14 R356) -/

/-- 14 R355: what keeps a stream from issuing, found by a trial that changes nothing: an instruction that cannot start leaves nothing but
its reason. `none` is a ready stream. -/
def State.heldReason (s : State) (g : Nat) (lane : Bool) : Option Nat :=
  match s.prepare g lane with
  | .held r => some r
  | .runs i t =>
    let t := { t with cur := streamAgent g lane }
    match exec i t with
    | .next u =>
      let r := (u.grp g).reason lane
      if r ≠ 0 && u = t.onGrp g (fun x => if lane then { x with lstall := r } else { x with stall := r }) then some r else none
    | _ => none

/-- How often a group was passed over in opportunities of a kind. -/
def Group.passes (x : Group) (lane : Bool) : Nat := if lane then x.passL else x.passS

/-- The opportunity of its core in which a group last issued in a kind. -/
def Group.lastIssue (x : Group) (lane : Bool) : Nat := if lane then x.lastL else x.lastS

/-- 14 R356 step 2: is a group under `yield` (05 R139, of its scalar stream), or does its waiting clause carry the yield hint (03 R75)? -/
def Group.yields (x : Group) (lane : Bool) : Bool :=
  (!lane && decide (x.yieldLeft > 0)) || (x.run.isNone && (match x.queue.head? with | some e => e.hdr.yieldHint | none => false))

/-- The members of a list for which a number is greatest. -/
def mostBy (f : Nat → Nat) (l : List Nat) : List Nat :=
  let m := l.foldl (fun n a => max n (f a)) 0
  l.filter fun a => f a = m

/-- The cycles for which the engine that a stream's next instruction targets has accepted no instruction of its core. -/
def State.engineIdle (s : State) (g : Nat) (lane : Bool) : Nat :=
  let c := s.coreAt (s.gCore g)
  match s.prepare g lane with
  | .runs i _ => c.cycle.toNat - KMap.read 0 (engineOf i) c.engines
  | .held _ => 0

/-- 14 R356: the group chosen among the ready ones, which are listed by rising number. -/
def State.chosen (s : State) (lane : Bool) (ready : List Nat) : Option Nat :=
  let l1 := mostBy (fun g => if (s.grp g).passes lane ≥ 192 then (s.grp g).passes lane else 0) ready
  let l2 := mostBy (fun g => if (s.grp g).yields lane then 0 else 1) l1
  let l3 := mostBy (fun g => s.engineIdle g lane) l2
  let l4 := mostBy (fun g => (s.coreAt (s.gCore g)).slots - (s.grp g).lastIssue lane) l3
  l4.head?

/-! ## Slots -/

/-- An issue opportunity of the groups of a core: it counts, and each group's `yield` is one scalar opportunity shorter (05 R139). -/
def State.openSlot (s : State) (g : Nat) (lane : Bool) : State :=
  if keyGrp g = 64 then s
  else
    let s1 := s.withCore (s.gCore g) fun c => { c with slots := c.slots + 1 }
    if lane then s1
    else (s.teamGroups (keyTeam g)).foldl (fun s h => s.onGrp h fun x => { x with yieldLeft := x.yieldLeft - 1 }) s1

/-- A stream tries its next instruction in a slot. -/
def State.tryStream (s : State) (g : Nat) (lane : Bool) (ready : List Nat) : Move :=
  match s.prepare g lane with
  | .held r => .go (s.holdStream g lane r)
  | .runs i t => .slot lane ready i { t with cur := streamAgent g lane }

/-- The groups of a stream's core that stand at an instruction of its kind; a sequencer issues apart from them (14 R355). -/
def State.slotGroups (s : State) (g : Nat) (lane : Bool) : List Nat :=
  if keyGrp g = 64 then [g] else (s.teamGroups (keyTeam g)).filter fun h => s.seeks h lane

/-- A slot of a stream's core and kind: of several groups that stand at an instruction, one that is ready is chosen, and the others keep
what they wait for; one alone tries. A stream that stands at no instruction takes what is due at its boundary (08 R201) or ends its
clause (02 R37). -/
def State.slotMove (s : State) (g : Nat) (lane : Bool) : Move :=
  if !s.seeks g lane then
    let x := s.grp g
    if !s.runs g then .go s
    else if lane then .go (if !x.laneStopped && x.path.isSome && x.atEnd then s.laneEnd else s)
    else
      match x.boundary g with
      | some i => .run i s
      | none => .go s
  else
    match s.slotGroups g lane with
    | [h] => (s.openSlot h lane).tryStream h lane []
    | l =>
      let tried := l.map fun h => (h, s.heldReason h lane)
      let ready := (tried.filter fun e => e.2.isNone).map Prod.fst
      let s1 := tried.foldl (fun s e => match e.2 with | some r => s.holdStream e.1 lane r | none => s) (s.openSlot g lane)
      match s.chosen lane ready with
      | some h => s1.tryStream h lane ready
      | none => .go s1

/-- What a slot leaves once its instruction has run: where it was accepted, its engine and its group count from here, and the other ready
groups have been passed over (14 R356). An instruction that stalls was not. -/
def State.noteSlot (t u : State) (lane : Bool) (ready : List Nat) (i : Instr) : State :=
  let g := t.me
  let r := (u.grp g).reason lane
  if !(ready.contains g || (KMap.find g u.groups).isNone || r = 0 || r = 13 || r = 14) then u
  else
    let c := t.coreAt (t.gCore g)
    let u1 := u.withCore (t.gCore g) fun k => { k with engines := KMap.put (engineOf i) c.cycle.toNat k.engines }
    let pass (lane : Bool) (x : Group) : Group := if lane then { x with passL := x.passL + 1 } else { x with passS := x.passS + 1 }
    let rest := (ready.filter fun h => h ≠ g).foldl (fun m h => KMap.adjust h (pass lane) m) u1.groups
    let done (x : Group) : Group := if lane then { x with passL := 0, lastL := c.slots } else { x with passS := 0, lastS := c.slots }
    { u1 with groups := KMap.adjust g done rest }

/-! ## The next move -/

/-- A Rennet unit moves: the word that the counter of its run in progress has reached (10 R258). -/
def State.rennetMove (s : State) (u : Nat) : Move :=
  match (s.unitAt u).running with
  | none => .go s
  | some r =>
    match microAt r.prog r.ctr with
    | some i => .run i s
    | none => .go s

/-- The stream or unit selected moves. -/
def State.agentMove (s : State) : Move :=
  match s.cur with
  | .idle => .go s
  | .scalar g => s.slotMove g false
  | .lane g => s.slotMove g true
  | .rennet u => s.rennetMove u

/-- The next move: the first turn of the schedule, else the stream or unit selected. -/
def State.nextMove (s : State) : Move :=
  match s.agenda with
  | .event i :: ts => if isScheduled i then .run i { s with agenda := ts } else .go { s with agenda := ts }
  | .select a :: ts => ({ s with agenda := ts, cur := a } : State).agentMove
  | t :: ts => .go (({ s with agenda := ts } : State).turn t)
  | [] => s.agentMove

/-- What a move leaves. -/
def Move.outcome (m : Move) : Host.Outcome State Fault Refusal :=
  match m with
  | .slot lane ready i t =>
    match exec i t with
    | .next u => .next (t.noteSlot u lane ready i)
    | .fault e => .fault e
    | .refused e => .refused e
  | .run i t => exec i t
  | .go t => .next t

end Sys2Proof.Machine
end

