-- ==== Sys2Proof/Machine/Step.lean ====
section
/-! DEFINITION. One step of the machine. -/

namespace Sys2Proof.Machine

/-- One step: what moves next moves (Machine/Issue.lean). -/
def step (s : State) : Host.Outcome State Fault Refusal := s.nextMove.outcome

/-- The state with an instruction, its words as decodeTableWord numbers their bits, where the next step fetches it. -/
def State.withFetchWord (s : State) (nbits w : Nat) : State := s.withWord nbits w

end Sys2Proof.Machine
end

