-- ==== Sys2Proof/Safety.lean ====
section
/-! DEFINITION. The terms in which claims speak: runs of steps, and what an instruction leaves as it was. -/

namespace Sys2Proof.Machine

/-! ## Runs -/

/-- `k` steps from `s` end in `t`. -/
def Reaches (k : Nat) (s t : State) : Prop := core.run k s = .next t

/-- A run of `k` steps is safe when none of them stops the machine. -/
def SafeFor (k : Nat) (s : State) : Prop := ∃ t, Reaches k s t

/-- An instruction answers a next state of which something holds. -/
def Does (i : Instr) (s : State) (p : State → Prop) : Prop := ∃ t, exec i s = .next t ∧ p t

/-! ## Frames -/

/-- No core changed otherwise than in its event counters (18 R434). -/
def CountersOnly (s t : State) : Prop := ∀ k, t.coreAt k = { s.coreAt k with pmc := (t.coreAt k).pmc }

/-- Every byte of device memory reads as before, and every poison bit of it, but for a clean sector of an L2 line that left its slice
over a poisoned DRAM copy (09 R235). -/
def MemoryKept (s t : State) : Prop := (∀ a, t.byteAt a = s.byteAt a) ∧ (s.beneath = [] → ∀ a, t.badAt a = s.badAt a)

/-- The machine without its streams and cores: teams, memories, tokens, partitions, queues, units and every other register. -/
def State.apart (s : State) : State := { s with groups := [], cores := [] }

/-- Nothing changed but one stream and event counters: no other stream, no team, core, memory, token, register or queue. -/
def OnlyStream (g : Nat) (s t : State) : Prop :=
  t.apart = s.apart ∧ t.groups = KMap.put g (t.grp g) s.groups ∧ CountersOnly s t ∧ MemoryKept s t

/-- Of a stream nothing changed but scalar registers with their poison, the PC, `c.chkint`, and the reason for which it did not issue. -/
def ScalarOnly (x y : Group) : Prop :=
  y = { x with s := y.s, sPoison := y.sPoison, pc := y.pc, chkint := y.chkint, stall := y.stall }

/-- The scalar registers after a write of `v` to `d`: every other register as before, `s0` zero, the destination clean (03 R60, 09
R223). -/
def Wrote (x y : Group) (d : BitVec 6) (v : Word) : Prop :=
  (∀ r, r ≠ d.toNat → y.sGet r = x.sGet r ∧ y.sBad r = x.sBad r) ∧ y.sGet 0 = 0 ∧ (d ≠ 0 → y.sGet d.toNat = v ∧ y.sBad d.toNat = false)

/-- Every scalar register is as before. -/
def WroteNone (x y : Group) : Prop := ∀ r, y.sGet r = x.sGet r ∧ y.sBad r = x.sBad r

/-- 03 R91: SCONS of `c.chkint` is set when a register read is poisoned, and no other bit changes. -/
def Consumed (x y : Group) (rs : List (BitVec 6)) : Prop :=
  y.chkint = if rs.any fun r => x.sBad r.toNat then x.chkint ||| 2 else x.chkint

/-- The same where some of the registers, `as`, are used as addresses: a poisoned one sets PADDR also (04 R99). -/
def ConsumedAt (x y : Group) (as rs : List (BitVec 6)) : Prop :=
  y.chkint = (if (as ++ rs).any fun r => x.sBad r.toNat then x.chkint ||| 2 else x.chkint) |||
    (if as.any fun r => x.sBad r.toNat then 16 else 0)

/-- A scalar instruction of the stream whose step it is writes `v` to `d`, having read `rs`, and moves the PC to `pc`. -/
def Computes (i : Instr) (s : State) (rs : List (BitVec 6)) (d : BitVec 6) (v pc : Word) : Prop :=
  Does i s fun t =>
    OnlyStream s.me s t ∧ ScalarOnly (s.grp s.me) (t.grp s.me) ∧ Wrote (s.grp s.me) (t.grp s.me) d v ∧
      Consumed (s.grp s.me) (t.grp s.me) rs ∧ (t.grp s.me).pc = pc

/-- A scalar instruction that uses registers `as` as addresses, and reads `rs` beside them. -/
def ComputesAt (i : Instr) (s : State) (as rs : List (BitVec 6)) (d : BitVec 6) (v pc : Word) : Prop :=
  Does i s fun t =>
    OnlyStream s.me s t ∧ ScalarOnly (s.grp s.me) (t.grp s.me) ∧ Wrote (s.grp s.me) (t.grp s.me) d v ∧
      ConsumedAt (s.grp s.me) (t.grp s.me) as rs ∧ (t.grp s.me).pc = pc

/-- A scalar instruction that writes no register. -/
def Moves (i : Instr) (s : State) (rs : List (BitVec 6)) (pc : Word) : Prop :=
  Does i s fun t =>
    OnlyStream s.me s t ∧ ScalarOnly (s.grp s.me) (t.grp s.me) ∧ WroteNone (s.grp s.me) (t.grp s.me) ∧
      Consumed (s.grp s.me) (t.grp s.me) rs ∧ (t.grp s.me).pc = pc

/-- The address of the next scalar word. -/
def State.after (s : State) : Word := (s.grp s.me).pc + 4

end Sys2Proof.Machine
end

