-- ==== Sys2Proof/WellFormed.lean ====
section
/-! DEFINITION. Which terms of Instr are instructions: words of a stream whose fields the spec lets them have (03 R61, R66 to R72,
R78). Events have no word. -/

namespace Sys2Proof

/-- Is the term a word of the scalar, lane or near-bank stream with fields that its instruction accepts? -/
def WellFormed (i : Instr) : Bool := decide (i.wordKind ≠ .event) && fieldsOk i

end Sys2Proof
end

