-- ==== Sys2Proof/Certificates/Slice0/Obligations.lean ====
section
/-! DEFINITION. The statements. Each says what a rule of the spec says of an instruction, an event or the machine, in the terms of
Sys2Proof/Safety.lean. -/

open Sys2Proof Sys2Proof.Machine

/-! ## Scalar arithmetic (05 R114 to R120) -/

/-- A word as a shift distance: its low six bits (05 R114). -/
def Claims.shift (b : Word) : Nat := b.toNat % 64

/-- An integer as a 64-bit pattern, wrapped (05 R114). -/
def Claims.wrapped (x : Int) : Word := BitVec.ofInt 64 x

/-- 1 or 0. -/
def Claims.flag (p : Prop) [Decidable p] : Word := if p then 1 else 0

open Claims

/-- 05 R114: sums, differences, products and high halves, in integers. -/
def Obligations.ScalarSums : Prop := ∀ (s : State) (b a d : BitVec 6),
  Computes (.add b a d) s [a, b] d (wrapped ((s.rs a).toNat + (s.rs b).toNat)) s.after ∧
  Computes (.sub b a d) s [a, b] d (wrapped ((s.rs a).toNat - (s.rs b).toNat)) s.after ∧
  Computes (.mul b a d) s [a, b] d (wrapped ((s.rs a).toInt * (s.rs b).toInt)) s.after ∧
  Computes (.mulh b a d) s [a, b] d (wrapped ((s.rs a).toInt * (s.rs b).toInt / 2 ^ 64)) s.after ∧
  Computes (.mulhu b a d) s [a, b] d (wrapped ((s.rs a).toNat * (s.rs b).toNat / 2 ^ 64)) s.after

/-- 05 R115: division truncates toward zero and never traps; by zero the quotient is all ones and the remainder the dividend; the one
overflow gives the dividend and zero. -/
def Obligations.ScalarDivision : Prop := ∀ (s : State) (b a d : BitVec 6),
  let x := s.rs a
  let y := s.rs b
  Computes (.div b a d) s [a, b] d (if y = 0 then BitVec.allOnes 64
    else if x.toInt = -(2 ^ 63) ∧ y.toInt = -1 then x else wrapped (x.toInt.tdiv y.toInt)) s.after ∧
  Computes (.rem b a d) s [a, b] d (if y = 0 then x
    else if x.toInt = -(2 ^ 63) ∧ y.toInt = -1 then 0 else wrapped (x.toInt - x.toInt.tdiv y.toInt * y.toInt)) s.after ∧
  Computes (.divu b a d) s [a, b] d (if y = 0 then BitVec.allOnes 64 else wrapped (x.toNat / y.toNat)) s.after ∧
  Computes (.remu b a d) s [a, b] d (if y = 0 then x else wrapped (x.toNat - x.toNat / y.toNat * y.toNat)) s.after

/-- 05 R114: bitwise operations and shifts; a shift uses the low six bits of its distance alone. -/
def Claims.ScalarBitwise : Prop := ∀ (s : State) (b a d : BitVec 6),
  let x := s.rs a
  let y := s.rs b
  Computes (.and b a d) s [a, b] d (BitVec.ofNat 64 (x.toNat &&& y.toNat)) s.after ∧
  Computes (.or b a d) s [a, b] d (BitVec.ofNat 64 (x.toNat ||| y.toNat)) s.after ∧
  Computes (.xor b a d) s [a, b] d (BitVec.ofNat 64 (x.toNat ^^^ y.toNat)) s.after ∧
  Computes (.andn b a d) s [a, b] d (BitVec.ofNat 64 (x.toNat &&& (2 ^ 64 - 1 - y.toNat))) s.after ∧
  Computes (.shl b a d) s [a, b] d (wrapped (x.toNat * 2 ^ shift y)) s.after ∧
  Computes (.shr b a d) s [a, b] d (wrapped (x.toNat / 2 ^ shift y)) s.after ∧
  Computes (.sra b a d) s [a, b] d (wrapped (x.toInt / 2 ^ shift y)) s.after

/-- 05 R114: minima, maxima and comparisons, signed and unsigned. -/
def Claims.ScalarOrder : Prop := ∀ (s : State) (b a d : BitVec 6),
  let x := s.rs a
  let y := s.rs b
  Computes (.min b a d) s [a, b] d (wrapped (min x.toInt y.toInt)) s.after ∧
  Computes (.minu b a d) s [a, b] d (wrapped (min x.toNat y.toNat)) s.after ∧
  Computes (.max b a d) s [a, b] d (wrapped (max x.toInt y.toInt)) s.after ∧
  Computes (.maxu b a d) s [a, b] d (wrapped (max x.toNat y.toNat)) s.after ∧
  Computes (.slt b a d) s [a, b] d (flag (x.toInt < y.toInt)) s.after ∧
  Computes (.sltu b a d) s [a, b] d (flag (x.toNat < y.toNat)) s.after ∧
  Computes (.seq b a d) s [a, b] d (flag (x = y)) s.after

/-- 05 R114: the bitwise instructions and shifts, and the minima, maxima and comparisons. -/
def Obligations.ScalarBitwiseAndOrder : Prop := Claims.ScalarBitwise ∧ Claims.ScalarOrder

/-- 05 R114: counts of leading zeros, trailing zeros and ones: n leading zeros are 2^(63-n) <= x < 2^(64-n), n trailing ones the
greatest power of two that divides x; both are 64 for zero. -/
def Claims.ScalarCounts : Prop := ∀ (s : State) (a d : BitVec 6),
  let x := (s.rs a).toNat
  (∃ n : Nat, Computes (.clz a d) s [a] d (BitVec.ofNat 64 n) s.after ∧
    ((x = 0 ∧ n = 64) ∨ (n < 64 ∧ 2 ^ (63 - n) ≤ x ∧ x < 2 ^ (64 - n)))) ∧
  (∃ n : Nat, Computes (.ctz a d) s [a] d (BitVec.ofNat 64 n) s.after ∧
    ((x = 0 ∧ n = 64) ∨ (n < 64 ∧ x % 2 ^ n = 0 ∧ x / 2 ^ n % 2 = 1))) ∧
  Computes (.popc a d) s [a] d (BitVec.ofNat 64 ((List.range 64).map fun i => x / 2 ^ i % 2).sum) s.after

/-- 05 R116: bit fields. The field starts at the low six bits of b and is bits [14:8] of b long, at most to bit 63. -/
def Claims.ScalarBitFields : Prop := ∀ (s : State) (b a d : BitVec 6),
  let p := (s.rs b).toNat % 64
  let n := min ((s.rs b).toNat / 256 % 128) (64 - p)
  Computes (.bfx b a d) s [a, b] d (BitVec.ofNat 64 ((s.rs a).toNat / 2 ^ p % 2 ^ n)) s.after ∧
  ∃ v : Word, Computes (.bfi b a d) s [d, a, b] d v s.after ∧
    (∀ i, i < 64 → v.getLsbD i = if p ≤ i ∧ i < p + n then (s.rs a).getLsbD (i - p) else (s.rs d).getLsbD i) ∧
    decodeScalar 0x3630A201#32 = .ok (.bfx 6 5 4)

/-- 05 R114, R116: the counts of bits, and the bit fields. -/
def Obligations.ScalarCountsAndFields : Prop := Claims.ScalarCounts ∧ Claims.ScalarBitFields

/-- 05 R117, R118: immediates, sign-extended from 13 bits, and the upper immediates of 19 bits; a shift word with a bit set above its
distance decodes to no instruction, so that it is ILLEGAL (03 R61). -/
def Obligations.ScalarImmediates : Prop := ∀ (s : State) (e : BitVec 13) (h : BitVec 6) (u : BitVec 19) (a d : BitVec 6),
  let x := s.rs a
  let i := wrapped e.toInt
  Computes (.addi e a d) s [a] d (wrapped (x.toInt + e.toInt)) s.after ∧
  Computes (.andi e a d) s [a] d (x &&& i) s.after ∧
  Computes (.ori e a d) s [a] d (x ||| i) s.after ∧
  Computes (.xori e a d) s [a] d (x ^^^ i) s.after ∧
  Computes (.shli h a d) s [a] d (wrapped (x.toNat * 2 ^ h.toNat)) s.after ∧
  Computes (.shri h a d) s [a] d (wrapped (x.toNat / 2 ^ h.toNat)) s.after ∧
  Computes (.srai h a d) s [a] d (wrapped (x.toInt / 2 ^ h.toNat)) s.after ∧
  Computes (.slti e a d) s [a] d (flag (x.toInt < e.toInt)) s.after ∧
  Computes (.sltiu e a d) s [a] d (flag (x.toNat < i.toNat)) s.after ∧
  Computes (.lui u d) s [] d (wrapped (u.toInt * 8192)) s.after ∧
  Computes (.pcaddi u d) s [] d (wrapped ((s.grp s.me).pc.toNat + u.toInt * 8192)) s.after ∧
  (∀ w : BitVec 32, w.toNat % 128 = 6 ∨ w.toNat % 128 = 7 ∨ w.toNat % 128 = 8 → w.toNat / 2 ^ 25 ≠ 0 → ∀ j, decodeScalar w ≠ .ok j)

/-- 05 R119: branches move the PC alone: by four times the offset where the comparison holds, else to the next word. -/
def Claims.ScalarBranches : Prop := ∀ (s : State) (i : BitVec 13) (b a : BitVec 6),
  let x := s.rs a
  let y := s.rs b
  let dest (c : Prop) [Decidable c] : Word := if c then wrapped ((s.grp s.me).pc.toNat + 4 * i.toInt) else s.after
  Moves (.beq i b a) s [a, b] (dest (x = y)) ∧
  Moves (.bne i b a) s [a, b] (dest (x ≠ y)) ∧
  Moves (.blt i b a) s [a, b] (dest (x.toInt < y.toInt)) ∧
  Moves (.bge i b a) s [a, b] (dest (x.toInt ≥ y.toInt)) ∧
  Moves (.bltu i b a) s [a, b] (dest (x.toNat < y.toNat)) ∧
  Moves (.bgeu i b a) s [a, b] (dest (x.toNat ≥ y.toNat))

/-- 05 R120: jumps write the address of the next word, also where the destination is the register that gives the target; a poisoned
target sets PADDR (04 R99). -/
def Claims.ScalarJumps : Prop := ∀ (s : State) (i : BitVec 19) (e : BitVec 13) (a d : BitVec 6),
  Computes (.jal i d) s [] d s.after (wrapped ((s.grp s.me).pc.toNat + 4 * i.toInt)) ∧
  ((wrapped ((s.rs a).toNat + e.toInt)).toNat % 4 = 0 →
    ComputesAt (.jalr e a d) s [a] [] d s.after (wrapped ((s.rs a).toNat + e.toInt)))

/-- 05 R119, R120: the branches, and the jumps with their links. -/
def Obligations.ScalarControlFlow : Prop := Claims.ScalarBranches ∧ Claims.ScalarJumps

/-! ## Scalar memory instructions (05 R121 to R124, 10 R248, R253) -/

/-- The stream whose step it is. -/
def Claims.own (s : State) : Group := s.grp s.me

/-- An access of `n` bytes at `va` by the scalar stream goes through at `y`, of this device, with nothing to wait for: translated, with
a free operand-log entry, nothing to wait for at its home, no reduction of its own before it. -/
def Claims.Reaching (s : State) (va : Word) (n : Nat) (k : AccKind) (y : Xlat) : Prop :=
  va.toNat % n = 0 ∧ va.toNat < 2 ^ 52 ∧ s.xlate (s.whoIs s.me (own s).kernel) va.toNat k = .ok y ∧ y.remote = false ∧
    s.holdsOp s.me y 1 = false ∧ s.behindReduce s.me y n = false ∧ (own s).freeLog.isSome

/-- A value of `n` bytes, sign- or zero-extended to a register. -/
def Claims.extended (sx : BitVec 1) (n v : Nat) : Word := if sx = 1#1 then wrapped (sext v (8 * n)) else BitVec.ofNat 64 v

/-- 05 R122, 10 R242: `ld` outside `try` of a page of this device that it may read writes its destination and goes on; of a memory-side page,
with no store of its own left to be performed, it writes the bytes that memory holds once the line has left the L2 (09 R234), extended; of a
poisoned sector zero. It changes no memory and no other register. -/
def Obligations.ScalarLoad : Prop := ∀ (s : State) (o : BitVec 8) (h : BitVec 2) (x : BitVec 1) (z : BitVec 2) (a d : BitVec 6) (y : Xlat),
  let va := s.scalarAddr o z a
  let n := 2 ^ z.toNat
  Reaching s va n .read y → (own s).inTry = false →
  (∃ v, Does (.ld o h x z a d) s fun t => Wrote (own s) (t.grp s.me) d v ∧ (t.grp s.me).pc = s.after ∧ ∀ g, g ≠ s.me → t.grp g = s.grp g) ∧
  (y.leaf.ms = true → y.leaf.host = false → (own s).ownStores = [] →
  Does (.ld o h x z a d) s fun t =>
    Wrote (own s) (t.grp s.me) d
        (if (s.dropL2 y.pa).bad y.pa then 0 else extended x n (natOfBytes ((s.dropL2 y.pa).loadBytes y.pa n))) ∧
      (t.grp s.me).pc = s.after ∧ MemoryKept s t ∧ ∀ g, g ≠ s.me → t.grp g = s.grp g)

/-- 05 R122: `st` outside `try` enters the stream's store queue with its address and data, and its operand-log entry; no byte of memory
and no register changes yet. -/
def Obligations.ScalarStore : Prop := ∀ (s : State) (o : BitVec 8) (h : BitVec 2) (z : BitVec 2) (a r : BitVec 6) (e : Nat),
  let va := s.scalarAddr o z a
  let n := 2 ^ z.toNat
  va.toNat % n = 0 → va.toNat < 2 ^ 52 → (own s).inTry = false → (own s).freeLog = some e →
  Does (.st o h z a r) s fun t =>
    (∃ q : MemOp, (t.grp s.me).storeq = (own s).storeq ++ [q] ∧ q.kind = .store ∧ q.size = n ∧ q.log = some e ∧
      q.accs = [{ lane := 16, va, data := (s.rs r).toNat % 2 ^ (8 * n) }]) ∧
    (KMap.find e (t.grp s.me).oplog).isSome ∧ WroteNone (own s) (t.grp s.me) ∧ (t.grp s.me).pc = s.after ∧ OnlyStream s.me s t

/-- 05 R123: `lds` and `sts` outside `try`, at an address in a scratchpad that the stream can name: the load writes the bytes extended,
zero from a poisoned sector; the store, once no load of the stream is left to be performed (11 R271), writes exactly its bytes. -/
def Claims.ScalarScratchpad : Prop := ∀ (s : State) (o : BitVec 8) (x : BitVec 1) (z : BitVec 2) (a d : BitVec 6) (t' off : Nat),
  let va := s.scalarAddr o z a
  let n := 2 ^ z.toNat
  va.toNat % n = 0 → s.spadLoc (keyTeam s.me) va.toNat n = some (t', off) → (own s).inTry = false →
  (Does (.lds o x z a d) s fun t =>
    Wrote (own s) (t.grp s.me) d (if (s.tm t').badAt off then 0 else extended x n (natOfBytes ((s.tm t').bytesAt off n))) ∧
      (t.grp s.me).pc = s.after ∧ OnlyStream s.me s t) ∧
  ((own s).awaits false = false → Does (.sts o z a d) s fun t =>
    (∀ i, KMap.read unwritten i (t.tm t').mem =
      if off ≤ i ∧ i < off + n then BitVec.ofNat 8 ((s.rs d).toNat / 2 ^ (8 * (i - off))) else KMap.read unwritten i (s.tm t').mem) ∧
    (∀ u, u ≠ t' → t.tm u = s.tm u) ∧ WroteNone (own s) (t.grp s.me) ∧ (t.grp s.me).pc = s.after ∧ MemoryKept s t)

/-- The new value of an integer `amo` (10 R250, R253): add, min, max, and, or, exclusive or, exchange, compare and swap; min and max
compare as the type is signed or not. -/
def Claims.amoValue (p : BitVec 3) (sx : BitVec 1) (n old v c : Nat) : Nat :=
  let key (x : Nat) : Int := if sx = 1#1 then sext x (8 * n) else x
  match p.toNat with
  | 0 => (old + v) % 2 ^ (8 * n)
  | 1 => if key v < key old then v else old
  | 2 => if key old < key v then v else old
  | 3 => old &&& v
  | 4 => old ||| v
  | 5 => old ^^^ v
  | 6 => v
  | _ => if old = c then v else old

/-- 10 R251, R253: `amo` outside `try`, what it waits for performed, of a page of this device or its host that takes it, writes its
destination and goes on; of a sector of device memory that is clean once the home slice has dropped it (R242) the destination takes the old value, memory the new one at the address translated, and every other byte stays, but for the mirror copy of a mirrored frame. -/
def Obligations.ScalarAtomic : Prop := ∀ (s : State) (o : BitVec 2) (x z : BitVec 1) (p : BitVec 3) (b a d : BitVec 6) (y : Xlat),
  let n := if z = 1#1 then 8 else 4
  let w := fun (r : BitVec 6) => (s.rs r).toNat % 2 ^ (8 * n)
  let m := if y.leaf.ms then s.dropL2 y.pa else s.dropSector y.pa
  let old := natOfBytes (m.loadBytes y.pa n)
  Reaching s (s.rs a) n .atomic y → (own s).inTry = false → (own s).atomicWaits false o.toNat = false → s.proxyHolds o.toNat = false →
   (x = 1#1 → z = 1#1 → p = 1#3 ∨ p = 2#3) →
  (s.atomicOk y p.toNat (amoTy z x) = true → ∃ v, Does (.amo o x z p b a d) s fun t =>
    Wrote (own s) (t.grp s.me) d v ∧ (t.grp s.me).pc = s.after ∧ ∀ g, g ≠ s.me → t.grp g = s.grp g) ∧
  (y.leaf.host = false → y.pa % n = 0 → m.bad y.pa = false → s.mirrored (y.pa / 0x20_0000) = false →
  Does (.amo o x z p b a d) s fun t =>
    Wrote (own s) (t.grp s.me) d (if x = 1#1 ∧ z = 0#1 then wrapped (sext old 32) else BitVec.ofNat 64 old) ∧
    (∀ i, t.byteAt i = if y.pa ≤ i ∧ i < y.pa + n then BitVec.ofNat 8 (amoValue p x n old (w b) (w d) / 2 ^ (8 * (i - y.pa)))
      else s.byteAt i) ∧
    (t.grp s.me).pc = s.after ∧ ∀ g, g ≠ s.me → t.grp g = s.grp g)

/-- 10 R248, R263: `pfetch` never traps: whatever its address is, the stream goes on, and no register and no memory changes; but inside
`try` a memory-side page, found through a clean aligned address, aborts the group with SYNC. One whose home slice cannot take it yet waits
(09 R232). -/
def Claims.ScalarPrefetch : Prop := ∀ (s : State) (o : BitVec 8) (h : BitVec 2) (a : BitVec 6),
  let va := s.scalarAddr o 3#2 a
  let sync := (own s).sBad a.toNat = false ∧ va.toNat % 8 = 0 ∧ s.prefetchMs s.me va.toNat = true
  let waits := (own s).sBad a.toNat = false ∧ va.toNat % 8 = 0 ∧ s.prefetchBusy s.me va.toNat = true
  (¬sync → ¬waits → Does (.pfetch o h a) s fun t =>
    (t.grp s.me).pc = s.after ∧ WroteNone (own s) (t.grp s.me) ∧ (t.grp s.me).kernel = (own s).kernel ∧ MemoryKept s t ∧
      ∀ g, g ≠ s.me → t.grp g = s.grp g) ∧
  (sync → exec (.pfetch o h a) s = .next (s.abortSync s.me)) ∧
  (¬sync → waits → exec (.pfetch o h a) s = .next (s.stallS 15))

/-- 05 R123, R124: scratchpad accesses, and the prefetch. -/
def Obligations.ScalarScratchpadAndPrefetch : Prop := Claims.ScalarScratchpad ∧ Claims.ScalarPrefetch

/-- The stream has trapped in user mode with a cause and an address (08 R197, R198): the bank holds them and the PC, the handler runs
in kernel mode, and the lane stream is stopped. -/
def Claims.Trapped (s t : State) (c : Nat) (addr : Word) : Prop :=
  (t.grp s.me).bank.xcause = BitVec.ofNat 32 c ∧ (t.grp s.me).bank.xaddr = addr ∧ (t.grp s.me).bank.xpc = (own s).pc ∧
    (t.grp s.me).kernel = true ∧ (t.grp s.me).pc = (s.gTeam s.me).hvec &&& ~~~ 3#64 ∧ (t.grp s.me).laneStopped = true

/-- User mode, outside `try`. -/
def Claims.UserMode (s : State) : Prop := (own s).kernel = false ∧ (own s).inTry = false

/-- 05 R121, R253: a scalar access that is not aligned to its size traps with MISALIGN and its address, and changes no memory and no
register. -/
def Claims.MisalignedAccessTraps : Prop := ∀ (s : State) (o : BitVec 8) (h : BitVec 2) (x : BitVec 1) (z : BitVec 2) (a d : BitVec 6),
  let va := s.scalarAddr o z a
  UserMode s → va.toNat % 2 ^ z.toNat ≠ 0 →
  ∀ i ∈ [Instr.ld o h x z a d, .st o h z a d, .lds o x z a d, .sts o z a d],
    Does i s fun t => Trapped s t 4 va ∧ WroteNone (own s) (t.grp s.me) ∧ OnlyStream s.me s t

/-- 05 R120: `jalr` to an address that is no multiple of four traps with MISALIGN and does not write its destination. -/
def Claims.MisalignedJumpTraps : Prop := ∀ (s : State) (e : BitVec 13) (a d : BitVec 6),
  let target := wrapped ((s.rs a).toNat + e.toInt)
  UserMode s → target.toNat % 4 ≠ 0 →
  Does (.jalr e a d) s fun t => Trapped s t 4 target ∧ WroteNone (own s) (t.grp s.me) ∧ OnlyStream s.me s t

/-- 05 R120, R121, R253: a scalar access or jump to an address that is not aligned traps with MISALIGN. -/
def Obligations.MisalignedTraps : Prop := Claims.MisalignedAccessTraps ∧ Claims.MisalignedJumpTraps

/-! ## Lane arithmetic (02 R32 to R34, 03 R66 to R72, 06, 07) -/

/-- The lanes for which a lane instruction acts (02 R32). -/
def Claims.acting (s : State) (f : LaneWord) : BitVec 16 := (own s).active f

/-- The lane whose operands give lane `t` its result: itself, or under U the lowest acting lane (02 R33). -/
def Claims.lead (f : LaneWord) (m : BitVec 16) (t : Nat) : Nat := if f.u = 1#1 then (lanes m).head?.getD t else t

/-- The register fields of a lane instruction lie below the declared count, aligned to their size, and no outstanding load or atomic
has still to write one of them (03 R72, 02 R34). -/
def Claims.LaneReady (s : State) (f : LaneWord) (regs : List (Nat × Nat)) : Prop :=
  (∀ r ∈ regs, r.1 + r.2 ≤ (s.gTeam s.me).vregs ∧ r.1 % r.2 = 0) ∧ (own s).waitsFor (acting s f) regs = false

/-- Nothing changed but the stream whose step it is, and of it only vector registers (in `try` with their shadow copies), predicates,
`c.chkint`, and the lane PC, which is at the next slot. -/
def Claims.LaneOnly (s t : State) : Prop :=
  OnlyStream s.me s t ∧
    let x := own s
    let y := t.grp s.me
    y = { x with v := y.v, vPoison := y.vPoison, k := y.k, tr := y.tr, chkint := y.chkint, lstall := 0, spawned := none,
                 path := x.path.map fun p => { p with lpc := p.lpc + 12 } }

/-- Register `r + j` of each lane of `m` took the j-th 32-bit word of its value and is clean; every other slot is as it was. -/
def Claims.VecWrote (x y : Group) (m : BitVec 16) (r n : Nat) (val : Nat → Nat) : Prop :=
  ∀ t q, t < 16 →
    if m.getLsbD t ∧ r ≤ q ∧ q < r + n then y.vRaw t q = BitVec.ofNat 32 (val t / 2 ^ (32 * (q - r))) ∧ y.vBad t q = false
    else y.vRaw t q = x.vRaw t q ∧ y.vBad t q = x.vBad t q

/-- No vector register changed. -/
def Claims.VecKept (x y : Group) : Prop := y.v = x.v ∧ y.vPoison = x.vPoison

/-- PCONS is set when one of the lanes whose operands were used consumed poison, and no other bit changed (03 R91). -/
def Claims.LaneConsumed (x y : Group) (f : LaneWord) (m : BitVec 16) (bad : Nat → Bool) : Prop :=
  y.chkint = if (bodyLanes f m).any bad then x.chkint ||| 1 else x.chkint

/-- A lane instruction whose registers are ready, and whose destination fits in the shadow area in `try`, writes each acting lane's
value to its destination registers. -/
def Claims.LaneComputes (i : Instr) (s : State) (f : LaneWord) (srcs : List (Nat × Nat)) (dst : Nat × Nat) (val : Nat → Nat × Bool) : Prop :=
  LaneReady s f (srcs ++ [dst]) → (own s).overflowsShadow [dst] = false →
  Does i s fun t => LaneOnly s t ∧ (t.grp s.me).k = (own s).k ∧
    VecWrote (own s) (t.grp s.me) (acting s f) dst.1 dst.2 (fun l => (val (lead f (acting s f) l)).1) ∧
    LaneConsumed (own s) (t.grp s.me) f (acting s f) (fun l => (val l).2)

/-- A lane instruction whose registers are ready writes each acting lane's bit to a predicate; `k0` stays all ones; no other predicate
and no other lane's bit changes (04 R92, R93). -/
def Claims.LaneTests (i : Instr) (s : State) (f : LaneWord) (srcs : List (Nat × Nat)) (kd : Nat) (val : Nat → Bool × Bool) : Prop :=
  LaneReady s f srcs →
  Does i s fun t => LaneOnly s t ∧ VecKept (own s) (t.grp s.me) ∧ (t.grp s.me).tr = (own s).tr ∧
    (∀ q l, l < 16 → ((t.grp s.me).kGet q).getLsbD l =
      if q = kd ∧ q ≠ 0 ∧ (acting s f).getLsbD l then (val (lead f (acting s f) l)).1 else ((own s).kGet q).getLsbD l) ∧
    LaneConsumed (own s) (t.grp s.me) f (acting s f) (fun l => (val l).2)

/-- An element of a register image: bits [w(e+1)-1 : we] (03 R66). -/
def Claims.part (w x e : Nat) : Nat := x / 2 ^ (w * e) % 2 ^ w

/-- A pattern of an integer type as an integer (06 R144). -/
def Claims.asInt (ty : BitVec 4) (x : Nat) : Int :=
  if tySigned ty ∧ 2 ^ (tyWidth ty - 1) ≤ x % 2 ^ tyWidth ty then ((x % 2 ^ tyWidth ty : Nat) : Int) - 2 ^ tyWidth ty
  else ((x % 2 ^ tyWidth ty : Nat) : Int)

/-- An integer narrowed to a type: clamped to its range under saturation, wrapped otherwise (03 R89, 06 R144). -/
def Claims.narrowed (ty : BitVec 4) (sat : Bool) (v : Int) : Nat :=
  let lo : Int := if tySigned ty then -(2 ^ (tyWidth ty - 1)) else 0
  let hi : Int := if tySigned ty then 2 ^ (tyWidth ty - 1) - 1 else 2 ^ tyWidth ty - 1
  ((if sat then max lo (min v hi) else v) % 2 ^ tyWidth ty).toNat

/-- Every element of an image is what a function of its number says, and the image has no more bits than the type. -/
def Claims.Elements (ty : BitVec 4) (image : Nat) (want : Nat → Nat) : Prop :=
  image < 2 ^ (tyWidth ty * tyCount ty) ∧ ∀ e, e < tyCount ty → part (tyWidth ty) image e = want e

/-- A two-source instruction of one type computes each element by a function of the sources' elements. -/
def Claims.LaneEach2 (i : Instr) (s : State) (f : LaneWord) (fn : Nat → Nat → Nat) : Prop :=
  ∃ val : Nat → Nat × Bool,
    (∀ t, Elements f.ty (val t).1 (fun e =>
        fn (part (tyWidth f.ty) ((own s).srcA f 2 f.ty t).1 e) (part (tyWidth f.ty) ((own s).srcB f 2 f.ty t).1 e)) ∧
      (val t).2 = (((own s).srcA f 2 f.ty t).2 || ((own s).srcB f 2 f.ty t).2)) ∧
    LaneComputes i s f (regA f 2 f.ty ++ regB f 2 f.ty) (f.vd.toNat, wide f.ty) val

/-- The same of one source. -/
def Claims.LaneEach1 (i : Instr) (s : State) (f : LaneWord) (fn : Nat → Nat) : Prop :=
  ∃ val : Nat → Nat × Bool,
    (∀ t, Elements f.ty (val t).1 (fun e => fn (part (tyWidth f.ty) ((own s).srcA f 1 f.ty t).1 e)) ∧
      (val t).2 = ((own s).srcA f 1 f.ty t).2) ∧
    LaneComputes i s f (regA f 1 f.ty) (f.vd.toNat, wide f.ty) val

/-- The same of three sources. -/
def Claims.LaneEach3 (i : Instr) (s : State) (f : LaneWord) (fn : Nat → Nat → Nat → Nat) : Prop :=
  ∃ val : Nat → Nat × Bool,
    (∀ t, Elements f.ty (val t).1 (fun e =>
        fn (part (tyWidth f.ty) ((own s).srcA f 3 f.ty t).1 e) (part (tyWidth f.ty) ((own s).srcB f 3 f.ty t).1 e)
          (part (tyWidth f.ty) ((own s).srcC f f.ty t).1 e)) ∧
      (val t).2 = (((own s).srcA f 3 f.ty t).2 || ((own s).srcB f 3 f.ty t).2 || ((own s).srcC f f.ty t).2)) ∧
    LaneComputes i s f (regA f 3 f.ty ++ regB f 3 f.ty ++ regC f f.ty) (f.vd.toNat, wide f.ty) val

/-- 02 R32, 03 R67, R91: which lanes act, and what a source reads: a register or pair, all of it replaced where poisoned by zero or by
the default NaN of each element; a captured scalar; an immediate. -/
def Claims.LaneSources : Prop := ∀ (x : Group) (f : LaneWord) (ty : BitVec 4) (t n : Nat),
  let k := x.kGet f.guard.toNat
  let reg := fun r => (x.vRaw t r).toNat + if wide ty = 2 then 2 ^ 32 * (x.vRaw t (r + 1)).toNat else 0
  let slotBad := fun r => x.vBad t r || (wide ty = 2 && x.vBad t (r + 1))
  let vec := fun r => if slotBad r then subst ty else reg r
  (t < 16 → ((x.active f).getLsbD t ↔ x.live.getLsbD t ∧ x.pathMask.getLsbD t ∧ (k.getLsbD t ↔ f.gneg = 0#1))) ∧
  (x.kGet 0 = BitVec.allOnes 16) ∧
  (f.kind ≠ 2#2 ∨ n ≠ 1 → x.srcA f n ty t = (vec f.va.toNat, slotBad f.va.toNat)) ∧
  (f.kind = 0#2 → x.srcB f n ty t = (vec f.vb.toNat, slotBad f.vb.toNat) ∧ x.srcC f ty t = (vec f.vc.toNat, slotBad f.vc.toNat)) ∧
  (f.kind = 1#2 ∨ f.kind = 3#2 → x.srcB f n ty t = ((x.cap (f.vb.toNat % 16)).toNat % 2 ^ (32 * wide ty), false)) ∧
  (f.kind = 2#2 → x.srcA f 1 ty t = (srcImm ty f.imm, false) ∧ x.srcB f 2 ty t = (srcImm ty f.imm, false) ∧
    x.srcB f 3 ty t = (vec f.vb.toNat, slotBad f.vb.toNat)) ∧
  (f.kind = 2#2 ∨ f.kind = 3#2 → x.srcC f ty t = (srcImm ty f.imm, false)) ∧
  (ty ≠ 3#4 → ty ≠ 5#4 → srcImm ty f.imm = f.imm.toNat) ∧ srcImm 3#4 f.imm = (BitVec.ofInt 64 f.imm.toInt).toNat ∧
  (∀ e, e < tyCount ty → part (tyWidth ty) (subst ty) e = if tyFloat ty then (fmtOf ty).nan else 0)

/-- 06 R147: sums, differences, products and their high halves, minima, maxima, absolute values and differences, by element; the
modifier's top bit saturates. -/
def Obligations.LaneArithmetic : Prop := ∀ (s : State) (f : LaneWord), tyFloat f.ty = false →
  let sat := f.md.getLsbD 3
  let v := asInt f.ty
  let n := narrowed f.ty sat
  LaneEach2 (.vadd f) s f (fun a b => n (v a + v b)) ∧
  LaneEach2 (.vsub f) s f (fun a b => n (v a - v b)) ∧
  LaneEach2 (.vmul f) s f (fun a b => n (v a * v b)) ∧
  LaneEach2 (.vmulh f) s f (fun a b => narrowed f.ty false (v a * v b / 2 ^ tyWidth f.ty)) ∧
  LaneEach3 (.vmad f) s f (fun a b c => n (v a * v b + v c)) ∧
  LaneEach2 (.vmin f) s f (fun a b => if v b < v a then b else a) ∧
  LaneEach2 (.vmax f) s f (fun a b => if v a < v b then b else a) ∧
  LaneEach1 (.vabs f) s f (fun a => n (if v a < 0 then -v a else v a)) ∧
  LaneEach2 (.vabsdiff f) s f (fun a b => n (max (v a) (v b) - min (v a) (v b)))

/-- 06 R149 to R152: bitwise operations, shifts and rotates by an element modulo the width, counts, and bit fields. -/
def Obligations.LaneBitwise : Prop := ∀ (s : State) (f : LaneWord), tyFloat f.ty = false →
  let w := tyWidth f.ty
  LaneEach2 (.vand f) s f (fun a b => a &&& b) ∧
  LaneEach2 (.vor f) s f (fun a b => a ||| b) ∧
  LaneEach2 (.vxor f) s f (fun a b => a ^^^ b) ∧
  (tyCount f.ty = 1 → LaneEach1 (.vnot f) s f (fun a => 2 ^ w - 1 - a)) ∧
  LaneEach2 (.vshl f) s f (fun a b => a * 2 ^ (b % w) % 2 ^ w) ∧
  LaneEach2 (.vshr f) s f (fun a b => a / 2 ^ (b % w)) ∧
  LaneEach2 (.vsra f) s f (fun a b =>
    ((if 2 ^ (w - 1) ≤ a then (a : Int) - 2 ^ w else a) / 2 ^ (b % w) % 2 ^ w).toNat) ∧
  LaneEach2 (.vrot f) s f (fun a b => (a * 2 ^ (b % w) + a / 2 ^ (w - b % w)) % 2 ^ w) ∧
  (∃ fn : Nat → Nat, LaneEach1 (.vclz f) s f fn ∧
    ∀ a, a < 2 ^ w → (a = 0 ∧ fn a = w) ∨ (fn a < w ∧ 2 ^ (w - 1 - fn a) ≤ a ∧ a < 2 ^ (w - fn a))) ∧
  LaneEach1 (.vpopc f) s f (fun a => ((List.range w).map fun i => a / 2 ^ i % 2).sum) ∧
  (tyCount f.ty = 1 → LaneEach2 (.vbfx f) s f (fun a b =>
    let p := b % 64
    let n := min (b / 2 ^ 8 % 128) (w - p)
    let v := a / 2 ^ p % 2 ^ n
    if tySigned f.ty ∧ 0 < n ∧ 2 ^ (n - 1) ≤ v then v + 2 ^ w - 2 ^ n else v)) ∧
  (tyCount f.ty = 1 → ∃ fn : Nat → Nat → Nat → Nat, LaneEach3 (.vbfi f) s f fn ∧
    ∀ a b c, a < 2 ^ w → c < 2 ^ w → ∀ i, i < w →
      let p := b % 64
      (fn a b c).testBit i = if p ≤ i ∧ i < p + b / 2 ^ 8 % 128 then a.testBit (i - p) else c.testBit i)

/-! ## Lane comparison, selection and movement (06 R153 to R162) -/

/-- 06 R153 to R156, R158, R161, R162: comparisons into a predicate, alone or with the predicate's bit; selection; the four-way dot
product; copies, byte permutes, predicate logic and predicate moves. -/
def Claims.LaneComparesAndMoves : Prop := ∀ (s : State) (f : LaneWord),
  let x := own s
  let ab := regA f 2 f.ty ++ regB f 2 f.ty
  let a := fun l => x.srcA f 2 f.ty l
  let b := fun l => x.srcB f 2 f.ty l
  let d := (f.vd.toNat, wide f.ty)
  let kd := f.vd.toNat % 8
  let bit := fun (q : BitVec 8) l => (x.kGet (q.toNat % 8)).getLsbD l
  let cond : Int → Int → Bool := fun p q =>
    match f.sub.toNat with
    | 0 => p = q
    | 1 => p ≠ q
    | 2 => p < q
    | 3 => p ≤ q
    | 4 => q < p
    | _ => q ≤ p
  let with_ : Bool → Bool → Bool := fun old new =>
    match f.md.toNat % 8 with
    | 0 => new
    | 1 => old && new
    | _ => old || new
  let logic : Bool → Bool → Bool := fun p q =>
    match f.sub.toNat with
    | 0 => p && q
    | 1 => p || q
    | 2 => p != q
    | 3 => p && !q
    | 4 => p || !q
    | 5 => !p
    | _ => p
  LaneTests (.vcmp f) s f ab kd (fun l => (with_ (bit f.vd l) (cond (asInt f.ty (a l).1) (asInt f.ty (b l).1)), (a l).2 || (b l).2)) ∧
  LaneComputes (.vsel f) s f ab d (fun l => (if bit f.vc l then (a l).1 else (b l).1, (a l).2 || (b l).2)) ∧
  LaneComputes (.vmov f) s f (regB f 2 f.ty) d b ∧
  LaneTests (.vkop f) s f [] kd (fun l => (logic (bit f.va l) (bit f.vb l), false)) ∧
  (f.sub = 0#4 → LaneComputes (.vkmov f) s f [] (f.vd.toNat, 1) (fun _ => ((x.kGet (f.va.toNat % 8)).toNat, false))) ∧
  (f.sub ≠ 0#4 → LaneTests (.vkmov f) s f (regB f 2 0#4) kd
    (fun l => ((x.srcB f 2 0#4 l).1 / 2 ^ l % 2 = 1, (x.srcB f 2 0#4 l).2))) ∧
  (∃ val : Nat → Nat × Bool,
    (∀ l i, i < 4 →
      let pool := (x.srcA f 3 0#4 l).1 % 2 ^ 32 + 2 ^ 32 * ((x.srcB f 3 0#4 l).1 % 2 ^ 32)
      let c := part 8 (x.srcC f 0#4 l).1 i
      let p := part 8 pool (c % 8)
      part 8 (val l).1 i = match c / 8 % 4 with
        | 0 => p
        | 1 => p % 16 * 16 + p / 16
        | 2 => 0
        | _ => 255) ∧
    (∀ l, (val l).1 < 2 ^ 32 ∧ (val l).2 = ((x.srcA f 3 0#4 l).2 || (x.srcB f 3 0#4 l).2 || (x.srcC f 0#4 l).2)) ∧
    LaneComputes (.vprmt f) s f (regA f 3 0#4 ++ regB f 3 0#4 ++ regC f 0#4) (f.vd.toNat, 1) val) ∧
  (f.ty = 11#4 ∨ f.ty = 12#4 →
    let mix := f.sub = 1#4
    let tb : BitVec 4 := if mix then (if f.ty = 11#4 then 12#4 else 11#4) else f.ty
    let tr : BitVec 4 := if f.ty = 12#4 ∧ ¬mix then 0#4 else 1#4
    let sa := fun l => x.srcA f 3 f.ty l
    let sb := fun l => x.srcB f 3 tb l
    let sc := fun l => x.srcC f 1#4 l
    LaneComputes (.vdp4 f) s f (regA f 3 f.ty ++ regB f 3 tb ++ regC f 1#4) (f.vd.toNat, 1) (fun l =>
      (narrowed tr (f.md.getLsbD 3) (asInt tr (sc l).1 +
        ((List.range 4).map fun e => asInt f.ty (part 8 (sa l).1 e) * asInt tb (part 8 (sb l).1 e)).sum),
       (sa l).2 || (sb l).2 || (sc l).2)))

/-- 06 R157: the lane that a shuffle reads for a lane, by its mode and B; none beyond lane 15 or before lane 0. -/
def Claims.shuffled (mode b l : Nat) : Option Nat :=
  let n : Int := match mode with
    | 0 => (b % 16 : Nat)
    | 1 => (l : Int) - (b % 32 : Nat)
    | 2 => (l : Int) + (b % 32 : Nat)
    | _ => (l ^^^ (b % 16) : Nat)
  if 0 ≤ n ∧ n ≤ 15 then some n.toNat else none

/-- 06 R157, R159: `vshfl` writes the value of the lane it reads where that lane acts, its own else, and says which in a predicate;
`vspec` writes zero outside `try` and a status with bit 0 set inside. -/
def Claims.LaneShuffle : Prop := ∀ (s : State) (f : LaneWord),
  let x := own s
  let m := acting s f
  let d := (f.vd.toNat, wide f.ty)
  let source := fun l => (shuffled f.sub.toNat (x.srcB f 2 f.ty l).1 l).filter fun n => m.getLsbD n
  let reads := fun l => (source l).getD l
  (LaneReady s f (regA f 2 f.ty ++ regB f 2 f.ty ++ [d]) → x.overflowsShadow [d] = false →
    Does (.vshfl f) s fun t => LaneOnly s t ∧
      VecWrote x (t.grp s.me) m d.1 d.2 (fun l => (x.srcA f 2 f.ty (reads (lead f m l))).1) ∧
      (∀ q l, l < 16 → ((t.grp s.me).kGet q).getLsbD l =
        if q = f.vc.toNat % 8 ∧ q ≠ 0 ∧ m.getLsbD l then (source (lead f m l)).isSome else (x.kGet q).getLsbD l) ∧
      LaneConsumed x (t.grp s.me) f m (fun l => (x.srcA f 2 f.ty (reads l)).2 || (x.srcB f 2 f.ty l).2)) ∧
  (∃ val : Nat → Nat × Bool, (∀ l, (val l).2 = false ∧ ((x.tr = none ∧ (val l).1 = 0) ∨ (x.tr.isSome ∧ (val l).1 % 2 = 1))) ∧
    LaneComputes (.vspec f) s f [] (f.vd.toNat, 1) val)

/-- 06: comparisons, moves and selections of lanes, and shuffles among them. -/
def Obligations.LaneMovesAndShuffles : Prop := Claims.LaneComparesAndMoves ∧ Claims.LaneShuffle

/-! ## Lane floats (07) -/

/-- A quotient of naturals lies at or below the magnitude of a pattern of a format, exactly. -/
def Claims.below (g : Fmt) (n d p : Nat) : Prop := ∃ m e, g.value p = .fin false m e ∧ 0 < e ∧ n * e ≤ m * d

/-- 07 R179: rounding a positive quotient toward zero gives the greatest pattern that is not above it, or the largest; every other
rounding code gives that pattern or the next; and a value that a pattern has rounds to that pattern under every code. -/
def Obligations.FloatRounding : Prop := ∀ (ty : BitVec 4) (n d : Nat), tyFloat ty = true → 0 < n → 0 < d →
  let g := fmtOf ty
  let p := g.roundFin 1 false false n d
  p ≤ g.largest ∧
  (∃ m e, g.value p = .fin false m e ∧ 0 < e ∧ m * d ≤ n * e) ∧
  (p < g.largest → ¬ below g n d p ∨ ∃ m e, g.value p = .fin false m e ∧ n * e = m * d) ∧
  (p < g.largest → below g n d (p + 1)) ∧
  (∀ rm sat, rm < 5 → p < g.largest → g.roundFin rm sat false n d = p ∨ g.roundFin rm sat false n d = p + 1) ∧
  (∀ rm sat, rm < 5 → (∃ m e, g.value p = .fin false m e ∧ n * e = m * d) → g.roundFin rm sat false n d = p)

/-- 07 R184 to R189: float sums, products, fused products, minima and maxima, the two-way dot product, and rounding to integral
values: each element computed exactly and rounded once; comparisons and classes into a predicate. -/
def Obligations.LaneFloats : Prop := ∀ (s : State) (f : LaneWord), tyFloat f.ty = true →
  let x := own s
  let g := fmtOf f.ty
  let rm := f.md.toNat % 8
  let round := fun v => g.round rm (f.md.getLsbD 3) v % 2 ^ tyWidth f.ty
  let ab := regA f 2 f.ty ++ regB f 2 f.ty
  let a := fun l => x.srcA f 2 f.ty l
  let b := fun l => x.srcB f 2 f.ty l
  let kd := f.vd.toNat % 8
  let with_ : Bool → Bool → Bool := fun old new =>
    match f.md.toNat % 8 with
    | 0 => new
    | 1 => old && new
    | _ => old || new
  let cond : FVal → FVal → Bool := fun p q =>
    let ordered := p ≠ .nan ∧ q ≠ .nan
    match f.sub.toNat with
    | 0 => ordered ∧ ¬(p.lt q) ∧ ¬(q.lt p)
    | 1 => ¬ordered ∨ p.lt q ∨ q.lt p
    | 2 => ordered ∧ p.lt q
    | 3 => ordered ∧ ¬(q.lt p)
    | 4 => ordered ∧ q.lt p
    | 5 => ordered ∧ ¬(p.lt q)
    | 6 => ¬ordered
    | _ => ordered
  LaneEach2 (.vfadd f) s f (fun p q => round (FVal.add rm (g.value p) (g.value q))) ∧
  LaneEach2 (.vfmul f) s f (fun p q => round (FVal.mul (g.value p) (g.value q))) ∧
  LaneEach3 (.vffma f) s f (fun p q r => round (FVal.add rm (FVal.mul (g.value p) (g.value q)) (g.value r))) ∧
  LaneEach2 (.vfmin f) s f (fun p q => (if g.value p = .nan then (if g.value q = .nan then g.nan else q) else if g.value q = .nan then p
    else if (g.value q).lt (g.value p) || ((g.value q).isZero && (g.value p).isZero && (g.value q).sign && !(g.value p).sign) then q else p)
      % 2 ^ tyWidth f.ty) ∧
  LaneEach2 (.vfmax f) s f (fun p q => (if g.value p = .nan then (if g.value q = .nan then g.nan else q) else if g.value q = .nan then p
    else if (g.value p).lt (g.value q) || ((g.value p).isZero && (g.value q).isZero && (g.value p).sign && !(g.value q).sign) then q else p)
      % 2 ^ tyWidth f.ty) ∧
  (∃ fn : Nat → Nat, LaneEach1 (.vfround f) s f (fun p => fn p % 2 ^ tyWidth f.ty) ∧
    ∀ p, (g.value p = .nan → fn p = g.nan) ∧ (∀ n, g.value p = .inf n → fn p = p) ∧
      (∀ sg n d, g.value p = .fin sg n d → ∃ k : Nat, fn p = g.roundFin 0 false sg k 1 ∧
        (k = n / d ∨ k = n / d + 1) ∧ (n % d = 0 → k = n / d) ∧ (rm = 1 → k = n / d))) ∧
  (tyCount f.ty = 2 →
    let p := fun l e => FVal.mul (g.value (part 16 (x.srcA f 3 f.ty l).1 e)) (g.value (part 16 (x.srcB f 3 f.ty l).1 e))
    LaneComputes (.vfdot2 f) s f (regA f 3 f.ty ++ regB f 3 f.ty ++ regC f 4#4) (f.vd.toNat, 1) (fun l =>
      (fp32.round rm (f.md.getLsbD 3) (FVal.add rm (FVal.add rm (fp32.value (x.srcC f 4#4 l).1) (p l 0)) (p l 1)),
       (x.srcA f 3 f.ty l).2 || (x.srcB f 3 f.ty l).2 || (x.srcC f 4#4 l).2))) ∧
  LaneTests (.vfcmp f) s f ab kd (fun l =>
    (with_ ((x.kGet kd).getLsbD l) (cond (g.value (a l).1) (g.value (b l).1)), (a l).2 || (b l).2)) ∧
  (f.ty = 4#4 ∨ f.ty = 5#4 → ∃ cls : Nat → Nat,
    LaneTests (.vfclass f) s f (regA f 1 f.ty) kd (fun l => (f.imm.getLsbD (cls (x.srcA f 1 f.ty l).1), (x.srcA f 1 f.ty l).2)) ∧
    ∀ p, (g.value p = .nan → cls p = 8 ∨ cls p = 9) ∧ (g.value p = .inf true → cls p = 0) ∧ (g.value p = .inf false → cls p = 7) ∧
      (∀ sg n d, g.value p = .fin sg n d → 0 < d →
        let small := n * 2 ^ (g.bias - 1) < d
        cls p = if sg then (if n = 0 then 3 else if small then 2 else 1) else (if n = 0 then 4 else if small then 5 else 6)))

/-- 07 R192, R194, R196: conversion by shape (element by element, into one element with the others kept, out of one element), and
packing of eight products into codes and a scale, with unpacking. -/
def Obligations.LaneConversions : Prop := ∀ (s : State) (f : LaneWord),
  let x := own s
  let rm := f.md.toNat % 8
  let conv := fun v => convert f.sub f.ty rm (f.md.getLsbD 3) v
  let cs := tyCount f.sub
  let cd := tyCount f.ty
  let e := f.imm.toNat % 8
  let a := fun l => x.srcA f 1 f.sub l
  let d := (f.vd.toNat, wide f.ty)
  (cs = cd ∨ cs = 1 ∨ cd = 1 → ∃ val : Nat → Nat × Bool,
    LaneComputes (.vcvt f) s f (regA f 1 f.sub ++ if cs = 1 ∧ 1 < cd then [d] else []) d val ∧
    (cs = cd → ∀ l i, i < cd → part (tyWidth f.ty) (val l).1 i = conv (part (tyWidth f.sub) (a l).1 i) % 2 ^ tyWidth f.ty ∧ (val l).2 = (a l).2) ∧
    (cs = 1 → 1 < cd → ∀ l i, i < cd → (own s).vBad l d.1 = false →
      part (tyWidth f.ty) (val l).1 i = if i = e then conv (a l).1 % 2 ^ tyWidth f.ty else part (tyWidth f.ty) ((own s).vRaw l d.1).toNat i) ∧
    (1 < cs → cd = 1 → ∀ l, (val l).1 = conv (part (tyWidth f.sub) (a l).1 e))) ∧
  (let given := f.sub = 2#4
   let n := if given then 3 else 2
   let xs := fun l i => x.srcReg 4#4 l (f.va.toNat + i)
   let m := fun l => x.srcB f n 4#4 l
   let c := fun l => if given then x.srcC f 0#4 l else (0, false)
   let ys := fun l i => FVal.mul (fp32.value (xs l i).1) (fp32.value (m l).1)
   let sc := fun l => blockScale f.sub.toNat ((List.range 8).map (ys l)) (c l).1
   ∃ val : Nat → Nat × Bool,
    LaneComputes (.vpackbs f) s f ((f.va.toNat, 8) :: regB f n 4#4 ++ if given then regC f 0#4 else []) (f.vd.toNat, 2) val ∧
    (∀ l, (∀ i, i < 8 → part 4 (val l).1 i = blockCode rm (sc l) (ys l i) % 16) ∧ (val l).1 / 2 ^ 32 = sc l ∧
      (val l).2 = (((List.range 8).any fun i => (xs l i).2) || (m l).2 || (c l).2)) ∧
    (f.sub = 0#4 → ∀ l, (∃ i, i < 8 ∧ (ys l i).isZero = false ∧ ys l i ≠ .nan) →
      (∀ i, i < 8 → ys l i ≠ .inf true ∧ ys l i ≠ .inf false) →
      0 < sc l ∧ sc l ≤ 0xFE ∧
      (∀ i sg p q, i < 8 → ys l i = .fin sg p q → sc l < 0xFE → e3m5Ge (sc l) p (6 * q) = true) ∧
      (1 < sc l → ∃ i sg p q, i < 8 ∧ ys l i = .fin sg p q ∧ e3m5Ge (sc l - 1) p (6 * q) = false))) ∧
  (∃ val : Nat → Nat × Bool,
    LaneComputes (.vunpackbs f) s f ((f.va.toNat, 2) :: regB f 2 4#4) (f.vd.toNat, 8) val ∧
    ∀ l i, i < 8 → part 32 (val l).1 i = blockValue rm (part 4 (x.srcReg 10#4 l f.va.toNat).1 i)
      ((x.srcReg 0#4 l (f.va.toNat + 1)).1 % 256) (x.srcB f 2 4#4 l).1 % 2 ^ 32)

/-! ## Long-latency lane instructions (02 R38, 03 R75, 06 R148, R160, 07 R190, R191) -/

/-- A long-latency instruction of a running clause issues with a flag: the lane PC goes on, and the flag is to be lowered at a landing,
or is lowered now when no lane acts (02 R38). `x1` is the stream with the flag as 03 R75 counts it. -/
def Claims.LongIssued (s t : State) (m : BitVec 16) (x1 : Group) (flag : Option Nat) (dst : Option (Nat × Word)) : Prop :=
  let y := t.grp s.me
  OnlyStream s.me s t ∧ y.path = (own s).path.map (fun p => { p with lpc := p.lpc + 12 }) ∧ y.pc = (own s).pc ∧
    (∀ h, y.flag h = if m = 0 ∧ flag = some h then x1.flag h - 1 else x1.flag h) ∧
    y.pending = if m = 0 ∨ (flag = none ∧ dst = none) then (own s).pending else (own s).pending ++ [{ slot := (own s).slot, flag, dst }]

/-- A long-latency instruction that writes vector registers. -/
def Claims.LaneLong (i : Instr) (s : State) (f : LaneWord) (srcs : List (Nat × Nat)) (dst : Nat × Nat) (val : Nat → Nat × Bool) : Prop :=
  LaneReady s f (srcs ++ [dst]) → (own s).overflowsShadow [dst] = false → ∀ x1 flag, (own s).issueLL f = some (x1, flag) →
  Does i s fun t => LongIssued s t (acting s f) x1 flag none ∧ WroteNone (own s) (t.grp s.me) ∧
    VecWrote (own s) (t.grp s.me) (acting s f) dst.1 dst.2 (fun l => (val (lead f (acting s f) l)).1) ∧
    LaneConsumed (own s) (t.grp s.me) f (acting s f) (fun l => (val l).2)

/-- 03 R75: the first execution of a slot counted at enqueue uses the flag raised there; a later one raises the flag of the header's
set, and waits while it stands at 63. -/
def Claims.LongLatencyFlags : Prop := ∀ (x : Group) (f : LaneWord) (r : ClauseRun) (a : Word) (h : ClauseHeader),
  x.run = some r → x.curClause = some (a, h) →
  let i := (x.slot - a).toNat / 12
  let own' := r.entry.counts.find? fun c => c.1 = i
  (∀ c, x.inCall = false → own' = some c → i ∉ r.reached →
    x.issueLL f = some ({ x with run := some { r with reached := r.reached ++ [i] } }, some c.2)) ∧
  (x.inCall = true ∨ own' = none ∨ i ∈ r.reached →
    match (if f.md.getLsbD 3 then h.setB else h.setA) with
    | none => x.issueLL f = some (x, none)
    | some k => (63 ≤ x.flag k → x.issueLL f = none) ∧
        (x.flag k < 63 → ∃ y, x.issueLL f = some (y, some k) ∧ ∀ j, y.flag j = if j = k then x.flag k + 1 else x.flag j))

/-- 06 R148, 07 R190, R191: lane division and the float special functions, with what the spec says of zeros, infinities and NaN. -/
def Claims.LaneDivisionAndRoots : Prop := ∀ (s : State) (f : LaneWord),
  let x := own s
  let g := fmtOf f.ty
  let w := tyWidth f.ty
  let ab := regA f 2 f.ty ++ regB f 2 f.ty
  let a := fun l => x.srcA f 2 f.ty l
  let b := fun l => x.srcB f 2 f.ty l
  let d := (f.vd.toNat, wide f.ty)
  let a1 := fun l => x.srcA f 1 f.ty l
  let one := fun i (fn : Nat → Nat) => LaneLong i s f (regA f 1 f.ty) d (fun l => (fn (a1 l).1, (a1 l).2))
  let quot : Nat → Nat → Int := fun p q => (asInt f.ty p).tdiv (asInt f.ty q)
  (tyCount f.ty = 1 → LaneLong (.vdiv f) s f ab d (fun l => (if (b l).1 % 2 ^ w = 0 then 2 ^ w - 1
    else (quot (a l).1 (b l).1 % 2 ^ w).toNat, (a l).2 || (b l).2))) ∧
  (tyCount f.ty = 1 → LaneLong (.vrem f) s f ab d (fun l => (if (b l).1 % 2 ^ w = 0 then (a l).1
    else ((asInt f.ty (a l).1 - quot (a l).1 (b l).1 * asInt f.ty (b l).1) % 2 ^ w).toNat, (a l).2 || (b l).2))) ∧
  (∃ fn : Nat → Nat → Nat, LaneLong (.vfdiv f) s f ab d (fun l => (fn (a l).1 (b l).1, (a l).2 || (b l).2)) ∧
    ∀ p q, (g.value p = .nan ∨ g.value q = .nan → fn p q = g.nan) ∧
      (∀ sg n e sh m h, g.value p = .fin sg n e → g.value q = .fin sh m h →
        (n = 0 → m = 0 → fn p q = g.nan) ∧ (n ≠ 0 → m = 0 → fn p q = g.overflow (sg != sh)) ∧
        (m ≠ 0 → fn p q = g.roundFin (f.md.toNat % 8) false (sg != sh) (n * h) (e * m))) ∧
      (∀ sg n e sh, g.value p = .fin sg n e → g.value q = .inf sh → fn p q = signBit g (sg != sh)) ∧
      (∀ sg sh, g.value p = .inf sg → g.value q = .inf sh → fn p q = g.nan)) ∧
  (∃ fn : Nat → Nat, one (.vfsqrt f) fn ∧ ∀ p, (g.value p = .nan → fn p = g.nan) ∧ (g.value p = .inf false → fn p = g.overflow false) ∧
    (g.value p = .inf true → fn p = g.nan) ∧ (∀ sg n e, g.value p = .fin sg n e →
      (n = 0 → fn p = signBit g sg) ∧ (n ≠ 0 → sg = true → fn p = g.nan))) ∧
  (∃ fn : Nat → Nat, one (.vfrcp f) fn ∧ fn 0 = 0x7F800000 ∧ fn 0x80000000 = 0xFF800000 ∧ fn 0x7F800000 = 0 ∧ fn 0xFF800000 = 0x80000000 ∧
    fn 0x7FC00000 = 0x7FC00000 ∧ fn 0x40000000 = 0x3F000000 ∧ fn 1 = 0x7F800000 ∧ fn 0x80000001 = 0xFF800000) ∧
  (∃ fn : Nat → Nat, one (.vfrsq f) fn ∧ fn 0 = 0x7F800000 ∧ fn 0x80000000 = 0xFF800000 ∧ fn 0x7F800000 = 0 ∧ fn 0xBF800000 = 0x7FC00000 ∧
    fn 0x7FC00000 = 0x7FC00000 ∧ fn 0x40800000 = 0x3F000000) ∧
  (∃ fn : Nat → Nat, one (.vfexp2 f) fn ∧ fn 0 = 0x3F800000 ∧ fn 0xFF800000 = 0 ∧ fn 0x7F800000 = 0x7F800000 ∧ fn 0x43000000 = 0x7F800000 ∧
    fn 0xC3150000 = 1 ∧ fn 0x7FC00000 = 0x7FC00000) ∧
  (∃ fn : Nat → Nat, one (.vflog2 f) fn ∧ fn 0 = 0xFF800000 ∧ fn 0x80000000 = 0xFF800000 ∧ fn 0xBF800000 = 0x7FC00000 ∧
    fn 0x7F800000 = 0x7F800000 ∧ fn 0x41000000 = 0x40400000 ∧ fn 0x7FC00000 = 0x7FC00000) ∧
  (∃ fn : Nat → Nat, one (.vfsin f) fn ∧ fn 0 = 0 ∧ fn 0x80000000 = 0x80000000 ∧ fn 0x7F800000 = 0x7FC00000 ∧ fn 0x7FC00000 = 0x7FC00000) ∧
  (∃ fn : Nat → Nat, one (.vfcos f) fn ∧ fn 0 = 0x3F800000 ∧ fn 0x80000000 = 0x3F800000 ∧ fn 0x7F800000 = 0x7FC00000 ∧
    fn 0x7FC00000 = 0x7FC00000)

/-- A long-latency lane instruction runs wherever its registers are ready, its destination fits in the shadow area in `try`, and the flag that
its clause's header names for it stands below 63: `exec` answers the next state, in which the lane PC is at the next slot, the scalar stream is
where it was, and the acting lanes' destinations, and no other slot, are written and clean. -/
def Claims.LongCompletes (i : Instr) (s : State) (f : LaneWord) (srcs : List (Nat × Nat)) (dst : Nat × Nat) : Prop :=
  LaneReady s f (srcs ++ [dst]) → (own s).overflowsShadow [dst] = false →
  (∀ a h k, (own s).curClause = some (a, h) → (if f.md.getLsbD 3 then h.setB else h.setA) = some k → (own s).flag k < 63) →
  ∃ t, exec i s = .next t ∧ (t.grp s.me).path = (own s).path.map (fun p => { p with lpc := p.lpc + 12 }) ∧ (t.grp s.me).pc = (own s).pc ∧
    (∃ val : Nat → Nat, VecWrote (own s) (t.grp s.me) (acting s f) dst.1 dst.2 val) ∧ WroteNone (own s) (t.grp s.me) ∧ OnlyStream s.me s t

/-- 06 R148, 07 R190, R191: lane division and the float special functions complete, of every type, for every operand: zeros, infinities, NaN
and poisoned ones among them. -/
def Claims.LongLatencyCompletes : Prop := ∀ (s : State) (f : LaneWord),
  let ab := regA f 2 f.ty ++ regB f 2 f.ty
  let d := (f.vd.toNat, wide f.ty)
  (∀ i ∈ [Instr.vdiv f, .vrem f, .vfdiv f], LongCompletes i s f ab d) ∧
  (∀ i ∈ [Instr.vfrcp f, .vfrsq f, .vfsqrt f, .vfexp2 f, .vflog2 f, .vfsin f, .vfcos f], LongCompletes i s f (regA f 1 f.ty) d)

/-- 02 R38, 06, 07: long-latency instructions: their results and their flags, and that each of them completes. -/
def Obligations.LongLatencyInstructions : Prop := Claims.LaneDivisionAndRoots ∧ Claims.LongLatencyFlags ∧ Claims.LongLatencyCompletes

/-- 06 R160: votes and reductions over the lanes whose values they use report to a scalar register at their landing, at once when no
lane acts. -/
def Obligations.LaneReports : Prop := ∀ (s : State) (f : LaneWord) (x1 : Group) (flag : Option Nat),
  let x := own s
  let m := acting s f
  let ls := bodyLanes f m
  let dst := f.vd.toNat % 64
  let yes := ls.filter fun l => (x.kGet (f.va.toNat % 8)).getLsbD l
  let vs := ls.map fun l => (x.srcReg f.ty l f.va.toNat).1
  let is := vs.map (asInt f.ty)
  let reported := fun i (bad : Nat → Bool) (p : Word → Prop) => Does i s fun t => ∃ v, p v ∧
    LongIssued s t m x1 flag (some (dst, v)) ∧ VecKept x (t.grp s.me) ∧ LaneConsumed x (t.grp s.me) f m bad ∧
    (∀ r, r ≠ dst ∨ m ≠ 0 → (t.grp s.me).sGet r = x.sGet r) ∧ (m = 0 → dst ≠ 0 → (t.grp s.me).sGet dst = v)
  x.issueLL f = some (x1, flag) →
  reported (.vvote f) (fun _ => false) (fun v => match f.sub.toNat with
    | 0 => ∀ l, v.getLsbD l = decide (l ∈ yes)
    | 1 => v = if yes = [] then 0 else 1
    | 2 => v = if yes = ls then 1 else 0
    | _ => v = BitVec.ofNat 64 yes.length) ∧
  (tyCount f.ty = 1 → tyFloat f.ty = false → LaneReady s f [(f.va.toNat, wide f.ty)] →
    reported (.vredsc f) (fun l => (x.srcReg f.ty l f.va.toNat).2) (fun v => match f.sub.toNat with
      | 0 => v = BitVec.ofInt 64 is.sum
      | 1 => is ≠ [] → ∃ y ∈ is, v = BitVec.ofInt 64 y ∧ ∀ z ∈ is, y ≤ z
      | 2 => is ≠ [] → ∃ y ∈ is, v = BitVec.ofInt 64 y ∧ ∀ z ∈ is, z ≤ y
      | 3 => ∀ i, i < 64 → v.getLsbD i = vs.all fun n => n.testBit i
      | 4 => ∀ i, i < 64 → v.getLsbD i = vs.any fun n => n.testBit i
      | _ => ∀ i, i < 64 → v.getLsbD i = decide ((vs.filter fun n => n.testBit i).length % 2 = 1)))

/-- The stream runs in user mode, outside `try`, and no scalar access of it is on its way to another device (08 R201). -/
def Claims.LaneUser (s : State) : Prop := UserMode s ∧ (own s).inFlight false = false

/-- 03 R72, R69: a register field beyond the declared count, or a pair that is not aligned, traps with ILLEGAL at the slot, with the
acting lanes; no lane changes and the lane PC stays. -/
def Claims.LaneFieldTraps : Prop := ∀ (s : State) (f : LaneWord) (r : Nat × Nat),
  LaneUser s → ((own s).path).isSome →
  let bad := fun (l : List (Nat × Nat)) => r ∈ l ∧ ((s.gTeam s.me).vregs < r.1 + r.2 ∨ r.1 % r.2 ≠ 0)
  let ab := regA f 2 f.ty ++ regB f 2 f.ty
  let d := (f.vd.toNat, wide f.ty)
  let traps := fun i => Does i s fun t =>
    (t.grp s.me).bank.xcause = 0x101 ∧ (t.grp s.me).bank.xlpc = (own s).slot ∧ (t.grp s.me).bank.xmask = (acting s f).setWidth 32 ∧
      (t.grp s.me).kernel = true ∧ (t.grp s.me).laneStopped = true ∧ (t.grp s.me).pc = (s.gTeam s.me).hvec &&& ~~~ 3#64 ∧
      VecKept (own s) (t.grp s.me) ∧ (t.grp s.me).k = (own s).k ∧ (t.grp s.me).path = (own s).path ∧ OnlyStream s.me s t
  (bad (ab ++ [d]) → ∀ i ∈ [Instr.vadd f, .vsub f, .vmul f, .vand f, .vshl f, .vsel f, .vshfl f, .vdiv f, .vfadd f, .vfdiv f], traps i) ∧
  (bad ab → traps (.vcmp f) ∧ traps (.vfcmp f)) ∧
  (bad [(f.va.toNat, 1)] → traps (.vbrax f))

/-! ## Lane control (02 R40 to R46, 06 R163 to R171) -/

/-- The lane stream went on: nothing changed but the stream, and of it only its path, its mark-join stack and its live lanes. -/
def Claims.LaneWent (s t : State) (path : Option Path) (stack : List MJEntry) (live : BitVec 16) : Prop :=
  OnlyStream s.me s t ∧ t.grp s.me = { own s with path, stack, live, lstall := 0, spawned := none }

/-- The path that goes on at slot `n` of the clause at `a` with the lanes `m`. -/
def Claims.pathAt (a : Word) (m : BitVec 16) (n : Nat) : Path := { mask := m, lpc := a + BitVec.ofNat 64 (12 * n) }

/-- Where a branch of the lanes of a path goes (02 R42, 06 R164, R165): its parts, of which the first runs and the others wait at the
front of the ring of the mark entry on top; after a taken backward branch the running one goes to the ring's end and the next runs. -/
def Claims.branched (stack : List MJEntry) (parts : List Path) (back : Bool) : Option Path × List MJEntry :=
  match parts, stack with
  | p :: ps, .mark r k ring c :: st =>
    match ps ++ ring with
    | q :: qs => if back then (some q, .mark r k (qs ++ [p]) c :: st) else (some p, .mark r k (q :: qs) c :: st)
    | [] => (some p, stack)
  | p :: _, _ => (some p, stack)
  | [], _ => (none, stack)

/-- 06 R164 to R165: `vbra` sends the acting lanes to its slot and the others on; `vbrax` sends each acting lane to the slot that its
register names, lowest slot first, and the others on. A path may part only under a mark entry. -/
def Claims.LaneBranches : Prop := ∀ (s : State) (f : LaneWord) (a : Word) (h : ClauseHeader),
  let x := own s
  let m := acting s f
  let rest := x.live &&& x.pathMask &&& ~~~ m
  let here := (x.slot - a).toNat / 12
  let n := f.imm.toNat % 32
  let onTop := ∃ r k ring c st, x.stack = .mark r k ring c :: st
  let dest := fun l => (x.srcReg 0#4 l f.va.toNat).1
  let parts := ((List.range (h.count + 2)).filterMap fun n =>
    let ls := (lanes m).filter fun l => dest l = n
    if ls = [] then none else some (pathAt a (maskOf ls) n)) ++ if rest = 0 ∧ m ≠ 0 then [] else [pathAt a rest (here + 1)]
  let least := ((List.range (h.count + 2)).filter fun n => (lanes m).any fun l => dest l = n).head?
  x.curClause = some (a, h) →
  (1 ≤ n → n ≤ h.count + 1 → (rest = 0 ∨ m = 0 ∨ onTop) →
    let ps := if rest = 0 then [pathAt a m n] else if m = 0 then [pathAt a rest (here + 1)] else [pathAt a m n, pathAt a rest (here + 1)]
    let after := branched x.stack ps (m ≠ 0 && decide (n ≤ here))
    Does (.vbra f) s fun t => LaneWent s t after.1 after.2 x.live) ∧
  (LaneReady s f [(f.va.toNat, 1)] → (∀ l ∈ lanes m, 1 ≤ dest l ∧ dest l ≤ h.count + 1 ∧ x.vBad l f.va.toNat = false) →
    (parts.length ≤ 1 ∨ onTop) →
    let after := branched x.stack parts (match least with | some n => decide (n ≤ here) | none => false)
    Does (.vbrax f) s fun t => LaneWent s t after.1 after.2 x.live)

/-- Every page of a range of code lies in memory of this device. -/
def Claims.CodeHere (s : State) (a n : Nat) : Prop :=
  ∀ p ∈ sectorPieces a n n, ∀ y, s.xlate (s.whoIs s.me (own s).kernel) p.1 .execute = .ok y → y.remote = false ∧ y.leaf.host = false

/-- 06 R167 to R170: marks, joins, calls and returns, and the end of lanes. A call changes nothing but the stream where its header lies in
memory of this device; elsewhere the header's transfer counts (16 R402). -/
def Claims.LaneMarksAndCalls : Prop := ∀ (s : State) (f : LaneWord) (a : Word) (h : ClauseHeader),
  let x := own s
  let here := x.live &&& x.pathMask
  let slot := (x.slot - a).toNat / 12
  let n := f.imm.toNat % 32
  let nextPath := x.path.map fun p => { p with lpc := p.lpc + 12 }
  x.curClause = some (a, h) →
  (slot < n → n ≤ h.count → (∃ j, s.fetchLane s.me (a + BitVec.ofNat 64 (12 * n)) = .instr (.vjoin j)) → x.stack.length < 32 →
    Does (.vmark f) s fun t => LaneWent s t nextPath (.mark n here [] a :: x.stack) x.live) ∧
  (∀ k p ring st, x.stack = .mark slot k (p :: ring) a :: st →
    Does (.vjoin f) s fun t => LaneWent s t (some p) (.mark slot k ring a :: st) x.live) ∧
  (∀ k st, x.stack = .mark slot k [] a :: st →
    Does (.vjoin f) s fun t => LaneWent s t (some (pathAt a (k &&& x.live) (slot + 1))) st x.live) ∧
  (∀ h', let l := x.cap (f.vb.toNat % 16) + 16 * f.imm.signExtend 64
    l.toNat % 16 = 0 → s.readHeader s.me l = .ok h' → x.stack.length < 32 →
    Does (.vcall f) s fun t =>
      t.grp s.me = { x with path := x.path.map fun p => { p with lpc := l + 12 }, stack := .call (x.slot + 12) here l h' :: x.stack,
                            lstall := 0, spawned := none } ∧
      (CodeHere s l.toNat 12 → OnlyStream s.me s t)) ∧
  (∀ ret k l h' st, x.stack = .call ret k l h' :: st → (x.pathMask ≠ 0 ∨ ∀ r m ring c st', st ≠ .mark r m ring c :: st') →
    Does (.vret f) s fun t => LaneWent s t (x.path.map fun p => { p with lpc := ret }) st x.live) ∧
  (x.tr = none → (x.stack = [] ∨ here &&& ~~~ acting s f ≠ 0) →
    Does (.vexit f) s fun t => OnlyStream s.me s t ∧ (t.grp s.me).live = x.live &&& ~~~ acting s f ∧
      (t.grp s.me).path = x.path.map (fun p => { mask := p.mask &&& ~~~ acting s f, lpc := p.lpc + 12 }) ∧
      (t.grp s.me).v = x.v ∧ (t.grp s.me).vPoison = x.vPoison ∧ (t.grp s.me).stack.length = x.stack.length)

/-- 06 R164 to R170: branches of lanes; marks, joins, calls, returns and the end of lanes. -/
def Obligations.LaneControlFlow : Prop := Claims.LaneBranches ∧ Claims.LaneMarksAndCalls

/-- 06 R164, R167 to R169: what traps with STACK or ILLEGAL: a branch that parts under no mark entry, a slot outside the clause, a join
or return that meets no such entry, a 33rd entry. The stack and the path stay. -/
def Claims.LaneStackTraps : Prop := ∀ (s : State) (f : LaneWord) (a : Word) (h : ClauseHeader),
  let x := own s
  let m := acting s f
  let here := x.live &&& x.pathMask
  let n := f.imm.toNat % 32
  let traps := fun i (c : BitVec 32) (mask : BitVec 16) => Does i s fun t =>
    (t.grp s.me).bank.xcause = c ∧ (t.grp s.me).bank.xlpc = x.slot ∧ (t.grp s.me).bank.xmask = mask.setWidth 32 ∧
      (t.grp s.me).kernel = true ∧ (t.grp s.me).laneStopped = true ∧ (t.grp s.me).stack = x.stack ∧ (t.grp s.me).path = x.path ∧
      OnlyStream s.me s t
  LaneUser s → x.path.isSome → x.curClause = some (a, h) →
  (n = 0 ∨ h.count + 1 < n → traps (.vbra f) 0x101 m) ∧
  (0 < n → n ≤ h.count + 1 → m ≠ 0 → here &&& ~~~ m ≠ 0 → x.topMark = false → traps (.vbra f) 0x10B m) ∧
  (n ≤ (x.slot - a).toNat / 12 ∨ h.count < n → traps (.vmark f) 0x101 here) ∧
  (x.topMark = false → traps (.vjoin f) 0x10B here) ∧
  (x.stack = [] ∨ x.topMark = true → traps (.vret f) 0x10B here)

/-- 02 R44, 06 R171: `vspawn` outside `try` puts its lanes' threads of four words each, in lane order, into the bin of its entry, or into
the first empty bin, and goes on; one lane's thread that is a bin's sixteenth launches it. -/
def Claims.Spawning : Prop := ∀ (s : State) (f : LaneWord) (l i : Nat),
  let x := own s
  let tm := keyTeam s.me
  let e := x.cap (f.vb.toNat % 16) + 4 * f.imm.signExtend 64
  let args := fun l' => (List.range 4).map fun j => BitVec.ofNat 32 (x.srcReg 0#4 l' (f.va.toNat + j)).1
  let old := (KMap.find i (s.tm tm).bins).getD { entry := e, threads := [] }
  LaneReady s f [(f.va.toNat, 4)] → x.tr = none → e.toNat % 4 = 0 → x.spawned = none → (s.tm tm).binFor e = some i →
  (let ls := lanes (acting s f)
   ls ≠ [] → old.threads.length + ls.length ≤ 15 → (s.tm tm).binTimeOut old = false ∨ (s.freeGroup tm).isSome = true →
    Does (.vspawn f) s fun t =>
      KMap.find i (t.tm tm).bins = some { entry := e, threads := old.threads ++ ls.map args, age := if old.threads = [] then 0 else old.age } ∧
      (t.grp s.me).path = x.path.map (fun p => { p with lpc := p.lpc + 12 }) ∧ (∀ g, g ≠ s.me → t.grp g = s.grp g) ∧ MemoryKept s t) ∧
  (lanes (acting s f) = [l] → (∀ j, j < 4 → x.vBad l (f.va.toNat + j) = false) → old.threads.length = 15 → ∀ n, s.freeGroup tm = some n → streamKey tm n ≠ s.me →
    Does (.vspawn f) s fun t =>
      KMap.find i (t.tm tm).bins = none ∧ (t.grp (streamKey tm n)).pc = e ∧ (t.grp (streamKey tm n)).live = 0xFFFF ∧
      (t.grp (streamKey tm n)).sGet 1 = (s.tm tm).arg ∧
      (∀ j, j < 4 → (t.grp (streamKey tm n)).vRaw 15 j = x.vRaw l (f.va.toNat + j)) ∧ (∀ b, t.byteAt b = s.byteAt b))

/-- 08 R208, R211: `vlabort` outside `try` only goes on; inside, while another live lane remains, the acting lanes leave, with their
registers as at the checkpoint and their buffered stores gone, and the status says so. -/
def Claims.LaneAbort : Prop := ∀ (s : State) (f : LaneWord) (x1 : Group) (flag : Option Nat),
  let x := own s
  let m := acting s f
  x.issueLL f = some (x1, flag) →
  (x.tr = none → Does (.vlabort f) s fun t => OnlyStream s.me s t ∧ (t.grp s.me).live = x.live ∧
    (t.grp s.me).path = x.path.map (fun p => { p with lpc := p.lpc + 12 }) ∧ VecKept x (t.grp s.me)) ∧
  (∀ y, x.tr = some y → m ≠ 0 → x.live &&& ~~~ m ≠ 0 → Does (.vlabort f) s fun t => OnlyStream s.me s t ∧
    (t.grp s.me).live = x.live &&& ~~~ m ∧ (t.grp s.me).tryabort = BitVec.ofNat 32 (65536 * m.toNat + 256 * (f.imm.toNat % 256) + 1) ∧
    (∀ z, (t.grp s.me).tr = some z → z.aborted = y.aborted ||| m ∧ ∀ o ∈ z.buffer, ∀ q ∈ o.accs, q.lane < 16 → ¬ m.getLsbD q.lane) ∧
    (t.grp s.me).tr.isSome ∧
    (∀ l r, l < 16 → ¬ m.getLsbD l → (t.grp s.me).vRaw l r = x.vRaw l r ∧ (t.grp s.me).vBad l r = x.vBad l r))

/-- 02 R44, 06 R171, 08 R208, R211: the lanes that start threads, and the lanes that leave `try`. -/
def Obligations.LaneThreads : Prop := Claims.Spawning ∧ Claims.LaneAbort

/-! ## Lane memory instructions (10 R238 to R252) -/

/-- A lane memory instruction may go: no lane fence is open, its flag can be raised, and outside `try` an operand-log entry is free. -/
def Claims.LaneMayAccess (s : State) (f : LaneWord) (x1 : Group) (flag : Option Nat) : Prop :=
  (own s).tr = none ∧ (own s).fenced = false ∧ (own s).issueLL f = some (x1, flag)

/-- The global address of each acting lane is clean, aligned to `n` and below 2^52 (10 R240). -/
def Claims.CleanAddresses (s : State) (f : LaneWord) (n : Nat) : Prop :=
  ∀ l ∈ bodyLanes f (acting s f), ((own s).globalAddr f (memOff f) l).bad = false ∧
    ((own s).globalAddr f (memOff f) l).addr.toNat % n = 0 ∧ ((own s).globalAddr f (memOff f) l).addr.toNat < 2 ^ 52

/-- Each acting lane's global address is poisoned, or aligned to `n`, below 2^52 and such as `p` says (10 R240). -/
def Claims.LanesReach (s : State) (f : LaneWord) (n : Nat) (p : Nat → Prop) : Prop :=
  ∀ l ∈ bodyLanes f (acting s f), ((own s).globalAddr f (memOff f) l).bad = true ∨
    (((own s).globalAddr f (memOff f) l).addr.toNat % n = 0 ∧ ((own s).globalAddr f (memOff f) l).addr.toNat < 2 ^ 52 ∧
      p ((own s).globalAddr f (memOff f) l).addr.toNat)

/-- Nothing holds an access of `n` bytes at an address: its home serves it with those of all 16 lanes, and no reduction of the group's own to those bytes is queued
(09 R232, 10 R261, 11 R271). -/
def Claims.Unheld (s : State) (n va : Nat) : Prop :=
  ∀ y, s.xlate (s.whoIs s.me false) va .read = .ok y → s.holdsOp s.me y 16 = false ∧ s.behindReduce s.me y n = false

/-- The lane stream went on: its path at the next slot, no scalar register or predicate written, its lanes live, no other stream changed. -/
def Claims.LaneWentOn (s t : State) : Prop :=
  (t.grp s.me).path = (own s).path.map (fun p => { p with lpc := p.lpc + 12 }) ∧ WroteNone (own s) (t.grp s.me) ∧ (t.grp s.me).k = (own s).k ∧
    (t.grp s.me).live = (own s).live ∧ ∀ g, g ≠ s.me → t.grp g = s.grp g

/-- 10 R240, R244 to R246, R250 to R252: outside `try`, whatever lanes act, lane loads whose pages may be read and that nothing holds,
atomics that their pages take and that wait for nothing, stores and reductions go on. -/
def Claims.LaneAccessesGo : Prop := ∀ (s : State) (f : LaneWord) (x1 : Group) (flag : Option Nat),
  let x := own s
  let n := 2 ^ f.sub.toNat
  let regs := max 1 (n / 4)
  let w := tyWidth f.ty / 8
  LaneMayAccess s f x1 flag → x.freeLog.isSome →
  (LaneReady s f [addrRegs f true, (f.vd.toNat, regs)] →
    LanesReach s f n (fun va => (∃ y, s.xlate (s.whoIs s.me false) va .read = .ok y) ∧ Unheld s n va) →
    Does (.vld f) s (LaneWentOn s) ∧ Does (.vldspec f) s (LaneWentOn s)) ∧
  (LaneReady s f [addrRegs f true, (f.vc.toNat, regs)] → LanesReach s f n (fun _ => True) →
    Does (.vst f) s fun t => LaneWentOn s t ∧ VecKept x (t.grp s.me) ∧ MemoryKept s t) ∧
  (LaneReady s f [addrRegs f true, (f.vc.toNat, wide f.ty)] → LanesReach s f w (fun _ => True) →
    Does (.vred f) s fun t => LaneWentOn s t ∧ VecKept x (t.grp s.me) ∧ MemoryKept s t) ∧
  (LaneReady s f [addrRegs f true, (f.vc.toNat, wide f.ty), (f.vd.toNat, wide f.ty)] → x.atomicWaits true (f.md.toNat % 8) = false →
    s.proxyHolds (f.md.toNat % 8) = false → LanesReach s f w (fun va => (∃ y, s.xlate (s.whoIs s.me false) va .atomic = .ok y ∧ (y.remote = true ∨ s.atomicOk y f.sub.toNat f.ty = true)) ∧
      Unheld s w va) →
    Does (.vatom f) s (LaneWentOn s))

/-- 10 R247: outside `try`, whatever lanes act, `vlds` and `vsts` go on where each lane's place passes its checks, in plain mode, or in
mould mode under the binding of a sound object; `vsts` once no load of the lane stream is left to be performed (11 R271). -/
def Claims.LaneScratchpadGoes : Prop := ∀ (s : State) (f : LaneWord) (x1 : Group) (flag : Option Nat),
  let x := own s
  let n := 2 ^ f.sub.toNat
  let regs := max 1 (n / 4)
  let passes := fun (loc : Nat → LaneFault × SpadAcc) => ∀ l ∈ bodyLanes f (acting s f), (loc l).1 = none
  LaneMayAccess s f x1 flag →
  (if f.md.getLsbD 0 then ∃ tm o, s.mouldObj (x.cap (f.vb.toNat % 16)) = .ok (tm, o) ∧ passes (s.mouldSpad f n tm (s.objAt tm o))
   else passes (s.plainSpad f n)) →
  (LaneReady s f [(f.va.toNat, 1), (f.vd.toNat, regs)] → Does (.vlds f) s fun t => LaneWentOn s t ∧ MemoryKept s t) ∧
  (LaneReady s f [(f.va.toNat, 1), (f.vc.toNat, regs)] → x.awaits true = false → Does (.vsts f) s fun t => LaneWentOn s t ∧ VecKept x (t.grp s.me) ∧ MemoryKept s t)

/-- 10 R239: the address of a lane: base in a register pair, or in a captured scalar with a signed 32-bit index; plus the offset. -/
def Claims.LaneAddresses : Prop := ∀ (x : Group) (f : LaneWord) (t : Nat),
  let off : Int := (f.imm.extractLsb' 0 29).toInt
  (f.kind = 0#2 → (x.globalAddr f (memOff f) t).addr =
      wrapped ((x.vRaw t f.va.toNat).toNat + 2 ^ 32 * ((x.vRaw t (f.va.toNat + 1)).toNat : Int) + off) ∧
    (x.globalAddr f (memOff f) t).bad = (x.vBad t f.va.toNat || x.vBad t (f.va.toNat + 1))) ∧
  (f.kind = 1#2 → (x.globalAddr f (memOff f) t).addr =
      wrapped ((x.cap (f.vb.toNat % 16)).toNat + (x.vRaw t f.va.toNat).toInt + off) ∧
    (x.globalAddr f (memOff f) t).bad = x.vBad t f.va.toNat)

/-- 02 R32, 03 R67, 10 R239: what lane instructions read and the addresses that they form. -/
def Obligations.LaneSourcesAndAddresses : Prop := Claims.LaneSources ∧ Claims.LaneAddresses

/-- 10 R244, R246: `vld` of a memory-side page by one lane outside `try`, no store of its own left to be performed: the destination registers
take the bytes that memory holds once the line has left the L2 (09 R234), extended to 32 bits, and the poison of their sector; the entry's accesses are performed; no memory changes.
`vldspec` outside `try` does the same. -/
def Claims.LaneLoad : Prop := ∀ (s : State) (f : LaneWord) (x1 : Group) (flag : Option Nat) (l e : Nat) (y : Xlat),
  let x := own s
  let n := 2 ^ f.sub.toNat
  let regs := max 1 (n / 4)
  let va := (x.globalAddr f (memOff f) l).addr
  LaneMayAccess s f x1 flag → CleanAddresses s f n → f.u = 0#1 → lanes (acting s f) = [l] → f.sub.toNat ≤ 4 →
  LaneReady s f [addrRegs f true, (f.vd.toNat, regs)] → x.freeLog = some e → f.md.getLsbD 0 = false →
  s.xlate (s.whoIs s.me false) va.toNat .read = .ok y → y.remote = false → y.leaf.ms = true → y.leaf.host = false →
  s.holdsOp s.me y 1 = false → s.behindReduce s.me y n = false → x.ownStores = [] →
  ∀ i ∈ [Instr.vld f, .vldspec f], Does i s fun t =>
    (let v := natOfBytes ((s.dropL2 y.pa).loadBytes y.pa n)
     let w : Nat := if f.ty = 1#4 then ((if 2 ^ (8 * n - 1) ≤ v then (v : Int) - 2 ^ (8 * n) else v) % 2 ^ 32).toNat else v
     ∀ q r, q < 16 → if q = l ∧ f.vd.toNat ≤ r ∧ r < f.vd.toNat + regs then
         (t.grp s.me).vRaw q r = BitVec.ofNat 32 (w / 2 ^ (32 * (r - f.vd.toNat))) ∧ (t.grp s.me).vBad q r = (s.dropL2 y.pa).bad y.pa
       else (t.grp s.me).vRaw q r = x.vRaw q r ∧ (t.grp s.me).vBad q r = x.vBad q r) ∧
    (∃ o, KMap.find e (t.grp s.me).oplog = some o ∧ o.accs = [] ∧ o.flag = flag) ∧
    (t.grp s.me).path = x.path.map (fun p => { p with lpc := p.lpc + 12 }) ∧ WroteNone x (t.grp s.me) ∧ MemoryKept s t ∧
    ∀ g, g ≠ s.me → t.grp g = s.grp g

/-- 10 R240, R244 to R246, R250 to R252: what a lane's load takes, and that lane accesses go on. -/
def Obligations.LaneLoads : Prop := Claims.LaneLoad ∧ Claims.LaneAccessesGo

/-- 10 R245, R252: `vst` and `vred` outside `try` enter the store queue, in lane order, with each acting lane's address and data, and an
operand-log entry; no byte of memory and no vector register changes yet. -/
def Obligations.LaneStores : Prop := ∀ (s : State) (f : LaneWord) (x1 : Group) (flag : Option Nat) (e : Nat),
  let x := own s
  let ls := bodyLanes f (acting s f)
  let enters := fun i n (kind : MemKind) (data : Nat → Nat) => Does i s fun t =>
    (∃ q : MemOp, (t.grp s.me).storeq = x.storeq ++ [q] ∧ q.kind = kind ∧ q.size = n ∧ q.lane = true ∧ q.log = some e ∧ q.flag = flag ∧
      q.accs.map (fun a => (a.lane, a.va, a.data)) = ls.map fun l => (l, (x.globalAddr f (memOff f) l).addr, data l)) ∧
    (KMap.find e (t.grp s.me).oplog).isSome ∧ VecKept x (t.grp s.me) ∧ WroteNone x (t.grp s.me) ∧ OnlyStream s.me s t ∧
    (t.grp s.me).path = x.path.map (fun p => { p with lpc := p.lpc + 12 })
  LaneMayAccess s f x1 flag → ls ≠ [] → x.freeLog = some e →
  (let n := 2 ^ f.sub.toNat
   let regs := max 1 (n / 4)
   CleanAddresses s f n → LaneReady s f [addrRegs f true, (f.vc.toNat, regs)] →
   (∀ l ∈ ls, ∀ j, j < regs → x.vBad l (f.vc.toNat + j) = false) →
   enters (.vst f) n .store (fun l => ((List.range regs).map fun j => 2 ^ (32 * j) * (x.vRaw l (f.vc.toNat + j)).toNat).sum % 2 ^ (8 * n))) ∧
  (let n := tyWidth f.ty / 8
   CleanAddresses s f n → LaneReady s f [addrRegs f true, (f.vc.toNat, wide f.ty)] →
   enters (.vred f) n .reduce (fun l => (x.srcReg f.ty l f.vc.toNat).1))

/-- 10 R250, R251: `vatom` on 32-bit integers of a device page by one lane, its earlier stores performed, of a sector that is clean once the
home slice has dropped it (R242): the destination takes the old value and memory the new one, at the address translated. -/
def Claims.LaneAtomic : Prop := ∀ (s : State) (f : LaneWord) (x1 : Group) (flag : Option Nat) (l e : Nat) (y : Xlat),
  let x := own s
  let va := (x.globalAddr f (memOff f) l).addr
  let m := if y.leaf.ms then s.dropL2 y.pa else s.dropSector y.pa
  let old := natOfBytes (m.loadBytes y.pa 4)
  let w := fun r => (x.srcReg f.ty l r).1
  LaneMayAccess s f x1 flag → CleanAddresses s f 4 → f.u = 0#1 → lanes (acting s f) = [l] → f.ty = 0#4 ∨ f.ty = 1#4 → f.sub.toNat ≤ 7 →
  LaneReady s f [addrRegs f true, (f.vc.toNat, 1), (f.vd.toNat, 1)] → x.freeLog = some e → x.kernel = false → x.atomicWaits true (f.md.toNat % 8) = false →
  s.proxyHolds (f.md.toNat % 8) = false → f.md.getLsbD 0 = false → s.xlate (s.whoIs s.me false) va.toNat .atomic = .ok y → s.xlate (s.whoIs s.me false) va.toNat .read = .ok y →
  y.remote = false → y.leaf.host = false → s.holdsOp s.me y 1 = false → y.pa % 4 = 0 → m.bad y.pa = false →
  s.mirrored (y.pa / 0x20_0000) = false →
  Does (.vatom f) s fun t =>
    (∀ q r, q < 16 → if q = l ∧ r = f.vd.toNat then (t.grp s.me).vRaw q r = BitVec.ofNat 32 old ∧ (t.grp s.me).vBad q r = false
       else (t.grp s.me).vRaw q r = x.vRaw q r ∧ (t.grp s.me).vBad q r = x.vBad q r) ∧
    (∀ i, t.byteAt i = if y.pa ≤ i ∧ i < y.pa + 4 then
        BitVec.ofNat 8 (amoValue (BitVec.ofNat 3 f.sub.toNat) (if f.ty = 1#4 then 1#1 else 0#1) 4 old (w f.vc.toNat) (w f.vd.toNat) / 2 ^ (8 * (i - y.pa)))
      else s.byteAt i) ∧
    (t.grp s.me).path = x.path.map (fun p => { p with lpc := p.lpc + 12 }) ∧ ∀ g, g ≠ s.me → t.grp g = s.grp g

/-- 10 R247: plain `vlds` and `vsts` of one lane outside `try`: the load takes the scratchpad's bytes, extended, with their sector's
poison; the store, once no load of the lane stream is left to be performed (11 R271), writes exactly its bytes, at the place that the lane's
address decodes to. -/
def Claims.LaneScratchpad : Prop := ∀ (s : State) (f : LaneWord) (x1 : Group) (flag : Option Nat) (l t' off : Nat),
  let x := own s
  let n := 2 ^ f.sub.toNat
  let regs := max 1 (n / 4)
  let va := (x.spadAddr f l).addr
  LaneMayAccess s f x1 flag → f.u = 0#1 → lanes (acting s f) = [l] → f.md.getLsbD 0 = false → f.sub.toNat ≤ 4 →
  x.vBad l f.va.toNat = false → va.toNat % n = 0 → s.spadLoc (keyTeam s.me) va.toNat n = some (t', off) →
  (LaneReady s f [(f.va.toNat, 1), (f.vd.toNat, regs)] → Does (.vlds f) s fun t =>
    (let v := natOfBytes ((s.tm t').bytesAt off n)
     let w : Nat := if f.ty = 1#4 then ((if 2 ^ (8 * n - 1) ≤ v then (v : Int) - 2 ^ (8 * n) else v) % 2 ^ 32).toNat else v
     ∀ q r, q < 16 → if q = l ∧ f.vd.toNat ≤ r ∧ r < f.vd.toNat + regs then
         (t.grp s.me).vRaw q r = BitVec.ofNat 32 (w / 2 ^ (32 * (r - f.vd.toNat))) ∧ (t.grp s.me).vBad q r = (s.tm t').badAt off
       else (t.grp s.me).vRaw q r = x.vRaw q r ∧ (t.grp s.me).vBad q r = x.vBad q r) ∧
    OnlyStream s.me s t ∧ (t.grp s.me).path = x.path.map (fun p => { p with lpc := p.lpc + 12 })) ∧
  (LaneReady s f [(f.va.toNat, 1), (f.vc.toNat, regs)] → (∀ j, j < regs → x.vBad l (f.vc.toNat + j) = false) → x.awaits true = false →
   Does (.vsts f) s fun t =>
    (let d := ((List.range regs).map fun j => 2 ^ (32 * j) * (x.vRaw l (f.vc.toNat + j)).toNat).sum
     ∀ i, KMap.read unwritten i (t.tm t').mem =
       if off ≤ i ∧ i < off + n then BitVec.ofNat 8 (d / 2 ^ (8 * (i - off))) else KMap.read unwritten i (s.tm t').mem) ∧
    (∀ u, u ≠ t' → t.tm u = s.tm u) ∧ VecKept x (t.grp s.me) ∧ WroteNone x (t.grp s.me) ∧ MemoryKept s t ∧
    (t.grp s.me).path = x.path.map (fun p => { p with lpc := p.lpc + 12 }))

/-- 10 R247, R250, R251: atomics and scratchpad accesses of a lane, and scratchpad accesses of any lanes. -/
def Obligations.LaneAtomicAndScratchpad : Prop := Claims.LaneAtomic ∧ Claims.LaneScratchpad ∧ Claims.LaneScratchpadGoes

/-- 10 R248, R249, R263: `vpf` goes on, but for a memory-side page inside `try` or a home slice that cannot take it yet; `vfence` goes on, its conditions being there or held in
an operand-log entry; no register, predicate or memory changes. -/
def Obligations.LanePrefetchAndFence : Prop := ∀ (s : State) (f : LaneWord) (x1 : Group) (flag : Option Nat),
  let x := own s
  let goes := fun i => Does i s fun t =>
    VecKept x (t.grp s.me) ∧ (t.grp s.me).k = x.k ∧ WroteNone x (t.grp s.me) ∧ (t.grp s.me).live = x.live ∧
      (t.grp s.me).path = x.path.map (fun p => { p with lpc := p.lpc + 12 }) ∧ (t.grp s.me).storeq = x.storeq ∧ MemoryKept s t ∧
      ∀ g, g ≠ s.me → t.grp g = s.grp g
  x.fenced = false → x.issueLL f = some (x1, flag) →
  (LaneReady s f [addrRegs f true] →
    (∀ l ∈ bodyLanes f (acting s f), (x.globalAddr f (memOff f) l).bad = false → s.prefetchMs s.me (x.globalAddr f (memOff f) l).addr.toNat = false ∧
      s.prefetchBusy s.me (x.globalAddr f (memOff f) l).addr.toNat = false) →
    goes (.vpf f)) ∧
  (s.fenceOk s.me f.sub.toNat = true ∨ x.freeLog.isSome = true → goes (.vfence f))

/-- 10 R240: a lane's global access that is misaligned, or whose address is 2^52 or more, traps with the cause and address of the lowest
such lane and the mask of the lanes that share its cause; nothing else changes. -/
def Claims.LaneAddressTraps : Prop := ∀ (s : State) (f : LaneWord) (l : Nat),
  let x := own s
  let n := 2 ^ f.sub.toNat
  let va := (x.globalAddr f (memOff f) l).addr
  LaneUser s → x.path.isSome → x.fenced = false → f.u = 0#1 → lanes (acting s f) = [l] →
  (x.globalAddr f (memOff f) l).bad = false → (va.toNat % n ≠ 0 ∨ 2 ^ 52 ≤ va.toNat) →
  (LaneReady s f [addrRegs f true, (f.vd.toNat, max 1 (n / 4))] → LaneReady s f [addrRegs f true, (f.vc.toNat, max 1 (n / 4))] →
  ∀ i ∈ [Instr.vld f, .vldspec f, .vst f], Does i s fun t =>
    (t.grp s.me).bank.xcause = (if va.toNat % n ≠ 0 then 0x104 else 0x105) ∧ (t.grp s.me).bank.xaddr = va ∧
    (t.grp s.me).bank.xmask = BitVec.ofNat 32 (2 ^ l) ∧ (t.grp s.me).bank.xlpc = x.slot ∧ (t.grp s.me).kernel = true ∧
    VecKept x (t.grp s.me) ∧ (t.grp s.me).storeq = x.storeq ∧ (t.grp s.me).oplog = x.oplog ∧ OnlyStream s.me s t)

/-- 02 R34, 03 R72, 06, 10 R240: the traps of lane instructions by their fields, by the mark-join stack, and by their addresses. -/
def Obligations.LaneTraps : Prop := Claims.LaneFieldTraps ∧ Claims.LaneStackTraps ∧ Claims.LaneAddressTraps

/-! ## Copies and lane arrivals (13 R318 to R329, 17 R413) -/

/-- 13 R317 to R322, R324, R325, R329: a copy of one lane, plain, of a device page, outside `try`, with room in its queue: the queue
takes one transfer operation at its end, which carries the lane's piece, its object and its hint; no byte moves yet. -/
def Claims.CopyOfOneLane : Prop := ∀ (s : State) (f : LaneWord) (x1 : Group) (flag : Option Nat) (l e : Nat) (y : Xlat),
  let x := own s
  let n := 2 ^ (f.sub.toNat % 8)
  let q := f.md.toNat % 4
  let va := (x.globalAddr f 0 l).addr
  let o := (x.vRaw l f.vc.toNat).toNat
  let spad := (s.gTeam s.me).spad
  let core := s.gCore s.me
  let queue := KMap.read [] q (s.coreAt core).ladle
  let obj := 32 * (f.imm.toNat % 2 ^ 15)
  let queues := fun i kind (locs : List (Nat × Nat)) (ru : Option Nat) acc =>
    s.xlate ((s.whoIs s.me false).onQueue core q) va.toNat acc = .ok y →
    Does i s fun t =>
      (∃ z : Xfer, KMap.read [] q (t.coreAt core).ladle = queue ++ [.xfer z] ∧ z.kind = kind ∧ z.g = s.me ∧ z.l = obj ∧ z.ru = ru ∧
        z.hint = f.hint.toNat ∧ ∃ p : Piece, z.pieces = [p] ∧ p.lane = l ∧ p.va = va ∧ p.pa = y.pa ∧ p.n = n ∧ p.locs = locs ∧ p.void = false) ∧
      (∃ m, KMap.find e (t.grp s.me).oplog = some m ∧ m.flag = flag) ∧ VecKept x (t.grp s.me) ∧ MemoryKept s t ∧
      (t.grp s.me).path = x.path.map (fun p => { p with lpc := p.lpc + 12 }) ∧ ∀ g, g ≠ s.me → t.grp g = s.grp g
  LaneMayAccess s f x1 flag → f.u = 0#1 → lanes (acting s f) = [l] → LaneReady s f [addrRegs f true, (f.vc.toNat, 1)] →
  x.freeLog = some e → f.md.getLsbD 2 = false → (x.globalAddr f 0 l).bad = false → x.vBad l f.vc.toNat = false →
  va.toNat % n = 0 → va.toNat < 2 ^ 52 → o % n = 0 → o + n ≤ spad → spad ≤ 2 ^ 20 → obj < spad → y.remote = false →
  x.oplog.all (fun r => match r.2.copy with | some c => decide (c.id ≠ s.nextJoin) | none => true) = true →
  queue.length < 64 → (∀ op ∈ queue, ∀ z, op = .xfer z → z.id ≠ s.nextJoin) → x.kernel = false →
  (f.sub.getLsbD 3 = false → queues (.vcopyIn f) .copyIn [(keyTeam s.me, o)] none .read) ∧
  (f.sub.getLsbD 3 = false → queues (.vcopyOut f) .copyOut [(keyTeam s.me, o)] none .write) ∧
  (f.sub.getLsbD 3 = false →
    let ms := ((s.cl (s.gCluster s.me)).members.zipIdx.filter fun k => (f.imm.toNat / 2 ^ 15 % 2 ^ 12).testBit k.2).map Prod.fst
    f.imm.toNat / 2 ^ 15 % 2 ^ 12 ≠ 0 → f.imm.toNat / 2 ^ 15 % 2 ^ 12 < 2 ^ ((s.cl (s.gCluster s.me)).w * (s.cl (s.gCluster s.me)).h) →
    queues (.vcast f) .cast (ms.map fun t => (t, o)) none .read)

/-- 13 R319 to R322: a copy outside `try`, plain or under a mould, of any lanes, whose objects and lanes pass their checks, with room in
its queue for its operations and a free operand-log entry, goes on; no byte of memory and no vector register changes yet. -/
def Claims.CopiesGo : Prop := ∀ (s : State) (f : LaneWord) (x1 : Group) (flag : Option Nat),
  let ls := bodyLanes f (acting s f)
  let queue := KMap.read [] (f.md.toNat % 4) (s.coreAt (s.gCore s.me)).ladle
  let goes := fun i kind => s.copyObjects f kind = none → (∀ l ∈ ls, (s.copyLane f kind l).1 = none) →
    (queue.filter fun op => match op with | .join _ => false | _ => true).length + lineCount (ls.map fun l => (s.copyLane f kind l).2) ≤ 64 →
    Does i s fun t => LaneWentOn s t ∧ VecKept (own s) (t.grp s.me) ∧ MemoryKept s t
  LaneMayAccess s f x1 flag → LaneReady s f [addrRegs f true, (f.vc.toNat, 1)] → (own s).freeLog.isSome →
  goes (.vcopyIn f) .copyIn ∧ goes (.vcopyOut f) .copyOut ∧ goes (.vcast f) .cast

/-- 13 R317 to R322, R324, R325, R329: the issue of copies. -/
def Obligations.CopyIssue : Prop := Claims.CopyOfOneLane ∧ Claims.CopiesGo

/-! ## Clauses, barriers, tokens, `try` (05, 08, 15, 17) -/

/-- 05 R125 to R127, R139, 02 R36: `clause` of an aligned address that holds a sound header queues a clause with copies of `s0` to `s15`
and raises one flag for each counted slot; `waitf` goes on when no named flag is pending and stalls without moving otherwise; `testf`
writes the pending ones; `nop` goes on, and `yield` goes on and gives way for 64 opportunities. -/
def Obligations.ClausesAndFlags : Prop := ∀ (s : State) (i : BitVec 19) (a d : BitVec 6) (m : BitVec 12) (h : ClauseHeader) (cs : List (Nat × Nat)),
  let x := own s
  let l := s.rs a + 16 * i.signExtend 64
  let pending := fun f => m.getLsbD f && decide (x.flag f ≠ 0)
  Moves .nop s [] s.after ∧
  (keyGrp s.me ≠ 64 → (Does .yield s fun t => OnlyStream s.me s t ∧ t.grp s.me = { x with pc := s.after, stall := 0, yieldLeft := 64 }) ∧ ∃ v : Word, Computes (.testf m d) s [] d v s.after ∧ ∀ f, v.getLsbD f = pending f) ∧
  (keyGrp s.me ≠ 64 → x.kernel = false →
    ((∀ f, pending f = false) → Moves (.waitf m) s [] s.after) ∧
    ((∃ f, pending f = true) → Does (.waitf m) s fun t => t.grp s.me = { x with stall := 4 } ∧ OnlyStream s.me s t) ∧
    (l.toNat % 16 = 0 → s.clauseFault s.me l = none → s.readHeader s.me l = .ok h → s.slotCounts s.me l h = .ok cs →
      x.queue.length + (if x.run.isSome then 1 else 0) < 8 → (∀ f, f < 12 → x.flag f + countsOn cs f ≤ 63) →
      Does (.clause i a) s fun t =>
        (∃ e : ClauseEntry, (t.grp s.me).queue = x.queue ++ [e] ∧ e.addr = l ∧ e.hdr = h ∧ e.counts = cs ∧
          ∀ r, r < 16 → KMap.read 0 r e.caps = x.sGet r) ∧
        (∀ f, (t.grp s.me).flag f = x.flag f + countsOn cs f) ∧
        (t.grp s.me).pc = s.after ∧ WroteNone x (t.grp s.me) ∧ (CodeHere s l.toNat (s.clauseLen s.me l) → OnlyStream s.me s t)))

/-- A scalar barrier instruction outside `try` reaches an offset of a team's scratchpad: decoded, aligned, no count held for it (17 R407,
R421). -/
def Claims.AtPlace (s : State) (a : BitVec 6) (tm o : Nat) : Prop :=
  (own s).inTry = false ∧ s.spadLoc (keyTeam s.me) (s.rs a).toNat 1 = some (tm, o) ∧ (s.rs a).toNat % 32 = 0 ∧
    (own s).sBad a.toNat = false ∧ KMap.find o (s.tm tm).held = none

/-- The object there is sound (17 R406, R407). -/
def Claims.AtObject (s : State) (a : BitVec 6) (tm o : Nat) : Prop := AtPlace s a tm o ∧ s.objBroken tm o = false

/-- No stream waits on an object. -/
def Claims.NoWaiter (s : State) (tm o : Nat) : Prop := ∀ g x, (g, x) ∈ s.groups → ∀ p, x.waitsOn tm o p = false

/-- A scalar instruction wrote `v` to `d` and the stream went on. -/
def Claims.Went (s t : State) (d : BitVec 6) (v : Word) : Prop := Wrote (own s) (t.grp s.me) d v ∧ (t.grp s.me).pc = s.after

/-- The object at an offset became `b`, no other byte of any scratchpad changed, and the stream went on with `v` in `d`. -/
def Claims.Leaves (s t : State) (tm o : Nat) (b : Obj) (d : BitVec 6) (v : Word) : Prop :=
  t.objAt tm o = b ∧ (∀ k, k < o ∨ o + 32 ≤ k → KMap.read unwritten k (t.tm tm).mem = KMap.read unwritten k (s.tm tm).mem) ∧
    (∀ u, u ≠ tm → t.tm u = s.tm u) ∧ Went s t d v ∧ MemoryKept s t

/-- 17 R411: an object's pending arrivals and bytes, reloaded for its phase: under a binding in an odd phase the data arrivals. -/
def Claims.reloaded (q : Obj) : Obj :=
  if q.mv = true ∧ q.phase.toNat % 2 = 1 then { q with pendarr := q.darr, pendbytes := 0 } else { q with pendarr := q.exparr, pendbytes := q.expbytes }

/-- 13 R327: a swizzle code of a tile is 0, or names an exclusive-or of three bits within the tile. -/
def Claims.swizzles (z tsize : Nat) : Prop :=
  z = 0 ∨ (z < 64 ∧ 4 + z % 4 + 3 ≤ z / 4 ∧ z / 4 ≤ 15 ∧ tsize % 2 ^ (4 + z % 4 + 3) = 0)

/-- 17 R408, R409, R414, R415: `binit` writes expectations, registration and notify target over the object, a broken one too, or over its
other fields under KEEP; `mbind` binds a tile of its team's scratchpad and unbinds under size 0; `testph` reports the phase, with bit 32
when its parity is the one named; `waitph` whose parity is there, or whose wait was signalled, reports the phase, and in the first case
counts as an observation when registered; one whose parity is not there stalls. -/
def Obligations.BarrierSetupAndWaiting : Prop := ∀ (s : State) (k r p : BitVec 1) (b a c d : BitVec 6) (tm o : Nat),
  let x := own s
  let w := s.objAt tm o
  let vb := (s.rs b).toNat
  let vc := (s.rs c).toNat
  let reg := vb / 2 ^ 48
  (AtPlace s a tm o → (k = 1#1 → s.objBroken tm o = false) → vb < 2 ^ 58 → vb % 2 ^ 48 ≠ 0 → vc < 2 ^ 32 → vc / 2 ^ 24 % 128 = 0 →
    Does (.binit k b a c) s fun t => Leaves s t tm o
      (reloaded { (if k = 1#1 then w else {} : Obj) with
        exparr := vb % 2 ^ 16, expbytes := vb / 2 ^ 16 % 2 ^ 32, reg, obs := reg, task := vc % 2 ^ 24, nv := decide (vc / 2 ^ 31 % 2 = 1),
        overrun := false, nfail := false }) 0 0) ∧
  (AtObject s a tm o →
  (let tbase := vb % 2 ^ 20
   let tsize := vb / 2 ^ 20 % 2 ^ 21
   let z := vb / 2 ^ 41 % 256
   let darr := vb / 2 ^ 49 % 256
   (tsize = 0 → Does (.mbind b a) s fun t => Leaves s t tm o { w with mv := false, tbase := 0, tsize := 0, z := 0, darr := 0 } 0 0) ∧
   (0 < tsize → tsize % 128 = 0 → tsize ≤ 2 ^ 20 → 0 < darr → tbase % 128 = 0 → tbase + tsize ≤ (s.tm tm).spad → vb < 2 ^ 57 → swizzles z tsize →
    Does (.mbind b a) s fun t => Leaves s t tm o { w with mv := true, tbase, tsize, z, darr } 0 0)) ∧
  (Does (.testph p a d) s fun t => Leaves s t tm o w d
    (BitVec.ofNat 64 (w.phase.toNat + if w.phase.toNat % 2 = p.toNat then 2 ^ 32 else 0))) ∧
  (x.wait = none → w.phase.toNat % 2 = p.toNat → Does (.waitph r p a d) s fun t =>
    Leaves s t tm o { w with obs := if r = 1#1 then min (w.obs + 1) w.reg else w.obs } d (BitVec.ofNat 64 w.phase.toNat)) ∧
  (∀ y, x.wait = some y → y.team = tm → y.obj = o → y.t = decide (p = 1#1) → y.signalled = true → Does (.waitph r p a d) s fun t =>
    Leaves s t tm o w d (BitVec.ofNat 64 y.phase.toNat) ∧ (t.grp s.me).wait = none) ∧
  (x.wait = none → w.phase.toNat % 2 ≠ p.toNat → Does (.waitph r p a d) s fun t =>
    (t.grp s.me).wait = some { team := tm, obj := o, t := decide (p = 1#1), registered := decide (r = 1#1) } ∧ (t.grp s.me).pc = x.pc ∧
      WroteNone x (t.grp s.me) ∧ OnlyStream s.me s t))

/-- 17 R410, R411: what `a` arrivals and `n` more expected bytes make of an object with no notify target and no waiter, and the status:
refused while observers are owed; an overrun, as is all but bytes expected when both counts are zero; taken; or the phase completed and the
object reloaded. -/
def Claims.arrived (w : Obj) (a n : Nat) : Nat × Obj :=
  if w.obs < w.reg then (2, w)
  else if w.pendarr < a ∨ 2 ^ 32 ≤ w.pendbytes + n ∨ (w.pendarr = 0 ∧ w.pendbytes = 0 ∧ n = 0) then (3, { w with overrun := true })
  else if w.pendarr = a ∧ w.pendbytes + n = 0 then (1, reloaded { w with phase := w.phase + 1, obs := 0 })
  else (0, { w with pendarr := w.pendarr - a, pendbytes := w.pendbytes + n })

/-- Nothing of the group's own that an arrival of a lane releases is left to be performed (11 R281). -/
def Claims.AllPerformed (s : State) : Prop :=
  (own s).queued = [] ∧ (own s).storesLeft true = false ∧ (own s).storesLeft false = false ∧ (own s).awaits true = false ∧ s.proxy = []

/-- 17 R410 to R413: `arrive` makes its arrivals, `arriveb` one, or none, and expects bytes, `bdrop` one and lowers the expectations; each
writes the status and goes on, whatever waits on the object and whomever it notifies; with no waiter and no notify target the object is
as stated. `varrive` of one lane makes one arrival, which expects a byte count in its second form, and writes the lane's status; of any
lanes whose objects are sound it goes on. -/
def Obligations.Arrivals : Prop := ∀ (s : State) (e : BitVec 13) (k : BitVec 1) (b a d : BitVec 6) (tm o : Nat),
  let x := own s
  let w := s.objAt tm o
  let alone := w.nv = false ∧ NoWaiter s tm o
  let takes := fun i (n : Nat × Obj) => Does i s fun t => Went s t d (BitVec.ofNat 64 n.1) ∧ (alone → Leaves s t tm o n.2 d (BitVec.ofNat 64 n.1))
  (AtObject s a tm o → s.released s.me = true →
    (0 < e.toInt → takes (.arrive e a d) (arrived w e.toNat 0)) ∧
    ((s.rs b).toNat < 2 ^ 32 → takes (.arriveb k b a d) (arrived w (1 - k.toNat) (s.rs b).toNat)) ∧
    (let n := arrived w 1 0
     let y := { n.2 with exparr := n.2.exparr - 1, reg := n.2.reg - k.toNat }
     takes (.bdrop k a d) (if w.exparr = 0 ∨ (k = 1#1 ∧ w.reg = 0) then (3, { w with overrun := true })
       else (n.1, if n.1 ≤ 1 then (if k = 1#1 then { y with obs := min y.obs y.reg } else y) else n.2)))) ∧
  (∀ (f : LaneWord) (x1 : Group) (flag : Option Nat) (l : Nat),
    let va := (if f.kind = 1#2 then x.cap (f.vb.toNat % 16) else 0) + BitVec.ofNat 64 (x.vRaw l f.va.toNat).toNat + f.imm.signExtend 64
    let n := arrived w 1 (if f.sub = 1#4 then (x.vRaw l f.vc.toNat).toNat else 0)
    x.tr = none → x.fenced = false → x.issueLL f = some (x1, flag) → f.u = 0#1 → lanes (acting s f) = [l] →
    LaneReady s f ((f.va.toNat, 1) :: (f.vd.toNat, 1) :: if f.sub = 1#4 then [(f.vc.toNat, 1)] else []) →
    x.vBad l f.va.toNat = false → (f.sub = 1#4 → x.vBad l f.vc.toNat = false) →
    AllPerformed s → s.spadLoc (keyTeam s.me) va.toNat 1 = some (tm, o) → va.toNat % 32 = 0 → s.objBroken tm o = false →
    KMap.find o (s.tm tm).held = none → (s.tm tm).isOut = false →
    Does (.varrive f) s fun t => (t.grp s.me).vRaw l f.vd.toNat = BitVec.ofNat 32 n.1 ∧
      (∀ q r, q < 16 → ¬(q = l ∧ r = f.vd.toNat) → (t.grp s.me).vRaw q r = x.vRaw q r) ∧
      (t.grp s.me).path = x.path.map (fun p => { p with lpc := p.lpc + 12 }) ∧ (alone → t.objAt tm o = n.2 ∧ MemoryKept s t)) ∧
  (∀ (f : LaneWord) (x1 : Group) (flag : Option Nat), x.tr = none → x.fenced = false → x.issueLL f = some (x1, flag) →
    LaneReady s f ((f.va.toNat, 1) :: (f.vd.toNat, 1) :: if f.sub = 1#4 then [(f.vc.toNat, 1)] else []) →
    AllPerformed s → (∀ l ∈ bodyLanes f (acting s f), (s.laneObj f l).1 = none) →
    Does (.varrive f) s fun t => (t.grp s.me).path = x.path.map (fun p => { p with lpc := p.lpc + 12 }) ∧ (t.grp s.me).live = x.live ∧
      (∀ q r, q < 16 → ¬((acting s f).getLsbD q ∧ r = f.vd.toNat) → (t.grp s.me).vRaw q r = x.vRaw q r))

/-- A token instruction outside `try` names an entry of this device (15 R368). -/
def Claims.NamesToken (s : State) (a : BitVec 6) (id : Nat) : Prop :=
  (own s).inTry = false ∧ (s.rs a).toNat = id + 2 ^ 24 * s.links.devnum.toNat ∧ id < 2 ^ 24 ∧ s.tokExists id = true

/-- The entry is held by the stream's team or cluster, with nothing left to be performed under it (15 R368). -/
def Claims.OwnsToken (s : State) (a : BitVec 6) (id : Nat) : Prop :=
  NamesToken s a id ∧ (s.tok id).holder ∈ s.acting ∧ s.transferReady (s.tok id).holder id = true

/-- The token table starts at a multiple of 4 MiB, so that its entries lie in even frames, and no unit of memory is marked lost (15 R358,
16 R391, R392). -/
def Claims.TableSound (s : State) : Prop := s.tokbase.toNat % 0x40_0000 = 0 ∧ s.turner.lost = []

/-- `d` was written and the stream went on; in a sound table the token's entry became `e` and no other entry changed. -/
def Claims.TokenBecame (s t : State) (id : Nat) (e : TokEntry) (d : BitVec 6) (v : Word) : Prop :=
  Went s t d v ∧ (TableSound s → t.tok id = e ∧ ∀ j, j ≠ id → t.tok j = s.tok j)

/-- The generation after a transfer (15 R360). -/
def Claims.nextGeneration (e : TokEntry) : Nat := (e.gen + 1) % 65536

/-- 15 R371: an entry that a share leaves: `lent` of the lent ones; with its last share it leaves SHARED, for its lender if it has one. -/
def Claims.shareLeft (e : TokEntry) (lent : Nat) : TokEntry :=
  if e.shares ≤ 1 then
    { e with shares := 0, lentsh := 0, state := if e.lender = 0 then 1 else 3, gen := nextGeneration e }
  else { e with shares := e.shares - 1, lentsh := e.lentsh - lent }

/-- 15 R369 to R372, R376: lending (`k` = 0), giving (1), passing a lent token on (2), returning, sharing, and reclaiming a stranded
token: the holder, lender, state and generation of the entry, each waiting for what it releases. A read share is lent into a free slot,
and returned from a slot or from those not lent. -/
def Claims.TokenTransfers : Prop := ∀ (s : State) (c : BitVec 1) (b a d : BitVec 6) (id : Nat),
  let e := s.tok id
  let h := (s.rs b).toNat
  let gen := nextGeneration e
  let shares := fun (u : State) => if isClusterId h then (u.cl h).shares else (u.tm h).shares
  (OwnsToken s a id →
   (s.targetOk (s.rs b) false = true →
    (e.state = 1 → Does (.tlend 0 b a d) s fun t => TokenBecame s t id { e with state := 3, lender := e.holder, holder := h, gen } d 0) ∧
    (e.state = 1 → Does (.tlend 1 b a d) s fun t => TokenBecame s t id { e with lender := 0, holder := h, gen } d 0) ∧
    (e.state = 3 → Does (.tlend 2 b a d) s fun t => TokenBecame s t id
      (if h = e.lender then { e with state := 1, holder := h, lender := 0, gen } else { e with holder := h, gen }) d 0)) ∧
   (e.state = 2 → h < 0x800000 → h % 2 ^ 19 ≠ 0 → s.holderLive h = true →
    (e.lentsh = e.shares → Does (.tlend 0 b a d) s fun t => TokenBecame s t id e d 2) ∧
    (e.lentsh < e.shares → 8 ≤ (shares s).length → Does (.tlend 0 b a d) s fun t => TokenBecame s t id e d 1) ∧
    (e.lentsh < e.shares → (shares s).length < 8 → Does (.tlend 0 b a d) s fun t =>
      TokenBecame s t id { e with lentsh := e.lentsh + 1 } d 0 ∧ shares t = shares s ++ [id])) ∧
   (e.state = 3 → Does (.tret 0 a d) s fun t => TokenBecame s t id { e with state := 1, holder := e.lender, lender := 0, gen } d 0) ∧
   (e.state = 2 → s.slotHolder id = none → e.lentsh < e.shares → Does (.tret 1 a d) s fun t => TokenBecame s t id (shareLeft e 0) d 0) ∧
   (e.state = 1 ∨ e.state = 3 → 1 ≤ h → h ≤ 511 →
    Does (.tshare b a d) s fun t => TokenBecame s t id { e with state := 2, shares := h, lentsh := 0, gen } d 0)) ∧
  (NamesToken s a id →
   (∀ u, e.state = 2 → 0 < e.shares → s.slotHolder id = some u → s.transferReady u id = true →
    Does (.tret 1 a d) s fun t => TokenBecame s t id (shareLeft e 1) d 0) ∧
   ((own s).kernel = true → s.transferReady e.holder id = true →
    e.state = 4 → s.targetOk (s.rs b) true = true → (s.partAt (s.gPart s.me)).ownsTok id = true →
    Does (.treclaim c b a d) s fun t => Went s t d 0 ∧ (s.tokRaw id = e → s.bad (s.tokAddr id) = false → e.log2 ≤ 24 → e.lentsh ≤ e.shares → TokenBecame s t id
      { e with state := if h = memoryHolder then 5 else 1, holder := h, lender := 0, shares := 0, lentsh := 0,
               suspect := if c = 1#1 then 0 else e.suspect, gen } d 0)))

/-- 15 R373 to R375: `tsplit` halves an entry, its base in its place (R361), with its free buddy; `tjoin`, of either of two equal buddies, makes one of them; `tquery`
reports an entry as it stands, whatever its state, or the one that covers a readable address, and changes nothing. -/
def Claims.TokenShapes : Prop := ∀ (s : State) (w : BitVec 2) (a d : BitVec 6) (id : Nat),
  let e := s.tok id
  let half := 2 ^ (e.log2 - 1)
  let u := id + half
  let f := s.tok u
  let top := fun (x y : Nat) => (max x y + 1) % 65536
  let report := fun (r : Word) (n : Nat) =>
    let q := s.tokRaw n
    (w = 1#2 → r = BitVec.ofNat 64 (2 ^ 40 * q.lender + 2 ^ 35 * q.log2 + 2 ^ 34 * q.space + n)) ∧
    (w = 2#2 → r = BitVec.ofNat 64 (q.base * 65536)) ∧
    (w = 0#2 → r.toNat / 4 = (2 ^ 48 * q.gen + 2 ^ 24 * q.holder + 2 ^ 15 * q.shares + 2 ^ 6 * q.lentsh + 32 * q.suspect + 4 * q.state) / 4 % 2 ^ 62)
  (OwnsToken s a id → e.state = 1 ∨ e.state = 3 → 0 < e.log2 → s.tokExists u = true → f.state = 0 → f.base = e.base + half →
    e.base % 2 ^ e.log2 = 0 → Does (.tsplit a d) s fun t =>
      let e' := { e with log2 := e.log2 - 1, gen := top e.gen f.gen, shares := 0, lentsh := 0 }
      Went s t d (BitVec.ofNat 64 u) ∧
        (TableSound s → t.tok id = e' ∧ t.tok u = { e' with base := f.base } ∧ ∀ j, j ≠ id → j ≠ u → t.tok j = s.tok j)) ∧
  (∀ lo, lo % 2 ^ (e.log2 + 1) = 0 → OwnsToken s a id →
    let hi := lo + 2 ^ e.log2
    let p := s.tok lo
    let q := s.tok hi
    id = lo ∨ id = hi → s.tokExists lo = true → s.tokExists hi = true → e.log2 < 24 → e.state = 1 ∨ (e.state = 3 ∧ p.lender = q.lender) →
    p.state = q.state → p.log2 = q.log2 → p.space = q.space → p.holder = q.holder →
    s.transferReady e.holder lo = true → s.transferReady e.holder hi = true → p.base % 2 ^ (e.log2 + 1) = 0 → q.base = p.base + 2 ^ e.log2 →
    Does (.tjoin a d) s fun t =>
      Went s t d (BitVec.ofNat 64 lo) ∧
        (TableSound s → t.tok lo = { p with log2 := e.log2 + 1, suspect := max p.suspect q.suspect, gen := top p.gen q.gen } ∧ (t.tok hi).state = 0 ∧
          ∀ j, j ≠ lo → j ≠ hi → t.tok j = s.tok j)) ∧
  (NamesToken s a id → ∃ r : Word, Computes (.tquery 0 w a d) s [a] d r s.after ∧ report r id) ∧
  (∀ l, (own s).inTry = false → (s.rs a).toNat < 2 ^ 52 → s.leafFor (s.whoIs s.me (own s).kernel) (s.rs a).toNat = some l →
    permits l .read (own s).kernel = true → l.dev = s.links.devnum.toNat →
    Does (.tquery 1 w a d) s fun t => ∃ r : Word, Went s t d r ∧ MemoryKept s t ∧
      match s.covering l.tok (l.pa + (s.rs a).toNat % 2 ^ l.bits) (if l.host then 1 else 0) with
      | some n => report r n
      | none => r = if w = 1#2 then BitVec.ofNat 64 l.tok else 0)

/-- 15 R369 to R376: the token instructions: transfers, and splits, joins and reports. -/
def Obligations.TokenInstructions : Prop := Claims.TokenTransfers ∧ Claims.TokenShapes

/-- 08 R208, R212: the outermost `try` writes 0 and keeps the scalar and predicate registers, the live lanes and the landing address; a
nested one counts; `commit` of the outermost, within the grace of a pre-emption, moves the buffered stores of global memory to the store
queue and writes the rolled-back lanes; `abort`
puts the checkpoint back, writes the status to the register that `try` named and to `c.tryabort`, and goes to the landing; outside `try`
`commit` and `abort` do nothing. -/
def Obligations.Speculation : Prop := ∀ (s : State) (i : BitVec 19) (d : BitVec 6) (e : BitVec 8),
  let x := own s
  keyGrp s.me ≠ 64 →
  (x.tr = none → Moves (.commit d) s [] s.after ∧ Moves (.abort e) s [] s.after) ∧
  (x.queue = [] → x.run = none → x.awaits false = false →
    (x.tr = none → Does (.tryStart i d) s fun t =>
      (∃ y, (t.grp s.me).tr = some y ∧ y.depth = 1 ∧ y.landing = x.pc + 4 * i.signExtend 64 ∧ y.sd = d.toNat ∧ y.savedS = x.s ∧
        y.savedP = x.sPoison ∧ y.savedK = x.k ∧ y.savedLive = x.live ∧ y.buffer = []) ∧
      Wrote x (t.grp s.me) d 0 ∧ (t.grp s.me).pc = s.after ∧ OnlyStream s.me s t) ∧
    (∀ y, x.tr = some y →
      (y.depth < 255 → Does (.tryStart i d) s fun t =>
        (t.grp s.me).tr = some { y with depth := y.depth + 1 } ∧ Wrote x (t.grp s.me) d 0 ∧ (t.grp s.me).pc = s.after ∧ OnlyStream s.me s t) ∧
      (1 < y.depth → y.depth ≤ 255 → Does (.commit d) s fun t =>
        (t.grp s.me).tr = some { y with depth := y.depth - 1 } ∧ Wrote x (t.grp s.me) d 0 ∧ (t.grp s.me).pc = s.after ∧ OnlyStream s.me s t) ∧
      (y.depth = 1 → (∀ n, x.grace = some n → n ≤ (s.gTeam s.me).trygrace.toNat) → Does (.commit d) s fun t =>
        (t.grp s.me).tr = none ∧
          (t.grp s.me).storeq = x.storeq ++ (y.buffer.filter fun o => !o.spad && !o.accs.isEmpty).map (fun o => { o with age := x.taken }) ∧
          (t.grp s.me).live = x.live ||| y.aborted ∧ Went s t d (y.aborted.setWidth 64) ∧ MemoryKept s t ∧
          ((∀ o ∈ y.buffer, o.spad = false) → OnlyStream s.me s t)))) ∧
  (∀ y, x.tr = some y → Does (.abort e) s fun t =>
    let st := BitVec.ofNat 32 (65536 * y.savedLive.toNat + 256 * e.toNat + 1)
    (t.grp s.me).tr = none ∧ (t.grp s.me).pc = y.landing ∧ (t.grp s.me).tryabort = st ∧ (t.grp s.me).k = y.savedK ∧
      (t.grp s.me).live = y.savedLive ∧ (t.grp s.me).queue = [] ∧ (t.grp s.me).storeq = x.storeq ∧
      (y.sd ≠ 0 → (t.grp s.me).sGet y.sd = st.setWidth 64) ∧
      (∀ r, r ≠ 0 → r ≠ y.sd → (t.grp s.me).sGet r = if KMap.read false r y.savedP then 0 else KMap.read 0 r y.savedS) ∧
      OnlyStream s.me s t)

/-! ## Ordering, tasks and the system (05 R129 to R141, 08, 04) -/

/-- No byte of memory changed outside an entry of a partition's task table and, where its frame is mirrored, the copy (14 R348, 16 R391). -/
def Claims.MemoryOutside (s t : State) (p i : Nat) : Prop :=
  let e := s.taskAddr p i
  (s.partAt p).ptaskbase.toNat % 0x20_0000 = 0 → ∀ a, (a < e ∨ e + 256 ≤ a) → (s.mirrored (e / 0x20_0000) = true → a < mirrorOf e ∨ mirrorOf e + 256 ≤ a) → t.byteAt a = s.byteAt a

/-- 05 R129 to R134, 14 R349: fences whose conditions hold go on and change no memory and no other stream; `qfence` places one join point
and goes on; `tsig` lowers an armed task's count and writes what it was; `tlaunch` writes the index of the entry that it takes, or all ones
when none is free; `kick` writes 2 when its target is not resident, 1 when the target's kick register is full, and else 0, leaving its
notice with the target's core. -/
def Claims.FencesAndTasks : Prop := ∀ (s : State) (k : BitVec 2) (sc : BitVec 3) (e : BitVec 13) (r o : BitVec 1) (q : BitVec 4) (b a d : BitVec 6),
  let x := own s
  let p := s.gPart s.me
  let i := (s.rs a).toNat
  let u := s.taskAt p i
  let n := (s.partAt p).ptaskn.toNat
  let tasks := (s.partAt p).tasks
  ((k.getLsbD 1 = true → s.released s.me = true) → x.awaits false = false → Does (.fence k sc) s fun t =>
    (t.grp s.me).pc = s.after ∧ WroteNone x (t.grp s.me) ∧ MemoryKept s t ∧ ∀ g, g ≠ s.me → t.grp g = s.grp g) ∧
  (x.inTry = false → (keyGrp s.me ≠ 64 → o = 0#1) → (keyGrp s.me = 64 → q = 0#4) →
    (Does (.qfence r o q) s fun t =>
      (t.grp s.me).pc = s.after ∧ WroteNone x (t.grp s.me) ∧ MemoryKept s t ∧ ∀ g, g ≠ s.me → t.grp g = s.grp g) ∧
    (s.joins = [] →
     (∃ j op rest, j < 4 ∧ q.getLsbD j ∧ KMap.read [] j (s.coreAt (s.gCore s.me)).ladle = op :: rest ∧ op ≠ .join s.nextJoin) →
     Does (.qfence r o q) s fun t =>
      t.nextJoin = s.nextJoin + 1 ∧ (∃ j, t.joins = [j] ∧ j.id = s.nextJoin ∧ j.ladle = q ∧ j.g = s.me) ∧
      ∀ c, c < 4 → KMap.read [] c (t.coreAt (s.gCore s.me)).ladle =
        KMap.read [] c (s.coreAt (s.gCore s.me)).ladle ++ if q.getLsbD c then [.join s.nextJoin] else [])) ∧
  (x.inTry = false → s.released s.me = true → 0 < e.toInt → u.state ≠ .free → i < n → e.toNat ≤ u.count →
    Does (.tsig e a d) s fun t => Went s t d (BitVec.ofNat 64 u.count) ∧
      (e.toNat < u.count → t.taskAt p i = { u with count := u.count - e.toNat } ∧ MemoryOutside s t p i ∧ ∀ j, j ≠ i → t.taskAt p j = s.taskAt p j)) ∧
  (∀ ds, x.inTry = false → (s.rs a).toNat % 128 = 0 → (s.rs b).toNat ≤ 65535 →
    s.rangeBusy (s.whoIs s.me x.kernel) (s.rs a).toNat 128 .read = false → s.readOwn s.me (s.whoIs s.me x.kernel) (s.rs a).toNat 128 = .ok ds →
    ((s.failed = true ∨ ∀ j, j < n → (KMap.find j tasks).isSome) →
      Does (.tlaunch b a d) s fun t => Went s t d (BitVec.allOnes 64) ∧ (t.partAt p).tasks = tasks) ∧
    (∀ j, s.failed = false → j < n → KMap.find j tasks = none → (∀ h, h < j → (KMap.find h tasks).isSome) →
      Does (.tlaunch b a d) s fun t => Went s t d (BitVec.ofNat 64 j) ∧
        (0 < (s.rs b).toNat → (t.taskAt p j).record = ds.flatMap Prod.fst ∧ (t.taskAt p j).poisoned = ds.any Prod.snd ∧
          (t.taskAt p j).count = (s.rs b).toNat ∧ (t.taskAt p j).state = .armed ∧ (t.taskAt p j).submitter = s.gCluster s.me ∧
          ∀ h, h ≠ j → t.taskAt p h = s.taskAt p h))) ∧
  (∀ tm o' t', x.inTry = false → (s.rs a).toNat % 32 = 0 → s.spadLoc (keyTeam s.me) (s.rs a).toNat 32 = some (tm, o') →
    s.kickTarget p (s.rs b) = some t' →
    let bytes := if (s.tm tm).badAt o' then List.replicate 32 0 else (s.tm tm).bytesAt o' 32
    let id := natOfBytes ((bytes.drop 0x18).take 3)
    s.tokExists id = true → (s.tok id).state = 2 → (s.tok id).holder = s.gCluster s.me → (s.tok id).lentsh < (s.tok id).shares →
    ((s.cl (s.tm t').cluster).res ≠ .resident → Does (.kick b a d) s fun t => Went s t d 2 ∧ MemoryKept s t) ∧
    (∀ core, (s.cl (s.tm t').cluster).res = .resident → (s.tm t').core = some core →
      ((s.coreAt core).kick.isSome → Does (.kick b a d) s fun t => Went s t d 1 ∧ MemoryKept s t) ∧
      ((s.coreAt core).kick = none → s.released s.me = true →
       Does (.kick b a d) s fun t =>
        (t.coreAt core).kick = some { bytes, sender := s.gCluster s.me, senderTeam := keyTeam s.me, addr := (s.rs a).toNat } ∧
        TokenBecame s t id { s.tok id with lentsh := (s.tok id).lentsh + 1 } d 0)))

/-- 08 R197, R198, 05 R137: taking a trap in user mode: `ecall` and `brk` save the PC, the cause, the address and the status, enter kernel
mode at the handler's address, and stop the lane stream; nothing else changes. A privileged instruction in user mode traps with PRIV,
and an instruction in a stream that may not run it with CONTEXT. 08 R200: in kernel mode no handler is entered: the stream is ended. -/
def Claims.TrapEntry : Prop := ∀ (s : State) (e : BitVec 19) (i : BitVec 19) (m : BitVec 12) (c : BitVec 1) (b a d : BitVec 6) (f : BitVec 8),
  let x := own s
  let enters := fun j (code : Nat) (addr : Word) => Does j s fun t => OnlyStream s.me s t ∧
    ∃ y, t.grp s.me = { y with
        kernel := true, laneStopped := true, pc := (s.gTeam s.me).hvec &&& ~~~ 3#64, stall := 13, lstall := 13, retired := false, handling := none
        entered := x.taken
        bank := { xpc := x.pc, xlpc := 0, xcause := BitVec.ofNat 32 code, xaddr := addr, xmask := 0, xlog := 0
                  xstatus := BitVec.ofNat 32 (65536 * x.pathMask.toNat + 256 * x.stack.length) } } ∧
      (y = x ∨ y = { x with chkint := x.chkint ||| 2 })
  (UserMode s →
    enters (.ecall e) 0x0F (BitVec.ofNat 64 e.toNat) ∧ enters (.brk e) 0x0E (BitVec.ofNat 64 e.toNat) ∧
    (∀ j ∈ [Instr.xret, .pginvAll, .pginvToken a, .pginvRange b a, .treclaim c b a d], enters j 0x02 0) ∧
    (keyGrp s.me = 64 → ∀ j ∈ [Instr.clause i a, .waitf m, .testf m d, .yield, .tryStart i d, .commit d, .abort f], enters j 0x03 0)) ∧
  (x.kernel = true → x.inTry = false → Does (.ecall e) s fun t => (KMap.find s.me t.groups).isNone)

/-- 08 R204, 06 R145: `xret` with nothing logged returns to `xpc`, in the mode that `xstatus` holds, with the lane stream going on and
every long-latency result landed; to the next word when the trap was a retired scalar access's; a precise lane trap's return sets the lane
PC to `xlpc`. -/
def Claims.TrapReturn : Prop := ∀ (s : State),
  let x := own s
  let b := x.bank
  x.kernel = true → x.handling = none → b.xlog.getLsbD 4 = false →
  (b.xcause.getLsbD 8 = false ∨ b.xcause.getLsbD 9 = true ∨ x.retired = true →
    Does .xret s fun t => OnlyStream s.me s t ∧ (t.grp s.me).kernel = b.xstatus.getLsbD 0 ∧ (t.grp s.me).laneStopped = false ∧
      (t.grp s.me).pc = (if b.xcause.getLsbD 9 = false ∧ b.xcause.getLsbD 8 = false ∧ x.retired = true then b.xpc + 4 else b.xpc) ∧
      (t.grp s.me).path = x.path ∧ WroteNone x.landPending (t.grp s.me) ∧ (t.grp s.me).pending = [] ∧ (t.grp s.me).v = x.v ∧
      (t.grp s.me).k = x.k) ∧
  (b.xcause.getLsbD 8 = true → b.xcause.getLsbD 9 = false → x.retired = false → ∀ a h p, x.curClause = some (a, h) → x.path = some p →
    (∃ n, 1 ≤ n ∧ n ≤ h.count + 1 ∧ b.xlpc = a + BitVec.ofNat 64 (12 * n)) → h.count < 2 ^ 20 →
    Does .xret s fun t => OnlyStream s.me s t ∧ (t.grp s.me).pc = b.xpc ∧ (t.grp s.me).path = some { p with lpc := b.xlpc } ∧
      (t.grp s.me).kernel = b.xstatus.getLsbD 0 ∧ (t.grp s.me).laneStopped = false)

/-- 08 R197 to R200, R204: taking a trap, and the return from one. -/
def Obligations.TrapsAndReturns : Prop := Claims.TrapEntry ∧ Claims.TrapReturn

/-- 04 R96 to R106, 05 R135: control registers. `getc` reads what the stream, its team or its core holds; `setc` writes the fields that the
register has and no other; an unassigned number traps with ILLEGAL, a kernel register in user mode with PRIV. -/
def Obligations.ControlRegisters : Prop := ∀ (s : State) (c : BitVec 12) (a d : BitVec 6),
  let x := own s
  let tm := s.gTeam s.me
  let v := s.rs a
  let reads := fun (n : Nat) (w : Word) => Computes (.getc (BitVec.ofNat 12 n) d) s [] d w s.after
  let sets := fun (n : Nat) (p : State → Prop) => Does (.setc (BitVec.ofNat 12 n) a) s fun t =>
    p t ∧ (t.grp s.me).pc = s.after ∧ WroteNone x (t.grp s.me) ∧ MemoryKept s t
  reads 0x000 (s.coreAt (s.gCore s.me)).cycle ∧ reads 0x001 x.gtime ∧ reads 0x002 x.gtcmp ∧ reads 0x300 320 ∧
  reads 0x023 (s.cl tm.cluster).gx ∧ reads 0x024 (s.cl tm.cluster).gy ∧ reads 0x025 (s.cl tm.cluster).gz ∧
  (keyGrp s.me ≠ 64 → reads 0x020 (BitVec.ofNat 64 (keyGrp s.me)) ∧ reads 0x011 (x.tryabort.setWidth 64) ∧
    reads 0x010 ((x.chkint &&& 0x1F).setWidth 64)) ∧
  (x.kernel = true → reads 0x100 x.bank.xpc ∧ reads 0x101 x.bank.xlpc ∧ reads 0x102 (x.bank.xcause.setWidth 64) ∧
    reads 0x103 (x.bank.xstatus.setWidth 64) ∧ reads 0x104 x.bank.xaddr ∧ reads 0x105 (x.bank.xmask.setWidth 64) ∧
    reads 0x106 (x.bank.xlog.setWidth 64) ∧ reads 0x200 tm.hvec ∧ reads 0x210 (tm.evthr.setWidth 64)) ∧
  (x.inTry = false →
    sets 0x002 (fun t => (t.grp s.me).gtcmp = v ∧ (t.grp s.me).gtime = x.gtime) ∧
    (x.kernel = true → x.sBad a.toNat = false →
      sets 0x100 (fun t => (t.grp s.me).bank = { x.bank with xpc := v }) ∧ sets 0x101 (fun t => (t.grp s.me).bank = { x.bank with xlpc := v }) ∧
      sets 0x103 (fun t => (t.grp s.me).bank = { x.bank with xstatus := v.setWidth 32 &&& 0xFFFF3F03 }) ∧
      sets 0x106 (fun t => (t.grp s.me).bank = { x.bank with xlog := v.setWidth 32 &&& 0x1F }) ∧
      sets 0x200 (fun t => t.gTeam s.me = { tm with hvec := BitVec.ofNat 64 (v.toNat / 4 * 4) }) ∧
      (v ≠ x.gtcmp ∨ v = 0 → sets 0x001 (fun t => (t.grp s.me).gtime = v ∧ (t.grp s.me).gtcmp = x.gtcmp)))) ∧
  (UserMode s → ∀ i ∈ [Instr.getc c d, .setc c a], ∀ code, 
    (code = 1 ∧ (c.toNat = 0x003 ∨ c.toNat = 0x107 ∨ c.toNat = 0x302 ∨ 0x420 ≤ c.toNat)) ∨
      (code = 2 ∧ (0x100 ≤ c.toNat ∧ c.toNat ≤ 0x106 ∨ c.toNat = 0x200 ∨ c.toNat = 0x210)) →
    Does i s fun t => Trapped s t code (BitVec.ofNat 64 c.toNat) ∧ WroteNone x (t.grp s.me) ∧ OnlyStream s.me s t)

/-- 02 R54, 05 R136, R138, R141: `chkerr` reads `c.chkint` once earlier work is done; `exit` of a group whose lanes are idle, or of a
sequencer stream whose Press instructions have completed, removes the stream, a team's other groups staying; `pginv` in kernel mode drops from every TLB the partition's translations that it names, no other,
and changes no register. -/
def Claims.EndsAndInvalidations : Prop := ∀ (s : State) (b a d : BitVec 6),
  let x := own s
  let p := s.gPart s.me
  let keeps := fun i (f : TlbEntry → Bool) => Does i s fun t =>
    (∀ c, (t.coreAt c).tlb = (s.coreAt c).tlb.filter fun e => decide (e.part ≠ p) || !f e) ∧
      (t.grp s.me).pc = s.after ∧ WroteNone x (t.grp s.me) ∧ MemoryKept s t ∧ ∀ g, g ≠ s.me → t.grp g = s.grp g
  let touches := fun (e : TlbEntry) => (s.rs b).toNat ≠ 0 ∧
    (∃ k, (s.rs a).toNat / 65536 ≤ k ∧ k ≤ ((s.rs a).toNat + (s.rs b).toNat - 1) / 65536 ∧
      e.vpage * 2 ^ e.leaf.bits < (k + 1) * 65536 ∧ k * 65536 < (e.vpage + 1) * 2 ^ e.leaf.bits)
  (keyGrp s.me ≠ 64 → x.kernel = true ∨ (x.queue = [] ∧ x.run = none ∧ x.reducing = false) → x.awaits false = false →
    Computes (.chkerr d) s [] d ((x.chkint &&& 0x1F).setWidth 64) s.after) ∧
  (keyGrp s.me = 64 → s.pressIdle (s.gCluster s.me) = true → x.awaits false = false →
    Does (.chkerr d) s fun t => Went s t d ((x.chkint &&& 0xFF1F).setWidth 64) ∧ MemoryKept s t) ∧
  (x.inTry = false → (if keyGrp s.me = 64 then s.pressIdle (s.gCluster s.me) = true else x.queue = [] ∧ x.run = none) →
    Does .exit s fun t => (KMap.find s.me t.groups).isNone) ∧
  (keyGrp s.me ≠ 64 → x.inTry = false → x.queue = [] → x.run = none → (KMap.find s.me s.groups).isSome →
    (∃ g, g ≠ s.me ∧ keyTeam g = keyTeam s.me ∧ keyGrp g < 64 ∧ (KMap.find g s.groups).isSome) →
    Does .exit s fun t => (KMap.find s.me t.groups).isNone ∧ (s.gTeam s.me).chk ||| (x.chkint &&& 31) = (t.tm (keyTeam s.me)).chk ∧
      MemoryKept s t ∧ ∀ g, g ≠ s.me → t.grp g = s.grp g) ∧
  (x.kernel = true → x.inTry = false → s.released s.me = true →
    keeps .pginvAll (fun _ => true) ∧ keeps (.pginvToken a) (fun e => decide (e.leaf.tok = (s.rs a).toNat % 2 ^ 24)) ∧
    ∃ f : TlbEntry → Bool, keeps (.pginvRange b a) f ∧ ∀ e, f e = true ↔ touches e)

/-- 05 R129 to R141: fences, tasks and kicks; `chkerr`, `exit` and `pginv`. -/
def Obligations.FencesTasksAndEnds : Prop := Claims.FencesAndTasks ∧ Claims.EndsAndInvalidations

/-! ## Near-bank units (10 R257 to R262) -/

/-- The stream's partition counts no transfers of host pages (16 R402), so that a read writes no memory. -/
def Claims.uncounted (s : State) : Prop := (s.partAt (s.gPart s.me)).phacctl.getLsbD 31 = false

/-- 10 R259, R260, R262: `nbload` of a sound microprogram puts it into the first free slot of the unit that is the address's home, and writes
its handle, or all ones when none is free; `nbrun` of a sound descriptor queues a run on that unit and writes its ticket, or all ones when
eight are queued; `nbpoll` reports a run's rows, poison and state, and
15 for a ticket that names none. -/
def Claims.NearBankQueue : Prop := ∀ (s : State) (n b a d : BitVec 6) (e : BitVec 1),
  let x := own s
  let who := s.whoIs s.me x.kernel
  let va := s.rs a
  let vb := s.rs b
  x.inTry = false →
  (∀ bs bad y, va.toNat % 4 = 0 → s.rangeBusy who va.toNat (4 * (n.toNat + 1)) .read = false →
    s.readConsumed s.me who va.toNat (4 * (n.toNat + 1)) = .ok (bs, bad) → firstOffence (microWords bs) = none →
    s.xlate who vb.toNat .read = .ok y → y.remote = false → y.leaf.host = false →
    let u := s.homeOf y.pa
    let slots := (s.unitAt u).slots
    (∀ i, i < 8 → KMap.find i slots = none → (∀ j, j < i → (KMap.find j slots).isSome) →
      Does (.nbload n b a d) s fun t =>
        (t.unitAt u).slots = KMap.put i { words := microWords bs, team := keyTeam s.me } slots ∧ (∀ k, k ≠ u → (t.unitAt k).slots = (s.unitAt k).slots) ∧
        (∀ k, (t.unitAt k).queue = (s.unitAt k).queue) ∧ Went s t d (BitVec.ofNat 64 (8 * u + i)) ∧ (uncounted s → MemoryKept s t)) ∧
    ((∀ i, i < 8 → (KMap.find i slots).isSome) → Does (.nbload n b a d) s fun t => Went s t d (BitVec.allOnes 64) ∧ (uncounted s → MemoryKept s t))) ∧
  (∀ u slot bs bad, s.slotOf va = some (u, slot) → vb.toNat % 64 = 0 → s.rangeBusy who vb.toNat 64 .read = false → s.released s.me = true →
    s.readConsumed s.me who vb.toNat 64 = .ok (bs, bad) → s.runBad who (runDesc bs) slot.words vb = none →
    ((s.unitAt u).queue.length < 8 → Does (.nbrun b a d) s fun t =>
      (∃ r, (t.unitAt u).queue = (s.unitAt u).queue ++ [r] ∧ r.seq = (s.unitAt u).seq ∧ r.prog = slot.words ∧ r.state = 0 ∧
        r.count = natOfBytes ((bs.drop 0x30).take 4) ∧ r.start = natOfBytes ((bs.drop 0x34).take 4) ∧ r.team = keyTeam s.me) ∧
      (t.unitAt u).seq = (s.unitAt u).seq + 1 ∧ Went s t d (BitVec.ofNat 64 (65536 * u + (s.unitAt u).seq % 65536)) ∧ (uncounted s → MemoryKept s t)) ∧
    (8 ≤ (s.unitAt u).queue.length → Does (.nbrun b a d) s fun t => Went s t d (BitVec.allOnes 64) ∧ (uncounted s → MemoryKept s t))) ∧
  (s.runOf va = none → Computes (.nbpoll e a d) s [a] d 15 s.after) ∧
  (∀ r, s.runOf va = some r → e = 0#1 ∨ 3 ≤ r.state → Does (.nbpoll e a d) s fun t =>
    Wrote x (t.grp s.me) d (BitVec.ofNat 64 (2 ^ 32 * r.rows + (if r.pois then 16 else 0) + r.state)) ∧ (t.grp s.me).pc = s.after ∧
      MemoryKept s t ∧ ∀ u, t.unitAt u = s.unitAt u)

/-- The run that the step's unit performs, and its place in the unit. -/
def Claims.Runs (s : State) (r : NbRun) (rest : List NbRun) : Prop := (s.unitAt s.myUnit).queue = r :: rest ∧ r.state = 1

/-- The micro-operation changed nothing but its run, which is now `r`. -/
def Claims.RunIs (s t : State) (r : NbRun) (rest : List NbRun) : Prop :=
  t = { s with rennets := t.rennets } ∧ t.unitAt s.myUnit = { s.unitAt s.myUnit with queue := r :: rest } ∧ ∀ u, u ≠ s.myUnit → t.unitAt u = s.unitAt u

/-- An accumulator after an element-wise operation: each element is what a function says, and it is poisoned when a source is. -/
def Claims.AccIs (r r' : NbRun) (d : BitVec 3) (w : Nat) (bad : Bool) (want : Nat → Nat) : Prop :=
  r' = { r with ctr := r.ctr + 1, n := r'.n, np := r'.np } ∧ (∀ j, j ≠ d → r'.acc j = r.acc j ∧ r'.accBad j = r.accBad j) ∧ r'.accBad d = bad ∧
    ∀ i, i < 256 / w → part w (r'.acc d).toNat i = want i

/-- 10 R258: element-wise micro-operations on two accumulators, or on one and an immediate; the multiply-accumulate adds to the destination. -/
def Obligations.MicroArithmetic : Prop := ∀ (s : State) (d a b : BitVec 3) (t : BitVec 4) (s1 : BitVec 1) (i : BitVec 12) (r : NbRun) (rest : List NbRun),
  t = 0#4 ∨ t = 1#4 ∨ t = 4#4 ∨ t = 6#4 → Runs s r rest →
  let w := tyWidth t
  let g := fmtOf t
  let fl := tyFloat t
  let sat := decide (s1 = 1#1)
  let el := fun (j : BitVec 3) k => part w (r.acc j).toNat k
  let im := if fl then g.round 0 false (FVal.ofInt i.toInt) % 2 ^ w else (i.toInt % 2 ^ w).toNat
  let fin := fun (v : FVal) => g.round 0 false v % 2 ^ w
  let mul := fun x y => if fl then fin (FVal.mul (g.value x) (g.value y)) else narrowed t sat (asInt t x * asInt t y)
  let add := fun x y => if fl then fin (FVal.add 0 (g.value x) (g.value y)) else narrowed t sat (asInt t x + asInt t y)
  let mac := fun x y z => if fl then fin (FVal.add 0 (FVal.mul (g.value x) (g.value y)) (g.value z))
    else narrowed t sat (asInt t x * asInt t y + asInt t z)
  let least := fun x y => if fl then fMinMax g false x y % 2 ^ w else if asInt t y < asInt t x then y else x
  let most := fun x y => if fl then fMinMax g true x y % 2 ^ w else if asInt t x < asInt t y then y else x
  let two := r.accBad a || r.accBad b
  let gives := fun j w bad (want : Nat → Nat) => Does j s fun u => ∃ r', RunIs s u r' rest ∧ AccIs r r' d w bad want
  gives (.nmul d a b t s1) w two (fun k => mul (el a k) (el b k)) ∧ gives (.nmulImm d a t s1 i) w (r.accBad a) (fun k => mul (el a k) im) ∧
  gives (.nadd d a b t s1) w two (fun k => add (el a k) (el b k)) ∧ gives (.naddImm d a t s1 i) w (r.accBad a) (fun k => add (el a k) im) ∧
  gives (.nmac d a b t s1) w (two || r.accBad d) (fun k => mac (el a k) (el b k) (el d k)) ∧
  gives (.nmacImm d a t s1 i) w (r.accBad a || r.accBad d) (fun k => mac (el a k) im (el d k)) ∧
  gives (.nmin d a b t) w two (fun k => least (el a k) (el b k)) ∧ gives (.nminImm d a t i) w (r.accBad a) (fun k => least (el a k) im) ∧
  gives (.nmax d a b t) w two (fun k => most (el a k) (el b k)) ∧ gives (.nmaxImm d a t i) w (r.accBad a) (fun k => most (el a k) im) ∧
  gives (.nxor d a b) 32 two (fun k => part 32 (r.acc a).toNat k ^^^ part 32 (r.acc b).toNat k) ∧
  gives (.nxorImm d a i) 32 (r.accBad a) (fun k => part 32 (r.acc a).toNat k ^^^ (i.toInt % 2 ^ 32).toNat) ∧
  gives (.nmov d a) 32 (r.accBad a) (fun k => part 32 (r.acc a).toNat k) ∧ gives (.nmovImm d t i) w false (fun _ => im)

/-- 10 R257, R258, R261, R262: `nld` takes a sector of this unit, with its poison, into an accumulator; `nst` writes exactly the sector that
it names, with its accumulator's poison; both wait while post-package repair is at work on the row (16 R401); a sector of another unit ends the run with state 4. `nrow` and `nnop` go on; `nloop` advances the
row and loops while it is below the count; `nsync` counts a row that ends there and goes on with nothing waiting, suspends the run with
operations waiting, a stream's or another agent's, and ends it with state 5 where the Turner wants its frames; `nend` ends the run with state 3 and its rows. -/
def Obligations.MicroMemoryAndControl : Prop := ∀ (s : State) (d k : BitVec 3) (i : BitVec 2) (m : BitVec 4) (l : BitVec 6) (r : NbRun) (rest : List NbRun),
  Runs s r rest →
  let unit := s.unitAt s.myUnit
  let pa := (KMap.read ((0 : Word), 0) i.toNat r.streams).2 + (r.r - r.start) * KMap.read 0 i.toNat r.strides + 32 * k.toNat
  let ended := fun j st rows => Does j s fun t => (t.unitAt s.myUnit).queue.map NbRun.seq = rest.map NbRun.seq ∧
    (s.joins = [] → (t.unitAt s.myUnit).queue = rest ∧ ((s.teamGroups r.team).isEmpty = false → t = { s with rennets := t.rennets })) ∧
    ∃ q, (t.unitAt s.myUnit).done = (q :: unit.done).take 64 ∧ q.state = st ∧ q.rows = rows ∧ q.n = [] ∧ q.seq = r.seq ∧ q.pois = r.pois
  let next := { r with ctr := r.ctr + 1 }
  (s.homeOf pa = s.myUnit → s.inRepair (s.locate pa) = true → ∀ j ∈ [Instr.nld d k i, .nst d k i], exec j s = .next s) ∧
  (s.homeOf pa = s.myUnit → s.inRepair (s.locate pa) = false → Does (.nld d k i) s fun t => ∃ r', RunIs { s with ras := t.ras } t r' rest ∧
    (s.turner.lost = [] → t.ras = s.ras) ∧
    AccIs r r' d 8 (s.bad pa) (fun j => if s.bad pa then 0 else ((s.loadBytes pa 32)[j]?.getD 0).toNat)) ∧
  (s.homeOf pa = s.myUnit → s.inRepair (s.locate pa) = false → Does (.nst d k i) s fun t =>
    (t.unitAt s.myUnit).queue = { next with pois := r.pois || r.accBad d } :: rest ∧ t.groups = s.groups ∧
    (pa % 32 = 0 → s.mirrored (pa / 0x20_0000) = false →
      (∀ j, t.byteAt j = if pa ≤ j ∧ j < pa + 32 then BitVec.ofNat 8 ((r.acc d).toNat / 2 ^ (8 * (j - pa))) else s.byteAt j) ∧
      t.badAt pa = r.accBad d)) ∧
  (s.homeOf pa ≠ s.myUnit → ended (.nld d k i) 4 r.rows ∧ ended (.nst d k i) 4 r.rows) ∧
  (∀ j ∈ [Instr.nrow m, .nnop], Does j s fun t => RunIs s t next rest) ∧
  (Does (.nloop l) s fun t => RunIs s t { r with r := r.r + 1, ctr := if r.r + 1 < r.count then l.toNat else r.ctr + 1 } rest) ∧
  (let rows := r.rows + if r.loopNext = true ∧ r.r < r.count then 1 else 0
   (r.loopNext = false ∨ s.turnerWants r = false →
    (unit.waiting = [] → s.othersWait s.myUnit = false → Does .nsync s fun t => RunIs s t { next with rows } rest) ∧
    (unit.waiting ≠ [] ∨ s.othersWait s.myUnit = true → Does .nsync s fun t => t = { s with rennets := t.rennets } ∧
      t.unitAt s.myUnit = { unit with queue := { next with rows, state := 2 } :: rest, served := 0 })) ∧
   (r.loopNext = true → s.turnerWants r = true → ended .nsync 5 rows)) ∧
  ended .nend 3 (if r.r < r.count then r.rows + 1 else r.count - r.start)

/-! ## The Press (12) -/

/-- No Press queue of a member of the executing stream's cluster is full (12 R294). -/
def Claims.PressRoom (s : State) : Prop := ∀ m ∈ s.pressMembers, (s.pressOf m).pending < 16

/-- The members of the executing stream's cluster that hold a core hold each its own. -/
def Claims.OwnCores (s : State) : Prop :=
  s.myMembers.Nodup ∧ ∀ m ∈ s.myMembers, ∀ n ∈ s.myMembers, ∀ k, (s.tm m).core = some k → (s.tm n).core = some k → m = n

/-- A Press instruction entered the queue of each member with a core of its own and nothing else of that Press changed; the sequencer
stream went on. -/
def Claims.PressQueued (s t : State) (op : Nat → PressOp) : Prop :=
  (OwnCores s → ∀ m ∈ s.pressMembers, t.pressOf m = { s.pressOf m with queue := (s.pressOf m).queue ++ [op m] }) ∧ (t.grp s.me).pc = s.after ∧
    WroteNone (own s) (t.grp s.me) ∧ MemoryKept s t ∧ (∀ g, g ≠ s.me → t.grp g = s.grp g) ∧ ∀ m, t.tm m = s.tm m

/-- A descriptor register with no bit set but those of an aligned offset, of which `size` bytes lie in the allocation (12 R296, R300). -/
def Claims.Descriptor (s : State) (v : Word) (al size : Nat) : Prop := v.toNat < 2 ^ 20 ∧ v.toNat % al = 0 ∧ v.toNat + size ≤ s.mySpad

/-- 12 R294, R300, R303, R304, R310, R311, R313: Press instructions of the sequencer stream whose checks hold enter every member's queue
with the moulds as the member holds them and the format block as the anchor holds it; `mwake` starts the wake of every gated
sub-array; `mstat` of members whose Presses are idle goes on, and of one member writes its counter, clearing it on demand. -/
def Obligations.PressIssue : Prop := ∀ (s : State) (k y x u l : BitVec 1) (c b a d : BitVec 6) (z : BitVec 3) (n : BitVec 4),
  let va := s.rs a
  let vb := s.rs b
  let vc := s.rs c
  let queues := fun i op => PressRoom s → Does i s fun t => PressQueued s t op
  let kk := va.toNat / 2 ^ 32
  let fa := s.fmtBlock (vc.toNat % 2 ^ 20)
  keyGrp s.me = 64 →
  (va.toNat / 2 ^ 20 % 2 ^ 12 = 0 → 1 ≤ kk → kk ≤ 4096 → Descriptor s (BitVec.ofNat 64 (va.toNat % 2 ^ 32)) 32 1 → Descriptor s vb 32 1 →
    Descriptor s vc 64 64 → s.mmaBad z.toNat (u = 1#1) va (va.toNat % 2 ^ 20) vb.toNat vc.toNat fa.1 fa.2 = none →
    queues (.mma k c b a y x u z) fun m =>
      .mma z.toNat (u = 1#1) (x = 1#1) (y = 1#1) (k = 1#1) (s.mouldAt m (va.toNat % 2 ^ 20)) (s.mouldAt m vb.toNat) kk fa.1 fa.2) ∧
  queues (.mzero z) (fun _ => .mzero z.toNat) ∧
  (Descriptor s va 32 1 → Descriptor s vc 64 64 → s.mdrainBad z.toNat va.toNat vc.toNat fa.1 fa.2 = none →
    queues (.mdrain c a l z) fun m => .mdrain z.toNat (l = 1#1) (s.mouldAt m va.toNat) fa.1 fa.2) ∧
  (va.toNat < 4 → queues (.mcheckMode a) fun _ => .mcheckMode (va.toNat % 2 = 1) (va.toNat / 2 = 1)) ∧
  (va.toNat < 2 ^ 18 → va.toNat % 16 < s.myMembers.length → vb.toNat < 2 ^ 32 → queues (.mcheckInject b a) fun m =>
    .mcheckInject (s.myMembers[va.toNat % 16]? = some m) (va.toNat / 16 % 4) (va.toNat / 64 % 64) (va.toNat / 4096) (BitVec.ofNat 32 vb.toNat)) ∧
  (Does .mwake s fun t => (t.grp s.me).pc = s.after ∧ WroteNone (own s) (t.grp s.me) ∧ MemoryKept s t ∧
    (OwnCores s → ∀ m ∈ s.pressMembers, (t.pressOf m).queue = (s.pressOf m).queue ∧ (t.pressOf m).z = (s.pressOf m).z ∧ ∀ q, q < 4 →
      let w := KMap.read ({} : SubArray) q (s.pressOf m).sub
      KMap.read ({} : SubArray) q (t.pressOf m).sub = { w with waking := w.waking || w.gated, idle := 0 })) ∧
  (va.toNat < 32 → (va.toNat < 16 → va.toNat < s.myMembers.length) → s.pressIdle (s.gCluster s.me) = true →
    Does (.mstat l n a d) s fun t => (∃ v, Went s t d v) ∧ MemoryKept s t) ∧
  (∀ m, va.toNat < 16 → s.myMembers[va.toNat]? = some m → (s.tm m).core.isSome → s.pressIdle (s.gCluster s.me) = true → n ≠ 7#4 →
    Does (.mstat l n a d) s fun t => Wrote (own s) (t.grp s.me) d (KMap.read 0 n.toNat (s.pressOf m).ctr) ∧ (t.grp s.me).pc = s.after ∧
      KMap.read 0 n.toNat (t.pressOf m).ctr = (if l = 1#1 then 0 else KMap.read 0 n.toNat (s.pressOf m).ctr) ∧
      (∀ j, j ≠ n.toNat → KMap.read 0 j (t.pressOf m).ctr = KMap.read 0 j (s.pressOf m).ctr) ∧ MemoryKept s t)

/-! ## Events of streams (02 R37, R38, 08 R202 to R206, R214, 04 R98, 09 R222, 03 R61, R64, 17 R414, R422, 19 R448) -/

/-- A stream took a trap in user mode: the bank with what it reports, the handler entered; the rest of the stream is as in `y`. -/
def Claims.Entered (s t : State) (g : Nat) (y : Group) (cause : Nat) (slot addr : Word) (mask : BitVec 16) (log : Option Nat) : Prop :=
  t.grp g = { y with
    kernel := true, laneStopped := true, pc := (s.gTeam g).hvec &&& ~~~ 3#64, stall := 13, lstall := 13, retired := log.isSome, handling := log
    entered := y.taken
    bank := { xpc := y.pc, xlpc := slot, xcause := BitVec.ofNat 32 cause, xaddr := addr, xmask := mask.setWidth 32
              xlog := match log with | some e => BitVec.ofNat 32 (16 + e) | none => 0
              xstatus := BitVec.ofNat 32 (65536 * y.pathMask.toNat + 256 * y.stack.length) } }

/-- It did, and nothing else changed. -/
def Claims.Enters (s t : State) (g : Nat) (y : Group) (cause : Nat) (slot addr : Word) (mask : BitVec 16) (log : Option Nat) : Prop :=
  OnlyStream g s t ∧ Entered s t g y cause slot addr mask log

/-- A stream runs in user mode, outside `try`. -/
def Claims.Running (x : Group) : Prop := x.kernel = false ∧ x.inTry = false ∧ x.halted = false ∧ x.out = false

/-- A stream's boundary takes traps: it runs in user mode, outside `try`, with no scalar access on its way (05 R112, 08 R201). -/
def Claims.Boundary (x : Group) : Prop := Running x ∧ x.inFlight false = false

/-- 02 R37, R38, 08 R202, R214, 17 R422, R414: the head clause starts at its first slot with the live lanes, but in a team that is being stopped; a long-latency result lands in its
scalar register and lowers its flag; a finished operand-log entry, of a copy that has been counted too, is freed and lowers its flag, and
so is a lane fence's whose conditions hold; answers of another device, or their lack, end the wait for them; a stream whose awaited room
or drain has come is ready again, and another is not; a signalled `waitph` completes with the phase that signalled it. -/
def Claims.StreamProgress : Prop := ∀ (s : State) (g e : Nat),
  let x := s.grp g
  (s.halting g = true → exec (.clauseStart g) s = .next s) ∧
  (∀ q rest, s.halting g = false → x.queue = q :: rest → x.run = none → x.laneStopped = false → x.halted = false → x.out = false →
    (∀ f, f < 12 → q.hdr.wait.getLsbD f → x.started f = 0) →
    Does (.clauseStart g) s fun t => OnlyStream g s t ∧ t.grp g = { x with
      queue := rest, run := some { entry := q, depth := x.stack.length }, path := some (pathAt q.addr x.live 1), lstall := 1 }) ∧
  (∀ p, x.pending[e]? = some p → Does (.longLatencyCompletion g e) s fun t => OnlyStream g s t ∧
    (t.grp g).pending = x.pending.eraseIdx e ∧ (∀ f, (t.grp g).flag f = x.flag f - if p.flag = some f then 1 else 0) ∧
    (∀ r v, p.dst = some (r, v) → r ≠ 0 → (t.grp g).sGet r = v ∧ (t.grp g).sBad r = false) ∧
    (∀ r, (∀ v, p.dst ≠ some (r, v)) → (t.grp g).sGet r = x.sGet r ∧ (t.grp g).sBad r = x.sBad r) ∧
    (t.grp g).v = x.v ∧ (t.grp g).k = x.k ∧ (t.grp g).pc = x.pc ∧ (t.grp g).path = x.path) ∧
  (∀ o, KMap.find e x.oplog = some o → o.kind ≠ .fence → o.copy = none → o.accs = [] → (∀ q ∈ x.storeq, q.log ≠ some e) →
    (∀ q ∈ x.faults, q.log ≠ some e) → Does (.accessCompletion g e) s fun t => OnlyStream g s t ∧ KMap.find e (t.grp g).oplog = none ∧
      (∀ j, j ≠ e → KMap.find j (t.grp g).oplog = KMap.find j x.oplog) ∧ (∀ f, (t.grp g).flag f = x.flag f - if o.flag = some f then 1 else 0) ∧
      WroteNone x (t.grp g) ∧ (t.grp g).v = x.v ∧ (t.grp g).pc = x.pc) ∧
  (∀ o, KMap.find e x.oplog = some o → o.kind = .fence → s.fenceOk g o.op = true → Does (.accessCompletion g e) s fun t =>
    KMap.find e (t.grp g).oplog = none ∧ (∀ f, (t.grp g).flag f = x.flag f - if o.flag = some f then 1 else 0) ∧ WroteNone x (t.grp g) ∧
      (t.grp g).v = x.v ∧ MemoryKept s t ∧ ∀ h, h ≠ g → t.grp h = s.grp h) ∧
  (∀ o, KMap.rising x.oplog = true → KMap.find e x.oplog = some o → o.kind ≠ .fence → o.waitsRemote = true → ∀ i ∈ [Instr.accessCompletion g e, .remoteTimeout g e],
    Does i s fun t => ∀ o', KMap.find e (t.grp g).oplog = some o' → o'.waitsRemote = false) ∧
  (∀ o c, (x.oplog.find? fun r => match r.2.copy with | some c' => c'.id = c.id | none => false) = some (e, o) → KMap.find e x.oplog = some o →
    o.copy = some c → o.kind ≠ .fence → o.accs = [] → (∀ q ∈ x.faults, q.log ≠ some e) → (∀ k ∈ s.cores, k.2.copyBusy c.id = false) →
    (∀ l ∈ s.casts, l.id ≠ c.id) → Does (.accessCompletion g e) s fun t => OnlyStream g s t ∧ KMap.find e (t.grp g).oplog = none ∧
      (∀ f, (t.grp g).flag f = x.flag f - if o.flag = some f then 1 else 0) ∧ WroteNone x (t.grp g) ∧ (t.grp g).v = x.v ∧ (t.grp g).pc = x.pc) ∧
  ((KMap.find g s.groups).isSome → Does (.engineStallRelease g) s fun t => OnlyStream g s t ∧ t.grp g = { x with
    stall := if s.awaitedHolds g x.stall false then 1 else x.stall, lstall := if s.awaitedHolds g x.lstall true then 1 else x.lstall }) ∧
  (x.freeLog.isSome → ∀ b, s.awaitedHolds g 9 b = true) ∧ (x.freeLog = none → ∀ b, s.awaitedHolds g 9 b = false) ∧
  (∀ r p a d w tm o, let s' : State := { s with cur := .scalar g }
    s.fetchScalar g = .instr (.waitph r p a d) → x.wait = some w → w.signalled = true → x.halted = false → x.out = false →
    AtObject s' a tm o → w.team = tm → w.obj = o → w.t = decide (p = 1#1) →
    Does (.waitphWake g) s fun t => t.cur = s.cur ∧ Wrote x (t.grp g) d (w.phase.setWidth 64) ∧ (t.grp g).pc = x.pc + 4 ∧ (t.grp g).wait = none ∧
      MemoryKept s t ∧ (∀ u, t.tm u = s.tm u) ∧ ∀ h, h ≠ g → t.grp h = s.grp h)

/-- 08 R201, R203, 04 R98, 03 R61, R64, 19 R448: faults and timers of a stream in user mode outside `try`: a load's fault found after issue
is precise; a logged store fault, behind no such fault, is imprecise and stays held; a timer's trap takes the event; undecodable code and a
failed fetch trap at their address (of a slot of another device's page its answers are drawn too); a remote scalar access without an answer traps with REMOTE. Inside `try` a timer aborts, and so does the end of
the grace under pre-emption. -/
def Obligations.StreamFaults : Prop := ∀ (s : State) (g e : Nat),
  let x := s.grp g
  (Boundary x → ∀ o c m va, KMap.find e x.oplog = some o → o.fault = some (c, m, va) → o.lane = true → o.precise = true →
    x.handling ≠ some e → (∀ q ∈ x.faults, q.log ≠ some e) →
    Does (.postissueLoadFault g e) s fun t => Enters s t g x (c.code + 0x100) o.slot va m (some e)) ∧
  (Boundary x → x.dueLoadFault = none → ∀ o rest c m va, x.faults = o :: rest → o.fault = some (c, m, va) → o.orig = none →
    Does (.impreciseStoreFault g) s fun t =>
      Enters s t g x (c.code + 0x200 + if o.lane then 0x100 else 0) (if o.lane then o.slot else 0) va m o.log) ∧
  (Boundary x → x.dueLoadFault = none → x.timerDue = true → x.faults = [] →
    Does (.timerEvent g) s fun t => Enters s t g { x with timerDue := false } 0x0D 0 0 0 none) ∧
  (Running x → (s.gTeam g).res ≠ .stopping → x.faults = [] → ∀ o a, KMap.find e x.oplog = some o → o.lane = false → o.kind = .load ∨ o.kind = .atomic →
    o.fault = none → o.reissued = false → o.accs = [a] → a.sent = true →
    Does (.remoteTimeout g e) s fun t =>
      Enters s t g { x with oplog := KMap.put e { o with accs := [{ a with sent := false, fwd := [] }], fault := some (.remote, 0, a.va), log := some e } x.oplog }
        0x11 0 a.va 0 (some e)) ∧
  (g = s.me → Boundary x →
    Does (.unassignedEncoding false false) s (fun t => Enters s t g x 0x01 0 0 0 none) ∧
    (∀ q, x.path = some q →
      (∀ bs, s.fetchBytes g q.lpc.toNat 12 = .ok (bs, false) →
        let k := x.kGet (natOfBytes bs / 2 ^ 11 % 8)
        Does (.unassignedEncoding true false) s fun t => (s.codeFar g q.lpc.toNat 12 = false → OnlyStream g s t) ∧
          Entered s t g x 0x101 q.lpc 0 (x.live &&& q.mask &&& if natOfBytes bs / 2 ^ 14 % 2 = 1 then ~~~ k else k) none) ∧
      ∀ c a, (c = 5 ∨ c = 6 ∨ c = 7 ∨ c = 8 ∨ c = 9) →
        Does (.fetchFault true c a) s fun t => Enters s t g x (c + 0x100) q.lpc a (x.live &&& q.mask) none) ∧
    ∀ c a, (c = 5 ∨ c = 6 ∨ c = 7 ∨ c = 8 ∨ c = 9) → Does (.fetchFault false c a) s fun t => Enters s t g x c 0 a 0 none) ∧
  (∀ y, x.tr = some y →
    let gone := fun (t : State) code => OnlyStream g s t ∧ (t.grp g).tr = none ∧ (t.grp g).pc = y.landing ∧ (t.grp g).k = y.savedK ∧
      (t.grp g).live = y.savedLive ∧ (t.grp g).tryabort = BitVec.ofNat 32 (65536 * y.savedLive.toNat + code)
    (x.takesFaults = true → x.dueLoadFault = none → x.timerDue = true → x.faults = [] →
      Does (.timerEvent g) s fun t => gone t 9 ∧ (t.grp g).timerDue = false) ∧
    (∀ n, x.grace = some n → (s.gTeam g).trygrace.toNat ≤ n → Does (.trygraceExpiry g) s fun t => gone t 5 ∧ (t.grp g).out = true))

/-- 09 R222, R223: a line of a resident stream's image that is not in the core's cache is fetched: exactly the slots of sectors that no
copy holds clean become poisoned; no register's bits change, and of another stream at most the error marks of a control line that makes room.
Of a control region's line such a sector ends the stream. A line that the stream's image does not have is not fetched. -/
def Claims.RegisterLines : Prop := ∀ (s : State) (g line copies k : Nat),
  let x := s.grp g
  let bad := fun h => copies.testBit h || s.imageBad (keyTeam g) (streamImage (keyGrp g) + 64 * line + 32 * h)
  (KMap.find g s.groups).isSome → (s.gTeam g).core = some k → x.out = false → (KMap.find (65536 * g + line) (s.coreAt k).lines).isNone →
  (s.hasLine g line = false → Does (.registerLineFill g line copies) s fun t => t = s) ∧
  (s.hasLine g line = true →
  (line < 264 ∨ (bad 0 = false ∧ bad 1 = false) → Does (.registerLineFill g line copies) s fun t =>
    (t.grp g).v = x.v ∧ (t.grp g).s = x.s ∧ (t.grp g).pc = x.pc ∧
    (∀ l r, l < 16 → (t.grp g).vBad l r = (x.vBad l r || (decide (line = r) && decide (r < 256) && bad (l / 8)))) ∧
    (∀ r, r < 64 → (t.grp g).sBad r = (x.sBad r || (decide (r ≠ 0) && decide (line = 256 + r / 8) && bad (r % 8 / 4)))) ∧
    (KMap.find (65536 * g + line) (t.coreAt k).lines).isSome ∧ t.teams = s.teams ∧
    ((s.coreAt k).lines.length < 32768 → ∀ h, h ≠ g → t.grp h = s.grp h) ∧ ∀ h, h ≠ g → t.grp h = { s.grp h with lineBad := (t.grp h).lineBad }) ∧
  (264 ≤ line → bad 0 = true ∨ bad 1 = true → Does (.registerLineFill g line copies) s fun t => (KMap.find g t.groups).isNone))

/-- 02 R37, R38, 08 R202, 09 R222, R223, 17 R414, R422: the events by which a stream goes on, and the fills of its register lines. -/
def Obligations.StreamProgressEvents : Prop := Claims.StreamProgress ∧ Claims.RegisterLines

/-- 10 R245, 08 R203, R206: the oldest queued store of a group is performed: exactly its bytes, at the address that translation gives,
change, and its entry is freed; a store whose translation faults writes nothing and is held; a queued store or reduction of any lanes whose
homes serve it leaves the queue. A load that is held with a fault keeps none of them back (05 R112). An exited group's faulting store traps the
team's lowest live group, naming the group it came from. -/
def Obligations.StoresPerformed : Prop := ∀ (s : State) (g n : Nat) (o : MemOp) (os : List MemOp) (a : LaneAcc),
  let x := s.grp g
  (x.storeq = o :: os → x.faults = [] → (KMap.find g s.groups).isSome → o.kind = .store → o.accs = [a] → a.sent = false → o.size = n → n ∣ 16 →
    (∀ q ∈ x.oplog, q.2.precise = true → q.2.copy = none → q.2.waitsRemote = false) → s.busyUnit g o = none → s.proxyHolds o.order = false →
    (o.order / 2 % 2 = 0 ∨ (x.storesOut true = false ∧ x.storesOut false = false)) →
    (∀ y, s.xlate (s.whoIs g o.kernel) a.va.toNat .write = .ok y → y.remote = false → y.leaf.host = false →
      y.pa % n = 0 → s.mirrored (y.pa / 0x20_0000) = false → Does (.storePerformed g) s fun t =>
        (∀ i, t.byteAt i = (if y.pa ≤ i ∧ i < y.pa + n then BitVec.ofNat 8 (a.data / 2 ^ (8 * (i - y.pa))) else s.byteAt i) ∧
          (s.beneath = [] → t.badAt i = s.badAt i)) ∧
        (t.grp g).storeq = os ∧ (∀ j, o.log = some j → KMap.find j (t.grp g).oplog = none) ∧ (∀ h, h ≠ g → t.grp h = s.grp h)) ∧
    (∀ c j, s.xlate (s.whoIs g o.kernel) a.va.toNat .write = .error c → o.log = some j → Does (.storePerformed g) s fun t =>
      OnlyStream g s t ∧ (t.grp g).storeq = os ∧ ∃ q, (t.grp g).faults = [q] ∧ q.log = some j ∧ q.accs = [a] ∧ ∃ m, q.fault = some (c, m, a.va))) ∧
  (x.storeq = o :: os → x.faults = [] → (KMap.find g s.groups).isSome → o.kind = .store ∨ o.kind = .reduce → o.log.isSome →
    (∀ q ∈ x.oplog, q.2.precise = true → q.2.copy = none → q.2.waitsRemote = false) → s.busyUnit g o = none → s.proxyHolds o.order = false →
    (o.order / 2 % 2 = 0 ∨ (x.storesOut true = false ∧ x.storesOut false = false)) →
    Does (.storePerformed g) s fun t => (t.grp g).storeq = os ∧ (t.grp g).v = x.v ∧ WroteNone x (t.grp g) ∧ (t.grp g).pc = x.pc ∧
      ∀ h, h ≠ g → t.grp h = s.grp h) ∧
  (∀ r h j c m va, KMap.find g s.residuals = some r → r.storeq = o :: os → os ≠ [] → o.fault = some (c, m, va) → o.orig = none →
    (s.teamGroups r.team).find? (fun h => !(s.grp h).halted) = some h → Boundary (s.grp h) → (s.grp h).faults = [] →
    (s.grp h).dueLoadFault = none → (s.grp h).freeLog = some j →
    Does (.postExitStoreFault g) s fun t => KMap.find g t.residuals = some { r with storeq := os } ∧
      (t.grp h).kernel = true ∧ (t.grp h).pc = (s.gTeam h).hvec &&& ~~~ 3#64 ∧ (t.grp h).bank.xaddr = va ∧ (t.grp h).bank.xpc = (s.grp h).pc ∧
      (t.grp h).bank.xcause = BitVec.ofNat 32 (c.code + (if o.lane then 0x100 else 0) + 0x600 + 65536 * r.grp) ∧
      (t.grp h).bank.xlog = BitVec.ofNat 32 (16 + j) ∧ MemoryKept s t ∧ ∀ i, i ≠ h → t.grp i = s.grp i)

/-! ## Spawning, switching and placement (02 R45, R46, 08 R214 to R216, 14 R340, R350 to R353, 15 R379) -/

/-- 02 R45, R46: an aged or full bin launches a group with its threads; when every group of a team waits on `vspawn`, the oldest traps with the
lanes not placed. -/
def Claims.SpawnEvents : Prop := ∀ (s : State) (tm i n g : Nat) (b : SpawnBin),
  let x := s.grp g
  (KMap.find i (s.tm tm).bins = some b → b.threads ≠ [] → b.threads.length ≤ 16 → b.threads.length = 16 ∨ max 1 (s.tm tm).spawntmr.toNat ≤ b.age → (s.tm tm).res = .resident →
    s.freeGroup tm = some n → Does (.spawnTimerExpiry tm i) s fun t =>
      let y := t.grp (streamKey tm n)
      KMap.find i (t.tm tm).bins = none ∧ y.pc = b.entry ∧ y.live = BitVec.ofNat 16 (2 ^ b.threads.length - 1) ∧ y.sGet 1 = (s.tm tm).arg ∧
      (∀ l th, b.threads[l]? = some th → ∀ j w, th[j]? = some w → y.vRaw l j = w) ∧ (∀ a, t.byteAt a = s.byteAt a) ∧
      ∀ h, h ≠ streamKey tm n → t.grp h = s.grp h) ∧
  (g ∈ s.teamGroups tm → (∀ h ∈ s.teamGroups tm, (s.grp h).lstall = 10 ∧ (s.grp h).laneStopped = false ∧ (h ≠ g → x.born < (s.grp h).born)) →
    Boundary x → ∀ f q m, x.path = some q → s.fetchLane g q.lpc = .instr (.vspawn f) → x.spawned = some (q.lpc, m) →
    Does (.spawnDeadlock tm) s fun t => Enters s t g x 0x10C q.lpc 0 (x.active f &&& ~~~ m) none)

/-- 08 R214, R215, 14 R353, 13 R334: pre-emption stops a resident cluster and each of its streams, but for one in `try`, which has its grace, and
one with a scalar access on its way; a notice in a member's kick register leaves it; a stopped team's save frees its core and, as the
last, queues the cluster for relaunch; an eligible cluster is evicted, at once when all of it has landed, and one that is not stays. -/
def Obligations.SwitchingOut : Prop := ∀ (s : State) (c p tm k : Nat),
  let x := s.cl c
  let quiet := fun (d : Nat) => (s.clusterStreams d).Nodup ∧ ∀ g ∈ s.clusterStreams d, (s.grp g).inTry = false ∧ (s.grp g).inFlight false = false ∧
    (s.grp g).dueLoadFault = none ∧ (s.grp g).timerDue = false ∧ (s.grp g).faults = [] ∧ (KMap.find g s.groups).isSome
  let landed := fun (m : Nat) => ((s.teamStreams m).all fun g => (s.grp g).stopped.landed) && !s.ladleUses m && s.pressDone m
  let noNotice := fun (d : Nat) => ∀ m ∈ s.coreMembers d, ∀ j, (s.tm m).core = some j → (s.coreAt j).kick = none
  ((KMap.find c s.clusters).isSome → x.part = p → x.res = .resident → noNotice c → Does (.ppreemptCluster p c) s fun t =>
    (t.cl c) = { x with res := .stopping } ∧
      (quiet c → ∀ g, t.grp g = if g ∈ s.clusterStreams c then (s.grp g).stopped else s.grp g) ∧
      (∀ g ∈ s.clusterStreams c, (KMap.find g s.groups).isSome → if (s.grp g).inTry then (t.grp g).grace = some 0 ∧ (t.grp g).out = (s.grp g).out
        else (t.grp g).out = ((s.grp g).out || !(s.grp g).inFlight false)) ∧
      (∀ g, ¬ g ∈ s.clusterStreams c → t.grp g = s.grp g) ∧
      (∀ m ∈ x.members, (s.tm m).res ≠ .ended → (t.tm m).res = .stopping) ∧ MemoryKept s t ∧ ∀ d, d ≠ c → t.cl d = s.cl d) ∧
  ((KMap.find c s.clusters).isSome → x.part = p → x.res = .resident → Does (.ppreemptCluster p c) s fun t =>
    ∀ m ∈ s.coreMembers c, ∀ j, (s.tm m).core = some j → (t.coreAt j).kick = none) ∧
  (KMap.rising s.clusters = true → (∀ d ∈ s.clusters, noNotice d.1) → Does (.ppreemptAll p) s fun t =>
    ∀ d ∈ s.clusters, t.cl d.1 = if d.2.part = p ∧ d.2.res = .resident then { d.2 with res := .stopping } else d.2) ∧
  (let y := s.tm tm
   y.cluster = c → x.res = .stopping → tm ∈ x.members → s.saveReady tm = true → y.core = some k → (s.coreAt k).kick = none →
   (∀ m ∈ x.members, m ≠ tm → (s.tm m).core = none) → Does (.preemptSaveComplete tm) s fun t =>
     (t.tm tm).res = (if y.res = .ended then .ended else .preempted) ∧ (t.tm tm).core = none ∧ (t.coreAt k).team = none ∧ (t.cl c).res = .preempted ∧
       (t.partAt x.part).relaunchq = (s.partAt x.part).relaunchq ++ [c] ∧ ∀ m, m ≠ tm → t.tm m = s.tm m) ∧
  (let y := s.tm tm
   y.cluster = c → x.res = .stopping ∨ x.res = .saving → tm ∈ x.members → s.saveReady tm = true → y.core = some k → Does (.preemptSaveComplete tm) s fun t =>
     (t.tm tm).core = none ∧ (t.coreAt k).team = none ∧
       (t.tm tm).res = if y.res = .ended then .ended else if x.res = .stopping then .preempted else .evicted) ∧
  ((KMap.find c s.clusters).isSome → s.evictable c = true → Does (.waitEviction c) s fun t =>
    ((t.cl c).res = .saving ∨ (t.cl c).res = .evicted) ∧ ∀ g ∈ s.clusterStreams c, (t.grp g).out = true) ∧
  ((KMap.find c s.clusters).isSome → s.evictable c = true → x.members.Nodup → (s.clusterStreams c).Nodup → noNotice c →
    ((∀ m ∈ s.coreMembers c, landed m = true) → (∀ g ∈ s.clusterStreams c, ∀ w, (s.grp g).wait = some w → w.signalled = false) →
      Does (.waitEviction c) s fun t =>
        (t.cl c) = { x with res := .evicted } ∧ (∀ g ∈ s.clusterStreams c, (t.grp g).out = true) ∧
          ∀ m ∈ s.coreMembers c, (t.tm m).core = none ∧ (t.tm m).res = if (s.tm m).res = .ended then .ended else .evicted) ∧
    (s.coreMembers c ≠ [] → (∀ m ∈ s.coreMembers c, landed m = false) → Does (.waitEviction c) s fun t =>
        (t.cl c) = { x with res := .saving } ∧ (∀ g ∈ s.clusterStreams c, (t.grp g).out = true) ∧ ∀ m, (t.tm m).core = (s.tm m).core)) ∧
  (s.evictable c = false → Does (.waitEviction c) s fun t => t = s)

/-- 14 R341, R350, R351, 08 R216, 14 R352, R340, 15 R379: the next cluster of a task of one core and one cluster is placed on the first
free rectangle with its launch values, and no memory but its image and the task's entry changes; of one of any shape every core of its rectangle takes a team; a
queued cluster of one member, its stores drained, comes back on a free core, and one of any shape leaves the queue; the head candidate that has waited
longer than AGE has a rectangle reserved; a held core-map change takes effect on a free core; a failed core is no core any more. -/
def Claims.Placing : Prop := ∀ (s : State) (p k m c : Nat) (d : Cand) (r : Rect),
  (s.candidates p = [d] → d.relaunch = false → s.failed = false → r.cores = [k] →
    let rec' := (s.taskAt p d.idx).record
    let u := s.taskAt p d.idx
    u.placeable = true → u.placed = 0 → recGrid rec' = 1 → recField rec' 6 1 = 0x11 → s.findRect p d 1 1 = some r → s.freeImages p 1 ≠ [] →
    recField rec' 2 1 ≤ 64 → (∀ g ∈ KMap.keys s.groups, keyGrp g ≤ 64) → (s.partAt p).pctxbase.toNat % 0x40_0000 = 0 → recField rec' 0x40 4 < 2 ^ 31 → recField rec' 0x44 4 < 2 ^ 31 →
    Does (.placementPass p) s fun t => ∃ tm cl,
      (t.coreAt k).team = some tm ∧ (t.tm tm).core = some k ∧ (t.tm tm).cluster = cl ∧ (t.cl cl).members = [tm] ∧ (t.cl cl).res = .resident ∧
      (t.tm tm).vregs = 8 * recField rec' 3 1 ∧ (t.tm tm).spad = 4096 * recField rec' 4 2 ∧ (t.tm tm).hvec = (s.partAt p).phvec ∧
      (∀ g, g < recField rec' 2 1 → let y := t.grp (streamKey tm g)
        y.pc = BitVec.ofNat 64 (recField rec' 8 8) ∧ y.live = 0xFFFF ∧ y.kernel = false ∧ y.sGet 1 = BitVec.ofNat 64 (recField rec' 0x18 8)) ∧
      (t.taskAt p d.idx).state = .running ∧ (t.taskAt p d.idx).placed = 1 ∧
      ((s.partAt p).ptaskbase.toNat % 0x20_0000 = 0 → let e := s.taskAddr p d.idx
        ∀ a, t.inImage tm a = none → (a < e ∨ e + 256 ≤ a) → (s.mirrored (e / 0x20_0000) = true → a < mirrorOf e ∨ mirrorOf e + 256 ≤ a) → t.byteAt a = s.byteAt a)) ∧
  ((s.candidates p).head? = some d → d.relaunch = true → d.idx = c → (s.cl c).part = p → s.failed = false → (s.partAt p).relaunchq.contains c = true →
    (s.cl c).res = .preempted ∨ (s.cl c).res = .evicted → (s.cl c).members = [m] → (s.tm m).isOut = true → (s.tm m).held = [] → (s.tm m).broken = false →
    s.imageLost m (fun g => (KMap.find (streamKey m g) s.groups).isSome) = false → s.storesDrained c = true → s.turner.lost = [] →
    (s.partAt (s.tm m).part).pctxbase.toNat % 0x40_0000 = 0 → s.findRect p d (s.cl c).w (s.cl c).h = some r → r.cores = [k] → Does (.relaunch c) s fun t =>
      (t.cl c).res = .resident ∧ (t.tm m).core = some k ∧ (t.tm m).res = .resident ∧ (t.coreAt k).team = some m ∧ ¬ c ∈ (t.partAt p).relaunchq ∧
        (∀ g ∈ s.teamStreams m, (t.grp g).out = false ∧ (t.grp g).pc = (s.grp g).pc) ∧
        ∀ a, s.inImage m a = none → t.byteAt a = s.byteAt a) ∧
  ((s.candidates p).head? = some d → d.relaunch = false → s.failed = false → (s.partAt p).relaunchq = [] →
    let u := s.taskAt p d.idx
    let w := recField u.record 6 1 % 16
    let h := recField u.record 6 1 / 16
    u.placeable = true → s.findRect p d w h = some r → (s.freeImages p (w * h)).length = w * h → s.launchTokens u = .ok →
    Does (.placementPass p) s fun t => ∀ j ∈ r.cores, (t.coreAt j).team.isSome) ∧
  ((s.candidates p).head? = some d → d.relaunch = true → d.idx = c → (s.cl c).part = p → s.failed = false → (s.partAt p).relaunchq.contains c = true →
    (s.cl c).res = .preempted ∨ (s.cl c).res = .evicted → s.storesDrained c = true → s.findRect p d (s.cl c).w (s.cl c).h = some r →
    Does (.relaunch c) s fun t => (¬ c ∈ (t.partAt p).relaunchq) ∧ (t.cl c).res ≠ .preempted ∧ (t.cl c).res ≠ .evicted) ∧
  ((s.candidates p).head? = some d → (s.partAt p).reserve = none → (s.partAt p).presage ≠ 0 →
    1000 * (s.partAt p).presage.toNat < s.now - d.since → s.chooseReserve p (s.shapeOf p d).1 (s.shapeOf p d).2 = some r →
    Does (.reservation p) s fun t => ∃ w : Reserve, (t.partAt p).reserve = some w ∧ w.cores = r.cores ∧ w.isFor d = true ∧
      ((∀ j ∈ r.cores, (s.coreAt j).team = none) → t = { s with parts := t.parts } ∧ t.partAt p = { s.partAt p with reserve := some w })) ∧
  (∀ v q, (s.coreAt k).heldMap = some (v, q) → (s.coreAt k).team = none → Does (.coreMapChange k) s fun t =>
    (t.coreAt k).mapV = v ∧ (t.coreAt k).mapPart = q ∧ (t.coreAt k).heldMap = none ∧ ∀ j, j ≠ k → t.coreAt j = s.coreAt j) ∧
  (∀ y, KMap.find k s.cores = some y → Does (.coreFailure k) s fun t => KMap.find k t.cores = none ∧
    (y.team = none → t.caps.capgen = s.caps.capgen + 2) ∧ ∀ tm, y.team = some tm → (t.cl (s.tm tm).cluster).res = .ended)

/-- 02 R45, R46, 14 R340, R350 to R352, 08 R216, 15 R379: launches from bins, placement, relaunch, reservation, and the cores of a partition. -/
def Obligations.SpawningAndPlacing : Prop := Claims.SpawnEvents ∧ Claims.Placing

/-! ## Queues, registers and the memory system (14 R339 to R341, 09 R232, R233, R235, 16 R392 to R401, 10 R255, 00 R4) -/

/-- 14 R339, R341, 00 R4, 15 R358, 09 R233: a doorbell in range sets TAIL, one out of range BADCFG; enabling a queue resets HEAD, and a
change of its size while enabled is refused; the fault queue likewise; a record of the queue whose turn it is is taken as a READY task, and one that cannot be read disables the queue with READERR; a write of a whole register of
window A reaches it under its access code, and not another partition's; a held L2 mode takes effect where every partition is at a boundary. -/
def Claims.QueuesAndWrites : Prop := ∀ (s : State) (q p i f : Nat) (v : BitVec 32) (w : Word) (r : List Byte),
  let x := s.queueAt q
  let queueIs := fun (t : State) y => t = { s with queues := t.queues } ∧ t.queueAt q = y ∧ ∀ j, j ≠ q → t.queueAt j = s.queueAt j
  let partIs := fun (t : State) y => t = { s with parts := t.parts } ∧ t.partAt p = y ∧ ∀ j, j ≠ p → t.partAt j = s.partAt j
  let tail := v.toNat % 2 ^ 12
  let size := v.toNat / 2 ^ 12 % 2 ^ 4
  Does (.qtailDoorbell q v) s (fun t => queueIs t (if tail < 2 ^ x.log2.toNat then { x with tail := BitVec.ofNat 12 tail } else { x with bad := true })) ∧
  (x.en = false → 2 ^ 31 ≤ v.toNat → 1 ≤ size → size ≤ 12 → Does (.qctlWrite q v) s fun t =>
    queueIs t { x with en := true, log2 := BitVec.ofNat 4 size, priocap := BitVec.ofNat 3 v.toNat, head := 0 }) ∧
  (x.en = true → size ≠ x.log2.toNat → Does (.qctlWrite q v) s fun t => queueIs t { x with bad := true }) ∧
  (let y := s.partAt p
   let log2 := v.toNat / 2 ^ 16 % 2 ^ 4
   (y.pfqen = false → 2 ^ 31 ≤ v.toNat → 4 ≤ log2 → v.toNat % 2 ^ 16 < 2 ^ log2 → Does (.pfqctlWrite p v) s fun t => partIs t
      { y with pfqen := true, pfqlog2 := BitVec.ofNat 4 log2, pfqhead := BitVec.ofNat 16 v.toNat, pfqtail := BitVec.ofNat 16 v.toNat }) ∧
   (y.pfqen = true → log2 ≠ y.pfqlog2.toNat → Does (.pfqctlWrite p v) s fun t => partIs t { y with pfqbad := true })) ∧
  (s.failed = false → x.part.toNat = p → (s.partAt p).resetting = false → x.en = true → x.assignV = true → x.head ≠ x.tail → s.queueDue p = some q →
    s.readRecord x = some (r, false) → KMap.freeFrom (s.partAt p).tasks 0 (s.partAt p).ptaskn.toNat = some i → recBad r = none →
    (recField r 7 1 / 2 % 2 = 0 ∨ x.last = none) →
    (x.loc = true ∨ s.rangeBusy (hostWho 0 p) (x.base.toNat + 128 * x.head.toNat) 128 .read = false) →
    Does (.queueRecordTake q) s fun t => (x.loc = true → t = { s with queues := t.queues, parts := t.parts, free := t.free, mem := t.mem, poison := t.poison, check := t.check } ∧ MemoryOutside s t p i) ∧
      t.queueAt q = { x with head := BitVec.ofNat 12 ((x.head.toNat + 1) % 2 ^ x.log2.toNat), last := some i } ∧
      t.taskAt p i = { record := r, submitter := hostHolder 0 p, queue := some q, prio := min (recField r 1 1 % 8) x.priocap.toNat, state := .ready,
                       since := s.now } ∧ ∀ j, j ≠ i → t.taskAt p j = s.taskAt p j) ∧
  (s.failed = false → x.part.toNat = p → (s.partAt p).resetting = false → x.en = true → x.assignV = true → x.head ≠ x.tail → s.queueDue p = some q →
    s.readRecord x = none → Does (.queueRecordTake q) s fun t => t = { s with queues := t.queues, free := t.free } ∧
      t.queueAt q = { x with readerr := true, en := false } ∧ ∀ j, j ≠ q → t.queueAt j = s.queueAt j) ∧
  (s.stage ≠ 0 → p < 8 →
    (∀ a ∈ (s.partAt p).regs, ∀ g ∈ [0, p + 1], Does (.registerWrite g (0x20000 + 0x1000 * p + a.1) a.2.1 w) s fun t =>
      partIs t ((s.partAt p).write a.1 (w.toNat % 2 ^ (8 * a.2.1)))) ∧
    (∀ a ∈ s.devRegs, Does (.registerWrite 0 a.1 a.2.1 w) s fun t => t = s.writeDev a.1 (w.toNat % 2 ^ (8 * a.2.1))) ∧
    (∀ a ∈ x.regs, q < 8192 → ∀ g, g = 0 ∨ (x.assignV = true ∧ g = x.part.toNat + 1) →
      Does (.registerWrite g (0x100000 + 0x20 * q + a.1) a.2.1 w) s fun t => queueIs t (x.write a.1 (w.toNat % 2 ^ (8 * a.2.1)))) ∧
    (∀ g ∈ [0, p + 1], Does (.registerWrite g (0x20010 + 0x1000 * p) 8 w) s fun t => partIs t { s.partAt p with phvec := w &&& ~~~ 3#64 }) ∧
    (f ≠ 0 → f ≠ p + 1 → Does (.registerWrite f (0x20010 + 0x1000 * p) 8 w) s fun t => t = s) ∧
    Does (.registerWrite 0 0x200 8 w) s (fun t => t = if s.anyResident then s else { s with tokbase := w &&& ~~~ 0x1FFFFF#64 }) ∧
    Does (.registerWrite 0 0x100 4 w) s fun t => t = { s with heldL2 := some (w.getLsbD 0) }) ∧
  (∀ b, s.heldL2 = some b → s.beneath = [] → (∀ k, k < 8 → s.atContextBoundary k = true ∧ (s.partAt k).heldWays = none) →
    Does .l2ModeChange s fun t => t = { s with l2priv := b, heldL2 := none, l2 := [] })

/-- 00 R4, R5, 14 R338, R340, 01 R13: a read of window A changes nothing but the answers and gives what its bytes hold, the first lowest;
before start stage 1 the port answers none. A partition's function reads zero beyond its own registers and its queues, a register that is
only written (TRNCMD, FRMREL, PPRCMD, RSTCTL, PGCMD, PPREEMPT) and the core map's byte of a hole read zero, and a register reads the value
that it holds. -/
def Claims.RegisterReads : Prop := ∀ (s : State) (f o n p q k : Nat) (ts : List Turn),
  let piece := fun (v : Nat) => BitVec.ofNat 8 (v / 2 ^ (8 * k))
  let u := { s with agenda := ts }
  (s.agenda = .regRead f o n :: ts → step s = .next { u with
    answers := (if s.stage = 0 then .unsupported else .data n (natOfBytes ((List.range n).map fun i => u.regByte f (o + i))) false) :: s.answers }) ∧
  (f ≠ 0 → o < 0x20000 ∨ 0x28000 ≤ o ∧ o < 0x100000 ∨ 0x140000 ≤ o → s.regByte f o = 0) ∧
  (f ≠ 0 → f ≠ p + 1 → p < 8 → o < 0x1000 → s.regByte f (0x20000 + 0x1000 * p + o) = 0) ∧
  (f ≠ 0 → q < 8192 → o < 0x20 → (s.queueAt q).assignV = false ∨ f ≠ (s.queueAt q).part.toNat + 1 → s.regByte f (0x100000 + 0x20 * q + o) = 0) ∧
  (∀ w ∈ [0x300, 0x310, 0x360, 0x600, 0x700], k < 8 → s.regByte 0 (w + k) = 0) ∧
  (p < 8 → k < 4 → s.regByte 0 (0x20058 + 0x1000 * p + k) = 0) ∧
  (k < 384 → KMap.find k s.cores = none → s.regByte 0 (0xD000 + k) = 0) ∧
  (p < 8 → k < 8 → ∀ g ∈ [0, p + 1], s.regByte g (0x20010 + 0x1000 * p + k) = piece (s.partAt p).phvec.toNat) ∧
  (q < 8192 → k < 4 → s.regByte 0 (0x10000C + 0x20 * q + k) = piece (s.queueAt q).head.toNat) ∧
  (k < 8 → s.regByte 0 (0x200 + k) = piece s.tokbase.toNat ∧ s.regByte 0 (0x8008 + k) = piece (2 ^ 21 * s.caps.visframes))

/-- 14 R339, R341, 00 R4, R5: doorbells, queue control, writes and reads of registers, records and the L2 mode. -/
def Obligations.QueuesAndRegisters : Prop := Claims.QueuesAndWrites ∧ Claims.RegisterReads

/-- 09 R232, R235 to R237, 16 R401, R395, 10 R255: a fill ends the wait for its line; an uncorrectable error poisons exactly its sector of
DRAM, of a scratchpad or of a register line, and drops a clean cached copy; a repair starts when one is left and ends as done; a released
frame counts no more; operations that wait where their line is not go to its home. -/
def Obligations.MemoryEvents : Prop := ∀ (s : State) (k tm c line u : Nat) (w : Word) (v : BitVec 32) (o : RnOp),
  (Does (.l2Fill line) s fun t => t = { s with l2 := t.l2 } ∧ (∀ j, j ≠ line → t.l2Line j = s.l2Line j) ∧
    ∀ y, s.l2Line line = some y → t.l2Line line = some { y with valid := y.valid ||| y.fetching, fetching := 0, waiters := 0 }) ∧
  (let home := s.firstCopy k
   let held := match s.l2Line (home / 4) with | some y => y.valid.getLsbD (home % 4) && (y.dirty.getLsbD (home % 4) || decide (home = k)) | none => false
   Does (.uncorrectableError 0 u k) s fun t => t.groups = s.groups ∧
     (∀ a, t.byteAt a = s.byteAt a ∧ t.badAt a = (s.badAt a || (decide (a / 32 = k) && !held))) ∧
     ∀ y, home = k → s.l2Line (k / 4) = some y → y.valid.getLsbD (k % 4) = true → y.dirty.getLsbD (k % 4) = false → KMap.find k t.beneath = some true) ∧
  ((s.coreAt c).team = some tm → 32 * k < (s.tm tm).spad → Does (.uncorrectableError 1 c k) s fun t => MemoryKept s t ∧
    (t.tm tm).mem = (s.tm tm).mem ∧ (∀ a, (t.tm tm).badAt a = ((s.tm tm).badAt a || decide (a / 32 = k))) ∧ ∀ j, j ≠ tm → t.tm j = s.tm j) ∧
  ((KMap.find u s.groups).isSome → s.hasLine u (k / 2) = true → s.isAway (s.tm (keyTeam u)) = false →
    Does (.uncorrectableError 2 u k) s fun t => OnlyStream u s t ∧ (t.grp u).v = (s.grp u).v ∧ (t.grp u).s = (s.grp u).s ∧
      (k < 512 → ∀ l r, l < 16 → (t.grp u).vBad l r = ((s.grp u).vBad l r || (decide (r = k / 2) && decide (l / 8 = k % 2)))) ∧
      (512 ≤ k → k < 528 → ∀ r, r < 64 → (t.grp u).sBad r = ((s.grp u).sBad r || (decide (r ≠ 0) && decide (r / 4 = k - 512)))) ∧
      (528 ≤ k → (t.grp u).vPoison = (s.grp u).vPoison ∧ (t.grp u).sPoison = (s.grp u).sPoison ∧ KMap.find k (t.grp u).lineBad = some true)) ∧
  (s.hasLine u (k / 2) = false → Does (.uncorrectableError 2 u k) s fun t => t = s) ∧
  (Does (.uncorrectableError 4 c k) s fun t => MemoryKept s t ∧ (∀ e ∈ (t.coreAt c).l1, ∀ y ∈ e.2, y.line ≠ k / 4) ∧
    ∀ e ∈ (s.coreAt c).l1, ∀ y ∈ e.2, y.line ≠ k / 4 → ∃ e' ∈ (t.coreAt c).l1, e'.1 = e.1 ∧ y ∈ e'.2) ∧
  (∀ y, s.l2Line (k / 4) = some y →
    (y.dirty.getLsbD (k % 4) = false → Does (.uncorrectableError 5 u k) s fun t => MemoryKept s t ∧ (∀ j, j ≠ k / 4 → t.l2Line j = s.l2Line j) ∧
      ∀ z, t.l2Line (k / 4) = some z → z.valid.getLsbD (k % 4) = false) ∧
    (y.dirty.getLsbD (k % 4) = true → s.mirrored (32 * k / 0x20_0000) = false → Does (.uncorrectableError 5 u k) s fun t =>
      t = { s with poison := t.poison } ∧ ∀ a, t.badAt a = (s.badAt a || decide (a / 32 = k)))) ∧
  (s.ppr.state ≠ 1 →
    (s.pprLeft (pprGroup w) ≠ 0 → Does (.pprcmdWrite w) s fun t => t = { s with ppr := { s.ppr with state := 1, cmd := w, left := s.pprLeft (pprGroup w) } }) ∧
    (s.pprLeft (pprGroup w) = 0 → Does (.pprcmdWrite w) s fun t => t.ppr.state = 3)) ∧
  (s.ppr.state = 1 → Does (.pprComplete true) s fun t => t.ppr.state = 2 ∧ s.pprLeft (pprGroup s.ppr.cmd) - 1 = t.pprLeft (pprGroup s.ppr.cmd) ∧ MemoryKept s t ∧
    ((s.ras.head.toNat + 1) % 64 ≠ s.ras.tail.toNat → (KMap.find s.ras.head.toNat t.ras.log).isSome ∧ t.ras.head = s.ras.head + 1)) ∧
  (let f := v.toNat % 2 ^ 19
   s.caps.mirframes ≤ f → f < s.caps.visframes + s.turner.released.length → ¬ f ∈ s.turner.released →
   (∀ y : TlbEntry, ((∃ e ∈ s.cores, y ∈ e.2.tlb) ∨ ∃ e ∈ s.l2tlb, y ∈ e.2) →
     y.leaf.host = true ∨ y.leaf.dev ≠ s.links.devnum.toNat ∨ f < y.leaf.pa / 2 ^ 21 ∨ (y.leaf.pa + 2 ^ y.leaf.bits - 1) / 2 ^ 21 < f) →
   Does (.frmrelWrite v) s fun t => t.turner.released = s.turner.released ++ [f] ∧ t.caps.visframes = s.caps.visframes - 1 ∧
     t.caps.capgen = s.caps.capgen + 2 ∧ t.turner.state = (if s.turner.state = 2 then 1 else s.turner.state) ∧ MemoryKept s t ∧ t.groups = s.groups) ∧
  (o ∈ (s.unitAt u).waiting → s.homeOf o.pa ≠ u → Does (.replayReissue u) s fun t =>
    (t.unitAt u).waiting = ((s.unitAt u).waiting.filter fun z => s.homeOf z.pa = u) ∧
    (∀ h, h ≠ u → (t.unitAt h).waiting = (s.unitAt h).waiting ++ (s.unitAt u).waiting.filter fun z => s.homeOf z.pa = h) ∧
    MemoryKept s t ∧ t.groups = s.groups)

/-- 16 R392 to R397, R400: a lost channel is marked, and dropped when the Turner is at rest; a drop command begins a drop of the unit that it
names, and is refused, with nothing else changed, while one runs, for an unknown operation, or where fewer than nine stacks would be
left; a step moves one code group of a frame and, at its end, gives the frame its new entry. -/
def Obligations.TurnerEvents : Prop := ∀ (s : State) (stack chan i : Nat) (v : Word) (d : Dropped) (x : Bound),
  let refused : State := { s with turner := { s.turner with refused := true } }
  let op := v.toNat / 2 ^ 60
  let begins := fun j (y : Dropped) => s.turner.state = 0 → s.isDropped y = false → KMap.read 0 y.stack s.caps.dropsPer < 2 → (y.kind = 1 → 9 < s.workingStacks.length) →
    Does j s fun t => t.turner.current = some y ∧ t.turner.state = 1 ∧ t.turner.entries = s.turner.entries ∧ MemoryKept s t ∧ t.groups = s.groups
  let pos := v.toNat / 2 ^ 56 % 2 ^ 4
  (let y : Dropped := { kind := 2, stack, chan }
   chan < 32 → ¬ y ∈ s.turner.lost → begins (.unitLost stack chan) y ∧
     (s.isDropped y = false → Does (.unitLost stack chan) s fun t => y ∈ t.turner.lost ∧ MemoryKept s t)) ∧
  begins (.trncmdDropStack v) { kind := 1, stack := pos } ∧
  begins (.trncmdDropChannel v) { kind := 2, stack := pos, chan := v.toNat / 2 ^ 51 % 2 ^ 5 } ∧
  begins (.trncmdDropBank v) { kind := 3, stack := pos, chan := v.toNat / 2 ^ 51 % 2 ^ 5, pc := v.toNat / 2 ^ 50 % 2, bg := v.toNat / 2 ^ 48 % 4, bank := v.toNat / 2 ^ 46 % 4 } ∧
  (s.turner.state ≠ 0 → ∀ j ∈ [Instr.trncmdDropStack v, .trncmdDropChannel v, .trncmdDropBank v], Does j s fun t => t = refused) ∧
  (s.workingStacks.length ≤ 9 → Does (.trncmdDropStack v) s fun t => t = refused) ∧
  (op = 0 ∨ 3 < op → Does (.trncmdUnknown v) s fun t => t = refused) ∧
  (s.turner.current = some d → KMap.find i s.enterFrames.turner.bounds = some x → (∀ u ∈ s.rennets, ∀ r ∈ u.2.queue, ¬ x.frame ∈ r.frames) →
    Does (.turnerGroupStep i) s fun t => (s.turner.lost = [] → t.mem = s.mem) ∧ t.groups = s.groups ∧
      if x.b + 8 < 16384 then KMap.find i t.turner.bounds = some { x with b := x.b + 8 } ∧ t.turner.entries = s.turner.entries
      else KMap.find i t.turner.bounds = none ∧ (s.turner.waitingDrops = [] → t.turner.doneN = s.turner.doneN + 1) ∧
        ∀ f, KMap.find f t.turner.entries = if d.kind = 1 ∧ f = x.frame then some x.newEntry else KMap.find f s.turner.entries)

/-! ## Reliability and sampling (18) -/

/-- 18 R428, R430, R432, R436, R438, 13 R335: the Brusher goes on to the next row once nothing more is found in one, counts what it finds, and
skips a lost row uncounted; a refresh owed is issued when the bank is closed and postponed, up to POSTPONE, while a burst holds it open; a
management command that is due lowers the activation count by LEVEL; a burst is broken at the postponement limit; a sample that finds the ring full is dropped and counted, another is written. -/
def Obligations.ReliabilityEvents : Prop := ∀ (s : State) (chan sector bank core : Nat),
  let c := s.chErr chan
  let r := s.ras
  let ch := s.chErr (bank / 32)
  let acts := KMap.read 0 bank r.acts
  let owed := KMap.read 0 bank r.owed
  let bankIs := fun (t : State) a o => KMap.read 0 bank t.ras.acts = a ∧ KMap.read 0 bank t.ras.owed = o ∧ MemoryKept s t ∧ t = { s with ras := t.ras } ∧
    ∀ b, b ≠ bank → KMap.read 0 b t.ras.acts = KMap.read 0 b r.acts ∧ KMap.read 0 b t.ras.owed = KMap.read 0 b r.owed
  (r.brushEn = true → s.chanWorks chan = true → c.passDone = false → chan < 384 → s.isLost (s.scrubRow chan) = false → c.scrub + 1 < 2 ^ 21 →
    (Does (.brusherRowScrub chan 0 sector) s fun t => (t.chErr chan) = { c with scrub := c.scrub + 1, passDone := false } ∧ t.ras.rows = r.rows + 1 ∧
      t = { s with ras := t.ras }) ∧
    (Does (.brusherRowScrub chan 1 sector) s fun t => (t.chErr chan).scrub = c.scrub ∧ t.ras.rows = r.rows ∧
      (t.chErr chan).cecnt = (if c.cecnt = BitVec.allOnes 32 then c.cecnt else c.cecnt + 1) ∧ (t.chErr chan).uecnt = c.uecnt ∧ MemoryKept s t) ∧
    (Does (.brusherRowScrub chan 2 sector) s fun t => t.chErr chan = { c with deccnt := c.deccnt + 1 } ∧ t.ras.rows = r.rows) ∧
    Does (.brusherRowScrub chan 3 sector) s fun t =>
      t.chErr chan = { c with uecnt := if c.uecnt = BitVec.allOnes 16 then c.uecnt else c.uecnt + 1 } ∧ t.ras.rows = r.rows ∧ ∀ a, t.byteAt a = s.byteAt a) ∧
  (r.brushEn = true → s.chanWorks chan = true → c.passDone = false → chan < 384 → s.isLost (s.scrubRow chan) = true → c.scrub + 1 < 2 ^ 21 → ∀ f,
    Does (.brusherRowScrub chan f sector) s fun t => t.chErr chan = { c with scrub := c.scrub + 1, passDone := false } ∧ t.ras.rows = r.rows ∧ t = { s with ras := t.ras }) ∧
  (let lowered := acts - (owed + 1) * (r.level.toNat / 2)
   (s.bankBusy bank = false → Does (.refreshDue bank) s fun t => bankIs t lowered 0) ∧
   (s.bankBusy bank = true → owed + 1 ≤ r.postpone.toNat → Does (.refreshDue bank) s fun t => bankIs t acts (owed + 1)) ∧
   (s.bankBusy bank = true → r.postpone.toNat < owed + 1 → KMap.read 0 bank r.rfm = 0 → Does (.refreshDue bank) s fun t => bankIs t lowered 0 ∧
     t.chErr (bank / 32) = { ch with brkcnt := ch.brkcnt + 1 })) ∧
  (s.bankBusy bank = false → KMap.read 0 bank r.rfm ≠ 0 → Does (.refreshManagementCommand bank) s fun t => bankIs t (acts - r.level.toNat) owed ∧
    t.chErr (bank / 32) = { ch with rfmcnt := ch.rfmcnt + 1 }) ∧
  (s.bankBusy bank = true ∨ KMap.read 0 bank r.rfm = 0 → Does (.refreshManagementCommand bank) s fun t => t = s) ∧
  (s.burstOn core bank = true → r.postpone.toNat ≤ owed → Does (.burstBreak core bank) s fun t =>
    let due := KMap.read 0 bank r.rfm ≠ 0
    bankIs t (acts - owed * (r.level.toNat / 2) - if due then r.level.toNat else 0) 0 ∧
      t.chErr (bank / 32) = { ch with brkcnt := ch.brkcnt + 1, rfmcnt := if due then ch.rfmcnt + 1 else ch.rfmcnt }) ∧
  (let y := s.coreAt core
   let size := 2 ^ y.smplen
   ∀ tm g, y.team = some tm → y.smpctl.getLsbD 32 = true → y.freeze = false → 4 ≤ y.smplen → y.smplen ≤ 16 →
     y.cycle.toNat % max 256 (y.smpctl.toNat % 2 ^ 32) = 0 → s.nextSample core tm = some g →
     ((y.smphead % size + 1) % size = y.smptail % size → Does (.sample core) s fun t =>
       t.coreAt core = { y with sampled := keyGrp g, smpdrop := if y.smpdrop = BitVec.allOnes 32 then y.smpdrop else y.smpdrop + 1 } ∧ MemoryKept s t) ∧
     ((y.smphead % size + 1) % size ≠ y.smptail % size →
       s.rangeBusy (s.whoIs g true) (y.smpbase.toNat + 64 * (y.smphead % size)) 64 .write = false → ∀ s1,
       s.writeVirtual (s.whoIs g true) (y.smpbase.toNat + 64 * (y.smphead % size)) (s.sampleRecord core g) = some s1 → Does (.sample core) s fun t =>
       t.coreAt core = { y with sampled := keyGrp g, smphead := (y.smphead % size + 1) % size } ∧
         ((s.partAt (s.gPart g)).phacctl.getLsbD 31 = false → ∀ a, t.byteAt a = s1.byteAt a)))

/-! ## The Press and the Ladle at work (12 R301 to R313, 13 R322 to R332) -/

/-- The Press of a core may perform its head, which is `op`, with `rest` behind it: its cluster is resident, no release is still refused,
and no join point stands in any queue. -/
def Claims.PressHead (s : State) (core tm : Nat) (op : PressOp) (rest : List PressOp) : Prop :=
  (s.coreAt core).team = some tm ∧ (s.tm tm).core = some core ∧ (s.cl (s.tm tm).cluster).res = .resident ∧ (s.pressOf tm).retry = [] ∧ s.joins = [] ∧
    (s.pressOf tm).queue = op :: rest

/-- What stands in a Press queue but join points, which are no Press instructions (05 R131). -/
def Claims.pressOps (q : List PressOp) : List PressOp := q.filter fun op => match op with | .join _ => false | _ => true

/-- What stands in a Ladle queue but join points. -/
def Claims.ladleOps (q : List LadleOp) : List LadleOp := q.filter fun op => match op with | .join _ => false | _ => true

/-- 12 R301, R303, R305, R310: the head of a resident member's Press queue, its moulds full or empty as it needs them or broken, no release
still refused, and no sub-array gated that it uses, leaves the queue; a refused release that is taken now is refused no more. -/
def Claims.PressGoes : Prop := ∀ (s : State) (core tm : Nat) (op : PressOp) (rest : List PressOp),
  let leaves := fun j => Does j s fun t => pressOps (t.pressOf tm).queue = pressOps rest
  let ready := fun o (full : Bool) => s.objBroken tm o = true ∨ (s.objAt tm o).phase.getLsbD 0 = full
  (s.coreAt core).team = some tm → (s.tm tm).core = some core →
  ((s.cl (s.tm tm).cluster).res = .resident → (s.pressOf tm).retry = [] → (s.pressOf tm).queue = op :: rest →
    (∀ zd acc relA relB chk a b kk fmt bad, op = .mma zd acc relA relB chk a b kk fmt bad → ready a.obj true → ready b.obj true →
      (s.pressOf tm).anyGated = false → leaves (.pressMmaPerform core)) ∧
    (∀ zd clr d fmt bad, op = .mdrain zd clr d fmt bad → ready d.obj false → leaves (.pressMdrainPerform core)) ∧
    (∀ zd, op = .mzero zd → leaves (.pressMzeroPerform core)) ∧
    (∀ f n, op = .mcheckMode f n → leaves (.pressMcheckPerform core)) ∧
    ∀ arm j r c x, op = .mcheckInject arm j r c x → leaves (.pressMcheckPerform core)) ∧
  (∀ o more, (s.pressOf tm).retry = o :: more → (s.tm tm).isOut = false → KMap.find o (s.tm tm).held = none →
    s.objBroken tm o = true ∨ (s.objAt tm o).reg ≤ (s.objAt tm o).obs →
    Does (.pressReleaseRetry core) s fun t => (t.pressOf tm).retry = more)

/-- A byte of an operand of signed bytes: element `k` of line `l` of a tile of depth `kk` (12 R299). -/
def Claims.operand (s : State) (tm : Nat) (m : Mould) (kk l k : Nat) : Int :=
  (KMap.read unwritten (m.tbase + swz m.z (l * kk + k)) (s.tm tm).mem).toInt

/-- 12 R301, R302: `mma` of signed bytes whose moulds are full, unchecked, with clean operands: every element of the tile takes its old
value, or zero, plus the sum of the products along K, modulo 2^32. With a poisoned format block every sector of the tile is poisoned. -/
def Obligations.PressMultiply : Prop := ∀ (s : State) (core tm zd kk : Nat) (acc : Bool) (a b : Mould) (fmt : List Byte) (bad : Bool × Bool) (rest : List PressOp),
  let old := KMap.read ({} : Acc) zd (s.pressOf tm).z
  PressHead s core tm (.mma zd acc false false false a b kk fmt bad) rest → s.objBroken tm a.obj = false → s.objBroken tm b.obj = false →
  (s.objAt tm a.obj).phase.getLsbD 0 = true → (s.objAt tm b.obj).phase.getLsbD 0 = true →
  (bad = (false, false) → (opFmtAt fmt 0).fmt = 11 → (opFmtAt fmt 0x10).fmt = 11 → (opFmtAt fmt 0).blk = 0 → (opFmtAt fmt 0x10).blk = 0 → kk % 4 = 0 →
    (s.pressOf tm).force = false → (s.pressOf tm).anyGated = false → (s.tm tm).poison = [] → Does (.pressMmaPerform core) s fun t =>
      let z := KMap.read ({} : Acc) zd (t.pressOf tm).z
      (∀ r c, r < 128 → c < 128 → z.at r c = (if acc then old.at r c else 0) +
        BitVec.ofInt 32 ((List.range kk).map fun k => operand s tm a kk r k * operand s tm b kk c k).sum) ∧
      z.mode = 2 ∧ (z.poison = if acc then old.poison else []) ∧ (t.pressOf tm).queue = rest ∧ MemoryKept s t ∧ (t.tm tm).mem = (s.tm tm).mem ∧
      ∀ q, q ≠ zd → KMap.read ({} : Acc) q (t.pressOf tm).z = KMap.read ({} : Acc) q (s.pressOf tm).z) ∧
  (bad.1 = true ∨ bad.2 = true → Does (.pressMmaPerform core) s fun t =>
      let z := KMap.read ({} : Acc) zd (t.pressOf tm).z
      (∀ k, k < 2048 → KMap.read false k z.poison = true) ∧ (∀ r c, z.at r c = 0) ∧ (t.pressOf tm).queue = rest ∧ MemoryKept s t)

/-- 12 R303 to R306, R310, R312, R313, R301: a drain of a clean integer tile to integers writes every element, four bytes each in row order;
`mzero` clears a tile; a check mode and an injection take effect in queue order; a refused release is made again; a sub-array idle for
`c.pressgate` cycles is gated, and one that has woken works. -/
def Claims.PressEffects : Prop := ∀ (s : State) (core tm zd q : Nat) (clr : Bool) (d : Mould) (fmt : List Byte) (rest : List PressOp),
  let p := s.pressOf tm
  let z := KMap.read ({} : Acc) zd p.z
  let w := KMap.read ({} : SubArray) q (s.coreAt core).press.sub
  (PressHead s core tm (.mdrain zd clr d fmt (false, false)) rest → s.objBroken tm d.obj = false → (s.objAt tm d.obj).phase.getLsbD 0 = false →
    (outFmtOf fmt).fmt = 1 → z.mode = 2 → d.z = 0 → d.obj + 32 ≤ d.tbase ∨ d.tbase + 65536 ≤ d.obj → Does (.pressMdrainPerform core) s fun t =>
      (∀ r c k, r < 128 → c < 128 → k < 4 →
        KMap.read unwritten (d.tbase + 512 * r + 4 * c + k) (t.tm tm).mem = BitVec.ofNat 8 ((z.at r c).toNat / 2 ^ (8 * k))) ∧
      (∀ i, (i < d.tbase ∨ d.tbase + 65536 ≤ i) → (i < d.obj ∨ d.obj + 32 ≤ i) →
        KMap.read unwritten i (t.tm tm).mem = KMap.read unwritten i (s.tm tm).mem) ∧
      KMap.read ({} : Acc) zd (t.pressOf tm).z = (if clr then {} else z) ∧ (t.pressOf tm).queue = rest) ∧
  (PressHead s core tm (.mzero zd) rest → Does (.pressMzeroPerform core) s fun t =>
    KMap.read ({} : Acc) zd (t.pressOf tm).z = {} ∧ (∀ j, j ≠ zd → KMap.read ({} : Acc) j (t.pressOf tm).z = KMap.read ({} : Acc) j p.z) ∧
      (t.pressOf tm).queue = rest ∧ MemoryKept s t ∧ t.groups = s.groups) ∧
  (∀ f n, PressHead s core tm (.mcheckMode f n) rest → Does (.pressMcheckPerform core) s fun t =>
    t.pressOf tm = { p with force := f, nocorr := n, queue := rest, seen := false } ∧ MemoryKept s t ∧ t.groups = s.groups) ∧
  (∀ arm j r c x, PressHead s core tm (.mcheckInject arm j r c x) rest → Does (.pressMcheckPerform core) s fun t =>
    t.pressOf tm = { p with inject := if arm then some (j, r, c, x) else p.inject, queue := rest, seen := false } ∧ MemoryKept s t ∧ t.groups = s.groups) ∧
  (∀ o more, (s.coreAt core).team = some tm → (s.tm tm).core = some core → s.joins = [] → p.retry = o :: more → (s.tm tm).isOut = false → KMap.find o (s.tm tm).held = none →
    s.objBroken tm o = false → (s.objAt tm o).nv = false → NoWaiter s tm o →
    let n := arrived (s.objAt tm o) 1 0
    (n.1 = 2 → Does (.pressReleaseRetry core) s fun t => t = s) ∧
    (n.1 ≠ 2 → Does (.pressReleaseRetry core) s fun t => t.objAt tm o = n.2 ∧ t.pressOf tm = { p with retry := more } ∧ MemoryKept s t ∧ t.groups = s.groups)) ∧
  (q < 4 → w.gated = false → (s.coreAt core).team.isSome →
    ((s.coreAt core).pressgate = 0 → Does (.subarrayGate core q) s fun t => t = s) ∧
    ((s.coreAt core).pressgate ≠ 0 → (s.coreAt core).pressgate.toNat ≤ w.idle → Does (.subarrayGate core q) s fun t =>
      KMap.read ({} : SubArray) q (t.coreAt core).press.sub = { w with gated := true, waking := false } ∧ t.groups = s.groups ∧ MemoryKept s t)) ∧
  (w.waking = true → Does (.subarrayWakeDone core q) s fun t =>
    KMap.read ({} : SubArray) q (t.coreAt core).press.sub = { gated := false, waking := false, idle := 0 } ∧ t.groups = s.groups ∧ MemoryKept s t)

/-- 12 R301 to R313: what Press instructions do at a member, and that they leave its queue. -/
def Obligations.PressWork : Prop := Claims.PressEffects ∧ Claims.PressGoes

/-- 13 R317, R322 to R326, R332, R333: a transfer operation that may act and whose homes serve it leaves its queue, but for its pieces of
another device's pages, which wait for their answers at its head; a pull's piece leaves its queue, or makes way for the next piece at its end;
nothing leaves it while landings of a `vcast` of it are still to come; a count that its object takes now is held no more; a resident team's
notice that fails a check leaves the kick register too. -/
def Claims.LadleGoes : Prop := ∀ (s : State) (core q : Nat) (rest : List LadleOp),
  let y := s.coreAt core
  let queue := fun (t : State) => KMap.read [] q (t.coreAt core).ladle
  (∀ z, queue s = .xfer z :: rest → s.casting core q = false → z.sent = true ∨ s.copyMayAct z = true → s.xferBusy z = false →
    let far := z.pieces.filter fun p => p.remote && !p.void
    let near := z.pieces.filter fun p => !(p.remote && !p.void)
    (z.sent = true ∨ far = [] → Does (.ladleTransfer core q) s fun t => ladleOps (queue t) = ladleOps rest) ∧
    (z.sent = false → far ≠ [] → Does (.ladleTransfer core q) s fun t => queue t = .xfer { z with pieces := far.map fun p => p.after near, sent := true } :: rest)) ∧
  (∀ n tm done sent, queue s = .pull n tm done sent :: rest → s.casting core q = false → (s.pullWaits core q n tm done).1 = false →
    sent = true ∨ (s.pullWaits core q n tm done).2 = [] → Does (.ladleTransfer core q) s fun t =>
      ladleOps (queue t) = ladleOps rest ∨ ∃ more, ladleOps (queue t) = ladleOps rest ++ [.pull n tm more false]) ∧
  (s.casting core q = true → Does (.ladleTransfer core q) s fun t => t = s) ∧
  (∀ c, (y.counts.find? fun h => h.queue = q) = some c → (s.tm c.team).isOut = false → KMap.find c.obj (s.tm c.team).held = none →
    s.objBroken c.team c.obj = true ∨ (s.objAt c.team c.obj).reg ≤ (s.objAt c.team c.obj).obs → Does (.ladleCountRetry core q) s fun t =>
      (t.coreAt core).counts.length < y.counts.length ∧ ∀ d ∈ (t.coreAt core).counts, d ∈ y.counts) ∧
  (∀ k tm, y.kick = some k → y.team = some tm → (ladleOps (KMap.read [] (k.field 0x1B 1 % 4) y.ladle)).length < 64 →
    ((s.tm tm).res = .resident → Does (.kickPull core) s fun t => (t.coreAt core).kick = none) ∧
    ((s.tm tm).res ≠ .resident → Does (.kickPull core) s fun t => t = s))

/-- 13 R322 to R324, R332: a queued `vcopy.in` piece of a device page lands its bytes at its scratchpad place, and no byte but those and its
object's changes; its bytes are counted; a count refused and held is made again; a sound notice becomes a pull in its queue. -/
def Claims.LadleEffects : Prop := ∀ (s : State) (core q tm o n : Nat) (z : Xfer) (p : Piece) (rest : List LadleOp) (c : HeldCount) (k : Notice),
  let y := s.coreAt core
  (KMap.read [] q y.ladle = .xfer z :: rest → z.kind = .copyIn → z.pieces = [p] → p.locs = [(tm, o)] → p.n = n → p.void = false → p.lose = [] → s.casting core q = false →
    (s.teamGroups tm).isEmpty = false → p.remote = false → p.leaf.host = false → s.bad p.pa = false → z.sent = false → s.copyMayAct z = true → s.xferBusy z = false → y.counts = [] → s.joins = [] → keyTeam z.g = tm →
    z.l + 32 ≤ o ∨ o + n ≤ z.l → (s.tm tm).isOut = false → KMap.find z.l (s.tm tm).held = none → s.objBroken tm z.l = false →
    let w := s.objAt tm z.l
    w.reg ≤ w.obs → n < w.pendbytes → w.overrun = false → Does (.ladleTransfer core q) s fun t =>
      (∀ i, i < z.l ∨ z.l + 32 ≤ i → KMap.read unwritten i (t.tm tm).mem =
        if o ≤ i ∧ i < o + n then (s.loadBytes p.pa n)[i - o]?.getD 0 else KMap.read unwritten i (s.tm tm).mem) ∧
      t.objAt tm z.l = { w with pendbytes := w.pendbytes - n } ∧ KMap.read [] q (t.coreAt core).ladle = rest ∧ MemoryKept s t ∧
      ∀ u, u ≠ tm → t.tm u = s.tm u) ∧
  (y.counts = [c] → c.queue = q → (s.tm c.team).isOut = false → KMap.find c.obj (s.tm c.team).held = none → s.objBroken c.team c.obj = false →
    let w := s.objAt c.team c.obj
    (w.obs < w.reg → Does (.ladleCountRetry core q) s fun t => (t.coreAt core).counts = [c] ∧ t.tm c.team = s.tm c.team) ∧
    (w.reg ≤ w.obs → c.arr = 0 → c.n < w.pendbytes → w.overrun = false → Does (.ladleCountRetry core q) s fun t =>
      (t.coreAt core).counts = [] ∧ t.objAt c.team c.obj = { w with pendbytes := w.pendbytes - c.n } ∧ MemoryKept s t)) ∧
  (let who := { s.whoIs (streamKey tm 64) false with holders := [(s.tm tm).cluster], shares := (s.cl (s.tm tm).cluster).shares }
   let j := k.field 0x1B 1
   y.kick = some k → y.team = some tm → (s.tm tm).res = .resident → s.noticeOk k tm = true → s.insideToken who (k.field 0x18 3) (k.field 0 8) (k.field 8 4) = true →
   (ladleOps (KMap.read [] j y.ladle)).length < 64 → Does (.kickPull core) s fun t => (t.coreAt core).kick = none ∧
     KMap.read [] j (t.coreAt core).ladle = KMap.read [] j y.ladle ++ [.pull k tm 0 false] ∧ MemoryKept s t ∧ t.groups = s.groups)

/-- 13 R322 to R326, R332, R333: what the Ladle does, and that its operations leave their queues. -/
def Obligations.LadleWork : Prop := Claims.LadleEffects ∧ Claims.LadleGoes

/-! ## Ports and links (19 R442 to R448, 17 R420) -/

/-- A range of a port lies in one sector, in writable ordinary device memory that is not mirrored, for a function or window. -/
def Claims.PortSector (s : State) (w : Who) (va n : Nat) (y : Xlat) : Prop :=
  0 < n ∧ va % 32 + n ≤ 32 ∧ s.xlate w va .write = .ok y ∧ y.remote = false ∧ y.leaf.host = false ∧ y.pa % 32 + n ≤ 32 ∧
    s.mirrored (y.pa / 0x20_0000) = false

/-- A write changed exactly `n` bytes at `pa`. -/
def Claims.BytesSet (s t : State) (pa n data : Nat) : Prop :=
  ∀ i, t.byteAt i = if pa ≤ i ∧ i < pa + n then BitVec.ofNat 8 (data / 2 ^ (8 * (i - pa))) else s.byteAt i

/-- A landing window counts on a sound object of a live cluster's member that is not switched out, and the object takes the count (17 R419,
R420, R421). -/
def Claims.LandsAt (s : State) (x : Landing) (tm : Nat) : Prop :=
  isClusterId x.cluster.toNat = true ∧ (∃ y, KMap.find x.cluster.toNat s.clusters = some y ∧ y.res ≠ .ended ∧ y.members[x.m.toNat]? = some tm) ∧
    x.obj.toNat % 32 = 0 ∧ x.obj.toNat < (s.tm tm).spad ∧ (s.tm tm).isOut = false ∧ KMap.find x.obj.toNat (s.tm tm).held = none ∧
    s.objBroken tm x.obj.toNat = false ∧ (s.objAt tm x.obj.toNat).reg ≤ (s.objAt tm x.obj.toNat).obs

/-- 19 R442 to R444, 17 R420: window B reads what translation gives and writes where it points, a fault being unsupported or dropped; a
landing write lands in the lowest window that holds it, waits behind a held count, and is counted in LWMISS where none does; a held
count whose cluster has ended is over; a read of the aperture is unsupported. -/
def Claims.PortEvents : Prop := ∀ (s : State) (port p o n data w : Nat) (y : Xlat),
  let va := (s.partAt p).pwinb.toNat + o
  let who := hostWho port p
  let x := s.window w
  let ended := fun (t : State) v => t = { s with landing := t.landing } ∧ t.window w = v ∧ ∀ j, j ≠ w → t.window j = s.window j
  (s.hasFunction port p = true → o + n ≤ 2 ^ 36 →
    (∀ bs bad, s.readVirtual who va n = .ok (bs, bad) → s.rangeBusy who va n .read = false → (s.partAt p).phacctl.getLsbD 31 = false →
      Does (.windowBRead port p o n) s fun t => t.answers = .data n (natOfBytes bs) bad :: s.answers ∧ MemoryKept s t ∧ t.groups = s.groups) ∧
    (PortSector s who va n y → s.rangeBusy who va n .write = false → (s.partAt p).phacctl.getLsbD 31 = false → Does (.windowBWrite port p o n data) s fun t => BytesSet s t y.pa n data ∧ t.groups = s.groups) ∧
    (∀ s1, s.writeVirtual who va (bytesOfNat n data) = some s1 → s.rangeBusy who va n .write = false → Does (.windowBWrite port p o n data) s fun t =>
      t.groups = s.groups ∧ (data < 2 ^ (8 * n) → (s.partAt p).phacctl.getLsbD 31 = false → ∀ a, t.byteAt a = s1.byteAt a)) ∧
    (0 < n → (∀ z, s.xlate who va .write ≠ .ok z) → (s.partAt p).pfqen = false → Does (.windowBWrite port p o n data) s fun t => MemoryKept s t)) ∧
  (s.hasFunction port p = false → Does (.windowBRead port p o n) s (fun t => t = { s with answers := .unsupported :: s.answers }) ∧
    Does (.windowBWrite port p o n data) s fun t => t = s) ∧
  ((∀ j, j < 256 → (s.window j).takes o n = false) → Does (.landingWrite o n data) s fun t => t = { s with lwmiss := s.lwmiss + 1 }) ∧
  (w < 256 → (∀ j, j < w → (s.window j).takes o n = false) → x.takes o n = true →
    (x.held.isSome → Does (.landingWrite o n data) s fun t => ended t { x with waiting := x.waiting ++ [(o, n, data)] }) ∧
    (x.held = none → PortSector s { part := x.part.toNat, holders := [windowHolder w], kernel := true } (x.base.toNat + (o - 65536 * x.off.toNat)) n y →
      s.landBusy w o n = false →
      (s.partAt x.part.toNat).phacctl.getLsbD 31 = false → KMap.find x.cluster.toNat s.clusters = none → Does (.landingWrite o n data) s fun t =>
        BytesSet s t y.pa n data ∧ t.window w = { x with ended := true } ∧ t.groups = s.groups) ∧
    (x.held = none → s.landBusy w o n = false →
      let put := s.writeVirtual { part := x.part.toNat, holders := [windowHolder w], kernel := true } (x.base.toNat + (o - 65536 * x.off.toNat)) (bytesOfNat n data)
      (put = none → Does (.landingWrite o n data) s fun t => ended t { x with fault := true }) ∧
      (∀ s1 tm, put = some s1 → LandsAt s x tm → Does (.landingWrite o n data) s fun t => t.window w = { x with bytes := x.bytes + BitVec.ofNat 32 n }))) ∧
  (∀ k tm, x.held = some k → x.waiting = [] → LandsAt s x tm → Does (.landingCountRetry w) s fun t =>
    t.window w = { x with held := none, bytes := x.bytes + BitVec.ofNat 32 k }) ∧
  (x.held.isSome → x.waiting = [] → KMap.find x.cluster.toNat s.clusters = none →
    Does (.landingCountRetry w) s fun t => ended t { x with ended := true, held := none }) ∧
  Does (.apertureNonposted o) s fun t => t = { s with answers := .unsupported :: s.answers }

/-- 19 R445 to R448: a damaged flit is answered with a NAK that names the sequence number expected; a void flit in order moves the number
on; a transaction of a void flit goes out again under its tag; a link without lock is down and the capability list says so; DEVNUM is
set while the links are disabled, of which the capability list tells, and kept while they are enabled. -/
def Claims.LinkEvents : Prop := ∀ (s : State) (link queue tag : Nat) (h : BitVec 32) (bs : List Nat) (v : Word),
  let l := s.linkAt link
  (s.links.en = true → l.working = true → link < 36 →
    Does (.flitReceive link h false bs) s (fun t => t.linkAt link = { l with sent := (3, l.expect) :: l.sent } ∧ MemoryKept s t ∧ t.groups = s.groups) ∧
    (h.toNat / 16 % 16 = 1 → h.toNat / 2 ^ 20 = l.expect → l.window = [] → Does (.flitReceive link h true bs) s fun t =>
      t.linkAt link = { l with expect := (l.expect + 1) % 4096 } ∧ MemoryKept s t ∧ t.groups = s.groups) ∧
    (h.toNat / 16 % 16 ≤ 1 → h.toNat / 2 ^ 20 = l.expect → Does (.flitReceive link h true bs) s fun t =>
      (t.linkAt link).expect = (l.expect + 1) % 4096)) ∧
  (∀ b, l.working = true → (l.again.find? fun b => b.queue = queue && b.tag = tag) = some b → l.window.length < 1024 →
    Does (.transactionReemit link queue tag) s fun t =>
      (t.linkAt link).window = l.window ++ [{ seq := l.nextSeq, void := false, beats := [b] }] ∧
      (t.linkAt link).again = l.again.erase b ∧ MemoryKept s t ∧ t.groups = s.groups) ∧
  (l.working = true → Does (.lossOfLock link) s fun t => (t.linkAt link).working = false ∧ t.caps.capgen = s.caps.capgen + 2 ∧ MemoryKept s t ∧
    t.groups = s.groups) ∧
  (s.stage ≠ 2 ∨ s.links.en = true → let dev := if s.links.en then s.links.devnum else BitVec.ofNat 10 (v.toNat / 2 ^ 32)
    Does (.lnkcfgWrite v) s fun t => t = { s with
      links := { s.links with en := v.getLsbD 0, devnum := dev }
      caps := { s.caps with capgen := if dev = s.links.devnum then s.caps.capgen else s.caps.capgen + 2 } })

/-- 19 R442 to R448, 17 R420: the ports and the links. -/
def Obligations.PortAndLinkEvents : Prop := Claims.PortEvents ∧ Claims.LinkEvents

/-! ## Near-bank runs, start, resets, the mailbox (10 R261, 19 R450 to R454, 01 R10, R22) -/

/-- 10 R261: the head of a unit's queue starts at its first word and row when nothing holds it; a suspended run goes on once its arbitration
window is over, and not before. -/
def Claims.RunEvents : Prop := ∀ (s : State) (u : Nat) (r : NbRun) (rest : List NbRun),
  let unitIs := fun (t : State) q => t = { s with rennets := t.rennets } ∧ t.unitAt u = { s.unitAt u with queue := q :: rest } ∧
    ∀ j, j ≠ u → t.unitAt j = s.unitAt j
  (s.unitAt u).queue = r :: rest →
  (r.state = 0 → r.after = [] → Does (.runStart u) s fun t => unitIs t { r with state := 1, r := r.start, ctr := 0, n := [], np := [] }) ∧
  (r.state = 2 → s.windowOver u = true → Does (.runResume u) s fun t => unitIs t { r with state := 1 }) ∧
  (r.state = 2 → s.windowOver u = false → Does (.runResume u) s fun t => t = s)

/-- 10 R259 to R262: loading a microprogram, queueing, starting, resuming and polling a run. -/
def Obligations.NearBankRuns : Prop := Claims.NearBankQueue ∧ Claims.RunEvents

/-- 19 R450 to R452: power-good leaves stage 0 with nothing placed, and a memory failure where fewer than nine stacks work; stage 1 takes
the cores of the part, stage 2 enables them all; a warm reset leaves memory, and no stream; a partition reset by either way leaves that
partition's registers at their reset values, but for its range of token ids (15 R381). -/
def Claims.StartAndReset : Prop := ∀ (s : State) (w : BitVec 12) (p : Nat),
  let empty := fun (t : State) => t.groups = [] ∧ t.teams = [] ∧ t.clusters = [] ∧ t.rennets = []
  let kept := fun q : Nat => ({ serial := (s.partAt q).serial, ptokfirst := (s.partAt q).ptokfirst, ptokcount := (s.partAt q).ptokcount } : Partition)
  let idle := s.teams = [] ∧ s.clusters = [] ∧ s.residuals = [] ∧ s.joins = [] ∧ ∀ q, (s.partAt q).tasks = []
  Does (.coldReset w) s (fun t => t.stage = 0 ∧ t.cores = [] ∧ t.parts = [] ∧ empty t ∧ t.queues = [] ∧ t.tokn = 0 ∧ (∀ a, t.byteAt a = unwritten ∧ t.badAt a = false) ∧
    t.caps.workStacks = w ∧ (if ((List.range 12).filter fun i => w.getLsbD i).length < 9 then t.mail.state = 3 ∧ t.mail.reason = 2 else t.mail = {})) ∧
  (s.stage = 0 → s.mail.reason = 0 → Does .stage1Reached s fun t => t.stage = 1 ∧ (∀ k, KMap.find k t.cores =
      if k ∈ partCores then some { pipes := Config.corePipes k, on := stage1Cores.contains k } else none) ∧ t.parts = s.parts ∧ MemoryKept s t) ∧
  (s.stage = 1 → Does .stage2Reached s fun t => t.stage = 2 ∧ t.ras.brushEn = true ∧ t.caps.clocks = [2400, 2400, 2400] ∧
    (∀ c ∈ t.cores, c.2.on = true) ∧ t.groups = s.groups ∧ MemoryKept s t) ∧
  (s.stage ≠ 0 → Does .warmReset s fun t => t.stage = 2 ∧ empty t ∧ t.tokn = s.tokn ∧ t.tokbase = s.tokbase ∧
    (idle → MemoryKept s t) ∧ ∀ q, t.partAt q = kept q) ∧
  (p < 8 →
    (∀ i ∈ [Instr.partitionReset p, .functionLevelReset p], s.stage ≠ 0 → Does i s fun t => t.partAt p = kept p ∧
      (∀ m y, KMap.find m s.teams = some y → y.part = p → (t.tm m).res = .ended) ∧
      (∀ c y, KMap.find c s.clusters = some y → y.part = p → (t.cl c).res = .ended) ∧
      (idle → (∀ q, q ≠ p → t.partAt q = s.partAt q) ∧ MemoryKept s t ∧ t.groups = s.groups ∧ t.cores = s.cores)))

/-- 19 R453, R454, 01 R10, R22: a mailbox command with a known operation makes the controller busy, one at a busy controller is ignored with
reason 3, an unknown one refused with reason 4; a command done or refused says so, a session opening and closing; a bridge's rate only
falls, and at none the device has failed; a die's clock only falls. -/
def Claims.ControllerEvents : Prop := ∀ (s : State) (op : BitVec 8) (reason : BitVec 16) (k r : Nat),
  let m := s.mail
  let mailIs := fun (t : State) y => t = { s with mail := y }
  (s.stage ≠ 0 → m.state ≠ 1 →
    Does .pgcmdAttest s (fun t => mailIs t { m with state := 1, op := 1, reason := 0 }) ∧
    Does .pgcmdOpenSession s (fun t => mailIs t { m with state := 1, op := 2, reason := 0 }) ∧
    Does .pgcmdCloseSession s (fun t => mailIs t { m with state := 1, op := 3, reason := 0 }) ∧
    Does .pgcmdLoadFirmware s (fun t => mailIs t { m with state := 1, op := 4, reason := 0 }) ∧
    (op = 0 ∨ 4 < op.toNat → Does (.pgcmdUnknown op) s fun t => mailIs t { m with state := 3, reason := 4 })) ∧
  (s.stage ≠ 0 → m.state = 1 → ∀ i ∈ [Instr.pgcmdAttest, .pgcmdOpenSession, .pgcmdCloseSession, .pgcmdLoadFirmware],
    Does i s fun t => mailIs t { m with reason := 3 }) ∧
  (m.state = 1 →
    Does (.polgilyCommandDone false reason) s (fun t => mailIs t { m with state := 3, reason }) ∧
    (m.op = 2 → Does (.polgilyCommandDone true reason) s fun t => mailIs t { m with state := 2, reason := 0, session := true }) ∧
    (m.op = 3 → Does (.polgilyCommandDone true reason) s fun t => mailIs t { m with state := 2, reason := 0, session := false }) ∧
    (m.op = 1 → Does (.polgilyCommandDone true reason) s fun t => t.mail.state = 2 ∧
      ∀ i, i < 4096 → KMap.read 0 i t.mail.buf = Config.report m.reports i)) ∧
  (∀ old, s.caps.rates[k]? = some old → Does (.bridgeLaneFailure k r) s fun t => t.caps.rates[k]? = some (min old r) ∧
    t.failed = (s.failed || decide (min old r = 0)) ∧ (min old r = 0 → t.mail.state = 3) ∧ t.caps.capgen = s.caps.capgen + 2 ∧ MemoryKept s t ∧ t.groups = s.groups) ∧
  (∀ old, s.caps.clocks[k]? = some old → Does (.powerLimit k r) s fun t => t.caps.clocks[k]? = some (min old r) ∧ MemoryKept s t ∧
    t.groups = s.groups ∧ t.cores = s.cores)

/-- 19 R450 to R454, 01 R10, R22: start, resets and the controller. -/
def Obligations.StartResetAndController : Prop := Claims.StartAndReset ∧ Claims.ControllerEvents

/-! ## Words, steps and the whole machine -/

/-- 03 R58, 05 R116, R139, R140, 08, 10, 17 R413: words that the spec writes out decode to the instructions that it says they are. -/
def Obligations.WordsDecode : Prop :=
  decodeScalar 0x0238C281#32 = .ok (.sub 7 6 5) ∧ decodeScalar 0xFFE80191#32 = .ok (.bne 0x1FFD 0 3) ∧
  decodeScalar 0x3630A201#32 = .ok (.bfx 6 5 4) ∧ decodeScalar 0x00000046#32 = .ok .nop ∧ decodeScalar 0x00000041#32 = .ok .xret ∧
  decodeScalar 0x0000C4B4#32 = .ok (.tryStart 6 9) ∧ decodeScalar 0x0008C2A5#32 = .ok (.arrive 1 6 5) ∧
  decodeScalar 0x0030A22C#32 = .ok (.tlend 0 6 5 4) ∧ decodeScalar 0x00000054#32 = .ok .mwake ∧
  decodeScalar 0#32 = .error .unassigned ∧ decodeMicro 0x62021003#32 = .ok (.nmacImm 1 0 4 0 3) ∧
  decodeLane 0x00000000040100020404_8001#96 =
    .ok (.vadd { va := 8, vd := 9, gneg := 0, guard := 0, u := 0, sub := 0, kind := 1, hint := 0, md := 0, ty := 1, vc := 0, vb := 2, imm := 0 })

/-- 03 R58 to R78: the word of every well-formed instruction, as memory holds it, decodes to it, every operand at every value. -/
def Obligations.DecodeOfEncode : Prop := ∀ i : Instr, WellFormed i = true → ∀ rest : List Byte,
  decodeBytes i.wordKind (encode i ++ rest) = .ok (i, rest)

/-- A slot of stream `g` was spent on an instruction in state `t`: the step answers what the instruction answers, with the counts that the
choice among groups goes by (14 R356) brought on. -/
def Claims.Issues (s t : State) (lane : Bool) (i : Instr) : Prop := ∃ w, exec i t = .next w ∧ step s = .next (t.noteSlot w lane [] i)

/-- 14 R355, R356: what a slot opens and notes is nothing but the counts of the choice: of streams, `yield`'s opportunities left, those passed
over and the last one taken; of cores, the opportunities and the engines' last instructions. -/
def Claims.SlotsOnlyCount : Prop := ∀ (s w : State) (g : Nat) (lane : Bool) (ready : List Nat) (i : Instr),
  let o := s.openSlot g lane
  let n := s.noteSlot w lane ready i
  (o = { s with groups := o.groups, cores := o.cores } ∧ (∀ h, ∃ y, o.grp h = { s.grp h with yieldLeft := y }) ∧
    ∀ k, ∃ c, o.coreAt k = { s.coreAt k with slots := c }) ∧
  n = { w with groups := n.groups, cores := n.cores } ∧
    (∀ h, ∃ a b c d, n.grp h = { w.grp h with passS := a, passL := b, lastS := c, lastL := d }) ∧ ∀ k, ∃ e, n.coreAt k = { w.coreAt k with engines := e }

/-- 03 R61, R64, R72, 10 R258: a step with nothing scheduled runs the instruction that the bytes at the scalar PC, at the lane PC, or at the
counter of a near-bank run decode to, in the state that its fetch leaves, where the stream stands at an instruction, its core's other
groups stand at none, its fetch waits for no home and its registers' lines are held (09 R223); bytes that decode to none, and a fetch that
fails, run the event of it; what is due at a stream's boundary, and an event that the schedule holds, run first. The schedule is the
model's (log entry 3). -/
def Claims.StepsDecoded : Prop := ∀ (s : State) (g u : Nat) (i : Instr) (bs : List Byte) (c : Cause),
  let x := s.grp g
  let slot := fun lane => s.agenda = [] ∧ s.cur = streamAgent g lane ∧ s.seeks g lane = true ∧ s.slotGroups g lane = [g]
  let o := fun lane => s.openSlot g lane
  let code := fun lane (a : Word) n => (o lane).fetchBytes g a.toNat n
  let free := fun lane (a : Word) n => (o lane).fetchBusy g lane a n = false
  let at' := fun lane (a : Word) n => { (o lane).fetched g lane a.toNat n with cur := streamAgent g lane }
  (∀ ts, s.agenda = .event i :: ts → isScheduled i = true → step s = exec i { s with agenda := ts }) ∧
  (s.agenda = [] → s.cur = .scalar g → s.runs g = true → x.boundary g = some i → step s = exec i s) ∧
  (slot false → free false x.pc 4 →
    (code false x.pc 4 = .ok (bs, false) → bs.length = 4 →
      (decodeScalar (BitVec.ofNat 32 (natOfBytes bs)) = .ok i → (o false).lineMiss g i = false → Issues s (at' false x.pc 4) false i) ∧
      ((∀ j, decodeScalar (BitVec.ofNat 32 (natOfBytes bs)) ≠ .ok j) → Issues s (at' false x.pc 4) false (.unassignedEncoding false false))) ∧
    (code false x.pc 4 = .ok (bs, true) → Issues s (at' false x.pc 4) false (.unassignedEncoding false true)) ∧
    (code false x.pc 4 = .error c → Issues s { o false with cur := streamAgent g false } false (.fetchFault false c.code x.pc))) ∧
  (∀ q, slot true → x.path = some q → free true q.lpc 12 →
    let unread := { at' true q.lpc 12 with free := s.free }
    (code true q.lpc 12 = .ok (bs, false) → bs.length = 12 →
      (decodeLane (BitVec.ofNat 96 (natOfBytes bs)) = .ok i → (o true).lineMiss g i = false → Issues s (at' true q.lpc 12) true i) ∧
      ((∀ j, decodeLane (BitVec.ofNat 96 (natOfBytes bs)) ≠ .ok j) → Issues s unread true (.unassignedEncoding true false))) ∧
    (code true q.lpc 12 = .ok (bs, true) → Issues s unread true (.unassignedEncoding true true)) ∧
    (code true q.lpc 12 = .error c → Issues s { o true with cur := streamAgent g true } true (.fetchFault true c.code q.lpc))) ∧
  (s.agenda = [] → s.cur = .rennet u → ∀ r rest w, (s.unitAt u).queue = r :: rest → r.state = 1 → r.prog[r.ctr]? = some w →
    decodeMicro w = .ok i → step s = exec i s)

/-- 03 R61, R64, R72, 10 R258, 14 R355, R356: a step runs the instruction decoded, and a slot changes nothing else but counts. -/
def Obligations.StepRunsDecoded : Prop := Claims.StepsDecoded ∧ Claims.SlotsOnlyCount

/-- 00, 04 R104 (DEDUCED, log entry 6): nothing stops the machine: every step from every state has a next state, and so has every
instruction. -/
def Obligations.NothingStops : Prop := ∀ s : State, (∃ t, step s = .next t) ∧ ∀ i : Instr, ∃ t, exec i s = .next t

/-- 19 R450, 00 R5: after cold reset the machine is in start stage 0 with nothing placed, no memory or token poisoned or listed, and the
registers that the spec gives a reset value hold it; its memory has the canonical form. That unwritten memory reads as `unwritten` is
the model's choice (log entry 1). -/
def Obligations.ResetState : Prop :=
  let s := State.reset
  s.stage = 0 ∧ s.failed = false ∧ s.groups = [] ∧ s.teams = [] ∧ s.clusters = [] ∧ s.tokn = 0 ∧ s.tokbase = 0 ∧ s.lwmiss = 0 ∧ s.l2priv = false ∧
  (∀ p, (s.partAt p).pevthr = 1000000 ∧ (s.partAt p).pspawntmr = 2048 ∧ (s.partAt p).ptrygrace = 8192 ∧ (s.partAt p).ppressgate = 16384 ∧
    (s.partAt p).presage = 10000 ∧ (s.partAt p).pagestep = 1000 ∧ (s.partAt p).pwaymask = 0xFFFF ∧ (s.partAt p).pfqen = false) ∧
  (∀ q, (s.queueAt q).en = false ∧ (s.queueAt q).assignV = false ∧ (s.queueAt q).priocap = 7) ∧
  s.ras.rowthr = 8 ∧ s.ras.bankthr = 256 ∧ s.ras.passh = 24 ∧ s.ras.postpone = 4 ∧ s.ras.level = 64 ∧ s.links.en = false ∧ s.links.devnum = 0 ∧
  (∀ a, s.byteAt a = unwritten ∧ s.badAt a = false) ∧ s.memWf = true

/-- 09 R235, R236: device memory, its poison bits and host memory keep their canonical form through every step from every state. -/
def Obligations.StepKeepsMemory : Prop := ∀ s t : State, s.memWf = true → step s = .next t → t.memWf = true
end

