-- ==== Sys2Proof/Laws/Map.lean ====
section
/-! SUPPORT. Laws of sparse maps: reading after writing, and the canonical form. -/

namespace Sys2Proof.Machine

section
variable {α : Type}

@[simp] theorem KMap.find_put_same (k : Nat) (v : α) (m : KMap α) : KMap.find k (KMap.put k v m) = some v := by
  induction m with
  | nil => simp [KMap.put, KMap.find]
  | cons e m ih =>
    obtain ⟨j, w⟩ := e
    by_cases h1 : k < j
    · simp [KMap.put, h1, KMap.find]
    · by_cases h2 : j = k <;> simp [KMap.put, h1, h2, KMap.find, ih]

theorem KMap.find_put_other {k j : Nat} (h : k ≠ j) (v : α) (m : KMap α) :
    KMap.find k (KMap.put j v m) = KMap.find k m := by
  induction m with
  | nil => simp [KMap.put, KMap.find, Ne.symm h]
  | cons e m ih =>
    obtain ⟨i, w⟩ := e
    by_cases h1 : j < i
    · simp [KMap.put, h1, KMap.find, Ne.symm h]
    · by_cases h2 : i = j
      · subst h2; simp [KMap.put, KMap.find, Ne.symm h]
      · simp [KMap.put, h1, h2, KMap.find, ih]

@[simp] theorem KMap.find_del_same (k : Nat) (m : KMap α) : KMap.find k (KMap.del k m) = none := by
  induction m with
  | nil => rfl
  | cons e m ih =>
    obtain ⟨j, w⟩ := e
    by_cases h : j = k <;> simp [KMap.del, h, KMap.find, ih]

theorem KMap.find_del_other {k j : Nat} (h : k ≠ j) (m : KMap α) : KMap.find k (KMap.del j m) = KMap.find k m := by
  induction m with
  | nil => rfl
  | cons e m ih =>
    obtain ⟨i, w⟩ := e
    by_cases h2 : i = j
    · subst h2; simp [KMap.del, KMap.find, ih, Ne.symm h]
    · simp [KMap.del, h2, KMap.find, ih]

@[simp] theorem KMap.put_put (k : Nat) (v w : α) (m : KMap α) : KMap.put k v (KMap.put k w m) = KMap.put k v m := by
  induction m with
  | nil => simp [KMap.put]
  | cons e m ih =>
    obtain ⟨j, u⟩ := e
    by_cases h1 : k < j
    · simp [KMap.put, h1]
    · by_cases h2 : j = k <;> simp [KMap.put, h1, h2, ih]

@[simp] theorem KMap.read_put_same (d : α) (k : Nat) (v : α) (m : KMap α) : KMap.read d k (KMap.put k v m) = v := by
  simp [KMap.read]

theorem KMap.read_put_other (d : α) {k j : Nat} (h : k ≠ j) (v : α) (m : KMap α) :
    KMap.read d k (KMap.put j v m) = KMap.read d k m := by
  simp [KMap.read, KMap.find_put_other h]

@[simp] theorem KMap.read_nil (d : α) (k : Nat) : KMap.read d k [] = d := rfl

/-! ## The canonical form -/

/-- Every key of a map is above a number. -/
def KMap.above (k : Nat) (m : KMap α) : Prop := ∀ e ∈ m, k < e.1

theorem KMap.rising_cons (j : Nat) (v : α) (m : KMap α) : KMap.rising ((j, v) :: m) = true ↔ KMap.above j m ∧ KMap.rising m = true := by
  induction m generalizing j v with
  | nil => simp [KMap.rising, KMap.above]
  | cons e m ih =>
    obtain ⟨i, w⟩ := e
    simp only [KMap.rising, Bool.and_eq_true, decide_eq_true_eq, ih]
    constructor
    · rintro ⟨h, h1, h2⟩
      refine ⟨?_, h1, h2⟩
      intro x hx
      rcases List.mem_cons.mp hx with rfl | hx
      · exact h
      · exact lt_trans h (h1 x hx)
    · rintro ⟨h, h1, h2⟩
      exact ⟨h (i, w) (List.mem_cons_self ..), h1, h2⟩

theorem KMap.mem_put {k : Nat} {v : α} {m : KMap α} {e : Nat × α} (h : e ∈ KMap.put k v m) : e = (k, v) ∨ e ∈ m := by
  induction m with
  | nil => simpa [KMap.put] using h
  | cons f m ih =>
    obtain ⟨j, w⟩ := f
    by_cases h1 : k < j
    · simpa [KMap.put, h1] using h
    · by_cases h2 : j = k
      · simp only [KMap.put, h2, if_true, if_false, lt_irrefl, List.mem_cons] at h
        rcases h with h | h
        · exact .inl h
        · exact .inr (List.mem_cons_of_mem _ h)
      · simp only [KMap.put, h1, h2, if_false, List.mem_cons] at h
        rcases h with h | h
        · exact .inr (h ▸ List.mem_cons_self ..)
        · rcases ih h with h | h
          · exact .inl h
          · exact .inr (List.mem_cons_of_mem _ h)

theorem KMap.mem_del {k : Nat} {m : KMap α} {e : Nat × α} (h : e ∈ KMap.del k m) : e ∈ m := by
  induction m with
  | nil => exact h
  | cons f m ih =>
    obtain ⟨j, w⟩ := f
    by_cases h2 : j = k
    · simp only [KMap.del, h2, if_true] at h; exact List.mem_cons_of_mem _ (ih h)
    · simp only [KMap.del, h2, if_false, List.mem_cons] at h
      rcases h with h | h
      · exact h ▸ List.mem_cons_self ..
      · exact List.mem_cons_of_mem _ (ih h)

theorem KMap.rising_put (k : Nat) (v : α) (m : KMap α) (h : KMap.rising m = true) : KMap.rising (KMap.put k v m) = true := by
  induction m with
  | nil => rfl
  | cons e m ih =>
    obtain ⟨j, w⟩ := e
    obtain ⟨ha, hr⟩ := (KMap.rising_cons j w m).mp h
    by_cases h1 : k < j
    · simp only [KMap.put, h1, if_true]
      refine (KMap.rising_cons k v _).mpr ⟨?_, h⟩
      intro x hx
      rcases List.mem_cons.mp hx with rfl | hx
      · exact h1
      · exact lt_trans h1 (ha x hx)
    · by_cases h2 : j = k
      · subst h2
        simp only [KMap.put, lt_irrefl, if_false, if_true]
        exact (KMap.rising_cons j v m).mpr ⟨ha, hr⟩
      · simp only [KMap.put, h1, h2, if_false]
        refine (KMap.rising_cons j w _).mpr ⟨?_, ih hr⟩
        intro x hx
        rcases KMap.mem_put hx with rfl | hx
        · show j < k; omega
        · exact ha x hx

theorem KMap.rising_del (k : Nat) (m : KMap α) (h : KMap.rising m = true) : KMap.rising (KMap.del k m) = true := by
  induction m with
  | nil => rfl
  | cons e m ih =>
    obtain ⟨j, w⟩ := e
    obtain ⟨ha, hr⟩ := (KMap.rising_cons j w m).mp h
    by_cases h2 : j = k
    · simp only [KMap.del, h2, if_true]; exact ih hr
    · simp only [KMap.del, h2, if_false]
      exact (KMap.rising_cons j w _).mpr ⟨fun x hx => ha x (KMap.mem_del hx), ih hr⟩

variable [DecidableEq α]

@[simp] theorem KMap.read_write_same (d : α) (k : Nat) (v : α) (m : KMap α) : KMap.read d k (KMap.write d k v m) = v := by
  by_cases h : v = d <;> simp [KMap.write, h, KMap.read]

theorem KMap.read_write_other (d : α) {k j : Nat} (h : k ≠ j) (v : α) (m : KMap α) :
    KMap.read d k (KMap.write d j v m) = KMap.read d k m := by
  by_cases hv : v = d <;> simp [KMap.write, hv, KMap.read, KMap.find_put_other h, KMap.find_del_other h]

/-- A write keeps the canonical form. -/
theorem KMap.wf_write (d : α) (k : Nat) (v : α) (m : KMap α) (h : KMap.wf d m = true) : KMap.wf d (KMap.write d k v m) = true := by
  simp only [KMap.wf, Bool.and_eq_true, List.all_eq_true, decide_eq_true_eq] at h ⊢
  by_cases hv : v = d
  · simp only [KMap.write, hv, if_true]
    exact ⟨KMap.rising_del k m h.1, fun e he => h.2 e (KMap.mem_del he)⟩
  · simp only [KMap.write, hv, if_false]
    refine ⟨KMap.rising_put k v m h.1, fun e he => ?_⟩
    rcases KMap.mem_put he with rfl | he
    · exact hv
    · exact h.2 e he

/-- Taking entries out by any test keeps the canonical form. -/
theorem KMap.wf_filter (d : α) (p : Nat × α → Bool) (m : KMap α) (h : KMap.wf d m = true) : KMap.wf d (m.filter p) = true := by
  simp only [KMap.wf, Bool.and_eq_true, List.all_eq_true, decide_eq_true_eq] at h ⊢
  refine ⟨?_, fun e he => h.2 e (List.mem_filter.mp he).1⟩
  induction m with
  | nil => rfl
  | cons e m ih =>
    obtain ⟨j, w⟩ := e
    obtain ⟨ha, hr⟩ := (KMap.rising_cons j w m).mp h.1
    have hm := ih ⟨hr, fun e he => h.2 e (List.mem_cons_of_mem _ he)⟩
    by_cases hp : p (j, w)
    · simp only [List.filter, hp]
      exact (KMap.rising_cons j w _).mpr ⟨fun x hx => ha x (List.mem_filter.mp hx).1, hm⟩
    · simp only [List.filter, hp]; exact hm

end

end Sys2Proof.Machine
end

