-- ==== Sys2Proof/Laws/State.lean ====
section
/-! SUPPORT. What each update of the state does to each field: one lemma per field per update, and what its records read as after. -/

namespace Sys2Proof.Machine

section
variable (s : State) (g : Nat) (x : Group)
@[simp] theorem State.setGrp_agenda : (s.setGrp g x).agenda = s.agenda := rfl
@[simp] theorem State.setGrp_cur : (s.setGrp g x).cur = s.cur := rfl
@[simp] theorem State.setGrp_free : (s.setGrp g x).free = s.free := rfl
@[simp] theorem State.setGrp_now : (s.setGrp g x).now = s.now := rfl
@[simp] theorem State.setGrp_failed : (s.setGrp g x).failed = s.failed := rfl
@[simp] theorem State.setGrp_stage : (s.setGrp g x).stage = s.stage := rfl
@[simp] theorem State.setGrp_groups : (s.setGrp g x).groups = KMap.put g x s.groups := rfl
@[simp] theorem State.setGrp_residuals : (s.setGrp g x).residuals = s.residuals := rfl
@[simp] theorem State.setGrp_teams : (s.setGrp g x).teams = s.teams := rfl
@[simp] theorem State.setGrp_clusters : (s.setGrp g x).clusters = s.clusters := rfl
@[simp] theorem State.setGrp_cores : (s.setGrp g x).cores = s.cores := rfl
@[simp] theorem State.setGrp_rennets : (s.setGrp g x).rennets = s.rennets := rfl
@[simp] theorem State.setGrp_parts : (s.setGrp g x).parts = s.parts := rfl
@[simp] theorem State.setGrp_queues : (s.setGrp g x).queues = s.queues := rfl
@[simp] theorem State.setGrp_l2priv : (s.setGrp g x).l2priv = s.l2priv := rfl
@[simp] theorem State.setGrp_heldL2 : (s.setGrp g x).heldL2 = s.heldL2 := rfl
@[simp] theorem State.setGrp_tokbase : (s.setGrp g x).tokbase = s.tokbase := rfl
@[simp] theorem State.setGrp_tokn : (s.setGrp g x).tokn = s.tokn := rfl
@[simp] theorem State.setGrp_mem : (s.setGrp g x).mem = s.mem := rfl
@[simp] theorem State.setGrp_poison : (s.setGrp g x).poison = s.poison := rfl
@[simp] theorem State.setGrp_l2 : (s.setGrp g x).l2 = s.l2 := rfl
@[simp] theorem State.setGrp_l2tlb : (s.setGrp g x).l2tlb = s.l2tlb := rfl
@[simp] theorem State.setGrp_hostMem : (s.setGrp g x).hostMem = s.hostMem := rfl
@[simp] theorem State.setGrp_joins : (s.setGrp g x).joins = s.joins := rfl
@[simp] theorem State.setGrp_check : (s.setGrp g x).check = s.check := rfl
@[simp] theorem State.setGrp_beneath : (s.setGrp g x).beneath = s.beneath := rfl
@[simp] theorem State.setGrp_checkBad : (s.setGrp g x).checkBad = s.checkBad := rfl
@[simp] theorem State.setGrp_hostBad : (s.setGrp g x).hostBad = s.hostBad := rfl
@[simp] theorem State.setGrp_proxy : (s.setGrp g x).proxy = s.proxy := rfl
@[simp] theorem State.setGrp_casts : (s.setGrp g x).casts = s.casts := rfl
@[simp] theorem State.setGrp_nextJoin : (s.setGrp g x).nextJoin = s.nextJoin := rfl
@[simp] theorem State.setGrp_turner : (s.setGrp g x).turner = s.turner := rfl
@[simp] theorem State.setGrp_ppr : (s.setGrp g x).ppr = s.ppr := rfl
@[simp] theorem State.setGrp_caps : (s.setGrp g x).caps = s.caps := rfl
@[simp] theorem State.setGrp_ras : (s.setGrp g x).ras = s.ras := rfl
@[simp] theorem State.setGrp_landing : (s.setGrp g x).landing = s.landing := rfl
@[simp] theorem State.setGrp_lwmiss : (s.setGrp g x).lwmiss = s.lwmiss := rfl
@[simp] theorem State.setGrp_links : (s.setGrp g x).links = s.links := rfl
@[simp] theorem State.setGrp_mail : (s.setGrp g x).mail = s.mail := rfl
@[simp] theorem State.setGrp_msix : (s.setGrp g x).msix = s.msix := rfl
@[simp] theorem State.setGrp_answers : (s.setGrp g x).answers = s.answers := rfl
end

section
variable (s : State) (t : Nat) (x : Team)
@[simp] theorem State.setTm_agenda : (s.setTm t x).agenda = s.agenda := rfl
@[simp] theorem State.setTm_cur : (s.setTm t x).cur = s.cur := rfl
@[simp] theorem State.setTm_free : (s.setTm t x).free = s.free := rfl
@[simp] theorem State.setTm_now : (s.setTm t x).now = s.now := rfl
@[simp] theorem State.setTm_failed : (s.setTm t x).failed = s.failed := rfl
@[simp] theorem State.setTm_stage : (s.setTm t x).stage = s.stage := rfl
@[simp] theorem State.setTm_groups : (s.setTm t x).groups = s.groups := rfl
@[simp] theorem State.setTm_residuals : (s.setTm t x).residuals = s.residuals := rfl
@[simp] theorem State.setTm_teams : (s.setTm t x).teams = KMap.put t x s.teams := rfl
@[simp] theorem State.setTm_clusters : (s.setTm t x).clusters = s.clusters := rfl
@[simp] theorem State.setTm_cores : (s.setTm t x).cores = s.cores := rfl
@[simp] theorem State.setTm_rennets : (s.setTm t x).rennets = s.rennets := rfl
@[simp] theorem State.setTm_parts : (s.setTm t x).parts = s.parts := rfl
@[simp] theorem State.setTm_queues : (s.setTm t x).queues = s.queues := rfl
@[simp] theorem State.setTm_l2priv : (s.setTm t x).l2priv = s.l2priv := rfl
@[simp] theorem State.setTm_heldL2 : (s.setTm t x).heldL2 = s.heldL2 := rfl
@[simp] theorem State.setTm_tokbase : (s.setTm t x).tokbase = s.tokbase := rfl
@[simp] theorem State.setTm_tokn : (s.setTm t x).tokn = s.tokn := rfl
@[simp] theorem State.setTm_mem : (s.setTm t x).mem = s.mem := rfl
@[simp] theorem State.setTm_poison : (s.setTm t x).poison = s.poison := rfl
@[simp] theorem State.setTm_l2 : (s.setTm t x).l2 = s.l2 := rfl
@[simp] theorem State.setTm_l2tlb : (s.setTm t x).l2tlb = s.l2tlb := rfl
@[simp] theorem State.setTm_hostMem : (s.setTm t x).hostMem = s.hostMem := rfl
@[simp] theorem State.setTm_joins : (s.setTm t x).joins = s.joins := rfl
@[simp] theorem State.setTm_check : (s.setTm t x).check = s.check := rfl
@[simp] theorem State.setTm_beneath : (s.setTm t x).beneath = s.beneath := rfl
@[simp] theorem State.setTm_checkBad : (s.setTm t x).checkBad = s.checkBad := rfl
@[simp] theorem State.setTm_hostBad : (s.setTm t x).hostBad = s.hostBad := rfl
@[simp] theorem State.setTm_proxy : (s.setTm t x).proxy = s.proxy := rfl
@[simp] theorem State.setTm_casts : (s.setTm t x).casts = s.casts := rfl
@[simp] theorem State.setTm_nextJoin : (s.setTm t x).nextJoin = s.nextJoin := rfl
@[simp] theorem State.setTm_turner : (s.setTm t x).turner = s.turner := rfl
@[simp] theorem State.setTm_ppr : (s.setTm t x).ppr = s.ppr := rfl
@[simp] theorem State.setTm_caps : (s.setTm t x).caps = s.caps := rfl
@[simp] theorem State.setTm_ras : (s.setTm t x).ras = s.ras := rfl
@[simp] theorem State.setTm_landing : (s.setTm t x).landing = s.landing := rfl
@[simp] theorem State.setTm_lwmiss : (s.setTm t x).lwmiss = s.lwmiss := rfl
@[simp] theorem State.setTm_links : (s.setTm t x).links = s.links := rfl
@[simp] theorem State.setTm_mail : (s.setTm t x).mail = s.mail := rfl
@[simp] theorem State.setTm_msix : (s.setTm t x).msix = s.msix := rfl
@[simp] theorem State.setTm_answers : (s.setTm t x).answers = s.answers := rfl
end

section
variable (s : State) (c : Nat) (x : Cluster)
@[simp] theorem State.setCl_agenda : (s.setCl c x).agenda = s.agenda := rfl
@[simp] theorem State.setCl_cur : (s.setCl c x).cur = s.cur := rfl
@[simp] theorem State.setCl_free : (s.setCl c x).free = s.free := rfl
@[simp] theorem State.setCl_now : (s.setCl c x).now = s.now := rfl
@[simp] theorem State.setCl_failed : (s.setCl c x).failed = s.failed := rfl
@[simp] theorem State.setCl_stage : (s.setCl c x).stage = s.stage := rfl
@[simp] theorem State.setCl_groups : (s.setCl c x).groups = s.groups := rfl
@[simp] theorem State.setCl_residuals : (s.setCl c x).residuals = s.residuals := rfl
@[simp] theorem State.setCl_teams : (s.setCl c x).teams = s.teams := rfl
@[simp] theorem State.setCl_clusters : (s.setCl c x).clusters = KMap.put c x s.clusters := rfl
@[simp] theorem State.setCl_cores : (s.setCl c x).cores = s.cores := rfl
@[simp] theorem State.setCl_rennets : (s.setCl c x).rennets = s.rennets := rfl
@[simp] theorem State.setCl_parts : (s.setCl c x).parts = s.parts := rfl
@[simp] theorem State.setCl_queues : (s.setCl c x).queues = s.queues := rfl
@[simp] theorem State.setCl_l2priv : (s.setCl c x).l2priv = s.l2priv := rfl
@[simp] theorem State.setCl_heldL2 : (s.setCl c x).heldL2 = s.heldL2 := rfl
@[simp] theorem State.setCl_tokbase : (s.setCl c x).tokbase = s.tokbase := rfl
@[simp] theorem State.setCl_tokn : (s.setCl c x).tokn = s.tokn := rfl
@[simp] theorem State.setCl_mem : (s.setCl c x).mem = s.mem := rfl
@[simp] theorem State.setCl_poison : (s.setCl c x).poison = s.poison := rfl
@[simp] theorem State.setCl_l2 : (s.setCl c x).l2 = s.l2 := rfl
@[simp] theorem State.setCl_l2tlb : (s.setCl c x).l2tlb = s.l2tlb := rfl
@[simp] theorem State.setCl_hostMem : (s.setCl c x).hostMem = s.hostMem := rfl
@[simp] theorem State.setCl_joins : (s.setCl c x).joins = s.joins := rfl
@[simp] theorem State.setCl_check : (s.setCl c x).check = s.check := rfl
@[simp] theorem State.setCl_beneath : (s.setCl c x).beneath = s.beneath := rfl
@[simp] theorem State.setCl_checkBad : (s.setCl c x).checkBad = s.checkBad := rfl
@[simp] theorem State.setCl_hostBad : (s.setCl c x).hostBad = s.hostBad := rfl
@[simp] theorem State.setCl_proxy : (s.setCl c x).proxy = s.proxy := rfl
@[simp] theorem State.setCl_casts : (s.setCl c x).casts = s.casts := rfl
@[simp] theorem State.setCl_nextJoin : (s.setCl c x).nextJoin = s.nextJoin := rfl
@[simp] theorem State.setCl_turner : (s.setCl c x).turner = s.turner := rfl
@[simp] theorem State.setCl_ppr : (s.setCl c x).ppr = s.ppr := rfl
@[simp] theorem State.setCl_caps : (s.setCl c x).caps = s.caps := rfl
@[simp] theorem State.setCl_ras : (s.setCl c x).ras = s.ras := rfl
@[simp] theorem State.setCl_landing : (s.setCl c x).landing = s.landing := rfl
@[simp] theorem State.setCl_lwmiss : (s.setCl c x).lwmiss = s.lwmiss := rfl
@[simp] theorem State.setCl_links : (s.setCl c x).links = s.links := rfl
@[simp] theorem State.setCl_mail : (s.setCl c x).mail = s.mail := rfl
@[simp] theorem State.setCl_msix : (s.setCl c x).msix = s.msix := rfl
@[simp] theorem State.setCl_answers : (s.setCl c x).answers = s.answers := rfl
end

section
variable (s : State) (n : Nat) (x : Core)
@[simp] theorem State.setCore_agenda : (s.setCore n x).agenda = s.agenda := rfl
@[simp] theorem State.setCore_cur : (s.setCore n x).cur = s.cur := rfl
@[simp] theorem State.setCore_free : (s.setCore n x).free = s.free := rfl
@[simp] theorem State.setCore_now : (s.setCore n x).now = s.now := rfl
@[simp] theorem State.setCore_failed : (s.setCore n x).failed = s.failed := rfl
@[simp] theorem State.setCore_stage : (s.setCore n x).stage = s.stage := rfl
@[simp] theorem State.setCore_groups : (s.setCore n x).groups = s.groups := rfl
@[simp] theorem State.setCore_residuals : (s.setCore n x).residuals = s.residuals := rfl
@[simp] theorem State.setCore_teams : (s.setCore n x).teams = s.teams := rfl
@[simp] theorem State.setCore_clusters : (s.setCore n x).clusters = s.clusters := rfl
@[simp] theorem State.setCore_cores : (s.setCore n x).cores = KMap.put n x s.cores := rfl
@[simp] theorem State.setCore_rennets : (s.setCore n x).rennets = s.rennets := rfl
@[simp] theorem State.setCore_parts : (s.setCore n x).parts = s.parts := rfl
@[simp] theorem State.setCore_queues : (s.setCore n x).queues = s.queues := rfl
@[simp] theorem State.setCore_l2priv : (s.setCore n x).l2priv = s.l2priv := rfl
@[simp] theorem State.setCore_heldL2 : (s.setCore n x).heldL2 = s.heldL2 := rfl
@[simp] theorem State.setCore_tokbase : (s.setCore n x).tokbase = s.tokbase := rfl
@[simp] theorem State.setCore_tokn : (s.setCore n x).tokn = s.tokn := rfl
@[simp] theorem State.setCore_mem : (s.setCore n x).mem = s.mem := rfl
@[simp] theorem State.setCore_poison : (s.setCore n x).poison = s.poison := rfl
@[simp] theorem State.setCore_l2 : (s.setCore n x).l2 = s.l2 := rfl
@[simp] theorem State.setCore_l2tlb : (s.setCore n x).l2tlb = s.l2tlb := rfl
@[simp] theorem State.setCore_hostMem : (s.setCore n x).hostMem = s.hostMem := rfl
@[simp] theorem State.setCore_joins : (s.setCore n x).joins = s.joins := rfl
@[simp] theorem State.setCore_check : (s.setCore n x).check = s.check := rfl
@[simp] theorem State.setCore_beneath : (s.setCore n x).beneath = s.beneath := rfl
@[simp] theorem State.setCore_checkBad : (s.setCore n x).checkBad = s.checkBad := rfl
@[simp] theorem State.setCore_hostBad : (s.setCore n x).hostBad = s.hostBad := rfl
@[simp] theorem State.setCore_proxy : (s.setCore n x).proxy = s.proxy := rfl
@[simp] theorem State.setCore_casts : (s.setCore n x).casts = s.casts := rfl
@[simp] theorem State.setCore_nextJoin : (s.setCore n x).nextJoin = s.nextJoin := rfl
@[simp] theorem State.setCore_turner : (s.setCore n x).turner = s.turner := rfl
@[simp] theorem State.setCore_ppr : (s.setCore n x).ppr = s.ppr := rfl
@[simp] theorem State.setCore_caps : (s.setCore n x).caps = s.caps := rfl
@[simp] theorem State.setCore_ras : (s.setCore n x).ras = s.ras := rfl
@[simp] theorem State.setCore_landing : (s.setCore n x).landing = s.landing := rfl
@[simp] theorem State.setCore_lwmiss : (s.setCore n x).lwmiss = s.lwmiss := rfl
@[simp] theorem State.setCore_links : (s.setCore n x).links = s.links := rfl
@[simp] theorem State.setCore_mail : (s.setCore n x).mail = s.mail := rfl
@[simp] theorem State.setCore_msix : (s.setCore n x).msix = s.msix := rfl
@[simp] theorem State.setCore_answers : (s.setCore n x).answers = s.answers := rfl
end

section
variable (s : State) (g : Nat) (f : Group → Group)
@[simp] theorem State.onGrp_agenda : (s.onGrp g f).agenda = s.agenda := rfl
@[simp] theorem State.onGrp_cur : (s.onGrp g f).cur = s.cur := rfl
@[simp] theorem State.onGrp_free : (s.onGrp g f).free = s.free := rfl
@[simp] theorem State.onGrp_now : (s.onGrp g f).now = s.now := rfl
@[simp] theorem State.onGrp_failed : (s.onGrp g f).failed = s.failed := rfl
@[simp] theorem State.onGrp_stage : (s.onGrp g f).stage = s.stage := rfl
@[simp] theorem State.onGrp_groups : (s.onGrp g f).groups = KMap.put g (f (s.grp g)) s.groups := rfl
@[simp] theorem State.onGrp_residuals : (s.onGrp g f).residuals = s.residuals := rfl
@[simp] theorem State.onGrp_teams : (s.onGrp g f).teams = s.teams := rfl
@[simp] theorem State.onGrp_clusters : (s.onGrp g f).clusters = s.clusters := rfl
@[simp] theorem State.onGrp_cores : (s.onGrp g f).cores = s.cores := rfl
@[simp] theorem State.onGrp_rennets : (s.onGrp g f).rennets = s.rennets := rfl
@[simp] theorem State.onGrp_parts : (s.onGrp g f).parts = s.parts := rfl
@[simp] theorem State.onGrp_queues : (s.onGrp g f).queues = s.queues := rfl
@[simp] theorem State.onGrp_l2priv : (s.onGrp g f).l2priv = s.l2priv := rfl
@[simp] theorem State.onGrp_heldL2 : (s.onGrp g f).heldL2 = s.heldL2 := rfl
@[simp] theorem State.onGrp_tokbase : (s.onGrp g f).tokbase = s.tokbase := rfl
@[simp] theorem State.onGrp_tokn : (s.onGrp g f).tokn = s.tokn := rfl
@[simp] theorem State.onGrp_mem : (s.onGrp g f).mem = s.mem := rfl
@[simp] theorem State.onGrp_poison : (s.onGrp g f).poison = s.poison := rfl
@[simp] theorem State.onGrp_l2 : (s.onGrp g f).l2 = s.l2 := rfl
@[simp] theorem State.onGrp_l2tlb : (s.onGrp g f).l2tlb = s.l2tlb := rfl
@[simp] theorem State.onGrp_hostMem : (s.onGrp g f).hostMem = s.hostMem := rfl
@[simp] theorem State.onGrp_joins : (s.onGrp g f).joins = s.joins := rfl
@[simp] theorem State.onGrp_check : (s.onGrp g f).check = s.check := rfl
@[simp] theorem State.onGrp_beneath : (s.onGrp g f).beneath = s.beneath := rfl
@[simp] theorem State.onGrp_checkBad : (s.onGrp g f).checkBad = s.checkBad := rfl
@[simp] theorem State.onGrp_hostBad : (s.onGrp g f).hostBad = s.hostBad := rfl
@[simp] theorem State.onGrp_proxy : (s.onGrp g f).proxy = s.proxy := rfl
@[simp] theorem State.onGrp_casts : (s.onGrp g f).casts = s.casts := rfl
@[simp] theorem State.onGrp_nextJoin : (s.onGrp g f).nextJoin = s.nextJoin := rfl
@[simp] theorem State.onGrp_turner : (s.onGrp g f).turner = s.turner := rfl
@[simp] theorem State.onGrp_ppr : (s.onGrp g f).ppr = s.ppr := rfl
@[simp] theorem State.onGrp_caps : (s.onGrp g f).caps = s.caps := rfl
@[simp] theorem State.onGrp_ras : (s.onGrp g f).ras = s.ras := rfl
@[simp] theorem State.onGrp_landing : (s.onGrp g f).landing = s.landing := rfl
@[simp] theorem State.onGrp_lwmiss : (s.onGrp g f).lwmiss = s.lwmiss := rfl
@[simp] theorem State.onGrp_links : (s.onGrp g f).links = s.links := rfl
@[simp] theorem State.onGrp_mail : (s.onGrp g f).mail = s.mail := rfl
@[simp] theorem State.onGrp_msix : (s.onGrp g f).msix = s.msix := rfl
@[simp] theorem State.onGrp_answers : (s.onGrp g f).answers = s.answers := rfl
end

section
variable (s : State) (t : Nat) (f : Team → Team)
@[simp] theorem State.onTm_agenda : (s.onTm t f).agenda = s.agenda := rfl
@[simp] theorem State.onTm_cur : (s.onTm t f).cur = s.cur := rfl
@[simp] theorem State.onTm_free : (s.onTm t f).free = s.free := rfl
@[simp] theorem State.onTm_now : (s.onTm t f).now = s.now := rfl
@[simp] theorem State.onTm_failed : (s.onTm t f).failed = s.failed := rfl
@[simp] theorem State.onTm_stage : (s.onTm t f).stage = s.stage := rfl
@[simp] theorem State.onTm_groups : (s.onTm t f).groups = s.groups := rfl
@[simp] theorem State.onTm_residuals : (s.onTm t f).residuals = s.residuals := rfl
@[simp] theorem State.onTm_teams : (s.onTm t f).teams = KMap.put t (f (s.tm t)) s.teams := rfl
@[simp] theorem State.onTm_clusters : (s.onTm t f).clusters = s.clusters := rfl
@[simp] theorem State.onTm_cores : (s.onTm t f).cores = s.cores := rfl
@[simp] theorem State.onTm_rennets : (s.onTm t f).rennets = s.rennets := rfl
@[simp] theorem State.onTm_parts : (s.onTm t f).parts = s.parts := rfl
@[simp] theorem State.onTm_queues : (s.onTm t f).queues = s.queues := rfl
@[simp] theorem State.onTm_l2priv : (s.onTm t f).l2priv = s.l2priv := rfl
@[simp] theorem State.onTm_heldL2 : (s.onTm t f).heldL2 = s.heldL2 := rfl
@[simp] theorem State.onTm_tokbase : (s.onTm t f).tokbase = s.tokbase := rfl
@[simp] theorem State.onTm_tokn : (s.onTm t f).tokn = s.tokn := rfl
@[simp] theorem State.onTm_mem : (s.onTm t f).mem = s.mem := rfl
@[simp] theorem State.onTm_poison : (s.onTm t f).poison = s.poison := rfl
@[simp] theorem State.onTm_l2 : (s.onTm t f).l2 = s.l2 := rfl
@[simp] theorem State.onTm_l2tlb : (s.onTm t f).l2tlb = s.l2tlb := rfl
@[simp] theorem State.onTm_hostMem : (s.onTm t f).hostMem = s.hostMem := rfl
@[simp] theorem State.onTm_joins : (s.onTm t f).joins = s.joins := rfl
@[simp] theorem State.onTm_check : (s.onTm t f).check = s.check := rfl
@[simp] theorem State.onTm_beneath : (s.onTm t f).beneath = s.beneath := rfl
@[simp] theorem State.onTm_checkBad : (s.onTm t f).checkBad = s.checkBad := rfl
@[simp] theorem State.onTm_hostBad : (s.onTm t f).hostBad = s.hostBad := rfl
@[simp] theorem State.onTm_proxy : (s.onTm t f).proxy = s.proxy := rfl
@[simp] theorem State.onTm_casts : (s.onTm t f).casts = s.casts := rfl
@[simp] theorem State.onTm_nextJoin : (s.onTm t f).nextJoin = s.nextJoin := rfl
@[simp] theorem State.onTm_turner : (s.onTm t f).turner = s.turner := rfl
@[simp] theorem State.onTm_ppr : (s.onTm t f).ppr = s.ppr := rfl
@[simp] theorem State.onTm_caps : (s.onTm t f).caps = s.caps := rfl
@[simp] theorem State.onTm_ras : (s.onTm t f).ras = s.ras := rfl
@[simp] theorem State.onTm_landing : (s.onTm t f).landing = s.landing := rfl
@[simp] theorem State.onTm_lwmiss : (s.onTm t f).lwmiss = s.lwmiss := rfl
@[simp] theorem State.onTm_links : (s.onTm t f).links = s.links := rfl
@[simp] theorem State.onTm_mail : (s.onTm t f).mail = s.mail := rfl
@[simp] theorem State.onTm_msix : (s.onTm t f).msix = s.msix := rfl
@[simp] theorem State.onTm_answers : (s.onTm t f).answers = s.answers := rfl
end

section
variable (s : State) (c : Nat) (f : Cluster → Cluster)
@[simp] theorem State.onCl_agenda : (s.onCl c f).agenda = s.agenda := rfl
@[simp] theorem State.onCl_cur : (s.onCl c f).cur = s.cur := rfl
@[simp] theorem State.onCl_free : (s.onCl c f).free = s.free := rfl
@[simp] theorem State.onCl_now : (s.onCl c f).now = s.now := rfl
@[simp] theorem State.onCl_failed : (s.onCl c f).failed = s.failed := rfl
@[simp] theorem State.onCl_stage : (s.onCl c f).stage = s.stage := rfl
@[simp] theorem State.onCl_groups : (s.onCl c f).groups = s.groups := rfl
@[simp] theorem State.onCl_residuals : (s.onCl c f).residuals = s.residuals := rfl
@[simp] theorem State.onCl_teams : (s.onCl c f).teams = s.teams := rfl
@[simp] theorem State.onCl_clusters : (s.onCl c f).clusters = KMap.put c (f (s.cl c)) s.clusters := rfl
@[simp] theorem State.onCl_cores : (s.onCl c f).cores = s.cores := rfl
@[simp] theorem State.onCl_rennets : (s.onCl c f).rennets = s.rennets := rfl
@[simp] theorem State.onCl_parts : (s.onCl c f).parts = s.parts := rfl
@[simp] theorem State.onCl_queues : (s.onCl c f).queues = s.queues := rfl
@[simp] theorem State.onCl_l2priv : (s.onCl c f).l2priv = s.l2priv := rfl
@[simp] theorem State.onCl_heldL2 : (s.onCl c f).heldL2 = s.heldL2 := rfl
@[simp] theorem State.onCl_tokbase : (s.onCl c f).tokbase = s.tokbase := rfl
@[simp] theorem State.onCl_tokn : (s.onCl c f).tokn = s.tokn := rfl
@[simp] theorem State.onCl_mem : (s.onCl c f).mem = s.mem := rfl
@[simp] theorem State.onCl_poison : (s.onCl c f).poison = s.poison := rfl
@[simp] theorem State.onCl_l2 : (s.onCl c f).l2 = s.l2 := rfl
@[simp] theorem State.onCl_l2tlb : (s.onCl c f).l2tlb = s.l2tlb := rfl
@[simp] theorem State.onCl_hostMem : (s.onCl c f).hostMem = s.hostMem := rfl
@[simp] theorem State.onCl_joins : (s.onCl c f).joins = s.joins := rfl
@[simp] theorem State.onCl_check : (s.onCl c f).check = s.check := rfl
@[simp] theorem State.onCl_beneath : (s.onCl c f).beneath = s.beneath := rfl
@[simp] theorem State.onCl_checkBad : (s.onCl c f).checkBad = s.checkBad := rfl
@[simp] theorem State.onCl_hostBad : (s.onCl c f).hostBad = s.hostBad := rfl
@[simp] theorem State.onCl_proxy : (s.onCl c f).proxy = s.proxy := rfl
@[simp] theorem State.onCl_casts : (s.onCl c f).casts = s.casts := rfl
@[simp] theorem State.onCl_nextJoin : (s.onCl c f).nextJoin = s.nextJoin := rfl
@[simp] theorem State.onCl_turner : (s.onCl c f).turner = s.turner := rfl
@[simp] theorem State.onCl_ppr : (s.onCl c f).ppr = s.ppr := rfl
@[simp] theorem State.onCl_caps : (s.onCl c f).caps = s.caps := rfl
@[simp] theorem State.onCl_ras : (s.onCl c f).ras = s.ras := rfl
@[simp] theorem State.onCl_landing : (s.onCl c f).landing = s.landing := rfl
@[simp] theorem State.onCl_lwmiss : (s.onCl c f).lwmiss = s.lwmiss := rfl
@[simp] theorem State.onCl_links : (s.onCl c f).links = s.links := rfl
@[simp] theorem State.onCl_mail : (s.onCl c f).mail = s.mail := rfl
@[simp] theorem State.onCl_msix : (s.onCl c f).msix = s.msix := rfl
@[simp] theorem State.onCl_answers : (s.onCl c f).answers = s.answers := rfl
end

section
variable (s : State) (n : Nat) (f : Core → Core)
@[simp] theorem State.onCore_agenda : (s.onCore n f).agenda = s.agenda := rfl
@[simp] theorem State.onCore_cur : (s.onCore n f).cur = s.cur := rfl
@[simp] theorem State.onCore_free : (s.onCore n f).free = s.free := rfl
@[simp] theorem State.onCore_now : (s.onCore n f).now = s.now := rfl
@[simp] theorem State.onCore_failed : (s.onCore n f).failed = s.failed := rfl
@[simp] theorem State.onCore_stage : (s.onCore n f).stage = s.stage := rfl
@[simp] theorem State.onCore_groups : (s.onCore n f).groups = s.groups := rfl
@[simp] theorem State.onCore_residuals : (s.onCore n f).residuals = s.residuals := rfl
@[simp] theorem State.onCore_teams : (s.onCore n f).teams = s.teams := rfl
@[simp] theorem State.onCore_clusters : (s.onCore n f).clusters = s.clusters := rfl
@[simp] theorem State.onCore_cores : (s.onCore n f).cores = KMap.put n (f (s.coreAt n)) s.cores := rfl
@[simp] theorem State.onCore_rennets : (s.onCore n f).rennets = s.rennets := rfl
@[simp] theorem State.onCore_parts : (s.onCore n f).parts = s.parts := rfl
@[simp] theorem State.onCore_queues : (s.onCore n f).queues = s.queues := rfl
@[simp] theorem State.onCore_l2priv : (s.onCore n f).l2priv = s.l2priv := rfl
@[simp] theorem State.onCore_heldL2 : (s.onCore n f).heldL2 = s.heldL2 := rfl
@[simp] theorem State.onCore_tokbase : (s.onCore n f).tokbase = s.tokbase := rfl
@[simp] theorem State.onCore_tokn : (s.onCore n f).tokn = s.tokn := rfl
@[simp] theorem State.onCore_mem : (s.onCore n f).mem = s.mem := rfl
@[simp] theorem State.onCore_poison : (s.onCore n f).poison = s.poison := rfl
@[simp] theorem State.onCore_l2 : (s.onCore n f).l2 = s.l2 := rfl
@[simp] theorem State.onCore_l2tlb : (s.onCore n f).l2tlb = s.l2tlb := rfl
@[simp] theorem State.onCore_hostMem : (s.onCore n f).hostMem = s.hostMem := rfl
@[simp] theorem State.onCore_joins : (s.onCore n f).joins = s.joins := rfl
@[simp] theorem State.onCore_check : (s.onCore n f).check = s.check := rfl
@[simp] theorem State.onCore_beneath : (s.onCore n f).beneath = s.beneath := rfl
@[simp] theorem State.onCore_checkBad : (s.onCore n f).checkBad = s.checkBad := rfl
@[simp] theorem State.onCore_hostBad : (s.onCore n f).hostBad = s.hostBad := rfl
@[simp] theorem State.onCore_proxy : (s.onCore n f).proxy = s.proxy := rfl
@[simp] theorem State.onCore_casts : (s.onCore n f).casts = s.casts := rfl
@[simp] theorem State.onCore_nextJoin : (s.onCore n f).nextJoin = s.nextJoin := rfl
@[simp] theorem State.onCore_turner : (s.onCore n f).turner = s.turner := rfl
@[simp] theorem State.onCore_ppr : (s.onCore n f).ppr = s.ppr := rfl
@[simp] theorem State.onCore_caps : (s.onCore n f).caps = s.caps := rfl
@[simp] theorem State.onCore_ras : (s.onCore n f).ras = s.ras := rfl
@[simp] theorem State.onCore_landing : (s.onCore n f).landing = s.landing := rfl
@[simp] theorem State.onCore_lwmiss : (s.onCore n f).lwmiss = s.lwmiss := rfl
@[simp] theorem State.onCore_links : (s.onCore n f).links = s.links := rfl
@[simp] theorem State.onCore_mail : (s.onCore n f).mail = s.mail := rfl
@[simp] theorem State.onCore_msix : (s.onCore n f).msix = s.msix := rfl
@[simp] theorem State.onCore_answers : (s.onCore n f).answers = s.answers := rfl
end

section
variable (s : State) (n : Nat) (f : Core → Core)
@[simp] theorem State.withCore_agenda : (s.withCore n f).agenda = s.agenda := rfl
@[simp] theorem State.withCore_cur : (s.withCore n f).cur = s.cur := rfl
@[simp] theorem State.withCore_free : (s.withCore n f).free = s.free := rfl
@[simp] theorem State.withCore_now : (s.withCore n f).now = s.now := rfl
@[simp] theorem State.withCore_failed : (s.withCore n f).failed = s.failed := rfl
@[simp] theorem State.withCore_stage : (s.withCore n f).stage = s.stage := rfl
@[simp] theorem State.withCore_groups : (s.withCore n f).groups = s.groups := rfl
@[simp] theorem State.withCore_residuals : (s.withCore n f).residuals = s.residuals := rfl
@[simp] theorem State.withCore_teams : (s.withCore n f).teams = s.teams := rfl
@[simp] theorem State.withCore_clusters : (s.withCore n f).clusters = s.clusters := rfl
@[simp] theorem State.withCore_cores : (s.withCore n f).cores = KMap.adjust n f s.cores := rfl
@[simp] theorem State.withCore_rennets : (s.withCore n f).rennets = s.rennets := rfl
@[simp] theorem State.withCore_parts : (s.withCore n f).parts = s.parts := rfl
@[simp] theorem State.withCore_queues : (s.withCore n f).queues = s.queues := rfl
@[simp] theorem State.withCore_l2priv : (s.withCore n f).l2priv = s.l2priv := rfl
@[simp] theorem State.withCore_heldL2 : (s.withCore n f).heldL2 = s.heldL2 := rfl
@[simp] theorem State.withCore_tokbase : (s.withCore n f).tokbase = s.tokbase := rfl
@[simp] theorem State.withCore_tokn : (s.withCore n f).tokn = s.tokn := rfl
@[simp] theorem State.withCore_mem : (s.withCore n f).mem = s.mem := rfl
@[simp] theorem State.withCore_poison : (s.withCore n f).poison = s.poison := rfl
@[simp] theorem State.withCore_l2 : (s.withCore n f).l2 = s.l2 := rfl
@[simp] theorem State.withCore_l2tlb : (s.withCore n f).l2tlb = s.l2tlb := rfl
@[simp] theorem State.withCore_hostMem : (s.withCore n f).hostMem = s.hostMem := rfl
@[simp] theorem State.withCore_joins : (s.withCore n f).joins = s.joins := rfl
@[simp] theorem State.withCore_check : (s.withCore n f).check = s.check := rfl
@[simp] theorem State.withCore_beneath : (s.withCore n f).beneath = s.beneath := rfl
@[simp] theorem State.withCore_checkBad : (s.withCore n f).checkBad = s.checkBad := rfl
@[simp] theorem State.withCore_hostBad : (s.withCore n f).hostBad = s.hostBad := rfl
@[simp] theorem State.withCore_proxy : (s.withCore n f).proxy = s.proxy := rfl
@[simp] theorem State.withCore_casts : (s.withCore n f).casts = s.casts := rfl
@[simp] theorem State.withCore_nextJoin : (s.withCore n f).nextJoin = s.nextJoin := rfl
@[simp] theorem State.withCore_turner : (s.withCore n f).turner = s.turner := rfl
@[simp] theorem State.withCore_ppr : (s.withCore n f).ppr = s.ppr := rfl
@[simp] theorem State.withCore_caps : (s.withCore n f).caps = s.caps := rfl
@[simp] theorem State.withCore_ras : (s.withCore n f).ras = s.ras := rfl
@[simp] theorem State.withCore_landing : (s.withCore n f).landing = s.landing := rfl
@[simp] theorem State.withCore_lwmiss : (s.withCore n f).lwmiss = s.lwmiss := rfl
@[simp] theorem State.withCore_links : (s.withCore n f).links = s.links := rfl
@[simp] theorem State.withCore_mail : (s.withCore n f).mail = s.mail := rfl
@[simp] theorem State.withCore_msix : (s.withCore n f).msix = s.msix := rfl
@[simp] theorem State.withCore_answers : (s.withCore n f).answers = s.answers := rfl
end

section
variable (s : State) (u : Nat) (f : Rennet → Rennet)
@[simp] theorem State.onUnit_agenda : (s.onUnit u f).agenda = s.agenda := rfl
@[simp] theorem State.onUnit_cur : (s.onUnit u f).cur = s.cur := rfl
@[simp] theorem State.onUnit_free : (s.onUnit u f).free = s.free := rfl
@[simp] theorem State.onUnit_now : (s.onUnit u f).now = s.now := rfl
@[simp] theorem State.onUnit_failed : (s.onUnit u f).failed = s.failed := rfl
@[simp] theorem State.onUnit_stage : (s.onUnit u f).stage = s.stage := rfl
@[simp] theorem State.onUnit_groups : (s.onUnit u f).groups = s.groups := rfl
@[simp] theorem State.onUnit_residuals : (s.onUnit u f).residuals = s.residuals := rfl
@[simp] theorem State.onUnit_teams : (s.onUnit u f).teams = s.teams := rfl
@[simp] theorem State.onUnit_clusters : (s.onUnit u f).clusters = s.clusters := rfl
@[simp] theorem State.onUnit_cores : (s.onUnit u f).cores = s.cores := rfl
@[simp] theorem State.onUnit_rennets : (s.onUnit u f).rennets = KMap.put u (f (s.unitAt u)) s.rennets := rfl
@[simp] theorem State.onUnit_parts : (s.onUnit u f).parts = s.parts := rfl
@[simp] theorem State.onUnit_queues : (s.onUnit u f).queues = s.queues := rfl
@[simp] theorem State.onUnit_l2priv : (s.onUnit u f).l2priv = s.l2priv := rfl
@[simp] theorem State.onUnit_heldL2 : (s.onUnit u f).heldL2 = s.heldL2 := rfl
@[simp] theorem State.onUnit_tokbase : (s.onUnit u f).tokbase = s.tokbase := rfl
@[simp] theorem State.onUnit_tokn : (s.onUnit u f).tokn = s.tokn := rfl
@[simp] theorem State.onUnit_mem : (s.onUnit u f).mem = s.mem := rfl
@[simp] theorem State.onUnit_poison : (s.onUnit u f).poison = s.poison := rfl
@[simp] theorem State.onUnit_l2 : (s.onUnit u f).l2 = s.l2 := rfl
@[simp] theorem State.onUnit_l2tlb : (s.onUnit u f).l2tlb = s.l2tlb := rfl
@[simp] theorem State.onUnit_hostMem : (s.onUnit u f).hostMem = s.hostMem := rfl
@[simp] theorem State.onUnit_joins : (s.onUnit u f).joins = s.joins := rfl
@[simp] theorem State.onUnit_check : (s.onUnit u f).check = s.check := rfl
@[simp] theorem State.onUnit_beneath : (s.onUnit u f).beneath = s.beneath := rfl
@[simp] theorem State.onUnit_checkBad : (s.onUnit u f).checkBad = s.checkBad := rfl
@[simp] theorem State.onUnit_hostBad : (s.onUnit u f).hostBad = s.hostBad := rfl
@[simp] theorem State.onUnit_proxy : (s.onUnit u f).proxy = s.proxy := rfl
@[simp] theorem State.onUnit_casts : (s.onUnit u f).casts = s.casts := rfl
@[simp] theorem State.onUnit_nextJoin : (s.onUnit u f).nextJoin = s.nextJoin := rfl
@[simp] theorem State.onUnit_turner : (s.onUnit u f).turner = s.turner := rfl
@[simp] theorem State.onUnit_ppr : (s.onUnit u f).ppr = s.ppr := rfl
@[simp] theorem State.onUnit_caps : (s.onUnit u f).caps = s.caps := rfl
@[simp] theorem State.onUnit_ras : (s.onUnit u f).ras = s.ras := rfl
@[simp] theorem State.onUnit_landing : (s.onUnit u f).landing = s.landing := rfl
@[simp] theorem State.onUnit_lwmiss : (s.onUnit u f).lwmiss = s.lwmiss := rfl
@[simp] theorem State.onUnit_links : (s.onUnit u f).links = s.links := rfl
@[simp] theorem State.onUnit_mail : (s.onUnit u f).mail = s.mail := rfl
@[simp] theorem State.onUnit_msix : (s.onUnit u f).msix = s.msix := rfl
@[simp] theorem State.onUnit_answers : (s.onUnit u f).answers = s.answers := rfl
end

section
variable (s : State) (p : Nat) (f : Partition → Partition)
@[simp] theorem State.onPart_agenda : (s.onPart p f).agenda = s.agenda := rfl
@[simp] theorem State.onPart_cur : (s.onPart p f).cur = s.cur := rfl
@[simp] theorem State.onPart_free : (s.onPart p f).free = s.free := rfl
@[simp] theorem State.onPart_now : (s.onPart p f).now = s.now := rfl
@[simp] theorem State.onPart_failed : (s.onPart p f).failed = s.failed := rfl
@[simp] theorem State.onPart_stage : (s.onPart p f).stage = s.stage := rfl
@[simp] theorem State.onPart_groups : (s.onPart p f).groups = s.groups := rfl
@[simp] theorem State.onPart_residuals : (s.onPart p f).residuals = s.residuals := rfl
@[simp] theorem State.onPart_teams : (s.onPart p f).teams = s.teams := rfl
@[simp] theorem State.onPart_clusters : (s.onPart p f).clusters = s.clusters := rfl
@[simp] theorem State.onPart_cores : (s.onPart p f).cores = s.cores := rfl
@[simp] theorem State.onPart_rennets : (s.onPart p f).rennets = s.rennets := rfl
@[simp] theorem State.onPart_parts : (s.onPart p f).parts = KMap.put p (f (s.partAt p)) s.parts := rfl
@[simp] theorem State.onPart_queues : (s.onPart p f).queues = s.queues := rfl
@[simp] theorem State.onPart_l2priv : (s.onPart p f).l2priv = s.l2priv := rfl
@[simp] theorem State.onPart_heldL2 : (s.onPart p f).heldL2 = s.heldL2 := rfl
@[simp] theorem State.onPart_tokbase : (s.onPart p f).tokbase = s.tokbase := rfl
@[simp] theorem State.onPart_tokn : (s.onPart p f).tokn = s.tokn := rfl
@[simp] theorem State.onPart_mem : (s.onPart p f).mem = s.mem := rfl
@[simp] theorem State.onPart_poison : (s.onPart p f).poison = s.poison := rfl
@[simp] theorem State.onPart_l2 : (s.onPart p f).l2 = s.l2 := rfl
@[simp] theorem State.onPart_l2tlb : (s.onPart p f).l2tlb = s.l2tlb := rfl
@[simp] theorem State.onPart_hostMem : (s.onPart p f).hostMem = s.hostMem := rfl
@[simp] theorem State.onPart_joins : (s.onPart p f).joins = s.joins := rfl
@[simp] theorem State.onPart_check : (s.onPart p f).check = s.check := rfl
@[simp] theorem State.onPart_beneath : (s.onPart p f).beneath = s.beneath := rfl
@[simp] theorem State.onPart_checkBad : (s.onPart p f).checkBad = s.checkBad := rfl
@[simp] theorem State.onPart_hostBad : (s.onPart p f).hostBad = s.hostBad := rfl
@[simp] theorem State.onPart_proxy : (s.onPart p f).proxy = s.proxy := rfl
@[simp] theorem State.onPart_casts : (s.onPart p f).casts = s.casts := rfl
@[simp] theorem State.onPart_nextJoin : (s.onPart p f).nextJoin = s.nextJoin := rfl
@[simp] theorem State.onPart_turner : (s.onPart p f).turner = s.turner := rfl
@[simp] theorem State.onPart_ppr : (s.onPart p f).ppr = s.ppr := rfl
@[simp] theorem State.onPart_caps : (s.onPart p f).caps = s.caps := rfl
@[simp] theorem State.onPart_ras : (s.onPart p f).ras = s.ras := rfl
@[simp] theorem State.onPart_landing : (s.onPart p f).landing = s.landing := rfl
@[simp] theorem State.onPart_lwmiss : (s.onPart p f).lwmiss = s.lwmiss := rfl
@[simp] theorem State.onPart_links : (s.onPart p f).links = s.links := rfl
@[simp] theorem State.onPart_mail : (s.onPart p f).mail = s.mail := rfl
@[simp] theorem State.onPart_msix : (s.onPart p f).msix = s.msix := rfl
@[simp] theorem State.onPart_answers : (s.onPart p f).answers = s.answers := rfl
end

section
variable (s : State) (q : Nat) (f : HostQueue → HostQueue)
@[simp] theorem State.onQueue_agenda : (s.onQueue q f).agenda = s.agenda := rfl
@[simp] theorem State.onQueue_cur : (s.onQueue q f).cur = s.cur := rfl
@[simp] theorem State.onQueue_free : (s.onQueue q f).free = s.free := rfl
@[simp] theorem State.onQueue_now : (s.onQueue q f).now = s.now := rfl
@[simp] theorem State.onQueue_failed : (s.onQueue q f).failed = s.failed := rfl
@[simp] theorem State.onQueue_stage : (s.onQueue q f).stage = s.stage := rfl
@[simp] theorem State.onQueue_groups : (s.onQueue q f).groups = s.groups := rfl
@[simp] theorem State.onQueue_residuals : (s.onQueue q f).residuals = s.residuals := rfl
@[simp] theorem State.onQueue_teams : (s.onQueue q f).teams = s.teams := rfl
@[simp] theorem State.onQueue_clusters : (s.onQueue q f).clusters = s.clusters := rfl
@[simp] theorem State.onQueue_cores : (s.onQueue q f).cores = s.cores := rfl
@[simp] theorem State.onQueue_rennets : (s.onQueue q f).rennets = s.rennets := rfl
@[simp] theorem State.onQueue_parts : (s.onQueue q f).parts = s.parts := rfl
@[simp] theorem State.onQueue_queues : (s.onQueue q f).queues = KMap.put q (f (s.queueAt q)) s.queues := rfl
@[simp] theorem State.onQueue_l2priv : (s.onQueue q f).l2priv = s.l2priv := rfl
@[simp] theorem State.onQueue_heldL2 : (s.onQueue q f).heldL2 = s.heldL2 := rfl
@[simp] theorem State.onQueue_tokbase : (s.onQueue q f).tokbase = s.tokbase := rfl
@[simp] theorem State.onQueue_tokn : (s.onQueue q f).tokn = s.tokn := rfl
@[simp] theorem State.onQueue_mem : (s.onQueue q f).mem = s.mem := rfl
@[simp] theorem State.onQueue_poison : (s.onQueue q f).poison = s.poison := rfl
@[simp] theorem State.onQueue_l2 : (s.onQueue q f).l2 = s.l2 := rfl
@[simp] theorem State.onQueue_l2tlb : (s.onQueue q f).l2tlb = s.l2tlb := rfl
@[simp] theorem State.onQueue_hostMem : (s.onQueue q f).hostMem = s.hostMem := rfl
@[simp] theorem State.onQueue_joins : (s.onQueue q f).joins = s.joins := rfl
@[simp] theorem State.onQueue_check : (s.onQueue q f).check = s.check := rfl
@[simp] theorem State.onQueue_beneath : (s.onQueue q f).beneath = s.beneath := rfl
@[simp] theorem State.onQueue_checkBad : (s.onQueue q f).checkBad = s.checkBad := rfl
@[simp] theorem State.onQueue_hostBad : (s.onQueue q f).hostBad = s.hostBad := rfl
@[simp] theorem State.onQueue_proxy : (s.onQueue q f).proxy = s.proxy := rfl
@[simp] theorem State.onQueue_casts : (s.onQueue q f).casts = s.casts := rfl
@[simp] theorem State.onQueue_nextJoin : (s.onQueue q f).nextJoin = s.nextJoin := rfl
@[simp] theorem State.onQueue_turner : (s.onQueue q f).turner = s.turner := rfl
@[simp] theorem State.onQueue_ppr : (s.onQueue q f).ppr = s.ppr := rfl
@[simp] theorem State.onQueue_caps : (s.onQueue q f).caps = s.caps := rfl
@[simp] theorem State.onQueue_ras : (s.onQueue q f).ras = s.ras := rfl
@[simp] theorem State.onQueue_landing : (s.onQueue q f).landing = s.landing := rfl
@[simp] theorem State.onQueue_lwmiss : (s.onQueue q f).lwmiss = s.lwmiss := rfl
@[simp] theorem State.onQueue_links : (s.onQueue q f).links = s.links := rfl
@[simp] theorem State.onQueue_mail : (s.onQueue q f).mail = s.mail := rfl
@[simp] theorem State.onQueue_msix : (s.onQueue q f).msix = s.msix := rfl
@[simp] theorem State.onQueue_answers : (s.onQueue q f).answers = s.answers := rfl
end

section
variable (s : State) (a : Nat) (bs : List Byte)
@[simp] theorem State.storeAt_agenda : (s.storeAt a bs).agenda = s.agenda := rfl
@[simp] theorem State.storeAt_cur : (s.storeAt a bs).cur = s.cur := rfl
@[simp] theorem State.storeAt_free : (s.storeAt a bs).free = s.free := rfl
@[simp] theorem State.storeAt_now : (s.storeAt a bs).now = s.now := rfl
@[simp] theorem State.storeAt_failed : (s.storeAt a bs).failed = s.failed := rfl
@[simp] theorem State.storeAt_stage : (s.storeAt a bs).stage = s.stage := rfl
@[simp] theorem State.storeAt_groups : (s.storeAt a bs).groups = s.groups := rfl
@[simp] theorem State.storeAt_residuals : (s.storeAt a bs).residuals = s.residuals := rfl
@[simp] theorem State.storeAt_teams : (s.storeAt a bs).teams = s.teams := rfl
@[simp] theorem State.storeAt_clusters : (s.storeAt a bs).clusters = s.clusters := rfl
@[simp] theorem State.storeAt_cores : (s.storeAt a bs).cores = s.cores := rfl
@[simp] theorem State.storeAt_rennets : (s.storeAt a bs).rennets = s.rennets := rfl
@[simp] theorem State.storeAt_parts : (s.storeAt a bs).parts = s.parts := rfl
@[simp] theorem State.storeAt_queues : (s.storeAt a bs).queues = s.queues := rfl
@[simp] theorem State.storeAt_l2priv : (s.storeAt a bs).l2priv = s.l2priv := rfl
@[simp] theorem State.storeAt_heldL2 : (s.storeAt a bs).heldL2 = s.heldL2 := rfl
@[simp] theorem State.storeAt_tokbase : (s.storeAt a bs).tokbase = s.tokbase := rfl
@[simp] theorem State.storeAt_tokn : (s.storeAt a bs).tokn = s.tokn := rfl
@[simp] theorem State.storeAt_mem : (s.storeAt a bs).mem = putBytes s.mem a bs := rfl
@[simp] theorem State.storeAt_poison : (s.storeAt a bs).poison = clearWhole s.poison a bs.length := rfl
@[simp] theorem State.storeAt_l2 : (s.storeAt a bs).l2 = s.l2 := rfl
@[simp] theorem State.storeAt_l2tlb : (s.storeAt a bs).l2tlb = s.l2tlb := rfl
@[simp] theorem State.storeAt_hostMem : (s.storeAt a bs).hostMem = s.hostMem := rfl
@[simp] theorem State.storeAt_joins : (s.storeAt a bs).joins = s.joins := rfl
@[simp] theorem State.storeAt_check : (s.storeAt a bs).check = s.checkAfter a bs := rfl
@[simp] theorem State.storeAt_beneath : (s.storeAt a bs).beneath = s.beneath := rfl
@[simp] theorem State.storeAt_checkBad : (s.storeAt a bs).checkBad = s.checkBad := rfl
@[simp] theorem State.storeAt_hostBad : (s.storeAt a bs).hostBad = s.hostBad := rfl
@[simp] theorem State.storeAt_proxy : (s.storeAt a bs).proxy = s.proxy := rfl
@[simp] theorem State.storeAt_casts : (s.storeAt a bs).casts = s.casts := rfl
@[simp] theorem State.storeAt_nextJoin : (s.storeAt a bs).nextJoin = s.nextJoin := rfl
@[simp] theorem State.storeAt_turner : (s.storeAt a bs).turner = s.turner := rfl
@[simp] theorem State.storeAt_ppr : (s.storeAt a bs).ppr = s.ppr := rfl
@[simp] theorem State.storeAt_caps : (s.storeAt a bs).caps = s.caps := rfl
@[simp] theorem State.storeAt_ras : (s.storeAt a bs).ras = s.ras := rfl
@[simp] theorem State.storeAt_landing : (s.storeAt a bs).landing = s.landing := rfl
@[simp] theorem State.storeAt_lwmiss : (s.storeAt a bs).lwmiss = s.lwmiss := rfl
@[simp] theorem State.storeAt_links : (s.storeAt a bs).links = s.links := rfl
@[simp] theorem State.storeAt_mail : (s.storeAt a bs).mail = s.mail := rfl
@[simp] theorem State.storeAt_msix : (s.storeAt a bs).msix = s.msix := rfl
@[simp] theorem State.storeAt_answers : (s.storeAt a bs).answers = s.answers := rfl
end

section
variable (s : State) (a : Nat) (bs : List Byte)
@[simp] theorem State.hostStore_agenda : (s.hostStore a bs).agenda = s.agenda := rfl
@[simp] theorem State.hostStore_cur : (s.hostStore a bs).cur = s.cur := rfl
@[simp] theorem State.hostStore_free : (s.hostStore a bs).free = s.free := rfl
@[simp] theorem State.hostStore_now : (s.hostStore a bs).now = s.now := rfl
@[simp] theorem State.hostStore_failed : (s.hostStore a bs).failed = s.failed := rfl
@[simp] theorem State.hostStore_stage : (s.hostStore a bs).stage = s.stage := rfl
@[simp] theorem State.hostStore_groups : (s.hostStore a bs).groups = s.groups := rfl
@[simp] theorem State.hostStore_residuals : (s.hostStore a bs).residuals = s.residuals := rfl
@[simp] theorem State.hostStore_teams : (s.hostStore a bs).teams = s.teams := rfl
@[simp] theorem State.hostStore_clusters : (s.hostStore a bs).clusters = s.clusters := rfl
@[simp] theorem State.hostStore_cores : (s.hostStore a bs).cores = s.cores := rfl
@[simp] theorem State.hostStore_rennets : (s.hostStore a bs).rennets = s.rennets := rfl
@[simp] theorem State.hostStore_parts : (s.hostStore a bs).parts = s.parts := rfl
@[simp] theorem State.hostStore_queues : (s.hostStore a bs).queues = s.queues := rfl
@[simp] theorem State.hostStore_l2priv : (s.hostStore a bs).l2priv = s.l2priv := rfl
@[simp] theorem State.hostStore_heldL2 : (s.hostStore a bs).heldL2 = s.heldL2 := rfl
@[simp] theorem State.hostStore_tokbase : (s.hostStore a bs).tokbase = s.tokbase := rfl
@[simp] theorem State.hostStore_tokn : (s.hostStore a bs).tokn = s.tokn := rfl
@[simp] theorem State.hostStore_mem : (s.hostStore a bs).mem = s.mem := rfl
@[simp] theorem State.hostStore_poison : (s.hostStore a bs).poison = s.poison := rfl
@[simp] theorem State.hostStore_l2 : (s.hostStore a bs).l2 = s.l2 := rfl
@[simp] theorem State.hostStore_l2tlb : (s.hostStore a bs).l2tlb = s.l2tlb := rfl
@[simp] theorem State.hostStore_hostMem : (s.hostStore a bs).hostMem = putBytes s.hostMem a bs := rfl
@[simp] theorem State.hostStore_joins : (s.hostStore a bs).joins = s.joins := rfl
@[simp] theorem State.hostStore_check : (s.hostStore a bs).check = s.check := rfl
@[simp] theorem State.hostStore_beneath : (s.hostStore a bs).beneath = s.beneath := rfl
@[simp] theorem State.hostStore_checkBad : (s.hostStore a bs).checkBad = s.checkBad := rfl
@[simp] theorem State.hostStore_hostBad : (s.hostStore a bs).hostBad = clearWhole s.hostBad a bs.length := rfl
@[simp] theorem State.hostStore_proxy : (s.hostStore a bs).proxy = s.proxy := rfl
@[simp] theorem State.hostStore_casts : (s.hostStore a bs).casts = s.casts := rfl
@[simp] theorem State.hostStore_nextJoin : (s.hostStore a bs).nextJoin = s.nextJoin := rfl
@[simp] theorem State.hostStore_turner : (s.hostStore a bs).turner = s.turner := rfl
@[simp] theorem State.hostStore_ppr : (s.hostStore a bs).ppr = s.ppr := rfl
@[simp] theorem State.hostStore_caps : (s.hostStore a bs).caps = s.caps := rfl
@[simp] theorem State.hostStore_ras : (s.hostStore a bs).ras = s.ras := rfl
@[simp] theorem State.hostStore_landing : (s.hostStore a bs).landing = s.landing := rfl
@[simp] theorem State.hostStore_lwmiss : (s.hostStore a bs).lwmiss = s.lwmiss := rfl
@[simp] theorem State.hostStore_links : (s.hostStore a bs).links = s.links := rfl
@[simp] theorem State.hostStore_mail : (s.hostStore a bs).mail = s.mail := rfl
@[simp] theorem State.hostStore_msix : (s.hostStore a bs).msix = s.msix := rfl
@[simp] theorem State.hostStore_answers : (s.hostStore a bs).answers = s.answers := rfl
end

/-! ## Records after updates -/

section
variable (s : State)
@[simp] theorem State.grp_setGrp (g : Nat) (x : Group) : (s.setGrp g x).grp g = x := by simp [State.grp]
theorem State.grp_setGrp_other {g h : Nat} (n : h ≠ g) (x : Group) : (s.setGrp g x).grp h = s.grp h := by
  simp [State.grp, KMap.read_put_other _ n]
@[simp] theorem State.grp_onGrp (g : Nat) (f : Group → Group) : (s.onGrp g f).grp g = f (s.grp g) := by simp [State.grp]
theorem State.grp_onGrp_other {g h : Nat} (n : h ≠ g) (f : Group → Group) : (s.onGrp g f).grp h = s.grp h := by
  simp [State.grp, KMap.read_put_other _ n]
@[simp] theorem State.tm_onTm (t : Nat) (f : Team → Team) : (s.onTm t f).tm t = f (s.tm t) := by simp [State.tm]
theorem State.tm_onTm_other {t u : Nat} (n : u ≠ t) (f : Team → Team) : (s.onTm t f).tm u = s.tm u := by
  simp [State.tm, KMap.read_put_other _ n]
@[simp] theorem State.cl_onCl (c : Nat) (f : Cluster → Cluster) : (s.onCl c f).cl c = f (s.cl c) := by simp [State.cl]
@[simp] theorem State.coreAt_setCore (n : Nat) (x : Core) : (s.setCore n x).coreAt n = x := by simp [State.coreAt]
theorem State.coreAt_setCore_other {n k : Nat} (h : k ≠ n) (x : Core) : (s.setCore n x).coreAt k = s.coreAt k := by
  simp [State.coreAt, KMap.read_put_other _ h]
@[simp] theorem State.coreAt_onCore (n : Nat) (f : Core → Core) : (s.onCore n f).coreAt n = f (s.coreAt n) := by simp [State.coreAt]
theorem State.coreAt_onCore_other {n k : Nat} (h : k ≠ n) (f : Core → Core) : (s.onCore n f).coreAt k = s.coreAt k := by
  simp [State.coreAt, KMap.read_put_other _ h]
@[simp] theorem State.unitAt_onUnit (u : Nat) (f : Rennet → Rennet) : (s.onUnit u f).unitAt u = f (s.unitAt u) := by simp [State.unitAt]
theorem State.unitAt_onUnit_other {u v : Nat} (n : v ≠ u) (f : Rennet → Rennet) : (s.onUnit u f).unitAt v = s.unitAt v := by
  simp [State.unitAt, KMap.read_put_other _ n]
@[simp] theorem State.partAt_onPart (p : Nat) (f : Partition → Partition) : (s.onPart p f).partAt p = f (s.partAt p) := by simp [State.partAt]
@[simp] theorem State.queueAt_onQueue (q : Nat) (f : HostQueue → HostQueue) : (s.onQueue q f).queueAt q = f (s.queueAt q) := by simp [State.queueAt]
@[simp] theorem State.grp_setCore (n : Nat) (x : Core) (g : Nat) : (s.setCore n x).grp g = s.grp g := rfl
@[simp] theorem State.grp_onTm (t : Nat) (f : Team → Team) (g : Nat) : (s.onTm t f).grp g = s.grp g := rfl
@[simp] theorem State.tm_onGrp (g : Nat) (f : Group → Group) (t : Nat) : (s.onGrp g f).tm t = s.tm t := rfl
@[simp] theorem State.coreAt_onGrp (g : Nat) (f : Group → Group) (n : Nat) : (s.onGrp g f).coreAt n = s.coreAt n := rfl
@[simp] theorem State.me_onGrp (g : Nat) (f : Group → Group) : (s.onGrp g f).me = s.me := rfl
@[simp] theorem State.onGrp_onGrp (g : Nat) (f h : Group → Group) : (s.onGrp g f).onGrp g h = s.onGrp g fun x => h (f x) := by
  simp [State.onGrp, State.setGrp, State.grp]
end

/-- Counting events changes the counters of one core alone. -/
theorem State.count_eq (s : State) (g code n : Nat) : s.count g code n = { s with cores := (s.count g code n).cores } := by
  unfold State.count
  split
  · rfl
  · dsimp only; split <;> rfl

theorem Core.count_eq (c : Core) (code n : Nat) (g : Option Nat) : c.count code n g = { c with pmc := (c.count code n g).pmc } := by
  unfold Core.count
  split <;> rfl

/-- No core changes otherwise than in its event counters. -/
theorem State.coreAt_count (s : State) (g code n k : Nat) :
    (s.count g code n).coreAt k = { s.coreAt k with pmc := ((s.count g code n).coreAt k).pmc } := by
  unfold State.count
  split
  · rfl
  · rename_i j _
    dsimp only
    split
    · rfl
    · by_cases h : k = j
      · subst h; rw [State.coreAt_setCore]; exact Core.count_eq ..
      · rw [State.coreAt_setCore_other s h]

@[simp] theorem State.grp_count (s : State) (g code n h : Nat) : (s.count g code n).grp h = s.grp h := by
  rw [State.count_eq]; rfl
@[simp] theorem State.groups_count (s : State) (g code n : Nat) : (s.count g code n).groups = s.groups := by
  rw [State.count_eq]
@[simp] theorem State.mem_count (s : State) (g code n : Nat) : (s.count g code n).mem = s.mem := by
  rw [State.count_eq]
@[simp] theorem State.cur_count (s : State) (g code n : Nat) : (s.count g code n).cur = s.cur := by
  rw [State.count_eq]
@[simp] theorem State.me_count (s : State) (g code n : Nat) : (s.count g code n).me = s.me := by
  unfold State.me; rw [State.cur_count]
@[simp] theorem State.tm_count (s : State) (g code n t : Nat) : (s.count g code n).tm t = s.tm t := by
  rw [State.count_eq]; rfl

end Sys2Proof.Machine
end

