-- ==== Sys2Proof/Laws/Ops.lean ====
section
/-! SUPPORT. What the operations that scalar instructions share can do. -/

namespace Sys2Proof.Machine

/-! ## Frames -/

theorem CountersOnly.refl (s : State) : CountersOnly s s := fun _ => rfl

theorem CountersOnly.trans {s t u : State} (h : CountersOnly s t) (k : CountersOnly t u) : CountersOnly s u := fun n => by
  rw [k n, h n]

theorem MemoryKept.of_eq {s t : State} (h : t.mem = s.mem) (k : t.poison = s.poison) : MemoryKept s t :=
  ⟨fun a => by simp [State.byteAt, h], fun _ a => by simp [State.badAt, k]⟩

@[simp] theorem State.apart_onGrp (s : State) (g : Nat) (f : Group → Group) : (s.onGrp g f).apart = s.apart := rfl

@[simp] theorem State.apart_setGrp (s : State) (g : Nat) (x : Group) : (s.setGrp g x).apart = s.apart := rfl

@[simp] theorem State.apart_count (s : State) (g code n : Nat) : (s.count g code n).apart = s.apart := by
  rw [State.count_eq]; rfl

@[simp] theorem State.poison_count (s : State) (g code n : Nat) : (s.count g code n).poison = s.poison := by
  rw [State.count_eq]

/-- Changing one stream and counting changes nothing else. -/
theorem OnlyStream.of_onGrp (s : State) (g : Nat) (f : Group → Group) : OnlyStream g s (s.onGrp g f) := by
  refine ⟨rfl, ?_, fun _ => rfl, MemoryKept.of_eq rfl rfl⟩
  rw [State.grp_onGrp, State.onGrp_groups]

theorem OnlyStream.count {g : Nat} {s t : State} (k : OnlyStream g s t) (h code n : Nat) : OnlyStream g s (t.count h code n) := by
  obtain ⟨k0, k1, k2, k3⟩ := k
  refine ⟨by simpa using k0, by simpa using k1, k2.trans (State.coreAt_count t h code n), fun a => ?_, fun e a => ?_⟩
  · simpa [State.byteAt] using k3.1 a
  · simpa [State.badAt] using k3.2 e a

/-! ## Scalar registers -/

theorem Group.sGet_zero (x : Group) : x.sGet 0 = 0 := by simp [Group.sGet]

theorem Group.sGet_sSet_same (x : Group) (d : Nat) (v : Word) (h : d ≠ 0) : (x.sSet d v).sGet d = v := by
  simp [Group.sGet, Group.sSet, h]

theorem Group.sGet_sSet_other (x : Group) {d r : Nat} (v : Word) (h : r ≠ d) : (x.sSet d v).sGet r = x.sGet r := by
  by_cases hd : d = 0
  · simp [Group.sSet, hd]
  · simp [Group.sGet, Group.sSet, hd, KMap.read_write_other _ h]

theorem Group.sBad_sSet_same (x : Group) (d : Nat) (v : Word) : (x.sSet d v).sBad d = false := by
  by_cases hd : d = 0
  · simp [Group.sSet, Group.sBad, hd]
  · simp [Group.sBad, Group.sSet, hd]

theorem Group.sBad_sSet_other (x : Group) {d r : Nat} (v : Word) (h : r ≠ d) : (x.sSet d v).sBad r = x.sBad r := by
  by_cases hd : d = 0
  · simp [Group.sSet, hd]
  · simp [Group.sBad, Group.sSet, hd, KMap.read_write_other _ h]

/-- A write changes one register. -/
theorem Group.wrote_sSet (x : Group) (d : BitVec 6) (v : Word) : Wrote x (x.sSet d.toNat v) d v := by
  refine ⟨fun r hr => ⟨x.sGet_sSet_other v hr, x.sBad_sSet_other v hr⟩, Group.sGet_zero _, fun hd => ⟨?_, x.sBad_sSet_same _ v⟩⟩
  apply x.sGet_sSet_same
  intro h
  exact hd (BitVec.eq_of_toNat_eq (by simpa using h))

/-! ## Consumption, issue and results -/

/-- The stream after a scalar instruction that read `rs` has issued with its PC at `pc`. -/
def Group.issued (x : Group) (rs : List (BitVec 6)) (pc : Word) : Group :=
  { (if rs.any fun r => x.sBad r.toNat then x.chk scons else x) with pc := pc, stall := 0 }

@[simp] theorem State.me_uses (s : State) (rs : List (BitVec 6)) : (s.uses rs).me = s.me := by
  unfold State.uses; dsimp only; split <;> simp

@[simp] theorem State.grp_uses (s : State) (rs : List (BitVec 6)) :
    (s.uses rs).grp s.me = if rs.any fun r => (s.grp s.me).sBad r.toNat then (s.grp s.me).chk scons else s.grp s.me := by
  unfold State.uses; dsimp only; split <;> simp

theorem OnlyStream.uses (s : State) (rs : List (BitVec 6)) : OnlyStream s.me s (s.uses rs) ∨ s.uses rs = s := by
  unfold State.uses; dsimp only; split
  · exact .inl ((OnlyStream.of_onGrp ..).count _ _ _)
  · exact .inr rfl

/-- One more change of the same stream. -/
theorem OnlyStream.onGrp {g : Nat} {s t : State} (h : OnlyStream g s t ∨ t = s) (f : Group → Group) : OnlyStream g s (t.onGrp g f) := by
  rcases h with ⟨h0, h1, h2, h3⟩ | rfl
  · exact ⟨h0, by rw [State.grp_onGrp, State.onGrp_groups, h1, KMap.put_put], h2, h3⟩
  · exact OnlyStream.of_onGrp ..

/-- What issuing does: the PC moves, and nothing else but bookkeeping. -/
theorem State.grp_goto (s : State) (pc : Word) :
    (s.goto pc).grp s.me = { s.grp s.me with pc := pc, stall := 0 } := by
  simp [State.goto]

theorem OnlyStream.goto {s t : State} (h : OnlyStream s.me s t ∨ t = s) (hm : t.me = s.me) (pc : Word) : OnlyStream s.me s (t.goto pc) := by
  unfold State.goto
  rw [hm]
  exact (OnlyStream.onGrp h _).count _ _ _

/-- What a scalar instruction that reads `rs` and writes `d` does to its stream. -/
theorem State.grp_result (s : State) (rs : List (BitVec 6)) (d : BitVec 6) (v pc : Word) :
    (((s.uses rs).setS d v).goto pc).grp s.me =
      ({ (if rs.any fun r => (s.grp s.me).sBad r.toNat then (s.grp s.me).chk scons else s.grp s.me).sSet d.toNat v with
        pc := pc, stall := 0 } : Group) := by
  have hm : ((s.uses rs).setS d v).me = s.me := by simp [State.setS]
  have := State.grp_goto ((s.uses rs).setS d v) pc
  rw [hm] at this
  rw [this]
  simp only [State.setS, State.me_uses, State.grp_onGrp, State.grp_uses]

/-- Every scalar instruction that reads registers, writes one and moves the PC computes what its value says. -/
theorem computes_of (i : Instr) (s : State) (rs : List (BitVec 6)) (d : BitVec 6) (v pc : Word)
    (h : exec i s = .next (((s.uses rs).setS d v).goto pc)) : Computes i s rs d v pc := by
  refine ⟨_, h, ?_, ?_, ?_, ?_, ?_⟩
  · exact OnlyStream.goto (.inl (by rw [State.setS, State.me_uses]; exact OnlyStream.onGrp (OnlyStream.uses s rs) _)) (by simp [State.setS]) pc
  · rw [State.grp_result]
    unfold ScalarOnly
    by_cases hd : d.toNat = 0 <;> split <;> simp [Group.sSet, Group.chk, hd]
  · rw [State.grp_result]
    have w := Group.wrote_sSet (if rs.any fun r => (s.grp s.me).sBad r.toNat then (s.grp s.me).chk scons else s.grp s.me) d v
    obtain ⟨w1, w2, w3⟩ := w
    refine ⟨fun r hr => ?_, Group.sGet_zero _, w3⟩
    have := w1 r hr
    revert this
    split <;> exact fun h => h
  · rw [State.grp_result]
    unfold Consumed
    by_cases hd : d.toNat = 0 <;> split <;> simp [Group.sSet, Group.chk, hd, scons]
  · rw [State.grp_result]

/-- The same of an instruction that writes no register. -/
theorem moves_of (i : Instr) (s : State) (rs : List (BitVec 6)) (pc : Word) (h : exec i s = .next ((s.uses rs).goto pc)) :
    Moves i s rs pc := by
  have e : ((s.uses rs).goto pc).grp s.me =
      { (if rs.any fun r => (s.grp s.me).sBad r.toNat then (s.grp s.me).chk scons else s.grp s.me) with pc := pc, stall := 0 } := by
    have := State.grp_goto (s.uses rs) pc
    rw [State.me_uses, State.grp_uses] at this
    rw [this]
  refine ⟨_, h, OnlyStream.goto (OnlyStream.uses s rs) (by simp) pc, ?_, ?_, ?_, ?_⟩
  · rw [e]; unfold ScalarOnly; split <;> rfl
  · rw [e]; intro r; split <;> exact ⟨rfl, rfl⟩
  · rw [e]; unfold Consumed; split <;> simp [Group.chk, scons]
  · rw [e]

@[simp] theorem State.uses_nil (s : State) : s.uses [] = s := rfl

theorem State.pc_setS_uses (s : State) (rs : List (BitVec 6)) (d : BitVec 6) (v : Word) :
    (((s.uses rs).setS d v).grp ((s.uses rs).setS d v).me).pc = (s.grp s.me).pc := by
  simp only [State.setS, State.me_onGrp, State.me_uses, State.grp_onGrp, State.grp_uses]
  by_cases hd : d.toNat = 0 <;> split <;> simp [Group.sSet, Group.chk, hd]

/-- The shape of most scalar instructions: read `rs`, write `d`, go on with the next word. -/
theorem computes_finish (i : Instr) (s : State) (rs : List (BitVec 6)) (d : BitVec 6) (v : Word)
    (h : exec i s = .next ((s.uses rs).finish d v)) : Computes i s rs d v s.after := by
  apply computes_of
  rw [h]
  unfold State.finish State.nextPc State.after
  rw [State.pc_setS_uses]

end Sys2Proof.Machine
end

