-- ==== Sys2Proof/Laws/Memory.lean ====
section
/-! SUPPORT. Laws of memory: what a store leaves of every byte and poison bit, and that every operation over memory keeps its canonical
form. -/

namespace Sys2Proof.Machine

/-! ## Bytes after a store -/

/-- Reading a byte after a store gives the byte stored there, or what was there before. -/
theorem read_putBytes (m : KMap Byte) (a i : Nat) (bs : List Byte) :
    KMap.read unwritten i (putBytes m a bs) =
      if a ≤ i ∧ i < a + bs.length then bs[i - a]?.getD 0 else KMap.read unwritten i m := by
  induction bs generalizing m a with
  | nil => simp only [putBytes, List.length_nil]; rw [if_neg (by omega)]
  | cons b bs ih =>
    simp only [putBytes, List.length_cons, ih]
    by_cases h : i = a
    · subst h
      rw [if_neg (by omega), if_pos (by omega)]
      simp
    · rw [KMap.read_write_other _ h]
      by_cases h1 : a + 1 ≤ i ∧ i < a + 1 + bs.length
      · rw [if_pos h1, if_pos (by omega)]
        have e : i - a = (i - (a + 1)) + 1 := by omega
        rw [e, List.getElem?_cons_succ]
      · rw [if_neg h1, if_neg (by omega)]

/-- A byte of device memory after a store at one copy. -/
theorem State.byteAt_storeAt (s : State) (a i : Nat) (bs : List Byte) :
    (s.storeAt a bs).byteAt i = if a ≤ i ∧ i < a + bs.length then bs[i - a]?.getD 0 else s.byteAt i :=
  read_putBytes s.mem a i bs

/-- A byte outside the bytes stored, and outside their mirror copy, is as before. -/
theorem State.byteAt_storeBlock_other (s : State) (a i : Nat) (bs : List Byte) (h : i < a ∨ a + bs.length ≤ i)
    (k : s.mirrored (a / 0x20_0000) = true → i < mirrorOf a ∨ mirrorOf a + bs.length ≤ i) :
    (s.storeBlock a bs).byteAt i = s.byteAt i := by
  have e : (s.storeAt a bs).mirrored (a / 0x20_0000) = s.mirrored (a / 0x20_0000) := rfl
  simp only [State.storeBlock, e]
  split
  · rename_i hm
    rw [State.byteAt_storeAt, if_neg (by have := k hm; omega), State.byteAt_storeAt, if_neg (by omega)]
  · rw [State.byteAt_storeAt, if_neg (by omega)]

/-! ## The canonical form -/

theorem wf_putBytes (m : KMap Byte) (a : Nat) (bs : List Byte) (h : Memory.wf m = true) : Memory.wf (putBytes m a bs) = true := by
  induction bs generalizing m a with
  | nil => exact h
  | cons b bs ih => exact ih _ _ (KMap.wf_write _ _ _ _ h)

theorem wf_foldl_write (p : Nat → Bool) (b : Bool) (ks : List Nat) (m : KMap Bool) (h : KMap.wf false m = true) :
    KMap.wf false (ks.foldl (fun m k => if p k then KMap.write false k b m else m) m) = true := by
  induction ks generalizing m with
  | nil => exact h
  | cons k ks ih =>
    simp only [List.foldl_cons]
    split
    · exact ih _ (KMap.wf_write _ _ _ _ h)
    · exact ih _ h

theorem wf_clearWhole (p : KMap Bool) (a n : Nat) (h : KMap.wf false p = true) : KMap.wf false (clearWhole p a n) = true := by
  have := wf_foldl_write (fun k => decide (a ≤ 32 * k ∧ 32 * k + 32 ≤ a + n)) false (sectorsOf a n) p h
  simpa only [clearWhole, decide_eq_true_eq] using this

/-- The five parts of the canonical form. -/
theorem State.memWf_iff (s : State) :
    s.memWf = true ↔ Memory.wf s.mem = true ∧ KMap.wf false s.poison = true ∧ Memory.wf s.check = true ∧ Memory.wf s.hostMem = true ∧
      KMap.wf false s.hostBad = true := by
  simp [State.memWf, Bool.and_eq_true, and_assoc]

/-- The canonical form is of memory alone. -/
theorem State.memWf_congr {s t : State} (h : t.mem = s.mem) (k : t.poison = s.poison) (c : t.check = s.check) (l : t.hostMem = s.hostMem)
    (b : t.hostBad = s.hostBad) : t.memWf = s.memWf := by
  simp [State.memWf, h, k, c, l, b]

theorem State.memWf_reset : State.reset.memWf = true := rfl

/-- What every step of a fold keeps, the fold keeps. -/
theorem State.memWf_foldl {α : Type} (f : State → α → State) (hf : ∀ s x, s.memWf = true → (f s x).memWf = true) (l : List α) (s : State)
    (h : s.memWf = true) : (l.foldl f s).memWf = true := by
  induction l generalizing s with
  | nil => exact h
  | cons x l ih => exact ih _ (hf s x h)

theorem State.memWf_ite (c : Prop) [Decidable c] {s t : State} (h : s.memWf = true) (k : t.memWf = true) :
    (if c then s else t).memWf = true := by
  split
  · exact h
  · exact k

/-- A change of poison bits alone. -/
theorem State.memWf_poison (s : State) (p : KMap Bool) (h : s.memWf = true) (k : KMap.wf false p = true) :
    ({ s with poison := p } : State).memWf = true := by
  obtain ⟨h1, -, h3⟩ := s.memWf_iff.mp h
  exact (State.memWf_iff _).mpr ⟨h1, k, h3⟩

theorem State.wf_checkAfter (s : State) (a : Nat) (bs : List Byte) (h : Memory.wf s.check = true) : Memory.wf (s.checkAfter a bs) = true := by
  unfold State.checkAfter
  generalize s.check = c at h
  generalize bs.zipIdx = l
  induction l generalizing c with
  | nil => exact h
  | cons e l ih => exact ih _ (KMap.wf_write _ _ _ _ h)

theorem State.memWf_storeAt (s : State) (a : Nat) (bs : List Byte) (h : s.memWf = true) : (s.storeAt a bs).memWf = true := by
  obtain ⟨h1, h2, h3, h4⟩ := s.memWf_iff.mp h
  exact (State.memWf_iff _).mpr ⟨wf_putBytes _ _ _ h1, wf_clearWhole _ _ _ h2, s.wf_checkAfter a bs h3, h4⟩

theorem State.memWf_storeBlock (s : State) (a : Nat) (bs : List Byte) (h : s.memWf = true) : (s.storeBlock a bs).memWf = true := by
  simp only [State.storeBlock]
  split
  · exact State.memWf_storeAt _ _ _ (State.memWf_storeAt _ _ _ h)
  · exact State.memWf_storeAt _ _ _ h

theorem State.memWf_store (s : State) (a : Nat) (bs : List Byte) (h : s.memWf = true) : (s.store a bs).memWf = true := by
  unfold State.store
  split
  · exact State.memWf_storeBlock _ _ _ h
  · exact State.memWf_foldl _ (fun s _ h => State.memWf_storeBlock s _ _ h) _ _ h

theorem State.memWf_setBad (s : State) (k : Nat) (b : Bool) (h : s.memWf = true) : (s.setBad k b).memWf = true := by
  refine s.memWf_poison _ h ?_
  have h2 := (s.memWf_iff.mp h).2.1
  split
  · exact KMap.wf_write _ _ _ _ (KMap.wf_write _ _ _ _ h2)
  · exact KMap.wf_write _ _ _ _ h2

theorem State.memWf_poisonCopy (s : State) (k : Nat) (h : s.memWf = true) : (s.poisonCopy k).memWf = true := by
  have w := s.memWf_poison _ h (KMap.wf_write false k true s.poison (s.memWf_iff.mp h).2.1)
  unfold State.poisonCopy
  dsimp only
  cases s.l2Line (s.firstCopy k / 4) with
  | none => exact w
  | some x => exact State.memWf_ite _ w (State.memWf_ite _ h (State.memWf_ite _ h w))

theorem State.memWf_hostStore (s : State) (a : Nat) (bs : List Byte) (h : s.memWf = true) : (s.hostStore a bs).memWf = true := by
  obtain ⟨h1, h2, h3, h4, h5⟩ := s.memWf_iff.mp h
  exact (State.memWf_iff _).mpr ⟨h1, h2, h3, wf_putBytes _ _ _ h4, wf_clearWhole _ _ _ h5⟩

theorem State.memWf_flushProxy (s : State) (h : s.memWf = true) : s.flushProxy.memWf = true := by
  unfold State.flushProxy
  split
  · exact h
  · exact State.memWf_foldl (fun s (e : Nat × Byte) => s.hostStore e.1 [e.2]) (fun s e h => State.memWf_hostStore s _ _ h) s.proxy s h

theorem State.memWf_clearImage (s : State) (t : Nat) (h : s.memWf = true) : (s.clearImage t).memWf = true := by
  unfold State.clearImage
  have w := State.memWf_foldl (fun s (e : Nat × Byte) => s.storeAt e.1 [0]) (fun s e h => State.memWf_storeAt s _ _ h)
    (s.mem.filter fun e => match s.inImage t e.1 with | some o => s.imageHolds t o | none => false) s h
  exact State.memWf_poison _ _ w (KMap.wf_filter _ _ _ (State.memWf_iff _ |>.mp w).2.1)

theorem State.memWf_putImage (s : State) (t o : Nat) (bs : List Byte) (h : s.memWf = true) : (s.putImage t o bs).memWf = true :=
  State.memWf_foldl _ (fun s _ h => State.memWf_storeBlock s _ _ h) _ _ h

theorem State.memWf_badImage (s : State) (t o : Nat) (h : s.memWf = true) : (s.badImage t o).memWf = true :=
  State.memWf_setBad _ _ _ h

/-! ## Marks of caches and images -/

theorem State.memWf_countDecode (s : State) (pa : Nat) : (s.countDecode pa).memWf = s.memWf := by
  unfold State.countDecode
  split
  · rfl
  · dsimp only; split <;> rfl

/-- A line that leaves the L2 slices leaves poison bits in device memory, and nothing else of it changes. -/
theorem State.memWf_leaveL2 (s : State) (x : L2Line) (m : BitVec 4) (h : s.memWf = true) : (s.leaveL2 x m).memWf = true := by
  unfold State.leaveL2
  refine State.memWf_ite _ h (State.memWf_foldl _ (fun s i h => ?_) _ _ h)
  dsimp only
  refine State.memWf_ite _ h (s.memWf_poison _ h ?_)
  have h2 := (s.memWf_iff.mp h).2.1
  split
  · exact h2
  · exact KMap.wf_write _ _ _ _ h2

theorem State.memWf_touchL2 (s : State) (p pa hint : Nat) (w : Bool) (h : s.memWf = true) : (s.touchL2 p pa hint w).memWf = true := by
  unfold State.touchL2
  dsimp only
  refine (State.memWf_congr (s := (if s.beneath.isEmpty = true then _ else _ : State)) rfl rfl rfl rfl rfl).trans ?_
  have c (b : Bool) : (if b = true then s else s.countDecode pa).memWf = true := State.memWf_ite _ h (by rw [State.memWf_countDecode]; exact h)
  refine State.memWf_ite _ (c _) ?_
  split
  · refine State.memWf_ite _ (c _) ?_
    rename_i out _ _
    cases lineIn out (KMap.read [] (s.l2Key pa) s.l2) with
    | none => exact c _
    | some y => exact State.memWf_leaveL2 _ _ _ (c _)
  · exact c _

theorem State.memWf_onL2 (s : State) (n : Nat) (f : L2Line → Option L2Line) (h : s.memWf = true) : (s.onL2 n f).memWf = true := by
  unfold State.onL2
  show State.memWf (if _ then s else _) = true
  refine State.memWf_ite _ h ?_
  split
  · exact State.memWf_leaveL2 _ _ _ h
  · exact h

theorem State.memWf_dropL2 (s : State) (pa : Nat) (h : s.memWf = true) : (s.dropL2 pa).memWf = true := State.memWf_onL2 _ _ _ h

theorem State.memWf_touchImages (s : State) (pa : Nat) : (s.touchImages pa).memWf = s.memWf := rfl

theorem State.memWf_served (s : State) (x : Xlat) : (s.served x).memWf = s.memWf := by
  unfold State.served
  split <;> rfl

theorem State.memWf_rawStore (s : State) (p : Nat) (x : Xlat) (bs : List Byte) (hint : Nat) (h : s.memWf = true) :
    (s.rawStore p x bs hint).memWf = true := by
  have w : ((s.store x.pa bs).touchImages x.pa).memWf = true := by rw [State.memWf_touchImages]; exact State.memWf_store _ _ _ h
  unfold State.rawStore
  refine State.memWf_ite _ h (State.memWf_ite _ (State.memWf_hostStore _ _ _ (s.memWf_flushProxy h)) (State.memWf_ite _ ?_ ?_))
  · rw [State.memWf_served]; exact State.memWf_dropL2 _ _ w
  · exact State.memWf_touchL2 _ _ _ _ _ w

theorem State.memWf_writeVirtual (s t : State) (w : Who) (va : Nat) (bs : List Byte) (h : s.memWf = true)
    (k : s.writeVirtual w va bs = some t) : t.memWf = true := by
  unfold State.writeVirtual at k
  dsimp only at k
  split at k
  · cases k
    refine State.memWf_foldl _ (fun s p h => ?_) _ _ h
    split
    · exact State.memWf_rawStore _ _ _ _ _ h
    · exact h
  · cases k

theorem State.memWf_postRaw (s : State) (p : Nat) (r : FaultRec) (h : s.memWf = true) : (s.postRaw p r).memWf = true := by
  unfold State.postRaw
  dsimp only
  split
  · exact h
  · split
    · exact h
    · rename_i u k
      exact State.memWf_writeVirtual s u _ _ _ h k

theorem State.memWf_hac (s : State) (p va : Nat) (h : s.memWf = true) : (s.hac p va).memWf = true := by
  unfold State.hac
  simp only []
  by_cases h0 : (s.partAt p).phacctl.getLsbD 31 = false
  · rw [if_pos h0]; exact h
  · rw [if_neg h0]
    cases s.readVirtual (hostWho 0 p) ((s.partAt p).phacbase.toNat + 8 * (va / 2 ^ 16 % 2 ^ ((s.partAt p).phacctl.extractLsb' 26 5).toNat)) 8 with
    | error e => exact h
    | ok d =>
      simp only []
      split
      · exact h
      · rename_i k
        have h1 := State.memWf_writeVirtual _ _ _ _ _ h k
        exact State.memWf_ite _ (State.memWf_ite _ (State.memWf_postRaw _ _ _ h1) (State.memWf_postRaw _ _ _ h1)) h1

theorem State.memWf_hacFor (s : State) (w : Who) (va : Nat) (x : Xlat) (h : s.memWf = true) : (s.hacFor w va x).memWf = true := by
  have f : (if (x.leaf.host && x.leaf.ms && !x.remote) = true then s.flushProxy else s).memWf = true :=
    State.memWf_ite _ (s.memWf_flushProxy h) h
  unfold State.hacFor
  dsimp only
  exact State.memWf_ite _ (State.memWf_hac _ _ _ f) f

theorem State.memWf_countHost (s : State) (w : Who) (va n : Nat) (k : AccKind) (h : s.memWf = true) : (s.countHost w va n k).memWf = true :=
  State.memWf_foldl _ (fun s p h => by
    cases s.xlate w p.1 k with
    | error c => exact h
    | ok x => exact State.memWf_hacFor _ _ _ _ h) _ _ h

theorem State.memWf_post (s : State) (p : Nat) (r : FaultRec) (h : s.memWf = true) : (s.post p r).memWf = true := by
  have w := s.memWf_postRaw p r h
  unfold State.post
  exact State.memWf_ite _ w (State.memWf_countHost _ _ _ _ _ w)

/-! ## Scratchpads -/

/-- A byte of a scratchpad after a store. -/
theorem Team.read_storeAt (t : Team) (o i : Nat) (bs : List Byte) :
    KMap.read unwritten i (t.storeAt o bs).mem = if o ≤ i ∧ i < o + bs.length then bs[i - o]?.getD 0 else KMap.read unwritten i t.mem :=
  read_putBytes t.mem o i bs

theorem Team.wf_storeAt (t : Team) (o : Nat) (bs : List Byte) (h : Memory.wf t.mem = true) (k : KMap.wf false t.poison = true) :
    Memory.wf (t.storeAt o bs).mem = true ∧ KMap.wf false (t.storeAt o bs).poison = true :=
  ⟨wf_putBytes _ _ _ h, wf_clearWhole _ _ _ k⟩

theorem Team.wf_setBad (t : Team) (k : Nat) (b : Bool) (h : KMap.wf false t.poison = true) : KMap.wf false (t.setBad k b).poison = true :=
  KMap.wf_write _ _ _ _ h

end Sys2Proof.Machine
end

