-- ==== Sys2Proof/Laws/PerInstr.lean ====
section
/-! SUPPORT. One lemma per instruction: how many bytes its word has (03 R58, R65, R76): four in the scalar and near-bank streams, twelve
in the lane stream, and none for an event. -/

namespace Sys2Proof

theorem length_bytesOfNat (n x : Nat) : (bytesOfNat n x).length = n := by
  induction n generalizing x with
  | zero => rfl
  | succ n ih => simp [bytesOfNat, ih]

/-- The word of an instruction has the length of its stream's words. -/
def Laws.EncodeLength.Statement (i : Instr) : Prop :=
  (encode i).length = match i.wordKind with
    | .scalar => 4
    | .lane => 12
    | .micro => 4
    | .event => 0

theorem Laws.EncodeLength.of_kind (i : Instr) : Laws.EncodeLength.Statement i := by
  unfold Laws.EncodeLength.Statement encode
  cases i.wordKind <;> simp [length_bytesOfNat]

theorem Laws.EncodeLength.add (b : BitVec 6) (a : BitVec 6) (d : BitVec 6) : Laws.EncodeLength.Statement (.add b a d) := Laws.EncodeLength.of_kind _
theorem Laws.EncodeLength.sub (b : BitVec 6) (a : BitVec 6) (d : BitVec 6) : Laws.EncodeLength.Statement (.sub b a d) := Laws.EncodeLength.of_kind _
theorem Laws.EncodeLength.mul (b : BitVec 6) (a : BitVec 6) (d : BitVec 6) : Laws.EncodeLength.Statement (.mul b a d) := Laws.EncodeLength.of_kind _
theorem Laws.EncodeLength.mulh (b : BitVec 6) (a : BitVec 6) (d : BitVec 6) : Laws.EncodeLength.Statement (.mulh b a d) := Laws.EncodeLength.of_kind _
theorem Laws.EncodeLength.mulhu (b : BitVec 6) (a : BitVec 6) (d : BitVec 6) : Laws.EncodeLength.Statement (.mulhu b a d) := Laws.EncodeLength.of_kind _
theorem Laws.EncodeLength.div (b : BitVec 6) (a : BitVec 6) (d : BitVec 6) : Laws.EncodeLength.Statement (.div b a d) := Laws.EncodeLength.of_kind _
theorem Laws.EncodeLength.divu (b : BitVec 6) (a : BitVec 6) (d : BitVec 6) : Laws.EncodeLength.Statement (.divu b a d) := Laws.EncodeLength.of_kind _
theorem Laws.EncodeLength.rem (b : BitVec 6) (a : BitVec 6) (d : BitVec 6) : Laws.EncodeLength.Statement (.rem b a d) := Laws.EncodeLength.of_kind _
theorem Laws.EncodeLength.remu (b : BitVec 6) (a : BitVec 6) (d : BitVec 6) : Laws.EncodeLength.Statement (.remu b a d) := Laws.EncodeLength.of_kind _
theorem Laws.EncodeLength.and (b : BitVec 6) (a : BitVec 6) (d : BitVec 6) : Laws.EncodeLength.Statement (.and b a d) := Laws.EncodeLength.of_kind _
theorem Laws.EncodeLength.or (b : BitVec 6) (a : BitVec 6) (d : BitVec 6) : Laws.EncodeLength.Statement (.or b a d) := Laws.EncodeLength.of_kind _
theorem Laws.EncodeLength.xor (b : BitVec 6) (a : BitVec 6) (d : BitVec 6) : Laws.EncodeLength.Statement (.xor b a d) := Laws.EncodeLength.of_kind _
theorem Laws.EncodeLength.andn (b : BitVec 6) (a : BitVec 6) (d : BitVec 6) : Laws.EncodeLength.Statement (.andn b a d) := Laws.EncodeLength.of_kind _
theorem Laws.EncodeLength.shl (b : BitVec 6) (a : BitVec 6) (d : BitVec 6) : Laws.EncodeLength.Statement (.shl b a d) := Laws.EncodeLength.of_kind _
theorem Laws.EncodeLength.shr (b : BitVec 6) (a : BitVec 6) (d : BitVec 6) : Laws.EncodeLength.Statement (.shr b a d) := Laws.EncodeLength.of_kind _
theorem Laws.EncodeLength.sra (b : BitVec 6) (a : BitVec 6) (d : BitVec 6) : Laws.EncodeLength.Statement (.sra b a d) := Laws.EncodeLength.of_kind _
theorem Laws.EncodeLength.min (b : BitVec 6) (a : BitVec 6) (d : BitVec 6) : Laws.EncodeLength.Statement (.min b a d) := Laws.EncodeLength.of_kind _
theorem Laws.EncodeLength.minu (b : BitVec 6) (a : BitVec 6) (d : BitVec 6) : Laws.EncodeLength.Statement (.minu b a d) := Laws.EncodeLength.of_kind _
theorem Laws.EncodeLength.max (b : BitVec 6) (a : BitVec 6) (d : BitVec 6) : Laws.EncodeLength.Statement (.max b a d) := Laws.EncodeLength.of_kind _
theorem Laws.EncodeLength.maxu (b : BitVec 6) (a : BitVec 6) (d : BitVec 6) : Laws.EncodeLength.Statement (.maxu b a d) := Laws.EncodeLength.of_kind _
theorem Laws.EncodeLength.slt (b : BitVec 6) (a : BitVec 6) (d : BitVec 6) : Laws.EncodeLength.Statement (.slt b a d) := Laws.EncodeLength.of_kind _
theorem Laws.EncodeLength.sltu (b : BitVec 6) (a : BitVec 6) (d : BitVec 6) : Laws.EncodeLength.Statement (.sltu b a d) := Laws.EncodeLength.of_kind _
theorem Laws.EncodeLength.seq (b : BitVec 6) (a : BitVec 6) (d : BitVec 6) : Laws.EncodeLength.Statement (.seq b a d) := Laws.EncodeLength.of_kind _
theorem Laws.EncodeLength.clz (a : BitVec 6) (d : BitVec 6) : Laws.EncodeLength.Statement (.clz a d) := Laws.EncodeLength.of_kind _
theorem Laws.EncodeLength.ctz (a : BitVec 6) (d : BitVec 6) : Laws.EncodeLength.Statement (.ctz a d) := Laws.EncodeLength.of_kind _
theorem Laws.EncodeLength.popc (a : BitVec 6) (d : BitVec 6) : Laws.EncodeLength.Statement (.popc a d) := Laws.EncodeLength.of_kind _
theorem Laws.EncodeLength.bfx (b : BitVec 6) (a : BitVec 6) (d : BitVec 6) : Laws.EncodeLength.Statement (.bfx b a d) := Laws.EncodeLength.of_kind _
theorem Laws.EncodeLength.bfi (b : BitVec 6) (a : BitVec 6) (d : BitVec 6) : Laws.EncodeLength.Statement (.bfi b a d) := Laws.EncodeLength.of_kind _
theorem Laws.EncodeLength.addi (i : BitVec 13) (a : BitVec 6) (d : BitVec 6) : Laws.EncodeLength.Statement (.addi i a d) := Laws.EncodeLength.of_kind _
theorem Laws.EncodeLength.andi (i : BitVec 13) (a : BitVec 6) (d : BitVec 6) : Laws.EncodeLength.Statement (.andi i a d) := Laws.EncodeLength.of_kind _
theorem Laws.EncodeLength.ori (i : BitVec 13) (a : BitVec 6) (d : BitVec 6) : Laws.EncodeLength.Statement (.ori i a d) := Laws.EncodeLength.of_kind _
theorem Laws.EncodeLength.xori (i : BitVec 13) (a : BitVec 6) (d : BitVec 6) : Laws.EncodeLength.Statement (.xori i a d) := Laws.EncodeLength.of_kind _
theorem Laws.EncodeLength.shli (i : BitVec 6) (a : BitVec 6) (d : BitVec 6) : Laws.EncodeLength.Statement (.shli i a d) := Laws.EncodeLength.of_kind _
theorem Laws.EncodeLength.shri (i : BitVec 6) (a : BitVec 6) (d : BitVec 6) : Laws.EncodeLength.Statement (.shri i a d) := Laws.EncodeLength.of_kind _
theorem Laws.EncodeLength.srai (i : BitVec 6) (a : BitVec 6) (d : BitVec 6) : Laws.EncodeLength.Statement (.srai i a d) := Laws.EncodeLength.of_kind _
theorem Laws.EncodeLength.slti (i : BitVec 13) (a : BitVec 6) (d : BitVec 6) : Laws.EncodeLength.Statement (.slti i a d) := Laws.EncodeLength.of_kind _
theorem Laws.EncodeLength.sltiu (i : BitVec 13) (a : BitVec 6) (d : BitVec 6) : Laws.EncodeLength.Statement (.sltiu i a d) := Laws.EncodeLength.of_kind _
theorem Laws.EncodeLength.lui (i : BitVec 19) (d : BitVec 6) : Laws.EncodeLength.Statement (.lui i d) := Laws.EncodeLength.of_kind _
theorem Laws.EncodeLength.pcaddi (i : BitVec 19) (d : BitVec 6) : Laws.EncodeLength.Statement (.pcaddi i d) := Laws.EncodeLength.of_kind _
theorem Laws.EncodeLength.beq (i : BitVec 13) (b : BitVec 6) (a : BitVec 6) : Laws.EncodeLength.Statement (.beq i b a) := Laws.EncodeLength.of_kind _
theorem Laws.EncodeLength.bne (i : BitVec 13) (b : BitVec 6) (a : BitVec 6) : Laws.EncodeLength.Statement (.bne i b a) := Laws.EncodeLength.of_kind _
theorem Laws.EncodeLength.blt (i : BitVec 13) (b : BitVec 6) (a : BitVec 6) : Laws.EncodeLength.Statement (.blt i b a) := Laws.EncodeLength.of_kind _
theorem Laws.EncodeLength.bge (i : BitVec 13) (b : BitVec 6) (a : BitVec 6) : Laws.EncodeLength.Statement (.bge i b a) := Laws.EncodeLength.of_kind _
theorem Laws.EncodeLength.bltu (i : BitVec 13) (b : BitVec 6) (a : BitVec 6) : Laws.EncodeLength.Statement (.bltu i b a) := Laws.EncodeLength.of_kind _
theorem Laws.EncodeLength.bgeu (i : BitVec 13) (b : BitVec 6) (a : BitVec 6) : Laws.EncodeLength.Statement (.bgeu i b a) := Laws.EncodeLength.of_kind _
theorem Laws.EncodeLength.jal (i : BitVec 19) (d : BitVec 6) : Laws.EncodeLength.Statement (.jal i d) := Laws.EncodeLength.of_kind _
theorem Laws.EncodeLength.jalr (i : BitVec 13) (a : BitVec 6) (d : BitVec 6) : Laws.EncodeLength.Statement (.jalr i a d) := Laws.EncodeLength.of_kind _
theorem Laws.EncodeLength.ld (o : BitVec 8) (h : BitVec 2) (x : BitVec 1) (z : BitVec 2) (a : BitVec 6) (d : BitVec 6) : Laws.EncodeLength.Statement (.ld o h x z a d) := Laws.EncodeLength.of_kind _
theorem Laws.EncodeLength.st (o : BitVec 8) (h : BitVec 2) (z : BitVec 2) (a : BitVec 6) (s : BitVec 6) : Laws.EncodeLength.Statement (.st o h z a s) := Laws.EncodeLength.of_kind _
theorem Laws.EncodeLength.lds (o : BitVec 8) (x : BitVec 1) (z : BitVec 2) (a : BitVec 6) (d : BitVec 6) : Laws.EncodeLength.Statement (.lds o x z a d) := Laws.EncodeLength.of_kind _
theorem Laws.EncodeLength.sts (o : BitVec 8) (z : BitVec 2) (a : BitVec 6) (s : BitVec 6) : Laws.EncodeLength.Statement (.sts o z a s) := Laws.EncodeLength.of_kind _
theorem Laws.EncodeLength.amo (o : BitVec 2) (x : BitVec 1) (z : BitVec 1) (p : BitVec 3) (b : BitVec 6) (a : BitVec 6) (d : BitVec 6) : Laws.EncodeLength.Statement (.amo o x z p b a d) := Laws.EncodeLength.of_kind _
theorem Laws.EncodeLength.pfetch (o : BitVec 8) (h : BitVec 2) (a : BitVec 6) : Laws.EncodeLength.Statement (.pfetch o h a) := Laws.EncodeLength.of_kind _
theorem Laws.EncodeLength.clause (i : BitVec 19) (a : BitVec 6) : Laws.EncodeLength.Statement (.clause i a) := Laws.EncodeLength.of_kind _
theorem Laws.EncodeLength.waitf (m : BitVec 12) : Laws.EncodeLength.Statement (.waitf m) := Laws.EncodeLength.of_kind _
theorem Laws.EncodeLength.testf (m : BitVec 12) (d : BitVec 6) : Laws.EncodeLength.Statement (.testf m d) := Laws.EncodeLength.of_kind _
theorem Laws.EncodeLength.binit (k : BitVec 1) (b : BitVec 6) (a : BitVec 6) (c : BitVec 6) : Laws.EncodeLength.Statement (.binit k b a c) := Laws.EncodeLength.of_kind _
theorem Laws.EncodeLength.arrive (e : BitVec 13) (a : BitVec 6) (d : BitVec 6) : Laws.EncodeLength.Statement (.arrive e a d) := Laws.EncodeLength.of_kind _
theorem Laws.EncodeLength.arriveb (t : BitVec 1) (b : BitVec 6) (a : BitVec 6) (d : BitVec 6) : Laws.EncodeLength.Statement (.arriveb t b a d) := Laws.EncodeLength.of_kind _
theorem Laws.EncodeLength.waitph (r : BitVec 1) (t : BitVec 1) (a : BitVec 6) (d : BitVec 6) : Laws.EncodeLength.Statement (.waitph r t a d) := Laws.EncodeLength.of_kind _
theorem Laws.EncodeLength.testph (t : BitVec 1) (a : BitVec 6) (d : BitVec 6) : Laws.EncodeLength.Statement (.testph t a d) := Laws.EncodeLength.of_kind _
theorem Laws.EncodeLength.bdrop (w : BitVec 1) (a : BitVec 6) (d : BitVec 6) : Laws.EncodeLength.Statement (.bdrop w a d) := Laws.EncodeLength.of_kind _
theorem Laws.EncodeLength.mbind (b : BitVec 6) (a : BitVec 6) : Laws.EncodeLength.Statement (.mbind b a) := Laws.EncodeLength.of_kind _
theorem Laws.EncodeLength.tlend (k : BitVec 2) (b : BitVec 6) (a : BitVec 6) (d : BitVec 6) : Laws.EncodeLength.Statement (.tlend k b a d) := Laws.EncodeLength.of_kind _
theorem Laws.EncodeLength.tret (h : BitVec 1) (a : BitVec 6) (d : BitVec 6) : Laws.EncodeLength.Statement (.tret h a d) := Laws.EncodeLength.of_kind _
theorem Laws.EncodeLength.tsplit (a : BitVec 6) (d : BitVec 6) : Laws.EncodeLength.Statement (.tsplit a d) := Laws.EncodeLength.of_kind _
theorem Laws.EncodeLength.tjoin (a : BitVec 6) (d : BitVec 6) : Laws.EncodeLength.Statement (.tjoin a d) := Laws.EncodeLength.of_kind _
theorem Laws.EncodeLength.tshare (b : BitVec 6) (a : BitVec 6) (d : BitVec 6) : Laws.EncodeLength.Statement (.tshare b a d) := Laws.EncodeLength.of_kind _
theorem Laws.EncodeLength.tquery (x : BitVec 1) (w : BitVec 2) (a : BitVec 6) (d : BitVec 6) : Laws.EncodeLength.Statement (.tquery x w a d) := Laws.EncodeLength.of_kind _
theorem Laws.EncodeLength.treclaim (c : BitVec 1) (b : BitVec 6) (a : BitVec 6) (d : BitVec 6) : Laws.EncodeLength.Statement (.treclaim c b a d) := Laws.EncodeLength.of_kind _
theorem Laws.EncodeLength.tryStart (i : BitVec 19) (d : BitVec 6) : Laws.EncodeLength.Statement (.tryStart i d) := Laws.EncodeLength.of_kind _
theorem Laws.EncodeLength.commit (d : BitVec 6) : Laws.EncodeLength.Statement (.commit d) := Laws.EncodeLength.of_kind _
theorem Laws.EncodeLength.abort (e : BitVec 8) : Laws.EncodeLength.Statement (.abort e) := Laws.EncodeLength.of_kind _
theorem Laws.EncodeLength.fence (k : BitVec 2) (s : BitVec 3) : Laws.EncodeLength.Statement (.fence k s) := Laws.EncodeLength.of_kind _
theorem Laws.EncodeLength.qfence (r : BitVec 1) (p : BitVec 1) (q : BitVec 4) : Laws.EncodeLength.Statement (.qfence r p q) := Laws.EncodeLength.of_kind _
theorem Laws.EncodeLength.tsig (e : BitVec 13) (a : BitVec 6) (d : BitVec 6) : Laws.EncodeLength.Statement (.tsig e a d) := Laws.EncodeLength.of_kind _
theorem Laws.EncodeLength.tlaunch (b : BitVec 6) (a : BitVec 6) (d : BitVec 6) : Laws.EncodeLength.Statement (.tlaunch b a d) := Laws.EncodeLength.of_kind _
theorem Laws.EncodeLength.kick (b : BitVec 6) (a : BitVec 6) (d : BitVec 6) : Laws.EncodeLength.Statement (.kick b a d) := Laws.EncodeLength.of_kind _
theorem Laws.EncodeLength.ecall (e : BitVec 19) : Laws.EncodeLength.Statement (.ecall e) := Laws.EncodeLength.of_kind _
theorem Laws.EncodeLength.xret : Laws.EncodeLength.Statement .xret := Laws.EncodeLength.of_kind _
theorem Laws.EncodeLength.getc (c : BitVec 12) (d : BitVec 6) : Laws.EncodeLength.Statement (.getc c d) := Laws.EncodeLength.of_kind _
theorem Laws.EncodeLength.setc (c : BitVec 12) (a : BitVec 6) : Laws.EncodeLength.Statement (.setc c a) := Laws.EncodeLength.of_kind _
theorem Laws.EncodeLength.chkerr (d : BitVec 6) : Laws.EncodeLength.Statement (.chkerr d) := Laws.EncodeLength.of_kind _
theorem Laws.EncodeLength.exit : Laws.EncodeLength.Statement .exit := Laws.EncodeLength.of_kind _
theorem Laws.EncodeLength.nop : Laws.EncodeLength.Statement .nop := Laws.EncodeLength.of_kind _
theorem Laws.EncodeLength.brk (e : BitVec 19) : Laws.EncodeLength.Statement (.brk e) := Laws.EncodeLength.of_kind _
theorem Laws.EncodeLength.yield : Laws.EncodeLength.Statement .yield := Laws.EncodeLength.of_kind _
theorem Laws.EncodeLength.pginvRange (b : BitVec 6) (a : BitVec 6) : Laws.EncodeLength.Statement (.pginvRange b a) := Laws.EncodeLength.of_kind _
theorem Laws.EncodeLength.pginvToken (a : BitVec 6) : Laws.EncodeLength.Statement (.pginvToken a) := Laws.EncodeLength.of_kind _
theorem Laws.EncodeLength.pginvAll : Laws.EncodeLength.Statement .pginvAll := Laws.EncodeLength.of_kind _
theorem Laws.EncodeLength.mma (k : BitVec 1) (c : BitVec 6) (b : BitVec 6) (a : BitVec 6) (y : BitVec 1) (x : BitVec 1) (u : BitVec 1) (z : BitVec 3) : Laws.EncodeLength.Statement (.mma k c b a y x u z) := Laws.EncodeLength.of_kind _
theorem Laws.EncodeLength.mzero (z : BitVec 3) : Laws.EncodeLength.Statement (.mzero z) := Laws.EncodeLength.of_kind _
theorem Laws.EncodeLength.mdrain (c : BitVec 6) (a : BitVec 6) (l : BitVec 1) (z : BitVec 3) : Laws.EncodeLength.Statement (.mdrain c a l z) := Laws.EncodeLength.of_kind _
theorem Laws.EncodeLength.mcheckMode (a : BitVec 6) : Laws.EncodeLength.Statement (.mcheckMode a) := Laws.EncodeLength.of_kind _
theorem Laws.EncodeLength.mcheckInject (b : BitVec 6) (a : BitVec 6) : Laws.EncodeLength.Statement (.mcheckInject b a) := Laws.EncodeLength.of_kind _
theorem Laws.EncodeLength.mwake : Laws.EncodeLength.Statement .mwake := Laws.EncodeLength.of_kind _
theorem Laws.EncodeLength.mstat (l : BitVec 1) (c : BitVec 4) (a : BitVec 6) (d : BitVec 6) : Laws.EncodeLength.Statement (.mstat l c a d) := Laws.EncodeLength.of_kind _
theorem Laws.EncodeLength.nbload (n : BitVec 6) (b : BitVec 6) (a : BitVec 6) (d : BitVec 6) : Laws.EncodeLength.Statement (.nbload n b a d) := Laws.EncodeLength.of_kind _
theorem Laws.EncodeLength.nbrun (b : BitVec 6) (a : BitVec 6) (d : BitVec 6) : Laws.EncodeLength.Statement (.nbrun b a d) := Laws.EncodeLength.of_kind _
theorem Laws.EncodeLength.nbpoll (e : BitVec 1) (a : BitVec 6) (d : BitVec 6) : Laws.EncodeLength.Statement (.nbpoll e a d) := Laws.EncodeLength.of_kind _
theorem Laws.EncodeLength.vadd (f : LaneWord) : Laws.EncodeLength.Statement (.vadd f) := Laws.EncodeLength.of_kind _
theorem Laws.EncodeLength.vsub (f : LaneWord) : Laws.EncodeLength.Statement (.vsub f) := Laws.EncodeLength.of_kind _
theorem Laws.EncodeLength.vmul (f : LaneWord) : Laws.EncodeLength.Statement (.vmul f) := Laws.EncodeLength.of_kind _
theorem Laws.EncodeLength.vmulh (f : LaneWord) : Laws.EncodeLength.Statement (.vmulh f) := Laws.EncodeLength.of_kind _
theorem Laws.EncodeLength.vmad (f : LaneWord) : Laws.EncodeLength.Statement (.vmad f) := Laws.EncodeLength.of_kind _
theorem Laws.EncodeLength.vdiv (f : LaneWord) : Laws.EncodeLength.Statement (.vdiv f) := Laws.EncodeLength.of_kind _
theorem Laws.EncodeLength.vrem (f : LaneWord) : Laws.EncodeLength.Statement (.vrem f) := Laws.EncodeLength.of_kind _
theorem Laws.EncodeLength.vmin (f : LaneWord) : Laws.EncodeLength.Statement (.vmin f) := Laws.EncodeLength.of_kind _
theorem Laws.EncodeLength.vmax (f : LaneWord) : Laws.EncodeLength.Statement (.vmax f) := Laws.EncodeLength.of_kind _
theorem Laws.EncodeLength.vabs (f : LaneWord) : Laws.EncodeLength.Statement (.vabs f) := Laws.EncodeLength.of_kind _
theorem Laws.EncodeLength.vabsdiff (f : LaneWord) : Laws.EncodeLength.Statement (.vabsdiff f) := Laws.EncodeLength.of_kind _
theorem Laws.EncodeLength.vand (f : LaneWord) : Laws.EncodeLength.Statement (.vand f) := Laws.EncodeLength.of_kind _
theorem Laws.EncodeLength.vor (f : LaneWord) : Laws.EncodeLength.Statement (.vor f) := Laws.EncodeLength.of_kind _
theorem Laws.EncodeLength.vxor (f : LaneWord) : Laws.EncodeLength.Statement (.vxor f) := Laws.EncodeLength.of_kind _
theorem Laws.EncodeLength.vnot (f : LaneWord) : Laws.EncodeLength.Statement (.vnot f) := Laws.EncodeLength.of_kind _
theorem Laws.EncodeLength.vshl (f : LaneWord) : Laws.EncodeLength.Statement (.vshl f) := Laws.EncodeLength.of_kind _
theorem Laws.EncodeLength.vshr (f : LaneWord) : Laws.EncodeLength.Statement (.vshr f) := Laws.EncodeLength.of_kind _
theorem Laws.EncodeLength.vsra (f : LaneWord) : Laws.EncodeLength.Statement (.vsra f) := Laws.EncodeLength.of_kind _
theorem Laws.EncodeLength.vrot (f : LaneWord) : Laws.EncodeLength.Statement (.vrot f) := Laws.EncodeLength.of_kind _
theorem Laws.EncodeLength.vclz (f : LaneWord) : Laws.EncodeLength.Statement (.vclz f) := Laws.EncodeLength.of_kind _
theorem Laws.EncodeLength.vpopc (f : LaneWord) : Laws.EncodeLength.Statement (.vpopc f) := Laws.EncodeLength.of_kind _
theorem Laws.EncodeLength.vbfx (f : LaneWord) : Laws.EncodeLength.Statement (.vbfx f) := Laws.EncodeLength.of_kind _
theorem Laws.EncodeLength.vbfi (f : LaneWord) : Laws.EncodeLength.Statement (.vbfi f) := Laws.EncodeLength.of_kind _
theorem Laws.EncodeLength.vcmp (f : LaneWord) : Laws.EncodeLength.Statement (.vcmp f) := Laws.EncodeLength.of_kind _
theorem Laws.EncodeLength.vsel (f : LaneWord) : Laws.EncodeLength.Statement (.vsel f) := Laws.EncodeLength.of_kind _
theorem Laws.EncodeLength.vdp4 (f : LaneWord) : Laws.EncodeLength.Statement (.vdp4 f) := Laws.EncodeLength.of_kind _
theorem Laws.EncodeLength.vfadd (f : LaneWord) : Laws.EncodeLength.Statement (.vfadd f) := Laws.EncodeLength.of_kind _
theorem Laws.EncodeLength.vfmul (f : LaneWord) : Laws.EncodeLength.Statement (.vfmul f) := Laws.EncodeLength.of_kind _
theorem Laws.EncodeLength.vffma (f : LaneWord) : Laws.EncodeLength.Statement (.vffma f) := Laws.EncodeLength.of_kind _
theorem Laws.EncodeLength.vfmin (f : LaneWord) : Laws.EncodeLength.Statement (.vfmin f) := Laws.EncodeLength.of_kind _
theorem Laws.EncodeLength.vfmax (f : LaneWord) : Laws.EncodeLength.Statement (.vfmax f) := Laws.EncodeLength.of_kind _
theorem Laws.EncodeLength.vfcmp (f : LaneWord) : Laws.EncodeLength.Statement (.vfcmp f) := Laws.EncodeLength.of_kind _
theorem Laws.EncodeLength.vfrcp (f : LaneWord) : Laws.EncodeLength.Statement (.vfrcp f) := Laws.EncodeLength.of_kind _
theorem Laws.EncodeLength.vfrsq (f : LaneWord) : Laws.EncodeLength.Statement (.vfrsq f) := Laws.EncodeLength.of_kind _
theorem Laws.EncodeLength.vfsqrt (f : LaneWord) : Laws.EncodeLength.Statement (.vfsqrt f) := Laws.EncodeLength.of_kind _
theorem Laws.EncodeLength.vfexp2 (f : LaneWord) : Laws.EncodeLength.Statement (.vfexp2 f) := Laws.EncodeLength.of_kind _
theorem Laws.EncodeLength.vflog2 (f : LaneWord) : Laws.EncodeLength.Statement (.vflog2 f) := Laws.EncodeLength.of_kind _
theorem Laws.EncodeLength.vfsin (f : LaneWord) : Laws.EncodeLength.Statement (.vfsin f) := Laws.EncodeLength.of_kind _
theorem Laws.EncodeLength.vfcos (f : LaneWord) : Laws.EncodeLength.Statement (.vfcos f) := Laws.EncodeLength.of_kind _
theorem Laws.EncodeLength.vfdiv (f : LaneWord) : Laws.EncodeLength.Statement (.vfdiv f) := Laws.EncodeLength.of_kind _
theorem Laws.EncodeLength.vfclass (f : LaneWord) : Laws.EncodeLength.Statement (.vfclass f) := Laws.EncodeLength.of_kind _
theorem Laws.EncodeLength.vfdot2 (f : LaneWord) : Laws.EncodeLength.Statement (.vfdot2 f) := Laws.EncodeLength.of_kind _
theorem Laws.EncodeLength.vfround (f : LaneWord) : Laws.EncodeLength.Statement (.vfround f) := Laws.EncodeLength.of_kind _
theorem Laws.EncodeLength.vcvt (f : LaneWord) : Laws.EncodeLength.Statement (.vcvt f) := Laws.EncodeLength.of_kind _
theorem Laws.EncodeLength.vpackbs (f : LaneWord) : Laws.EncodeLength.Statement (.vpackbs f) := Laws.EncodeLength.of_kind _
theorem Laws.EncodeLength.vunpackbs (f : LaneWord) : Laws.EncodeLength.Statement (.vunpackbs f) := Laws.EncodeLength.of_kind _
theorem Laws.EncodeLength.vmov (f : LaneWord) : Laws.EncodeLength.Statement (.vmov f) := Laws.EncodeLength.of_kind _
theorem Laws.EncodeLength.vshfl (f : LaneWord) : Laws.EncodeLength.Statement (.vshfl f) := Laws.EncodeLength.of_kind _
theorem Laws.EncodeLength.vvote (f : LaneWord) : Laws.EncodeLength.Statement (.vvote f) := Laws.EncodeLength.of_kind _
theorem Laws.EncodeLength.vredsc (f : LaneWord) : Laws.EncodeLength.Statement (.vredsc f) := Laws.EncodeLength.of_kind _
theorem Laws.EncodeLength.vprmt (f : LaneWord) : Laws.EncodeLength.Statement (.vprmt f) := Laws.EncodeLength.of_kind _
theorem Laws.EncodeLength.vspec (f : LaneWord) : Laws.EncodeLength.Statement (.vspec f) := Laws.EncodeLength.of_kind _
theorem Laws.EncodeLength.vbra (f : LaneWord) : Laws.EncodeLength.Statement (.vbra f) := Laws.EncodeLength.of_kind _
theorem Laws.EncodeLength.vbrax (f : LaneWord) : Laws.EncodeLength.Statement (.vbrax f) := Laws.EncodeLength.of_kind _
theorem Laws.EncodeLength.vmark (f : LaneWord) : Laws.EncodeLength.Statement (.vmark f) := Laws.EncodeLength.of_kind _
theorem Laws.EncodeLength.vjoin (f : LaneWord) : Laws.EncodeLength.Statement (.vjoin f) := Laws.EncodeLength.of_kind _
theorem Laws.EncodeLength.vcall (f : LaneWord) : Laws.EncodeLength.Statement (.vcall f) := Laws.EncodeLength.of_kind _
theorem Laws.EncodeLength.vret (f : LaneWord) : Laws.EncodeLength.Statement (.vret f) := Laws.EncodeLength.of_kind _
theorem Laws.EncodeLength.vexit (f : LaneWord) : Laws.EncodeLength.Statement (.vexit f) := Laws.EncodeLength.of_kind _
theorem Laws.EncodeLength.vspawn (f : LaneWord) : Laws.EncodeLength.Statement (.vspawn f) := Laws.EncodeLength.of_kind _
theorem Laws.EncodeLength.vkop (f : LaneWord) : Laws.EncodeLength.Statement (.vkop f) := Laws.EncodeLength.of_kind _
theorem Laws.EncodeLength.vkmov (f : LaneWord) : Laws.EncodeLength.Statement (.vkmov f) := Laws.EncodeLength.of_kind _
theorem Laws.EncodeLength.vld (f : LaneWord) : Laws.EncodeLength.Statement (.vld f) := Laws.EncodeLength.of_kind _
theorem Laws.EncodeLength.vst (f : LaneWord) : Laws.EncodeLength.Statement (.vst f) := Laws.EncodeLength.of_kind _
theorem Laws.EncodeLength.vlds (f : LaneWord) : Laws.EncodeLength.Statement (.vlds f) := Laws.EncodeLength.of_kind _
theorem Laws.EncodeLength.vsts (f : LaneWord) : Laws.EncodeLength.Statement (.vsts f) := Laws.EncodeLength.of_kind _
theorem Laws.EncodeLength.vldspec (f : LaneWord) : Laws.EncodeLength.Statement (.vldspec f) := Laws.EncodeLength.of_kind _
theorem Laws.EncodeLength.vatom (f : LaneWord) : Laws.EncodeLength.Statement (.vatom f) := Laws.EncodeLength.of_kind _
theorem Laws.EncodeLength.vred (f : LaneWord) : Laws.EncodeLength.Statement (.vred f) := Laws.EncodeLength.of_kind _
theorem Laws.EncodeLength.vpf (f : LaneWord) : Laws.EncodeLength.Statement (.vpf f) := Laws.EncodeLength.of_kind _
theorem Laws.EncodeLength.vcopyIn (f : LaneWord) : Laws.EncodeLength.Statement (.vcopyIn f) := Laws.EncodeLength.of_kind _
theorem Laws.EncodeLength.vcopyOut (f : LaneWord) : Laws.EncodeLength.Statement (.vcopyOut f) := Laws.EncodeLength.of_kind _
theorem Laws.EncodeLength.vcast (f : LaneWord) : Laws.EncodeLength.Statement (.vcast f) := Laws.EncodeLength.of_kind _
theorem Laws.EncodeLength.vfence (f : LaneWord) : Laws.EncodeLength.Statement (.vfence f) := Laws.EncodeLength.of_kind _
theorem Laws.EncodeLength.varrive (f : LaneWord) : Laws.EncodeLength.Statement (.varrive f) := Laws.EncodeLength.of_kind _
theorem Laws.EncodeLength.vlabort (f : LaneWord) : Laws.EncodeLength.Statement (.vlabort f) := Laws.EncodeLength.of_kind _
theorem Laws.EncodeLength.nrow (m : BitVec 4) : Laws.EncodeLength.Statement (.nrow m) := Laws.EncodeLength.of_kind _
theorem Laws.EncodeLength.nld (d : BitVec 3) (k : BitVec 3) (s : BitVec 2) : Laws.EncodeLength.Statement (.nld d k s) := Laws.EncodeLength.of_kind _
theorem Laws.EncodeLength.nst (a : BitVec 3) (k : BitVec 3) (s : BitVec 2) : Laws.EncodeLength.Statement (.nst a k s) := Laws.EncodeLength.of_kind _
theorem Laws.EncodeLength.nmul (d : BitVec 3) (a : BitVec 3) (b : BitVec 3) (t : BitVec 4) (s : BitVec 1) : Laws.EncodeLength.Statement (.nmul d a b t s) := Laws.EncodeLength.of_kind _
theorem Laws.EncodeLength.nmulImm (d : BitVec 3) (a : BitVec 3) (t : BitVec 4) (s : BitVec 1) (i : BitVec 12) : Laws.EncodeLength.Statement (.nmulImm d a t s i) := Laws.EncodeLength.of_kind _
theorem Laws.EncodeLength.nadd (d : BitVec 3) (a : BitVec 3) (b : BitVec 3) (t : BitVec 4) (s : BitVec 1) : Laws.EncodeLength.Statement (.nadd d a b t s) := Laws.EncodeLength.of_kind _
theorem Laws.EncodeLength.naddImm (d : BitVec 3) (a : BitVec 3) (t : BitVec 4) (s : BitVec 1) (i : BitVec 12) : Laws.EncodeLength.Statement (.naddImm d a t s i) := Laws.EncodeLength.of_kind _
theorem Laws.EncodeLength.nmac (d : BitVec 3) (a : BitVec 3) (b : BitVec 3) (t : BitVec 4) (s : BitVec 1) : Laws.EncodeLength.Statement (.nmac d a b t s) := Laws.EncodeLength.of_kind _
theorem Laws.EncodeLength.nmacImm (d : BitVec 3) (a : BitVec 3) (t : BitVec 4) (s : BitVec 1) (i : BitVec 12) : Laws.EncodeLength.Statement (.nmacImm d a t s i) := Laws.EncodeLength.of_kind _
theorem Laws.EncodeLength.nmin (d : BitVec 3) (a : BitVec 3) (b : BitVec 3) (t : BitVec 4) : Laws.EncodeLength.Statement (.nmin d a b t) := Laws.EncodeLength.of_kind _
theorem Laws.EncodeLength.nminImm (d : BitVec 3) (a : BitVec 3) (t : BitVec 4) (i : BitVec 12) : Laws.EncodeLength.Statement (.nminImm d a t i) := Laws.EncodeLength.of_kind _
theorem Laws.EncodeLength.nmax (d : BitVec 3) (a : BitVec 3) (b : BitVec 3) (t : BitVec 4) : Laws.EncodeLength.Statement (.nmax d a b t) := Laws.EncodeLength.of_kind _
theorem Laws.EncodeLength.nmaxImm (d : BitVec 3) (a : BitVec 3) (t : BitVec 4) (i : BitVec 12) : Laws.EncodeLength.Statement (.nmaxImm d a t i) := Laws.EncodeLength.of_kind _
theorem Laws.EncodeLength.nxor (d : BitVec 3) (a : BitVec 3) (b : BitVec 3) : Laws.EncodeLength.Statement (.nxor d a b) := Laws.EncodeLength.of_kind _
theorem Laws.EncodeLength.nxorImm (d : BitVec 3) (a : BitVec 3) (i : BitVec 12) : Laws.EncodeLength.Statement (.nxorImm d a i) := Laws.EncodeLength.of_kind _
theorem Laws.EncodeLength.nmov (d : BitVec 3) (a : BitVec 3) : Laws.EncodeLength.Statement (.nmov d a) := Laws.EncodeLength.of_kind _
theorem Laws.EncodeLength.nmovImm (d : BitVec 3) (t : BitVec 4) (i : BitVec 12) : Laws.EncodeLength.Statement (.nmovImm d t i) := Laws.EncodeLength.of_kind _
theorem Laws.EncodeLength.nloop (l : BitVec 6) : Laws.EncodeLength.Statement (.nloop l) := Laws.EncodeLength.of_kind _
theorem Laws.EncodeLength.nsync : Laws.EncodeLength.Statement .nsync := Laws.EncodeLength.of_kind _
theorem Laws.EncodeLength.nend : Laws.EncodeLength.Statement .nend := Laws.EncodeLength.of_kind _
theorem Laws.EncodeLength.nnop : Laws.EncodeLength.Statement .nnop := Laws.EncodeLength.of_kind _
theorem Laws.EncodeLength.unassignedEncoding (lane : Bool) (poisoned : Bool) : Laws.EncodeLength.Statement (.unassignedEncoding lane poisoned) := Laws.EncodeLength.of_kind _
theorem Laws.EncodeLength.fetchFault (lane : Bool) (cause : Nat) (addr : BitVec 64) : Laws.EncodeLength.Statement (.fetchFault lane cause addr) := Laws.EncodeLength.of_kind _
theorem Laws.EncodeLength.clauseStart (g : Nat) : Laws.EncodeLength.Statement (.clauseStart g) := Laws.EncodeLength.of_kind _
theorem Laws.EncodeLength.longLatencyCompletion (g : Nat) (i : Nat) : Laws.EncodeLength.Statement (.longLatencyCompletion g i) := Laws.EncodeLength.of_kind _
theorem Laws.EncodeLength.accessCompletion (g : Nat) (e : Nat) : Laws.EncodeLength.Statement (.accessCompletion g e) := Laws.EncodeLength.of_kind _
theorem Laws.EncodeLength.storePerformed (g : Nat) : Laws.EncodeLength.Statement (.storePerformed g) := Laws.EncodeLength.of_kind _
theorem Laws.EncodeLength.engineStallRelease (g : Nat) : Laws.EncodeLength.Statement (.engineStallRelease g) := Laws.EncodeLength.of_kind _
theorem Laws.EncodeLength.waitphWake (g : Nat) : Laws.EncodeLength.Statement (.waitphWake g) := Laws.EncodeLength.of_kind _
theorem Laws.EncodeLength.postissueLoadFault (g : Nat) (e : Nat) : Laws.EncodeLength.Statement (.postissueLoadFault g e) := Laws.EncodeLength.of_kind _
theorem Laws.EncodeLength.impreciseStoreFault (g : Nat) : Laws.EncodeLength.Statement (.impreciseStoreFault g) := Laws.EncodeLength.of_kind _
theorem Laws.EncodeLength.postExitStoreFault (g : Nat) : Laws.EncodeLength.Statement (.postExitStoreFault g) := Laws.EncodeLength.of_kind _
theorem Laws.EncodeLength.timerEvent (g : Nat) : Laws.EncodeLength.Statement (.timerEvent g) := Laws.EncodeLength.of_kind _
theorem Laws.EncodeLength.spawnTimerExpiry (team : Nat) (bin : Nat) : Laws.EncodeLength.Statement (.spawnTimerExpiry team bin) := Laws.EncodeLength.of_kind _
theorem Laws.EncodeLength.spawnDeadlock (team : Nat) : Laws.EncodeLength.Statement (.spawnDeadlock team) := Laws.EncodeLength.of_kind _
theorem Laws.EncodeLength.trygraceExpiry (g : Nat) : Laws.EncodeLength.Statement (.trygraceExpiry g) := Laws.EncodeLength.of_kind _
theorem Laws.EncodeLength.preemptSaveComplete (team : Nat) : Laws.EncodeLength.Statement (.preemptSaveComplete team) := Laws.EncodeLength.of_kind _
theorem Laws.EncodeLength.waitEviction (cluster : Nat) : Laws.EncodeLength.Statement (.waitEviction cluster) := Laws.EncodeLength.of_kind _
theorem Laws.EncodeLength.relaunch (cluster : Nat) : Laws.EncodeLength.Statement (.relaunch cluster) := Laws.EncodeLength.of_kind _
theorem Laws.EncodeLength.placementPass (p : Nat) : Laws.EncodeLength.Statement (.placementPass p) := Laws.EncodeLength.of_kind _
theorem Laws.EncodeLength.reservation (p : Nat) : Laws.EncodeLength.Statement (.reservation p) := Laws.EncodeLength.of_kind _
theorem Laws.EncodeLength.queueRecordTake (q : Nat) : Laws.EncodeLength.Statement (.queueRecordTake q) := Laws.EncodeLength.of_kind _
theorem Laws.EncodeLength.qtailDoorbell (q : Nat) (v : BitVec 32) : Laws.EncodeLength.Statement (.qtailDoorbell q v) := Laws.EncodeLength.of_kind _
theorem Laws.EncodeLength.qctlWrite (q : Nat) (v : BitVec 32) : Laws.EncodeLength.Statement (.qctlWrite q v) := Laws.EncodeLength.of_kind _
theorem Laws.EncodeLength.pfqctlWrite (p : Nat) (v : BitVec 32) : Laws.EncodeLength.Statement (.pfqctlWrite p v) := Laws.EncodeLength.of_kind _
theorem Laws.EncodeLength.ppreemptCluster (p : Nat) (cluster : Nat) : Laws.EncodeLength.Statement (.ppreemptCluster p cluster) := Laws.EncodeLength.of_kind _
theorem Laws.EncodeLength.ppreemptAll (p : Nat) : Laws.EncodeLength.Statement (.ppreemptAll p) := Laws.EncodeLength.of_kind _
theorem Laws.EncodeLength.l2ModeChange : Laws.EncodeLength.Statement .l2ModeChange := Laws.EncodeLength.of_kind _
theorem Laws.EncodeLength.coreMapChange (core : Nat) : Laws.EncodeLength.Statement (.coreMapChange core) := Laws.EncodeLength.of_kind _
theorem Laws.EncodeLength.registerLineFill (g : Nat) (line : Nat) (copies : Nat) : Laws.EncodeLength.Statement (.registerLineFill g line copies) := Laws.EncodeLength.of_kind _
theorem Laws.EncodeLength.l2Fill (line : Nat) : Laws.EncodeLength.Statement (.l2Fill line) := Laws.EncodeLength.of_kind _
theorem Laws.EncodeLength.uncorrectableError (kind : Nat) (unit : Nat) (loc : Nat) : Laws.EncodeLength.Statement (.uncorrectableError kind unit loc) := Laws.EncodeLength.of_kind _
theorem Laws.EncodeLength.unitLost (stack : Nat) (chan : Nat) : Laws.EncodeLength.Statement (.unitLost stack chan) := Laws.EncodeLength.of_kind _
theorem Laws.EncodeLength.trncmdDropStack (v : BitVec 64) : Laws.EncodeLength.Statement (.trncmdDropStack v) := Laws.EncodeLength.of_kind _
theorem Laws.EncodeLength.trncmdDropChannel (v : BitVec 64) : Laws.EncodeLength.Statement (.trncmdDropChannel v) := Laws.EncodeLength.of_kind _
theorem Laws.EncodeLength.trncmdDropBank (v : BitVec 64) : Laws.EncodeLength.Statement (.trncmdDropBank v) := Laws.EncodeLength.of_kind _
theorem Laws.EncodeLength.trncmdUnknown (v : BitVec 64) : Laws.EncodeLength.Statement (.trncmdUnknown v) := Laws.EncodeLength.of_kind _
theorem Laws.EncodeLength.turnerGroupStep (i : Nat) : Laws.EncodeLength.Statement (.turnerGroupStep i) := Laws.EncodeLength.of_kind _
theorem Laws.EncodeLength.replayReissue (unit : Nat) : Laws.EncodeLength.Statement (.replayReissue unit) := Laws.EncodeLength.of_kind _
theorem Laws.EncodeLength.frmrelWrite (v : BitVec 32) : Laws.EncodeLength.Statement (.frmrelWrite v) := Laws.EncodeLength.of_kind _
theorem Laws.EncodeLength.pprcmdWrite (v : BitVec 64) : Laws.EncodeLength.Statement (.pprcmdWrite v) := Laws.EncodeLength.of_kind _
theorem Laws.EncodeLength.pprComplete (ok : Bool) : Laws.EncodeLength.Statement (.pprComplete ok) := Laws.EncodeLength.of_kind _
theorem Laws.EncodeLength.brusherRowScrub (chan : Nat) (finding : Nat) (sector : Nat) : Laws.EncodeLength.Statement (.brusherRowScrub chan finding sector) := Laws.EncodeLength.of_kind _
theorem Laws.EncodeLength.refreshDue (bank : Nat) : Laws.EncodeLength.Statement (.refreshDue bank) := Laws.EncodeLength.of_kind _
theorem Laws.EncodeLength.refreshManagementCommand (bank : Nat) : Laws.EncodeLength.Statement (.refreshManagementCommand bank) := Laws.EncodeLength.of_kind _
theorem Laws.EncodeLength.burstBreak (core : Nat) (bank : Nat) : Laws.EncodeLength.Statement (.burstBreak core bank) := Laws.EncodeLength.of_kind _
theorem Laws.EncodeLength.sample (core : Nat) : Laws.EncodeLength.Statement (.sample core) := Laws.EncodeLength.of_kind _
theorem Laws.EncodeLength.pressMmaPerform (core : Nat) : Laws.EncodeLength.Statement (.pressMmaPerform core) := Laws.EncodeLength.of_kind _
theorem Laws.EncodeLength.pressMdrainPerform (core : Nat) : Laws.EncodeLength.Statement (.pressMdrainPerform core) := Laws.EncodeLength.of_kind _
theorem Laws.EncodeLength.pressMzeroPerform (core : Nat) : Laws.EncodeLength.Statement (.pressMzeroPerform core) := Laws.EncodeLength.of_kind _
theorem Laws.EncodeLength.pressMcheckPerform (core : Nat) : Laws.EncodeLength.Statement (.pressMcheckPerform core) := Laws.EncodeLength.of_kind _
theorem Laws.EncodeLength.pressReleaseRetry (core : Nat) : Laws.EncodeLength.Statement (.pressReleaseRetry core) := Laws.EncodeLength.of_kind _
theorem Laws.EncodeLength.subarrayGate (core : Nat) (q : Nat) : Laws.EncodeLength.Statement (.subarrayGate core q) := Laws.EncodeLength.of_kind _
theorem Laws.EncodeLength.subarrayWakeDone (core : Nat) (q : Nat) : Laws.EncodeLength.Statement (.subarrayWakeDone core q) := Laws.EncodeLength.of_kind _
theorem Laws.EncodeLength.ladleTransfer (core : Nat) (q : Nat) : Laws.EncodeLength.Statement (.ladleTransfer core q) := Laws.EncodeLength.of_kind _
theorem Laws.EncodeLength.ladleCountRetry (core : Nat) (q : Nat) : Laws.EncodeLength.Statement (.ladleCountRetry core q) := Laws.EncodeLength.of_kind _
theorem Laws.EncodeLength.kickPull (core : Nat) : Laws.EncodeLength.Statement (.kickPull core) := Laws.EncodeLength.of_kind _
theorem Laws.EncodeLength.landingWrite (o : Nat) (n : Nat) (data : Nat) : Laws.EncodeLength.Statement (.landingWrite o n data) := Laws.EncodeLength.of_kind _
theorem Laws.EncodeLength.apertureNonposted (o : Nat) : Laws.EncodeLength.Statement (.apertureNonposted o) := Laws.EncodeLength.of_kind _
theorem Laws.EncodeLength.landingCountRetry (w : Nat) : Laws.EncodeLength.Statement (.landingCountRetry w) := Laws.EncodeLength.of_kind _
theorem Laws.EncodeLength.windowBRead (port : Nat) (p : Nat) (o : Nat) (n : Nat) : Laws.EncodeLength.Statement (.windowBRead port p o n) := Laws.EncodeLength.of_kind _
theorem Laws.EncodeLength.windowBWrite (port : Nat) (p : Nat) (o : Nat) (n : Nat) (data : Nat) : Laws.EncodeLength.Statement (.windowBWrite port p o n data) := Laws.EncodeLength.of_kind _
theorem Laws.EncodeLength.flitReceive (link : Nat) (header : BitVec 32) (crcOk : Bool) (beats : List Nat) : Laws.EncodeLength.Statement (.flitReceive link header crcOk beats) := Laws.EncodeLength.of_kind _
theorem Laws.EncodeLength.transactionReemit (link : Nat) (queue : Nat) (tag : Nat) : Laws.EncodeLength.Statement (.transactionReemit link queue tag) := Laws.EncodeLength.of_kind _
theorem Laws.EncodeLength.lossOfLock (link : Nat) : Laws.EncodeLength.Statement (.lossOfLock link) := Laws.EncodeLength.of_kind _
theorem Laws.EncodeLength.remoteTimeout (g : Nat) (e : Nat) : Laws.EncodeLength.Statement (.remoteTimeout g e) := Laws.EncodeLength.of_kind _
theorem Laws.EncodeLength.runStart (u : Nat) : Laws.EncodeLength.Statement (.runStart u) := Laws.EncodeLength.of_kind _
theorem Laws.EncodeLength.runResume (u : Nat) : Laws.EncodeLength.Statement (.runResume u) := Laws.EncodeLength.of_kind _
theorem Laws.EncodeLength.lnkcfgWrite (v : BitVec 64) : Laws.EncodeLength.Statement (.lnkcfgWrite v) := Laws.EncodeLength.of_kind _
theorem Laws.EncodeLength.registerWrite (fn : Nat) (off : Nat) (n : Nat) (v : BitVec 64) : Laws.EncodeLength.Statement (.registerWrite fn off n v) := Laws.EncodeLength.of_kind _
theorem Laws.EncodeLength.coldReset (working : BitVec 12) : Laws.EncodeLength.Statement (.coldReset working) := Laws.EncodeLength.of_kind _
theorem Laws.EncodeLength.stage1Reached : Laws.EncodeLength.Statement .stage1Reached := Laws.EncodeLength.of_kind _
theorem Laws.EncodeLength.stage2Reached : Laws.EncodeLength.Statement .stage2Reached := Laws.EncodeLength.of_kind _
theorem Laws.EncodeLength.warmReset : Laws.EncodeLength.Statement .warmReset := Laws.EncodeLength.of_kind _
theorem Laws.EncodeLength.partitionReset (p : Nat) : Laws.EncodeLength.Statement (.partitionReset p) := Laws.EncodeLength.of_kind _
theorem Laws.EncodeLength.functionLevelReset (p : Nat) : Laws.EncodeLength.Statement (.functionLevelReset p) := Laws.EncodeLength.of_kind _
theorem Laws.EncodeLength.pgcmdAttest : Laws.EncodeLength.Statement .pgcmdAttest := Laws.EncodeLength.of_kind _
theorem Laws.EncodeLength.pgcmdOpenSession : Laws.EncodeLength.Statement .pgcmdOpenSession := Laws.EncodeLength.of_kind _
theorem Laws.EncodeLength.pgcmdCloseSession : Laws.EncodeLength.Statement .pgcmdCloseSession := Laws.EncodeLength.of_kind _
theorem Laws.EncodeLength.pgcmdLoadFirmware : Laws.EncodeLength.Statement .pgcmdLoadFirmware := Laws.EncodeLength.of_kind _
theorem Laws.EncodeLength.pgcmdUnknown (op : BitVec 8) : Laws.EncodeLength.Statement (.pgcmdUnknown op) := Laws.EncodeLength.of_kind _
theorem Laws.EncodeLength.polgilyCommandDone (ok : Bool) (reason : BitVec 16) : Laws.EncodeLength.Statement (.polgilyCommandDone ok reason) := Laws.EncodeLength.of_kind _
theorem Laws.EncodeLength.bridgeLaneFailure (bridge : Nat) (rate : Nat) : Laws.EncodeLength.Statement (.bridgeLaneFailure bridge rate) := Laws.EncodeLength.of_kind _
theorem Laws.EncodeLength.powerLimit (die : Nat) (mhz : Nat) : Laws.EncodeLength.Statement (.powerLimit die mhz) := Laws.EncodeLength.of_kind _
theorem Laws.EncodeLength.coreFailure (core : Nat) : Laws.EncodeLength.Statement (.coreFailure core) := Laws.EncodeLength.of_kind _

end Sys2Proof
end

