-- ==== Sys2Proof/Tests/Slice0.lean ====
section
/-! SUPPORT. Tests: words that the spec writes out, terms that the well-formedness check refuses, single steps with results worked out
from the spec, and for every statement with hypotheses a state and operands that meet them. -/

open Sys2Proof Sys2Proof.Machine

namespace Sys2Proof.Tests

/-! ## Words written out in the spec -/

-- 03 R58, R62, R63 and the worked words of 05, 08, 10, 15, 17
theorem test_decode_scalar_arithmetic :
    decodeScalar 0x0238C281#32 = .ok (.sub 7 6 5) ∧ decodeScalar 0x00200182#32 = .ok (.addi 4 0 3) ∧
    decodeScalar 0x00288201#32 = .ok (.add 5 4 4) ∧ decodeScalar 0xFFF86182#32 = .ok (.addi 0x1FFF 3 3) ∧
    decodeScalar 0x3630A201#32 = .ok (.bfx 6 5 4) := by decide

theorem test_decode_scalar_control :
    decodeScalar 0xFFE80191#32 = .ok (.bne 0x1FFD 0 3) ∧ decodeScalar 0x00028320#32 = .ok (.clause 0x14 6) ∧
    decodeScalar 0x00000045#32 = .ok .exit ∧ decodeScalar 0x00000046#32 = .ok .nop ∧ decodeScalar 0x00000041#32 = .ok .xret := by decide

theorem test_decode_scalar_memory :
    decodeScalar 0x00182118#32 = .ok (.ld 0 0 0 3 1 2) ∧ decodeScalar 0x01182219#32 = .ok (.st 1 0 3 1 4) ∧
    decodeScalar 0x0038C21C#32 = .ok (.amo 0 0 0 0 7 6 4) ∧ decodeScalar 0x00028038#32 = .ok (.fence 2 4) := by decide

theorem test_decode_try_and_registers :
    decodeScalar 0x0000C4B4#32 = .ok (.tryStart 6 9) ∧ decodeScalar 0x00000535#32 = .ok (.commit 10) ∧
    decodeScalar 0x0000E036#32 = .ok (.abort 7) ∧ decodeScalar 0x008282C2#32 = .ok (.getc 0x414 5) ∧
    decodeScalar 0x2040C043#32 = .ok (.setc 0x408 6) := by decide

theorem test_decode_barriers_and_tokens :
    decodeScalar 0x0008C2A5#32 = .ok (.arrive 1 6 5) ∧ decodeScalar 0x0038C024#32 = .ok (.binit 0 7 6 0) ∧
    decodeScalar 0x0018C227#32 = .ok (.waitph 1 1 6 4) ∧ decodeScalar 0x0010C227#32 = .ok (.waitph 1 0 6 4) ∧
    decodeScalar 0x0030A22C#32 = .ok (.tlend 0 6 5 4) ∧ decodeScalar 0x0000A22D#32 = .ok (.tret 0 5 4) := by decide

theorem test_decode_press : decodeScalar 0x00000054#32 = .ok .mwake := by decide

/-- A lane word from its three 32-bit words, word 0 first (03 R65). -/
def lane3 (a b c : Nat) : BitVec 96 := BitVec.ofNat 96 (a + 2 ^ 32 * b + 2 ^ 64 * c)

theorem test_decode_lane_arithmetic :
    decodeLane (lane3 0x04048001 0x04010002 0) = .ok (.vadd ⟨8, 9, 0, 0, 0, 0, 1, 0, 0, 1, 0, 2, 0⟩) ∧
    decodeLane (lane3 0x04850006 0x08010000 3) = .ok (.vdiv ⟨9, 10, 0, 0, 0, 0, 2, 0, 0, 1, 0, 0, 3⟩) ∧
    decodeLane (lane3 0x0404800A 0x00010000 0) = .ok (.vabs ⟨8, 9, 0, 0, 0, 0, 0, 0, 0, 1, 0, 0, 0⟩) ∧
    decodeLane (lane3 0x04828083 0x00010000 0) = .ok (.vredsc ⟨9, 5, 0, 0, 0, 0, 0, 0, 0, 1, 0, 0, 0⟩) := by decide

theorem test_decode_lane_predicates :
    decodeLane (lane3 0x04008018 0x28010000 0) = .ok (.vcmp ⟨8, 1, 0, 0, 0, 2, 2, 0, 0, 1, 0, 0, 0⟩) ∧
    decodeLane (lane3 0x00830082 0 0) = .ok (.vvote ⟨1, 6, 0, 0, 0, 0, 0, 0, 0, 0, 0, 0, 0⟩) := by decide

theorem test_decode_lane_float_and_memory :
    decodeLane (lane3 0x04080052 0x040A0004 0) = .ok (.vpackbs ⟨8, 16, 0, 0, 0, 0, 1, 0, 0, 10, 0, 4, 0⟩) ∧
    decodeLane (lane3 0x01860100 0x26000005 0x40) = .ok (.vld ⟨3, 12, 0, 0, 0, 2, 1, 2, 0, 0, 0, 5, 0x40⟩) ∧
    decodeLane (lane3 0x0185010C 0x04000002 0x40) = .ok (.varrive ⟨3, 10, 0, 0, 0, 0, 1, 0, 0, 0, 0, 2, 0x40⟩) := by decide

-- 10 R262: the microprogram that the spec writes out, in order
theorem test_decode_micro :
    [0x10000003#32, 0x20000000#32, 0x22000001#32, 0x62021003#32, 0x30400001#32, 0xC0000000#32, 0xB0000000#32, 0xD0000000#32].map decodeMicro =
      [.nrow 3, .nld 0 0 0, .nld 1 0 1, .nmacImm 1 0 4 0 3, .nst 1 0 1, .nsync, .nloop 0, .nend].map .ok := by decide

-- 03 R61, R71, R77: an all-zero word is an instruction of no stream
theorem test_decode_zero : decodeScalar 0#32 = .error .unassigned ∧ (decodeLane 0#96).toOption = none ∧ (decodeMicro 0#32).toOption = none := by
  decide

/-! ## Well-formedness -/

/-- A lane instruction's fields with the parts that the tests vary. -/
def word (ty : BitVec 4) (sub : BitVec 4 := 0) (md : BitVec 4 := 0) (kind : BitVec 2 := 0) (imm : BitVec 32 := 0) (vc : BitVec 8 := 0)
    (vb : BitVec 8 := 0) (vd : BitVec 8 := 16) (va : BitVec 8 := 8) : LaneWord :=
  { va, vd, gneg := 0, guard := 0, u := 0, sub, kind, hint := 0, md, ty, vc, vb, imm }

/-- Every instruction of a list is refused. -/
def refused (l : List Instr) : Bool := l.all fun i => !WellFormed i

/-- Every instruction of a list is accepted. -/
def accepted (l : List Instr) : Bool := l.all WellFormed

-- 03 R61: events have no word; 05 R121, R129, R131, 10 R253, 12 R311, 15 R369, R375: field values that a scalar word may not hold
theorem test_refuses_scalar_fields :
    refused [.timerEvent 0, .ld 0 0 1 3 1 2, .lds 0 1 3 1 2, .amo 0 1 1 0 7 6 4, .fence 0 4, .fence 2 0, .fence 2 7, .qfence 0 0 0,
      .tlend 3 1 2 3, .tquery 0 3 1 2, .mstat 0 8 1 2] = true ∧
    accepted [.nop, .ld 0 0 0 3 1 2, .lds 0 1 2 1 2, .amo 0 1 1 1 7 6 4, .amo 0 1 0 0 7 6 4, .fence 2 4, .qfence 0 0 1, .tlend 2 1 2 3,
      .tquery 0 2 1 2, .mstat 0 7 1 2] = true := by decide

-- 03 R66: a type that the instruction does not take; R67: an operand kind; R70: a sub-operation
theorem test_refuses_kinds_types_subs :
    refused [.vadd (word 4), .vadd (word 1 0 0 3), .vadd (word 1 1), .vfadd (word 1), .vdiv (word 11), .vand (word 1), .vcmp (word 1 6 0 0 0 0 0 1),
      .vmov (word 4 0 0 0 0 0 0 16 0), .vld (word 0 5 0 1), .vdp4 (word 13)] = true ∧
    accepted [.vadd (word 1), .vadd (word 15 0 0 2 5), .vfadd (word 4), .vdiv (word 3), .vand (word 2), .vcmp (word 1 5 0 0 0 0 0 1),
      .vmov (word 0 0 0 0 0 0 0 16 0), .vld (word 0 4 0 1), .vdp4 (word 11 1)] = true := by decide

-- 03 R68: every use of the modifier field
theorem test_refuses_modifiers :
    refused [.vadd (word 1 0 1), .vmulh (word 1 0 8), .vfround (word 4 0 5), .vfadd (word 4 0 13), .vcmp (word 1 0 3 0 0 0 0 1), .vdiv (word 1 0 1),
      .vfdiv (word 4 0 5)] = true ∧
    accepted [.vadd (word 1 0 8), .vmulh (word 1), .vfround (word 4 0 4), .vfadd (word 4 0 12), .vcmp (word 1 0 2 0 0 0 0 1), .vdiv (word 1 0 8),
      .vfdiv (word 4 0 12)] = true := by decide

-- 03 R67, R71: register fields that must be zero, name a predicate, a captured or a scalar register; immediates and hints where none belong
theorem test_refuses_register_fields :
    refused [.vadd (word 1 0 0 0 0 1), .vadd (word 1 0 0 1 0 0 16), .vadd (word 1 0 0 2 0 0 1), .vabs (word 1 0 0 0 0 0 1), .vabs (word 1 0 0 2),
      .vcmp (word 1 0 0 0 0 0 0 8), .vsel (word 0 0 0 0 0 8), .vvote (word 0 0 0 0 0 0 0 64 1), .vmad (word 1 0 0 1 0 0 16), .vmad (word 1 0 0 2 0 1),
      .vmad (word 1 0 0 3 0 1), .vld (word 0 0 0 0 0 0 1), .vld (word 0 0 0 1 0 0 16), .vadd (word 1 0 0 0 1), .vadd { word 1 with hint := 1 }] = true ∧
    accepted [.vadd (word 1 0 0 1 0 0 15), .vabs (word 1), .vsel (word 0 0 0 0 0 7), .vvote (word 0 0 0 0 0 0 0 63 1), .vmad (word 1 0 0 1 0 0 15),
      .vmad (word 1 0 0 2), .vmad (word 1 0 0 3), .vld { word 0 0 0 1 0 0 15 with hint := 1 }] = true := by decide

-- 02 R33, 06 R163: no U and no guard where the whole path acts
theorem test_refuses_uniform_and_guards :
    refused [.vjoin { word 0 0 0 0 0 0 0 0 0 with u := 1 }, .vjoin { word 0 0 0 0 0 0 0 0 0 with guard := 1 },
      .vret { word 0 0 0 0 0 0 0 0 0 with gneg := 1 }, .vbra { word 0 0 0 0 1 0 0 0 0 with u := 1 }] = true ∧
    accepted [.vjoin (word 0 0 0 0 0 0 0 0 0), .vbra { word 0 0 0 0 1 0 0 0 0 with guard := 1 }, .vadd { word 1 with u := 1, guard := 7, gneg := 1 }] = true := by
  decide

-- 06, 07, 10, 13, 17: the rules that instructions have of their own
theorem test_refuses_own_rules :
    refused [.vfclass (word 4 0 0 0 1024 0 0 1), .vcvt (word 4 4), .vcvt (word 8 6), .vcvt (word 6 4 0 0 2), .vcvt (word 4 1 5),
      .vpackbs (word 10 3), .vbra (word 0 0 0 0 32 0 0 0 0), .vmark (word 0 0 0 0 32 0 0 0 0), .vkop (word 0 7 0 0 0 0 0 1 1),
      .vkop (word 0 5 0 0 0 0 1 1 1), .vkmov (word 0 2 0 0 0 0 0 1 0), .vld (word 1 2 0 1), .vld (word 0 0 2 1 (1 <<< 29)), .vld (word 0 0 1 1),
      .vlds (word 0 0 2 1), .vlds (word 0 0 1 0), .vatom (word 4 3 0 1), .vcopyIn (word 0 2 0 1 (1 <<< 15) 0 0 0), .vcopyOut (word 0 2 0 1 0 0 0 7),
      .vcast (word 0 2 0 1 (1 <<< 27) 0 0 0), .vfence (word 0 1 0 0 7 0 0 0 0), .vfence (word 0 1 0 0 0 0 0 0 0), .vlabort (word 0 0 0 0 256 0 0 0 0)] = true ∧
    accepted [.vfclass (word 4 0 0 0 1023 0 0 1), .vcvt (word 6 4 0 0 1), .vcvt (word 4 1 4), .vpackbs (word 10 2), .vbra (word 0 0 0 0 31 0 0 0 0),
      .vkop (word 0 4 0 0 0 0 1 1 1), .vld (word 1 1 0 1), .vld (word 0 0 1 1 (1 <<< 29)), .vlds (word 0 0 1 1), .vatom (word 4 2 0 1),
      .vcopyIn (word 0 2 0 1 0 0 0 0), .vcopyOut (word 0 2 0 1 0 0 0 6), .vfence (word 0 1 0 0 6 0 0 0 0), .vlabort (word 0 0 0 0 255 0 0 0 0)] = true := by
  decide

-- 03 R78, 10 R258: types of micro-operations, and saturation of floats
theorem test_refuses_micro_fields :
    refused [.nadd 0 1 2 5 0, .nmin 0 1 2 2, .nmovImm 0 11 3, .nmac 0 1 2 4 1, .nmulImm 0 1 6 1 3] = true ∧
    accepted [.nadd 0 1 2 6 0, .nmin 0 1 2 4, .nmovImm 0 1 3, .nmac 0 1 2 1 1, .nnop, .nxor 7 7 7] = true := by decide

/-! ## One word of every instruction

The scalar and near-bank words are the match values of the spec's encoding table with every operand field filled in; the lane words are laid out
by 03 R65 with the opcodes of 03 R71. -/

theorem test_word_scalar_a :
    [0x012AD481#32, 0x032AD481#32, 0x052AD481#32, 0x072AD481#32, 0x092AD481#32, 0x0B2AD481#32, 0x0D2AD481#32, 0x0F2AD481#32,
      0x112AD481#32, 0x132AD481#32, 0x152AD481#32, 0x172AD481#32, 0x192AD481#32, 0x1B2AD481#32, 0x1D2AD481#32, 0x1F2AD481#32,
      0x212AD481#32, 0x232AD481#32, 0x252AD481#32, 0x272AD481#32, 0x292AD481#32, 0x2B2AD481#32, 0x2D2AD481#32, 0x3002D481#32,
      0x3202D481#32, 0x3402D481#32, 0x372AD481#32, 0x392AD481#32].map decodeScalar =
      [.add 37 22 41, .sub 37 22 41, .mul 37 22 41, .mulh 37 22 41, .mulhu 37 22 41, .div 37 22 41,
        .divu 37 22 41, .rem 37 22 41, .remu 37 22 41, .and 37 22 41, .or 37 22 41, .xor 37 22 41,
        .andn 37 22 41, .shl 37 22 41, .shr 37 22 41, .sra 37 22 41, .min 37 22 41, .minu 37 22 41,
        .max 37 22 41, .maxu 37 22 41, .slt 37 22 41, .sltu 37 22 41, .seq 37 22 41, .clz 22 41,
        .ctz 22 41, .popc 22 41, .bfx 37 22 41, .bfi 37 22 41].map .ok := by decide

theorem test_word_scalar_b :
    [0xD2DAD482#32, 0xD2DAD483#32, 0xD2DAD484#32, 0xD2DAD485#32, 0x016AD486#32, 0x016AD487#32, 0x016AD488#32, 0xD2DAD489#32,
      0xD2DAD48A#32, 0xB4B4748B#32, 0xB4B4748C#32, 0xD2DCAB10#32, 0xD2DCAB11#32, 0xD2DCAB12#32, 0xD2DCAB13#32, 0xD2DCAB14#32,
      0xD2DCAB15#32, 0xB4B47496#32, 0xD2DAD497#32, 0x9B92D498#32, 0x9B92C999#32, 0x9B12D49A#32, 0x9B12C99B#32, 0xDB2AD49C#32,
      0x9B9AC01D#32, 0xB4B46B20#32, 0x014A6021#32, 0x014A74A2#32].map decodeScalar =
      [.addi 6747 22 41, .andi 6747 22 41, .ori 6747 22 41, .xori 6747 22 41, .shli 45 22 41, .shri 45 22 41,
        .srai 45 22 41, .slti 6747 22 41, .sltiu 6747 22 41, .lui 370083 41, .pcaddi 370083 41, .beq 6747 37 22,
        .bne 6747 37 22, .blt 6747 37 22, .bge 6747 37 22, .bltu 6747 37 22, .bgeu 6747 37 22, .jal 370083 41,
        .jalr 6747 22 41, .ld 155 2 0 2 22 41, .st 155 2 2 22 19, .lds 155 0 2 22 41, .sts 155 2 22 19, .amo 3 0 1 5 37 22 41,
        .pfetch 155 2 22, .clause 370083 22, .waitf 2643, .testf 2643 41].map .ok := by decide

theorem test_word_scalar_c :
    [0x032AD624#32, 0x59AAD4A5#32, 0x032AD4A6#32, 0x001AD4A7#32, 0x000AD4A8#32, 0x000AD4A9#32, 0x012AC02A#32, 0x032AD4AC#32,
      0x0002D4AD#32, 0x0002D4AE#32, 0x0002D4AF#32, 0x012AD4B0#32, 0x000AD4B1#32, 0x012AD4B2#32, 0xB4B474B4#32, 0x000014B5#32,
      0x0016E036#32, 0x0001A038#32, 0x00072039#32, 0x59AAD4BA#32, 0x012AD4BB#32, 0x012AD4BC#32, 0x987A4040#32, 0x00000041#32,
      0x0138B4C2#32, 0x4E2AC043#32, 0x000014C4#32, 0x00000045#32].map decodeScalar =
      [.binit 1 37 22 44, .arrive 2869 22 41, .arriveb 1 37 22 41, .waitph 1 1 22 41, .testph 1 22 41, .bdrop 1 22 41,
        .mbind 37 22, .tlend 1 37 22 41, .tret 0 22 41, .tsplit 22 41, .tjoin 22 41, .tshare 37 22 41,
        .tquery 0 1 22 41, .treclaim 0 37 22 41, .tryStart 370083 41, .commit 41, .abort 183, .fence 1 5,
        .qfence 1 1 9, .tsig 2869 22 41, .tlaunch 37 22 41, .kick 37 22 41, .ecall 312274, .xret,
        .getc 2501 41, .setc 2501 22, .chkerr 41, .exit].map .ok := by decide

theorem test_word_scalar_d :
    [0x00000046#32, 0x987A4047#32, 0x00000048#32, 0x012AC049#32, 0x0202C049#32, 0x04000049#32, 0xD92AD6D0#32, 0x000002D1#32,
      0x5802C6D2#32, 0x0002C053#32, 0x032AC053#32, 0x00000054#32, 0x00AAD4D5#32, 0x432AD4D8#32, 0x012AD4D9#32, 0x000AD4DA#32].map decodeScalar =
      [.nop, .brk 312274, .yield, .pginvRange 37 22, .pginvToken 22, .pginvAll,
        .mma 1 44 37 22 1 0 1 5, .mzero 5, .mdrain 44 22 1 5, .mcheckMode 22, .mcheckInject 37 22, .mwake,
        .mstat 1 5 22 41, .nbload 33 37 22 41, .nbrun 37 22 41, .nbpoll 1 22 41].map .ok := by decide

theorem test_word_micro :
    [0x1000000A#32, 0x2A00001A#32, 0x30C0001A#32, 0x4AF20000#32, 0x4AC219A7#32, 0x5AF20000#32, 0x5AC219A7#32, 0x6AF20000#32,
      0x6AC219A7#32, 0x7AF20000#32, 0x7AC219A7#32, 0x8AF20000#32, 0x8AC219A7#32, 0x9AF00000#32, 0x9AC019A7#32, 0xAAC00000#32,
      0xAA0219A7#32, 0xB000002B#32, 0xC0000000#32, 0xD0000000#32, 0xE0000000#32].map decodeMicro =
      [.nrow 10, .nld 5 6 2, .nst 3 6 2, .nmul 5 3 6 4 0, .nmulImm 5 3 4 0 2471, .nadd 5 3 6 4 0,
        .naddImm 5 3 4 0 2471, .nmac 5 3 6 4 0, .nmacImm 5 3 4 0 2471, .nmin 5 3 6 4, .nminImm 5 3 4 2471, .nmax 5 3 6 4,
        .nmaxImm 5 3 4 2471, .nxor 5 3 6, .nxorImm 5 3 2471, .nmov 5 3, .nmovImm 5 4 2471, .nloop 43,
        .nsync, .nend, .nnop].map .ok := by decide

theorem test_word_lane_a :
    [lane3 0x532CEC01 0x008D007B 0x00000000, lane3 0x532CEC02 0x008D007B 0x00000000, lane3 0x532CEC03 0x008D007B 0x00000000, lane3 0x532CEC04 0x08020000 0x89ABCDEF,
      lane3 0x532CEC05 0x0C8F000E 0xFEDC1234, lane3 0x532CEC06 0x0483000D 0x00000000, lane3 0x532CEC07 0x0483000D 0x00000000, lane3 0x532CEC08 0x08020000 0x89ABCDEF,
      lane3 0x532CEC09 0x08020000 0x89ABCDEF, lane3 0x532CEC0A 0x00830000 0x00000000, lane3 0x532CEC0B 0x008D007B 0x00000000, lane3 0x532CEC0C 0x0002007B 0x00000000,
      lane3 0x532CEC0D 0x0002007B 0x00000000, lane3 0x532CEC0E 0x0002007B 0x00000000, lane3 0x532CEC0F 0x00020000 0x00000000, lane3 0x532CEC10 0x0002007B 0x00000000,
      lane3 0x532CEC11 0x0002007B 0x00000000, lane3 0x532CEC12 0x0002007B 0x00000000, lane3 0x532CEC13 0x0002007B 0x00000000, lane3 0x532CEC14 0x000E0000 0x00000000,
      lane3 0x532CEC15 0x000E0000 0x00000000, lane3 0x532CEC16 0x0002007B 0x00000000, lane3 0x532CEC17 0x00005D7B 0x00000000, lane3 0x5302EC18 0x4023007B 0x00000000,
      lane3 0x532CEC19 0x0002067B 0x00000000, lane3 0x532CEC1A 0x108C5D7B 0x00000000].map decodeLane =
      [.vadd ⟨166, 89, 1, 5, 1, 0, 0, 0, 8, 13, 0, 123, 0⟩, .vsub ⟨166, 89, 1, 5, 1, 0, 0, 0, 8, 13, 0, 123, 0⟩,
        .vmul ⟨166, 89, 1, 5, 1, 0, 0, 0, 8, 13, 0, 123, 0⟩, .vmulh ⟨166, 89, 1, 5, 1, 0, 2, 0, 0, 2, 0, 0, 2309737967⟩,
        .vmad ⟨166, 89, 1, 5, 1, 0, 3, 0, 8, 15, 0, 14, 4275835444⟩, .vdiv ⟨166, 89, 1, 5, 1, 0, 1, 0, 8, 3, 0, 13, 0⟩,
        .vrem ⟨166, 89, 1, 5, 1, 0, 1, 0, 8, 3, 0, 13, 0⟩, .vmin ⟨166, 89, 1, 5, 1, 0, 2, 0, 0, 2, 0, 0, 2309737967⟩,
        .vmax ⟨166, 89, 1, 5, 1, 0, 2, 0, 0, 2, 0, 0, 2309737967⟩, .vabs ⟨166, 89, 1, 5, 1, 0, 0, 0, 8, 3, 0, 0, 0⟩,
        .vabsdiff ⟨166, 89, 1, 5, 1, 0, 0, 0, 8, 13, 0, 123, 0⟩, .vand ⟨166, 89, 1, 5, 1, 0, 0, 0, 0, 2, 0, 123, 0⟩,
        .vor ⟨166, 89, 1, 5, 1, 0, 0, 0, 0, 2, 0, 123, 0⟩, .vxor ⟨166, 89, 1, 5, 1, 0, 0, 0, 0, 2, 0, 123, 0⟩,
        .vnot ⟨166, 89, 1, 5, 1, 0, 0, 0, 0, 2, 0, 0, 0⟩, .vshl ⟨166, 89, 1, 5, 1, 0, 0, 0, 0, 2, 0, 123, 0⟩,
        .vshr ⟨166, 89, 1, 5, 1, 0, 0, 0, 0, 2, 0, 123, 0⟩, .vsra ⟨166, 89, 1, 5, 1, 0, 0, 0, 0, 2, 0, 123, 0⟩,
        .vrot ⟨166, 89, 1, 5, 1, 0, 0, 0, 0, 2, 0, 123, 0⟩, .vclz ⟨166, 89, 1, 5, 1, 0, 0, 0, 0, 14, 0, 0, 0⟩,
        .vpopc ⟨166, 89, 1, 5, 1, 0, 0, 0, 0, 14, 0, 0, 0⟩, .vbfx ⟨166, 89, 1, 5, 1, 0, 0, 0, 0, 2, 0, 123, 0⟩,
        .vbfi ⟨166, 89, 1, 5, 1, 0, 0, 0, 0, 0, 93, 123, 0⟩, .vcmp ⟨166, 5, 1, 5, 1, 4, 0, 0, 2, 3, 0, 123, 0⟩,
        .vsel ⟨166, 89, 1, 5, 1, 0, 0, 0, 0, 2, 6, 123, 0⟩, .vdp4 ⟨166, 89, 1, 5, 1, 1, 0, 0, 8, 12, 93, 123, 0⟩].map .ok := by decide

theorem test_word_lane_b :
    [lane3 0x532CEC40 0x00C6007B 0x00000000, lane3 0x532CEC41 0x00C6007B 0x00000000, lane3 0x532CEC42 0x00375D7B 0x00000000, lane3 0x532CEC43 0x0006007B 0x00000000,
      lane3 0x532CEC44 0x0006007B 0x00000000, lane3 0x5302EC45 0x6015007B 0x00000000, lane3 0x532CEC46 0x00840000 0x00000000, lane3 0x532CEC47 0x00840000 0x00000000,
      lane3 0x532CEC48 0x00C50000 0x00000000, lane3 0x532CEC49 0x00840000 0x00000000, lane3 0x532CEC4A 0x00840000 0x00000000, lane3 0x532CEC4B 0x00840000 0x00000000,
      lane3 0x532CEC4C 0x00840000 0x00000000, lane3 0x532CEC4D 0x0095007B 0x00000000, lane3 0x5301EC4E 0x00050000 0x000002B5, lane3 0x532CEC4F 0x00B75D7B 0x00000000,
      lane3 0x532CEC50 0x00460000 0x00000000, lane3 0x532CEC51 0x40A80000 0x00000003, lane3 0x532CEC52 0x202A5D7B 0x00000000, lane3 0x532CEC53 0x001A007B 0x00000000,
      lane3 0x002CEC80 0x0002007B 0x00000000, lane3 0x532CEC81 0x3002067B 0x00000000, lane3 0x0315EC82 0x30800000 0x00000000, lane3 0x5315EC83 0x50830000 0x00000000,
      lane3 0x532CEC84 0x00005D7B 0x00000000, lane3 0x002CEC85 0x00000000 0x00000000].map decodeLane =
      [.vfadd ⟨166, 89, 1, 5, 1, 0, 0, 0, 12, 6, 0, 123, 0⟩, .vfmul ⟨166, 89, 1, 5, 1, 0, 0, 0, 12, 6, 0, 123, 0⟩,
        .vffma ⟨166, 89, 1, 5, 1, 0, 0, 0, 3, 7, 93, 123, 0⟩, .vfmin ⟨166, 89, 1, 5, 1, 0, 0, 0, 0, 6, 0, 123, 0⟩,
        .vfmax ⟨166, 89, 1, 5, 1, 0, 0, 0, 0, 6, 0, 123, 0⟩, .vfcmp ⟨166, 5, 1, 5, 1, 6, 0, 0, 1, 5, 0, 123, 0⟩,
        .vfrcp ⟨166, 89, 1, 5, 1, 0, 0, 0, 8, 4, 0, 0, 0⟩, .vfrsq ⟨166, 89, 1, 5, 1, 0, 0, 0, 8, 4, 0, 0, 0⟩,
        .vfsqrt ⟨166, 89, 1, 5, 1, 0, 0, 0, 12, 5, 0, 0, 0⟩, .vfexp2 ⟨166, 89, 1, 5, 1, 0, 0, 0, 8, 4, 0, 0, 0⟩,
        .vflog2 ⟨166, 89, 1, 5, 1, 0, 0, 0, 8, 4, 0, 0, 0⟩, .vfsin ⟨166, 89, 1, 5, 1, 0, 0, 0, 8, 4, 0, 0, 0⟩,
        .vfcos ⟨166, 89, 1, 5, 1, 0, 0, 0, 8, 4, 0, 0, 0⟩, .vfdiv ⟨166, 89, 1, 5, 1, 0, 0, 0, 9, 5, 0, 123, 0⟩,
        .vfclass ⟨166, 3, 1, 5, 1, 0, 0, 0, 0, 5, 0, 0, 693⟩, .vfdot2 ⟨166, 89, 1, 5, 1, 0, 0, 0, 11, 7, 93, 123, 0⟩,
        .vfround ⟨166, 89, 1, 5, 1, 0, 0, 0, 4, 6, 0, 0, 0⟩, .vcvt ⟨166, 89, 1, 5, 1, 4, 0, 0, 10, 8, 0, 0, 3⟩,
        .vpackbs ⟨166, 89, 1, 5, 1, 2, 0, 0, 2, 10, 93, 123, 0⟩, .vunpackbs ⟨166, 89, 1, 5, 1, 0, 0, 0, 1, 10, 0, 123, 0⟩,
        .vmov ⟨0, 89, 1, 5, 1, 0, 0, 0, 0, 2, 0, 123, 0⟩, .vshfl ⟨166, 89, 1, 5, 1, 3, 0, 0, 0, 2, 6, 123, 0⟩,
        .vvote ⟨6, 43, 1, 5, 1, 3, 0, 0, 8, 0, 0, 0, 0⟩, .vredsc ⟨166, 43, 1, 5, 1, 5, 0, 0, 8, 3, 0, 0, 0⟩,
        .vprmt ⟨166, 89, 1, 5, 1, 0, 0, 0, 0, 0, 93, 123, 0⟩, .vspec ⟨0, 89, 1, 5, 1, 0, 0, 0, 0, 0, 0, 0, 0⟩].map .ok := by decide

theorem test_word_lane_c :
    [lane3 0x000068A0 0x00000000 0x00000015, lane3 0x530068A1 0x00000000 0x00000000, lane3 0x000000A2 0x00000000 0x0000001A, lane3 0x000000A3 0x00000000 0x00000000,
      lane3 0x000000A4 0x0400000B 0xFFFF8001, lane3 0x000000A5 0x00000000 0x00000000, lane3 0x000068A6 0x00000000 0x00000000, lane3 0x530068A7 0x0400000B 0x80000003,
      lane3 0x02836CC0 0x40000003 0x00000000, lane3 0x00036CC1 0x1000007B 0x00000000, lane3 0x532CED00 0x16910009 0x7ABCDEF3, lane3 0x53006D01 0x31A05D00 0xBABCDEF3,
      lane3 0x532CED02 0x44900009 0xDEADBEEF, lane3 0x53006D03 0x24105D09 0xDEADBEEF, lane3 0x532CED04 0x16010009 0x1ABCDEF3, lane3 0x532CED05 0x77325D09 0xDABCDEF3,
      lane3 0x53006D06 0x51A25D00 0xBABCDEF3, lane3 0x53006D07 0x02000000 0x1ABCDEF3, lane3 0x53006D08 0x31505D00 0x00005AB3, lane3 0x53036D09 0xC1F05D00 0x3ABC5AB3,
      lane3 0x53006D0A 0x40605D00 0x05ABC5AB, lane3 0x00006D0B 0x30800000 0x00000005, lane3 0x532CED0C 0x14805D09 0xDEADBEE0, lane3 0x0000690D 0x00800000 0x000000C5].map decodeLane =
      [.vbra ⟨0, 0, 1, 5, 0, 0, 0, 0, 0, 0, 0, 0, 21⟩, .vbrax ⟨166, 0, 1, 5, 0, 0, 0, 0, 0, 0, 0, 0, 0⟩,
        .vmark ⟨0, 0, 0, 0, 0, 0, 0, 0, 0, 0, 0, 0, 26⟩, .vjoin ⟨0, 0, 0, 0, 0, 0, 0, 0, 0, 0, 0, 0, 0⟩,
        .vcall ⟨0, 0, 0, 0, 0, 0, 1, 0, 0, 0, 0, 11, 4294934529⟩, .vret ⟨0, 0, 0, 0, 0, 0, 0, 0, 0, 0, 0, 0, 0⟩,
        .vexit ⟨0, 0, 1, 5, 0, 0, 0, 0, 0, 0, 0, 0, 0⟩, .vspawn ⟨166, 0, 1, 5, 0, 0, 1, 0, 0, 0, 0, 11, 2147483651⟩,
        .vkop ⟨5, 6, 1, 5, 1, 4, 0, 0, 0, 0, 0, 3, 0⟩, .vkmov ⟨0, 6, 1, 5, 1, 1, 0, 0, 0, 0, 0, 123, 0⟩,
        .vld ⟨166, 89, 1, 5, 1, 1, 1, 2, 9, 1, 0, 9, 2059198195⟩, .vst ⟨166, 0, 1, 5, 1, 3, 0, 1, 10, 0, 93, 0, 3132940019⟩,
        .vlds ⟨166, 89, 1, 5, 1, 4, 1, 0, 9, 0, 0, 9, 3735928559⟩, .vsts ⟨166, 0, 1, 5, 1, 2, 1, 0, 1, 0, 93, 9, 3735928559⟩,
        .vldspec ⟨166, 89, 1, 5, 1, 1, 1, 2, 0, 1, 0, 9, 448585459⟩, .vatom ⟨166, 89, 1, 5, 1, 7, 1, 3, 3, 2, 93, 9, 3669810931⟩,
        .vred ⟨166, 0, 1, 5, 1, 5, 0, 1, 10, 2, 93, 0, 3132940019⟩, .vpf ⟨166, 0, 1, 5, 1, 0, 0, 2, 0, 0, 0, 0, 448585459⟩,
        .vcopyIn ⟨166, 0, 1, 5, 1, 3, 0, 1, 5, 0, 93, 0, 23219⟩, .vcopyOut ⟨166, 6, 1, 5, 1, 12, 0, 1, 15, 0, 93, 0, 985422515⟩,
        .vcast ⟨166, 0, 1, 5, 1, 4, 0, 0, 6, 0, 93, 0, 95143339⟩, .vfence ⟨0, 0, 1, 5, 1, 3, 0, 0, 8, 0, 0, 0, 5⟩,
        .varrive ⟨166, 89, 1, 5, 1, 1, 1, 0, 8, 0, 93, 9, 3735928544⟩, .vlabort ⟨0, 0, 1, 5, 0, 0, 0, 0, 8, 0, 0, 0, 197⟩].map .ok := by decide

/-! ## Small states

The states in which single steps and the hypotheses of the statements are tried: the runner of log entry 36, with no frame mirrored. -/

/-- The runner with a scalar word next. -/
def scalarState : State :=
  let s := State.reset.withFetchWord 32 0x46
  { s with caps := { s.caps with mirframes := 0 } }

/-- The runner in a clause, its lane stream about to run a lane word. -/
def laneState : State :=
  let s := State.reset.withFetchWord 96 (lane3 0x04048001 0x04010002 0).toNat
  { s with caps := { s.caps with mirframes := 0 } }

/-- The runner's near-bank unit about to run a micro-operation. -/
def microState : State :=
  let s := State.reset.withFetchWord 32 0xE0000000
  { s with caps := { s.caps with mirframes := 0 } }

/-- The runner's stream changed. -/
def on (s : State) (f : Group → Group) : State := s.onGrp 128 f

/-- The runner's team changed. -/
def onTeam (s : State) (f : Team → Team) : State := { s with teams := KMap.put 1 (f (s.tm 1)) s.teams }

/-- The runner's core changed. -/
def onCore0 (s : State) (f : Core → Core) : State := { s with cores := KMap.put 0 (f (s.coreAt 0)) s.cores }

/-- Scalar registers of the runner set. -/
def regs (s : State) (l : List (Nat × Word)) : State := on s fun x => { x with s := l.foldl (fun m e => KMap.write 0 e.1 e.2 m) x.s }

/-- Slots of vector registers of the runner set: (lane, register, value). -/
def slots (s : State) (l : List (Nat × Nat × BitVec 32)) : State :=
  on s fun x => { x with v := l.foldl (fun m e => KMap.write 0 (vkey e.1 e.2.1) e.2.2 m) x.v }

/-- The runner's page made memory-side. -/
def memSide (s : State) : State :=
  onCore0 s fun c => { c with tlb := c.tlb.map fun e => { e with leaf := { e.leaf with ms := true } } }

/-- Bytes placed at a virtual address of the runner. -/
def place (s : State) (va : Nat) (bs : List Byte) : State := { s with mem := putBytes s.mem (0x20_0000 * runnerFrame + va) bs }

/-- Bytes placed in the runner's scratchpad, of 4,096 bytes. -/
def pad (s : State) (o : Nat) (bs : List Byte) : State := onTeam s fun t => { t with spad := 4096, mem := putBytes t.mem o bs }

/-- What an address of the runner translates to. -/
def at_ (s : State) (va : Nat) (k : AccKind) : Xlat :=
  match s.xlate (s.whoIs 128 (s.grp 128).kernel) va k with
  | .ok y => y
  | .error _ => default

/-- The runner's frame homed at unit 0, and the next frame at the first unit of stack 1. -/
def homes (s : State) : State :=
  { s with turner := { s.turner with
      entries := [(runnerFrame, { cls := 0, mode := 0, slots := List.replicate 9 0 }), (runnerFrame + 1, { cls := 1, mode := 0, slots := List.replicate 9 0 })]
      classes := [(0, List.replicate 9 0), (1, List.replicate 9 1)] } }

/-- Post-package repair at work on the row of a line. -/
def repairing (s : State) (pa : Nat) : State :=
  let x := s.locate pa
  let v := 2 ^ 60 * x.stack + 2 ^ 55 * x.chan + 2 ^ 54 * x.pc + 2 ^ 52 * x.bg + 2 ^ 50 * x.bank + 2 ^ 34 * x.row
  { s with ppr := { s.ppr with state := 1, cmd := BitVec.ofNat 64 v } }

/-! ## Single steps

Each expected value is worked out from the rule named. -/

/-- What a field of the stream is after an instruction. -/
def after (i : Instr) (s : State) : State :=
  match exec i s with
  | .next t => t
  | _ => s

def sReg (i : Instr) (s : State) (r : Nat) : Word := ((after i s).grp 128).sGet r
def vReg (i : Instr) (s : State) (l r : Nat) : BitVec 32 := ((after i s).grp 128).vRaw l r

-- 05 R114, R115: the sum wraps; division by zero and the one overflow; the remainder takes the sign of the dividend
theorem test_add_wraps : sReg (.add 2 1 3) (regs scalarState [(1, 0xFFFFFFFFFFFFFFFF), (2, 3)]) 3 = 2 := by decide
theorem test_sub_order : sReg (.sub 2 1 3) (regs scalarState [(1, 5), (2, 7)]) 3 = 0xFFFFFFFFFFFFFFFE := by decide
theorem test_mulh_signed : sReg (.mulh 2 1 3) (regs scalarState [(1, 0xFFFFFFFFFFFFFFFF), (2, 2)]) 3 = 0xFFFFFFFFFFFFFFFF := by decide
theorem test_mulhu : sReg (.mulhu 2 1 3) (regs scalarState [(1, 0xFFFFFFFFFFFFFFFF), (2, 2)]) 3 = 1 := by decide
theorem test_div_by_zero : sReg (.div 2 1 3) (regs scalarState [(1, 7)]) 3 = 0xFFFFFFFFFFFFFFFF := by decide
theorem test_rem_sign : sReg (.rem 2 1 3) (regs scalarState [(1, 0xFFFFFFFFFFFFFFF9), (2, 3)]) 3 = 0xFFFFFFFFFFFFFFFF := by decide
theorem test_div_overflow : sReg (.div 2 1 3) (regs scalarState [(1, 0x8000000000000000), (2, 0xFFFFFFFFFFFFFFFF)]) 3 = 0x8000000000000000 := by
  decide

-- 05 R114: the distance of a shift is its low six bits; R116: a field that reaches past bit 63 ends there
theorem test_shl_distance : sReg (.shl 2 1 3) (regs scalarState [(1, 3), (2, 65)]) 3 = 6 := by decide
theorem test_sra_sign : sReg (.sra 2 1 3) (regs scalarState [(1, 0x8000000000000000), (2, 63)]) 3 = 0xFFFFFFFFFFFFFFFF := by decide
theorem test_bfx_end : sReg (.bfx 2 1 3) (regs scalarState [(1, 0xF000000000000000), (2, 0x103C)]) 3 = 0xF := by decide
theorem test_clz_zero : sReg (.clz 1 3) scalarState 3 = 64 := by decide

-- 03 R60: a write of s0 is ignored; 05 R117: a signed immediate compared as unsigned
theorem test_s0_stays_zero : sReg (.addi 5 0 0) scalarState 0 = 0 := by decide
theorem test_sltiu_immediate : sReg (.sltiu 0x1FFF 1 3) (regs scalarState [(1, 5)]) 3 = 1 := by decide
theorem test_lui : sReg (.lui 0x40000 3) scalarState 3 = 0xFFFFFFFF80000000 := by decide

-- 05 R119, R120: a taken branch goes four times its offset from its own address; a jump's link
theorem test_branch_back : ((after (.bne 0x1FFF 0 1) (regs scalarState [(1, 1)])).grp 128).pc = 0xFC := by decide
theorem test_jalr_same_register :
    let t := after (.jalr 4 1 1) (regs scalarState [(1, 0x200)])
    (t.grp 128).pc = 0x204 ∧ (t.grp 128).sGet 1 = 0x104 := by decide

-- 05 R122: a signed load of a byte; the mirror of R121: a misaligned load traps with cause 4 and its address
theorem test_ld_sign : sReg (.ld 0 0 1 0 1 2) (memSide (regs (place scalarState 0x300 [0x80]) [(1, 0x300)])) 2 = 0xFFFFFFFFFFFFFF80 := by decide
theorem test_ld_misaligned :
    let t := after (.ld 0 0 0 2 1 2) (regs scalarState [(1, 0x302)])
    (t.grp 128).bank.xcause = 4 ∧ (t.grp 128).bank.xaddr = 0x302 ∧ (t.grp 128).kernel = true := by decide

-- 10 R250, R253: compare and swap, and a signed minimum
theorem test_amo_cas :
    let t := after (.amo 0 0 0 7 2 1 3) (regs (place scalarState 0x300 [5]) [(1, 0x300), (2, 9), (3, 5)])
    (t.grp 128).sGet 3 = 5 ∧ t.byteAt (0x20_0000 * runnerFrame + 0x300) = 9 := by decide

-- 06 R147: saturation; R151: an arithmetic shift of the sign; 03 R66: two elements of 16 bits
theorem test_vadd_saturates :
    vReg (.vadd (word 1 0 8 2 1)) (slots laneState [(3, 8, 0x7FFFFFFF)]) 3 16 = 0x7FFFFFFF ∧
    vReg (.vadd (word 1 0 0 2 1)) (slots laneState [(3, 8, 0x7FFFFFFF)]) 3 16 = 0x80000000 := by decide
theorem test_vadd_elements : vReg (.vadd (word 14 0 0 2 0x00010001)) (slots laneState [(0, 8, 0xFFFFFFFF)]) 0 16 = 0 := by decide
theorem test_vsra : vReg (.vsra (word 1 0 0 2 35)) (slots laneState [(0, 8, 0x80000000)]) 0 16 = 0xF0000000 := by decide
theorem test_vpopc : vReg (.vpopc (word 12)) (slots laneState [(0, 8, 0xFF030100)]) 0 16 = 0x08020100 := by decide

-- 07 R192, R193: the worked conversions of the spec: a tie to even and a tie away, into element 1; 07 R184: 1.5 + 2.5
theorem test_vcvt_element :
    vReg (.vcvt (word 6 4 0 0 1)) (slots laneState [(0, 8, 0x3F808000), (0, 16, 0x12345678)]) 0 16 = 0x3F805678 ∧
    vReg (.vcvt (word 6 4 4 0 1)) (slots laneState [(0, 8, 0x3F808000), (0, 16, 0x12345678)]) 0 16 = 0x3F815678 := by decide
theorem test_vcvt_to_integer :
    vReg (.vcvt (word 1 4 1)) (slots laneState [(0, 8, 0xC06CCCCD)]) 0 16 = 0xFFFFFFFD ∧
    vReg (.vcvt (word 1 4 0)) (slots laneState [(0, 8, 0xC06CCCCD)]) 0 16 = 0xFFFFFFFC ∧
    vReg (.vcvt (word 1 4 8)) (slots laneState [(0, 8, 0x4F32D05E)]) 0 16 = 0x7FFFFFFF := by decide
theorem test_vfadd : vReg (.vfadd (word 4 0 0 2 0x40200000)) (slots laneState [(0, 8, 0x3FC00000)]) 0 16 = 0x40800000 := by decide

-- 02 R32: lanes whose predicate is clear keep their register
theorem test_guard :
    let s := on laneState fun x => { x with k := [(1, 0x0001)] }
    let f := { word 1 0 0 2 7 with guard := 1 }
    vReg (.vadd f) s 0 16 = 7 ∧ vReg (.vadd f) s 1 16 = 0 := by decide

-- 08 R197, R204: a system call and its return
theorem test_ecall_and_xret :
    let t := after (.ecall 5) scalarState
    (t.grp 128).bank.xpc = 0x100 ∧ (t.grp 128).bank.xaddr = 5 ∧ (t.grp 128).kernel = true ∧
      ((after .xret t).grp 128).kernel = false ∧ ((after .xret t).grp 128).pc = 0x100 := by decide

-- 15 R368: a token that neither the executor's team nor its cluster holds traps with TOKEN
theorem test_tlend_not_held : ((after (.tlend 0 2 1 3) scalarState).grp 128).bank.xcause = 0x13 := by decide

-- 17 R410: the arrival that completes a phase
theorem test_arrive_completes :
    let w : Obj := { exparr := 2, pendarr := 1, expbytes := 0, pendbytes := 0 }
    let t := after (.arrive 1 0 3) (pad scalarState 0 w.toBytes)
    (t.grp 128).sGet 3 = 1 ∧ (t.objAt 1 0).phase = 1 ∧ (t.objAt 1 0).pendarr = 2 := by decide

/-! ## Witnesses: states and operands that meet the hypotheses of the statements

One theorem a statement or clause; a boundary value where the hypothesis is a range. -/

open Claims

/-- The runner after a jump instruction's base register is set to a word's address. -/
theorem meets_ScalarControlFlow : (wrapped (((regs scalarState [(1, 0x1FC)]).rs 1).toNat + (0x1FFC#13).toInt)).toNat % 4 = 0 := by decide

/-- A register that points at the last doubleword of the page, of a memory-side page. -/
def loadState : State := memSide (regs scalarState [(1, 0xFFF8)])

theorem meets_ScalarLoad :
    Reaching loadState (loadState.scalarAddr 0 3 1) 8 .read (at_ loadState 0xFFF8 .read) ∧ (at_ loadState 0xFFF8 .read).leaf.ms = true ∧
      (at_ loadState 0xFFF8 .read).leaf.host = false ∧ (own loadState).inTry = false ∧ (own loadState).ownStores = [] ∧
      loadState.bad (at_ loadState 0xFFF8 .read).pa = false := by
  unfold Reaching own; decide

theorem meets_ScalarStore :
    (scalarState.scalarAddr 0x80 3 1).toNat % 8 = 0 ∧ ((regs scalarState [(1, 0xFFFFFFFFFFFF8)]).scalarAddr 0 3 1).toNat < 2 ^ 52 ∧
      ((regs scalarState [(1, 0xFFFFFFFFFFFF8)]).scalarAddr 0 3 1).toNat % 8 = 0 ∧ (own scalarState).inTry = false ∧
      (own (regs scalarState [(1, 0xFFFFFFFFFFFF8)])).inTry = false ∧ (own (regs scalarState [(1, 0xFFFFFFFFFFFF8)])).freeLog = some 0 := by
  unfold own; decide

/-- A register that points at a doubleword of the page. -/
def amoState : State := regs scalarState [(1, 0x308)]

theorem meets_ScalarAtomic :
    Reaching amoState (amoState.rs 1) 8 .atomic (at_ amoState 0x308 .atomic) ∧ (at_ amoState 0x308 .atomic).leaf.host = false ∧
      (at_ amoState 0x308 .atomic).pa % 8 = 0 ∧ amoState.bad (at_ amoState 0x308 .atomic).pa = false ∧
      amoState.mirrored ((at_ amoState 0x308 .atomic).pa / 0x20_0000) = false ∧ (own amoState).inTry = false ∧ (own amoState).atomicWaits false 3 = false ∧
      amoState.proxyHolds 3 = false ∧ (amoState.dropSector (at_ amoState 0x308 .atomic).pa).bad (at_ amoState 0x308 .atomic).pa = false ∧
      (at_ amoState 0x308 .atomic).leaf.ms = false ∧
      amoState.atomicOk (at_ amoState 0x308 .atomic) 7 (amoTy 1 0) = true := by
  unfold Reaching own; decide

theorem meets_ScalarScratchpad :
    let s := regs (pad scalarState 0 []) [(1, 4088)]
    (s.scalarAddr 0 3 1).toNat % 8 = 0 ∧ s.spadLoc (keyTeam s.me) (s.scalarAddr 0 3 1).toNat 8 = some (1, 4088) ∧ (own s).inTry = false ∧
      (own s).awaits false = false := by
  unfold own; decide

/-- The runner inside `try`, its memory-side page named by `s1`. -/
def trySide : State :=
  on (memSide (regs scalarState [(1, 0x300)])) fun x => { x with tr := some { sd := 5, landing := 0x180, savedS := x.s, savedK := x.k, savedLive := x.live } }

theorem meets_ScalarScratchpadAndPrefetch_sides :
    (own trySide).sBad 1 = false ∧ (trySide.scalarAddr 0 3 1).toNat % 8 = 0 ∧ trySide.prefetchMs trySide.me (trySide.scalarAddr 0 3 1).toNat = true ∧
      scalarState.prefetchMs scalarState.me (scalarState.scalarAddr 0 3 1).toNat = false ∧
      scalarState.prefetchBusy scalarState.me (scalarState.scalarAddr 0 3 1).toNat = false := by unfold own; decide

-- the line's row under repair
theorem meets_ScalarScratchpadAndPrefetch_waits :
    let s := repairing (homes (regs scalarState [(1, 0x300)])) (0x20_0000 * runnerFrame + 0x300)
    (own s).sBad 1 = false ∧ (s.scalarAddr 0 3 1).toNat % 8 = 0 ∧ s.prefetchBusy s.me (s.scalarAddr 0 3 1).toNat = true ∧
      s.prefetchMs s.me (s.scalarAddr 0 3 1).toNat = false := by unfold own; decide

theorem meets_MisalignedTraps :
    let s := regs scalarState [(1, 0x301)]
    UserMode s ∧ (s.scalarAddr 0 1 1).toNat % 2 ^ (1#2).toNat ≠ 0 ∧ (wrapped ((s.rs 1).toNat + (1#13).toInt)).toNat % 4 ≠ 0 := by
  unfold UserMode own; decide

/-- A lane instruction's registers are ready in the runner: below its 256, the last pair of them aligned. -/
theorem meets_LaneReady :
    LaneReady laneState (word 3) [(254, 2)] ∧ LaneReady laneState (word 1) [(8, 1), (255, 1)] ∧ (own laneState).overflowsShadow [(254, 2)] = false := by
  unfold LaneReady acting own; decide

/-- 06, 07: the statements over types hold of an instruction whose fields meet these. -/
theorem meets_LaneArithmetic : tyFloat (word 3).ty = false ∧ LaneReady laneState (word 3 0 0 0 0 12 10)
    (regA (word 3) 2 3 ++ regB (word 3 0 0 0 0 12 10) 2 3 ++ [(16, 2)]) ∧ (own laneState).overflowsShadow [(16, 2)] = false := by
  unfold LaneReady acting own; decide

theorem meets_LaneBitwise : tyFloat (word 2).ty = false ∧ tyCount (word 2).ty = 1 := by decide

theorem meets_LaneMovesAndShuffles :
    (word 0 0).sub = 0#4 ∧ (word 0 1).sub ≠ 0#4 ∧ ((word 11).ty = 11#4 ∨ (word 11).ty = 12#4) ∧
      LaneReady laneState (word 0) (regA (word 0) 2 0 ++ regB (word 0) 2 0 ++ [(16, 1)]) := by
  unfold LaneReady acting own; decide

theorem meets_FloatRounding :
    tyFloat 10#4 = true ∧ (0 : Nat) < 1 ∧ (0 : Nat) < 3 ∧ (0 : Nat) < 5 ∧
      (fmtOf 4#4).roundFin 1 false false 1 3 < (fmtOf 4#4).largest ∧
      (fmtOf 4#4).value ((fmtOf 4#4).roundFin 1 false false 3 2) = .fin false 12582912 8388608 := by decide

theorem meets_LaneFloats : tyFloat 4#4 = true ∧ tyFloat 7#4 = true ∧ tyCount 7#4 = 2 ∧ (fmtOf 4#4).value 0x7FC00000 = .nan ∧
    (fmtOf 4#4).value 0xFF800000 = .inf true ∧ (fmtOf 4#4).value 0x80000001 = .fin true 1 (2 ^ 149) := by decide

theorem meets_LaneConversions :
    tyCount (4#4) = tyCount (1#4) ∧ tyCount (4#4) = 1 ∧ 1 < tyCount (6#4) ∧ 1 < tyCount (8#4) ∧ (own laneState).vBad 0 16 = false ∧
      (word 10 0).sub = 0#4 ∧ (word 10 2).sub = 2#4 := by unfold own; decide

/-- The runner with 1.0 in the first of eight values and in the multiplier: a block that is neither empty nor infinite. -/
def packState : State := slots laneState [(0, 8, 0x3F800000), (0, 20, 0x3F800000)]

theorem meets_LaneConversions_block :
    let f := word 10 0 0 0 0 0 20
    let ys := fun i => FVal.mul (fp32.value (((own packState).srcReg 4#4 0 (f.va.toNat + i)).1)) (fp32.value ((own packState).srcB f 2 4#4 0).1)
    (ys 0).isZero = false ∧ ys 0 ≠ .nan ∧ (∀ i, i < 8 → ys i ≠ .inf true ∧ ys i ≠ .inf false) ∧
      blockScale 0 ((List.range 8).map ys) 0 < 0xFE ∧ 1 < blockScale 0 ((List.range 8).map ys) 0 := by
  unfold own; decide

/-! ### Long-latency instructions -/

/-- The runner in a clause whose flag set A is `f3` and whose first slot was counted at enqueue with it. -/
def flagState (reached : List Nat) (n : Nat) : State :=
  on laneState fun x => { x with
    flags := KMap.write 0 3 n x.flags
    run := some { entry := { addr := 0xF4, caps := [], hdr := { setA := some 3, setB := none, count := 1, wait := 0, yieldHint := false },
                             counts := [(1, 3)] }, reached } }

theorem meets_LongLatencyInstructions :
    tyCount (word 3).ty = 1 ∧ (own laneState).issueLL (word 3) = some (own laneState, none) ∧
      LaneReady laneState (word 3) (regA (word 3) 2 3 ++ regB (word 3) 2 3 ++ [(16, 2)]) := by
  unfold LaneReady acting own; decide

-- a clause whose header names a flag, at one short of its limit; and one that names none
theorem meets_LongLatencyInstructions_completes :
    let s := flagState [1] 62
    (own s).overflowsShadow [(16, 2)] = false ∧ LaneReady s (word 5) (regA (word 5) 2 5 ++ regB (word 5) 2 5 ++ [(16, 2)]) ∧
      (match (own s).curClause with | some (_, h) => h.setA.all fun k => decide ((own s).flag k < 63) | none => false) = true ∧
      (match (own laneState).curClause with | some (_, h) => h.setA.isNone | none => true) = true ∧
      LaneReady laneState (word 4) (regA (word 4) 1 4 ++ [(16, 1)]) := by unfold LaneReady acting own; decide

theorem meets_LongLatencyFlags_counted :
    let x := own (flagState [] 1)
    x.run.isSome ∧ x.curClause.isSome ∧ x.inCall = false ∧ (x.run.map fun r => r.entry.counts.find? fun c => c.1 = 1) = some (some (1, 3)) ∧
      (x.run.map (·.reached)) = some [] := by unfold own; decide

theorem meets_LongLatencyFlags_again :
    (1 ∈ ((own (flagState [1] 62)).run.map (·.reached)).getD []) ∧ (own (flagState [1] 62)).flag 3 < 63 ∧ 63 ≤ (own (flagState [1] 63)).flag 3 ∧
      ((own (flagState [1] 63)).issueLL (word 3)).isNone := by unfold own; decide

theorem meets_LaneReports :
    (own laneState).issueLL (word 3) = some (own laneState, none) ∧ tyCount (word 3).ty = 1 ∧ tyFloat (word 3).ty = false ∧
      LaneReady laneState (word 3) [(8, 2)] ∧
      acting (on laneState fun x => { x with live := 0 }) (word 3) = 0 ∧
      (own (on laneState fun x => { x with live := 0 })).issueLL (word 3) = some (own (on laneState fun x => { x with live := 0 }), none) := by
  unfold LaneReady acting own; decide

/-! ### Control of lanes -/

/-- The runner in a clause of two instructions, with a mark entry on top, and its first slot reached by the lanes of a mask. -/
def clauseState (m : BitVec 16) (stack : List MJEntry) (lpc : Word := 0x100) : State :=
  on laneState fun x => { x with
    stack
    path := some { mask := m, lpc }
    run := some { entry := { addr := 0xF4, caps := [], hdr := { setA := none, setB := none, count := 2, wait := 0, yieldHint := false } } } }

theorem meets_LaneTraps_fields :
    let s := onTeam laneState fun t => { t with vregs := 16 }
    LaneUser s ∧ ((own s).path).isSome ∧ (16, 1) ∈ [(8, 1), (0, 1), (16, 1)] ∧ (s.gTeam s.me).vregs < 16 + 1 ∧ (9 % 2 ≠ 0) ∧
      (8, 1) ∈ regA (word 1) 2 1 ++ regB (word 1) 2 1 ++ [(16, 1)] ∧ (16, 1) ∈ regA (word 1) 2 1 ++ regB (word 1) 2 1 ++ [(16, 1)] := by
  unfold LaneUser UserMode own; decide

theorem meets_LaneTraps_compare_fields :
    let s := onTeam laneState fun t => { t with vregs := 8 }
    (8, 1) ∈ regA (word 1) 2 1 ++ regB (word 1) 2 1 ∧ (8, 1) ∈ [((word 1).va.toNat, 1)] ∧ (s.gTeam s.me).vregs < 8 + 1 ∧ LaneUser s ∧ (own s).path.isSome := by
  unfold LaneUser UserMode own; decide

/-- Lanes 0 to 7 act where a predicate says so. -/
def half (s : State) : State := on s fun x => { x with k := [(1, 0x00FF)] }

/-- The fields of a branch to a slot under predicate `k1`. -/
def branch (n : BitVec 32) (k : BitVec 3) : LaneWord := { word 0 0 0 0 n 0 0 0 8 with guard := k }

theorem meets_LaneControlFlow_branch :
    let s := clauseState 0xFFFF []
    let h := half (clauseState 0xFFFF [.mark 2 0xFFFF [] 0xF4])
    (own s).curClause.isSome ∧ (own h).curClause.isSome ∧ (own s).live &&& (own s).pathMask &&& ~~~ acting s (branch 3 0) = 0 ∧
      acting (on s fun x => { x with live := 0 }) (branch 3 0) = 0 ∧
      acting h (branch 1 1) = 0x00FF ∧ (own h).live &&& (own h).pathMask &&& ~~~ acting h (branch 1 1) = 0xFF00 := by
  unfold acting own; decide

/-- Lane 0 branches to slot 1 and lane 1 to the clause's end. -/
def scatterState : State := slots (clauseState 0x0003 [.mark 2 0x0003 [] 0xF4]) [(0, 8, 1), (1, 8, 3)]

theorem meets_LaneControlFlow_scatter :
    LaneReady scatterState (branch 0 0) [(8, 1)] ∧ lanes (acting scatterState (branch 0 0)) = [0, 1] ∧
      ((own scatterState).srcReg 0#4 0 8).1 = 1 ∧ ((own scatterState).srcReg 0#4 1 8).1 = 3 ∧ (own scatterState).vBad 0 8 = false ∧
      (own scatterState).vBad 1 8 = false ∧ (own scatterState).curClause.isSome := by
  unfold LaneReady acting own; decide

/-- Slot 2 of the clause is a join. -/
def markState : State := place (clauseState 0xFFFF []) 0x10C (encode (.vjoin (word 0 0 0 0 0 0 0 0 0)))

theorem meets_LaneControlFlow_mark :
    ((own markState).slot - 0xF4).toNat / 12 < 2 ∧ (own markState).curClause.isSome ∧
      (match markState.fetchLane markState.me (0xF4 + BitVec.ofNat 64 24) with | .instr (.vjoin _) => true | _ => false) = true ∧
      (own markState).stack.length < 32 := by unfold own; decide

theorem meets_LaneControlFlow_join :
    let p : Path := { mask := 0xFF00, lpc := 0x10C }
    ((own (clauseState 0x00FF [.mark 1 0xFFFF [p] 0xF4])).slot - 0xF4).toNat / 12 = 1 ∧
      (own (clauseState 0x00FF [.mark 1 0xFFFF [p] 0xF4])).stack = [.mark 1 0xFFFF [p] 0xF4] ∧
      (own (clauseState 0x00FF [.mark 1 0xFFFF [] 0xF4])).stack = [.mark 1 0xFFFF [] 0xF4] := by unfold own; decide

/-- A clause header of one instruction at virtual address 0x300 (03 R73). -/
def callState : State := on (place (clauseState 0xFFFF []) 0x300 (bytesOfNat 12 0)) fun x => { x with
  run := x.run.map fun r => { r with entry := { r.entry with caps := [(0, 0x300)] } } }

theorem meets_LaneControlFlow_call :
    let l := (own callState).cap 0 + 16 * (0 : BitVec 32).signExtend 64
    l.toNat % 16 = 0 ∧ callState.readHeader callState.me l = .ok { setA := none, setB := none, count := 1, wait := 0, yieldHint := false } ∧
      (own callState).stack.length < 32 ∧ (own callState).curClause.isSome := by unfold own; decide

theorem codeHere_page (s : State) (n : Nat) (y : Xlat) (hp : sectorPieces 0x300 n n = [(0x300, n)])
    (hx : s.xlate (s.whoIs s.me (own s).kernel) 0x300 .execute = .ok y) (hy : y.remote = false ∧ y.leaf.host = false) : CodeHere s 0x300 n := by
  intro p h z hz
  rw [hp, List.mem_singleton] at h
  subst h
  rw [hx] at hz
  cases hz
  exact hy

theorem meets_LaneControlFlow_callHere : CodeHere callState 0x300 12 :=
  codeHere_page callState 12 (at_ callState 0x300 .execute) (by decide) (by unfold own; decide) (by decide)

theorem meets_LaneControlFlow_return :
    let h : ClauseHeader := { setA := none, setB := none, count := 1, wait := 0, yieldHint := false }
    (own (clauseState 0xFFFF [.call 0x10C 0xFFFF 0x300 h])).stack = [.call 0x10C 0xFFFF 0x300 h] ∧
      (own (clauseState 0xFFFF [.call 0x10C 0xFFFF 0x300 h])).curClause = some (0x300, h) ∧
      (own (clauseState 0xFFFF [.call 0x10C 0xFFFF 0x300 h])).pathMask ≠ 0 := by unfold own; decide

theorem meets_LaneControlFlow_exit :
    let h := half (clauseState 0xFFFF [.mark 2 0xFFFF [] 0xF4])
    (own (clauseState 0xFFFF [])).tr = none ∧ (own (clauseState 0xFFFF [])).stack = [] ∧
      (own h).live &&& (own h).pathMask &&& ~~~ acting h (branch 0 1) ≠ 0 ∧ (own h).tr = none := by unfold acting own; decide

theorem meets_LaneTraps_stack :
    let s := half (clauseState 0xFFFF [])
    let f := branch 3 1
    LaneUser s ∧ (own s).path.isSome ∧ (own s).curClause.isSome ∧ acting s f ≠ 0 ∧ (own s).live &&& (own s).pathMask &&& ~~~ acting s f ≠ 0 ∧
      (own s).topMark = false ∧ (own s).stack = [] ∧ ((own s).curClause.map fun c => c.2.count) = some 2 ∧
      (own (clauseState 0xFFFF [.mark 2 0xFFFF [] 0xF4])).topMark = true ∧ LaneUser (clauseState 0xFFFF [.mark 2 0xFFFF [] 0xF4]) := by
  unfold LaneUser UserMode acting own; decide

/-- A mould bound to a tile of some bytes. -/
def mouldOf (tbase tsize : Nat) : Obj := { exparr := 1, pendarr := 1, mv := true, tbase, tsize, darr := 1 }

/-! ### Threads -/

/-- One lane acts. -/
def lone (s : State) : State := on s fun x => { x with path := x.path.map fun p => { p with mask := 1 } }

/-- A bin of the runner's team that holds some threads of an entry at 0x400. -/
def binState (n : Nat) : State :=
  onTeam (lone (on laneState fun x => { x with run := x.run.map fun r => { r with entry := { r.entry with caps := [(0, 0x400)] } } }))
    fun t => { t with bins := [(0, { entry := 0x400, threads := List.replicate n [1, 2, 3, 4] })] }

theorem meets_LaneThreads_spawn :
    let s := binState 14
    LaneReady s (word 0) [(8, 4)] ∧ (own s).tr = none ∧ ((own s).cap 0 + 4 * (0 : BitVec 32).signExtend 64).toNat % 4 = 0 ∧
      lanes (acting s (word 0)) = [0] ∧ (own s).spawned = none ∧ (∀ j, j < 4 → (own s).vBad 0 (8 + j) = false) ∧ (s.tm 1).binFor 0x400 = some 0 ∧
      (s.freeGroup 1).isSome = true ∧ 14 + (lanes (acting s (word 0))).length ≤ 15 := by
  unfold LaneReady acting own; decide

/-- Fifteen lanes act, and no bin holds a thread. -/
def binEmpty : State := on (onTeam (binState 0) fun t => { t with bins := [] }) fun x => { x with path := x.path.map fun p => { p with mask := 0x7FFF } }

theorem meets_LaneThreads_spawn_lanes :
    let s := binEmpty
    LaneReady s (word 0) [(8, 4)] ∧ (own s).tr = none ∧ (own s).spawned = none ∧ ((own s).cap 0).toNat % 4 = 0 ∧ (lanes (acting s (word 0))).length = 15 ∧
      (s.tm 1).binFor 0x400 = some 0 ∧ KMap.find 0 (s.tm 1).bins = none ∧ (s.tm 1).binTimeOut { entry := 0x400, threads := [] } = false := by
  unfold LaneReady acting own; decide

theorem meets_LaneThreads_launch :
    let s := binState 15
    LaneReady s (word 0) [(8, 4)] ∧ (s.tm 1).binFor 0x400 = some 0 ∧ s.freeGroup 1 = some 1 ∧ streamKey 1 1 ≠ s.me := by
  unfold LaneReady acting own; decide

/-- A checkpoint of the runner, with one store of lane 0 buffered. -/
def tryOf (x : Group) : TryState :=
  { sd := 5, landing := 0x180, savedS := x.s, savedK := x.k, savedLive := x.live,
    buffer := [{ kind := .store, lane := true, slot := 0x100, size := 4, accs := [{ lane := 0, va := 0x300, data := 7 }] }] }

theorem meets_LaneThreads_abort :
    let s := half (on laneState fun x => { x with tr := some (tryOf x) })
    (own laneState).tr = none ∧ (own laneState).issueLL (branch 0 0) = some (own laneState, none) ∧
      (own s).issueLL (branch 0 1) = some (own s, none) ∧ (own s).tr.isSome ∧ acting s (branch 0 1) ≠ 0 ∧
      (own s).live &&& ~~~ acting s (branch 0 1) ≠ 0 := by unfold acting own; decide

/-! ### Lane memory -/

/-- The fields of a memory instruction whose address is a captured scalar plus a 32-bit index in v8. -/
def memWord (sub : BitVec 4) (ty : BitVec 4 := 0) : LaneWord := word ty sub 0 1

/-- One lane of the runner acts, and its address is that of the last 16 bytes of the page. -/
def laneMem : State :=
  lone (slots (on laneState fun x => { x with run := x.run.map fun r => { r with entry := { r.entry with caps := [(0, 0xFFF0)] } } }) [(0, 12, 7)])

theorem meets_LaneLoads :
    let s := memSide laneMem
    let f := memWord 4
    LaneMayAccess s f (own s) none ∧ CleanAddresses s f 16 ∧ f.u = 0#1 ∧ lanes (acting s f) = [0] ∧ f.sub.toNat ≤ 4 ∧
      LaneReady s f [addrRegs f true, (16, 4)] ∧ (own s).freeLog = some 0 ∧ f.md.getLsbD 0 = false ∧ (at_ s 0xFFF0 .read).pa ≠ 0 ∧
      s.xlate (s.whoIs s.me false) 0xFFF0 .read = .ok (at_ s 0xFFF0 .read) ∧ ((own s).globalAddr f (memOff f) 0).addr = 0xFFF0 ∧
      (at_ s 0xFFF0 .read).remote = false ∧ (at_ s 0xFFF0 .read).leaf.ms = true ∧ (at_ s 0xFFF0 .read).leaf.host = false ∧
      s.holdsOp s.me (at_ s 0xFFF0 .read) 1 = false ∧ s.behindReduce s.me (at_ s 0xFFF0 .read) 16 = false ∧ (own s).ownStores = [] ∧
      s.bad (at_ s 0xFFF0 .read).pa = false := by
  unfold LaneMayAccess CleanAddresses LaneReady acting own; decide

/-- The address of lane 0 of a memory instruction of `laneMem`, the only lane that acts, translates so. -/
theorem laneMem_reach (n : Nat) (f : LaneWord) (p : Nat → Prop) (h : bodyLanes f (acting laneMem f) = [0])
    (ha : ((own laneMem).globalAddr f (memOff f) 0).addr = 0xFFF0) (hn : 0xFFF0 % n = 0) (hp : p 0xFFF0) : LanesReach laneMem f n p := by
  intro l hl
  rw [h, List.mem_singleton] at hl
  subst hl
  rw [ha]
  exact Or.inr ⟨hn, by decide, hp⟩

theorem laneMem_unheld (n : Nat) (h : laneMem.behindReduce laneMem.me (at_ laneMem 0xFFF0 .read) n = false) : Unheld laneMem n 0xFFF0 := by
  intro y hy
  have e : laneMem.xlate (laneMem.whoIs laneMem.me false) 0xFFF0 .read = .ok (at_ laneMem 0xFFF0 .read) := by decide
  rw [e] at hy
  cases hy
  exact ⟨by decide, h⟩

theorem meets_LaneLoads_go :
    let f := { memWord 4 with vc := 12 }
    LaneMayAccess laneMem f (own laneMem) none ∧ (own laneMem).freeLog.isSome ∧ LaneReady laneMem f [addrRegs f true, (16, 4)] ∧
      LanesReach laneMem f 16 (fun va => (∃ y, laneMem.xlate (laneMem.whoIs laneMem.me false) va .read = .ok y) ∧ Unheld laneMem 16 va) ∧
      LaneReady laneMem f [addrRegs f true, (12, 4)] ∧ LanesReach laneMem f 16 (fun _ => True) :=
  ⟨by unfold LaneMayAccess own; decide, by unfold own; decide, by unfold LaneReady acting own; decide,
    laneMem_reach 16 _ _ (by decide) (by decide) (by decide) ⟨⟨at_ laneMem 0xFFF0 .read, by decide⟩, laneMem_unheld 16 (by decide)⟩,
    by unfold LaneReady acting own; decide, laneMem_reach 16 _ _ (by decide) (by decide) (by decide) trivial⟩

theorem meets_LaneLoads_go_atomics :
    let f := { memWord 7 3 with vc := 12 }
    LaneReady laneMem f [addrRegs f true, (12, 2)] ∧ LanesReach laneMem f 8 (fun _ => True) ∧
      LaneReady laneMem f [addrRegs f true, (12, 2), (16, 2)] ∧ (own laneMem).atomicWaits true 0 = false ∧ laneMem.proxyHolds 0 = false ∧
      LanesReach laneMem f 8 (fun va => (∃ y, laneMem.xlate (laneMem.whoIs laneMem.me false) va .atomic = .ok y ∧
        (y.remote = true ∨ laneMem.atomicOk y f.sub.toNat f.ty = true)) ∧ Unheld laneMem 8 va) :=
  ⟨by unfold LaneReady acting own; decide, laneMem_reach 8 _ _ (by decide) (by decide) (by decide) trivial, by unfold LaneReady acting own; decide,
    by unfold own; decide, by decide,
    laneMem_reach 8 _ _ (by decide) (by decide) (by decide)
      ⟨⟨at_ laneMem 0xFFF0 .atomic, by decide, Or.inr (by decide)⟩, laneMem_unheld 8 (by decide)⟩⟩

-- a poisoned address reaches nothing and goes on too
theorem meets_LaneLoads_go_poisoned :
    let s := on laneState fun x => { x with vPoison := (List.range 16).map fun l => (vkey l 8, true) }
    (∀ l ∈ bodyLanes (memWord 0) (acting s (memWord 0)), ((own s).globalAddr (memWord 0) (memOff (memWord 0)) l).bad = true) ∧
      (bodyLanes (memWord 0) (acting s (memWord 0))).length = 16 := by unfold acting own; decide

theorem meets_LaneStores :
    let f := { memWord 4 with vc := 12 }
    let g := { memWord 0 2 with vc := 12 }
    LaneMayAccess laneMem f (own laneMem) none ∧ bodyLanes f (acting laneMem f) ≠ [] ∧ (own laneMem).freeLog = some 0 ∧
      CleanAddresses laneMem f 16 ∧ LaneReady laneMem f [addrRegs f true, (12, 4)] ∧
      (∀ l ∈ bodyLanes f (acting laneMem f), ∀ j, j < 4 → (own laneMem).vBad l (12 + j) = false) ∧
      CleanAddresses laneMem g (tyWidth g.ty / 8) ∧ LaneReady laneMem g [addrRegs g true, (12, wide g.ty)] := by
  unfold LaneMayAccess CleanAddresses LaneReady acting own; decide

theorem meets_LaneAtomicAndScratchpad_atomic :
    let f := { memWord 7 1 with vc := 12 }
    LaneMayAccess laneMem f (own laneMem) none ∧ CleanAddresses laneMem f 4 ∧ lanes (acting laneMem f) = [0] ∧ f.sub.toNat ≤ 7 ∧
      LaneReady laneMem f [addrRegs f true, (12, 1), (16, 1)] ∧ (own laneMem).freeLog = some 0 ∧ (own laneMem).atomicWaits true 0 = false ∧
      (own laneMem).kernel = false ∧ laneMem.xlate (laneMem.whoIs laneMem.me false) 0xFFF0 .atomic = .ok (at_ laneMem 0xFFF0 .atomic) ∧
      laneMem.xlate (laneMem.whoIs laneMem.me false) 0xFFF0 .read = .ok (at_ laneMem 0xFFF0 .atomic) ∧
      (at_ laneMem 0xFFF0 .atomic).remote = false ∧ (at_ laneMem 0xFFF0 .atomic).leaf.host = false ∧
      laneMem.holdsOp laneMem.me (at_ laneMem 0xFFF0 .atomic) 1 = false ∧ laneMem.proxyHolds 0 = false ∧ (at_ laneMem 0xFFF0 .atomic).leaf.ms = false ∧
      (laneMem.dropSector (at_ laneMem 0xFFF0 .atomic).pa).bad (at_ laneMem 0xFFF0 .atomic).pa = false ∧ f.md.getLsbD 0 = false ∧
      (at_ laneMem 0xFFF0 .atomic).pa % 4 = 0 ∧ laneMem.bad (at_ laneMem 0xFFF0 .atomic).pa = false ∧
      laneMem.mirrored ((at_ laneMem 0xFFF0 .atomic).pa / 0x20_0000) = false := by
  unfold LaneMayAccess CleanAddresses LaneReady acting own; decide

theorem meets_LaneAtomicAndScratchpad_scratchpad :
    let s := pad (lone (slots laneState [(0, 8, 4080)])) 0 []
    let f := { word 0 4 with vc := 12 }
    LaneMayAccess s f (own s) none ∧ lanes (acting s f) = [0] ∧ (own s).vBad 0 8 = false ∧ ((own s).spadAddr f 0).addr.toNat = 4080 ∧
      s.spadLoc (keyTeam s.me) 4080 16 = some (1, 4080) ∧ LaneReady s f [(8, 1), (16, 4)] ∧ LaneReady s f [(8, 1), (12, 4)] ∧
      (∀ j, j < 4 → (own s).vBad 0 (12 + j) = false) ∧ (own s).awaits true = false ∧ f.md.getLsbD 0 = false := by
  unfold LaneMayAccess LaneReady acting own; decide

-- every lane at the end of the scratchpad plainly, and at the end of a tile of 128 bytes under the mould at the scratchpad's start
theorem meets_LaneAtomicAndScratchpad_goes :
    let s := pad (slots laneState ((List.range 16).map fun l => (l, 8, 4080))) 0 []
    let m := pad (slots laneState ((List.range 16).map fun l => (l, 8, 112))) 0 (mouldOf 128 128).toBytes
    let f := { word 0 4 with vc := 12 }
    let g := { f with md := 1, kind := 1 }
    LaneMayAccess s f (own s) none ∧ f.md.getLsbD 0 = false ∧ (∀ l ∈ bodyLanes f (acting s f), (s.plainSpad f 16 l).1 = none) ∧
      LaneReady s f [(8, 1), (16, 4)] ∧ LaneReady s f [(8, 1), (12, 4)] ∧ (lanes (acting s f)).length = 16 ∧ (own s).awaits true = false ∧
      LaneMayAccess m g (own m) none ∧ g.md.getLsbD 0 = true ∧
      (match m.mouldObj ((own m).cap (g.vb.toNat % 16)) with
       | .ok (tm, o) => decide (tm = 1 ∧ o = 0 ∧ ∀ l ∈ bodyLanes g (acting m g), (m.mouldSpad g 16 tm (m.objAt tm o) l).1 = none)
       | .error _ => false) = true := by
  unfold LaneMayAccess LaneReady acting own; decide

theorem meets_LanePrefetchAndFence :
    let f := memWord 1
    (own laneState).fenced = false ∧ (own laneState).issueLL f = some (own laneState, none) ∧ LaneReady laneState f [addrRegs f true] ∧
      (∀ l ∈ bodyLanes f (acting laneState f), laneState.prefetchMs laneState.me ((own laneState).globalAddr f (memOff f) l).addr.toNat = false ∧
        laneState.prefetchBusy laneState.me ((own laneState).globalAddr f (memOff f) l).addr.toNat = false) ∧
      laneState.fenceOk laneState.me f.sub.toNat = true ∧ (own laneState).freeLog.isSome := by
  unfold LaneReady acting own; decide

theorem meets_LaneTraps_addresses :
    let f := memWord 2
    let far := on laneMem fun x => { x with run := x.run.map fun r => { r with entry := { r.entry with caps := [(0, 0x10000000000000)] } } }
    let odd := on laneMem fun x => { x with run := x.run.map fun r => { r with entry := { r.entry with caps := [(0, 0x301)] } } }
    LaneUser far ∧ (own far).path.isSome ∧ (own far).fenced = false ∧ lanes (acting far f) = [0] ∧
      ((own far).globalAddr f (memOff f) 0).bad = false ∧ 2 ^ 52 ≤ ((own far).globalAddr f (memOff f) 0).addr.toNat ∧
      LaneUser odd ∧ ((own odd).globalAddr f (memOff f) 0).addr.toNat % 4 ≠ 0 ∧ LaneReady far f [addrRegs f true, (16, 1)] ∧
      LaneReady odd f [addrRegs f true, (f.vc.toNat, 1)] := by
  unfold LaneUser UserMode LaneReady acting own; decide

/-! ### Copies -/

/-- The runner's lane 0 names the last bytes of the page and the last of a scratchpad. -/
def copyState : State := slots (pad laneMem 0 []) [(0, 12, 4080)]

theorem meets_CopyIssue :
    let f := { word 0 4 0 1 0x0FFF8000 with vc := 12 }
    let y := at_ copyState 0xFFF0 .read
    LaneMayAccess copyState f (own copyState) none ∧ lanes (acting copyState f) = [0] ∧ LaneReady copyState f [addrRegs f true, (12, 1)] ∧
      (own copyState).freeLog = some 0 ∧ f.md.getLsbD 2 = false ∧ ((own copyState).globalAddr f 0 0).bad = false ∧
      ((own copyState).globalAddr f 0 0).addr.toNat = 0xFFF0 ∧ ((own copyState).vRaw 0 12).toNat + 16 ≤ (copyState.gTeam copyState.me).spad ∧
      (copyState.gTeam copyState.me).spad ≤ 2 ^ 20 ∧ 32 * (f.imm.toNat % 2 ^ 15) < (copyState.gTeam copyState.me).spad ∧ y.remote = false ∧ (own copyState).oplog = [] ∧
      KMap.read [] 0 (copyState.coreAt (copyState.gCore copyState.me)).ladle = [] ∧ (own copyState).kernel = false ∧
      copyState.xlate ((copyState.whoIs copyState.me false).onQueue (copyState.gCore copyState.me) 0) 0xFFF0 .read = .ok y ∧
      copyState.xlate ((copyState.whoIs copyState.me false).onQueue (copyState.gCore copyState.me) 0) 0xFFF0 .write = .ok y ∧ f.sub.getLsbD 3 = false := by
  unfold LaneMayAccess LaneReady acting own; decide

-- sixteen lanes of sixteen bytes each, to the end of the page and of the scratchpad, plainly and under the mould at its start
theorem meets_CopyIssue_goes :
    let ls := List.range 16
    let s := slots (pad (on laneState fun x => { x with run := x.run.map fun r => { r with entry := { r.entry with caps := [(0, 0xFF00)] } } }) 0
      (mouldOf 3840 256).toBytes) (ls.map (fun l => (l, 8, BitVec.ofNat 32 (16 * l))) ++ ls.map fun l => (l, 12, BitVec.ofNat 32 (3840 + 16 * l)))
    let f := { word 0 4 0 1 0x00008000 with vc := 12 }
    let g := { f with md := 4, vc := 8 }
    LaneMayAccess s f (own s) none ∧ LaneReady s f [addrRegs f true, (12, 1)] ∧ (own s).freeLog.isSome ∧ (bodyLanes f (acting s f)).length = 16 ∧
      (∀ k ∈ [MemKind.copyIn, .copyOut, .cast], s.copyObjects f k = none ∧ (∀ l ∈ bodyLanes f (acting s f), (s.copyLane f k l).1 = none) ∧
        lineCount ((bodyLanes f (acting s f)).map fun l => (s.copyLane f k l).2) = 2) ∧
      LaneReady s g [addrRegs g true, (8, 1)] ∧ copyMould g = true ∧ s.copyObjects g .copyIn = none ∧
      (∀ l ∈ bodyLanes g (acting s g), (s.copyLane g .copyIn l).1 = none) ∧
      KMap.read [] 0 (s.coreAt (s.gCore s.me)).ladle = [] := by
  unfold LaneMayAccess LaneReady acting own; decide

theorem meets_CopyIssue_cast :
    let f := { word 0 4 0 1 0x00008000 with vc := 12 }
    f.imm.toNat / 2 ^ 15 % 2 ^ 12 ≠ 0 ∧
      f.imm.toNat / 2 ^ 15 % 2 ^ 12 < 2 ^ ((copyState.cl (copyState.gCluster copyState.me)).w * (copyState.cl (copyState.gCluster copyState.me)).h) := by
  decide

/-! ### Clauses, barriers, arrivals -/

/-- A header of one instruction with flag set A `f3`, and a `vdiv` in its slot. -/
def clauseReady : State :=
  regs (place (place scalarState 0x300 (bytesOfNat 12 (2 ^ 26 + 3 * 2 ^ 27))) 0x30C (encode (.vdiv (word 1)))) [(1, 0x300)]

theorem meets_ClausesAndFlags :
    let h : ClauseHeader := { setA := some 3, setB := none, count := 1, wait := 0, yieldHint := false }
    let l := clauseReady.rs 1 + 16 * (0 : BitVec 19).signExtend 64
    keyGrp clauseReady.me ≠ 64 ∧ (own clauseReady).kernel = false ∧ l.toNat % 16 = 0 ∧ clauseReady.clauseFault clauseReady.me l = none ∧
      clauseReady.readHeader clauseReady.me l = .ok h ∧
      clauseReady.slotCounts clauseReady.me l h = .ok [(1, 3)] ∧ (own clauseReady).queue.length + (if (own clauseReady).run.isSome then 1 else 0) < 8 ∧
      clauseReady.clauseLen clauseReady.me l = 24 ∧
      (∀ f, f < 12 → (own clauseReady).flag f + countsOn [(1, 3)] f ≤ 63) ∧ (own clauseReady).sPoison = [] := by unfold own; decide

theorem meets_ClausesAndFlags_here : CodeHere clauseReady 0x300 24 :=
  codeHere_page clauseReady 24 (at_ clauseReady 0x300 .execute) (by decide) (by unfold own; decide) (by decide)

theorem meets_ClausesAndFlags_waits :
    (0x008 : BitVec 12).getLsbD 3 = true ∧ (own (on scalarState fun x => { x with flags := [(3, 1)] })).flag 3 ≠ 0 := by unfold own; decide

theorem noWaiter_scalar (o : Nat) (bs : List Byte) (f : Group → Group) (h : (f (scalarState.grp 128)).wait = none) :
    NoWaiter (on (pad scalarState o bs) f) 1 o := by
  intro g x hx p
  have e : (on (pad scalarState o bs) f).groups = [(128, f (scalarState.grp 128))] := rfl
  rw [e] at hx
  simp only [List.mem_singleton, Prod.mk.injEq] at hx
  obtain ⟨rfl, rfl⟩ := hx
  simp [Group.waitsOn, h]

/-- The runner with an object at the last 32 bytes of its scratchpad, whose address is in `s1`, and values in `s2` and `s3`. -/
def objState (w : Obj) (b c : Word) : State :=
  on (pad scalarState 4064 w.toBytes) fun x => { x with s := [(1, 4064), (2, b), (3, c)] }

/-- An object in phase 0 with two arrivals and eight bytes expected, one observer registered and owed nothing. -/
def sound : Obj := { exparr := 2, pendarr := 2, expbytes := 8, pendbytes := 8, reg := 1, obs := 1 }

theorem meets_BarrierSetupAndWaiting :
    let s := objState sound 0x0001000000080002 0x80000005
    AtObject s 1 1 4064 ∧ ((s.rs 2).toNat < 2 ^ 58 ∧ (s.rs 2).toNat % 2 ^ 48 ≠ 0 ∧ (s.rs 3).toNat < 2 ^ 32 ∧ (s.rs 3).toNat / 2 ^ 24 % 128 = 0) ∧
      (own s).sBad 2 = false ∧ (own s).sBad 3 = false ∧ (own s).wait = none ∧ (s.objAt 1 4064).phase.toNat % 2 = (0#1).toNat ∧
      (s.objAt 1 4064).phase.toNat % 2 ≠ (1#1).toNat := by unfold AtObject AtPlace own; decide

theorem meets_BarrierSetupAndWaiting_signalled :
    let s := on (objState sound 0 0) fun x => { x with wait := some { team := 1, obj := 4064, t := true, registered := true, signalled := true, phase := 3 } }
    AtObject s 1 1 4064 ∧ ((own s).wait.map fun y => (y.team, y.obj, y.t, y.signalled)) = some (1, 4064, decide (1#1 = 1#1), true) := by
  unfold AtObject AtPlace own; decide

-- a tile of the last 128 bytes below the object's sector, two arrivals
theorem meets_BarrierSetupAndWaiting_bind :
    let vb := 3840 + 2 ^ 20 * 128 + 2 ^ 41 * (256 * 2)
    vb / 2 ^ 20 % 2 ^ 21 = 128 ∧ vb / 2 ^ 49 % 256 = 2 ∧ vb % 2 ^ 20 + 128 ≤ ((objState sound 0 0).tm 1).spad ∧ vb % 2 ^ 20 % 128 = 0 ∧
      vb / 2 ^ 41 = 256 * 2 ∧ (0 : Nat) / 2 ^ 20 % 2 ^ 21 = 0 := by decide

theorem meets_Arrivals :
    let s := objState sound 8 0
    AtObject s 1 1 4064 ∧ (s.objAt 1 4064).nv = false ∧ s.released s.me = true ∧ (0 : Int) < (2 : BitVec 13).toInt ∧
      (own s).sBad 2 = false ∧ (s.rs 2).toNat < 2 ^ 32 ∧ 0 < (s.objAt 1 4064).exparr ∧ 0 < (s.objAt 1 4064).reg := by unfold AtObject AtPlace own; decide

theorem meets_Arrivals_noWaiter : NoWaiter (objState sound 8 0) 1 4064 :=
  noWaiter_scalar 4064 _ (fun x => { x with s := [(1, 4064), (2, 8), (3, 0)] }) rfl

theorem meets_Arrivals_lane :
    let s := lone (pad laneState 0 sound.toBytes)
    let f := word 0 0 0 1
    let va := (own s).cap (f.vb.toNat % 16) + BitVec.ofNat 64 ((own s).vRaw 0 f.va.toNat).toNat + f.imm.signExtend 64
    (own s).tr = none ∧ (own s).fenced = false ∧ (own s).issueLL f = some (own s, none) ∧ lanes (acting s f) = [0] ∧
      LaneReady s f [(8, 1), (16, 1)] ∧ (own s).vBad 0 8 = false ∧ AllPerformed s ∧ (s.tm 1).isOut = false ∧
      s.spadLoc (keyTeam s.me) va.toNat 1 = some (1, 0) ∧ va.toNat % 32 = 0 ∧ s.objBroken 1 0 = false ∧ KMap.find 0 (s.tm 1).held = none ∧
      (s.objAt 1 0).nv = false ∧ (own s).wait = none := by
  unfold AllPerformed LaneReady acting own; decide

-- sixteen lanes arrive at eight objects, each two lanes at one
theorem meets_Arrivals_lanes :
    let s := slots (pad laneState 0 ((List.range 8).flatMap fun _ => sound.toBytes)) ((List.range 16).map fun l => (l, 8, BitVec.ofNat 32 (32 * (l / 2))))
    let f := word 0 1 0 1
    (own s).tr = none ∧ (own s).fenced = false ∧ (own s).issueLL f = some (own s, none) ∧ LaneReady s f [(8, 1), (16, 1), (0, 1)] ∧
      AllPerformed s ∧ (∀ l ∈ bodyLanes f (acting s f), (s.laneObj f l).1 = none) ∧ (bodyLanes f (acting s f)).length = 16 := by
  unfold AllPerformed LaneReady acting own; decide +kernel

/-! ### Tokens, `try`, tasks, traps, registers -/

/-- The runner's cluster. -/
def mine : Nat := 0x40_0001

/-- The runner with `n` token entries placed at the table's start, the first named by `s1`, a host function's holder id in `s2`. -/
def tokenState (es : List TokEntry) : State :=
  let s := regs scalarState [(2, 0x800001)]
  { s with tokn := BitVec.ofNat 25 es.length, mem := putBytes s.mem 0 (es.flatMap fun e => bytesOfNat 16 e.toNat) }

/-- An entry that the runner's cluster holds. -/
def held (state : Nat) : TokEntry := { gen := 0xFFFF, holder := mine, log2 := 24, state }

theorem meets_TokenInstructions_owned :
    TableSound (tokenState [held 1]) ∧ OwnsToken (tokenState [held 1]) 1 0 ∧ (tokenState [held 1]).targetOk ((tokenState [held 1]).rs 2) false = true ∧
      ((tokenState [held 1]).tok 0).state = 1 := by unfold TableSound OwnsToken NamesToken own; decide

/-- The runner's team with share slots, named by `s2`. -/
def shareState (e : TokEntry) (slots : List Nat) : State :=
  onTeam (regs (tokenState [e]) [(2, 1)]) fun t => { t with shares := slots }

-- shares lent to the runner's own team: all lent already, its slots full, a slot free
theorem meets_TokenInstructions_shares :
    let all := shareState { held 2 with shares := 2, lentsh := 2 } []
    let full := shareState { held 2 with shares := 2 } [9, 9, 9, 9, 9, 9, 9, 9]
    let free := shareState { held 2 with shares := 2, lentsh := 1 } [9, 9, 9, 9, 9, 9, 9]
    OwnsToken all 1 0 ∧ (all.tok 0).state = 2 ∧ (all.tok 0).lentsh = (all.tok 0).shares ∧ (all.rs 2).toNat < 0x800000 ∧ (all.rs 2).toNat % 2 ^ 19 ≠ 0 ∧
      all.holderLive (all.rs 2).toNat = true ∧ OwnsToken full 1 0 ∧ (full.tok 0).lentsh < (full.tok 0).shares ∧ 8 ≤ (full.tm 1).shares.length ∧
      OwnsToken free 1 0 ∧ (free.tok 0).lentsh < (free.tok 0).shares ∧ (free.tm 1).shares.length < 8 ∧ isClusterId (free.rs 2).toNat = false := by
  unfold OwnsToken NamesToken own; decide

-- a share returned from those not lent, and from a slot
theorem meets_TokenInstructions_returns :
    let own' := shareState { held 2 with shares := 2, lentsh := 1 } []
    let slot := shareState { held 2 with holder := 0x800001, shares := 1, lentsh := 1 } [0]
    OwnsToken own' 1 0 ∧ own'.slotHolder 0 = none ∧ (own'.tok 0).lentsh < (own'.tok 0).shares ∧ NamesToken slot 1 0 ∧ (slot.tok 0).state = 2 ∧
      0 < (slot.tok 0).shares ∧ slot.slotHolder 0 = some 1 ∧ slot.transferReady 1 0 = true := by
  unfold OwnsToken NamesToken own; decide

theorem meets_TokenInstructions_lent :
    let s := regs (tokenState [{ held 3 with lender := 0x800002 }]) [(3, 511)]
    TableSound s ∧ OwnsToken s 1 0 ∧ (s.tok 0).state = 3 ∧ (s.rs 2).toNat ≠ (s.tok 0).lender ∧ 1 ≤ (s.rs 3).toNat ∧ (s.rs 3).toNat ≤ 511 ∧
      s.targetOk (s.rs 2) false = true := by unfold TableSound OwnsToken NamesToken own; decide

theorem meets_TokenInstructions_stranded :
    let s := on (tokenState [{ held 4 with holder := 0, suspect := 1 }]) fun x => { x with kernel := true }
    let s := { s with parts := [(0, { s.partAt 0 with ptokcount := 1 })] }
    TableSound s ∧ (own s).kernel = true ∧ NamesToken s 1 0 ∧
      s.transferReady (s.tok 0).holder 0 = true ∧ s.tokRaw 0 = s.tok 0 ∧ s.bad (s.tokAddr 0) = false ∧ (s.tok 0).log2 ≤ 24 ∧ (s.tok 0).lentsh ≤ (s.tok 0).shares ∧
      (s.tok 0).state = 4 ∧ s.targetOk (s.rs 2) true = true ∧ (s.partAt (s.gPart s.me)).ownsTok 0 = true := by unfold TableSound NamesToken own; decide

theorem meets_TokenInstructions_split :
    let s := tokenState [{ held 1 with log2 := 1, base := 6 }, { base := 7 }]
    TableSound s ∧ OwnsToken s 1 0 ∧ ((s.tok 0).state = 1 ∨ (s.tok 0).state = 3) ∧ 0 < (s.tok 0).log2 ∧ s.tokExists 1 = true ∧ (s.tok 1).state = 0 ∧ (s.tok 0).base % 2 ^ (s.tok 0).log2 = 0 ∧
      (s.tok 1).base = (s.tok 0).base + 1 := by unfold TableSound OwnsToken NamesToken own; decide

theorem meets_TokenInstructions_join :
    let s := tokenState [{ held 1 with log2 := 0, base := 6 }, { held 1 with log2 := 0, base := 7 }]
    TableSound s ∧ OwnsToken s 1 0 ∧ 0 % 2 ^ ((s.tok 0).log2 + 1) = 0 ∧ (s.tok 0).state = 1 ∧ (s.tok 0).log2 < 24 ∧ s.tokExists 1 = true ∧
      (s.tok 1).state = 1 ∧ (s.tok 1).log2 = (s.tok 0).log2 ∧ (s.tok 1).space = (s.tok 0).space ∧ (s.tok 1).holder = (s.tok 0).holder ∧
      s.transferReady (s.tok 0).holder 0 = true ∧ s.transferReady (s.tok 0).holder 1 = true ∧ (s.tok 0).base % 2 = 0 ∧ (s.tok 1).base = (s.tok 0).base + 1 := by
  unfold TableSound OwnsToken NamesToken own; decide

-- the upper of two lent buddies named
theorem meets_TokenInstructions_join_upper :
    let s := regs (tokenState [{ held 3 with log2 := 0, base := 6, lender := 5 }, { held 3 with log2 := 0, base := 7, lender := 5 }]) [(1, 1)]
    OwnsToken s 1 1 ∧ 0 % 2 ^ ((s.tok 1).log2 + 1) = 0 ∧ (1 : Nat) = 0 + 2 ^ (s.tok 1).log2 ∧ s.tokExists 0 = true ∧ (s.tok 1).state = 3 ∧
      (s.tok 0).lender = (s.tok 1).lender ∧ (s.tok 0).state = (s.tok 1).state ∧ s.transferReady (s.tok 1).holder 0 = true := by
  unfold OwnsToken NamesToken own; decide

-- an address that the runner's page maps, which a token covers or none
theorem meets_TokenInstructions_query :
    let s := regs scalarState [(1, 0xFFFF)]
    (own s).inTry = false ∧ (s.rs 1).toNat < 2 ^ 52 ∧
      (match s.leafFor (s.whoIs s.me (own s).kernel) (s.rs 1).toNat with
       | some l => permits l .read (own s).kernel && decide (l.dev = s.links.devnum.toNat)
       | none => false) = true ∧ NamesToken (tokenState [held 6]) 1 0 := by unfold NamesToken own; decide

theorem meets_Speculation :
    let s := on scalarState fun x => { x with tr := some { tryOf x with depth := 254 } }
    let t := on scalarState fun x => { x with tr := some (tryOf x) }
    keyGrp scalarState.me ≠ 64 ∧ (own scalarState).tr = none ∧ (own scalarState).queue = [] ∧ (own scalarState).run = none ∧
      (own scalarState).awaits false = false ∧ (own s).tr.isSome ∧ ((own s).tr.map (·.depth)) = some 254 ∧ (own t).tr.isSome ∧
      (∀ y, (own t).tr = some y → y.depth = 1 ∧ ∀ o ∈ y.buffer, o.spad = false ∧ o.accs ≠ []) := by
  refine ⟨by decide, rfl, rfl, rfl, by decide, rfl, rfl, rfl, ?_⟩
  intro y h
  have : y = tryOf (scalarState.grp 128) := (Option.some.inj h).symm
  subst this
  decide

theorem meets_FencesTasksAndEnds_fences :
    let s := onCore0 scalarState fun c => { c with ladle := [(3, [.join 7])] }
    scalarState.released scalarState.me = true ∧ (own scalarState).awaits false = false ∧ (own s).inTry = false ∧ keyGrp s.me ≠ 64 ∧ s.joins = [] ∧
      (0x8 : BitVec 4).getLsbD 3 = true ∧ KMap.read [] 3 (s.coreAt (s.gCore s.me)).ladle = .join 7 :: [] ∧ LadleOp.join 7 ≠ .join s.nextJoin := by
  unfold own; decide

/-- The runner's partition with two task entries, the first armed with a count. -/
def taskState (count : Nat) : State :=
  let s := regs scalarState [(2, 65535), (3, 0x380)]
  { s with parts := [(0, { ptaskn := 2, tasks := [(0, { count, state := .armed })] })] }

theorem meets_FencesTasksAndEnds_signal :
    let s := taskState 2
    (own s).inTry = false ∧ s.released s.me = true ∧ (0 : Int) < (1 : BitVec 13).toInt ∧ (s.taskAt (s.gPart s.me) (s.rs 1).toNat).state = .armed ∧
      (s.rs 1).toNat < (s.partAt (s.gPart s.me)).ptaskn.toNat ∧ (1 : BitVec 13).toNat < (s.taskAt (s.gPart s.me) (s.rs 1).toNat).count ∧
      (own s).sBad 1 = false := by unfold own; decide

theorem meets_FencesTasksAndEnds_launch :
    let s := taskState 2
    let full := { s with parts := [(0, { ptaskn := 1, tasks := [(0, { count := 2, state := .armed })] })] }
    (s.rs 3).toNat % 128 = 0 ∧ 0 < (s.rs 2).toNat ∧ (s.rs 2).toNat ≤ 65535 ∧
      s.rangeBusy (s.whoIs s.me (own s).kernel) (s.rs 3).toNat 128 .read = false ∧
      (s.readOwn s.me (s.whoIs s.me (own s).kernel) (s.rs 3).toNat 128).toOption.isSome ∧ s.failed = false ∧
      (1 : Nat) < (s.partAt (s.gPart s.me)).ptaskn.toNat ∧ KMap.find 1 (s.partAt (s.gPart s.me)).tasks = none ∧ (∀ h, h < 1 → (KMap.find h (s.partAt (s.gPart s.me)).tasks).isSome) ∧
      (∀ j, j < (full.partAt (full.gPart full.me)).ptaskn.toNat → (KMap.find j (full.partAt (full.gPart full.me)).tasks).isSome) := by
  unfold own; decide

/-- The runner about to kick its own cluster's anchor, sharing a token with one share free. -/
def kickState : State :=
  regs (pad (tokenState [{ held 2 with shares := 1 }]) 64 (List.replicate 32 0)) [(1, 64), (2, 0x400001)]

theorem meets_FencesTasksAndEnds_kick :
    let s := kickState
    let id := natOfBytes ((((s.tm 1).bytesAt 64 32).drop 0x18).take 3)
    (own s).inTry = false ∧ (s.rs 1).toNat % 32 = 0 ∧ s.spadLoc (keyTeam s.me) (s.rs 1).toNat 32 = some (1, 64) ∧
      s.kickTarget (s.gPart s.me) (s.rs 2) = some 1 ∧ (s.tm 1).badAt 64 = false ∧ s.released s.me = true ∧ s.tokExists id = true ∧
      (s.tok id).state = 2 ∧ (s.tok id).holder = s.gCluster s.me ∧ (s.tok id).lentsh < (s.tok id).shares ∧
      (s.cl (s.tm 1).cluster).res = .resident ∧ (s.tm 1).core = some 0 ∧ (s.coreAt 0).kick = none ∧ TableSound s := by unfold TableSound own; decide

-- the target switched out, and its kick register taken
theorem meets_FencesTasksAndEnds_kick_refused :
    let out := { kickState with clusters := [(mine, { kickState.cl mine with res := .evicted })] }
    let full := onCore0 kickState fun c => { c with kick := some { bytes := [], sender := mine, senderTeam := 1, addr := 0 } }
    out.kickTarget (out.gPart out.me) (out.rs 2) = some 1 ∧ (out.cl (out.tm 1).cluster).res ≠ .resident ∧
      full.kickTarget (full.gPart full.me) (full.rs 2) = some 1 ∧ (full.cl (full.tm 1).cluster).res = .resident ∧ (full.coreAt 0).kick.isSome := by
  decide

theorem meets_FencesTasksAndEnds_ends :
    let s := { scalarState with groups := KMap.put 129 { team := 1, grp := 1 } scalarState.groups }
    keyGrp s.me ≠ 64 ∧ (own s).queue = [] ∧ (own s).run = none ∧ (own s).awaits false = false ∧ (own s).inTry = false ∧
      (KMap.find s.me s.groups).isSome ∧ 129 ≠ s.me ∧ keyTeam 129 = keyTeam s.me ∧ keyGrp 129 < 64 ∧ (KMap.find 129 s.groups).isSome ∧
      (own (on s fun x => { x with kernel := true })).kernel = true ∧ s.released s.me = true ∧ (own s).reducing = false := by unfold own; decide

/-- The sequencer stream of the runner's cluster. -/
def seqState : State :=
  let s := State.reset.withFetchWord 32 0x54
  { s with caps := { s.caps with mirframes := 0 } }

theorem meets_FencesTasksAndEnds_ends_sequencer :
    keyGrp seqState.me = 64 ∧ seqState.pressIdle (seqState.gCluster seqState.me) = true ∧ (own seqState).awaits false = false ∧ (own seqState).inTry = false := by
  unfold own; decide

theorem meets_TrapsAndReturns :
    UserMode scalarState ∧ UserMode seqState ∧ keyGrp seqState.me = 64 ∧ (own (on scalarState fun x => { x with kernel := true })).kernel = true ∧
      (own (on scalarState fun x => { x with kernel := true })).inTry = false := by unfold UserMode own; decide

theorem meets_TrapsAndReturns_return :
    let s := on (clauseState 0xFFFF [] 0x10C) fun x => { x with kernel := true, bank := { xcause := 0x101, xlpc := 0x118, xpc := 0x200 } }
    let t := on scalarState fun x => { x with kernel := true, bank := { xcause := 0x0F } }
    (own t).kernel = true ∧ (own t).handling = none ∧ (own t).bank.xlog.getLsbD 4 = false ∧ (own t).bank.xcause.getLsbD 8 = false ∧
      (own s).kernel = true ∧ (own s).handling = none ∧ (own s).bank.xcause.getLsbD 8 = true ∧ (own s).bank.xcause.getLsbD 9 = false ∧
      (own s).retired = false ∧ (own s).path.isSome ∧ ((own s).curClause.map fun c => (c.1, c.2.count)) = some (0xF4, 2) ∧
      (own s).bank.xlpc = (0xF4 : Word) + BitVec.ofNat 64 (12 * 3) := by unfold own; decide

theorem meets_ControlRegisters :
    keyGrp scalarState.me ≠ 64 ∧ (own (on scalarState fun x => { x with kernel := true })).kernel = true ∧ (own scalarState).inTry = false ∧
      (own scalarState).sBad 1 = false ∧ UserMode scalarState ∧ (0x003#12).toNat = 0x003 ∧ 0x420 ≤ (0xFFF#12).toNat ∧
      (0x100 ≤ (0x106#12).toNat ∧ (0x106#12).toNat ≤ 0x106) ∧ (5 : Word) ≠ (own scalarState).gtcmp := by unfold UserMode own; decide

/-! ### Near-bank units -/

/-- The microprogram of 10 R262, whose eight words the spec writes out. -/
def saxpy : List (BitVec 32) :=
  [0x10000003, 0x20000000, 0x22000001, 0x62021003, 0x30400001, 0xC0000000, 0xB0000000, 0xD0000000]

/-- The runner with that program at 0x400 and seven slots of the unit of 0x800 taken. -/
def loadProgram : State :=
  let s := regs (place (homes scalarState) 0x400 (saxpy.flatMap fun w => bytesOfNat 4 w.toNat)) [(1, 0x400), (2, 0x800)]
  { s with rennets := [(s.homeOf (at_ s 0x800 .read).pa, { slots := (List.range 7).map fun i => (i, { words := [], team := 9 }) })] }

theorem meets_NearBankRuns_load :
    let s := loadProgram
    let y := at_ s 0x800 .read
    (own s).inTry = false ∧ (s.rs 1).toNat % 4 = 0 ∧ s.rangeBusy (s.whoIs s.me (own s).kernel) (s.rs 1).toNat (4 * (7 + 1)) .read = false ∧
      (match s.readConsumed s.me (s.whoIs s.me (own s).kernel) (s.rs 1).toNat (4 * (7 + 1)) with
       | .ok (bs, false) => decide (microWords bs = saxpy)
       | _ => false) = true ∧
      firstOffence saxpy = none ∧ uncounted s ∧ s.xlate (s.whoIs s.me (own s).kernel) (s.rs 2).toNat .read = .ok y ∧ y.remote = false ∧ y.leaf.host = false ∧
      KMap.find 7 (s.unitAt (s.homeOf y.pa)).slots = none ∧ (∀ j, j < 7 → (KMap.find j (s.unitAt (s.homeOf y.pa)).slots).isSome) := by
  unfold uncounted own; decide

/-- The runner with that program loaded in unit 0 and a descriptor of the most rows at 0x840. -/
def runProgram : State :=
  let bs := bytesOfNat 8 0x1000 ++ bytesOfNat 8 0x2000 ++ bytesOfNat 16 0 ++ bytesOfNat 16 0 ++ bytesOfNat 4 65536 ++ bytesOfNat 4 65535 ++ bytesOfNat 8 2
  let s := regs (place (homes (memSide scalarState)) 0x840 bs) [(1, 0), (2, 0x840), (3, 5)]
  let ended : NbRun := { seq := 5, team := 1, prog := [], streams := [], strides := [], count := 1, start := 0, wmask := 0, state := 3 }
  { s with rennets := [(0, { slots := [(0, { words := saxpy, team := 1 })], done := [ended] })] }

theorem meets_NearBankRuns_run :
    let s := runProgram
    let who := s.whoIs s.me (own s).kernel
    s.slotOf (s.rs 1) = some (0, { words := saxpy, team := 1 }) ∧ (s.rs 2).toNat % 64 = 0 ∧
      s.rangeBusy who (s.rs 2).toNat 64 .read = false ∧
      (match s.readConsumed s.me who (s.rs 2).toNat 64 with
       | .ok (bs, false) => decide (s.runBad who (runDesc bs) saxpy (s.rs 2) = none)
       | _ => false) = true ∧
      (s.unitAt 0).queue.length < 8 ∧ s.released s.me = true ∧ s.runOf (s.rs 1) = none ∧ (s.runOf (s.rs 3)).isSome ∧
      ((s.runOf (s.rs 3)).map (·.state)) = some 3 := by unfold own; decide +kernel

/-- A run that waits at the head of unit 0, in a state. -/
def queuedRun (state : Nat) : NbRun :=
  { seq := 0, team := 1, prog := [0xE0000000], streams := [], strides := [], count := 1, start := 0, wmask := 0, state }

theorem meets_NearBankRuns_events :
    let s := fun n => { scalarState with rennets := [(0, { queue := [queuedRun n] })] }
    ((s 0).unitAt 0).queue = [queuedRun 0] ∧ (queuedRun 0).state = 0 ∧ (queuedRun 0).after = [] ∧ ((s 2).unitAt 0).queue = [queuedRun 2] ∧
      (queuedRun 2).state = 2 ∧ (s 2).windowOver 0 = true := by decide

-- a stream stalled at its unit, its operation still to be served in the window
theorem meets_NearBankRuns_window :
    let s := { on scalarState (fun x => { x with stall := 15 }) with
      rennets := [(0, { queue := [queuedRun 2], waiting := [{ g := 128, pa := 0x20_0000 * runnerFrame, n := 32 }] })] }
    (s.unitAt 0).queue = [queuedRun 2] ∧ s.windowOver 0 = false := by decide

/-- The run of the runner's unit. -/
def theRun : NbRun := ((microState.unitAt 0).queue.head?).getD
  { seq := 0, team := 0, prog := [], streams := [], strides := [], count := 0, start := 0, wmask := 0 }

theorem meets_MicroArithmetic : Runs microState theRun [] ∧ (4#4 = 0#4 ∨ 4#4 = 1#4 ∨ 4#4 = 4#4 ∨ 4#4 = 6#4) := by unfold Runs; decide

/-- The unit's run with its team alive. -/
def liveRun (s : State) : State := { homes s with groups := scalarState.groups }

/-- The runner's run with rows in a frame of another unit. -/
def farRun : NbRun := { theRun with streams := [(0, (0, 0x20_0000 * (runnerFrame + 1)))] }

theorem meets_MicroMemoryAndControl :
    let s := liveRun microState
    let pa := (KMap.read ((0 : Word), 0) 3 theRun.streams).2 + 32 * 7
    Runs s theRun [] ∧ s.joins = [] ∧ s.homeOf pa = s.myUnit ∧ s.bad pa = false ∧ pa % 32 = 0 ∧ theRun.accBad 7 = false ∧
      s.mirrored (pa / 0x20_0000) = false ∧ (s.unitAt s.myUnit).waiting = [] ∧ s.turner.bounds = [] ∧ s.inRepair (s.locate pa) = false ∧
      s.othersWait s.myUnit = false ∧ theRun.loopNext = false ∧ s.turner.lost = [] ∧ (s.teamGroups theRun.team).isEmpty = false := by unfold Runs; decide

-- the row under repair; another operation waiting at the unit
theorem meets_MicroMemoryAndControl_waits :
    let pa := (KMap.read ((0 : Word), 0) 3 theRun.streams).2
    let s := repairing (homes microState) pa
    let w := { homes microState with rennets := [(0, { queue := [theRun], waiting := [{ g := 128, pa, n := 1 }] })] }
    Runs s theRun [] ∧ s.homeOf pa = s.myUnit ∧ s.inRepair (s.locate pa) = true ∧ Runs w theRun [] ∧ (w.unitAt w.myUnit).waiting ≠ [] ∧
      theRun.loopNext = false := by unfold Runs; decide

theorem meets_MicroMemoryAndControl_far :
    let s := { liveRun microState with rennets := [(0, { queue := [farRun] })] }
    Runs s farRun [] ∧ s.joins = [] ∧ (s.teamGroups farRun.team).isEmpty = false ∧ s.homeOf ((KMap.read ((0 : Word), 0) 0 farRun.streams).2) ≠ s.myUnit := by unfold Runs; decide

/-! ### The Press -/

/-- A format block: signed bytes times signed bytes, 32-bit integers out (12 R297, R298). -/
def byteFormat : List Byte :=
  bytesOfNat 16 11 ++ bytesOfNat 16 11 ++ bytesOfNat 32 1

/-- The sequencer's cluster with moulds A and B of K = 4 at offsets 0 and 32, a drain mould at 64 and a format block at 128. -/
def pressState : State :=
  let s := { seqState with groups := KMap.put 192 { (seqState.grp 192) with s := [(1, 0x400000000), (2, 32), (3, 128), (4, 64), (5, 3), (6, 0x3FFF0)] } seqState.groups }
  onTeam s fun t => { t with
    spad := 0x20000
    mem := putBytes t.mem 0 ((mouldOf 0x1000 512).toBytes ++ (mouldOf 0x2000 512).toBytes ++ (mouldOf 0x4000 65536).toBytes ++ List.replicate 32 0 ++ byteFormat) }

theorem meets_PressIssue :
    let s := pressState
    let fa := s.fmtBlock ((s.rs 3).toNat % 2 ^ 20)
    keyGrp s.me = 64 ∧ (s.rs 1).toNat / 2 ^ 20 % 2 ^ 12 = 0 ∧ (s.rs 1).toNat / 2 ^ 32 = 4 ∧ Descriptor s (BitVec.ofNat 64 ((s.rs 1).toNat % 2 ^ 32)) 32 1 ∧
      Descriptor s (s.rs 2) 32 1 ∧ Descriptor s (s.rs 3) 64 64 ∧ s.mmaBad 7 true (s.rs 1) ((s.rs 1).toNat % 2 ^ 20) (s.rs 2).toNat (s.rs 3).toNat fa.1 fa.2 = none := by
  unfold Descriptor; decide +kernel

theorem meets_PressIssue_room :
    let s := pressState
    s.myMembers = [1] ∧ (s.tm 1).core = some 0 ∧ (s.pressOf 1).pending < 16 := by decide +kernel

theorem meets_PressIssue_others :
    let s := pressState
    let fa := s.fmtBlock ((s.rs 3).toNat % 2 ^ 20)
    Descriptor s (s.rs 4) 32 1 ∧ s.mdrainBad 7 (s.rs 4).toNat (s.rs 3).toNat fa.1 fa.2 = none ∧ (s.rs 5).toNat < 4 ∧ (s.rs 6).toNat < 2 ^ 18 ∧
      (s.rs 6).toNat % 16 < s.myMembers.length ∧ (s.rs 2).toNat < 2 ^ 32 ∧ (s.rs 0).toNat < 16 ∧ s.myMembers[(s.rs 0).toNat]? = some 1 ∧
      (s.tm 1).core.isSome ∧ s.pressIdle (s.gCluster s.me) = true ∧ (0 : BitVec 4) ≠ 7#4 := by unfold Descriptor; decide +kernel

/-- The runner's core with one Press operation queued and its moulds as in `pressState`, in a phase. -/
def pressAt (op : PressOp) (phase : BitVec 32) : State :=
  onCore0 (onTeam pressState fun t => { t with mem := putBytes t.mem 0 (
      ({ mouldOf 0x1000 512 with phase } : Obj).toBytes ++ ({ mouldOf 0x2000 512 with phase } : Obj).toBytes ++ ({ mouldOf 0x4000 65536 with phase } : Obj).toBytes) })
    fun c => { c with press := { c.press with queue := [op], z := [(7, { mode := 2 })] } }

def mouldA : Mould := { obj := 0, tbase := 0x1000, tsize := 512, z := 0 }
def mouldB : Mould := { obj := 32, tbase := 0x2000, tsize := 512, z := 0 }
def mouldD : Mould := { obj := 64, tbase := 0x4000, tsize := 65536, z := 0 }

theorem meets_PressMultiply :
    let op : Bool → PressOp := fun b => .mma 7 true false false false mouldA mouldB 4 byteFormat (b, false)
    let s := fun b => pressAt (op b) 1
    PressHead (s false) 0 1 (op false) [] ∧ (s false).objBroken 1 0 = false ∧ (s false).objBroken 1 32 = false ∧
      ((s false).objAt 1 0).phase.getLsbD 0 = true ∧ ((s false).objAt 1 32).phase.getLsbD 0 = true ∧ (opFmtAt byteFormat 0).fmt = 11 ∧
      (opFmtAt byteFormat 0x10).fmt = 11 ∧ (opFmtAt byteFormat 0).blk = 0 ∧ (opFmtAt byteFormat 0x10).blk = 0 ∧ ((s false).pressOf 1).force = false ∧
      ((s false).pressOf 1).anyGated = false ∧ ((s false).tm 1).poison = [] := by unfold PressHead; decide +kernel

theorem meets_PressMultiply_poisoned :
    let op : PressOp := .mma 7 true false false false mouldA mouldB 4 byteFormat (true, false)
    let s := pressAt op 1
    PressHead s 0 1 op [] ∧ (s.objAt 1 0).phase.getLsbD 0 = true ∧ (s.objAt 1 32).phase.getLsbD 0 = true ∧ s.objBroken 1 0 = false ∧
      s.objBroken 1 32 = false := by unfold PressHead; decide +kernel

theorem meets_PressWork_drain :
    let op : PressOp := .mdrain 7 true mouldD byteFormat (false, false)
    let s := pressAt op 2
    PressHead s 0 1 op [] ∧ s.objBroken 1 64 = false ∧ (s.objAt 1 64).phase.getLsbD 0 = false ∧ (outFmtOf byteFormat).fmt = 1 ∧
      (KMap.read ({} : Acc) 7 (s.pressOf 1).z).mode = 2 ∧ mouldD.z = 0 ∧ mouldD.obj + 32 ≤ mouldD.tbase := by unfold PressHead; decide +kernel

theorem meets_PressWork_checks :
    PressHead (pressAt (.mzero 7) 0) 0 1 (.mzero 7) [] ∧ PressHead (pressAt (.mcheckMode true false) 0) 0 1 (.mcheckMode true false) [] ∧
      PressHead (pressAt (.mcheckInject true 3 31 127 9) 0) 0 1 (.mcheckInject true 3 31 127 9) [] := by unfold PressHead; decide +kernel

/-- A release still refused on the mould at 0, whose observers are owed or not. -/
def retryState (obs : Nat) : State :=
  onCore0 (onTeam pressState fun t => { t with mem := putBytes t.mem 0 ({ mouldOf 0x1000 512 with reg := 1, obs } : Obj).toBytes })
    fun c => { c with press := { c.press with retry := [0], sub := [(3, { waking := true, idle := 16384 })] } }

theorem meets_PressWork_release :
    let s := retryState 0
    (s.coreAt 0).team = some 1 ∧ (s.tm 1).core = some 0 ∧ (s.pressOf 1).retry = [0] ∧ (s.tm 1).isOut = false ∧ KMap.find 0 (s.tm 1).held = none ∧
      s.objBroken 1 0 = false ∧ (s.objAt 1 0).nv = false ∧ (arrived (s.objAt 1 0) 1 0).1 = 2 ∧ (arrived ((retryState 1).objAt 1 0) 1 0).1 ≠ 2 := by
  decide +kernel

theorem meets_PressWork_release_noWaiter (n : Nat) : NoWaiter (retryState n) 1 0 := by
  intro g x hx p
  have e : (retryState n).groups = [(192, (retryState n).grp 192)] := rfl
  rw [e] at hx
  simp only [List.mem_singleton, Prod.mk.injEq] at hx
  obtain ⟨rfl, rfl⟩ := hx
  rfl

theorem meets_PressWork_power :
    let w := KMap.read ({} : SubArray) 3 ((retryState 0).coreAt 0).press.sub
    w.gated = false ∧ ((retryState 0).coreAt 0).team.isSome ∧ ((retryState 0).coreAt 0).pressgate ≠ 0 ∧ ((retryState 0).coreAt 0).pressgate.toNat ≤ w.idle ∧
      w.waking = true ∧ ((onCore0 (retryState 0) fun c => { c with pressgate := 0 }).coreAt 0).pressgate = 0 := by decide +kernel

-- the same states meet what lets Press instructions leave their queues; and one whose moulds are broken
theorem meets_PressWork_goes :
    let op : PressOp := .mma 7 true true true false mouldA mouldB 4 byteFormat (false, false)
    let b := onTeam (pressAt op 0) fun t => { t with mem := putBytes t.mem 0 (List.replicate 64 0xFF) }
    (b.coreAt 0).team = some 1 ∧ (b.tm 1).core = some 0 ∧ (b.cl (b.tm 1).cluster).res = .resident ∧ (b.pressOf 1).retry = [] ∧
      (b.pressOf 1).queue = op :: [] ∧ b.objBroken 1 0 = true ∧ b.objBroken 1 32 = true ∧ (b.pressOf 1).anyGated = false ∧
      ((retryState 1).objAt 1 0).reg ≤ ((retryState 1).objAt 1 0).obs := by decide +kernel

/-! ### Events of streams -/

theorem meets_StreamProgressEvents_clause :
    let h : ClauseHeader := { setA := none, setB := none, count := 1, wait := 0x008, yieldHint := false }
    let x := own (on scalarState fun x => { x with queue := [{ addr := 0x300, caps := [], hdr := h }] })
    x.queue = [{ addr := 0x300, caps := [], hdr := h }] ∧ x.run = none ∧ x.laneStopped = false ∧ x.halted = false ∧ x.out = false ∧
      (∀ f, f < 12 → h.wait.getLsbD f → x.started f = 0) ∧ scalarState.halting 128 = false ∧
      (onTeam scalarState fun t => { t with res := .stopping }).halting 128 = true := by unfold own; decide

theorem meets_StreamProgressEvents_completion :
    let p : LLPending := { slot := 0x100, flag := some 3, dst := some (5, 9) }
    let o : MemOp := { kind := .load, lane := true, slot := 0x100, size := 4, accs := [], flag := some 3 }
    let x := own (on scalarState fun x => { x with pending := [p], oplog := [(15, o)] })
    x.pending[0]? = some p ∧ KMap.find 15 x.oplog = some o ∧ o.kind ≠ .fence ∧ o.copy = none ∧ o.accs = [] ∧ (∀ q ∈ x.storeq, q.log ≠ some 15) ∧
      (∀ q ∈ x.faults, q.log ≠ some 15) := by unfold own; decide

/-- Sixteen entries of the operand log taken, or fewer. -/
def fullLog (n : Nat) : State :=
  let o : MemOp := { kind := .store, lane := false, slot := 0, size := 4, accs := [] }
  on scalarState fun x => { x with stall := 9, lstall := 14, oplog := (List.range n).map fun i => (i, o) }

theorem meets_StreamProgressEvents_release :
    (KMap.find 128 (fullLog 16).groups).isSome ∧ (own (fullLog 16)).stall = 9 ∧ (own (fullLog 16)).lstall = 14 ∧ (own (fullLog 16)).freeLog = none ∧
      (own (fullLog 15)).freeLog = some 15 := by unfold own; decide

/-- The runner waiting with `waitph` on the object at its scratchpad's start, signalled with phase 3. -/
def wakeState : State :=
  let s := State.reset.withFetchWord 32 0x0018C227
  pad (on { s with caps := { s.caps with mirframes := 0 } } fun x => { x with
    wait := some { team := 1, obj := 0, t := true, registered := true, signalled := true, phase := 3 } }) 0 sound.toBytes

theorem meets_StreamProgressEvents_wake :
    wakeState.fetchScalar 128 = .instr (.waitph 1 1 6 4) ∧ AtObject { wakeState with cur := .scalar 128 } 6 1 0 ∧ (wakeState.grp 128).halted = false ∧
      (wakeState.grp 128).out = false ∧ ((wakeState.grp 128).wait.map fun w => (w.signalled, w.team, w.obj, w.t)) = some (true, 1, 0, decide (1#1 = 1#1)) := by
  unfold AtObject AtPlace own; decide

-- a lane fence whose conditions hold, answers of another device, and a copy that has been counted
theorem meets_StreamProgressEvents_entries :
    let f : MemOp := { kind := .fence, lane := true, slot := 0x100, size := 0, op := 3, scope := 4, flag := some 11, accs := [{ lane := 16, va := 0 }] }
    let r : MemOp := { kind := .load, lane := true, slot := 0x100, size := 4, accs := [{ lane := 0, va := 0x300, sent := true }] }
    let c : CopyInfo := { id := 7, queue := 0, l := 0, ru := none, pieces := [] }
    let k : MemOp := { kind := .copyIn, lane := true, slot := 0x100, size := 16, accs := [], copy := some c }
    let x := fun o => own (on scalarState fun x => { x with oplog := [(15, o)] })
    KMap.find 15 (x f).oplog = some f ∧ f.kind = .fence ∧ (on scalarState fun x => { x with oplog := [(15, f)] }).fenceOk 128 f.op = true ∧
      KMap.rising (x r).oplog = true ∧ KMap.find 15 (x r).oplog = some r ∧ r.kind ≠ .fence ∧ r.waitsRemote = true ∧
      ((x k).oplog.find? fun e => match e.2.copy with | some c' => c'.id = c.id | none => false) = some (15, k) ∧ k.copy = some c ∧ k.kind ≠ .fence ∧
      k.accs = [] ∧ (x k).faults = [] ∧ (∀ e ∈ scalarState.cores, e.2.copyBusy c.id = false) ∧ scalarState.casts = [] := by unfold own; decide

theorem meets_StreamProgressEvents_lines :
    (KMap.find 128 scalarState.groups).isSome ∧ (scalarState.gTeam 128).core = some 0 ∧ (scalarState.grp 128).out = false ∧
      (KMap.find (65536 * 128 + 263) (scalarState.coreAt 0).lines).isNone ∧ (263 : Nat) < 264 ∧
      (KMap.find (65536 * 128 + 264) (scalarState.coreAt 0).lines).isNone ∧ (1 : Nat).testBit 0 = true ∧ scalarState.hasLine 128 263 = true ∧
      scalarState.hasLine 128 264 = true ∧ (onTeam scalarState fun t => { t with vregs := 16 }).hasLine 128 16 = false := by decide

/-- An operation of the runner's log, with a fault or none. -/
def logged (kind : MemKind) (lane : Bool) (fault : Option (Cause × BitVec 16 × Word)) (accs : List LaneAcc) : MemOp :=
  { kind, lane, slot := 0x100, size := 4, accs, fault, log := some 2 }

theorem meets_StreamFaults_load :
    let o := logged .load true (some (.perm, 1, 0x300)) []
    let x := own (on scalarState fun x => { x with oplog := [(2, o)] })
    Boundary x ∧ KMap.find 2 x.oplog = some o ∧ o.fault = some (.perm, 1, 0x300) ∧ o.lane = true ∧ o.precise = true ∧ x.handling ≠ some 2 ∧
      (∀ q ∈ x.faults, q.log ≠ some 2) := by unfold Boundary Running own; decide

theorem meets_StreamFaults_store :
    let o := logged .store true (some (.perm, 1, 0x300)) []
    let x := own (on scalarState fun x => { x with faults := [o] })
    Boundary x ∧ x.dueLoadFault = none ∧ x.faults = [o] ∧ o.orig = none ∧ o.fault = some (.perm, 1, 0x300) := by unfold Boundary Running own; decide

theorem meets_StreamFaults_timer_and_timeout :
    let o := logged .load false none [{ lane := 16, va := 0x300, sent := true }]
    let x := own (on scalarState fun x => { x with timerDue := true })
    let y := own (on scalarState fun x => { x with oplog := [(2, o)] })
    Boundary x ∧ x.dueLoadFault = none ∧ x.timerDue = true ∧ x.faults = [] ∧ Running y ∧ (scalarState.gTeam 128).res ≠ .stopping ∧ y.faults = [] ∧
      KMap.find 2 y.oplog = some o ∧ o.lane = false ∧ (o.kind = .load ∨ o.kind = .atomic) ∧ o.fault = none ∧ o.reissued = false ∧
      o.accs = [{ lane := 16, va := 0x300, sent := true }] ∧ scalarState.me = 128 := by
  unfold Boundary Running own; decide

theorem meets_StreamFaults_code :
    scalarState.me = 128 ∧ laneState.me = 128 ∧ Boundary (own scalarState) ∧ Boundary (own laneState) ∧ (own laneState).path = some { mask := 0xFFFF, lpc := 0x100 } ∧
      (match laneState.fetchBytes 128 0x100 12 with | .ok (_, b) => !b | .error _ => false) = true ∧ laneState.codeFar 128 0x100 12 = false := by
  unfold Boundary Running own; decide

theorem meets_StreamFaults_try :
    let s := onTeam (on scalarState fun x => { x with tr := some (tryOf x), timerDue := true, grace := some 5 }) fun t => { t with trygrace := 5 }
    (own s).tr.isSome ∧ (own s).takesFaults = true ∧ (own s).dueLoadFault = none ∧ (own s).timerDue = true ∧ (own s).faults = [] ∧
      (own s).grace = some 5 ∧ (s.gTeam s.me).trygrace.toNat ≤ 5 := by unfold own; decide

/-- A queued store of eight bytes of the runner at a virtual address, under entry 2. -/
def queuedStore (va : Word) (fault : Option (Cause × BitVec 16 × Word) := none) : MemOp :=
  { kind := .store, lane := true, slot := 0x100, size := 8, accs := [{ lane := 0, va, data := 0x1122334455667788 }], log := some 2, fault }

theorem meets_StoresPerformed :
    let s := on scalarState fun x => { x with storeq := [queuedStore 0xFFF8] }
    let y := at_ s 0xFFF8 .write
    (own s).storeq = [queuedStore 0xFFF8] ∧ (own s).faults = [] ∧ (KMap.find 128 s.groups).isSome ∧ 8 ∣ 16 ∧ (own s).oplog = [] ∧
      s.xlate (s.whoIs 128 false) 0xFFF8 .write = .ok y ∧ y.remote = false ∧ y.leaf.host = false ∧ s.busyUnit 128 (queuedStore 0xFFF8) = none ∧ s.proxyHolds (queuedStore 0xFFF8).order = false ∧ y.pa % 8 = 0 ∧
      (queuedStore 0xFFF8).order / 2 % 2 = 0 ∧ s.beneath = [] ∧
      s.mirrored (y.pa / 0x20_0000) = false ∧ s.xlate (s.whoIs 128 false) 0x10000 .write = .error .page := by unfold own; decide

theorem meets_StoresPerformed_exited :
    let o := queuedStore 0x10000 (some (.page, 1, 0x10000))
    let s := { scalarState with residuals := [(129, { team := 1, grp := 1, storeq := [o, queuedStore 0x300] })] }
    KMap.find 129 s.residuals = some { team := 1, grp := 1, storeq := [o, queuedStore 0x300] } ∧ o.fault = some (.page, 1, 0x10000) ∧
      (s.teamGroups 1).find? (fun h => !(s.grp h).halted) = some 128 ∧ Boundary (s.grp 128) ∧ (s.grp 128).faults = [] ∧
      (s.grp 128).dueLoadFault = none ∧ (s.grp 128).freeLog = some 0 := by
  unfold Boundary Running; decide

-- a reduction of two lanes, the second where no page is
theorem meets_StoresPerformed_lanes :
    let q : MemOp := { kind := .reduce, lane := true, slot := 0x100, size := 4, log := some 2,
                       accs := [{ lane := 0, va := 0x300, data := 1 }, { lane := 15, va := 0x10000, data := 1 }] }
    let s := on scalarState fun x => { x with storeq := [q] }
    (own s).storeq = [q] ∧ (own s).faults = [] ∧ (KMap.find 128 s.groups).isSome ∧ q.log.isSome ∧ (own s).oplog = [] ∧
      s.xlate (s.whoIs 128 false) 0x300 .write = .ok (at_ s 0x300 .write) ∧ s.busyUnit 128 q = none ∧ s.proxyHolds q.order = false ∧ q.order / 2 % 2 = 0 ∧
      s.xlate (s.whoIs 128 false) 0x10000 .write = .error .page := by unfold own; decide

/-! ### Switching and placement -/

theorem meets_SpawningAndPlacing_timer :
    let s := onTeam (binState 16) fun t => { t with spawntmr := 5, bins := t.bins.map fun b => (b.1, { b.2 with age := 5 }) }
    let b : SpawnBin := { entry := 0x400, threads := List.replicate 16 [1, 2, 3, 4], age := 5 }
    KMap.find 0 (s.tm 1).bins = some b ∧ b.threads ≠ [] ∧ b.threads.length = 16 ∧ max 1 (s.tm 1).spawntmr.toNat ≤ b.age ∧ (s.tm 1).res = .resident ∧
      s.freeGroup 1 = some 1 := by decide

/-- The runner waiting on `vspawn`, its only group. -/
def deadlockState : State :=
  let s := State.reset.withFetchWord 96 (encodeLane (.vspawn (word 0 0 0 1 0 0 0 0 8))).toNat
  on s fun x => { x with lstall := 10, spawned := some (0x100, 1) }

theorem meets_SpawningAndPlacing_deadlock :
    let s := deadlockState
    128 ∈ s.teamGroups 1 ∧ (∀ h ∈ s.teamGroups 1, (s.grp h).lstall = 10 ∧ (s.grp h).laneStopped = false ∧ (h ≠ 128 → (s.grp 128).born < (s.grp h).born)) ∧
      Boundary (s.grp 128) ∧ (s.grp 128).path = some { mask := 0xFFFF, lpc := 0x100 } ∧
      s.fetchLane 128 0x100 = .instr (.vspawn (word 0 0 0 1 0 0 0 0 8)) ∧ (s.grp 128).spawned = some (0x100, 1) := by
  unfold Boundary Running; decide

theorem meets_SwitchingOut :
    let s := scalarState
    (KMap.find mine s.clusters).isSome ∧ (s.cl mine).part = 0 ∧ (s.cl mine).res = .resident ∧
      (∀ g ∈ s.clusterStreams mine, (s.grp g).inTry = false ∧ (s.grp g).inFlight false = false ∧ (s.grp g).dueLoadFault = none ∧ (s.grp g).timerDue = false ∧ (s.grp g).faults = [] ∧ (KMap.find g s.groups).isSome) ∧
      (s.clusterStreams mine).Nodup ∧ (∀ m ∈ s.coreMembers mine, ∀ e ∈ s.cores, e.2.kick = none) ∧
      KMap.rising s.clusters = true ∧ s.evictable mine = false := by decide

theorem meets_SwitchingOut_save :
    let s := { onTeam (on scalarState fun x => { x with out := true }) (fun t => { t with res := .stopping }) with
      clusters := [(mine, { members := [1], res := .stopping })] }
    (s.tm 1).res = .stopping ∧ s.saveReady 1 = true ∧ (s.tm 1).core = some 0 ∧ (s.coreAt 0).kick = none ∧ (s.tm 1).cluster = mine ∧
      (s.cl mine).res = .stopping ∧ (s.cl mine).members = [1] := by decide

/-- The runner's one group has waited one cycle too long on a phase. -/
def idleState : State :=
  onTeam (on scalarState fun x => { x with wait := some { team := 1, obj := 0, t := true, registered := false }, waited := 6, stall := 6 }) fun t => { t with evthr := 5 }

/-- A copy of the runner, queued, out of its own scratchpad. -/
def lateXfer (id : Nat) : Xfer :=
  let p : Piece := { lane := 0, va := 0, pa := 0, leaf := {}, locs := [(1, 0)], n := 16 }
  { id, g := 128, kind := .copyOut, line := none, pieces := [p], l := 64, ru := none, hint := 0, scope := 1 }

theorem meets_SwitchingOut_evict :
    let landed := fun (s : State) (m : Nat) => ((s.teamStreams m).all fun g => (s.grp g).stopped.landed) && !s.ladleUses m && s.pressDone m
    let late := onCore0 idleState fun c => { c with ladle := [(3, [.xfer (lateXfer 7)])] }
    (KMap.find mine idleState.clusters).isSome ∧ idleState.evictable mine = true ∧ (idleState.cl mine).members.Nodup ∧
      (∀ e ∈ idleState.cores, e.2.kick = none) ∧ (∀ m ∈ idleState.coreMembers mine, landed idleState m = true) ∧
      (idleState.clusterStreams mine).Nodup ∧ (∀ g ∈ idleState.clusterStreams mine, ((idleState.grp g).wait.map (·.signalled)) = some false) ∧
      late.evictable mine = true ∧ late.coreMembers mine ≠ [] ∧ (∀ m ∈ late.coreMembers mine, landed late m = false) := by decide

/-- A launch record of one cluster of one core with one group, 256 registers and 4,096 bytes of scratchpad, at PC 0x100 (14 R342). -/
def launchRecord : List Byte :=
  bytesOfNat 8 0x0011000120010001 ++ bytesOfNat 8 0x100 ++ List.replicate 32 0 ++ bytesOfNat 8 64 ++ List.replicate 72 0

/-- A device with one core, and a partition with room for one image and the task of that record. -/
def placeState : State :=
  { State.reset with
    stage := 2, now := 10000001, cores := [(0, {})]
    parts := [(0, { pctxlen := 3, tasks := [(0, { record := launchRecord, state := .ready })], relaunchq := [] })] }

theorem meets_SpawningAndPlacing_place :
    let s := placeState
    let d : Cand := { relaunch := false, idx := 0, prio := 7, since := 0 }
    let r : Rect := rectAt 1 1 false 0 0 0
    s.candidates 0 = [d] ∧ s.failed = false ∧ r.cores = [0] ∧ (s.taskAt 0 0).placeable = true ∧ (s.taskAt 0 0).placed = 0 ∧ recGrid launchRecord = 1 ∧
      recField launchRecord 6 1 = 0x11 ∧ s.findRect 0 d 1 1 = some r ∧ s.freeImages 0 1 ≠ [] ∧ recField launchRecord 2 1 ≤ 64 ∧
      s.groups = [] ∧ (s.partAt 0).pctxbase.toNat % 0x40_0000 = 0 ∧
      recField launchRecord 0x40 4 < 2 ^ 31 ∧ recField launchRecord 0x44 4 < 2 ^ 31 := by decide +kernel

-- a cluster of two by one cores
theorem meets_SpawningAndPlacing_shapes :
    let r := launchRecord.set 6 0x12
    let s := { placeState with cores := (List.range 16).map fun k => (k, {}), parts := [(0, { pctxlen := 8, tasks := [(0, { record := r, state := .ready })] })] }
    let d : Cand := { relaunch := false, idx := 0, prio := 7, since := 0 }
    let u := s.taskAt 0 0
    (s.candidates 0).head? = some d ∧ s.failed = false ∧ (s.partAt 0).relaunchq = [] ∧ u.placeable = true ∧ recField u.record 6 1 = 0x12 ∧
      (s.findRect 0 d 2 1).isSome ∧ (s.freeImages 0 2).length = 2 ∧ s.launchTokens u = .ok := by decide +kernel

theorem meets_SpawningAndPlacing_reserve :
    let s := placeState
    (s.candidates 0).head? = some { relaunch := false, idx := 0, prio := 7, since := 0 } ∧ (s.partAt 0).reserve = none ∧ (s.partAt 0).presage ≠ 0 ∧
      1000 * (s.partAt 0).presage.toNat < s.now - 0 ∧
      s.chooseReserve 0 (s.shapeOf 0 { relaunch := false, idx := 0, prio := 7, since := 0 }).1 (s.shapeOf 0 { relaunch := false, idx := 0, prio := 7, since := 0 }).2 =
        some (rectAt 1 1 false 0 0 0) ∧ (∀ j ∈ (rectAt 1 1 false 0 0 0).cores, (s.coreAt j).team = none) := by decide +kernel

/-- A pre-empted cluster of one member waiting for relaunch, and a free core. -/
def relaunchState : State :=
  { State.reset with
    stage := 2, caps := { State.reset.caps with mirframes := 0 }, cores := [(0, { heldMap := none })]
    teams := [(1, { cluster := mine, res := .preempted })], clusters := [(mine, { members := [1], res := .preempted })]
    parts := [(0, { pctxlen := 3, relaunchq := [mine] })] }

theorem meets_SpawningAndPlacing_relaunch :
    let s := relaunchState
    let d : Cand := { relaunch := true, idx := mine, prio := 0, since := 0 }
    (s.candidates 0).head? = some d ∧ (s.cl mine).part = 0 ∧ s.failed = false ∧ (s.partAt 0).relaunchq.contains mine = true ∧
      (s.cl mine).res = .preempted ∧ (s.cl mine).members = [1] ∧ (s.tm 1).isOut = true ∧ (s.tm 1).held = [] ∧ (s.tm 1).broken = false ∧
      s.imageLost 1 (fun g => (KMap.find (streamKey 1 g) s.groups).isSome) = false ∧ s.storesDrained mine = true ∧ s.turner.lost = [] ∧
      (s.partAt (s.tm 1).part).pctxbase.toNat % 0x40_0000 = 0 ∧ s.findRect 0 d (s.cl mine).w (s.cl mine).h = some (rectAt 1 1 false 0 0 0) := by decide +kernel

theorem meets_SpawningAndPlacing_cores :
    let s := { State.reset with cores := [(0, { heldMap := some (true, 3) })] }
    (s.coreAt 0).heldMap = some (true, 3) ∧ (s.coreAt 0).team = none ∧ (KMap.find 0 s.cores).isSome := by decide

/-! ### Queues, registers, memory events -/

/-- A queue of the largest size, enabled, whose one record lies in a page of 256 MiB of device memory, mapped by tables in frame 0
(16 R382 to R384), and its partition with the last entry of two free. -/
def queueState : State :=
  { scalarState with
    stage := 2, caps := { scalarState.caps with mirframes := 4 }
    mem := putBytes (putBytes (putBytes scalarState.mem 0x10000 (bytesOfNat 16 0x20001)) 0x20000 (bytesOfNat 16 (0x3F + 2 ^ 28 * 1562))) (2 ^ 28 * 1562 + 0x1000) launchRecord
    queues := [(3, { assignV := true, base := 0x1000, loc := false, en := true, log2 := 12, tail := 1 })]
    parts := [(0, { pptroot := 0x10000, ptaskn := 2, tasks := [(0, {})] })] }

theorem meets_QueuesAndRegisters :
    let s := queueState
    let x := s.queueAt 3
    s.failed = false ∧ x.part.toNat = 0 ∧ (s.partAt 0).resetting = false ∧ x.en = true ∧ x.assignV = true ∧ x.head ≠ x.tail ∧ s.queueDue 0 = some 3 ∧
      s.readRecord x = some (launchRecord, false) ∧ KMap.freeFrom (s.partAt 0).tasks 0 (s.partAt 0).ptaskn.toNat = some 1 ∧ recBad launchRecord = none ∧
      recField launchRecord 7 1 / 2 % 2 = 0 ∧ s.rangeBusy (hostWho 0 0) (x.base.toNat + 128 * x.head.toNat) 128 .read = false := by decide +kernel

-- a queue whose record no page maps
theorem meets_QueuesAndRegisters_unmapped :
    let x := { queueState.queueAt 3 with base := 0x10000000 }
    let s := { queueState with queues := [(3, x)] }
    s.failed = false ∧ x.part.toNat = 0 ∧ (s.partAt 0).resetting = false ∧ x.en = true ∧ x.assignV = true ∧ x.head ≠ x.tail ∧ s.queueDue 0 = some 3 ∧
      s.readRecord x = none := by decide +kernel

/-- 12 R308, R315: one struck element is corrected; two in different rows recompute the step; one that stays is left suspect. -/
theorem test_press_step_verdicts :
    let e (r c lasts : Nat) : Struck := { r, c, i := 5, xs := [(1, lasts)] }
    let v (es : List Struck) := let y := judgeStep false 0 es; (y.vals.map Prod.snd, y.corr, y.recomp, y.suspect)
    v [e 1 2 0] = ([5], true, false, []) ∧ v [e 1 2 0, e 3 4 0] = ([5, 5], false, true, []) ∧
      v [e 1 9 2] = ([4], false, false, [accSector 1 9]) ∧ v [e 1 2 1] = ([5], false, true, []) := by decide

/-- 14 R341: of two queues with records, the one after the queue served last is served, then the first again. -/
theorem test_queues_round_robin :
    let q : HostQueue := { assignV := true, base := 0x1000, loc := true, en := true, log2 := 1, tail := 1 }
    let s (l : Nat) : State := { State.reset with queues := [(3, q), (5, q)], parts := [(0, { lastq := some l })] }
    (s 3).queueDue 0 = some 5 ∧ (s 5).queueDue 0 = some 3 := by decide +kernel

theorem meets_QueuesAndRegisters_controls :
    (State.reset.queueAt 3).en = false ∧ 2 ^ 31 ≤ (0x8000C003 : BitVec 32).toNat ∧ (0x8000C003 : BitVec 32).toNat / 2 ^ 12 % 2 ^ 4 = 12 ∧
      (queueState.queueAt 3).en = true ∧ 11 ≠ (queueState.queueAt 3).log2.toNat ∧ (State.reset.partAt 0).pfqen = false ∧
      4 ≤ (0x8004000F : BitVec 32).toNat / 2 ^ 16 % 2 ^ 4 ∧ (0x8004000F : BitVec 32).toNat % 2 ^ 16 < 2 ^ 4 ∧
      ({ State.reset with parts := [(0, { pfqen := true, pfqlog2 := 5 })] }.partAt 0).pfqen = true := by decide

theorem meets_QueuesAndRegisters_mode :
    let s := { State.reset with stage := 2, heldL2 := some true }
    s.stage ≠ 0 ∧ (7 : Nat) < 8 ∧ s.heldL2 = some true ∧ s.beneath = [] ∧ (∀ k, k < 8 → s.atContextBoundary k = true ∧ (s.partAt k).heldWays = none) := by decide

theorem meets_QueuesAndRegisters_reads :
    let s := { queueState with agenda := [.regRead 0 0x8008 8], stage := 1 }
    s.agenda = .regRead 0 0x8008 8 :: [] ∧ (2 : Nat) ≠ 0 ∧ (0x300 : Nat) < 0x20000 ∧ (2 : Nat) ≠ 0 + 1 ∧ 4095 < 0x1000 ∧ 8191 < 8192 ∧
      (s.queueAt 4).assignV = false ∧ 2 ≠ (s.queueAt 3).part.toNat + 1 ∧ KMap.find 383 s.cores = none := by decide

/-- 01 R13: the byte count of the full configuration, read from the capability list, is 625 GiB. -/
theorem test_visbytes_read :
    (({ State.reset with stage := 2 } : State).regRead 0 0x8008 8).answers = [.data 8 671088640000 false] := by decide +kernel

/-- 00 R4: a register that is only written reads zero. -/
theorem test_trncmd_reads_zero :
    (({ State.reset with stage := 2 } : State).regRead 0 0x300 8).answers = [.data 8 0 false] := by decide +kernel

theorem meets_MemoryEvents :
    let l : L2Line := { line := 5, way := 15, valid := 15, dirty := 1, fetching := 8, waiters := 32 }
    let s := { scalarState with l2 := [(0, [l])] }
    s.l2Line (23 / 4) = some l ∧ l.dirty.getLsbD (23 % 4) = false ∧ l.valid.getLsbD (23 % 4) = true ∧ l.dirty.getLsbD (20 % 4) = true ∧
      s.l2Line (20 / 4) = some l ∧ s.mirrored (32 * 20 / 0x20_0000) = false ∧ (s.coreAt 0).team = some 1 ∧ 32 * 127 < ((pad s 0 []).tm 1).spad ∧ (KMap.find 128 s.groups).isSome ∧ s.firstCopy 23 = 23 := by decide

-- the last sector of the registers' lines, the scalar registers', the first of the control lines; a line beyond the declared count
theorem meets_MemoryEvents_lines :
    let s := scalarState
    let few := onTeam s fun t => { t with vregs := 16 }
    s.hasLine 128 (511 / 2) = true ∧ s.hasLine 128 (512 / 2) = true ∧ s.hasLine 128 (527 / 2) = true ∧ s.hasLine 128 (528 / 2) = true ∧
      s.isAway (s.tm (keyTeam 128)) = false ∧ few.hasLine 128 (32 / 2) = false ∧ few.hasLine 128 (31 / 2) = true := by decide

theorem meets_MemoryEvents_repairs :
    let s := State.reset
    s.ppr.state ≠ 1 ∧ { s with ppr := { s.ppr with state := 1 } }.ppr.state = 1 ∧ (s.ras.head.toNat + 1) % 64 ≠ s.ras.tail.toNat := by decide

-- how many repairs a part has is the configuration's: of a part with any, one is left at first; none is left when all have been used
theorem meets_MemoryEvents_repairs_left (h : Config.pprLeft (pprGroup 0) % 256 ≠ 0) :
    State.reset.pprLeft (pprGroup 0) ≠ 0 ∧
      { State.reset with ppr := { State.reset.ppr with used := [(pprGroup 0, Config.pprLeft (pprGroup 0) % 256)] } }.pprLeft (pprGroup 0) = 0 := by
  constructor
  · simpa [State.pprLeft, State.reset, KMap.read, KMap.find] using h
  · simp [State.pprLeft, KMap.read, KMap.find]

theorem meets_MemoryEvents_release :
    let s := { State.reset with caps := { State.reset.caps with mirframes := 0 } }
    s.caps.mirframes ≤ (319999 : BitVec 32).toNat % 2 ^ 19 ∧ (319999 : BitVec 32).toNat % 2 ^ 19 < s.caps.visframes + s.turner.released.length ∧
      s.turner.released = [] ∧ (∀ e ∈ s.cores, e.2.tlb = []) ∧ s.l2tlb = [] := by decide

theorem meets_MemoryEvents_replay :
    let o : RnOp := { g := 128, pa := 0x20_0000 * (runnerFrame + 1), n := 1 }
    let s := { homes State.reset with rennets := [(0, { waiting := [o] })] }
    (s.unitAt 0).waiting = [o] ∧ s.homeOf o.pa ≠ 0 := by decide

/-! ### The Turner, reliability, sampling -/

theorem meets_TurnerEvents :
    let s := State.reset
    let y : Dropped := { kind := 2, stack := 11, chan := 31 }
    (31 : Nat) < 32 ∧ s.turner.lost = [] ∧ s.turner.state = 0 ∧ s.isDropped y = false ∧ KMap.read 0 11 s.caps.dropsPer < 2 ∧ 9 < s.workingStacks.length ∧
      s.isDropped { kind := 1, stack := 11 } = false ∧ s.isDropped { kind := 3, stack := 11, chan := 31, pc := 1, bg := 3, bank := 3 } = false := by
  decide

theorem meets_TurnerEvents_refused :
    let s := { State.reset with caps := { State.reset.caps with workStacks := 0x1FF } }
    s.workingStacks.length ≤ 9 ∧ { s with turner := { s.turner with state := 1 } }.turner.state ≠ 0 ∧
      (3 < (0x4000000000000000 : Word).toNat / 2 ^ 60) := by decide

theorem meets_TurnerEvents_step :
    let d : Dropped := { kind := 1, stack := 11 }
    let e : IlvEntry := { cls := 0, mode := 0, slots := [] }
    let s := { State.reset with turner := { State.reset.turner with
      current := some d, state := 1, bounds := (List.range 16).map fun i => (i, { frame := i, b := if i = 0 then 16376 else 16368, newEntry := e }) } }
    s.turner.current = some d ∧ (∀ j, j < 16 → (KMap.find j s.turner.bounds).isSome) ∧
      KMap.find 0 s.turner.bounds = some { frame := 0, b := 16376, newEntry := e } ∧ KMap.find 15 s.turner.bounds = some { frame := 15, b := 16368, newEntry := e } ∧
      KMap.find 0 s.enterFrames.turner.bounds = some { frame := 0, b := 16376, newEntry := e } ∧
      KMap.find 15 s.enterFrames.turner.bounds = some { frame := 15, b := 16368, newEntry := e } ∧
      (∀ u ∈ s.rennets, u.2.queue = []) := by decide

theorem meets_ReliabilityEvents :
    let s := { State.reset with ras := { State.reset.ras with brushEn := true, acts := [(5, 64)], owed := [(5, 4)] } }
    s.ras.brushEn = true ∧ s.chanWorks 383 = true ∧ (s.chErr 383).passDone = false ∧ (383 : Nat) < 384 ∧ s.isLost (s.scrubRow 383) = false ∧
      (s.chErr 383).scrub + 1 < 2 ^ 21 ∧ s.bankBusy 5 = false ∧ KMap.read 0 6 s.ras.rfm = 0 := by
  decide

-- a management command due; and a row of a lost channel
theorem meets_ReliabilityEvents_due :
    let s := { State.reset with ras := { State.reset.ras with rfm := [(5, 1)] } }
    let t := { homes State.reset with ras := { State.reset.ras with brushEn := true }, turner := { (homes State.reset).turner with lost := [{ kind := 2, stack := 0, chan := 31 }] } }
    s.bankBusy 5 = false ∧ KMap.read 0 5 s.ras.rfm ≠ 0 ∧ t.ras.brushEn = true ∧ t.chanWorks 31 = true ∧ (t.chErr 31).passDone = false ∧
      t.isLost (t.scrubRow 31) = true ∧ (t.chErr 31).scrub + 1 < 2 ^ 21 := by decide

/-- A Ladle of core 0 that moves a piece in device memory, on the bank that its bytes lie in. -/
def burstState : State :=
  let p : Piece := { lane := 0, va := 0, pa := 0x20_0000 * runnerFrame, leaf := { pa := 0x20_0000 * runnerFrame }, locs := [(1, 0)], n := 16 }
  let z : Xfer := { id := 0, g := 128, kind := .copyIn, line := none, pieces := [p], l := 64, ru := none, hint := 0, scope := 1 }
  onCore0 (homes scalarState) fun c => { c with ladle := [(0, [.xfer z])] }

/-- The bank whose row that burst holds open. -/
def burstBank : Nat := ((List.range 12288).find? fun b => burstState.burstOn 0 b).getD 0

theorem meets_ReliabilityEvents_burst :
    let s := { burstState with ras := { burstState.ras with acts := [(burstBank, 64)], owed := [(burstBank, 4)] } }
    s.burstOn 0 burstBank = true ∧ s.bankBusy burstBank = true ∧ s.ras.postpone.toNat ≤ KMap.read 0 burstBank s.ras.owed ∧
      s.ras.postpone.toNat < KMap.read 0 burstBank s.ras.owed + 1 ∧ KMap.read 0 burstBank s.ras.rfm = 0 ∧ burstState.bankBusy burstBank = true ∧
      KMap.read 0 burstBank burstState.ras.owed + 1 ≤ burstState.ras.postpone.toNat := by decide +kernel

/-- The runner's core about to sample, its ring of 16 records in the runner's page, full or not. -/
def sampleState (tail : Nat) : State :=
  onCore0 scalarState fun c => { c with smpctl := 0x100000100, smpbase := 0x1000, cycle := 512, smphead := 15, smptail := tail }

theorem meets_ReliabilityEvents_sample :
    let y := (sampleState 0).coreAt 0
    y.team = some 1 ∧ y.smpctl.getLsbD 32 = true ∧ y.freeze = false ∧ 4 ≤ y.smplen ∧ y.smplen ≤ 16 ∧
      y.cycle.toNat % max 256 (y.smpctl.toNat % 2 ^ 32) = 0 ∧ (sampleState 0).nextSample 0 1 = some 128 ∧
      (y.smphead % 2 ^ y.smplen + 1) % 2 ^ y.smplen = y.smptail % 2 ^ y.smplen ∧
      (sampleState 1).rangeBusy ((sampleState 1).whoIs 128 true) (0x1000 + 64 * 15) 64 .write = false ∧
      ((sampleState 1).writeVirtual ((sampleState 1).whoIs 128 true) (0x1000 + 64 * 15) ((sampleState 1).sampleRecord 0 128)).isSome ∧
      ((sampleState 1).partAt ((sampleState 1).gPart 128)).phacctl.getLsbD 31 = false := by decide +kernel

/-! ### The Ladle, ports, links, start and resets -/

/-- A piece of sixteen bytes of the runner's page, for the end of its scratchpad. -/
def ladlePiece : Piece := { lane := 0, va := 0xFFF0, pa := 0x20_0000 * runnerFrame + 0xFFF0, leaf := {}, locs := [(1, 4080)], n := 16 }

/-- The transfer of that piece, and a count of the runner still held. -/
def ladleXfer : Xfer := { id := 0, g := 128, kind := .copyIn, line := none, pieces := [ladlePiece], l := 0, ru := none, hint := 0, scope := 1 }
def ladleCount : HeldCount := { queue := 3, id := 0, team := 1, obj := 0, arr := 0, n := 16, g := 128 }

/-- The runner's core with that transfer queued, over an object that awaits 17 bytes. -/
def ladleState (counts : List HeldCount) (obs : Nat) : State :=
  onCore0 (pad scalarState 0 ({ exparr := 1, pendarr := 1, expbytes := 17, pendbytes := 17, reg := 1, obs } : Obj).toBytes)
    fun c => { c with ladle := [(3, [.xfer ladleXfer])], counts }

theorem meets_LadleWork_transfer :
    let s := ladleState [] 1
    KMap.read [] 3 (s.coreAt 0).ladle = .xfer ladleXfer :: [] ∧ ladleXfer.pieces = [ladlePiece] ∧ s.bad ladlePiece.pa = false ∧
      ladlePiece.lose = [] ∧ s.casting 0 3 = false ∧ (s.teamGroups 1).isEmpty = false ∧ ladleXfer.sent = false ∧ s.copyMayAct ladleXfer = true ∧ s.xferBusy ladleXfer = false ∧ (s.coreAt 0).counts = [] ∧ s.joins = [] ∧ keyTeam ladleXfer.g = 1 ∧ ladleXfer.l + 32 ≤ 4080 ∧ (s.tm 1).isOut = false ∧
      KMap.find 0 (s.tm 1).held = none ∧ s.objBroken 1 0 = false ∧ (s.objAt 1 0).reg ≤ (s.objAt 1 0).obs ∧ 16 < (s.objAt 1 0).pendbytes ∧
      (s.objAt 1 0).overrun = false := by decide

-- a piece of another device's page, on its way or not yet; and a pull
theorem meets_LadleWork_goes :
    let far := { ladleXfer with pieces := [{ ladlePiece with leaf := { dev := 5 }, remote := true }] }
    let s := onCore0 (ladleState [] 1) fun c => { c with ladle := [(3, [.xfer far])] }
    let p := onCore0 (ladleState [] 1) fun c => { c with ladle := [(3, [.pull { bytes := List.replicate 32 0, sender := mine, senderTeam := 1, addr := 0 } 1 0 false])] }
    KMap.read [] 3 (s.coreAt 0).ladle = .xfer far :: [] ∧ s.copyMayAct far = true ∧ s.xferBusy far = false ∧
      (far.pieces.filter fun p => p.remote && !p.void) ≠ [] ∧ ((ladleState [] 1).coreAt 0).ladle = [(3, [.xfer ladleXfer])] ∧
      (ladleXfer.pieces.filter fun p => p.remote && !p.void) = [] ∧ (KMap.read [] 3 (p.coreAt 0).ladle).length = 1 ∧
      p.pullWaits 0 3 { bytes := List.replicate 32 0, sender := mine, senderTeam := 1, addr := 0 } 1 0 = (false, []) ∧ s.casting 0 3 = false ∧
      p.casting 0 3 = false := by decide

-- landings of a `vcast` of the queue still to come
theorem meets_LadleWork_casting :
    let s := { ladleState [] 1 with casts := [{ core := 0, queue := 3, id := 7, g := 128, team := 1, obj := 0, pieces := [] }] }
    s.casting 0 3 = true := by decide

theorem meets_LadleWork_retry :
    let s := fun n => ladleState [ladleCount] n
    ((s 0).coreAt 0).counts = [ladleCount] ∧ ((s 0).tm 1).isOut = false ∧ KMap.find 0 ((s 0).tm 1).held = none ∧ (s 0).objBroken 1 0 = false ∧
      ((s 0).objAt 1 0).obs < ((s 0).objAt 1 0).reg ∧ ((s 1).objAt 1 0).reg ≤ ((s 1).objAt 1 0).obs ∧ ladleCount.n < ((s 1).objAt 1 0).pendbytes ∧
      ladleCount.arr = 0 ∧ ladleCount.queue = 3 ∧ (((s 1).coreAt 0).counts.find? fun h => h.queue = 3) = some ladleCount ∧ ((s 1).objAt 1 0).overrun = false := by
  decide

/-- A notice of sixteen bytes of the runner's page, under token 0, for queue 3. -/
def notice : Notice :=
  { bytes := bytesOfNat 8 0 ++ bytesOfNat 4 16 ++ bytesOfNat 12 4080 ++ bytesOfNat 8 0x3000000, sender := mine, senderTeam := 1, addr := 0 }

theorem meets_LadleWork_kick :
    let s := onCore0 (pad scalarState 0 []) fun c => { c with kick := some notice }
    let who := { s.whoIs (streamKey 1 64) false with holders := [(s.tm 1).cluster], shares := (s.cl (s.tm 1).cluster).shares }
    (s.coreAt 0).kick = some notice ∧ (s.coreAt 0).team = some 1 ∧ (s.tm 1).res = .resident ∧
      ((onTeam s fun t => { t with res := .stopping }).tm 1).res ≠ .resident ∧ s.noticeOk notice 1 = true ∧ notice.field 0x1B 1 = 3 ∧
      s.insideToken who (notice.field 0x18 3) (notice.field 0 8) (notice.field 8 4) = true ∧ (KMap.read [] 3 (s.coreAt 0).ladle).length < 64 := by
  decide

/-- A host function's window B over one page of 256 MiB of ordinary memory, mapped by tables in frame 0 (16 R382 to R384), and a landing window of
64 KiB at offset 0 over it. -/
def portState : State :=
  { scalarState with
    stage := 2, caps := { scalarState.caps with mirframes := 4 }, parts := [(0, { pptroot := 0x10000 })]
    landing := [(255, { en := true, len := 1 })]
    mem := putBytes (putBytes scalarState.mem 0x10000 (bytesOfNat 16 0x20001)) 0x20000 (bytesOfNat 16 (0x3F + 2 ^ 28 * 1562)) }

/-- What window B finds at an address. -/
def portAt (va : Nat) : Xlat :=
  match portState.xlate (hostWho 0 0) va .write with
  | .ok y => y
  | .error _ => default

theorem meets_PortAndLinkEvents_window :
    portState.hasFunction 0 0 = true ∧ portState.rangeBusy (hostWho 0 0) 0xFFFFFF8 8 .read = false ∧
      portState.rangeBusy (hostWho 0 0) 0xFFFFFE0 32 .write = false ∧ (portState.writeVirtual (hostWho 0 0) 0xFFFFFE0 (bytesOfNat 32 7)).isSome ∧
      portState.readVirtual (hostWho 0 0) 0xFFFFFF8 8 = .ok (List.replicate 8 0, false) ∧
      PortSector portState (hostWho 0 0) 0xFFFFFE0 32 (portAt 0xFFFFFE0) ∧ portState.xlate (hostWho 0 0) 0x10000000 .write = .error .page ∧
      (portState.partAt 0).pfqen = false ∧ (portState.partAt 0).phacctl.getLsbD 31 = false ∧ portState.hasFunction 0 8 = false ∧
      State.reset.hasFunction 0 0 = false := by unfold PortSector; decide +kernel

theorem meets_PortAndLinkEvents_landing :
    let s := portState
    (∀ j, j < 255 → (s.window j).takes 0xFFF0 16 = false) ∧ (s.window 255).takes 0xFFF0 16 = true ∧ (s.window 255).held = none ∧
      PortSector s { part := 0, holders := [windowHolder 255], kernel := true } 0xFFF0 16 (portAt 0xFFF0) ∧ KMap.find 0 s.clusters = none ∧
      s.landBusy 255 0xFFF0 16 = false ∧ (s.partAt 0).phacctl.getLsbD 31 = false ∧
      (∀ j, j < 256 → (s.window j).takes 0x10000 1 = false) := by unfold PortSector; decide +kernel

/-- That landing window counting on an object of the runner's team, its first bytes held or none. -/
def countState (held : Option Nat) : State :=
  { pad portState 4064 sound.toBytes with
    landing := [(255, { en := true, len := 1, cluster := BitVec.ofNat 24 mine, obj := 4064, held })] }

theorem meets_PortAndLinkEvents_counts :
    let s := countState none
    (match KMap.find mine s.clusters with
     | some y => decide (y.res ≠ .ended ∧ y.members[((s.window 255).m.toNat)]? = some 1)
     | none => false) = true ∧ isClusterId (s.window 255).cluster.toNat = true ∧ (s.window 255).obj.toNat % 32 = 0 ∧
      (s.window 255).obj.toNat < (s.tm 1).spad ∧ (s.tm 1).isOut = false ∧ KMap.find 4064 (s.tm 1).held = none ∧ s.objBroken 1 4064 = false ∧
      (s.objAt 1 4064).reg ≤ (s.objAt 1 4064).obs ∧ (s.window 255).held = none ∧ s.landBusy 255 0xFFF0 16 = false ∧
      (s.writeVirtual { part := 0, holders := [windowHolder 255], kernel := true } 0xFFF0 (bytesOfNat 16 7)).isSome ∧
      s.writeVirtual { part := 0, holders := [windowHolder 255], kernel := true } 0xFFFFFFF (bytesOfNat 16 7) = none ∧
      ((countState (some 16)).window 255).held = some 16 ∧ ((countState (some 16)).window 255).waiting = [] := by decide +kernel

theorem meets_PortAndLinkEvents_held :
    let s := { portState with landing := [(255, { en := true, len := 1, held := some 16 })] }
    (s.window 255).held.isSome ∧ (s.window 255).takes 0xFFF0 16 = true ∧ (s.window 255).waiting = [] ∧ KMap.find 0 s.clusters = none := by decide

theorem meets_PortAndLinkEvents_links :
    let s := { State.reset with stage := 2, links := { State.reset.links with en := true, link := [(35, { again := [{ queue := 3, tag := 9 }] })] } }
    s.links.en = true ∧ (s.linkAt 35).working = true ∧ (35 : Nat) < 36 ∧ ((s.linkAt 35).again.find? fun b => b.queue = 3 && b.tag = 9) = some { queue := 3, tag := 9 } ∧ (s.linkAt 35).window.length < 1024 ∧
      (0x00000010 : BitVec 32).toNat / 16 % 16 = 1 ∧ (0x00000010 : BitVec 32).toNat / 2 ^ 20 = (s.linkAt 35).expect ∧ (s.linkAt 35).window = [] ∧
      (s.stage ≠ 2 ∨ s.links.en = true) := by decide

theorem meets_StartResetAndController_start :
    let s := State.reset
    s.stage = 0 ∧ s.mail.reason = 0 ∧ { s with stage := 1 }.stage = 1 ∧ { s with stage := 2 }.stage ≠ 0 ∧
      s.teams = [] ∧ s.clusters = [] ∧ s.residuals = [] ∧ s.joins = [] ∧ (7 : Nat) < 8 := by decide

theorem meets_StartResetAndController_idle (q : Nat) : (State.reset.partAt q).tasks = [] := rfl

theorem meets_StartResetAndController_controller :
    let s := { State.reset with stage := 1 }
    let m := fun op => { s with mail := { s.mail with state := 1, op } }
    s.stage ≠ 0 ∧ s.mail.state ≠ 1 ∧ (4 < (255 : BitVec 8).toNat) ∧ (m 3).mail.state = 1 ∧ (m 3).mail.op = 3 ∧ (m 2).mail.op = 2 ∧ (m 1).mail.op = 1 ∧
      s.caps.rates[2]? = some 48000 ∧ s.caps.clocks[2]? = some 0 := by decide

/-! ### Words, steps and the whole machine -/

theorem meets_DecodeOfEncode : WellFormed (.vcast ⟨255, 0, 1, 7, 1, 4, 1, 3, 7, 0, 255, 15, 0x07FFFFFF⟩) = true := by decide

theorem meets_StepRunsDecoded_scalar :
    let s := scalarState
    s.agenda = [] ∧ s.cur = streamAgent 128 false ∧ s.seeks 128 false = true ∧ s.slotGroups 128 false = [128] ∧
      (s.openSlot 128 false).fetchBusy 128 false 0x100 4 = false ∧ (s.openSlot 128 false).lineMiss 128 .nop = false ∧
      (s.openSlot 128 false).fetchBytes 128 0x100 4 = .ok ([0x46, 0, 0, 0], false) ∧ decodeScalar (BitVec.ofNat 32 (natOfBytes [0x46, 0, 0, 0])) = .ok .nop := by decide

-- a trap that is due, and an event that the schedule holds
theorem meets_StepRunsDecoded_due :
    let s := on scalarState fun x => { x with timerDue := true }
    s.agenda = [] ∧ s.cur = .scalar 128 ∧ s.runs 128 = true ∧ ((s.grp 128).boundary 128).isSome ∧
      { s with agenda := [.event (.timerEvent 128)] }.agenda = .event (.timerEvent 128) :: [] := by decide

theorem meets_StepRunsDecoded_scalar_bad :
    (scalarState.fetchBytes 128 0x200 4 = .ok ([0, 0, 0, 0], false)) ∧ decodeScalar (BitVec.ofNat 32 (natOfBytes [0, 0, 0, 0])) = .error .unassigned ∧
      scalarState.fetchBytes 128 0x10000 4 = .error .page ∧ scalarState.fetchBytes 128 0xFFFC 4 = .ok ([0, 0, 0, 0], false) := by decide

theorem meets_StepRunsDecoded_lane :
    let s := laneState
    let i := Instr.vadd ⟨8, 9, 0, 0, 0, 0, 1, 0, 0, 1, 0, 2, 0⟩
    s.agenda = [] ∧ s.cur = streamAgent 128 true ∧ s.seeks 128 true = true ∧ s.slotGroups 128 true = [128] ∧
      (s.openSlot 128 true).fetchBusy 128 true 0x100 12 = false ∧ (s.openSlot 128 true).lineMiss 128 i = false ∧
      (s.grp 128).path = some { mask := 0xFFFF, lpc := 0x100 } ∧
      (match (s.openSlot 128 true).fetchBytes 128 0x100 12 with
       | .ok (bs, false) => decide (bs.length = 12 ∧ decodeLane (BitVec.ofNat 96 (natOfBytes bs)) = .ok i)
       | _ => false) = true ∧ s.fetchBytes 128 0x10000 12 = .error .page := by decide

theorem meets_StepRunsDecoded_micro_and_events :
    microState.agenda = [] ∧ microState.cur = .rennet 0 ∧ (microState.unitAt 0).queue = theRun :: [] ∧ theRun.state = 1 ∧
      theRun.prog[theRun.ctr]? = some 0xE0000000 ∧ decodeMicro 0xE0000000 = .ok .nnop ∧ isScheduled (.timerEvent 128) = true := by decide

-- the host's placement of a word makes the next step run it
theorem test_step_runs_placed_word :
    (match step (State.reset.withFetchWord 32 0x00200182) with
     | .next t => decide ((t.grp 128).sGet 3 = 4 ∧ (t.grp 128).pc = 0x104)
     | _ => false) = true := by decide +kernel

theorem meets_StepKeepsMemory : scalarState.memWf = true ∧ State.reset.memWf = true := by decide +kernel

end Sys2Proof.Tests
end

