-- ==== Sys2Proof/Proofs/LaneSources.lean ====
section
/-! SUPPORT. What lane sources read and the addresses that lanes form (02 R32, 03 R67, R91, 10 R239). -/

namespace Sys2Proof.Machine

theorem wide_eq_two (ty : BitVec 4) : wide ty = 2 ↔ tyPair ty = true := by
  unfold wide
  cases tyPair ty <;> simp

/-- 04 R92: `k0` is all ones. -/
@[simp] theorem Group.kGet_zero (x : Group) : x.kGet 0 = BitVec.allOnes 16 := rfl

/-- 02 R32: a lane acts when it is live, on the path and selected by the guard. -/
theorem Group.getLsbD_active (x : Group) (f : LaneWord) {t : Nat} (ht : t < 16) :
    (x.active f).getLsbD t ↔
      x.live.getLsbD t ∧ x.pathMask.getLsbD t ∧ ((x.kGet f.guard.toNat).getLsbD t ↔ f.gneg = 0#1) := by
  obtain hg | hg : f.gneg = 0#1 ∨ f.gneg = 1#1 := by
    have h : ∀ b : BitVec 1, b = 0#1 ∨ b = 1#1 := by decide
    exact h f.gneg
  · simp [Group.active, hg, and_assoc]
  · simp [Group.active, hg, ht, and_assoc]

/-- 03 R66, R67: a register source is the slot, or the pair of a 64-bit type, replaced whole where poisoned. -/
theorem Group.srcReg_eq (x : Group) (ty : BitVec 4) (t r : Nat) :
    x.srcReg ty t r =
      (if (x.vBad t r || (wide ty = 2 && x.vBad t (r + 1))) = true then subst ty
        else (x.vRaw t r).toNat + if wide ty = 2 then 2 ^ 32 * (x.vRaw t (r + 1)).toNat else 0,
       x.vBad t r || (wide ty = 2 && x.vBad t (r + 1))) := by
  simp [Group.srcReg, wide_eq_two]

/-- 03 R67: a captured scalar is cut to the bits of the type. -/
theorem Group.srcCap_eq (x : Group) (ty : BitVec 4) (i : Nat) :
    x.srcCap ty i = (x.cap i).toNat % 2 ^ (32 * wide ty) := by
  unfold Group.srcCap wide
  cases tyPair ty
  · simp
  · simpa using (Nat.mod_eq_of_lt (x.cap i).isLt).symm

/-- 03 R91: the substitute of a float type holds the default NaN in each element, that of another type is zero. -/
theorem part_subst (ty : BitVec 4) (e : Nat) (he : e < tyCount ty) :
    Claims.part (tyWidth ty) (subst ty) e = if tyFloat ty then (fmtOf ty).nan else 0 := by
  revert e
  revert ty
  decide +kernel

/-- 10 R239: the base of a lane address in a register pair. -/
theorem wrapped_pair (hi lo : BitVec 32) : Claims.wrapped (lo.toNat + 2 ^ 32 * (hi.toNat : Int)) = (hi ++ lo : BitVec 64) := by
  have h : (lo.toNat + 2 ^ 32 * (hi.toNat : Int)) = ((hi ++ lo : BitVec 64).toNat : Int) := by
    rw [BitVec.toNat_append, ← Nat.shiftLeft_add_eq_or_of_lt lo.isLt, Nat.shiftLeft_eq]
    push_cast
    ring
  rw [h]
  exact BitVec.eq_of_toInt_eq (by simp [Claims.wrapped])

theorem wrapped_add (a b : Int) : Claims.wrapped (a + b) = Claims.wrapped a + Claims.wrapped b :=
  BitVec.ofInt_add ..

/-- A signed number as a 64-bit pattern is its sign extension. -/
theorem wrapped_toInt {w : Nat} (v : BitVec w) : Claims.wrapped v.toInt = v.signExtend 64 := rfl

theorem wrapped_toNat (v : Word) : Claims.wrapped v.toNat = v :=
  BitVec.eq_of_toInt_eq (by simp [Claims.wrapped])

theorem laneSources : Claims.LaneSources := by
  intro x f ty t n
  refine ⟨x.getLsbD_active f, rfl, ?_, ?_, ?_, ?_, ?_, ?_, rfl, part_subst ty⟩
  · intro h
    have hr : (decide (n = 1) && decide (f.kind = 2#2)) = false := by
      rcases h with h | h <;> simp [h]
    simp [Group.srcA, hr, Group.srcReg_eq]
  · intro h
    simp [Group.srcB, Group.srcC, h, Group.srcReg_eq]
  · rintro (h | h) <;> simp [Group.srcB, h, Group.srcCap_eq]
  · intro h
    simp [Group.srcA, Group.srcB, h, Group.srcReg_eq]
  · rintro (h | h) <;> simp [Group.srcC, h]
  · intro h3 h5
    simp [srcImm, h3, h5]

theorem laneAddresses : Claims.LaneAddresses := by
  intro x f t
  refine ⟨fun h => ?_, fun h => ?_⟩
  · rw [wrapped_add, wrapped_pair, wrapped_toInt]
    simp [Group.globalAddr, h, memOff]
  · rw [wrapped_add, wrapped_add, wrapped_toNat, wrapped_toInt, wrapped_toInt]
    simp [Group.globalAddr, h, memOff]

/-- Settles O22, clause by clause from what a register source reads and how a 64-bit address wraps. -/
theorem laneSourcesAndAddresses : Obligations.LaneSourcesAndAddresses := ⟨laneSources, laneAddresses⟩

end Sys2Proof.Machine
end

