-- ==== Sys2Proof/Proofs/VectorWrites.lean ====
section
/-! SUPPORT. What the writes of vector slots change, and that a lane instruction's results reach the acting lanes and no others
(02 R33, R34). -/

namespace Sys2Proof.Machine

/-! ## One slot -/

theorem vkey_eq_iff {t u q r : Nat} (ht : t < 16) (hu : u < 16) : vkey t q = vkey u r ↔ t = u ∧ q = r := by
  unfold vkey
  omega

/-- A shadow copy changes nothing but the `try` record. -/
theorem Group.shadowLine_eq (x : Group) (r : Nat) : x.shadowLine r = { x with tr := (x.shadowLine r).tr } := by
  unfold Group.shadowLine
  cases x with | mk => dsimp only; split <;> [rfl; (split <;> rfl)]

theorem Group.vSet_eq (x : Group) (t r : Nat) (v : BitVec 32) :
    x.vSet t r v = { x with v := KMap.write 0 (vkey t r) v x.v, vPoison := KMap.write false (vkey t r) false x.vPoison,
                            tr := (x.shadowLine r).tr } := by
  unfold Group.vSet Group.vSetP
  rw [Group.shadowLine_eq]

theorem Group.vRaw_vSet (x : Group) {t u : Nat} (q r : Nat) (v : BitVec 32) (ht : t < 16) (hu : u < 16) :
    (x.vSet t r v).vRaw u q = if u = t ∧ q = r then v else x.vRaw u q := by
  rw [Group.vSet_eq]
  by_cases h : u = t ∧ q = r
  · simp [Group.vRaw, h]
  · rw [if_neg h]
    exact KMap.read_write_other 0 (by rwa [Ne, vkey_eq_iff hu ht]) v x.v

theorem Group.vBad_vSet (x : Group) {t u : Nat} (q r : Nat) (v : BitVec 32) (ht : t < 16) (hu : u < 16) :
    (x.vSet t r v).vBad u q = if u = t ∧ q = r then false else x.vBad u q := by
  rw [Group.vSet_eq]
  by_cases h : u = t ∧ q = r
  · simp [Group.vBad, h]
  · rw [if_neg h]
    exact KMap.read_write_other false (by rwa [Ne, vkey_eq_iff hu ht]) false x.vPoison

/-! ## What is left alone -/

/-- Of a stream nothing changed but vector slots, their poison and the `try` record. -/
def VectorOnly (x y : Group) : Prop := y = { x with v := y.v, vPoison := y.vPoison, tr := y.tr }

theorem VectorOnly.refl (x : Group) : VectorOnly x x := rfl

theorem VectorOnly.trans {x y z : Group} (h : VectorOnly x y) (k : VectorOnly y z) : VectorOnly x z := by
  unfold VectorOnly at *
  rw [k, h]

theorem Group.vectorOnly_vSet (x : Group) (t r : Nat) (v : BitVec 32) : VectorOnly x (x.vSet t r v) := by
  rw [VectorOnly, Group.vSet_eq]

theorem VectorOnly.foldl {α : Type} (f : Group → α → Group) (hf : ∀ x a, VectorOnly x (f x a)) (l : List α) (x : Group) :
    VectorOnly x (l.foldl f x) := by
  induction l generalizing x with
  | nil => exact .refl x
  | cons a l ih => exact (hf x a).trans (ih _)

theorem Group.vectorOnly_vWrite (x : Group) (t r n v : Nat) : VectorOnly x (x.vWrite t r n v) :=
  .foldl _ (fun _ _ => Group.vectorOnly_vSet ..) _ _

/-! ## One lane -/

/-- The slot `q` of lane `u` after a write of `n` registers of lane `t`. -/
theorem Group.slot_vWrite (x : Group) {t u : Nat} (q r n v : Nat) (ht : t < 16) (hu : u < 16) :
    if u = t ∧ r ≤ q ∧ q < r + n then
      (x.vWrite t r n v).vRaw u q = BitVec.ofNat 32 (v / 2 ^ (32 * (q - r))) ∧ (x.vWrite t r n v).vBad u q = false
    else (x.vWrite t r n v).vRaw u q = x.vRaw u q ∧ (x.vWrite t r n v).vBad u q = x.vBad u q := by
  unfold Group.vWrite
  induction n with
  | zero => simp
  | succ n ih =>
    rw [List.range_succ, List.foldl_append, List.foldl_cons, List.foldl_nil, Group.vRaw_vSet _ _ _ _ ht hu,
      Group.vBad_vSet _ _ _ _ ht hu]
    by_cases hq : u = t ∧ q = r + n
    · obtain ⟨rfl, rfl⟩ := hq
      simp
    · have hin : (u = t ∧ r ≤ q ∧ q < r + (n + 1)) ↔ (u = t ∧ r ≤ q ∧ q < r + n) := by omega
      simpa only [hin, if_neg hq] using ih

/-! ## The acting lanes -/

theorem mem_lanes {m : BitVec 16} {t : Nat} : t ∈ lanes m ↔ t < 16 ∧ m.getLsbD t := by
  simp [lanes]

/-- The slot `q` of lane `u` after each of some lanes wrote its value. -/
theorem slot_foldl_vWrite (val : Nat → Nat) (q r n : Nat) {u : Nat} (hu : u < 16) (ts : List Nat) (hts : ∀ t ∈ ts, t < 16) (x : Group) :
    let y := ts.foldl (fun x t => x.vWrite t r n (val t)) x
    if u ∈ ts ∧ r ≤ q ∧ q < r + n then y.vRaw u q = BitVec.ofNat 32 (val u / 2 ^ (32 * (q - r))) ∧ y.vBad u q = false
    else y.vRaw u q = x.vRaw u q ∧ y.vBad u q = x.vBad u q := by
  induction ts generalizing x with
  | nil => simp
  | cons t ts ih =>
    have hw := Group.slot_vWrite x q r n (val t) (hts t (by simp)) hu
    have hr := ih (fun t h => hts t (by simp [h])) (x.vWrite t r n (val t))
    simp only [List.foldl_cons, List.mem_cons]
    by_cases hin : u ∈ ts ∧ r ≤ q ∧ q < r + n
    · rw [if_pos hin] at hr
      rwa [if_pos ⟨.inr hin.1, hin.2⟩]
    · rw [if_neg hin] at hr
      rw [hr.1, hr.2]
      by_cases ht : u = t ∧ r ≤ q ∧ q < r + n
      · rw [if_pos ht] at hw
        rw [if_pos ⟨.inl ht.1, ht.2⟩, hw.1, hw.2, ht.1]
        exact ⟨rfl, rfl⟩
      · rw [if_neg ht] at hw
        rw [if_neg (by tauto), hw.1, hw.2]
        exact ⟨rfl, rfl⟩

/-- 02 R33: the body lanes' values reach the acting lanes, each from the lane that leads it. -/
theorem Group.vResults_eq (x : Group) (f : LaneWord) (m : BitVec 16) (r n : Nat) (val : Nat → Nat) :
    x.vResults f m r n ((bodyLanes f m).map fun t => (t, val t)) =
      (lanes m).foldl (fun x t => x.vWrite t r n (val (Claims.lead f m t))) x := by
  by_cases hu : f.u = 1#1
  · simp only [Group.vResults, bodyLanes, hu, if_true, Claims.lead]
    cases lanes m <;> simp
  · simp [Group.vResults, bodyLanes, hu, Claims.lead, List.foldl_map]

theorem Group.vectorOnly_vResults (x : Group) (f : LaneWord) (m : BitVec 16) (r n : Nat) (val : Nat → Nat) :
    VectorOnly x (x.vResults f m r n ((bodyLanes f m).map fun t => (t, val t))) := by
  rw [Group.vResults_eq]
  exact .foldl _ (fun _ _ => Group.vectorOnly_vWrite ..) _ _

theorem Group.vecWrote_vResults (x : Group) (f : LaneWord) (m : BitVec 16) (r n : Nat) (val : Nat → Nat) :
    Claims.VecWrote x (x.vResults f m r n ((bodyLanes f m).map fun t => (t, val t))) m r n fun l => val (Claims.lead f m l) := by
  intro u q hu
  rw [Group.vResults_eq]
  have h := slot_foldl_vWrite (fun t => val (Claims.lead f m t)) q r n hu (lanes m) (fun t ht => (mem_lanes.1 ht).1) x
  simpa only [mem_lanes, hu, true_and] using h

end Sys2Proof.Machine
end

