-- ==== Sys2Proof/Proofs/LongLatency.lean ====
section
/-! SUPPORT. Lane instructions that write vector registers, at once and as long-latency instructions (02 R38, 03 R75). -/

namespace Sys2Proof.Machine

/-! ## The steps that lane instructions share -/

theorem State.laneBody_ready (s : State) (f : LaneWord) (regs : List (Nat × Nat)) (body : BitVec 16 → State)
    (h : Claims.LaneReady s f regs) : s.laneBody f regs body = body (Claims.acting s f) := by
  obtain ⟨hr, hw⟩ := h
  have hok : regsOk (s.gTeam s.me).vregs regs = true := by
    simpa [regsOk] using fun a b hab => hr (a, b) hab
  have hw' : (s.grp s.me).waitsFor ((s.grp s.me).active f) regs = false := hw
  simp [State.laneBody, hok, hw', Claims.acting, Claims.own]

/-- The stream after a lane instruction of which `bad` says whether it consumed poison. -/
def Group.laneDone (x : Group) (bad : Bool) : Group :=
  { (if bad then x.chk pcons else x) with path := x.path.map fun p => { p with lpc := p.lpc + 12 }, lstall := 0, spawned := none }

@[simp] theorem State.me_pconsIf (s : State) (b : Bool) : (s.pconsIf b).me = s.me := by
  cases b <;> simp [State.pconsIf, State.consumed]

theorem State.grp_pconsIf (s : State) (b : Bool) :
    (s.pconsIf b).grp s.me = if b then (s.grp s.me).chk pcons else s.grp s.me := by
  cases b <;> simp [State.pconsIf, State.consumed]

theorem OnlyStream.pconsIf {g : Nat} {s t : State} (h : OnlyStream g s t) (hg : t.me = g) (b : Bool) :
    OnlyStream g s (t.pconsIf b) := by
  cases b with
  | false => exact h
  | true =>
    subst hg
    exact (OnlyStream.onGrp (.inl h) _).count _ _ _

theorem State.grp_laneNext (s : State) (f : LaneWord) (m : BitVec 16) (cost : Nat) :
    (s.laneNext f m cost).grp s.me =
      { s.grp s.me with path := (s.grp s.me).path.map fun p => { p with lpc := p.lpc + 12 }, lstall := 0, spawned := none } := by
  simp [State.laneNext]

theorem OnlyStream.laneNext {g : Nat} {s t : State} (h : OnlyStream g s t) (hg : t.me = g) (f : LaneWord) (m : BitVec 16) (cost : Nat) :
    OnlyStream g s (t.laneNext f m cost) := by
  subst hg
  exact ((OnlyStream.onGrp (.inl h) _).count _ _ _).count _ _ _

/-- The stream after a change of it, the consumption of poison and the move to the next slot. -/
theorem State.grp_laneDone (s : State) (fn : Group → Group) (b : Bool) (f : LaneWord) (m : BitVec 16) (cost : Nat) :
    (((s.onGrp s.me fn).pconsIf b).laneNext f m cost).grp s.me = (fn (s.grp s.me)).laneDone b := by
  have h := State.grp_laneNext ((s.onGrp s.me fn).pconsIf b) f m cost
  rw [State.me_pconsIf, State.me_onGrp] at h
  have k := State.grp_pconsIf (s.onGrp s.me fn) b
  rw [State.me_onGrp, State.grp_onGrp] at k
  rw [h, k]
  cases b <;> rfl

/-- A lane instruction whose registers are ready: its results, and the move to the next slot. -/
theorem State.laneCalc_ready (s : State) (f : LaneWord) (srcs : List (Nat × Nat)) (dst : Nat × Nat) (cost : Nat)
    (res : Group → Nat → Nat × Bool) (hr : Claims.LaneReady s f (srcs ++ [dst])) (ho : (Claims.own s).overflowsShadow [dst] = false) :
    let m := Claims.acting s f
    let val := res (Claims.own s)
    let t := s.laneCalc f srcs dst cost res
    OnlyStream s.me s t ∧
      t.grp s.me = ((Claims.own s).vResults f m dst.1 dst.2 ((bodyLanes f m).map fun l => (l, (val l).1))).laneDone
        ((bodyLanes f m).any fun l => (val l).2) := by
  have ho' : (s.grp s.me).overflowsShadow [dst] = false := ho
  simp only [State.laneCalc, State.laneBody_ready s f _ _ hr, ho', Bool.and_false, Bool.false_eq_true, if_false, List.map_map, List.any_map]
  exact ⟨OnlyStream.laneNext (OnlyStream.pconsIf (OnlyStream.of_onGrp ..) rfl _) (by simp) .., State.grp_laneDone ..⟩

/-! ## Issue of a long-latency instruction -/

/-- The stream with other counts of flags, outstanding results and reached slots of its clause. -/
def LongOnly (x y : Group) : Prop :=
  y = { x with flags := y.flags, run := y.run, pending := y.pending } ∧ (y.run.map fun r => r.entry) = x.run.map fun r => r.entry

theorem Group.longOnly_raiseAtIssue {x y : Group} {k flag : Option Nat} (h : x.raiseAtIssue k = some (y, flag)) :
    LongOnly x y ∧ y.pending = x.pending := by
  unfold Group.raiseAtIssue at h
  split at h
  · cases h; exact ⟨⟨rfl, rfl⟩, rfl⟩
  · split at h
    · cases h
    · cases h; exact ⟨⟨rfl, rfl⟩, rfl⟩

/-- 03 R75: issuing touches flags and the run's record of reached slots. -/
theorem Group.longOnly_issueLL {x y : Group} {f : LaneWord} {flag : Option Nat} (h : x.issueLL f = some (y, flag)) :
    LongOnly x y ∧ y.pending = x.pending := by
  unfold Group.issueLL at h
  split at h
  · rename_i r a hd hrun hcl
    dsimp only at h
    split at h
    · exact Group.longOnly_raiseAtIssue h
    · split at h
      · cases h; exact ⟨⟨rfl, by simp [hrun]⟩, rfl⟩
      · exact Group.longOnly_raiseAtIssue h
  · cases h; exact ⟨⟨rfl, rfl⟩, rfl⟩

/-- A long-latency instruction without a scalar destination: its flag is lowered now, or its landing is awaited. -/
theorem Group.pendLL_eq (x : Group) (slot : Word) (flag : Option Nat) (empty : Bool) :
    x.pendLL slot flag none empty =
      { x with flags := if empty then (x.lower flag).flags else x.flags
               pending := if empty = true ∨ flag = none then x.pending else x.pending ++ [{ slot, flag, dst := none }] } := by
  cases empty <;> cases flag <;> simp [Group.pendLL, Group.lower]

theorem Group.flag_lower (x : Group) (flag : Option Nat) (h : Nat) :
    (x.lower flag).flag h = if flag = some h then x.flag h - 1 else x.flag h := by
  cases flag with
  | none => simp [Group.lower]
  | some k =>
    by_cases hk : h = k
    · subst hk; simp [Group.lower, Group.flag]
    · have hk' : k ≠ h := Ne.symm hk
      simp [Group.lower, Group.flag, KMap.read_write_other 0 hk, hk']

/-- A captured scalar comes from the entry of the clause that runs. -/
theorem Group.cap_eq (x : Group) (i : Nat) :
    x.cap i = ((x.run.map fun r => r.entry).map fun e => KMap.read 0 i e.caps).getD 0 := by
  unfold Group.cap
  cases x.run <;> rfl

/-- The sources of a lane do not depend on what issuing touches. -/
theorem LongOnly.srcs {x y : Group} (h : LongOnly x y) (f : LaneWord) (n : Nat) (ty : BitVec 4) :
    y.srcA f n ty = x.srcA f n ty ∧ y.srcB f n ty = x.srcB f n ty := by
  obtain ⟨he, hr⟩ := h
  have hv : ∀ t r, y.vRaw t r = x.vRaw t r := by rw [he]; exact fun _ _ => rfl
  have hb : ∀ t r, y.vBad t r = x.vBad t r := by rw [he]; exact fun _ _ => rfl
  have hreg : ∀ t r, y.srcReg ty t r = x.srcReg ty t r := fun t r => by simp only [Group.srcReg, hv, hb]
  have hcap : ∀ i, y.cap i = x.cap i := fun i => by rw [Group.cap_eq, Group.cap_eq, hr]
  exact ⟨funext fun t => by simp only [Group.srcA, hreg],
    funext fun t => by simp only [Group.srcB, Group.srcCap, hreg, hcap]⟩

/-! ## Results of a long-latency instruction -/

theorem OnlyStream.trans {g : Nat} {s t u : State} (h : OnlyStream g s t) (k : OnlyStream g t u) : OnlyStream g s u := by
  obtain ⟨ha, hg, hc, hm, hp⟩ := h
  obtain ⟨ka, kg, kc, km, kp⟩ := k
  have hb : t.apart.beneath = s.apart.beneath := congrArg State.beneath ha
  refine ⟨ka.trans ha, by rw [kg, hg, KMap.put_put], hc.trans kc, fun a => (km a).trans (hm a), fun e a => ?_⟩
  exact (kp (hb.trans e) a).trans (hp e a)

theorem LongOnly.pendLL {x y : Group} (h : LongOnly x y) (slot : Word) (flag : Option Nat) (empty : Bool) :
    LongOnly x (y.pendLL slot flag none empty) := by
  obtain ⟨he, hr⟩ := h
  rw [Group.pendLL_eq]
  exact ⟨by rw [he], hr⟩

/-- What a lane instruction checks before its body does not depend on what issuing touches. -/
theorem LongOnly.laneReady {s : State} {f : LaneWord} {regs : List (Nat × Nat)} {y : Group} (hy : LongOnly (Claims.own s) y)
    (h : Claims.LaneReady s f regs) : Claims.LaneReady (s.setGrp s.me y) f regs := by
  obtain ⟨he, -⟩ := hy
  refine ⟨h.1, ?_⟩
  have hw := h.2
  unfold Claims.acting at *
  rw [show Claims.own (s.setGrp s.me y) = y from State.grp_setGrp ..]
  rw [he]
  exact hw

theorem LongOnly.active {x y : Group} (h : LongOnly x y) (f : LaneWord) : y.active f = x.active f := by
  rw [h.1]
  rfl

theorem LongOnly.overflowsShadow {x y : Group} (h : LongOnly x y) (l : List (Nat × Nat)) : y.overflowsShadow l = x.overflowsShadow l := by
  rw [h.1]
  rfl

/-- The stream in which a long-latency instruction without a scalar destination has issued. -/
def Group.longIssued (x x1 : Group) (flag : Option Nat) (m : BitVec 16) : Group := x1.pendLL x.slot flag none (m = 0)

/-- 02 R38: a long-latency instruction whose registers are ready and whose flag is counted: its results are written at issue. -/
theorem State.laneLong_ready (s : State) (f : LaneWord) (srcs : List (Nat × Nat)) (dst : Nat × Nat) (cost : Nat)
    (res : Group → Nat → Nat × Bool) (hr : Claims.LaneReady s f (srcs ++ [dst])) (ho : (Claims.own s).overflowsShadow [dst] = false)
    {x1 : Group} {flag : Option Nat} (hi : (Claims.own s).issueLL f = some (x1, flag))
    (hres : ∀ y, LongOnly (Claims.own s) y → res y = res (Claims.own s)) :
    let m := Claims.acting s f
    let val := res (Claims.own s)
    let t := s.laneLong f srcs dst cost res
    OnlyStream s.me s t ∧
      t.grp s.me = (((Claims.own s).longIssued x1 flag m).vResults f m dst.1 dst.2 ((bodyLanes f m).map fun l => (l, (val l).1))).laneDone
        ((bodyLanes f m).any fun l => (val l).2) := by
  intro m val t
  have hy : LongOnly (Claims.own s) ((Claims.own s).longIssued x1 flag m) := (Group.longOnly_issueLL hi).1.pendLL ..
  have hown : Claims.own (s.setGrp s.me ((Claims.own s).longIssued x1 flag m)) = (Claims.own s).longIssued x1 flag m :=
    State.grp_setGrp ..
  have ht : t = (s.setGrp s.me ((Claims.own s).longIssued x1 flag m)).laneCalc f srcs dst cost res := by
    have hi' : (s.grp s.me).issueLL f = some (x1, flag) := hi
    have ho' : (s.grp s.me).overflowsShadow [dst] = false := ho
    simp only [t, State.laneLong, State.laneBody_ready s f _ _ hr, hi', ho', Bool.and_false, Bool.false_eq_true, if_false]
    rfl
  have hm : Claims.acting (s.setGrp s.me ((Claims.own s).longIssued x1 flag m)) f = m := by
    unfold Claims.acting
    rw [hown, hy.active]
    rfl
  obtain ⟨h1, h2⟩ := State.laneCalc_ready (s.setGrp s.me ((Claims.own s).longIssued x1 flag m)) f srcs dst cost res
    (hy.laneReady hr) (by rw [hown, hy.overflowsShadow]; exact ho)
  rw [hm, hown, hres _ hy, ← ht] at h2
  rw [← ht] at h1
  exact ⟨(OnlyStream.of_onGrp s s.me fun _ => _).trans h1, h2⟩


/-- What the end of a lane instruction that wrote only vector slots leaves. -/
theorem VectorOnly.laneDone {x y : Group} (h : VectorOnly x y) (b : Bool) :
    (y.laneDone b) = { x with v := y.v, vPoison := y.vPoison, tr := y.tr, lstall := 0, spawned := none,
                              chkint := if b then x.chkint ||| 1 else x.chkint,
                              path := x.path.map fun p => { p with lpc := p.lpc + 12 } } := by
  rw [h]
  cases b <;> rfl

theorem vecWrote_laneDone {x y z : Group} {m : BitVec 16} {r n : Nat} {val : Nat → Nat} (h : Claims.VecWrote y z m r n val)
    (hv : y.v = x.v) (hp : y.vPoison = x.vPoison) (b : Bool) : Claims.VecWrote x (z.laneDone b) m r n val := by
  intro t q ht
  have hraw : y.vRaw t q = x.vRaw t q := by simp [Group.vRaw, hv]
  have hbad : y.vBad t q = x.vBad t q := by simp [Group.vBad, hp]
  have := h t q ht
  rw [hraw, hbad] at this
  cases b <;> exact this

/-- 02 R38, 03 R75: the result of a long-latency instruction, of any operands. -/
theorem laneLong_of (i : Instr) (s : State) (f : LaneWord) (srcs : List (Nat × Nat)) (dst : Nat × Nat) (cost : Nat)
    (res : Group → Nat → Nat × Bool) (hx : exec i s = .next (s.laneLong f srcs dst cost res))
    (hres : ∀ y, LongOnly (Claims.own s) y → res y = res (Claims.own s)) :
    Claims.LaneLong i s f srcs dst (res (Claims.own s)) := by
  intro hr ho x1 flag hi
  obtain ⟨h1, h2⟩ := State.laneLong_ready s f srcs dst cost res hr ho hi hres
  obtain ⟨⟨he, -⟩, hpend⟩ := Group.longOnly_issueLL hi
  have hl : (Claims.own s).longIssued x1 flag (Claims.acting s f) = _ := Group.pendLL_eq ..
  have hw := Group.vecWrote_vResults ((Claims.own s).longIssued x1 flag (Claims.acting s f)) f (Claims.acting s f) dst.1 dst.2
    fun l => (res (Claims.own s) l).1
  have hd := VectorOnly.laneDone (Group.vectorOnly_vResults ((Claims.own s).longIssued x1 flag (Claims.acting s f)) f
    (Claims.acting s f) dst.1 dst.2 fun l => (res (Claims.own s) l).1) ((bodyLanes f (Claims.acting s f)).any fun l => (res (Claims.own s) l).2)
  rw [← h2] at hd
  refine ⟨_, hx, ⟨h1, ?_, ?_, fun k => ?_, ?_⟩, fun r => ?_, ?_, ?_⟩
  · rw [hd, hl, he]
  · rw [hd, hl, he]
  · have hk := Group.flag_lower x1 flag k
    rw [hd, hl]
    by_cases hm : Claims.acting s f = 0#16
    · simpa [hm, Group.flag] using hk
    · simp [hm, Group.flag]
  · rw [hd, hl, hpend]
    simp
  · rw [hd, hl, he]; exact ⟨rfl, rfl⟩
  · rw [h2]
    exact vecWrote_laneDone hw (by rw [hl, he]) (by rw [hl, he]) _
  · rw [Claims.LaneConsumed, hd, hl, he]

end Sys2Proof.Machine
end

