-- ==== Sys2Proof/Proofs/LongLatencyResults.lean ====
section
/-! SUPPORT. The flags of long-latency instructions, that they complete, and what they compute (02 R38, 03 R75, 06 R148, 07 R190,
R191). -/

namespace Sys2Proof.Machine

/-! ## Flags of long-latency instructions (03 R75) -/

/-- An instruction whose flag stands below 63 issues, and raises it. -/
theorem Group.raiseAtIssue_some (x : Group) {k : Nat} (h : x.flag k < 63) :
    x.raiseAtIssue (some k) = some (x.raiseBy k 1, some k) := by
  simp [Group.raiseAtIssue, h]

theorem Group.raiseAtIssue_full (x : Group) {k : Nat} (h : 63 ≤ x.flag k) : x.raiseAtIssue (some k) = none := by
  simp [Group.raiseAtIssue, h]

theorem Group.flag_raiseBy (x : Group) (k n j : Nat) : (x.raiseBy k n).flag j = if j = k then x.flag k + n else x.flag j := by
  by_cases h : j = k
  · simp [Group.raiseBy, Group.flag, h]
  · simp [Group.raiseBy, Group.flag, h, KMap.read_write_other 0 h]

/-- The count that a slot has left from its enqueue: none once it was reached. -/
theorem find?_unreached (l : List (Nat × Nat)) (i : Nat) (b : Bool) :
    (l.find? fun c => c.1 = i && !b) = if b then none else l.find? fun c => c.1 = i := by
  cases b <;> simp

/-- The first execution of a counted slot uses the flag raised at enqueue. -/
theorem Group.issueLL_counted {x : Group} {f : LaneWord} {r : ClauseRun} {a : Word} {h : ClauseHeader} (hr : x.run = some r)
    (hc : x.curClause = some (a, h)) (hin : x.inCall = false) {c : Nat × Nat}
    (hf : (r.entry.counts.find? fun c => c.1 = (x.slot - a).toNat / 12) = some c) (hn : (x.slot - a).toNat / 12 ∉ r.reached) :
    x.issueLL f = some ({ x with run := some { r with reached := r.reached ++ [(x.slot - a).toNat / 12] } }, some c.2) := by
  have hn' : r.reached.contains ((x.slot - a).toNat / 12) = false := by simpa using hn
  simp only [Group.issueLL, hr, hc, hin, find?_unreached, hn', hf, Bool.false_eq_true, if_false]

/-- Any other execution raises the flag of the header's set. -/
theorem Group.issueLL_later {x : Group} {f : LaneWord} {r : ClauseRun} {a : Word} {h : ClauseHeader} (hr : x.run = some r)
    (hc : x.curClause = some (a, h))
    (hl : x.inCall = true ∨ (r.entry.counts.find? fun c => c.1 = (x.slot - a).toNat / 12) = none ∨ (x.slot - a).toNat / 12 ∈ r.reached) :
    x.issueLL f = x.raiseAtIssue (headerFlag h (f.md.getLsbD 3)) := by
  cases hin : x.inCall
  · have hnone : (if r.reached.contains ((x.slot - a).toNat / 12) = true then none
        else r.entry.counts.find? fun c => c.1 = (x.slot - a).toNat / 12) = none := by
      rcases hl with h | h | h
      · simp [hin] at h
      · rw [h, ite_self]
      · rw [if_pos (by simpa using h)]
    simp only [Group.issueLL, hr, hc, hin, find?_unreached, hnone, Bool.false_eq_true, if_false]
  · simp only [Group.issueLL, hr, hc, hin, if_true]

/-- An instruction issues unless the flag of its header's set stands at 63. -/
theorem Group.issueLL_isSome (x : Group) (f : LaneWord)
    (h : ∀ a h k, x.curClause = some (a, h) → headerFlag h (f.md.getLsbD 3) = some k → x.flag k < 63) :
    ∃ y flag, x.issueLL f = some (y, flag) := by
  have hraise : ∀ a hd, x.curClause = some (a, hd) → ∃ y flag, x.raiseAtIssue (headerFlag hd (f.md.getLsbD 3)) = some (y, flag) := by
    intro a hd hc
    cases hk : headerFlag hd (f.md.getLsbD 3) with
    | none => exact ⟨x, none, rfl⟩
    | some k => exact ⟨_, _, x.raiseAtIssue_some (h a hd k hc hk)⟩
  unfold Group.issueLL
  split
  · rename_i r a hd hr hc
    dsimp only
    split
    · exact hraise a hd hc
    · split
      · exact ⟨_, _, rfl⟩
      · exact hraise a hd hc
  · exact ⟨x, none, rfl⟩

theorem longLatencyFlags : Claims.LongLatencyFlags := by
  intro x f r a h hr hc
  refine ⟨fun c hin hf hn => Group.issueLL_counted hr hc hin hf hn, fun hl => ?_⟩
  have hi := Group.issueLL_later (f := f) hr hc hl
  unfold headerFlag at hi
  split <;> rename_i hk
  · rw [hi, hk]; rfl
  · rename_i k
    rw [hi, hk]
    exact ⟨fun hfull => x.raiseAtIssue_full hfull, fun hlow => ⟨_, x.raiseAtIssue_some hlow, x.flag_raiseBy k 1⟩⟩

/-! ## Completion -/

/-- A long-latency instruction runs wherever its registers are ready and its flag can be raised. -/
theorem longCompletes_of (i : Instr) (s : State) (f : LaneWord) (srcs : List (Nat × Nat)) (dst : Nat × Nat) (cost : Nat)
    (res : Group → Nat → Nat × Bool) (hx : exec i s = .next (s.laneLong f srcs dst cost res))
    (hres : ∀ y, LongOnly (Claims.own s) y → res y = res (Claims.own s)) : Claims.LongCompletes i s f srcs dst := by
  intro hr ho hflag
  obtain ⟨x1, flag, hi⟩ := Group.issueLL_isSome (Claims.own s) f hflag
  obtain ⟨t, ht, ⟨hos, hpath, hpc, -, -⟩, hnone, hvec, -⟩ := laneLong_of i s f srcs dst cost res hx hres hr ho x1 flag hi
  exact ⟨t, ht, hpath, hpc, ⟨_, hvec⟩, hnone, hos⟩

/-- What one source gives does not depend on what issuing touches. -/
theorem LongOnly.calc1 {x y : Group} (h : LongOnly x y) (f : LaneWord) (ty : BitVec 4) (fn : Nat → Nat) :
    calc1 f ty fn y = calc1 f ty fn x := by
  unfold Machine.calc1
  rw [(h.srcs f 1 ty).1]

/-- The same of two sources. -/
theorem LongOnly.calc2 {x y : Group} (h : LongOnly x y) (f : LaneWord) (ty : BitVec 4) (fn : Nat → Nat → Nat) :
    calc2 f ty ty fn y = calc2 f ty ty fn x := by
  unfold Machine.calc2
  rw [(h.srcs f 2 ty).1, (h.srcs f 2 ty).2]

theorem longLatencyCompletes : Claims.LongLatencyCompletes := by
  intro s f
  have two : ∀ (i : Instr) (cost : Nat) (fn : Nat → Nat → Nat),
      exec i s = .next (s.laneLong f (regA f 2 f.ty ++ regB f 2 f.ty) (f.vd.toNat, wide f.ty) cost (calc2 f f.ty f.ty fn)) →
      Claims.LongCompletes i s f (regA f 2 f.ty ++ regB f 2 f.ty) (f.vd.toNat, wide f.ty) :=
    fun i cost fn hx => longCompletes_of i s f _ _ cost _ hx fun y hy => hy.calc2 f f.ty fn
  have one : ∀ (i : Instr) (fn : Nat → Nat), exec i s = .next (s.floatLong1 f fn) →
      Claims.LongCompletes i s f (regA f 1 f.ty) (f.vd.toNat, wide f.ty) :=
    fun i fn hx => longCompletes_of i s f _ _ _ _ hx fun y hy => hy.calc1 f f.ty fn
  constructor
  · simp only [List.forall_mem_cons, List.not_mem_nil, false_imp_iff, implies_true, and_true]
    exact ⟨two _ _ _ rfl, two _ _ _ rfl, two _ _ _ rfl⟩
  · simp only [List.forall_mem_cons, List.not_mem_nil, false_imp_iff, implies_true, and_true]
    exact ⟨one _ _ rfl, one _ _ rfl, one _ _ rfl, one _ _ rfl, one _ _ rfl, one _ _ rfl, one _ _ rfl⟩

/-! ## Results (06 R148, 07 R190, R191) -/

theorem intVal_eq_asInt (ty : BitVec 4) (x : Nat) : intVal ty x = Claims.asInt ty x := by
  unfold intVal Claims.asInt sext
  by_cases hs : tySigned ty
  · simp only [hs, if_true, true_and]
    by_cases hx : x % 2 ^ tyWidth ty < 2 ^ (tyWidth ty - 1)
    · rw [if_pos hx, if_neg (by omega)]
    · rw [if_neg hx, if_pos (by omega)]
  · simp [hs]

theorem laneQuot_eq (ty : BitVec 4) (a b : Nat) :
    laneQuot ty a b = if b % 2 ^ tyWidth ty = 0 then 2 ^ tyWidth ty - 1
      else ((Claims.asInt ty a).tdiv (Claims.asInt ty b) % 2 ^ tyWidth ty).toNat := by
  simp only [laneQuot, wrap, intVal_eq_asInt]

theorem laneRem_eq (ty : BitVec 4) (a b : Nat) :
    laneRem ty a b = if b % 2 ^ tyWidth ty = 0 then a
      else ((Claims.asInt ty a - (Claims.asInt ty a).tdiv (Claims.asInt ty b) * Claims.asInt ty b) % 2 ^ tyWidth ty).toNat := by
  simp only [laneRem, wrap, intVal_eq_asInt, Int.tmod_def, Int.mul_comm]

/-- The results of a long-latency instruction of one source. -/
theorem laneLong_one (i : Instr) (s : State) (f : LaneWord) (fn : Nat → Nat) (hx : exec i s = .next (s.floatLong1 f fn)) :
    Claims.LaneLong i s f (regA f 1 f.ty) (f.vd.toNat, wide f.ty)
      fun l => (fn ((Claims.own s).srcA f 1 f.ty l).1, ((Claims.own s).srcA f 1 f.ty l).2) :=
  laneLong_of i s f _ _ _ (calc1 f f.ty fn) hx fun _ hy => hy.calc1 f f.ty fn

/-- The results of a long-latency instruction of two sources. -/
theorem laneLong_two (i : Instr) (s : State) (f : LaneWord) (cost : Nat) (fn : Nat → Nat → Nat)
    (hx : exec i s = .next (s.laneLong f (regA f 2 f.ty ++ regB f 2 f.ty) (f.vd.toNat, wide f.ty) cost (calc2 f f.ty f.ty fn))) :
    Claims.LaneLong i s f (regA f 2 f.ty ++ regB f 2 f.ty) (f.vd.toNat, wide f.ty)
      fun l => (fn ((Claims.own s).srcA f 2 f.ty l).1 ((Claims.own s).srcB f 2 f.ty l).1,
        ((Claims.own s).srcA f 2 f.ty l).2 || ((Claims.own s).srcB f 2 f.ty l).2) :=
  laneLong_of i s f _ _ cost (calc2 f f.ty f.ty fn) hx fun _ hy => hy.calc2 f f.ty fn

/-- 07 R190: the quotient of two patterns, rounded once. -/
def floatQuot (f : LaneWord) (p q : Nat) : Nat :=
  (fmtOf f.ty).round (rmOf f) false (FVal.div ((fmtOf f.ty).value p) ((fmtOf f.ty).value q))

/-- 07 R190: the square root of a pattern, rounded once. -/
def floatRoot (f : LaneWord) (p : Nat) : Nat :=
  (fmtOf f.ty).round (rmOf f) false (FVal.sqrt (fmtOf f.ty).fb ((fmtOf f.ty).value p))

theorem floatQuot_nan (f : LaneWord) {p q : Nat} (h : (fmtOf f.ty).value p = .nan ∨ (fmtOf f.ty).value q = .nan) :
    floatQuot f p q = (fmtOf f.ty).nan := by
  unfold floatQuot
  rcases h with h | h <;> rw [h]
  · rfl
  · cases (fmtOf f.ty).value p <;> rfl

theorem laneDivisionAndRoots : Claims.LaneDivisionAndRoots := by
  intro s f
  refine ⟨fun _ => ?_, fun _ => ?_, ⟨floatQuot f, laneLong_two _ s f _ _ rfl, fun p q => ⟨floatQuot_nan f, ?_, ?_, ?_⟩⟩,
    ⟨floatRoot f, laneLong_one _ s f _ rfl, fun p => ⟨?_, ?_, ?_, ?_⟩⟩, ⟨fRcp, laneLong_one _ s f _ rfl, ?_⟩,
    ⟨fRsq, laneLong_one _ s f _ rfl, ?_⟩, ⟨fExp2, laneLong_one _ s f _ rfl, ?_⟩, ⟨fLog2, laneLong_one _ s f _ rfl, ?_⟩,
    ⟨fSin, laneLong_one _ s f _ rfl, ?_⟩, ⟨fCos, laneLong_one _ s f _ rfl, ?_⟩⟩
  · simpa only [laneQuot_eq] using laneLong_two (.vdiv f) s f _ (laneQuot f.ty) rfl
  · simpa only [laneRem_eq] using laneLong_two (.vrem f) s f _ (laneRem f.ty) rfl
  · intro sg n e sh m h hp hq
    simp only [floatQuot, hp, hq, FVal.div]
    refine ⟨fun hn hm => ?_, fun hn hm => ?_, fun hm => ?_⟩
    · simp [hn, hm, Fmt.round]
    · simp [hn, hm, Fmt.round, Fmt.over]
    · simp [hm, Fmt.round, rmOf]
  · intro sg n e sh hp hq
    simp [floatQuot, hp, hq, FVal.div, Fmt.round, Fmt.roundFin]
  · intro sg sh hp hq
    simp [floatQuot, hp, hq, FVal.div, Fmt.round]
  · intro hp
    simp [floatRoot, hp, FVal.sqrt, Fmt.round]
  · intro hp
    simp [floatRoot, hp, FVal.sqrt, Fmt.round, Fmt.over]
  · intro hp
    simp [floatRoot, hp, FVal.sqrt, Fmt.round]
  · intro sg n e hp
    refine ⟨fun hn => ?_, fun hn hs => ?_⟩
    · simp [floatRoot, hp, hn, FVal.sqrt, Fmt.round, Fmt.roundFin]
    · simp [floatRoot, hp, hn, hs, FVal.sqrt, Fmt.round]
  all_goals decide +kernel

/-- Settles O18: the results are written at issue over the stream that the flag's count left, whatever the operands. -/
theorem longLatencyInstructions : Obligations.LongLatencyInstructions :=
  ⟨laneDivisionAndRoots, longLatencyFlags, longLatencyCompletes⟩

end Sys2Proof.Machine
end

