-- ==== Sys2Proof/Proofs/Spawning.lean ====
section
/-! SUPPORT. Threads placed in bins, and bins that launch a group (02 R44, R45, 06 R171). -/

namespace Sys2Proof.Machine

/-! ## One stream changed -/

theorem OnlyStream.grp_other {g h : Nat} {s t : State} (k : OnlyStream g s t) (n : h ≠ g) : t.grp h = s.grp h := by
  obtain ⟨-, hg, -, -⟩ := k
  rw [State.grp, State.grp, hg, KMap.read_put_other _ n]

theorem OnlyStream.tm {g : Nat} {s t : State} (k : OnlyStream g s t) (n : Nat) : t.tm n = s.tm n := by
  obtain ⟨ha, -, -, -⟩ := k
  have h : t.apart.teams = s.apart.teams := congrArg State.teams ha
  exact congrArg (KMap.read {} n) h

/-- The consumption of poison and the move to the next slot change the one stream. -/
theorem OnlyStream.of_laneNext (s : State) (b : Bool) (f : LaneWord) (m : BitVec 16) (cost : Nat) :
    OnlyStream s.me s ((s.pconsIf b).laneNext f m cost) := by
  cases b with
  | false => exact ((OnlyStream.of_onGrp ..).count _ _ _).count _ _ _
  | true => exact OnlyStream.laneNext ((OnlyStream.of_onGrp ..).count _ _ _) (State.me_pconsIf s true) ..

theorem State.onTm_onTm (s : State) (t : Nat) (f h : Team → Team) : (s.onTm t f).onTm t h = s.onTm t fun y => h (f y) := by
  simp [State.onTm, State.setTm, State.tm]

/-! ## Bins -/

/-- A bin of an entry with more threads; the first thread of an empty one starts its timer. -/
def SpawnBin.add (b : SpawnBin) (e : Word) (ts : List (List (BitVec 32))) : SpawnBin :=
  { entry := e, threads := b.threads ++ ts, age := if b.threads = [] then 0 else b.age }

theorem SpawnBin.add_add (b : SpawnBin) (e : Word) (t : List (BitVec 32)) (ts : List (List (BitVec 32))) :
    (b.add e [t]).add e ts = b.add e (t :: ts) := by
  simp [SpawnBin.add]

/-- The bin that a team has at a number, empty where it has none. -/
def Team.binAt (y : Team) (e : Word) (i : Nat) : SpawnBin := (KMap.find i y.bins).getD { entry := e, threads := [] }

/-- The team with a bin set. -/
def Team.withBin (y : Team) (i : Nat) (b : SpawnBin) : Team := { y with bins := KMap.put i b y.bins }

@[simp] theorem Team.binAt_withBin (y : Team) (e : Word) (i : Nat) (b : SpawnBin) : (y.withBin i b).binAt e i = b := by
  simp [Team.binAt, Team.withBin]

theorem Team.withBin_withBin (y : Team) (i : Nat) (b c : SpawnBin) : (y.withBin i b).withBin i c = y.withBin i c := by
  simp [Team.withBin]

/-- A search that a bin meets, and that no bin listed elsewhere meets before it, finds it. -/
theorem find?_put_of_pos {p : Nat × SpawnBin → Bool} (i : Nat) (b : SpawnBin) (hb : p (i, b)) (m : KMap SpawnBin)
    (h : ∀ c, m.find? p = some c → c.1 = i) : (KMap.put i b m).find? p = some (i, b) := by
  induction m with
  | nil => simp [KMap.put, hb]
  | cons e m ih =>
    obtain ⟨j, w⟩ := e
    unfold KMap.put
    split
    · simp [hb]
    · split
      · simp [hb]
      · rename_i hj
        cases hp : p (j, w) with
        | true => exact absurd (h (j, w) (by simp [hp])) hj
        | false =>
          rw [List.find?_cons_of_neg (by simp [hp])]
          exact ih fun c hc => h c (by rw [List.find?_cons_of_neg (by simp [hp])]; exact hc)

/-- 02 R44: the bin of an entry, once it holds a thread, is the bin of that entry. -/
theorem Team.binFor_withBin {y : Team} {e : Word} {i : Nat} (h : y.binFor e = some i) {b : SpawnBin} (he : b.entry = e)
    (hb : b.threads ≠ []) : (y.withBin i b).binFor e = some i := by
  have hp : ∀ c, (y.bins.find? fun b => b.2.entry = e && !b.2.threads.isEmpty) = some c → c.1 = i := by
    intro c hc
    simp only [Team.binFor, hc, Option.some.injEq] at h
    exact h
  simp [Team.binFor, Team.withBin, find?_put_of_pos i b (by simp [he, hb]) y.bins hp]

theorem Team.binTimeOut_add {y : Team} {b : SpawnBin} {e : Word} {ts : List (List (BitVec 32))}
    (h : y.binTimeOut b = false) : y.binTimeOut (b.add e ts) = false := by
  simp only [Team.binTimeOut, SpawnBin.add] at *
  by_cases hb : b.threads = []
  · simp [hb]
  · simp_all

/-! ## Threads placed -/

/-- The state with threads added to a bin of a team. -/
def State.addThreads (s : State) (t i : Nat) (e : Word) (ts : List (List (BitVec 32))) : State :=
  s.onTm t fun y => y.withBin i ((y.binAt e i).add e ts)

theorem State.addThreads_addThreads (s : State) (t i : Nat) (e : Word) (x : List (BitVec 32)) (ts : List (List (BitVec 32))) :
    (s.addThreads t i e [x]).addThreads t i e ts = s.addThreads t i e (x :: ts) := by
  simp [State.addThreads, State.onTm_onTm, SpawnBin.add_add, Team.withBin_withBin]

/-- The bin that an entry's next thread goes to, where it is not due by its timer while no group number is free. -/
def State.takesThread (s : State) (t i : Nat) (e : Word) : Prop :=
  (s.tm t).binFor e = some i ∧ ((s.tm t).binTimeOut ((s.tm t).binAt e i) = false ∨ (s.freeGroup t).isSome = true)

@[simp] theorem State.tm_addThreads (s : State) (t i : Nat) (e : Word) (ts : List (List (BitVec 32))) :
    (s.addThreads t i e ts).tm t = (s.tm t).withBin i (((s.tm t).binAt e i).add e ts) := State.tm_onTm ..

theorem State.takesThread.add {s : State} {t i : Nat} {e : Word} (h : s.takesThread t i e) {ts : List (List (BitVec 32))} (hts : ts ≠ []) :
    (s.addThreads t i e ts).takesThread t i e := by
  obtain ⟨hi, hf⟩ := h
  unfold State.takesThread
  rw [State.tm_addThreads, Team.binAt_withBin]
  refine ⟨Team.binFor_withBin hi rfl (by simp [SpawnBin.add, hts]), hf.imp (fun h => ?_) id⟩
  exact Team.binTimeOut_add (y := (s.tm t).withBin i _) h

/-- 02 R44: a thread goes into the bin of its entry while the bin has a place and need not launch. -/
theorem State.placeThread_eq (s : State) {t i : Nat} {e : Word} (args : List (BitVec 32)) (h : s.takesThread t i e)
    (hl : ((s.tm t).binAt e i).threads.length < 16) :
    s.placeThread t e args =
      some (if ((s.tm t).binAt e i).threads.length = 15 then (s.addThreads t i e [args]).launchBin t i else s.addThreads t i e [args]) := by
  obtain ⟨hi, hf⟩ := h
  have hdue : ((s.tm t).binTimeOut ((s.tm t).binAt e i) && (s.freeGroup t).isNone) = false := by
    rcases hf with h | h
    · rw [h, Bool.false_and]
    · rw [Option.isNone_eq_false_iff.2 h, Bool.and_false]
  have hfull : decide (((s.tm t).binAt e i).threads.length ≥ 16) = false := by simpa using hl
  unfold Team.binAt at *
  simp only [State.placeThread, hi, hfull, hdue, Bool.or_self, Bool.false_eq_true, if_false, SpawnBin.add, Team.withBin, Team.binAt,
    State.addThreads, State.onTm, List.isEmpty_iff, List.length_append, List.length_singleton, Nat.reduceEqDiff]
  congr

/-- Threads that leave their bin short of sixteen are all placed, in order. -/
theorem State.placeAll_eq (t i : Nat) (e : Word) (args : Nat → List (BitVec 32)) (ls : List Nat) (l : Nat) (s : State) (done : List Nat)
    (h : s.takesThread t i e) (hl : ((s.tm t).binAt e i).threads.length + (l :: ls).length ≤ 15) :
    s.placeAll t e args done (l :: ls) = (done ++ l :: ls, true, s.addThreads t i e ((l :: ls).map args)) := by
  induction ls generalizing l s done with
  | nil =>
    rw [List.length_singleton] at hl
    simp [State.placeAll, s.placeThread_eq (args l) h (by omega), show ((s.tm t).binAt e i).threads.length ≠ 15 by omega]
  | cons k ls ih =>
    rw [List.length_cons, List.length_cons] at hl
    have hl' : (((s.addThreads t i e [args l]).tm t).binAt e i).threads.length + (k :: ls).length ≤ 15 := by
      simp [SpawnBin.add]
      omega
    have hne : ((s.tm t).binAt e i).threads.length ≠ 15 := by omega
    rw [State.placeAll, s.placeThread_eq (args l) h (by omega), if_neg hne]
    simp only
    rw [ih k _ (done ++ [l]) (h.add (by simp)) hl', State.addThreads_addThreads]
    simp

end Sys2Proof.Machine
end

