-- ==== Sys2Proof/Proofs/BinLaunch.lean ====
section
/-! SUPPORT. A bin launches a group whose lanes hold its threads (02 R45). -/

namespace Sys2Proof.Machine

/-- The threads of a bin in the lanes of a group, word by word. -/
def Group.takeThreads (x : Group) (ths : List (List (BitVec 32))) : Group :=
  ths.zipIdx.foldl (fun x e => e.1.zipIdx.foldl (fun x w => x.vSet e.2 w.2 w.1) x) x

theorem Group.vectorOnly_takeThreads (x : Group) (ths : List (List (BitVec 32))) : VectorOnly x (x.takeThreads ths) :=
  .foldl _ (fun _ _ => .foldl _ (fun _ _ => Group.vectorOnly_vSet ..) _ _) _ _

/-- The slots of lane `u` after the words of one thread were put in lane `l`, from register `k` on. -/
theorem vRaw_foldl_words {l u : Nat} (hl : l < 16) (hu : u < 16) (q : Nat) (th : List (BitVec 32)) (k : Nat) (x : Group) :
    ((th.zipIdx k).foldl (fun x w => x.vSet l w.2 w.1) x).vRaw u q =
      if u = l ∧ k ≤ q then (th[q - k]?).getD (x.vRaw u q) else x.vRaw u q := by
  induction th generalizing k x with
  | nil => simp
  | cons w th ih =>
    rw [List.zipIdx_cons, List.foldl_cons, ih, Group.vRaw_vSet _ _ _ _ hl hu]
    by_cases hq : u = l ∧ q = k
    · obtain ⟨rfl, rfl⟩ := hq
      simp
    · rw [if_neg hq]
      by_cases hk : u = l ∧ k ≤ q
      · obtain ⟨rfl, hk⟩ := hk
        obtain ⟨d, rfl⟩ : ∃ d, q = k + 1 + d := ⟨q - (k + 1), by omega⟩
        simp [show k + 1 + d - k = d + 1 by omega, show k ≤ k + 1 + d by omega]
      · rw [if_neg hk, if_neg (by omega)]

/-- The slots of a lane after threads were put in lanes from `k` on. -/
theorem vRaw_foldl_threads {u : Nat} (hu : u < 16) (q : Nat) (ths : List (List (BitVec 32))) (k : Nat) (hk : k + ths.length ≤ 16) (x : Group) :
    ((ths.zipIdx k).foldl (fun x e => e.1.zipIdx.foldl (fun x w => x.vSet e.2 w.2 w.1) x) x).vRaw u q =
      if k ≤ u then ((ths[u - k]?).bind fun th => th[q]?).getD (x.vRaw u q) else x.vRaw u q := by
  induction ths generalizing k x with
  | nil => simp
  | cons th ths ih =>
    rw [List.length_cons] at hk
    rw [List.zipIdx_cons, List.foldl_cons, ih (k + 1) (by omega), vRaw_foldl_words (show k < 16 by omega) hu]
    obtain h | rfl | h := Nat.lt_trichotomy u k
    · rw [if_neg (by omega), if_neg (by omega), if_neg (by omega)]
    · simp
    · obtain ⟨d, rfl⟩ : ∃ d, u = k + 1 + d := ⟨u - (k + 1), by omega⟩
      simp [show k + 1 + d - k = d + 1 by omega, show k ≤ k + 1 + d by omega, show k + 1 + d ≠ k by omega]

theorem Group.vRaw_takeThreads (x : Group) (ths : List (List (BitVec 32))) (h : ths.length ≤ 16) {l q : Nat} {th : List (BitVec 32)}
    {w : BitVec 32} (hl : ths[l]? = some th) (hq : th[q]? = some w) : (x.takeThreads ths).vRaw l q = w := by
  have hlt : l < ths.length := (List.getElem?_eq_some_iff.1 hl).1
  rw [Group.takeThreads, vRaw_foldl_threads (by omega) q ths 0 (by omega)]
  simp [hl, hq]

theorem maskOf_range : ∀ n, n ≤ 16 → maskOf (List.range n) = BitVec.ofNat 16 (2 ^ n - 1) := by
  intro n hn
  obtain ⟨i, rfl⟩ : ∃ i : Fin 17, i.val = n := ⟨⟨n, by omega⟩, rfl⟩
  revert i
  decide

/-- The group that a bin of a team launches (02 R45, R52). -/
def State.binGroup (s : State) (t n : Nat) (b : SpawnBin) : Group :=
  (startGroup t n b.entry (s.tm t).arg (maskOf (List.range b.threads.length)) s.now).takeThreads b.threads

/-- 02 R45: a bin with threads launches its group under the lowest free number, and is then empty. -/
theorem State.launchBin_eq (s : State) {t i n : Nat} {b : SpawnBin} (hb : KMap.find i (s.tm t).bins = some b) (hn : s.freeGroup t = some n)
    (hne : b.threads ≠ []) :
    s.launchBin t i =
      ((s.freshStream t n).onTm t fun y => { y with bins := KMap.del i y.bins }).setGrp (streamKey t n) (s.binGroup t n b) := by
  have he : b.threads.isEmpty = false := by simpa using hne
  simp only [State.launchBin, hb, hn, he, Bool.false_eq_true, if_false]
  rfl

/-- What a launch leaves of memory, of the bin and of the other streams. -/
theorem State.launchBin_frame (s : State) {t i n : Nat} {b : SpawnBin} (hb : KMap.find i (s.tm t).bins = some b) (hn : s.freeGroup t = some n)
    (hne : b.threads ≠ []) :
    KMap.find i ((s.launchBin t i).tm t).bins = none ∧ (s.launchBin t i).grp (streamKey t n) = s.binGroup t n b ∧
      (∀ a, (s.launchBin t i).byteAt a = s.byteAt a) ∧ ∀ h, h ≠ streamKey t n → (s.launchBin t i).grp h = s.grp h := by
  rw [s.launchBin_eq hb hn hne]
  refine ⟨?_, State.grp_setGrp .., fun a => rfl, fun h hh => State.grp_setGrp_other _ hh _⟩
  have htm : ∀ (u : State) x, (u.setGrp (streamKey t n) x).tm t = u.tm t := fun _ _ => rfl
  rw [htm, State.tm_onTm, KMap.find_del_same]

/-- What a launched group starts with. -/
theorem State.binGroup_eq (s : State) (t n : Nat) (b : SpawnBin) (h : b.threads.length ≤ 16) :
    (s.binGroup t n b).pc = b.entry ∧ (s.binGroup t n b).live = BitVec.ofNat 16 (2 ^ b.threads.length - 1) ∧
      (s.binGroup t n b).sGet 1 = (s.tm t).arg := by
  have hv := Group.vectorOnly_takeThreads (startGroup t n b.entry (s.tm t).arg (maskOf (List.range b.threads.length)) s.now) b.threads
  unfold VectorOnly at hv
  unfold State.binGroup
  rw [hv]
  refine ⟨rfl, maskOf_range _ h, ?_⟩
  simp [Group.sGet, startGroup]

end Sys2Proof.Machine
end

