-- ==== Sys2Proof/Proofs/LaneThreads.lean ====
section
/-! SUPPORT. `vspawn` and `vlabort` (06 R171, 08 R208, R211). -/

namespace Sys2Proof.Machine

/-! ## `vspawn` -/

/-- The four words of the thread of a lane, and whether one of them is poisoned. -/
def Group.threadArg (x : Group) (f : LaneWord) (l j : Nat) : Nat × Bool := x.srcReg 0#4 l (f.va.toNat + j)

/-- A clean register read as a 32-bit word. -/
theorem Group.srcReg_word {x : Group} {l r : Nat} (h : x.vBad l r = false) : x.srcReg 0#4 l r = ((x.vRaw l r).toNat, false) := by
  simp [Group.srcReg, tyPair, h]

/-- 06 R171: `vspawn` outside `try` of an aligned entry, none of its lanes placed yet. -/
theorem State.vspawn_eq (s : State) (f : LaneWord) {e : Word}
    (he : e = (Claims.own s).cap (f.vb.toNat % 16) + 4 * f.imm.signExtend 64) (hr : Claims.LaneReady s f [(f.va.toNat, 4)])
    (ht : (Claims.own s).tr = none) (ha : e.toNat % 4 = 0) (hs : (Claims.own s).spawned = none) {s' : State}
    (hp : s.placeAll (keyTeam s.me) e (fun l => (List.range 4).map fun j => BitVec.ofNat 32 ((Claims.own s).threadArg f l j).1) []
      (lanes (Claims.acting s f)) = (lanes (Claims.acting s f), true, s')) :
    execVspawn f s = .next ((s'.pconsIf ((lanes (Claims.acting s f)).any fun l =>
      (List.range 4).any fun j => ((Claims.own s).threadArg f l j).2)).laneNext f (Claims.acting s f) 1) := by
  have hin : (s.grp s.me).inTry = false := by
    rw [Group.inTry, show (s.grp s.me).tr = none from ht]
    rfl
  have hpl : (s.grp s.me).placedLanes = 0 := by
    have hs' : (s.grp s.me).spawned = none := hs
    simp [Group.placedLanes, hs']
  have hm : Claims.acting s f &&& ~~~ (0 : BitVec 16) = Claims.acting s f := BitVec.and_allOnes
  unfold execVspawn
  rw [s.laneBody_ready f _ _ hr]
  subst he
  simp only [Claims.own, Group.threadArg] at hp ha ⊢
  simp only [hin, Bool.false_eq_true, if_false, ha, ne_eq, not_true_eq_false, hpl, hm, hp, if_true]

/-- The stream at the end of `vspawn`: its lane PC at the next slot. -/
theorem State.path_laneNext (s : State) (b : Bool) (f : LaneWord) (m : BitVec 16) (cost : Nat) :
    (((s.pconsIf b).laneNext f m cost).grp s.me).path = (s.grp s.me).path.map fun p => { p with lpc := p.lpc + 12 } := by
  have hg := State.grp_laneNext (s.pconsIf b) f m cost
  rw [State.me_pconsIf, State.grp_pconsIf] at hg
  rw [hg]
  cases b <;> rfl

theorem spawning : Claims.Spawning := by
  intro s f l i x tm e args old hr ht ha hs hi
  have hold : (s.tm tm).binAt e i = old := rfl
  refine ⟨fun hne hlen hfree => ?_, fun hone hbad hlen n hn hk => ?_⟩
  · obtain ⟨l0, ls, hls⟩ := List.exists_cons_of_ne_nil hne
    have hp := State.placeAll_eq tm i e args ls l0 s [] ⟨hi, hold ▸ hfree⟩ (by rw [hold, ← hls]; exact hlen)
    rw [← hls, List.nil_append] at hp
    refine ⟨_, s.vspawn_eq f rfl hr ht ha hs hp, ?_⟩
    have hos := OnlyStream.of_laneNext (s.addThreads tm i e ((lanes (Claims.acting s f)).map args))
      ((lanes (Claims.acting s f)).any fun l => (List.range 4).any fun j => ((Claims.own s).threadArg f l j).2) f (Claims.acting s f) 1
    obtain ⟨-, -, -, hmem⟩ := id hos
    refine ⟨?_, State.path_laneNext .., fun g hg => hos.grp_other hg, hmem⟩
    rw [hos.tm, State.tm_addThreads, hold]
    exact KMap.find_put_same ..
  · have hlen' : ((s.tm tm).binAt e i).threads.length = 15 := by rw [hold, hlen]
    have hpt := s.placeThread_eq (args l) (t := tm) (i := i) (e := e) ⟨hi, .inr (by rw [hn]; rfl)⟩ (by omega)
    rw [if_pos hlen'] at hpt
    have hp : s.placeAll tm e args [] [l] = ([l], true, (s.addThreads tm i e [args l]).launchBin tm i) := by
      simp only [State.placeAll, hpt, List.nil_append]
    have hbin : KMap.find i ((s.addThreads tm i e [args l]).tm tm).bins = some (old.add e [args l]) := by
      rw [State.tm_addThreads, hold]
      exact KMap.find_put_same ..
    have hlen16 : (old.add e [args l]).threads.length = 16 := by simp [SpawnBin.add, hlen]
    obtain ⟨hdel, hgrp, hbyte, hother⟩ := State.launchBin_frame _ hbin (n := n) hn (by simp [SpawnBin.add])
    obtain ⟨hpc, hlive, harg⟩ := State.binGroup_eq (s.addThreads tm i e [args l]) tm n _ (Nat.le_of_eq hlen16)
    have hme : ((s.addThreads tm i e [args l]).launchBin tm i).me = s.me := by
      rw [State.launchBin_eq _ hbin hn (by simp [SpawnBin.add])]
      rfl
    rw [← hone] at hp
    refine ⟨_, s.vspawn_eq f rfl hr ht ha hs hp, ?_⟩
    have hos := OnlyStream.of_laneNext ((s.addThreads tm i e [args l]).launchBin tm i)
      ((lanes (Claims.acting s f)).any fun l => (List.range 4).any fun j => ((Claims.own s).threadArg f l j).2) f (Claims.acting s f) 1
    rw [hme] at hos
    obtain ⟨-, -, -, hmem, -⟩ := id hos
    beta_reduce
    rw [hos.tm, hos.grp_other hk, hgrp]
    refine ⟨hdel, hpc, ?_, ?_, fun j hj => ?_, fun b => (hmem b).trans (hbyte b)⟩
    · rw [hlive, hlen16]; rfl
    · rw [harg, State.tm_addThreads]; rfl
    · refine Group.vRaw_takeThreads _ _ (Nat.le_of_eq hlen16) (th := args l) ?_ ?_
      · simp [SpawnBin.add, hlen]
      · have hb := hbad j hj
        simp [args, hj, Group.srcReg_word hb, x]

/-! ## `vlabort` -/

/-- Of a stream nothing changed but the path that runs and the mark-join stack. -/
def PathOnly (x y : Group) : Prop := y = { x with path := y.path, stack := y.stack }

theorem PathOnly.refl (x : Group) : PathOnly x x := rfl

theorem PathOnly.trans {x y z : Group} (h : PathOnly x y) (k : PathOnly y z) : PathOnly x z := by
  unfold PathOnly at *
  rw [k, h]

theorem PathOnly.slots {x y : Group} (h : PathOnly x y) (l r : Nat) : y.vRaw l r = x.vRaw l r ∧ y.vBad l r = x.vBad l r := by
  unfold PathOnly at h
  rw [h]
  exact ⟨rfl, rfl⟩

theorem Group.pathOnly_arrive (x : Group) : PathOnly x x.arrive := by
  unfold Group.arrive
  split <;> rfl

theorem Group.pathOnly_arriveOn (n : Nat) (x : Group) : PathOnly x (x.arriveOn n) := by
  induction n generalizing x with
  | zero => exact .refl x
  | succ n ih =>
    unfold Group.arriveOn
    dsimp only
    split
    · split
      · exact x.pathOnly_arrive.trans (ih _)
      · exact x.pathOnly_arrive
    · exact x.pathOnly_arrive

theorem Group.pathOnly_switchPath (x : Group) : PathOnly x x.switchPath := by
  unfold Group.switchPath
  split <;> rfl

/-- 06 R170: lanes that leave go out of the live mask, and otherwise only the paths change. -/
theorem Group.pathOnly_depart (x : Group) (m : BitVec 16) : PathOnly { x with live := x.live &&& ~~~ m } (x.depart m) := by
  have hl : PathOnly { x with live := x.live &&& ~~~ m } (x.leave m) := rfl
  unfold Group.depart
  dsimp only
  split
  · exact hl.trans (Group.pathOnly_arriveOn ..)
  · exact hl

@[simp] theorem Group.live_depart (x : Group) (m : BitVec 16) : (x.depart m).live = x.live &&& ~~~ m := by
  rw [show x.depart m = _ from x.pathOnly_depart m]

@[simp] theorem Group.v_depart (x : Group) (m : BitVec 16) : (x.depart m).v = x.v := by
  rw [show x.depart m = _ from x.pathOnly_depart m]

@[simp] theorem Group.vPoison_depart (x : Group) (m : BitVec 16) : (x.depart m).vPoison = x.vPoison := by
  rw [show x.depart m = _ from x.pathOnly_depart m]

/-- Writing a predicate leaves the rest of the stream. -/
theorem Group.kSet_eq (x : Group) (i : Nat) (m v : BitVec 16) : x.kSet i m v = { x with k := (x.kSet i m v).k } := by
  unfold Group.kSet
  split <;> rfl

theorem foldl_kSet_eq (y : TryState) (m : BitVec 16) (l : List Nat) (x : Group) :
    l.foldl (fun x i => x.kSet (i + 1) m (KMap.read 0 (i + 1) y.savedK)) x =
      { x with k := (l.foldl (fun x i => x.kSet (i + 1) m (KMap.read 0 (i + 1) y.savedK)) x).k } := by
  induction l generalizing x with
  | nil => rfl
  | cons i l ih => rw [List.foldl_cons, ih, Group.kSet_eq]

@[simp] theorem Group.live_restorePreds (x : Group) (y : TryState) (m : BitVec 16) : (x.restorePreds y m).live = x.live := by
  rw [Group.restorePreds, foldl_kSet_eq]

@[simp] theorem Group.v_restorePreds (x : Group) (y : TryState) (m : BitVec 16) : (x.restorePreds y m).v = x.v := by
  rw [Group.restorePreds, foldl_kSet_eq]

@[simp] theorem Group.vPoison_restorePreds (x : Group) (y : TryState) (m : BitVec 16) : (x.restorePreds y m).vPoison = x.vPoison := by
  rw [Group.restorePreds, foldl_kSet_eq]

/-- Of a stream only the vector slots of some lanes changed. -/
def LanesOnly (m : BitVec 16) (x y : Group) : Prop :=
  y = { x with v := y.v, vPoison := y.vPoison } ∧
    ∀ l r, l < 16 → ¬ m.getLsbD l → y.vRaw l r = x.vRaw l r ∧ y.vBad l r = x.vBad l r

theorem LanesOnly.refl (m : BitVec 16) (x : Group) : LanesOnly m x x := ⟨rfl, fun _ _ _ _ => ⟨rfl, rfl⟩⟩

theorem LanesOnly.trans {m : BitVec 16} {x y z : Group} (h : LanesOnly m x y) (k : LanesOnly m y z) : LanesOnly m x z := by
  obtain ⟨h1, h2⟩ := h
  obtain ⟨k1, k2⟩ := k
  refine ⟨by rw [k1, h1], fun l r hl hm => ?_⟩
  obtain ⟨ha, hb⟩ := h2 l r hl hm
  obtain ⟨ka, kb⟩ := k2 l r hl hm
  exact ⟨ka.trans ha, kb.trans hb⟩

theorem LanesOnly.foldl {m : BitVec 16} {α : Type} (f : Group → α → Group) (l : List α) (hf : ∀ x, ∀ a ∈ l, LanesOnly m x (f x a))
    (x : Group) : LanesOnly m x (l.foldl f x) := by
  induction l generalizing x with
  | nil => exact .refl m x
  | cons a l ih => exact (hf x a (by simp)).trans (ih (fun x b hb => hf x b (by simp [hb])) _)

/-- 08 R212: shadow lines give back the slots of the lanes named, and no others. -/
theorem Group.lanesOnly_restoreLines (x : Group) (y : TryState) (m : BitVec 16) : LanesOnly m x (x.restoreLines y m) := by
  refine .foldl _ _ (fun x e _ => .foldl _ _ (fun x t ht => ⟨rfl, fun l r hl hm => ?_⟩) x) x
  obtain ⟨htl, htm⟩ := mem_lanes.1 ht
  have hne : vkey l r ≠ vkey t e.1 := fun h => hm (((vkey_eq_iff hl htl).1 h).1 ▸ htm)
  exact ⟨KMap.read_write_other 0 hne _ x.v, KMap.read_write_other false hne _ x.vPoison⟩

/-- 08 R211: the `try` record once lanes are out of it. -/
def TryState.without (y : TryState) (m : BitVec 16) : TryState :=
  { y with
    buffer := y.buffer.map fun o => { o with accs := o.accs.filter fun a => a.lane ≥ 16 || !m.getLsbD a.lane }
    watch := y.watch.filter fun e => !m.getLsbD e.1
    aborted := y.aborted ||| m }

/-- 08 R208: `c.tryabort` of lanes rolled back. -/
def rolledStatus (m : BitVec 16) (code detail : Nat) : BitVec 32 := BitVec.ofNat 32 (0x10000 * m.toNat + 0x100 * detail + code)

/-- The stream in `try` with lanes rolled back. -/
def Group.rolled (x : Group) (y : TryState) (m : BitVec 16) (code detail : Nat) : Group :=
  let x1 := ((x.restoreLines y m).restorePreds y m).depart m
  { x1 with oplog := x1.oplog.map fun e => (e.1, e.2.withoutLanes m), tr := some (y.without m), tryabort := rolledStatus m code detail }

theorem Group.tr_rolled (x : Group) (y : TryState) (m : BitVec 16) (code detail : Nat) :
    (x.rolled y m code detail).tr = some (y.without m) := by
  rw [Group.rolled]

theorem Group.tryabort_rolled (x : Group) (y : TryState) (m : BitVec 16) (code detail : Nat) :
    (x.rolled y m code detail).tryabort = rolledStatus m code detail := by
  rw [Group.rolled]

theorem Group.live_rolled (x : Group) (y : TryState) (m : BitVec 16) (code detail : Nat) :
    (x.rolled y m code detail).live = x.live &&& ~~~ m := by
  obtain ⟨he, -⟩ := x.lanesOnly_restoreLines y m
  have hr : (x.restoreLines y m).live = x.live := by rw [he]
  simp only [Group.rolled, Group.live_depart, Group.live_restorePreds, hr]

theorem Group.slots_rolled (x : Group) (y : TryState) (m : BitVec 16) (code detail : Nat) {l : Nat} (r : Nat) (hl : l < 16)
    (hm : ¬ m.getLsbD l) :
    (x.rolled y m code detail).vRaw l r = x.vRaw l r ∧ (x.rolled y m code detail).vBad l r = x.vBad l r := by
  obtain ⟨-, hs⟩ := x.lanesOnly_restoreLines y m
  simpa only [Group.vRaw, Group.vBad, Group.rolled, Group.v_depart, Group.vPoison_depart, Group.v_restorePreds,
    Group.vPoison_restorePreds] using hs l r hl hm

/-- 08 R211: a rollback that leaves a live lane. -/
theorem State.rollLanes_eq (s : State) (g : Nat) (m : BitVec 16) (code detail : Nat) {y : TryState} (hy : (s.grp g).tr = some y)
    (hl : (s.grp g).live &&& ~~~ m ≠ 0) :
    s.rollLanes g m code detail = (s.onGrp g fun x => x.rolled y m code detail).count g 0x13 1 := by
  have hlive := Group.live_rolled (s.grp g) y m code detail
  have hne : (((s.onGrp g fun x => x.rolled y m code detail).count g 0x13 1).grp g).live ≠ 0 := by
    rw [State.grp_count, State.grp_onGrp, hlive]
    exact hl
  have he : s.rollLanes g m code detail =
      if (((s.onGrp g fun x => x.rolled y m code detail).count g 0x13 1).grp g).live = 0 then
        ((s.onGrp g fun x => x.rolled y m code detail).count g 0x13 1).abortGroup g 8 0
      else (s.onGrp g fun x => x.rolled y m code detail).count g 0x13 1 := by
    unfold State.rollLanes
    rw [hy]
    rfl
  rw [he, if_neg hne]

theorem State.laneBody_nil (s : State) (f : LaneWord) (body : BitVec 16 → State) : s.laneBody f [] body = body (Claims.acting s f) :=
  s.laneBody_ready f [] body ⟨by simp, by simp [Group.waitsFor]⟩

/-- The stream that `vlabort` leaves before it looks at its mode: its flag lowered, its lane PC at the next slot. -/
def State.abortIssued (s : State) (f : LaneWord) (x1 : Group) (flag : Option Nat) : State :=
  (s.setGrp s.me (x1.lower flag)).laneNext f (Claims.acting s f) 1

theorem OnlyStream.abortIssued (s : State) (f : LaneWord) (x1 : Group) (flag : Option Nat) :
    OnlyStream s.me s (s.abortIssued f x1 flag) :=
  OnlyStream.laneNext (OnlyStream.of_onGrp s s.me fun _ => x1.lower flag) rfl ..

theorem Group.lower_eq (x : Group) (flag : Option Nat) : x.lower flag = { x with flags := (x.lower flag).flags } := by
  cases flag <;> rfl

/-- What of the stream `vlabort` leaves as it was before it looks at its mode. -/
theorem State.grp_abortIssued (s : State) (f : LaneWord) {x1 : Group} {flag : Option Nat}
    (hi : (Claims.own s).issueLL f = some (x1, flag)) :
    let z := (s.abortIssued f x1 flag).grp s.me
    z.live = (Claims.own s).live ∧ z.path = (Claims.own s).path.map (fun p => { p with lpc := p.lpc + 12 }) ∧
      z.v = (Claims.own s).v ∧ z.vPoison = (Claims.own s).vPoison ∧ z.tr = (Claims.own s).tr := by
  obtain ⟨⟨he, -⟩, -⟩ := Group.longOnly_issueLL hi
  have hl := Group.lower_eq x1 flag
  have hlive : (x1.lower flag).live = x1.live := by rw [hl]
  have hpath : (x1.lower flag).path = x1.path := by rw [hl]
  have hv : (x1.lower flag).v = x1.v := by rw [hl]
  have hp : (x1.lower flag).vPoison = x1.vPoison := by rw [hl]
  have htr : (x1.lower flag).tr = x1.tr := by rw [hl]
  have hg := State.grp_laneNext (s.setGrp s.me (x1.lower flag)) f (Claims.acting s f) 1
  rw [show (s.setGrp s.me (x1.lower flag)).me = s.me from rfl, State.grp_setGrp] at hg
  unfold State.abortIssued
  rw [hg]
  dsimp only
  rw [hlive, hpath, hv, hp, htr, he]
  exact ⟨rfl, rfl, rfl, rfl, rfl⟩

/-- 08 R208, R211: `vlabort` in `try` while another lane stays live: the lanes roll back, and the stream may switch paths. -/
theorem State.vlabort_eq (s : State) (f : LaneWord) {x1 : Group} {flag : Option Nat} {y : TryState}
    (hi : (Claims.own s).issueLL f = some (x1, flag)) (hy : (Claims.own s).tr = some y) (hm : Claims.acting s f ≠ 0)
    (hl : (Claims.own s).live &&& ~~~ (Claims.acting s f) ≠ 0) :
    ∃ t, execVlabort f s = .next t ∧ OnlyStream s.me s t ∧
      PathOnly (((s.abortIssued f x1 flag).grp s.me).rolled y (Claims.acting s f) 1 (f.imm.toNat % 256)) (t.grp s.me) := by
  obtain ⟨hlive, -, -, -, htr⟩ := s.grp_abortIssued f hi
  have hi' : (s.grp s.me).issueLL f = some (x1, flag) := hi
  have hin : (s.grp s.me).inTry = true := by rw [Group.inTry, show (s.grp s.me).tr = some y from hy]; rfl
  have hr := (s.abortIssued f x1 flag).rollLanes_eq s.me (Claims.acting s f) 1 (f.imm.toNat % 256) (htr.trans hy) (by rw [hlive]; exact hl)
  have hos := OnlyStream.count (OnlyStream.onGrp (.inl (OnlyStream.abortIssued s f x1 flag))
    fun x => x.rolled y (Claims.acting s f) 1 (f.imm.toNat % 256)) s.me 0x13 1
  unfold execVlabort
  rw [State.laneBody_nil]
  simp only [hi', hin, Bool.not_true, Bool.false_eq_true, if_false, if_neg hm]
  rw [show (s.setGrp s.me (x1.lower flag)).laneNext f (Claims.acting s f) 1 = s.abortIssued f x1 flag from rfl, hr]
  refine ⟨_, rfl, ?_⟩
  split
  · refine ⟨OnlyStream.onGrp (.inl hos) _, ?_⟩
    rw [State.grp_onGrp, State.grp_count, State.grp_onGrp]
    exact Group.pathOnly_switchPath _
  · refine ⟨hos, ?_⟩
    rw [State.grp_count, State.grp_onGrp]
    exact .refl _

/-- The buffered stores of lanes rolled back are gone. -/
theorem TryState.lane_without (y : TryState) (m : BitVec 16) :
    ∀ o ∈ (y.without m).buffer, ∀ q ∈ o.accs, q.lane < 16 → ¬ m.getLsbD q.lane := by
  intro o ho q hq hlane
  obtain ⟨o', -, rfl⟩ := List.mem_map.1 ho
  have hk := (List.mem_filter.1 hq).2
  simp only [ge_iff_le, Bool.or_eq_true, decide_eq_true_eq, Bool.not_eq_true'] at hk
  rcases hk with hk | hk
  · omega
  · simp [hk]

theorem laneAbort : Claims.LaneAbort := by
  intro s f x1 flag x m hi
  obtain ⟨hlive, hpath, hv, hp, htr⟩ := s.grp_abortIssued f hi
  have hos := OnlyStream.abortIssued s f x1 flag
  have hi' : (s.grp s.me).issueLL f = some (x1, flag) := hi
  refine ⟨fun hnone => ?_, fun y hy hm hl => ?_⟩
  · have hin : (s.grp s.me).inTry = false := by rw [Group.inTry, show (s.grp s.me).tr = none from hnone]; rfl
    refine ⟨s.abortIssued f x1 flag, ?_, hos, hlive, hpath, hv, hp⟩
    show execVlabort f s = _
    unfold execVlabort
    rw [State.laneBody_nil]
    simp only [hi', hin, Bool.not_false, if_true]
    rfl
  · obtain ⟨t, ht, hos2, hps⟩ := s.vlabort_eq f hi hy hm hl
    have hpo := hps
    unfold PathOnly at hpo
    refine ⟨t, ht, hos2, ?_, ?_, fun z hz => ?_, ?_, fun l r hl16 hlm => ?_⟩
    · rw [hpo, Group.live_rolled, hlive]
    · rw [hpo, Group.tryabort_rolled]; rfl
    · have hw : some (y.without m) = some z := by rw [← hz, hpo, Group.tr_rolled]
      cases hw
      exact ⟨rfl, y.lane_without m⟩
    · rw [hpo, Group.tr_rolled]; rfl
    · obtain ⟨hraw, hbad⟩ := Group.slots_rolled ((s.abortIssued f x1 flag).grp s.me) y m 1 (f.imm.toNat % 256) r hl16 hlm
      have hx : ((s.abortIssued f x1 flag).grp s.me).vRaw l r = x.vRaw l r ∧ ((s.abortIssued f x1 flag).grp s.me).vBad l r = x.vBad l r :=
        ⟨congrArg (KMap.read 0 (vkey l r)) hv, congrArg (KMap.read false (vkey l r)) hp⟩
      obtain ⟨hxr, hxb⟩ := hx
      obtain ⟨htr', htb⟩ := hps.slots l r
      exact ⟨htr'.trans (hraw.trans hxr), htb.trans (hbad.trans hxb)⟩

/-- Settles O21: threads are placed one lane at a time in a bin that stays theirs, and a rollback reaches only the lanes it names. -/
theorem laneThreads : Obligations.LaneThreads := ⟨spawning, laneAbort⟩

end Sys2Proof.Machine
end

