-- ==== Sys2Proof/Proofs/Roster.lean ====
section
/-! SUPPORT. What accesses of memory, token entries, task entries and fault records leave as it was: which streams, teams and clusters
there are, where they stand, and what is on each core. -/

namespace Sys2Proof.Machine

/-! ## Maps -/

theorem KMap.find_map {α : Type} (f : Nat × α → Nat × α) (hf : ∀ e, (f e).1 = e.1) (k : Nat) (m : KMap α) :
    KMap.find k (m.map f) = (KMap.find k m).map fun v => (f (k, v)).2 := by
  induction m with
  | nil => rfl
  | cons e m ih =>
    obtain ⟨j, v⟩ := e
    have hj : (f (j, v)).1 = j := hf (j, v)
    have he : KMap.find k ((f (j, v)) :: m.map f) = if (f (j, v)).1 = k then some (f (j, v)).2 else KMap.find k (m.map f) := rfl
    rw [List.map_cons, he, hj, ih, KMap.find]
    split
    · rename_i h; rw [h]; rfl
    · rfl

/-- A default that a change of the listed values leaves reads the same. -/
theorem KMap.read_map {α β : Type} (d : α) (g : α → β) (f : Nat × α → Nat × α) (hf : ∀ e, (f e).1 = e.1) (hg : ∀ e, g (f e).2 = g e.2)
    (k : Nat) (m : KMap α) : g (KMap.read d k (m.map f)) = g (KMap.read d k m) := by
  rw [KMap.read, KMap.read, KMap.find_map f hf]
  cases KMap.find k m with
  | none => rfl
  | some v => exact hg (k, v)

theorem KMap.read_put {α : Type} (d : α) (k j : Nat) (v : α) (m : KMap α) :
    KMap.read d k (KMap.put j v m) = if k = j then v else KMap.read d k m := by
  by_cases h : k = j
  · rw [if_pos h, h, KMap.read_put_same]
  · rw [if_neg h, KMap.read_put_other d h]

/-! ## The roster -/

/-- Who is on a core, and whose the core is. -/
structure Seat where
  team : Option Nat
  mapV : Bool
  mapPart : Nat
  heldMap : Option (Bool × Nat)

def Core.seat (c : Core) : Seat := { team := c.team, mapV := c.mapV, mapPart := c.mapPart, heldMap := c.heldMap }

/-- A team without its shares, its bins, its check bits and the mark of its image. -/
def Team.bare (t : Team) : Team := { t with broken := false, shares := [], bins := [], chk := 0 }

/-- A cluster without its shares, its check bits and its status. -/
def Cluster.bare (c : Cluster) : Cluster := { c with shares := [], chk := 0, cor := 0, status := 1, failTeam := 0 }

/-- A partition without its tasks and the registers of its fault queue. -/
def Partition.bare (p : Partition) : Partition :=
  { p with tasks := [], pfqen := false, pfqtail := 0, pfqwerr := false, pfqovf := false }

/-- Which streams, teams and clusters there are, where they stand, and what is on each core. -/
structure Roster where
  cur : Agent
  now : Nat
  failed : Bool
  groups : KMap Group
  residuals : KMap Residual
  teams : Nat → Team
  clusters : Nat → Cluster
  seats : Nat → Seat
  parts : Nat → Partition
  caps : Caps
  turner : Turner

def State.roster (s : State) : Roster :=
  { cur := s.cur, now := s.now, failed := s.failed, groups := s.groups, residuals := s.residuals
    teams := fun m => (s.tm m).bare, clusters := fun c => (s.cl c).bare, seats := fun k => (s.coreAt k).seat
    parts := fun p => (s.partAt p).bare, caps := s.caps, turner := s.turner }

/-- What every step of a fold leaves, the fold leaves. -/
theorem State.roster_foldl {α : Type} (f : State → α → State) (hf : ∀ s x, (f s x).roster = s.roster) (l : List α) (s : State) :
    (l.foldl f s).roster = s.roster := by
  induction l generalizing s with
  | nil => rfl
  | cons x l ih => exact (ih _).trans (hf s x)

theorem State.roster_ite (c : Prop) [Decidable c] {s t u : State} (h : s.roster = u.roster) (k : t.roster = u.roster) :
    (if c then s else t).roster = u.roster := by
  split
  · exact h
  · exact k

section
variable (s : State)

/-- A change of a core that leaves its seat. -/
theorem State.roster_onCore (k : Nat) (f : Core → Core) (hf : ∀ c, (f c).seat = c.seat) : (s.onCore k f).roster = s.roster := by
  have h : (fun n => ((s.onCore k f).coreAt n).seat) = fun n => (s.coreAt n).seat := by
    funext n
    by_cases hn : n = k
    · rw [hn, State.coreAt_onCore, hf]
    · rw [State.coreAt_onCore_other _ hn]
  exact congrArg (fun z => { s.roster with seats := z }) h

theorem State.roster_setCore (k : Nat) (x : Core) (hx : x.seat = (s.coreAt k).seat) : (s.setCore k x).roster = s.roster := by
  have h : (fun n => ((s.setCore k x).coreAt n).seat) = fun n => (s.coreAt n).seat := by
    funext n
    by_cases hn : n = k
    · rw [hn, State.coreAt_setCore, hx]
    · rw [State.coreAt_setCore_other _ hn]
  exact congrArg (fun z => { s.roster with seats := z }) h

theorem State.roster_withCore (k : Nat) (f : Core → Core) (hf : ∀ c, (f c).seat = c.seat) : (s.withCore k f).roster = s.roster := by
  unfold State.withCore KMap.adjust
  split
  · rename_i c hc
    have hk : s.coreAt k = c := by rw [State.coreAt, KMap.read, hc]; rfl
    exact s.roster_setCore k (f c) (by rw [hf, hk])
  · rfl

/-- A change of all cores that leaves their seats. -/
theorem State.roster_cores (f : Nat × Core → Nat × Core) (hf : ∀ e, (f e).1 = e.1) (hs : ∀ e, (f e).2.seat = e.2.seat) :
    ({ s with cores := s.cores.map f } : State).roster = s.roster := by
  have h : (fun n => (KMap.read ({} : Core) n (s.cores.map f)).seat) = fun n => (s.coreAt n).seat :=
    funext fun n => KMap.read_map {} Core.seat f hf hs n s.cores
  exact congrArg (fun z => { s.roster with seats := z }) h

theorem State.roster_onPart (p : Nat) (f : Partition → Partition) (hf : ∀ q, (f q).bare = q.bare) : (s.onPart p f).roster = s.roster := by
  have h : (fun n => ((s.onPart p f).partAt n).bare) = fun n => (s.partAt n).bare := by
    funext n
    simp only [State.partAt, State.onPart, KMap.read_put]
    split
    · rename_i hn; rw [hn, hf]
    · rfl
  exact congrArg (fun z => { s.roster with parts := z }) h

theorem State.roster_onTm (t : Nat) (f : Team → Team) (hf : ∀ y, (f y).bare = y.bare) : (s.onTm t f).roster = s.roster := by
  have h : (fun n => ((s.onTm t f).tm n).bare) = fun n => (s.tm n).bare := by
    funext n
    by_cases hn : n = t
    · rw [hn, State.tm_onTm, hf]
    · rw [State.tm_onTm_other _ hn]
  exact congrArg (fun z => { s.roster with teams := z }) h

theorem State.roster_onCl (c : Nat) (f : Cluster → Cluster) (hf : ∀ y, (f y).bare = y.bare) : (s.onCl c f).roster = s.roster := by
  have h : (fun n => ((s.onCl c f).cl n).bare) = fun n => (s.cl n).bare := by
    funext n
    simp only [State.cl, State.onCl, State.setCl, KMap.read_put]
    split
    · rename_i hn; rw [hn, hf]
    · rfl
  exact congrArg (fun z => { s.roster with clusters := z }) h

@[simp] theorem State.roster_onUnit (u : Nat) (f : Rennet → Rennet) : (s.onUnit u f).roster = s.roster := rfl

@[simp] theorem State.roster_onQueue (q : Nat) (f : HostQueue → HostQueue) : (s.onQueue q f).roster = s.roster := rfl

@[simp] theorem State.roster_msi (p vec : Nat) : (s.msi p vec).roster = s.roster := rfl

/-! ## Memory -/

@[simp] theorem State.roster_storeAt (a : Nat) (bs : List Byte) : (s.storeAt a bs).roster = s.roster := rfl

@[simp] theorem State.roster_storeBlock (a : Nat) (bs : List Byte) : (s.storeBlock a bs).roster = s.roster :=
  State.roster_ite _ rfl rfl

@[simp] theorem State.roster_store (a : Nat) (bs : List Byte) : (s.store a bs).roster = s.roster :=
  State.roster_ite _ (s.roster_storeBlock a bs) (State.roster_foldl _ (fun s _ => s.roster_storeBlock _ _) _ _)

@[simp] theorem State.roster_hostStore (a : Nat) (bs : List Byte) : (s.hostStore a bs).roster = s.roster := rfl

@[simp] theorem State.roster_flushProxy : s.flushProxy.roster = s.roster :=
  State.roster_ite _ rfl (State.roster_foldl (fun s (e : Nat × Byte) => s.hostStore e.1 [e.2]) (fun _ _ => rfl) s.proxy s)

@[simp] theorem State.roster_countDecode (pa : Nat) : (s.countDecode pa).roster = s.roster :=
  State.roster_ite _ rfl (State.roster_ite _ rfl rfl)

@[simp] theorem State.roster_leaveL2 (x : L2Line) (m : BitVec 4) : (s.leaveL2 x m).roster = s.roster :=
  State.roster_ite _ rfl (State.roster_foldl _ (fun _ _ => by dsimp only; split <;> rfl) _ _)

@[simp] theorem State.roster_touchL2 (p pa hint : Nat) (w : Bool) : (s.touchL2 p pa hint w).roster = s.roster := by
  unfold State.touchL2
  dsimp only
  have c (b : Bool) : (if b = true then s else s.countDecode pa).roster = s.roster := State.roster_ite _ rfl (s.roster_countDecode pa)
  refine (show State.roster { (_ : State) with l2 := _ } = State.roster _ from rfl).trans ?_
  refine State.roster_ite _ (c _) ?_
  split
  · refine State.roster_ite _ (c _) ?_
    rename_i out _ _
    cases lineIn out (KMap.read [] (s.l2Key pa) s.l2) with
    | none => exact c _
    | some y => exact (State.roster_leaveL2 _ y _).trans (c _)
  · exact c _

@[simp] theorem State.roster_onL2 (n : Nat) (f : L2Line → Option L2Line) : (s.onL2 n f).roster = s.roster := by
  unfold State.onL2
  refine (show State.roster { (_ : State) with l2 := _ } = State.roster _ from rfl).trans (State.roster_ite _ rfl ?_)
  split
  · exact s.roster_leaveL2 _ _
  · rfl

@[simp] theorem State.roster_dropL2 (pa : Nat) : (s.dropL2 pa).roster = s.roster := s.roster_onL2 _ _

@[simp] theorem State.roster_dropSector (pa : Nat) : (s.dropSector pa).roster = s.roster := s.roster_onL2 _ _

@[simp] theorem State.roster_served (x : Xlat) : (s.served x).roster = s.roster := State.roster_ite _ rfl rfl

@[simp] theorem State.roster_unwait (g : Nat) (x : Xlat) : (s.unwait g x).roster = s.roster := State.roster_ite _ rfl rfl

@[simp] theorem State.roster_touchImages (pa : Nat) : (s.touchImages pa).roster = s.roster := by
  have h : (fun n => ((s.touchImages pa).tm n).bare) = fun n => (s.tm n).bare := by
    funext n
    refine KMap.read_map {} Team.bare _ (fun e => ?_) (fun e => ?_) n s.teams
    all_goals
      dsimp only
      split
      · split <;> rfl
      · rfl
  exact congrArg (fun z => { s.roster with teams := z }) h

@[simp] theorem State.roster_rawStore (p : Nat) (x : Xlat) (bs : List Byte) (hint : Nat) : (s.rawStore p x bs hint).roster = s.roster := by
  unfold State.rawStore
  split
  · rfl
  · split
    · simp
    · split <;> simp

@[simp] theorem State.roster_touchHome (p : Nat) (x : Xlat) (hint : Nat) : (s.touchHome p x hint).roster = s.roster := by
  unfold State.touchHome
  split
  · rfl
  · split <;> simp

/-- The device's own write leaves the roster. -/
theorem State.roster_writeVirtual {t : State} {w : Who} {va : Nat} {bs : List Byte} (h : s.writeVirtual w va bs = some t) :
    t.roster = s.roster := by
  unfold State.writeVirtual at h
  dsimp only at h
  split at h
  · cases h
    refine State.roster_foldl _ (fun s p => ?_) _ _
    split <;> simp
  · cases h

@[simp] theorem State.roster_postRaw (p : Nat) (r : FaultRec) : (s.postRaw p r).roster = s.roster := by
  unfold State.postRaw
  dsimp only
  split
  · exact s.roster_onPart p _ fun _ => rfl
  · split
    · exact s.roster_onPart p _ fun _ => rfl
    · rename_i h
      rw [State.roster_onPart]
      · exact s.roster_writeVirtual h
      · exact fun _ => rfl

@[simp] theorem State.roster_hac (p va : Nat) : (s.hac p va).roster = s.roster := by
  unfold State.hac
  dsimp only
  split
  · rfl
  · split
    · rfl
    · split
      · rfl
      · rename_i h
        have hw := s.roster_writeVirtual h
        exact State.roster_ite _ (State.roster_ite _ (by simpa using hw) (by simpa using hw)) hw

@[simp] theorem State.roster_hacFor (w : Who) (va : Nat) (x : Xlat) : (s.hacFor w va x).roster = s.roster := by
  unfold State.hacFor
  dsimp only
  split <;> split <;> simp

@[simp] theorem State.roster_countHost (w : Who) (va n : Nat) (k : AccKind) : (s.countHost w va n k).roster = s.roster := by
  refine State.roster_foldl _ (fun s p => ?_) _ _
  split <;> simp

@[simp] theorem State.roster_post (p : Nat) (r : FaultRec) : (s.post p r).roster = s.roster := by
  unfold State.post
  dsimp only
  split <;> simp

/-! ## Cores, TLBs and L1s -/

@[simp] theorem Core.seat_count (c : Core) (code n : Nat) (g : Option Nat) : (c.count code n g).seat = c.seat := by
  rw [Core.count_eq]
  rfl

@[simp] theorem State.roster_count (g code n : Nat) : (s.count g code n).roster = s.roster := by
  unfold State.count
  split
  · rfl
  · dsimp only
    split
    · rfl
    · exact s.roster_setCore _ _ (Core.seat_count ..)

@[simp] theorem State.roster_fillTlb (w : Who) (va : Nat) (l : Leaf) : (s.fillTlb w va l).roster = s.roster := by
  unfold State.fillTlb
  cases w.core with
  | none =>
    cases w.die with
    | none => rfl
    | some d => exact State.roster_ite _ rfl rfl
  | some k =>
    have hk := s.roster_onCore k (fun c => { c with tlb := (({ part := w.part, vpage := va / 2 ^ l.bits, leaf := l } : TlbEntry) :: c.tlb).take 256 })
      fun _ => rfl
    cases w.die with
    | none => exact State.roster_ite _ rfl hk
    | some d => exact State.roster_ite _ (State.roster_ite _ rfl hk) (State.roster_ite _ rfl hk)

@[simp] theorem State.roster_touch (w : Who) (va : Nat) : (s.touch w va).roster = s.roster := by
  unfold State.touch
  split
  · split <;> simp
  · rfl

@[simp] theorem Core.seat_l1Put (c : Core) (pa : Nat) (y : L1Line) : (c.l1Put pa y).seat = c.seat := rfl

@[simp] theorem State.roster_onL1 (k : Option Nat) (f : Core → Core) (hf : ∀ c, (f c).seat = c.seat) : (s.onL1 k f).roster = s.roster := by
  unfold State.onL1
  split
  · exact s.roster_withCore _ f hf
  · rfl

@[simp] theorem State.roster_l1Store (k : Nat) (x : Xlat) (bs : List Byte) : (s.l1Store k x bs).roster = s.roster := by
  unfold State.l1Store
  dsimp only
  split
  · exact s.roster_onL1 _ _ fun _ => rfl
  · rfl

@[simp] theorem State.roster_l1DropLine (k pa : Nat) : (s.l1DropLine k pa).roster = s.roster := s.roster_onL1 _ _ fun _ => rfl

@[simp] theorem State.roster_l1Fill (k : Option Nat) (x : Xlat) : (s.l1Fill k x).roster = s.roster := s.roster_onL1 _ _ fun _ => rfl

@[simp] theorem State.roster_countRequest (g : Nat) (x : Xlat) (b : Bool) : (s.countRequest g x b).roster = s.roster := by
  unfold State.countRequest
  split <;> simp

@[simp] theorem State.roster_l1Load (k g : Nat) (x : Xlat) (n hint : Nat) : (s.l1Load k g x n hint).2.2.roster = s.roster := by
  have hmiss : ∀ (u : State) (k1 : Option Nat) (p : Nat), ((if hint = 3 then u else u.l1Fill k1 x).touchL2 p x.pa hint false).roster = u.roster := by
    intro u k1 p
    split <;> simp
  unfold State.l1Load
  dsimp only
  split
  · split
    · exact (State.roster_onL1 _ _ _ fun c => c.seat_l1Put _ _).trans (s.roster_count ..)
    · exact (hmiss ..).trans (by simp)
  · exact (hmiss ..).trans (by simp)

@[simp] theorem State.roster_dropWide (k : Nat) : (s.dropWide k).roster = s.roster := by
  unfold State.dropWide
  exact State.roster_ite _ rfl (s.roster_withCore _ _ fun _ => rfl)

@[simp] theorem State.roster_acquire (g scope : Nat) : (s.acquire g scope).roster = s.roster := by
  unfold State.acquire
  split
  · rfl
  · split <;> simp

/-! ## Token entries -/

@[simp] theorem State.roster_dropTagged (id : Nat) : (s.dropTagged id).roster = s.roster :=
  s.roster_cores _ (fun _ => rfl) fun _ => rfl

@[simp] theorem State.roster_setTok (id : Nat) (e : TokEntry) : (s.setTok id e).roster = s.roster := by
  unfold State.setTok
  dsimp only
  split <;> simp

@[simp] theorem State.roster_holderAcquires (h : Nat) : (s.holderAcquires h).roster = s.roster :=
  State.roster_foldl _ (fun s k => s.roster_dropWide k) _ _

@[simp] theorem State.roster_returnShare (id : Nat) : (s.returnShare id).roster = s.roster := by
  unfold State.returnShare
  dsimp only
  split <;> simp

@[simp] theorem State.roster_setShares (h : Nat) (l : List Nat) : (s.setShares h l).roster = s.roster := by
  unfold State.setShares
  split
  · exact s.roster_onCl _ _ fun _ => rfl
  · exact s.roster_onTm _ _ fun _ => rfl

@[simp] theorem State.roster_returnShares (h : Nat) : (s.returnShares h).roster = s.roster := by
  unfold State.returnShares
  rw [State.roster_setShares]
  exact State.roster_foldl _ (fun s id => s.roster_returnShare id) _ _

@[simp] theorem State.roster_mapTokens (f : TokEntry → TokEntry) : (s.mapTokens f).roster = s.roster := by
  refine State.roster_foldl _ (fun s id => ?_) _ _
  exact State.roster_ite _ rfl (State.roster_ite _ (s.roster_setTok ..) (by simp))

@[simp] theorem State.roster_endHolder (h parent : Nat) : (s.endHolder h parent).roster = s.roster := by simp [State.endHolder]

@[simp] theorem State.roster_loseHolder (h part : Nat) : (s.loseHolder h part).roster = s.roster := by simp [State.loseHolder]

/-! ## Task entries -/

@[simp] theorem State.roster_putTask (p i : Nat) : (s.putTask p i).roster = s.roster := s.roster_store _ _

@[simp] theorem State.roster_setTask (p i : Nat) (t : Task) : (s.setTask p i t).roster = s.roster := by
  unfold State.setTask
  rw [State.roster_putTask]
  exact s.roster_onPart p _ fun _ => rfl

end

/-- 14 R345: the completion of a task, and of the tasks that it readies. -/
@[simp] theorem State.roster_completeTask (fuel : Nat) (s : State) (p i : Nat) : (s.completeTask p i fuel).roster = s.roster := by
  induction fuel generalizing s i with
  | zero => rfl
  | succ fuel ih =>
    unfold State.completeTask
    extract_lets t compl s1 s2 s2' nv j u u' s3
    have h1 : s1.roster = s.roster := by
      unfold s1
      split
      · rename_i h
        exact (State.roster_countHost ..).trans (s.roster_writeVirtual h)
      · simp
    clear_value s1
    have h2 : s2.roster = s.roster := by
      unfold s2
      rw [State.roster_putTask, State.roster_onPart]
      · exact h1
      · exact fun _ => rfl
    clear_value s2
    have h2' : s2'.roster = s.roster := by
      unfold s2'
      split
      · exact State.roster_ite _ h2 h2
      · exact h2
    clear_value s2'
    have h3 : s3.roster = s.roster := by
      unfold s3
      refine State.roster_ite _ h2' ?_
      refine State.roster_ite _ (by simp [h2']) (State.roster_ite _ (by simp [h2']) ?_)
      split <;> simp [ih, h2']
    exact State.roster_ite _ h3 h3

@[simp] theorem State.roster_tryCompleteTask (s : State) (p i : Nat) : (s.tryCompleteTask p i).roster = s.roster := by
  unfold State.tryCompleteTask
  dsimp only
  split <;> simp

end Sys2Proof.Machine
end

