-- ==== Sys2Proof/Proofs/PerformFrame.lean ====
section
/-! SUPPORT. What performing a stream's accesses leaves: the roster, and of the streams all but registers of its own. -/

namespace Sys2Proof.Machine

/-- Of a stream nothing changed but registers with their poison, their shadow copies in `try`, and `c.chkint`. -/
def RegistersOnly (x y : Group) : Prop :=
  y = { x with s := y.s, sPoison := y.sPoison, v := y.v, vPoison := y.vPoison, tr := y.tr, chkint := y.chkint }

theorem RegistersOnly.refl (x : Group) : RegistersOnly x x := rfl

theorem RegistersOnly.trans {x y z : Group} (h : RegistersOnly x y) (k : RegistersOnly y z) : RegistersOnly x z := by
  unfold RegistersOnly at *
  rw [k, h]

theorem RegistersOnly.foldl {α : Type} (f : Group → α → Group) (hf : ∀ x a, RegistersOnly x (f x a)) (l : List α) (x : Group) :
    RegistersOnly x (l.foldl f x) := by
  induction l generalizing x with
  | nil => exact .refl x
  | cons a l ih => exact (hf x a).trans (ih _)

theorem Group.registersOnly_chk (x : Group) (b : BitVec 32) : RegistersOnly x (x.chk b) := rfl

theorem Group.registersOnly_sSet (x : Group) (i : Nat) (v : Word) : RegistersOnly x (x.sSet i v) := by
  unfold Group.sSet
  split <;> rfl

theorem Group.registersOnly_vSetP (x : Group) (t r : Nat) (v : BitVec 32) (p : Bool) : RegistersOnly x (x.vSetP t r v p) := by
  unfold RegistersOnly Group.vSetP
  rw [Group.shadowLine_eq]

theorem Group.registersOnly_putLoad (x : Group) (o : MemOp) (lane : Nat) (bs : List Byte) (bad : Bool) :
    RegistersOnly x (x.putLoad o lane bs bad) :=
  .foldl _ (fun _ _ => .foldl _ (fun _ _ => Group.registersOnly_vSetP ..) _ _) _ _

/-- Only registers of one stream changed, and what accesses of memory change. -/
def OwnRegisters (g : Nat) (s t : State) : Prop :=
  t.roster = { s.roster with groups := t.groups } ∧
    (t.groups = s.groups ∨ ∃ y, t.groups = KMap.put g y s.groups ∧ RegistersOnly (s.grp g) y)

theorem OwnRegisters.of_roster {g : Nat} {s t : State} (h : t.roster = s.roster) : OwnRegisters g s t := by
  have hg : t.groups = s.groups := congrArg Roster.groups h
  exact ⟨by rw [h, hg]; rfl, .inl hg⟩

theorem OwnRegisters.refl (g : Nat) (s : State) : OwnRegisters g s s := .of_roster rfl

theorem OwnRegisters.trans {g : Nat} {s t u : State} (h : OwnRegisters g s t) (k : OwnRegisters g t u) : OwnRegisters g s u := by
  obtain ⟨hr, hg⟩ := h
  obtain ⟨kr, kg⟩ := k
  refine ⟨by rw [kr, hr], ?_⟩
  rcases kg with kg | ⟨z, kg, hz⟩
  · rw [kg]; exact hg
  · rcases hg with hg | ⟨y, hg, hy⟩
    · refine .inr ⟨z, by rw [kg, hg], ?_⟩
      rw [State.grp, hg] at hz
      exact hz
    · refine .inr ⟨z, by rw [kg, hg, KMap.put_put], hy.trans ?_⟩
      rw [State.grp, hg, KMap.read_put_same] at hz
      exact hz

theorem OwnRegisters.onGrp (g : Nat) (s : State) (f : Group → Group) (hf : ∀ x, RegistersOnly x (f x)) : OwnRegisters g s (s.onGrp g f) :=
  ⟨rfl, .inr ⟨_, rfl, hf _⟩⟩

theorem OwnRegisters.consumed (g : Nat) (s : State) (lane : Bool) : OwnRegisters g s (s.consumed g lane) :=
  (OwnRegisters.onGrp g s _ fun x => x.registersOnly_chk _).trans (.of_roster (State.roster_count ..))

theorem OwnRegisters.ite {g : Nat} {s t u : State} (c : Prop) [Decidable c] (h : OwnRegisters g s t) (k : OwnRegisters g s u) :
    OwnRegisters g s (if c then t else u) := by
  split
  · exact h
  · exact k

/-! ## Single accesses -/

section
variable (s : State)

@[simp] theorem State.roster_sendRemote (queue dev pa : Nat) (bad : Bool) : (s.sendRemote queue dev pa bad).roster = s.roster := by
  unfold State.sendRemote
  split <;> rfl

@[simp] theorem State.roster_enterPiece (g : Nat) (o : MemOp) (lane : Nat) (x : Option Xlat) : (s.enterPiece g o lane x).roster = s.roster := by
  unfold State.enterPiece
  split
  · rfl
  · split
    · rfl
    · rw [State.roster_onCore]
      exact fun _ => rfl

@[simp] theorem State.roster_loadAt (g lane : Nat) (kernel : Bool) (va : Nat) (x : Xlat) (n hint : Nat) :
    (s.loadAt g lane kernel va x n hint).2.2.roster = s.roster := by
  unfold State.loadAt
  dsimp only
  split
  · simp [State.homeRead]
  · simp

@[simp] theorem State.roster_storeTo (g : Nat) (kernel : Bool) (va : Nat) (x : Xlat) (bs : List Byte) (hint : Nat) :
    (s.storeTo g kernel va x bs hint).roster = s.roster := by
  unfold State.storeTo
  extract_lets w s1 s2
  have h1 : s1.roster = s.roster := by simp [s1]
  have h2 : s2.roster = s.roster := by
    unfold s2
    split
    · exact State.roster_ite _ h1 (by simp [h1])
    · exact h1
  simp [h2]

@[simp] theorem State.roster_readModifyWrite (x : Xlat) (op : Nat) (ty : BitVec 4) (v c : Nat) :
    (s.readModifyWrite x op ty v c).2.2.roster = s.roster := by
  unfold State.readModifyWrite
  extract_lets n s1 d old new
  have h1 : s1.roster = s.roster := by
    unfold s1
    exact State.roster_ite _ rfl (State.roster_ite _ (by simp) (by simp))
  split
  · exact h1
  · exact State.roster_ite _ h1 (State.roster_ite _ (by simp [h1]) (by simp [h1]))

@[simp] theorem State.roster_atomicAt (g : Nat) (kernel : Bool) (va : Nat) (x : Xlat) (op : Nat) (ty : BitVec 4) (v c : Nat) :
    (s.atomicAt g kernel va x op ty v c).2.2.roster = s.roster := by
  simp [State.atomicAt]

/-- What performing one access leaves. -/
def Perf.Frame (g : Nat) (s : State) : Perf → Prop
  | .done t => OwnRegisters g s t
  | .fault _ => True
  | .remote t _ => OwnRegisters g s t

theorem State.frame_goRemote (g : Nat) (w : Who) (a : LaneAcc) (x : Xlat) : (s.goRemote g w a x).Frame g s := by
  unfold State.goRemote
  split
  · trivial
  · exact .of_roster (by simp)

/-- An access that consumed poison, or did not, has changed only registers of its own. -/
theorem OwnRegisters.consumedIf {g : Nat} {s t : State} (h : t.roster = s.roster) (b lane : Bool) :
    OwnRegisters g s (if b then t.consumed g lane else t) :=
  .ite _ ((OwnRegisters.of_roster h).trans (.consumed ..)) (.of_roster h)

theorem State.frame_performAcc (g : Nat) (o : MemOp) (a : LaneAcc) : (s.performAcc g o a).Frame g s := by
  unfold State.performAcc
  extract_lets w va
  split
  case h_1 | h_2 =>
    split
    · trivial
    · split
      · exact s.frame_goRemote ..
      · extract_lets r v s1
        have hr : r.2.2.roster = s.roster := s.roster_loadAt ..
        split
        · exact (OwnRegisters.of_roster hr).trans (.onGrp _ _ _ fun y => y.registersOnly_putLoad ..)
        · exact (OwnRegisters.consumedIf hr ..).trans (.onGrp _ _ _ fun y => y.registersOnly_sSet ..)
  case h_3 =>
    split
    · trivial
    · split
      · exact s.frame_goRemote ..
      · split
        · trivial
        · extract_lets r s1
          have hs : OwnRegisters g s s1 := OwnRegisters.consumedIf (s.roster_atomicAt ..) ..
          split
          · exact hs
          · split
            · exact hs.trans (.onGrp _ _ _ fun y => y.registersOnly_putLoad ..)
            · exact hs.trans (.onGrp _ _ _ fun y => y.registersOnly_sSet ..)
  case h_4 =>
    split
    · trivial
    · split
      · exact s.frame_goRemote ..
      · split
        · trivial
        · exact OwnRegisters.consumedIf (s.roster_atomicAt ..) ..
  case h_5 =>
    split
    · trivial
    · split
      · exact s.frame_goRemote ..
      · exact .of_roster (s.roster_storeTo ..)
  case h_6 | h_7 | h_8 =>
    split
    · exact .of_roster (s.roster_enterPiece ..)
    · split
      · trivial
      · split
        · trivial
        · exact .of_roster (by simp)
  case h_9 => exact .refl g s

end

/-- Performing accesses of a stream changes only its registers, and what accesses of memory change. -/
theorem OwnRegisters.performAll (g : Nat) (o : MemOp) (as : List LaneAcc) (s : State) : OwnRegisters g s (s.performAll g o as).1 := by
  induction as generalizing s with
  | nil => exact .refl g s
  | cons a as ih =>
    have hf := s.frame_performAcc g o a
    unfold State.performAll
    split
    · exact ih s
    · split <;> rename_i hp <;> rw [hp] at hf
      · exact OwnRegisters.trans hf (ih _)
      · exact OwnRegisters.trans hf (ih _)
      · split
        · exact .refl g s
        · exact ih s

end Sys2Proof.Machine
end

