-- ==== Sys2Proof/Proofs/StreamProgress.lean ====
section
/-! SUPPORT. The events by which one stream goes on: clause starts, landings, freed entries, released stalls, woken waits. -/

namespace Sys2Proof.Machine

/-! ## Freed entries -/

section
variable (x : Group)

theorem Group.freeEntry_eq {e : Nat} {o : MemOp} (h : KMap.find e x.oplog = some o) :
    x.freeEntry e = ({ x with oplog := KMap.del e x.oplog } : Group).lower o.flag := by
  unfold Group.freeEntry
  rw [h]

@[simp] theorem Group.oplog_lower (f : Option Nat) : (x.lower f).oplog = x.oplog := by rw [Group.lower_eq]

theorem Group.flag_lower_sub (f : Option Nat) (h : Nat) : (x.lower f).flag h = x.flag h - if f = some h then 1 else 0 := by
  rw [Group.flag_lower]
  split <;> rfl

theorem Group.wroteNone_lower (f : Option Nat) : WroteNone x (x.lower f) := fun r => by rw [Group.lower_eq]; exact ⟨rfl, rfl⟩

end

/-- An entry was freed and its flag lowered; of the rest of the stream nothing changed. -/
structure Freed (x : Group) (e : Nat) (o : MemOp) (y : Group) : Prop where
  gone : KMap.find e y.oplog = none
  others : ∀ j, j ≠ e → KMap.find j y.oplog = KMap.find j x.oplog
  flags : ∀ f, y.flag f = x.flag f - if o.flag = some f then 1 else 0
  scalars : WroteNone x y
  slots : y.v = x.v
  pc : y.pc = x.pc

theorem Group.freed_freeEntry (x : Group) {e : Nat} {o : MemOp} (h : KMap.find e x.oplog = some o) : Freed x e o (x.freeEntry e) := by
  rw [x.freeEntry_eq h]
  exact {
    gone := by simp
    others := fun j hj => by rw [Group.oplog_lower]; exact KMap.find_del_other hj _
    flags := fun f => Group.flag_lower_sub ({ x with oplog := KMap.del e x.oplog } : Group) o.flag f
    scalars := Group.wroteNone_lower ({ x with oplog := KMap.del e x.oplog } : Group) o.flag
    slots := by rw [Group.lower_eq]
    pc := by rw [Group.lower_eq] }

theorem Group.freeDone_eq_freeEntry (x : Group) {e : Nat} {o : MemOp} (h : KMap.find e x.oplog = some o) (ha : o.accs = [])
    (hs : ∀ q ∈ x.storeq, q.log ≠ some e) (hf : ∀ q ∈ x.faults, q.log ≠ some e) : x.freeDone e = x.freeEntry e := by
  have h1 : (x.storeq.any fun q => q.log = some e) = false := by simpa using hs
  have h2 : (x.faults.any fun q => q.log = some e) = false := by simpa using hf
  unfold Group.freeDone
  rw [h]
  simp [ha, h1, h2]

/-! ## Acquires -/

theorem State.dropWide_eq (s : State) (k : Nat) : s.dropWide k = { s with cores := (s.dropWide k).cores } := by
  unfold State.dropWide
  extract_lets fused
  generalize (_ || List.isEmpty (s.coreAt k).l1) = b
  cases b <;> rfl

/-- An acquire changes no more than the L1 of a core. -/
theorem State.acquire_eq (s : State) (g scope : Nat) : s.acquire g scope = { s with cores := (s.acquire g scope).cores } := by
  unfold State.acquire
  split
  · rfl
  · split
    · rfl
    · exact State.dropWide_eq ..

@[simp] theorem State.grp_acquire (s : State) (g scope h : Nat) : (s.acquire g scope).grp h = s.grp h := by rw [State.acquire_eq]; rfl

@[simp] theorem State.cur_acquire (s : State) (g scope : Nat) : (s.acquire g scope).cur = s.cur := by rw [State.acquire_eq]

@[simp] theorem State.tm_acquire (s : State) (g scope t : Nat) : (s.acquire g scope).tm t = s.tm t := by rw [State.acquire_eq]; rfl

@[simp] theorem State.beneath_acquire (s : State) (g scope : Nat) : (s.acquire g scope).beneath = s.beneath := by rw [State.acquire_eq]

theorem State.memoryKept_acquire (s : State) (g scope : Nat) : MemoryKept s (s.acquire g scope) := by
  rw [State.acquire_eq]
  exact MemoryKept.of_eq rfl rfl

/-! ## The events -/

section
variable (s : State) (g e : Nat)

theorem clauseStart_of_halting (h : s.halting g = true) : exec (.clauseStart g) s = .next s := by
  change execClauseStart g s = _
  simp [execClauseStart, h]

theorem Group.canStart_eq (x : Group) {q : ClauseEntry} {rest : List ClauseEntry} (hq : x.queue = q :: rest) (hr : x.run = none)
    (hl : x.laneStopped = false) (hh : x.halted = false) (ho : x.out = false)
    (hw : ∀ f, f < 12 → q.hdr.wait.getLsbD f → x.started f = 0) : x.canStart = true := by
  have hall : ((List.range 12).all fun f => !q.hdr.wait.getLsbD f || decide (x.started f = 0)) = true := by
    simp only [List.all_eq_true, List.mem_range, Bool.or_eq_true, Bool.not_eq_true', decide_eq_true_eq]
    intro f hf
    cases hb : q.hdr.wait.getLsbD f
    · exact .inl rfl
    · exact .inr (hw f hf hb)
  simp [Group.canStart, hq, hr, hl, hh, ho, hall]

theorem does_clauseStart {q : ClauseEntry} {rest : List ClauseEntry} (hs : s.halting g = false) (hq : (s.grp g).queue = q :: rest)
    (hc : (s.grp g).canStart = true) : Does (.clauseStart g) s fun t => OnlyStream g s t ∧ t.grp g = { s.grp g with
      queue := rest, run := some { entry := q, depth := (s.grp g).stack.length }
      path := some (Claims.pathAt q.addr (s.grp g).live 1), lstall := 1 } := by
  refine ⟨s.onGrp g Group.start, ?_, .of_onGrp .., ?_⟩
  · change execClauseStart g s = _
    simp [execClauseStart, hs, hc]
  · rw [State.grp_onGrp, Group.start, hq]
    rfl

/-- A result that lands changes flags and scalar registers. -/
theorem Group.landOne_frame (x : Group) (p : LLPending) : (x.landOne p).pending = x.pending ∧ (x.landOne p).flags = (x.lower p.flag).flags ∧
    (x.landOne p).v = x.v ∧ (x.landOne p).k = x.k ∧ (x.landOne p).pc = x.pc ∧ (x.landOne p).path = x.path := by
  unfold Group.landOne
  rw [Group.lower_eq]
  dsimp only
  split
  · unfold Group.sSet
    split <;> exact ⟨rfl, rfl, rfl, rfl, rfl, rfl⟩
  · exact ⟨rfl, rfl, rfl, rfl, rfl, rfl⟩

theorem Group.landOne_writes (x : Group) {p : LLPending} {r : Nat} {v : Word} (h : p.dst = some (r, v)) :
    (r ≠ 0 → (x.landOne p).sGet r = v) ∧ (x.landOne p).sBad r = false := by
  simp only [Group.landOne, h]
  exact ⟨fun hr => Group.sGet_sSet_same _ r v hr, Group.sBad_sSet_same ..⟩

theorem Group.landOne_keeps (x : Group) {p : LLPending} {r : Nat} (h : ∀ v, p.dst ≠ some (r, v)) :
    (x.landOne p).sGet r = x.sGet r ∧ (x.landOne p).sBad r = x.sBad r := by
  unfold Group.landOne
  obtain ⟨hg, hb⟩ := x.wroteNone_lower p.flag r
  split
  · rename_i d hd
    have hr : r ≠ d.1 := fun hr => h d.2 (by rw [hd, hr])
    exact ⟨(Group.sGet_sSet_other _ _ hr).trans hg, (Group.sBad_sSet_other _ _ hr).trans hb⟩
  · exact ⟨hg, hb⟩

theorem does_longLatencyCompletion {p : LLPending} (hp : (s.grp g).pending[e]? = some p) :
    Does (.longLatencyCompletion g e) s fun t => OnlyStream g s t ∧
      t.grp g = ({ s.grp g with pending := (s.grp g).pending.eraseIdx e } : Group).landOne p := by
  refine ⟨s.onGrp g fun x => { x with pending := x.pending.eraseIdx e }.landOne p, ?_, .of_onGrp .., ?_⟩
  · change execLongLatencyCompletion g e s = _
    simp [execLongLatencyCompletion, hp]
  · rw [State.grp_onGrp]

/-- An event that frees an entry of a stream changes that stream alone. -/
theorem does_freeEntry {i : Instr} {o : MemOp} (ho : KMap.find e (s.grp g).oplog = some o)
    (h : exec i s = .next (s.onGrp g fun x => x.freeEntry e)) : Does i s fun t => OnlyStream g s t ∧ Freed (s.grp g) e o (t.grp g) := by
  refine ⟨_, h, .of_onGrp .., ?_⟩
  rw [State.grp_onGrp]
  exact Group.freed_freeEntry _ ho

theorem exec_accessCompletion_plain {o : MemOp} (ho : KMap.find e (s.grp g).oplog = some o) (hk : o.kind ≠ .fence) (hc : o.copy = none)
    (ha : o.accs = []) (hs : ∀ q ∈ (s.grp g).storeq, q.log ≠ some e) (hf : ∀ q ∈ (s.grp g).faults, q.log ≠ some e) :
    exec (.accessCompletion g e) s = .next (s.onGrp g fun x => x.freeEntry e) := by
  have hd : s.onGrp g (fun x => x.freeDone e) = s.onGrp g fun x => x.freeEntry e := by
    exact congrArg (s.setGrp g) (Group.freeDone_eq_freeEntry _ ho ha hs hf)
  change execAccessCompletion g e s = _
  simp [execAccessCompletion, ho, hk, MemOp.waitsRemote, ha, hc, hd]

theorem exec_accessCompletion_copy {o : MemOp} {c : CopyInfo}
    (hfirst : ((s.grp g).oplog.find? fun r => match r.2.copy with | some c' => c'.id = c.id | none => false) = some (e, o))
    (ho : KMap.find e (s.grp g).oplog = some o) (hc : o.copy = some c) (hk : o.kind ≠ .fence) (ha : o.accs = [])
    (hf : ∀ q ∈ (s.grp g).faults, q.log ≠ some e) (hb : ∀ k ∈ s.cores, k.2.copyBusy c.id = false) (hl : ∀ l ∈ s.casts, l.id ≠ c.id) :
    exec (.accessCompletion g e) s = .next (s.onGrp g fun x => x.freeEntry e) := by
  have h1 : ((s.grp g).faults.any fun q => q.log = some e) = false := by simpa using hf
  have h2 : (s.cores.any fun k => k.2.copyBusy c.id) = false := by simpa using hb
  have h3 : (s.casts.any fun l => l.id = c.id) = false := by simpa using hl
  have hset : s.settleCopy g c.id = s.onGrp g fun x => x.freeEntry e := by
    unfold State.settleCopy
    dsimp only
    split
    · rename_i hn
      exact absurd (hn.symm.trans hfirst) (by simp)
    · rename_i e' o' hs
      obtain ⟨rfl, rfl⟩ : (e', o') = (e, o) := Option.some.inj (hs.symm.trans hfirst)
      simp [ha, h1, h2, h3]
  change execAccessCompletion g e s = _
  simp [execAccessCompletion, ho, hk, MemOp.waitsRemote, ha, hc, hset]

/-- What a fence's completion keeps, whether it acquires or not. -/
theorem does_accessCompletion_fence {o : MemOp} (ho : KMap.find e (s.grp g).oplog = some o) (hk : o.kind = .fence) (hok : s.fenceOk g o.op = true) :
    Does (.accessCompletion g e) s fun t => Freed (s.grp g) e o (t.grp g) ∧ MemoryKept s t ∧ ∀ h, h ≠ g → t.grp h = s.grp h := by
  refine ⟨if o.op = 2 then s.onGrp g fun y => y.freeEntry e else (s.onGrp g fun y => y.freeEntry e).acquire g o.scope, ?_, ?_⟩
  · change execAccessCompletion g e s = _
    simp [execAccessCompletion, ho, hk, hok]
  · split
    · refine ⟨by rw [State.grp_onGrp]; exact Group.freed_freeEntry _ ho, MemoryKept.of_eq rfl rfl, fun h hh => ?_⟩
      exact State.grp_onGrp_other s hh _
    · refine ⟨?_, ?_, fun h hh => ?_⟩
      · rw [State.grp_acquire, State.grp_onGrp]; exact Group.freed_freeEntry _ ho
      · exact State.memoryKept_acquire (s.onGrp g _) g o.scope
      · rw [State.grp_acquire]; exact State.grp_onGrp_other s hh _

theorem does_engineStallRelease (h : (KMap.find g s.groups).isSome) : Does (.engineStallRelease g) s fun t => OnlyStream g s t ∧
    t.grp g = { s.grp g with
      stall := if s.awaitedHolds g (s.grp g).stall false then 1 else (s.grp g).stall
      lstall := if s.awaitedHolds g (s.grp g).lstall true then 1 else (s.grp g).lstall } := by
  refine ⟨_, ?_, OnlyStream.of_onGrp s g (fun y => { y with
      stall := if s.awaitedHolds g (s.grp g).stall false then 1 else (s.grp g).stall
      lstall := if s.awaitedHolds g (s.grp g).lstall true then 1 else (s.grp g).lstall }), ?_⟩
  · change execEngineStallRelease g s = _
    have hn : (KMap.find g s.groups).isNone = false := by simpa [Option.isNone_eq_false_iff] using h
    simp [execEngineStallRelease, hn]
  · rw [State.grp_onGrp]

/-! ## A woken wait -/

/-- A signalled stream completes its `waitph`, without looking at the object. -/
theorem State.waitOn_signalled {tm o : Nat} {r p : Bool} {w : WaitRec} (d : BitVec 6) (hw : (s.grp s.me).wait = some w) (hs : w.signalled = true)
    (ht : w.team = tm) (ho : w.obj = o) (hp : w.t = p) :
    s.waitOn tm o r p d = ((s.clearWait s.me).acquire s.me 6).finish d (w.phase.setWidth 64) := by
  unfold State.waitOn
  simp [hw, hs, ht, ho, hp]

theorem State.objCheck_atObject {a : BitVec 6} {tm o : Nat} (h : Claims.AtObject s a tm o) : s.objCheck a false = .ok tm o := by
  obtain ⟨⟨_, hl, hm, hb, _⟩, hs⟩ := h
  unfold State.objCheck
  simp [hl, hm, hs, show (s.grp s.me).sBad a.toNat = false from hb]

/-- With nothing held for it the object is left alone. -/
theorem State.flushHeld_none {tm o : Nat} (h : KMap.find o (s.tm tm).held = none) : s.flushHeld tm o = s := by
  unfold State.flushHeld
  dsimp only
  rw [h]

@[simp] theorem State.tm_finish (d : BitVec 6) (v : Word) (tm : Nat) : (s.finish d v).tm tm = s.tm tm := by
  unfold State.finish State.nextPc State.goto
  rw [State.tm_count]
  rfl

theorem State.grp_finish (d : BitVec 6) (v : Word) :
    (s.finish d v).grp s.me = ({ (s.grp s.me).sSet d.toNat v with pc := (s.grp s.me).pc + 4, stall := 0 } : Group) := by
  have h := s.grp_result [] d v ((s.grp s.me).pc + 4)
  have hp := s.pc_setS_uses [] d v
  rw [State.uses_nil] at h hp
  unfold State.finish State.nextPc
  rw [hp]
  exact h

theorem OnlyStream.finish (d : BitVec 6) (v : Word) : OnlyStream s.me s (s.finish d v) :=
  OnlyStream.goto (.inl (OnlyStream.of_onGrp s s.me fun x => x.sSet d.toNat v)) rfl _

/-- A signalled stream's `waitph`, tried again: it acquires, its wait record goes, and it completes with the phase. -/
theorem does_waitphWake {r p : BitVec 1} {a d : BitVec 6} {w : WaitRec} {tm o : Nat} (hi : s.fetchScalar g = .instr (.waitph r p a d))
    (hw : (s.grp g).wait = some w) (hs : w.signalled = true) (hh : (s.grp g).halted = false) (ho : (s.grp g).out = false)
    (hat : Claims.AtObject { s with cur := .scalar g } a tm o) (ht : w.team = tm) (hob : w.obj = o) (hp : w.t = decide (p = 1#1)) :
    Does (.waitphWake g) s fun t => t.cur = s.cur ∧ Wrote (s.grp g) (t.grp g) d (w.phase.setWidth 64) ∧ (t.grp g).pc = (s.grp g).pc + 4 ∧
      (t.grp g).wait = none ∧ MemoryKept s t ∧ (∀ u, t.tm u = s.tm u) ∧ ∀ h, h ≠ g → t.grp h = s.grp h := by
  let s' : State := { s with cur := .scalar g }
  let v := w.phase.setWidth 64
  let s1 := (s'.clearWait g).acquire g 6
  have hme : s1.me = g := by simp [State.me, s1, s', State.clearWait]
  obtain ⟨⟨htry, _, _, _, hheld⟩, _⟩ := id hat
  have hfin : s'.onObj a (some d) false (fun s tm o => s.waitOn tm o (r = 1#1) (p = 1#1) d) = s1.finish d v := by
    unfold State.onObj
    rw [if_neg (by rw [show (s'.grp s'.me).inTry = false from htry]; simp), State.objCheck_atObject s' hat]
    dsimp only
    rw [State.flushHeld_none s' hheld, State.waitOn_signalled s' d hw hs ht hob hp]
    exact State.flushHeld_none _ (by simpa [State.clearWait] using hheld)
  refine ⟨{ s1.finish d v with cur := s.cur }, ?_, rfl, ?_⟩
  · change execWaitphWake g s = _
    simp only [execWaitphWake, hw, hi, hs, hh, ho]
    exact congrArg (fun t : State => Host.Outcome.next { t with cur := s.cur }) hfin
  have hx : s1.grp g = { s.grp g with wait := none, waited := 0 } := by
    simp only [s1, State.grp_acquire, State.clearWait, State.grp_onGrp]
    rfl
  have hg : (s1.finish d v).grp g = ({ (s1.grp g).sSet d.toNat v with pc := (s1.grp g).pc + 4, stall := 0 } : Group) := by
    have := s1.grp_finish d v
    rwa [hme] at this
  obtain ⟨_, hothers, _, hmem⟩ := hme ▸ OnlyStream.finish s1 d v
  have hwr := (s1.grp g).wrote_sSet d v
  have hs1 : MemoryKept s s1 := State.memoryKept_acquire (s'.clearWait g) g 6
  rw [hx] at hwr hg
  refine ⟨?_, ?_, ?_, ?_, fun u => ?_, fun h hne => ?_⟩
  · exact cast (congrArg (Wrote (s.grp g) · d v) hg.symm) hwr
  · exact congrArg Group.pc hg
  · refine (congrArg Group.wait hg).trans ?_
    unfold Group.sSet
    split <;> rfl
  · exact ⟨fun x => (hmem.1 x).trans (hs1.1 x), fun hb x => (hmem.2 ((State.beneath_acquire ..).trans hb) x).trans (hs1.2 hb x)⟩
  · exact (s1.tm_finish d v u).trans (State.tm_acquire ..)
  · have h1 : (s1.finish d v).grp h = s1.grp h := by rw [State.grp, hothers, KMap.read_put_other _ hne]; rfl
    have h2 : s1.grp h = s.grp h := (State.grp_acquire ..).trans (State.grp_onGrp_other s' hne _)
    exact h1.trans h2

end

end Sys2Proof.Machine
end

