-- ==== Sys2Proof/Proofs/StreamsEnd.lean ====
section
/-! SUPPORT. What ending streams, teams and clusters leaves of the streams: those that end are gone, none joins, and no operand log of one
that stays changes. -/

namespace Sys2Proof.Machine

/-- What leaves the roster leaves the streams. -/
theorem State.groups_of_roster {s t : State} (h : t.roster = s.roster) : t.groups = s.groups := congrArg Roster.groups h

/-! ## Teams and clusters that end leave the streams -/

section
variable (s : State)

@[simp] theorem State.groups_endHolder (h p : Nat) : (s.endHolder h p).groups = s.groups := State.groups_of_roster (s.roster_endHolder h p)

@[simp] theorem State.groups_setTask (p i : Nat) (t : Task) : (s.setTask p i t).groups = s.groups := State.groups_of_roster (s.roster_setTask p i t)

@[simp] theorem State.groups_tryCompleteTask (p i : Nat) : (s.tryCompleteTask p i).groups = s.groups :=
  State.groups_of_roster (s.roster_tryCompleteTask p i)

@[simp] theorem State.groups_onCl (c : Nat) (f : Cluster → Cluster) : (s.onCl c f).groups = s.groups := rfl

@[simp] theorem State.groups_onTm (t : Nat) (f : Team → Team) : (s.onTm t f).groups = s.groups := rfl

@[simp] theorem State.groups_freeCore (t : Nat) : (s.freeCore t).groups = s.groups := by
  unfold State.freeCore
  split
  · rfl
  · dsimp only
    split <;> rfl

/-- What every step of a fold leaves of the streams, the fold leaves. -/
theorem State.groups_foldl {α : Type} (f : State → α → State) (hf : ∀ s x, (f s x).groups = s.groups) (l : List α) (s : State) :
    (l.foldl f s).groups = s.groups := by
  induction l generalizing s with
  | nil => rfl
  | cons x l ih => exact (ih _).trans (hf s x)

@[simp] theorem State.groups_tryEndCluster (c : Nat) : (s.tryEndCluster c).groups = s.groups := by
  unfold State.tryEndCluster
  extract_lets x s1 s2 s3 y s4
  have h2 : s2.groups = s.groups := (State.groups_foldl _ (fun s t => s.groups_freeCore t) _ _).trans (s.groups_endHolder ..)
  have h3 : s3.groups = s2.groups := s2.groups_onCl ..
  split
  · rfl
  · rw [State.groups_tryCompleteTask, State.groups_setTask, h3, h2]

@[simp] theorem State.groups_queueRelaunch (c : Nat) : (s.queueRelaunch c).groups = s.groups := by
  unfold State.queueRelaunch
  dsimp only
  split <;> rfl

@[simp] theorem State.groups_settleOut (c : Nat) : (s.settleOut c).groups = s.groups := by
  unfold State.settleOut
  extract_lets s1
  split
  · rfl
  · split
    · rfl
    · split
      · split
        · exact s1.groups_queueRelaunch c
        · rfl
      · rfl

@[simp] theorem State.groups_tryEndTeam (t : Nat) : (s.tryEndTeam t).groups = s.groups := by
  unfold State.tryEndTeam
  extract_lets x s1 s2 s3 s4
  have h2 : s2.groups = s.groups := by
    unfold s2
    split
    · exact s.groups_endHolder ..
    · exact (s1.groups_freeCore t).trans (s.groups_endHolder ..)
  split
  · rfl
  · rw [State.groups_settleOut, State.groups_tryEndCluster]
    exact h2

@[simp] theorem State.groups_failCluster (c t status : Nat) : (s.failCluster c t status).groups = s.groups := by
  unfold State.failCluster
  extract_lets id x u s1
  have h1 : s1.groups = s.groups := s.groups_onCl ..
  split
  · rw [State.groups_setTask, h1]
  · exact h1

end

/-! ## Streams that end -/

/-- No stream joins, and no operand log of one that stays changes. -/
def NoneJoins (s t : State) : Prop :=
  ∀ h, ((t.grp h).oplog = (s.grp h).oplog ∨ KMap.find h t.groups = none) ∧ (KMap.find h s.groups = none → KMap.find h t.groups = none)

theorem NoneJoins.of_groups {s t : State} (h : t.groups = s.groups) : NoneJoins s t := fun n => by
  rw [State.grp, h]
  exact ⟨.inl rfl, id⟩

theorem NoneJoins.refl (s : State) : NoneJoins s s := .of_groups rfl

theorem NoneJoins.trans {s t u : State} (h : NoneJoins s t) (k : NoneJoins t u) : NoneJoins s u := fun n => by
  obtain ⟨h1, h2⟩ := h n
  obtain ⟨k1, k2⟩ := k n
  refine ⟨?_, k2 ∘ h2⟩
  rcases k1 with k1 | k1
  · rcases h1 with h1 | h1
    · exact .inl (k1.trans h1)
    · exact .inr (k2 h1)
  · exact .inr k1

theorem NoneJoins.foldl {α : Type} (f : State → α → State) (hf : ∀ s x, NoneJoins s (f s x)) (l : List α) (s : State) : NoneJoins s (l.foldl f s) := by
  induction l generalizing s with
  | nil => exact .refl s
  | cons x l ih => exact (hf s x).trans (ih _)

theorem OwnRegisters.oplog {g : Nat} {s t : State} (h : OwnRegisters g s t) (n : Nat) : (t.grp n).oplog = (s.grp n).oplog := by
  obtain ⟨_, hg | ⟨y, hg, hy⟩⟩ := h
  · rw [State.grp, hg]; rfl
  · unfold State.grp
    rw [hg, KMap.read_put]
    split
    · rename_i hn
      rw [hn, hy]
      rfl
    · rfl

/-- Operations of a live stream add no stream. -/
theorem OwnRegisters.noneJoins {g : Nat} {s t : State} (h : OwnRegisters g s t) (hg : (KMap.find g s.groups).isSome) : NoneJoins s t := fun n => by
  refine ⟨.inl (h.oplog n), fun hn => ?_⟩
  obtain ⟨_, h | ⟨y, h, _⟩⟩ := h
  · rw [h]; exact hn
  · have hne : n ≠ g := fun e => by rw [← e, hn] at hg; cases hg
    rw [h, KMap.find_put_other hne]
    exact hn

section
variable (s : State) (g : Nat)

/-- The stores that a stream has queued are performed on its own account. -/
theorem OwnRegisters.drainStream : OwnRegisters g s (s.drainStream g) := by
  unfold State.drainStream
  generalize (s.grp g).faults.filter (fun o => o.inOrder) ++ (s.grp g).storeq = l
  induction l generalizing s with
  | nil => exact .refl g s
  | cons o l ih => exact (OwnRegisters.performAll ..).trans (ih _)

theorem NoneJoins.drainStream : NoneJoins s (s.drainStream g) := by
  cases h : KMap.find g s.groups with
  | some x => exact (OwnRegisters.drainStream s g).noneJoins (by rw [h]; rfl)
  | none =>
    have he : s.drainStream g = s := by
      unfold State.drainStream
      rw [State.grp, KMap.read, h]
      rfl
    rw [he]
    exact .refl s

theorem State.groups_endStream_of_some {x : Group} (h : KMap.find g s.groups = some x) : (s.endStream g).groups = KMap.del g s.groups := by
  unfold State.endStream
  rw [h]
  dsimp only
  split <;> rfl

@[simp] theorem State.find_endStream_same : KMap.find g (s.endStream g).groups = none := by
  cases h : KMap.find g s.groups with
  | some x => rw [s.groups_endStream_of_some g h, KMap.find_del_same]
  | none => unfold State.endStream; rw [h]; exact h

theorem State.find_endStream_other {h : Nat} (hh : h ≠ g) : KMap.find h (s.endStream g).groups = KMap.find h s.groups := by
  cases hg : KMap.find g s.groups with
  | some x => rw [s.groups_endStream_of_some g hg, KMap.find_del_other hh]
  | none => unfold State.endStream; rw [hg]

theorem NoneJoins.endStream : NoneJoins s (s.endStream g) := fun n => by
  by_cases hn : n = g
  · rw [hn]
    exact ⟨.inr (by simp), fun _ => by simp⟩
  · rw [State.grp, KMap.read, s.find_endStream_other g hn]
    exact ⟨.inl rfl, id⟩

/-- A stream that ends at once: what it has queued is performed first. -/
theorem NoneJoins.drainedEnd : NoneJoins s ((s.drainStream g).endStream g) :=
  (NoneJoins.drainStream s g).trans (NoneJoins.endStream _ g)

theorem State.groups_endTeamNow (t : Nat) :
    (s.endTeamNow t).groups = ((s.teamGroups t).foldl (fun s g => (s.drainStream g).endStream g) s).groups := by
  unfold State.endTeamNow
  rw [State.groups_tryEndTeam, State.groups_onTm]

theorem NoneJoins.endTeamNow (t : Nat) : NoneJoins s (s.endTeamNow t) :=
  (NoneJoins.foldl _ (fun s g => NoneJoins.drainedEnd s g) (s.teamGroups t) s).trans (.of_groups (s.groups_endTeamNow t))

/-- A fold that ends each stream of a list leaves none of them. -/
theorem State.find_drainedEnds (l : List Nat) (h : g ∈ l) :
    KMap.find g (l.foldl (fun s h => (s.drainStream h).endStream h) s).groups = none := by
  induction l generalizing s with
  | nil => cases h
  | cons a l ih =>
    by_cases ha : g = a
    · subst ha
      exact (NoneJoins.foldl _ (fun s g => NoneJoins.drainedEnd s g) l _ g).2 (by simp)
    · exact ih _ (by simpa [ha] using h)

theorem NoneJoins.endWithStatus (status : Nat) : NoneJoins s (s.endWithStatus g status) := by
  unfold State.endWithStatus
  extract_lets t c s1 ms s2 s3
  have h1 : NoneJoins s s1 := .of_groups (s.groups_failCluster ..)
  split
  · exact h1.trans (NoneJoins.endTeamNow s1 t)
  · have h2 : s2.groups = s1.groups := State.groups_foldl _ (fun s m => by split <;> rfl) _ _
    have h3 : NoneJoins s s3 := (h1.trans (.of_groups h2)).trans (NoneJoins.drainedEnd s2 g)
    have h4 : NoneJoins s (ms.foldl State.endTeamNow s3) := h3.trans (NoneJoins.foldl _ (fun s t => NoneJoins.endTeamNow s t) ms s3)
    exact h4.trans (.of_groups (State.groups_tryEndCluster ..))


theorem KMap.mem_keys {α : Type} {k : Nat} {m : KMap α} (h : (KMap.find k m).isSome) : k ∈ KMap.keys m := by
  induction m with
  | nil => cases h
  | cons e m ih =>
    obtain ⟨j, v⟩ := e
    by_cases hj : j = k
    · simp [KMap.keys, hj]
    · rw [KMap.find, if_neg hj] at h
      exact List.mem_cons_of_mem _ (ih h)

/-- A stream whose team, or whose cluster, is ended with a status is gone. -/
theorem State.find_endWithStatus (status : Nat) : KMap.find g (s.endWithStatus g status).groups = none := by
  cases h : KMap.find g s.groups with
  | none => exact (NoneJoins.endWithStatus s g status g).2 h
  | some x =>
    unfold State.endWithStatus
    extract_lets t c s1 ms s2 s3
    have h1 : s1.groups = s.groups := s.groups_failCluster ..
    split
    · rename_i hk
      have hm : g ∈ s1.teamGroups t := by
        simp only [State.teamGroups, State.teamStreams, List.mem_filter, decide_eq_true_eq]
        exact ⟨⟨KMap.mem_keys (by rw [h1, h]; rfl), rfl⟩, hk⟩
      rw [State.groups_endTeamNow]
      exact s1.find_drainedEnds g _ hm
    · rw [State.groups_tryEndCluster]
      exact (NoneJoins.foldl _ (fun s t => NoneJoins.endTeamNow s t) ms s3 g).2 (State.find_endStream_same _ g)

end

end Sys2Proof.Machine
end

