-- ==== Sys2Proof/Proofs/Landing.lean ====
section
/-! SUPPORT. After the answers of another device, or their lack, an operand-log entry waits for none. -/

namespace Sys2Proof.Machine

/-- The entry, where it stands, waits for no other device; keys of the operand log rise. -/
def Settled (e : Nat) (x : Group) : Prop := KMap.rising x.oplog = true ∧ ∀ o, KMap.find e x.oplog = some o → o.waitsRemote = false

/-- None of the accesses left is on its way. -/
def AllBack (left : List (LaneAcc × Option Cause)) : Prop := ∀ p ∈ left, p.1.sent = false

section
variable {e : Nat} {x y : Group}

theorem Settled.of_oplog (h : Settled e x) (hy : y.oplog = x.oplog) : Settled e y := by
  unfold Settled
  rw [hy]
  exact h

theorem KMap.find_none_of_all {α : Type} {k : Nat} {m : KMap α} (h : ∀ p ∈ m, p.1 ≠ k) : KMap.find k m = none := by
  induction m with
  | nil => rfl
  | cons p m ih =>
    obtain ⟨j, v⟩ := p
    have hj : j ≠ k := h (j, v) (List.mem_cons_self ..)
    rw [KMap.find, if_neg hj]
    exact ih fun p hp => h p (List.mem_cons_of_mem _ hp)

theorem KMap.rising_filter {α : Type} (p : Nat × α → Bool) {m : KMap α} (h : KMap.rising m = true) : KMap.rising (m.filter p) = true := by
  induction m with
  | nil => rfl
  | cons a m ih =>
    obtain ⟨j, v⟩ := a
    obtain ⟨ha, hm⟩ := (KMap.rising_cons j v m).1 h
    rw [List.filter_cons]
    split
    · exact (KMap.rising_cons ..).2 ⟨fun b hb => ha b (List.mem_of_mem_filter hb), ih hm⟩
    · exact ih hm

/-- Where keys rise, taking entries out never uncovers another of the same key. -/
theorem KMap.find_filter {α : Type} (p : Nat × α → Bool) {k : Nat} {m : KMap α} (h : KMap.rising m = true) {v : α}
    (hf : KMap.find k (m.filter p) = some v) : KMap.find k m = some v := by
  induction m with
  | nil => exact hf
  | cons a m ih =>
    obtain ⟨j, w⟩ := a
    obtain ⟨ha, hm⟩ := (KMap.rising_cons j w m).1 h
    have hin : KMap.find k (m.filter p) = some v → j ≠ k := by
      rintro hv rfl
      rw [KMap.find_none_of_all fun b hb => Nat.ne_of_gt (ha b (List.mem_of_mem_filter hb))] at hv
      cases hv
    rw [List.filter_cons] at hf
    by_cases hp : p (j, w)
    · rw [if_pos hp, KMap.find] at hf
      rw [KMap.find]
      split
      · rename_i hj; rwa [if_pos hj] at hf
      · rename_i hj; rw [if_neg hj] at hf; exact ih hm hf
    · rw [if_neg hp] at hf
      rw [KMap.find, if_neg (hin hf)]
      exact ih hm hf

theorem Settled.filter (h : Settled e x) {p : Nat × MemOp → Bool} (hy : y.oplog = x.oplog.filter p) : Settled e y := by
  obtain ⟨hr, hf⟩ := h
  unfold Settled
  rw [hy]
  exact ⟨KMap.rising_filter p hr, fun o ho => hf o (KMap.find_filter p hr ho)⟩

theorem Settled.del (h : Settled e x) {j : Nat} (hy : y.oplog = KMap.del j x.oplog) : Settled e y := by
  obtain ⟨hr, hf⟩ := h
  unfold Settled
  rw [hy]
  refine ⟨KMap.rising_del _ _ hr, fun o ho => ?_⟩
  by_cases hj : e = j
  · rw [hj, KMap.find_del_same] at ho; cases ho
  · rw [KMap.find_del_other hj] at ho; exact hf o ho

/-- The entry itself is taken out. -/
theorem Settled.gone (h : KMap.rising x.oplog = true) (hy : y.oplog = KMap.del e x.oplog) : Settled e y := by
  unfold Settled
  rw [hy]
  exact ⟨KMap.rising_del _ _ h, fun o ho => by rw [KMap.find_del_same] at ho; cases ho⟩

/-- The entry itself is written, with nothing on its way. -/
theorem Settled.written (h : KMap.rising x.oplog = true) {o : MemOp} (ho : o.waitsRemote = false) (hy : y.oplog = KMap.put e o x.oplog) :
    Settled e y := by
  unfold Settled
  rw [hy]
  refine ⟨KMap.rising_put _ _ _ h, fun q hq => ?_⟩
  rw [KMap.find_put_same] at hq
  cases hq
  exact ho

/-- Any entry is written with nothing on its way. -/
theorem Settled.put (h : Settled e x) {j : Nat} {o : MemOp} (ho : o.waitsRemote = false) (hy : y.oplog = KMap.put j o x.oplog) : Settled e y := by
  obtain ⟨hr, hf⟩ := h
  by_cases hj : e = j
  · rw [← hj] at hy
    exact .written hr ho hy
  · unfold Settled
    rw [hy]
    refine ⟨KMap.rising_put _ _ _ hr, fun q hq => hf q ?_⟩
    rwa [KMap.find_put_other hj] at hq

theorem Settled.default : Settled e {} := ⟨rfl, fun _ h => by cases h⟩

/-- Streams that end, and what goes on beside them, leave it. -/
theorem Settled.noneJoins {s t : State} {g : Nat} (h : Settled e (s.grp g)) (k : NoneJoins s t) : Settled e (t.grp g) := by
  rcases (k g).1 with ho | hn
  · exact h.of_oplog ho
  · rw [State.grp, KMap.read, hn]
    exact .default

theorem Settled.onGrp {s : State} {g : Nat} {f : Group → Group} (h : Settled e (f (s.grp g))) : Settled e ((s.onGrp g f).grp g) := by
  rwa [State.grp_onGrp]

end

/-! ## Traps and aborts -/

section
variable {e : Nat}

@[simp] theorem Group.oplog_sSet (x : Group) (i : Nat) (v : Word) : (x.sSet i v).oplog = x.oplog := by
  unfold Group.sSet
  split <;> rfl

theorem Group.oplog_aborted (x : Group) (y : TryState) (code detail : Nat) :
    (x.aborted y code detail).oplog = x.oplog.filter fun e => !e.2.discarded := by
  unfold Group.aborted
  exact Group.oplog_sSet ..

variable {s : State} {g : Nat}

theorem Settled.abortGroup (h : Settled e (s.grp g)) (code detail : Nat) : Settled e ((s.abortGroup g code detail).grp g) := by
  unfold State.abortGroup
  split
  · exact h
  · rw [State.grp_count]
    exact .onGrp (h.filter (Group.oplog_aborted ..))

theorem Settled.kernelFault (h : Settled e (s.grp g)) (i : TrapInfo) : Settled e ((s.kernelFault g i).grp g) := by
  have h1 : Settled e ((s.onGrp g fun x => { x with halted := true, laneStopped := true }).grp g) := .onGrp (h.of_oplog rfl)
  unfold State.kernelFault
  exact (h1.noneJoins (.of_groups (State.groups_of_roster (State.roster_post ..)))).noneJoins (NoneJoins.endWithStatus _ g 3)

theorem Settled.trap (h : Settled e (s.grp g)) (i : TrapInfo) : Settled e ((s.trap g i).grp g) := by
  unfold State.trap
  dsimp only
  split
  · exact h.abortGroup ..
  · split
    · exact .onGrp (h.of_oplog rfl)
    · split
      · exact h.kernelFault i
      · exact .onGrp (h.of_oplog rfl)

theorem Settled.takeLoadFault (h : Settled e (s.grp g)) (j : Nat) : Settled e ((s.takeLoadFault g j).grp g) := by
  unfold State.takeLoadFault
  dsimp only
  split
  · exact h
  · split
    · split
      · exact h.trap _
      · exact h
    · exact h

theorem Settled.takeImprecise (h : Settled e (s.grp g)) : Settled e ((s.takeImprecise g).grp g) := by
  unfold State.takeImprecise
  dsimp only
  split
  · exact h
  · split
    · exact h
    · split
      · exact h
      · exact h.trap _

theorem Settled.takeTimer (h : Settled e (s.grp g)) : Settled e ((s.takeTimer g).grp g) := by
  unfold State.takeTimer
  extract_lets x s1
  have h1 : Settled e (s1.grp g) := .onGrp (h.of_oplog rfl)
  split
  · exact h
  · split
    · exact h1.abortGroup ..
    · exact h1.trap _

/-! ## Stopping -/

theorem Settled.unfence {x : Group} (h : Settled e x) : Settled e x.unfence := by
  unfold Group.unfence
  split
  · split
    · exact h
    · extract_lets y
      have hy : Settled e y := h.del rfl
      split
      · extract_lets i
        split
        · exact hy.of_oplog rfl
        · exact hy.of_oplog (y.oplog_lower _)
      · exact hy.of_oplog (y.oplog_lower _)
  · exact h

theorem Settled.stopStream (h : Settled e (s.grp g)) : Settled e ((s.stopStream g).grp g) := by
  unfold State.stopStream
  extract_lets s1 s2
  have h1 : Settled e (s1.grp g) := by
    unfold s1
    split
    · exact h.takeLoadFault _
    · exact h
  have h2 : Settled e (s2.grp g) := h1.takeImprecise.takeTimer
  split
  · exact .onGrp (h.of_oplog rfl)
  · split
    · exact h
    · split
      · exact .onGrp (h2.unfence.of_oplog rfl)
      · exact h2

theorem Settled.stopLater (h : Settled e (s.grp g)) : Settled e ((s.stopLater g).grp g) := by
  unfold State.stopLater
  split
  · exact h.stopStream
  · exact h

/-! ## What the answers come to -/

theorem MemOp.not_waitsRemote {o : MemOp} (h : ∀ a ∈ o.accs, a.sent = false) : o.waitsRemote = false := by
  unfold MemOp.waitsRemote
  simpa using h

theorem AllBack.accs {left : List (LaneAcc × Option Cause)} (h : AllBack left) : ∀ a ∈ left.map Prod.fst, a.sent = false := by
  intro a ha
  obtain ⟨p, hp, rfl⟩ := List.mem_map.1 ha
  exact h p hp

theorem Settled.freeDone {x : Group} (h : Settled e x) : Settled e (x.freeDone e) := by
  unfold Group.freeDone
  split
  · split
    · unfold Group.freeEntry
      split
      · exact (Settled.del (y := { x with oplog := KMap.del e x.oplog }) h rfl).of_oplog (Group.oplog_lower ..)
      · exact h
    · exact h
  · exact h

theorem Settled.holdFault {x : Group} (h : Settled e x) (j : Nat) (o : MemOp) {left : List (LaneAcc × Option Cause)} (hl : AllBack left) :
    Settled e (x.holdFault j o left) := by
  unfold Group.holdFault
  extract_lets o1 kept
  refine h.put (MemOp.not_waitsRemote ?_) rfl
  have hf (p : LaneAcc → Bool) : ∀ a ∈ (left.map Prod.fst).filter p, a.sent = false := fun a ha => hl.accs a (List.mem_of_mem_filter ha)
  unfold kept
  split
  · exact hf _
  · exact hf _

theorem Settled.settleStore {x : Group} (h : KMap.rising x.oplog = true) (o : MemOp) {left : List (LaneAcc × Option Cause)} (hl : AllBack left) :
    Settled e (x.settleStore e o left) := by
  unfold Group.settleStore
  extract_lets y
  have hy : Settled e y := .written h rfl rfl
  split
  · exact hy.freeDone
  · split
    · exact hy.of_oplog rfl
    · exact hy.holdFault e o hl

theorem Settled.refault {x : Group} (h : KMap.rising x.oplog = true) (o : MemOp) {left : List (LaneAcc × Option Cause)} (hl : AllBack left) :
    Settled e (x.refault e o left) :=
  (Settled.gone (y := { x with oplog := KMap.del e x.oplog, faults := x.faults.filter fun f => f.log ≠ some e, taken := x.taken + 1 }) h rfl).holdFault
    _ _ hl

theorem Settled.freeEntry {x : Group} (h : KMap.rising x.oplog = true) : Settled e (x.freeEntry e) := by
  unfold Group.freeEntry
  split
  · exact (Settled.gone (y := { x with oplog := KMap.del e x.oplog }) h rfl).of_oplog (Group.oplog_lower ..)
  · rename_i hn
    exact ⟨h, fun o ho => by rw [hn] at ho; cases ho⟩

theorem Settled.settleLanded (h : KMap.rising (s.grp g).oplog = true) (o : MemOp) {left : List (LaneAcc × Option Cause)} (hl : AllBack left) :
    Settled e ((s.settleLanded g e o left).grp g) := by
  unfold State.settleLanded
  extract_lets accs s1 held
  have haccs : ∀ a ∈ accs, a.sent = false := hl.accs
  split
  · exact .onGrp (.settleStore h o hl)
  · split
    · have h1 : Settled e (s1.grp g) := by
        refine .onGrp ?_
        dsimp only
        split
        · exact .written h (MemOp.not_waitsRemote haccs) rfl
        · split
          · exact .freeEntry h
          · exact (Settled.freeEntry h).of_oplog rfl
      unfold State.acquireDone
      split
      · rwa [State.grp_acquire]
      · exact h1
    · extract_lets o1 s2
      have h2 : Settled e (s2.grp g) := .onGrp (.written h (MemOp.not_waitsRemote haccs) rfl)
      split
      · exact .onGrp (.refault h o hl)
      · split
        · exact h2
        · split
          · exact h2.takeLoadFault e
          · exact h2.trap _

end

/-! ## The answers themselves -/

section
variable (g : Nat) (o : MemOp)

theorem OwnRegisters.landAcc (s : State) (a : LaneAcc) (v : Nat × Bool) : OwnRegisters g s (s.landAcc g o a v) := by
  have hc (b lane : Bool) : OwnRegisters g s (if b then s.consumed g lane else s) := .consumedIf rfl ..
  unfold State.landAcc
  extract_lets n
  split
  case h_1 | h_2 =>
    split
    · exact .onGrp _ _ _ fun x => x.registersOnly_putLoad ..
    · exact (hc ..).trans (.onGrp _ _ _ fun x => x.registersOnly_sSet ..)
  case h_3 =>
    split
    · exact (hc ..).trans (.onGrp _ _ _ fun x => x.registersOnly_putLoad ..)
    · exact (hc ..).trans (.onGrp _ _ _ fun x => x.registersOnly_sSet ..)
  case h_4 => exact hc ..
  case h_5 => exact .refl g s

theorem OwnRegisters.landAll (late : Bool) (as : List LaneAcc) (s : State) : OwnRegisters g s (s.landAll g o late as).1 := by
  induction as generalizing s with
  | nil => exact .refl g s
  | cons a as ih =>
    unfold State.landAll
    split
    · exact ih s
    · extract_lets r
      have hr : OwnRegisters g s r.2 := by
        unfold r
        split
        · exact .refl g s
        · exact .of_roster rfl
      split
      · exact (hr.trans (.landAcc ..)).trans (ih _)
      · exact hr.trans (ih _)

theorem State.allBack_landAll (late : Bool) (as : List LaneAcc) (s : State) : AllBack (s.landAll g o late as).2 := by
  induction as generalizing s with
  | nil => intro p hp; cases hp
  | cons a as ih =>
    unfold State.landAll
    split
    · rename_i ha
      intro p hp
      rcases List.mem_cons.1 hp with rfl | hp
      · simpa using ha
      · exact ih s p hp
    · extract_lets r
      split
      · exact ih _
      · intro p hp
        rcases List.mem_cons.1 hp with rfl | hp
        · rfl
        · exact ih _ p hp

/-- After the answers to its accesses, or their lack, an entry waits for none. -/
theorem Settled.landEntry {s : State} {e : Nat} (h : KMap.rising (s.grp g).oplog = true) (late : Bool) : Settled e ((s.landEntry g e o late).grp g) := by
  unfold State.landEntry
  refine (Settled.settleLanded ?_ o (State.allBack_landAll g o late o.accs s)).stopLater
  rw [(OwnRegisters.landAll g o late o.accs s).oplog]
  exact h

end

end Sys2Proof.Machine
end

