-- ==== Sys2Proof/Proofs/RegisterLines.lean ====
section
/-! SUPPORT. Fills of register lines: what they poison, and what making room for a line leaves. -/

namespace Sys2Proof.Machine

/-! ## Poisoned sectors -/

section
variable (x : Group)

theorem Group.vBad_poisonSlots (line : Nat) {l : Nat} (r : Nat) (hl : l < 16) (ks : List Nat) (hk : ∀ k ∈ ks, k < 16) :
    (ks.foldl (fun x k => { x with vPoison := KMap.write false (vkey k line) true x.vPoison }) x).vBad l r =
      (x.vBad l r || (decide (line = r) && ks.contains l)) := by
  induction ks generalizing x with
  | nil => simp
  | cons k ks ih =>
    rw [List.foldl_cons, ih _ fun j hj => hk j (List.mem_cons_of_mem _ hj)]
    have hw : ({ x with vPoison := KMap.write false (vkey k line) true x.vPoison } : Group).vBad l r =
        (x.vBad l r || (decide (line = r) && l == k)) := by
      unfold Group.vBad
      by_cases h : vkey l r = vkey k line
      · obtain ⟨hlk, hrl⟩ := (vkey_eq_iff hl (hk k (List.mem_cons_self ..))).1 h
        rw [h, KMap.read_write_same]
        simp [hlk, hrl]
      · have hne : ¬(line = r ∧ l = k) := fun ⟨hr, hl⟩ => h (by rw [hr, hl])
        rw [KMap.read_write_other _ h, show (decide (line = r) && l == k) = false by simpa using hne, Bool.or_false]
    rw [hw, List.contains_cons, Bool.and_or_distrib_left, Bool.or_assoc]

theorem Group.sBad_poisonSlots (ks : List Nat) (r : Nat) :
    (ks.foldl (fun x k => { x with sPoison := KMap.write false k true x.sPoison }) x).sBad r = (x.sBad r || (decide (r ≠ 0) && ks.contains r)) := by
  induction ks generalizing x with
  | nil => simp
  | cons k ks ih =>
    have hw : ({ x with sPoison := KMap.write false k true x.sPoison } : Group).sBad r = (x.sBad r || (decide (r ≠ 0) && r == k)) := by
      unfold Group.sBad
      by_cases h : r = k
      · rw [h, KMap.read_write_same]
        cases decide (k ≠ 0) <;> simp
      · rw [KMap.read_write_other _ h, show (r == k) = false by simpa using h, Bool.and_false, Bool.or_false]
    rw [List.foldl_cons, ih, hw, List.contains_cons, Bool.and_or_distrib_left, Bool.or_assoc]

/-- The slots of a sector: of a vector line eight lanes, of a scalar one four registers. -/
theorem Group.poisonSector_eq (line half : Nat) : x.poisonSector line half =
    if line < 256 then ((List.range 8).map (8 * half + ·)).foldl (fun x k => { x with vPoison := KMap.write false (vkey k line) true x.vPoison }) x
    else ((List.range 4).map (8 * (line - 256) + 4 * half + ·)).foldl (fun x k => { x with sPoison := KMap.write false k true x.sPoison }) x := by
  unfold Group.poisonSector
  rw [List.foldl_map, List.foldl_map]

theorem Group.vBad_poisonSector (line : Nat) {half l : Nat} (hh : half < 2) (hl : l < 16) (r : Nat) :
    (x.poisonSector line half).vBad l r = (x.vBad l r || (decide (line = r) && decide (r < 256) && decide (l / 8 = half))) := by
  rw [Group.poisonSector_eq]
  split
  · rw [Group.vBad_poisonSlots x line r hl]
    · have hc : ((List.range 8).map (8 * half + ·)).contains l = decide (l / 8 = half) := by
        rw [Bool.eq_iff_iff]
        simp only [List.contains_iff_mem, List.mem_map, List.mem_range, decide_eq_true_eq]
        exact ⟨by rintro ⟨i, hi, rfl⟩; omega, fun h => ⟨l % 8, by omega, by omega⟩⟩
      rw [hc]
      by_cases h : line = r
      · have : r < 256 := by omega
        simp [h, this]
      · simp [h]
    · intro k hk
      obtain ⟨i, hi, rfl⟩ := List.mem_map.1 hk
      rw [List.mem_range] at hi
      omega
  · have hv (ks : List Nat) : ((ks.foldl (fun x k => { x with sPoison := KMap.write false k true x.sPoison }) x).vPoison) = x.vPoison := by
      induction ks generalizing x with
      | nil => rfl
      | cons k ks ih => exact ih _
    have hn : ¬(line = r ∧ r < 256) := by omega
    rw [Group.vBad, hv, ← Bool.decide_and, decide_eq_false hn]
    simp [Group.vBad]

theorem Group.sBad_poisonSector (line : Nat) {half : Nat} (hh : half < 2) {r : Nat} (hr : r < 64) :
    (x.poisonSector line half).sBad r = (x.sBad r || (decide (r ≠ 0) && decide (line = 256 + r / 8) && decide (r % 8 / 4 = half))) := by
  rw [Group.poisonSector_eq]
  split
  · have hs (ks : List Nat) : ((ks.foldl (fun x k => { x with vPoison := KMap.write false (vkey k line) true x.vPoison }) x).sPoison) = x.sPoison := by
      induction ks generalizing x with
      | nil => rfl
      | cons k ks ih => exact ih _
    have hn : ¬line = 256 + r / 8 := by omega
    rw [Group.sBad, hs, decide_eq_false hn]
    simp [Group.sBad]
  · rw [Group.sBad_poisonSlots]
    have hc : ((List.range 4).map (8 * (line - 256) + 4 * half + ·)).contains r = (decide (line = 256 + r / 8) && decide (r % 8 / 4 = half)) := by
      rw [Bool.eq_iff_iff]
      simp only [List.contains_iff_mem, List.mem_map, List.mem_range, Bool.and_eq_true, decide_eq_true_eq]
      exact ⟨by rintro ⟨i, hi, rfl⟩; omega, fun h => ⟨r % 4, by omega, by omega⟩⟩
    rw [hc, Bool.and_assoc]

/-- Poison marks are all that changed. -/
def PoisonOnly (x y : Group) : Prop := y = { x with sPoison := y.sPoison, vPoison := y.vPoison }

theorem PoisonOnly.foldl {α : Type} (f : Group → α → Group) (hf : ∀ x a, PoisonOnly x (f x a)) (l : List α) (x : Group) : PoisonOnly x (l.foldl f x) := by
  induction l generalizing x with
  | nil => rfl
  | cons a l ih =>
    have h1 := hf x a
    have h2 := ih (f x a)
    unfold PoisonOnly at *
    rw [List.foldl_cons, h2, h1]

theorem Group.poisonOnly_poisonSector (line half : Nat) : PoisonOnly x (x.poisonSector line half) := by
  rw [Group.poisonSector_eq]
  split
  · exact .foldl (fun x k => { x with vPoison := KMap.write false (vkey k line) true x.vPoison }) (fun _ _ => rfl) _ x
  · exact .foldl (fun x k => { x with sPoison := KMap.write false k true x.sPoison }) (fun _ _ => rfl) _ x

/-- Several sectors of one line. -/
def Group.poisonSectors (line : Nat) (halves : List Nat) : Group := halves.foldl (fun x h => x.poisonSector line h) x

theorem Group.poisonOnly_poisonSectors (line : Nat) (halves : List Nat) : PoisonOnly x (x.poisonSectors line halves) :=
  .foldl _ (fun x h => x.poisonOnly_poisonSector line h) _ x

/-- No register's bits change, and no PC. -/
theorem Group.values_poisonSectors (line : Nat) (halves : List Nat) :
    (x.poisonSectors line halves).v = x.v ∧ (x.poisonSectors line halves).s = x.s ∧ (x.poisonSectors line halves).pc = x.pc := by
  have h := x.poisonOnly_poisonSectors line halves
  unfold PoisonOnly at h
  rw [h]
  exact ⟨rfl, rfl, rfl⟩

theorem Group.vBad_poisonSectors (line : Nat) {l : Nat} (hl : l < 16) (r : Nat) (halves : List Nat) (hh : ∀ h ∈ halves, h < 2) :
    (x.poisonSectors line halves).vBad l r = (x.vBad l r || (decide (line = r) && decide (r < 256) && halves.contains (l / 8))) := by
  unfold Group.poisonSectors
  induction halves generalizing x with
  | nil => simp
  | cons h hs ih =>
    rw [List.foldl_cons, ih _ fun j hj => hh j (List.mem_cons_of_mem _ hj), x.vBad_poisonSector line (hh h (List.mem_cons_self ..)) hl,
      List.contains_cons, Bool.and_or_distrib_left, Bool.or_assoc]
    rfl

theorem Group.sBad_poisonSectors (line : Nat) {r : Nat} (hr : r < 64) (halves : List Nat) (hh : ∀ h ∈ halves, h < 2) :
    (x.poisonSectors line halves).sBad r =
      (x.sBad r || (decide (r ≠ 0) && decide (line = 256 + r / 8) && halves.contains (r % 8 / 4))) := by
  unfold Group.poisonSectors
  induction halves generalizing x with
  | nil => simp
  | cons h hs ih =>
    rw [List.foldl_cons, ih _ fun j hj => hh j (List.mem_cons_of_mem _ hj), x.sBad_poisonSector line (hh h (List.mem_cons_self ..)) hr,
      List.contains_cons, Bool.and_or_distrib_left, Bool.or_assoc]
    rfl

end

/-! ## Images -/

/-- Memory and the outside's answers apart, nothing changed. -/
def ImageOnly (s t : State) : Prop :=
  t = { s with mem := t.mem, poison := t.poison, check := t.check, free := t.free }

theorem ImageOnly.refl (s : State) : ImageOnly s s := rfl

theorem ImageOnly.trans {s t u : State} (h : ImageOnly s t) (k : ImageOnly t u) : ImageOnly s u := by
  unfold ImageOnly at *
  rw [k, h]

/-- Everything but memory stands, the outside's answers apart. -/
theorem ImageOnly.frame {s t : State} (h : ImageOnly s t) : t.parts = s.parts ∧ t.teams = s.teams ∧ t.clusters = s.clusters ∧ t.groups = s.groups ∧
    t.cores = s.cores ∧ t.caps = s.caps ∧ t.turner = s.turner := by
  rw [h]
  exact ⟨rfl, rfl, rfl, rfl, rfl, rfl, rfl⟩

theorem ImageOnly.foldl {α : Type} (f : State → α → State) (hf : ∀ s a, ImageOnly s (f s a)) (l : List α) (s : State) : ImageOnly s (l.foldl f s) := by
  induction l generalizing s with
  | nil => exact .refl s
  | cons a l ih => exact (hf s a).trans (ih _)

theorem ImageOnly.ite {s t u : State} (c : Prop) [Decidable c] (h : ImageOnly s t) (k : ImageOnly s u) : ImageOnly s (if c then t else u) := by
  split
  · exact h
  · exact k

section
variable (s : State)

theorem ImageOnly.storeAt (a : Nat) (bs : List Byte) : ImageOnly s (s.storeAt a bs) := rfl

theorem ImageOnly.storeBlock (a : Nat) (bs : List Byte) : ImageOnly s (s.storeBlock a bs) :=
  .ite _ ((ImageOnly.storeAt s a bs).trans (ImageOnly.storeAt ..)) (ImageOnly.storeAt s a bs)

theorem ImageOnly.putImage (t o : Nat) (bs : List Byte) : ImageOnly s (s.putImage t o bs) :=
  .foldl _ (fun s _ => .storeBlock s ..) _ s

theorem ImageOnly.putOwn (t o n : Nat) : ImageOnly s (s.putOwn t o n) := (ImageOnly.putImage s ..).trans rfl

theorem ImageOnly.badImage (t o : Nat) : ImageOnly s (s.badImage t o) := rfl

theorem ImageOnly.repairImage (t o : Nat) : ImageOnly s (s.repairImage t o) := by
  unfold State.repairImage
  exact .ite _ (.storeBlock ..) (.refl s)

theorem ImageOnly.saveLine (t g line : Nat) : ImageOnly s (s.saveLine t g line) :=
  (ImageOnly.putImage s ..).trans (.foldl _ (fun s _ => .ite _ (.badImage ..) (.refl s)) _ _)

theorem ImageOnly.saveControl (t g : Nat) (want : Nat → Bool) : ImageOnly s (s.saveControl t g want) := by
  unfold State.saveControl
  exact (ImageOnly.foldl _ (fun s c => .ite _ (.putOwn ..) (.putImage ..)) _ s).trans (.foldl _ (fun s _ => .badImage s ..) _ _)

/-! ## Room for a line -/

/-- Of the streams at most the error marks of control lines changed, and no team. -/
def MarksOnly (s t : State) : Prop := t.teams = s.teams ∧ ∀ h, t.grp h = { s.grp h with lineBad := (t.grp h).lineBad }

theorem MarksOnly.writeLine (g line : Nat) : MarksOnly s (s.writeLine g line) := by
  unfold State.writeLine
  split
  · have h := ImageOnly.saveLine s (keyTeam g) g line
    rw [h]
    exact ⟨rfl, fun _ => rfl⟩
  · have h := ImageOnly.saveControl s (keyTeam g) g fun l => l = line
    rw [h]
    refine ⟨rfl, fun n => ?_⟩
    by_cases hn : n = g
    · rw [hn, State.grp_onGrp]; rfl
    · rw [State.grp_onGrp_other _ hn]; rfl

theorem MarksOnly.roomForLine (k : Nat) : MarksOnly s (s.roomForLine k) := by
  unfold State.roomForLine
  extract_lets l drop
  have hs : MarksOnly s s := ⟨rfl, fun _ => rfl⟩
  split
  · exact hs
  · split
    · exact hs
    · split
      · exact hs
      · exact MarksOnly.writeLine ..

theorem State.roomForLine_of_room (k : Nat) (h : (s.coreAt k).lines.length < 32768) : s.roomForLine k = s := by
  unfold State.roomForLine
  exact if_pos h

/-! ## The event -/

/-- The sectors of a line, by their number in it, that no copy of the image holds clean. -/
def State.lostHalves (g line copies : Nat) : List Nat :=
  (List.range 2).filter fun h => decide (copies / 2 ^ h % 2 = 1) || s.imageBad (keyTeam g) (streamImage (keyGrp g) + 64 * line + 32 * h)

theorem State.lostHalves_lt {g line copies h : Nat} (hh : h ∈ s.lostHalves g line copies) : h < 2 :=
  List.mem_range.1 (List.mem_of_mem_filter hh)

theorem State.contains_lostHalves (g line copies : Nat) {h : Nat} (hh : h < 2) : (s.lostHalves g line copies).contains h =
    (copies.testBit h || s.imageBad (keyTeam g) (streamImage (keyGrp g) + 64 * line + 32 * h)) := by
  rw [Bool.eq_iff_iff, Nat.testBit_eq_decide_div_mod_eq]
  simp [State.lostHalves, hh]

theorem State.isEmpty_lostHalves (g line copies : Nat) : (s.lostHalves g line copies).isEmpty =
    !((s.lostHalves g line copies).contains 0 || (s.lostHalves g line copies).contains 1) := by
  cases h : s.lostHalves g line copies with
  | nil => rfl
  | cons a l =>
    have ha : a < 2 := s.lostHalves_lt (by rw [h]; exact List.mem_cons_self ..)
    have : a = 0 ∨ a = 1 := by omega
    rcases this with rfl | rfl <;> simp

/-- The state after a fill that ends no stream. -/
def State.lineFilled (g line copies k : Nat) : State :=
  let o := streamImage (keyGrp g) + 64 * line
  let s2 := ((s.repairImage (keyTeam g) o).repairImage (keyTeam g) (o + 32)).onGrp g fun x => x.poisonSectors line (s.lostHalves g line copies)
  (s2.roomForLine k).onCore k fun c => { c with lines := KMap.put (65536 * g + line) true c.lines }

/-- What a fill does by the stream's image and the sectors lost. -/
theorem execRegisterLineFill_eq {g line copies k : Nat} (hg : (KMap.find g s.groups).isSome) (hk : (s.gTeam g).core = some k) (ho : (s.grp g).out = false)
    (hn : (KMap.find (65536 * g + line) (s.coreAt k).lines).isNone) : exec (.registerLineFill g line copies) s = .next (
      if !s.hasLine g line then s
      else if 264 ≤ line && !(s.lostHalves g line copies).isEmpty then s.endWithStatus g 4
      else s.lineFilled g line copies k) := by
  obtain ⟨x, hx⟩ := Option.isSome_iff_exists.1 hg
  have hxo : x.out = false := by rw [State.grp, KMap.read, hx] at ho; exact ho
  have hs : (KMap.find (65536 * g + line) (s.coreAt k).lines).isSome = false := by simpa using hn
  change execRegisterLineFill g line copies s = _
  unfold execRegisterLineFill
  rw [hx, hk]
  dsimp only
  rw [hxo, hs]
  cases s.hasLine g line
  · rfl
  · simp only [Bool.not_true, Bool.or_false, Bool.false_eq_true, if_false]
    exact (apply_ite Host.Outcome.next _ _ _).symm

/-- What a fill leaves: the stream's own poison marks, and of others the error marks of control lines. -/
theorem State.lineFilled_frame (g line copies k : Nat) :
    (s.lineFilled g line copies k).teams = s.teams ∧
    (s.lineFilled g line copies k).grp g =
      { (s.grp g).poisonSectors line (s.lostHalves g line copies) with lineBad := ((s.lineFilled g line copies k).grp g).lineBad } ∧
    ((s.coreAt k).lines.length < 32768 → ∀ h, h ≠ g → (s.lineFilled g line copies k).grp h = s.grp h) ∧
    ∀ h, h ≠ g → (s.lineFilled g line copies k).grp h = { s.grp h with lineBad := ((s.lineFilled g line copies k).grp h).lineBad } := by
  unfold State.lineFilled
  extract_lets o s2
  have h1 : ImageOnly s ((s.repairImage (keyTeam g) o).repairImage (keyTeam g) (o + 32)) :=
    (ImageOnly.repairImage ..).trans (ImageOnly.repairImage ..)
  have hg : s2.grp g = (s.grp g).poisonSectors line (s.lostHalves g line copies) := by
    unfold s2
    rw [State.grp_onGrp, h1]
    rfl
  have ho (h : Nat) (hh : h ≠ g) : s2.grp h = s.grp h := by
    unfold s2
    rw [State.grp_onGrp_other _ hh, h1]
    rfl
  have ht : s2.teams = s.teams := by
    unfold s2
    rw [h1]
    rfl
  have hc : s2.coreAt k = s.coreAt k := by
    unfold s2
    rw [h1]
    rfl
  obtain ⟨rt, rg⟩ := MarksOnly.roomForLine s2 k
  have hmark (h : Nat) {y : Group} (hy : s2.grp h = y) :
      (s2.roomForLine k).grp h = { y with lineBad := ((s2.roomForLine k).grp h).lineBad } := by
    rw [← hy]
    exact rg h
  refine ⟨rt.trans ht, hmark g hg, fun hl h hh => ?_, fun h hh => hmark h (ho h hh)⟩
  have hroom : s2.roomForLine k = s2 := s2.roomForLine_of_room k (by rw [hc]; exact hl)
  rw [hroom]
  exact ho h hh

theorem State.find_lineFilled (g line copies k : Nat) : (KMap.find (65536 * g + line) ((s.lineFilled g line copies k).coreAt k).lines).isSome := by
  unfold State.lineFilled
  dsimp only
  rw [State.coreAt_onCore, KMap.find_put_same]
  rfl

end

/-- Fills of register lines do what 09 R222 and R223 say. -/
theorem registerLines : Claims.RegisterLines := by
  intro s g line copies k x bad hg hk ho hn
  have hex := execRegisterLineFill_eq s (copies := copies) hg hk ho hn
  have hbad {h : Nat} (hh : h < 2) : (s.lostHalves g line copies).contains h = bad h := s.contains_lostHalves g line copies hh
  have hempty : (s.lostHalves g line copies).isEmpty = !(bad 0 || bad 1) := by
    rw [s.isEmpty_lostHalves, hbad (by decide), hbad (by decide)]
  refine ⟨fun hl => ⟨_, hex, by rw [hl]; rfl⟩, fun hl => ⟨fun hok => ?_, fun h264 hlost => ?_⟩⟩
  · have hstay : (264 ≤ line && !(s.lostHalves g line copies).isEmpty) = false := by
      rw [hempty]
      rcases hok with h | ⟨h0, h1⟩
      · simp [h]
      · simp [h0, h1]
    rw [hl, hstay] at hex
    obtain ⟨ht, hgrp, hroom, hother⟩ := s.lineFilled_frame g line copies k
    obtain ⟨hv, hs, hpc⟩ := x.values_poisonSectors line (s.lostHalves g line copies)
    have hlt : ∀ h ∈ s.lostHalves g line copies, h < 2 := fun h hh => s.lostHalves_lt hh
    refine ⟨s.lineFilled g line copies k, hex, ?_, ?_, ?_, fun l r hl => ?_, fun r hr => ?_, s.find_lineFilled .., ht, hroom, hother⟩
    · exact (congrArg Group.v hgrp).trans hv
    · exact (congrArg Group.s hgrp).trans hs
    · exact (congrArg Group.pc hgrp).trans hpc
    · rw [← hbad (show l / 8 < 2 by omega)]
      exact (congrArg (Group.vBad · l r) hgrp).trans (x.vBad_poisonSectors line hl r _ hlt)
    · rw [← hbad (show r % 8 / 4 < 2 by omega)]
      exact (congrArg (Group.sBad · r) hgrp).trans (x.sBad_poisonSectors line hr _ hlt)
  · have hends : (264 ≤ line && !(s.lostHalves g line copies).isEmpty) = true := by
      rw [hempty]
      rcases hlost with h | h <;> simp [h264, h]
    rw [hl, hends] at hex
    refine ⟨s.endWithStatus g 4, hex, ?_⟩
    beta_reduce
    rw [State.find_endWithStatus]
    rfl

end Sys2Proof.Machine
end

