-- ==== Sys2Proof/Proofs/StreamProgressEvents.lean ====
section
/-! SUPPORT. The events by which streams go on, put together. -/

namespace Sys2Proof.Machine

/-- Where answers of another device, or their lack, are awaited, both events take them. -/
theorem exec_landEntry {s : State} {g e : Nat} {o : MemOp} (ho : KMap.find e (s.grp g).oplog = some o) (hk : o.kind ≠ .fence)
    (hw : o.waitsRemote = true) :
    exec (.accessCompletion g e) s = .next (s.landEntry g e o false) ∧ exec (.remoteTimeout g e) s = .next (s.landEntry g e o true) := by
  constructor
  · change execAccessCompletion g e s = _
    simp [execAccessCompletion, ho, hk, hw]
  · change execRemoteTimeout g e s = _
    simp [execRemoteTimeout, ho, hw]

theorem streamProgress : Claims.StreamProgress := by
  intro s g e x
  refine ⟨clauseStart_of_halting s g, fun q rest hs hq hr hl hh ho hw => ?_, fun p hp => ?_, fun o ho hk hc ha hs hf => ?_,
    fun o ho hk hok => ?_, fun o hrise ho hk hw i hi => ?_, fun o c hfirst ho hc hk ha hf hb hl => ?_, does_engineStallRelease s g,
    fun h _ => h, fun h _ => by simp [State.awaitedHolds, show (s.grp g).freeLog = none from h],
    fun r p a d w tm o => ?_⟩
  · exact does_clauseStart s g hs hq (x.canStart_eq hq hr hl hh ho hw)
  · obtain ⟨t, hex, hone, hg⟩ := does_longLatencyCompletion s g e hp
    let y : Group := { x with pending := x.pending.eraseIdx e }
    obtain ⟨hpend, hflags, hv, hk, hpc, hpath⟩ := y.landOne_frame p
    refine ⟨t, hex, hone, ?_⟩
    rw [hg]
    refine ⟨hpend, fun f => ?_, fun r v hd hr => ?_, fun r hd => y.landOne_keeps hd, hv, hk, hpc, hpath⟩
    · exact (congrArg (KMap.read 0 f) hflags).trans (y.flag_lower_sub p.flag f)
    · obtain ⟨h1, h2⟩ := y.landOne_writes hd
      exact ⟨h1 hr, h2⟩
  · obtain ⟨t, hex, hone, hfree⟩ := does_freeEntry s g e ho (exec_accessCompletion_plain s g e ho hk hc ha hs hf)
    exact ⟨t, hex, hone, hfree.gone, hfree.others, hfree.flags, hfree.scalars, hfree.slots, hfree.pc⟩
  · obtain ⟨t, hex, hfree, hmem, hother⟩ := does_accessCompletion_fence s g e ho hk hok
    exact ⟨t, hex, hfree.gone, hfree.flags, hfree.scalars, hfree.slots, hmem, hother⟩
  · obtain ⟨h1, h2⟩ := exec_landEntry ho hk hw
    rcases List.mem_pair.1 hi with rfl | rfl
    · exact ⟨_, h1, (Settled.landEntry g o hrise false).2⟩
    · exact ⟨_, h2, (Settled.landEntry g o hrise true).2⟩
  · obtain ⟨t, hex, hone, hfree⟩ := does_freeEntry s g e ho (exec_accessCompletion_copy s g e hfirst ho hc hk ha hf hb hl)
    exact ⟨t, hex, hone, hfree.gone, hfree.flags, hfree.scalars, hfree.slots, hfree.pc⟩
  · intro s' hi hw hs hh ho hat ht hob hp
    exact does_waitphWake s g hi hw hs hh ho hat ht hob hp

/-- Settles O41: clause starts, landings, freed entries, released stalls and woken waits each change their stream alone, by the frame of the
one change that each makes; answers of another device leave an entry that waits for none; and the fills of register lines. -/
theorem streamProgressEvents : Obligations.StreamProgressEvents := ⟨streamProgress, registerLines⟩

end Sys2Proof.Machine
end

