-- ==== Sys2Proof/Proofs/SpawnEvents.lean ====
section
/-! SUPPORT. A bin that launches, and the deadlock of a team whose groups all wait on `vspawn` (02 R45, R46). -/

namespace Sys2Proof.Machine

/-- An aged or full bin of a resident team launches. -/
theorem exec_spawnTimerExpiry (s : State) {tm i : Nat} {b : SpawnBin} (hb : KMap.find i (s.tm tm).bins = some b) (hne : b.threads ≠ [])
    (hdue : b.threads.length = 16 ∨ max 1 (s.tm tm).spawntmr.toNat ≤ b.age) (hres : (s.tm tm).res = .resident) :
    exec (.spawnTimerExpiry tm i) s = .next (s.launchBin tm i) := by
  have he : b.threads.isEmpty = false := by simpa using hne
  have hc : ((b.threads.length = 16 || (s.tm tm).binTimeOut b) && (s.tm tm).res = .resident) = true := by
    simp only [Team.binTimeOut, he, hres, Bool.not_false, Bool.true_and, decide_true, Bool.and_true, Bool.or_eq_true, decide_eq_true_eq]
    exact hdue
  change execSpawnTimerExpiry tm i s = _
  unfold execSpawnTimerExpiry
  rw [hb]
  exact if_pos hc

/-- The older of a stream and the oldest before it. -/
def State.older (s : State) (o : Option Nat) (g : Nat) : Option Nat :=
  match o with
  | some h => if (s.grp g).born < (s.grp h).born then some g else some h
  | none => some g

theorem State.oldest_eq_foldl (s : State) (gs : List Nat) : s.oldest gs = gs.foldl s.older none := rfl

/-- A stream born before every other stays the oldest. -/
theorem State.older_self (s : State) {g a : Nat} (h : a ≠ g → (s.grp g).born < (s.grp a).born) : s.older (some g) a = some g := by
  by_cases ha : a = g
  · simp [State.older, ha]
  · have := h ha
    exact if_neg (by omega)

/-- It becomes the oldest when it comes. -/
theorem State.older_comes (s : State) {g : Nat} {o : Option Nat} (h : ∀ b, o = some b → b ≠ g → (s.grp g).born < (s.grp b).born) :
    s.older o g = some g := by
  cases o with
  | none => rfl
  | some b =>
    by_cases hb : b = g
    · simp [State.older, hb]
    · exact if_pos (h b rfl hb)

theorem State.foldl_older (s : State) {g : Nat} {gs : List Nat} (hold : ∀ h ∈ gs, h ≠ g → (s.grp g).born < (s.grp h).born) {o : Option Nat}
    (ho : ∀ b, o = some b → b ≠ g → (s.grp g).born < (s.grp b).born) (hg : g ∈ gs ∨ o = some g) : gs.foldl s.older o = some g := by
  induction gs generalizing o with
  | nil =>
    rcases hg with h | h
    · cases h
    · exact h
  | cons a gs ih =>
    have ha := hold a (List.mem_cons_self ..)
    have hrest := fun h hm => hold h (List.mem_cons_of_mem _ hm)
    rw [List.foldl_cons]
    by_cases hag : a = g
    · subst hag
      rw [s.older_comes ho]
      exact ih hrest (fun b hb hne => absurd (Option.some.inj hb).symm hne) (.inr rfl)
    · by_cases hog : o = some g
      · rw [hog, s.older_self ha]
        exact ih hrest (fun b hb hne => absurd (Option.some.inj hb).symm hne) (.inr rfl)
      · refine ih hrest (fun b hb hne => ?_) (.inl ((List.mem_cons.1 (hg.resolve_right hog)).resolve_left (Ne.symm hag)))
        have hb' : b = a ∨ o = some b := by
          unfold State.older at hb
          split at hb
          · split at hb
            · exact .inl (Option.some.inj hb).symm
            · exact .inr hb
          · exact .inl (Option.some.inj hb).symm
        rcases hb' with rfl | hb'
        · exact ha hne
        · exact ho b hb' hne

/-- Of a list that holds a stream born before every other, it is the oldest. -/
theorem State.oldest_eq (s : State) {g : Nat} {gs : List Nat} (hg : g ∈ gs) (hold : ∀ h ∈ gs, h ≠ g → (s.grp g).born < (s.grp h).born) :
    s.oldest gs = some g := by
  rw [State.oldest_eq_foldl]
  exact s.foldl_older hold (fun b hb => by cases hb) (.inl hg)

/-- A trap in user mode, outside `try`, at a boundary: the handler is entered and nothing else changes. -/
theorem State.trap_of_boundary (s : State) {g : Nat} (h : Claims.Boundary (s.grp g)) (i : TrapInfo) :
    s.trap g i = s.onGrp g fun x => x.enter i (s.gTeam g).hvec := by
  obtain ⟨⟨hk, ht, _, _⟩, hf⟩ := h
  unfold State.trap
  simp [hk, ht, hf, TrapInfo.early]

/-- What a precise lane trap of a slot reports. -/
theorem enters_laneTrap (s : State) (g : Nat) (c : Cause) (slot : Word) (m : BitVec 16) :
    Claims.Enters s (s.onGrp g fun x => x.enter { cause := c, lane := true, slot, mask := m } (s.gTeam g).hvec) g (s.grp g) (c.code + 0x100) slot 0 m none := by
  refine ⟨.of_onGrp .., ?_⟩
  unfold Claims.Entered
  rw [State.grp_onGrp]
  unfold Group.enter Group.trapBank TrapInfo.xcause Group.xstatus
  simp

theorem spawnEvents : Claims.SpawnEvents := by
  intro s tm i n g b x
  refine ⟨fun hb hne hlen hdue hres hn => ?_, fun hg hall hbnd f q m hp hf hsp => ?_⟩
  · obtain ⟨hbin, hgrp, hmem, hother⟩ := s.launchBin_frame hb hn hne
    obtain ⟨hpc, hlive, harg⟩ := s.binGroup_eq tm n b hlen
    refine ⟨_, exec_spawnTimerExpiry s hb hne hdue hres, ?_⟩
    beta_reduce
    rw [hgrp]
    exact ⟨hbin, hpc, hlive, harg, fun l th hl j w hw => Group.vRaw_takeThreads _ _ hlen hl hw, hmem, hother⟩
  · have hold : s.oldest (s.teamGroups tm) = some g := s.oldest_eq hg fun h hh => (hall h hh).2.2
    have hslot : x.slot = q.lpc := by simp [Group.slot, hp]
    have hplaced : x.placedLanes = m := by simp [Group.placedLanes, hsp, hslot]
    have hne : (s.teamGroups tm).isEmpty = false := by
      cases h : s.teamGroups tm with
      | nil => rw [h] at hg; cases hg
      | cons => rfl
    have hstalled : ((s.teamGroups tm).all fun g => (s.grp g).lstall = 10 && !(s.grp g).laneStopped) = true := by
      simp only [List.all_eq_true, Bool.and_eq_true, decide_eq_true_eq, Bool.not_eq_true']
      exact fun h hh => ⟨(hall h hh).1, (hall h hh).2.1⟩
    have hex : exec (.spawnDeadlock tm) s =
        .next (s.trap g { cause := .spawnDeadlock, lane := true, slot := q.lpc, mask := x.active f &&& ~~~ m }) := by
      change execSpawnDeadlock tm s = _
      simp only [execSpawnDeadlock, hne, hstalled, hold, Bool.not_true, Bool.or_false, Bool.false_eq_true, if_false]
      rw [show (s.grp g).slot = q.lpc from hslot, hf, show (s.grp g).placedLanes = m from hplaced]
    rw [s.trap_of_boundary hbnd] at hex
    exact ⟨_, hex, enters_laneTrap s g .spawnDeadlock q.lpc _⟩

end Sys2Proof.Machine
end

