-- ==== Sys2Proof/Proofs/CoreEvents.lean ====
section
/-! SUPPORT. Changes of the core map, and a core that fails (14 R340, 15 R379). -/

namespace Sys2Proof.Machine

theorem State.cl_onCl_other (s : State) {c d : Nat} (h : d ≠ c) (f : Cluster → Cluster) : (s.onCl c f).cl d = s.cl d := by
  simp [State.cl, State.onCl, State.setCl, KMap.read_put_other _ h]

/-! ## The core map -/

/-- A core's place in the map changes that core, and at most the reservations beside it. -/
theorem State.coreAt_setCoreMap (s : State) (k : Nat) (v : Bool) (p j : Nat) :
    (s.setCoreMap k v p).coreAt j = if j = k then { s.coreAt k with mapV := v, mapPart := p, heldMap := none } else s.coreAt j := by
  have h : (s.onCore k fun c => { c with mapV := v, mapPart := p, heldMap := none }).coreAt j =
      if j = k then { s.coreAt k with mapV := v, mapPart := p, heldMap := none } else s.coreAt j := by
    split
    · rename_i hj; rw [hj, State.coreAt_onCore]
    · rename_i hj; rw [State.coreAt_onCore_other _ hj]
  rw [← h]
  unfold State.setCoreMap
  dsimp only
  split <;> rfl

theorem does_coreMapChange (s : State) (k : Nat) (v : Bool) (q : Nat) (hm : (s.coreAt k).heldMap = some (v, q)) (ht : (s.coreAt k).team = none) :
    Does (.coreMapChange k) s fun t => (t.coreAt k).mapV = v ∧ (t.coreAt k).mapPart = q ∧ (t.coreAt k).heldMap = none ∧
      ∀ j, j ≠ k → t.coreAt j = s.coreAt j := by
  refine ⟨s.setCoreMap k v q, ?_, ?_⟩
  · change execCoreMapChange k s = _
    simp [execCoreMapChange, hm, ht]
  · have h := s.coreAt_setCoreMap k v q
    exact ⟨by rw [h, if_pos rfl], by rw [h, if_pos rfl], by rw [h, if_pos rfl], fun j hj => by rw [h, if_neg hj]⟩

/-! ## A failed core -/

@[simp] theorem State.roster_emptyCore (s : State) (k : Nat) : (s.emptyCore k).roster = s.roster := by
  unfold State.emptyCore
  extract_lets c pulls s1
  rw [State.roster_onCore]
  · exact State.roster_foldl _ (fun s n => s.roster_returnShare _) _ _
  · exact fun _ => rfl

@[simp] theorem State.roster_recordEnd (s : State) (c status : Nat) (f : Word) : (s.recordEnd c status f).roster = s.roster := by
  simp [State.recordEnd, State.enterEnd]

/-- What leaves the roster leaves every cluster where it is. -/
theorem State.res_cl_of_roster {s t : State} (h : t.roster = s.roster) (c : Nat) : (t.cl c).res = (s.cl c).res :=
  congrArg (fun r : Roster => (r.clusters c).res) h

theorem State.caps_of_roster {s t : State} (h : t.roster = s.roster) : t.caps = s.caps := congrArg Roster.caps h

theorem State.res_cl_loseCluster (s : State) (reset : Bool) (c : Nat) : ((s.loseCluster reset c).cl c).res = .ended := by
  unfold State.loseCluster
  extract_lets x s1 s2
  split
  · assumption
  · rw [State.cl_onCl]

/-- The state after a core's team is lost with its cluster. -/
def State.loseHeld (s : State) (y : Core) : State :=
  match y.team with
  | none => s
  | some t => if (s.cl (s.tm t).cluster).res = .ended then s else (s.loseCluster false (s.tm t).cluster).recordEnd (s.tm t).cluster 4 (s.teamId t)

theorem State.res_cl_loseHeld (s : State) {y : Core} {t : Nat} (h : y.team = some t) : ((s.loseHeld y).cl (s.tm t).cluster).res = .ended := by
  unfold State.loseHeld
  rw [h]
  dsimp only
  split
  · assumption
  · exact (State.res_cl_of_roster (State.roster_recordEnd ..) _).trans (State.res_cl_loseCluster ..)

/-- Counting the enabled cores of the dies changes no core, no cluster and no generation. -/
theorem State.checkDies_frame (s : State) : s.checkDies.cores = s.cores ∧ s.checkDies.clusters = s.clusters ∧ s.checkDies.caps = s.caps := by
  unfold State.checkDies
  split <;> exact ⟨rfl, rfl, rfl⟩

theorem does_coreFailure (s : State) (k : Nat) {y : Core} (hy : KMap.find k s.cores = some y) :
    Does (.coreFailure k) s fun t => KMap.find k t.cores = none ∧ (y.team = none → t.caps.capgen = s.caps.capgen + 2) ∧
      ∀ tm, y.team = some tm → (t.cl (s.tm tm).cluster).res = .ended := by
  let s1 := (s.loseHeld y).emptyCore k
  let s2 : State := { s1 with cores := KMap.del k s1.cores, caps := { s1.caps with capgen := s1.caps.capgen + 2 } }
  have hex : exec (.coreFailure k) s = .next s2.checkDies := by
    change execCoreFailure k s = _
    unfold execCoreFailure
    rw [hy]
    rfl
  obtain ⟨hcores, hclusters, hcaps⟩ := s2.checkDies_frame
  refine ⟨s2.checkDies, hex, ?_, fun hn => ?_, fun tm ht => ?_⟩
  · rw [hcores]
    exact KMap.find_del_same ..
  · have h1 : s1.caps = s.caps := by
      have hl : s.loseHeld y = s := by unfold State.loseHeld; rw [hn]
      exact State.caps_of_roster (by unfold s1; rw [hl]; exact State.roster_emptyCore ..)
    rw [hcaps]
    exact congrArg (fun c : Caps => c.capgen + 2) h1
  · have hc : s2.checkDies.cl (s.tm tm).cluster = s1.cl (s.tm tm).cluster := by rw [State.cl, hclusters]; rfl
    rw [hc]
    exact (State.res_cl_of_roster (State.roster_emptyCore ..) _).trans (s.res_cl_loseHeld ht)

end Sys2Proof.Machine
end

