-- ==== Sys2Proof/Proofs/Places.lean ====
section
/-! SUPPORT. What operations of streams, teams and objects leave of placement: reservations stand, and a cluster that is on cores, or has ended,
neither leaves them nor enters a queue for relaunch. -/

namespace Sys2Proof.Machine

/-- A cluster that is resident or has ended. -/
def Standing (x : Cluster) : Prop := x.res = .resident ∨ x.res = .ended

/-- Reservations stand, and so do clusters that stand; none of these enters a relaunch queue. -/
structure KeepsPlaces (s t : State) : Prop where
  reserve : ∀ p, (t.partAt p).reserve = (s.partAt p).reserve
  standing : ∀ c, Standing (s.cl c) → Standing (t.cl c) ∧ ∀ p, c ∈ (t.partAt p).relaunchq → c ∈ (s.partAt p).relaunchq

namespace KeepsPlaces

theorem of_same {s t : State} (hp : t.parts = s.parts) (hc : t.clusters = s.clusters) : KeepsPlaces s t where
  reserve p := by rw [State.partAt, hp]; rfl
  standing c h := by
    rw [State.cl, hc]
    refine ⟨h, fun p => ?_⟩
    rw [State.partAt, hp]
    exact id

theorem refl (s : State) : KeepsPlaces s s := of_same rfl rfl

theorem trans {s t u : State} (h : KeepsPlaces s t) (k : KeepsPlaces t u) : KeepsPlaces s u where
  reserve p := (k.reserve p).trans (h.reserve p)
  standing c hc :=
    have ⟨ht, hq⟩ := h.standing c hc
    have ⟨hu, kq⟩ := k.standing c ht
    ⟨hu, fun p hp => hq p (kq p hp)⟩

theorem foldl {α : Type} (f : State → α → State) (hf : ∀ s x, KeepsPlaces s (f s x)) (l : List α) (s : State) : KeepsPlaces s (l.foldl f s) := by
  induction l generalizing s with
  | nil => exact refl s
  | cons x l ih => exact (hf s x).trans (ih _)

theorem ite {s t u : State} (c : Prop) [Decidable c] (h : KeepsPlaces s t) (k : KeepsPlaces s u) : KeepsPlaces s (if c then t else u) := by
  split
  · exact h
  · exact k

theorem of_parts {s t : State} (hp : t.roster.parts = s.roster.parts) (hc : t.roster.clusters = s.roster.clusters) : KeepsPlaces s t := by
  have hv (p : Nat) : (t.partAt p).reserve = (s.partAt p).reserve ∧ (t.partAt p).relaunchq = (s.partAt p).relaunchq := by
    have h1 : (t.roster.parts p).reserve = (s.roster.parts p).reserve := by rw [hp]
    have h2 : (t.roster.parts p).relaunchq = (s.roster.parts p).relaunchq := by rw [hp]
    exact ⟨h1, h2⟩
  have hr (c : Nat) : (t.cl c).res = (s.cl c).res := by
    have h : (t.roster.clusters c).res = (s.roster.clusters c).res := by rw [hc]
    exact h
  refine ⟨fun p => (hv p).1, fun c h => ⟨?_, fun p => ?_⟩⟩
  · unfold Standing
    rw [hr]
    exact h
  · rw [(hv p).2]
    exact id

theorem of_roster {s t : State} (h : t.roster = s.roster) : KeepsPlaces s t := of_parts (by rw [h]) (by rw [h])

theorem of_ownRegisters {g : Nat} {s t : State} (h : OwnRegisters g s t) : KeepsPlaces s t := of_parts (by rw [h.1]) (by rw [h.1])

section
variable (s : State)

theorem onGrp (g : Nat) (f : Group → Group) : KeepsPlaces s (s.onGrp g f) := of_same rfl rfl

theorem onTm (t : Nat) (f : Team → Team) : KeepsPlaces s (s.onTm t f) := of_same rfl rfl

theorem setTm (t : Nat) (y : Team) : KeepsPlaces s (s.setTm t y) := of_same rfl rfl

theorem onCore (k : Nat) (f : Core → Core) : KeepsPlaces s (s.onCore k f) := of_same rfl rfl

/-- A cluster that goes on standing, or did not stand. -/
theorem onCl (c : Nat) (f : Cluster → Cluster) (hf : Standing (s.cl c) → Standing (f (s.cl c))) : KeepsPlaces s (s.onCl c f) where
  reserve _ := rfl
  standing d h := by
    refine ⟨?_, fun _ => id⟩
    by_cases hd : d = c
    · subst hd
      rw [State.cl_onCl]
      exact hf h
    · rw [State.cl_onCl_other _ hd]
      exact h

/-- A cluster that does not stand enters a partition's relaunch queue. -/
theorem enqueue (c p : Nat) (hc : ¬Standing (s.cl c)) : KeepsPlaces s (s.onPart p fun q => { q with relaunchq := q.relaunchq ++ [c] }) where
  reserve n := by
    unfold State.partAt State.onPart
    rw [KMap.read_put]
    split
    · rename_i h; rw [h]; rfl
    · rfl
  standing d h := by
    refine ⟨h, fun n => ?_⟩
    unfold State.partAt State.onPart
    rw [KMap.read_put]
    split
    · rename_i hn
      rw [hn]
      intro hm
      rcases List.mem_append.1 hm with hm | hm
      · exact hm
      · rw [List.mem_singleton.1 hm] at h
        exact absurd h hc
    · exact id

/-! ## Engines and barrier objects -/

theorem queueRelaunch (c : Nat) : KeepsPlaces s (s.queueRelaunch c) := by
  unfold State.queueRelaunch
  dsimp only
  split
  · rename_i h
    have hr : (s.cl c).res = .evicted := of_decide_eq_true (Bool.and_eq_true .. ▸ h).1
    have hn (f : Cluster → Cluster) (hf : (f (s.cl c)).res = .evicted) : ¬Standing ((s.onCl c f).cl c) := by
      rw [State.cl_onCl]
      rintro (h | h) <;> rw [hf] at h <;> cases h
    refine (onCl s c _ ?_).trans (enqueue _ c _ (hn _ hr))
    rintro (h | h) <;> rw [hr] at h <;> cases h
  · exact refl s

theorem signalAll (t o : Nat) (x : Obj) : KeepsPlaces s (s.signalAll t o x).2 := by
  unfold State.signalAll
  exact foldl _ (fun s (e : Nat × Group) => (onGrp s e.1 _).trans (queueRelaunch ..)) _ s

theorem setObj (t o : Nat) (x : Obj) : KeepsPlaces s (s.setObj t o x) := onTm ..

end

end KeepsPlaces

section
variable (s : State)

@[simp] theorem State.roster_readyTask (p i : Nat) : (s.readyTask p i).roster = s.roster := by
  unfold State.readyTask
  dsimp only
  split <;> simp

@[simp] theorem State.roster_lowerTask (p i e : Nat) : (s.lowerTask p i e).roster = s.roster := by
  unfold State.lowerTask
  dsimp only
  split <;> simp

@[simp] theorem State.roster_notifyTask (p i : Nat) (id : Word) : (s.notifyTask p i id).2.roster = s.roster := by
  unfold State.notifyTask
  split <;> simp

end

namespace KeepsPlaces

section
variable (s : State)

theorem completeObj (t o : Nat) (x : Obj) : KeepsPlaces s (s.completeObj t o x) := by
  unfold State.completeObj
  extract_lets x1 r n
  have hr : KeepsPlaces s r.2 := signalAll ..
  split
  · exact (hr.trans (of_roster (State.roster_notifyTask ..))).trans (setObj ..)
  · exact hr.trans (setObj ..)

theorem accept (t o a n x : Nat) : KeepsPlaces s (s.accept t o a n x).2 := by
  unfold State.accept
  extract_lets b pend b1
  split
  · exact refl s
  · split
    · exact setObj ..
    · split
      · exact completeObj ..
      · exact setObj ..

theorem discardTo (c : CountSrc) : KeepsPlaces s (s.discardTo c) := by
  unfold State.discardTo
  split
  · exact ite _ (of_same rfl rfl) (refl s)
  · exact of_same rfl rfl
  · exact of_same rfl rfl

theorem flushHeld (t o : Nat) : KeepsPlaces s (s.flushHeld t o) := by
  unfold State.flushHeld
  dsimp only
  split
  · exact refl s
  · rename_i h _
    split
    · exact refl s
    · split
      · exact (setTm ..).trans (foldl _ discardTo _ _)
      · exact ite _ (refl s) ((accept ..).trans (onTm ..))

theorem arriveAt {t o a n x : Nat} {src : Option CountSrc} {r : Nat × State} (h : s.arriveAt t o a n x src = some r) : KeepsPlaces s r.2 := by
  unfold State.arriveAt at h
  dsimp only at h
  split at h
  · split at h
    · cases h; exact of_same rfl rfl
    · split at h <;> cases h
      · exact refl s
      · exact of_same rfl rfl
  · split at h <;> cases h
    exact (flushHeld ..).trans (accept ..)

theorem tryCount (c : HeldCount) : KeepsPlaces s (s.tryCount c).2 := by
  unfold State.tryCount
  split
  · exact discardTo ..
  all_goals
    rename_i h
    exact arriveAt s h

theorem countBytes (k : Nat) (c : HeldCount) : KeepsPlaces s (s.countBytes k c) := by
  unfold State.countBytes
  extract_lets blocked r
  have hr : KeepsPlaces s r.2 := tryCount ..
  exact ite _ (onCore ..) (ite _ hr ((hr.trans (onCore ..)).trans (of_roster (State.roster_count ..))))

theorem returnNotice (k q : Nat) (n : Notice) (status : Nat) : KeepsPlaces s (s.returnNotice k q n status) := by
  unfold State.returnNotice
  extract_lets s1 y sbar bad st place s2
  have h1 : KeepsPlaces s s1 := of_roster (State.roster_returnShare ..)
  have h2 : KeepsPlaces s s2 := by
    unfold s2
    clear_value place
    cases place with
    | none => exact h1
    | some l => exact h1.trans (onTm ..)
  exact ite _ h1 (ite _ h2 (h2.trans (countBytes ..)))

theorem returnKick (t : Nat) : KeepsPlaces s (s.returnKick t) := by
  unfold State.returnKick
  split
  · exact refl s
  · split
    · exact refl s
    · exact (onCore ..).trans (returnNotice ..)

/-! ## Streams, teams and clusters that end -/

theorem freeCore (t : Nat) : KeepsPlaces s (s.freeCore t) := by
  unfold State.freeCore
  split
  · exact refl s
  · extract_lets fuse s1
    have h1 : KeepsPlaces s s1 := onTm ..
    exact ite _ (h1.trans (onCore ..)) h1

theorem tryEndCluster (c : Nat) : KeepsPlaces s (s.tryEndCluster c) := by
  unfold State.tryEndCluster
  extract_lets x s1 s2 s3 y u s4
  have h2 : KeepsPlaces s s2 := (of_roster (State.roster_endHolder ..)).trans (foldl _ freeCore _ _)
  have h3 : KeepsPlaces s s3 := h2.trans (onCl _ _ _ fun _ => .inr rfl)
  have h4 : KeepsPlaces s s4 := h3.trans (of_roster (State.roster_setTask ..))
  exact ite _ (refl s) (h4.trans (of_roster (State.roster_tryCompleteTask ..)))

/-- A cluster that is being switched out does not stand. -/
theorem not_standing_of_stopping {x : Cluster} (h : x.res = .stopping ∨ x.res = .saving ∨ x.res = .preempted ∨ x.res = .evicted) : ¬Standing x := by
  rintro (k | k) <;> rw [k] at h <;> simp at h

theorem settleOut (c : Nat) : KeepsPlaces s (s.settleOut c) := by
  unfold State.settleOut
  extract_lets s1
  split
  · exact refl s
  · split
    · rename_i h
      refine (onCl _ _ _ fun hs => ?_).trans (enqueue _ c _ ?_)
      · exact absurd hs (not_standing_of_stopping (.inl h))
      · rw [State.cl_onCl]
        exact not_standing_of_stopping (.inr (.inr (.inl rfl)))
    · split
      · rename_i h
        have h1 : KeepsPlaces s s1 := onCl _ _ _ fun hs => absurd hs (not_standing_of_stopping (.inr (.inl h)))
        exact ite _ (h1.trans (queueRelaunch ..)) h1
      · exact refl s

theorem tryEndTeam (t : Nat) : KeepsPlaces s (s.tryEndTeam t) := by
  unfold State.tryEndTeam
  extract_lets x s1 s2 s3 s4
  have h1 : KeepsPlaces s s1 := (of_roster (State.roster_endHolder ..)).trans (of_same rfl rfl)
  have h2 : KeepsPlaces s s2 := ite _ h1 (h1.trans (freeCore ..))
  have h3 : KeepsPlaces s s3 := h2.trans (onTm ..)
  have h4 : KeepsPlaces s s4 := h3.trans (onCl _ _ _ id)
  exact ite _ (refl s) ((h4.trans (tryEndCluster ..)).trans (settleOut ..))

theorem endStream (g : Nat) : KeepsPlaces s (s.endStream g) := by
  unfold State.endStream
  split
  · exact refl s
  · extract_lets s1
    have h1 : KeepsPlaces s s1 := of_same rfl rfl
    exact ite _ (h1.trans (onCl _ _ _ id)) (h1.trans (of_same rfl rfl))

theorem drainedEnd (g : Nat) : KeepsPlaces s ((s.drainStream g).endStream g) :=
  (of_ownRegisters (OwnRegisters.drainStream s g)).trans (endStream ..)

theorem endTeamNow (t : Nat) : KeepsPlaces s (s.endTeamNow t) := by
  unfold State.endTeamNow
  exact ((foldl _ drainedEnd _ s).trans (onTm ..)).trans (tryEndTeam ..)

theorem failCluster (c t status : Nat) : KeepsPlaces s (s.failCluster c t status) := by
  unfold State.failCluster
  extract_lets id' x u s1
  have h1 : KeepsPlaces s s1 := onCl _ _ _ fun h => by split <;> exact h
  exact ite _ (h1.trans (of_roster (State.roster_setTask ..))) h1

/-- What a member's Press has not begun is discarded. -/
theorem clearQueue (m : Nat) : KeepsPlaces s (match (s.tm m).core with
    | some k => s.onCore k fun x => { x with press := { x.press with queue := [] } }
    | none => s) := by
  split
  · exact onCore ..
  · exact refl s

theorem endWithStatus (g status : Nat) : KeepsPlaces s (s.endWithStatus g status) := by
  unfold State.endWithStatus
  extract_lets t c s1 ms s2 s3
  have h1 : KeepsPlaces s s1 := failCluster ..
  have h2 : KeepsPlaces s s2 := h1.trans (foldl _ (fun s m => clearQueue s m) _ _)
  have h3 : KeepsPlaces s s3 := h2.trans (drainedEnd ..)
  exact ite _ (h1.trans (endTeamNow ..)) ((h3.trans (foldl _ endTeamNow _ _)).trans (tryEndCluster ..))

/-! ## Traps, aborts and stops -/

variable (g : Nat)

theorem abortGroup (code detail : Nat) : KeepsPlaces s (s.abortGroup g code detail) := by
  unfold State.abortGroup
  split
  · exact refl s
  · exact (onGrp ..).trans (of_roster (State.roster_count ..))

theorem kernelFault (i : TrapInfo) : KeepsPlaces s (s.kernelFault g i) := by
  unfold State.kernelFault
  exact ((onGrp ..).trans (of_roster (State.roster_post ..))).trans (endWithStatus ..)

theorem trap (i : TrapInfo) : KeepsPlaces s (s.trap g i) := by
  unfold State.trap
  exact ite _ (abortGroup ..) (ite _ (onGrp ..) (ite _ (kernelFault ..) (onGrp ..)))

theorem takeLoadFault (e : Nat) : KeepsPlaces s (s.takeLoadFault g e) := by
  unfold State.takeLoadFault
  dsimp only
  split
  · exact refl s
  · split
    · exact ite _ (trap ..) (refl s)
    · exact refl s

theorem takeImprecise : KeepsPlaces s (s.takeImprecise g) := by
  unfold State.takeImprecise
  dsimp only
  split
  · exact refl s
  · split
    · exact refl s
    · split
      · exact refl s
      · exact trap ..

theorem takeTimer : KeepsPlaces s (s.takeTimer g) := by
  unfold State.takeTimer
  extract_lets x s1
  have h1 : KeepsPlaces s s1 := onGrp ..
  exact ite _ (refl s) (ite _ (h1.trans (abortGroup ..)) (h1.trans (trap ..)))

theorem stopStream : KeepsPlaces s (s.stopStream g) := by
  unfold State.stopStream
  extract_lets s1 s2
  have h1 : KeepsPlaces s s1 := by
    unfold s1
    split
    · exact takeLoadFault ..
    · exact refl s
  have h2 : KeepsPlaces s s2 := (h1.trans (takeImprecise ..)).trans (takeTimer ..)
  exact ite _ (onGrp ..) (ite _ (refl s) (ite _ (h2.trans (onGrp ..)) h2))

end

end KeepsPlaces

end Sys2Proof.Machine
end

