-- ==== Sys2Proof/Proofs/Reservation.lean ====
section
/-! SUPPORT. A rectangle that is reserved for the head candidate (14 R352). -/

namespace Sys2Proof.Machine

/-- Every partition's reservation stands. -/
structure KeepsReserves (s t : State) : Prop where
  reserve : ∀ p, (t.partAt p).reserve = (s.partAt p).reserve

namespace KeepsReserves

theorem refl (s : State) : KeepsReserves s s := ⟨fun _ => rfl⟩

theorem of_parts {s t : State} (h : t.parts = s.parts) : KeepsReserves s t := ⟨fun p => by rw [State.partAt, h]; rfl⟩

theorem trans {s t u : State} (h : KeepsReserves s t) (k : KeepsReserves t u) : KeepsReserves s u :=
  ⟨fun p => (k.reserve p).trans (h.reserve p)⟩

theorem of_places {s t : State} (h : KeepsPlaces s t) : KeepsReserves s t := ⟨h.reserve⟩

theorem foldl {α : Type} (f : State → α → State) (hf : ∀ s x, KeepsReserves s (f s x)) (l : List α) (s : State) : KeepsReserves s (l.foldl f s) := by
  induction l generalizing s with
  | nil => exact refl s
  | cons x l ih => exact (hf s x).trans (ih _)

theorem ite {s t u : State} (c : Prop) [Decidable c] (h : KeepsReserves s t) (k : KeepsReserves s u) : KeepsReserves s (if c then t else u) := by
  split
  · exact h
  · exact k

section
variable (s : State)

theorem onCl (c : Nat) (f : Cluster → Cluster) : KeepsReserves s (s.onCl c f) := of_parts rfl

theorem residence (c : Nat) (r : Residence) : KeepsReserves s (s.residence c r) := by
  unfold State.residence
  exact (onCl ..).trans (foldl _ (fun s t => of_places (.onTm s t fun y => { y with res := r })) _ _)

theorem preempt (c : Nat) : KeepsReserves s (s.preempt c) := by
  unfold State.preempt
  split
  · exact refl s
  · extract_lets s1
    have h1 : KeepsReserves s s1 := (residence ..).trans (foldl _ (fun s t => of_places (.returnKick s t)) _ _)
    exact ite _ (refl s) (h1.trans (foldl _ (fun s g => of_places (.stopStream s g)) _ _))

end

end KeepsReserves

/-! ## Saves -/

section
variable (s : State)

theorem ImageOnly.clearImage (t : Nat) : ImageOnly s (s.clearImage t) := by
  unfold State.clearImage
  extract_lets mine s1
  have h1 : ImageOnly s s1 := .foldl _ (fun s e => .storeAt s ..) _ s
  exact h1.trans rfl

theorem ImageOnly.saveTeamData (t : Nat) : ImageOnly s (s.saveTeamData t) := by
  unfold State.saveTeamData
  extract_lets x s1 s2
  have h1 : ImageOnly s s1 := .foldl _ (fun s e => .putImage s ..) _ s
  have h2 : ImageOnly s s2 := h1.trans (.foldl _ (fun s e => .badImage s ..) _ _)
  split
  · exact h2
  · refine h2.trans (.foldl _ (fun s z => ?_) _ _)
    exact (ImageOnly.foldl _ (fun s e => .putImage s ..) _ s).trans (.foldl _ (fun s e => .badImage s ..) _ _)

theorem ImageOnly.saveStream (t g : Nat) : ImageOnly s (s.saveStream t g) := by
  unfold State.saveStream
  exact (ImageOnly.foldl _ (fun s l => .saveLine s ..) _ s).trans (.saveControl ..)

theorem ImageOnly.saveImage (t : Nat) : ImageOnly s (s.saveImage t) := by
  unfold State.saveImage
  refine .trans ?_ (.foldl _ (fun s g => .saveStream s ..) _ _)
  exact ((ImageOnly.clearImage s t).trans (.saveTeamData ..)).trans (.putOwn ..)

theorem KeepsPlaces.of_imageOnly {s t : State} (h : ImageOnly s t) : KeepsPlaces s t := by
  rw [h]
  exact .of_same rfl rfl

theorem KeepsPlaces.saveTeam (t : Nat) (r : Residence) : KeepsPlaces s (s.saveTeam t r) := by
  unfold State.saveTeam
  extract_lets s0 x fuse s1 s2 s3
  have h1 : KeepsPlaces s s1 := (KeepsPlaces.returnKick s t).trans (.onTm ..)
  have h2 : KeepsPlaces s s2 := h1.trans (.of_imageOnly (.saveImage ..))
  have h3 : KeepsPlaces s s3 := h2.trans (.onTm ..)
  split
  · exact h3
  · exact (h3.trans (.foldl _ (fun s g => .onGrp s ..) _ _)).trans (.onCore ..)

theorem KeepsReserves.evict (c : Nat) : KeepsReserves s (s.evict c) := by
  unfold State.evict
  extract_lets s1 s2
  have h1 : KeepsReserves s s1 := (residence ..).trans (foldl _ (fun s t => of_places (.returnKick s t)) _ _)
  have h2 : KeepsReserves s s2 := h1.trans (foldl _ (fun s g => of_places (.onGrp s ..)) _ _)
  exact (h2.trans (foldl _ (fun s t => ite _ (of_places (.saveTeam ..)) (refl s)) _ _)).trans (of_places (.settleOut ..))

theorem KeepsReserves.clearReserve (base : Nat) (cores : List Nat) : KeepsReserves s (s.clearReserve base cores) := by
  unfold State.clearReserve
  refine foldl _ (fun s k => ?_) _ s
  split
  · exact refl s
  · exact ite _ (evict ..) (ite _ (preempt ..) (refl s))

/-- Cores that hold no team are clear already. -/
theorem State.clearReserve_of_free (base : Nat) {cores : List Nat} (h : ∀ k ∈ cores, (s.coreAt k).team = none) : s.clearReserve base cores = s := by
  unfold State.clearReserve
  induction cores with
  | nil => rfl
  | cons k ks ih =>
    rw [List.foldl_cons, h k (List.mem_cons_self ..)]
    exact ih fun j hj => h j (List.mem_cons_of_mem _ hj)

/-- The reservation of a rectangle for a candidate. -/
def Cand.reserveOf (d : Cand) (r : Rect) : Reserve :=
  { task := if d.relaunch then none else some d.idx, cluster := if d.relaunch then some d.idx else none, cores := r.cores }

theorem Cand.isFor_reserveOf (d : Cand) (r : Rect) : (d.reserveOf r).isFor d = true := by
  cases h : d.relaunch <;> simp [Reserve.isFor, Cand.reserveOf, h]

theorem does_reservation {p : Nat} {d : Cand} {r : Rect} (hd : (s.candidates p).head? = some d) (hn : (s.partAt p).reserve = none)
    (ha : (s.partAt p).presage ≠ 0) (hw : 1000 * (s.partAt p).presage.toNat < s.now - d.since)
    (hr : s.chooseReserve p (s.shapeOf p d).1 (s.shapeOf p d).2 = some r) :
    Does (.reservation p) s fun t => ∃ w : Reserve, (t.partAt p).reserve = some w ∧ w.cores = r.cores ∧ w.isFor d = true ∧
      ((∀ j ∈ r.cores, (s.coreAt j).team = none) → t = { s with parts := t.parts } ∧ t.partAt p = { s.partAt p with reserve := some w }) := by
  let s1 := s.onPart p fun q => { q with reserve := some (d.reserveOf r) }
  have hage : ((s.partAt p).presage.toNat = 0 || decide (s.now - d.since ≤ 1000 * (s.partAt p).presage.toNat)) = false := by
    have h0 : (s.partAt p).presage.toNat ≠ 0 := fun h => ha (BitVec.eq_of_toNat_eq (by simpa using h))
    simp only [Bool.or_eq_false_iff, decide_eq_false_iff_not]
    exact ⟨h0, by omega⟩
  have hex : exec (.reservation p) s = .next (s1.clearReserve (s.baseOf p d) r.cores) := by
    change execReservation p s = _
    unfold execReservation
    dsimp only
    rw [hn, hd]
    dsimp only
    rw [hage, hr]
    rfl
  have hs1 : s1.partAt p = { s.partAt p with reserve := some (d.reserveOf r) } := State.partAt_onPart ..
  refine ⟨_, hex, d.reserveOf r, ?_, rfl, d.isFor_reserveOf r, fun hfree => ?_⟩
  · rw [(KeepsReserves.clearReserve s1 _ r.cores).reserve p, hs1]
  · rw [s1.clearReserve_of_free _ hfree]
    exact ⟨rfl, hs1⟩

end

end Sys2Proof.Machine
end

