-- ==== Sys2Proof/Proofs/Relaunch.lean ====
section
/-! SUPPORT. A switched-out cluster that comes back leaves its partition's relaunch queue (08 R216). -/

namespace Sys2Proof.Machine

section
variable (s : State)

theorem ImageOnly.repairRange (t lo n : Nat) : ImageOnly s (s.repairRange t lo n) := .foldl _ (fun s _ => .repairImage s ..) _ s

/-- A stream with the registers and the trap bank of another. -/
def Group.reread (x y : Group) : Group :=
  { x with v := y.v, vPoison := y.vPoison, s := y.s, sPoison := y.sPoison, lineBad := y.lineBad, bank := y.bank, retired := y.retired }

/-- Reading a stream back writes that stream and repairs its team's image. -/
theorem State.loadStream_eq (t k g : Nat) :
    ∃ y, s.loadStream t k g = (s.repairRange t (streamImage (keyGrp g)) 0xA800).onGrp g fun x => x.reread y :=
  ⟨{ (s.loadStream t k g).grp g with lineBad := [] }, by
    unfold State.loadStream
    rw [State.grp_onGrp]
    rfl⟩

/-- Reading a scratchpad back writes that scratchpad and repairs its team's image. -/
theorem State.loadSpad_eq (t : Nat) :
    ∃ y : Team, s.loadSpad t = (s.repairRange t 0x31_0000 (s.tm t).spad).onTm t fun z => { z with mem := y.mem, poison := y.poison } :=
  ⟨_, rfl⟩

namespace KeepsPlaces

theorem loadStream (t k g : Nat) : KeepsPlaces s (s.loadStream t k g) := by
  obtain ⟨y, hy⟩ := s.loadStream_eq t k g
  rw [hy]
  exact (of_imageOnly (.repairRange ..)).trans (onGrp ..)

theorem loadSpad (t : Nat) : KeepsPlaces s (s.loadSpad t) := by
  obtain ⟨y, hy⟩ := s.loadSpad_eq t
  rw [hy]
  exact (of_imageOnly (.repairRange ..)).trans (onTm ..)

theorem joinCore (t k : Nat) : KeepsPlaces s (s.joinCore t k) := by
  unfold State.joinCore
  exact (onCore ..).trans (foldl _ (fun s g => onGrp s ..) _ _)

theorem restoreTeam (t k : Nat) : KeepsPlaces s (s.restoreTeam t k) := by
  unfold State.restoreTeam
  extract_lets x s0 has lostSeq lost s1 acc s2 s3 s4
  have h0 : KeepsPlaces s s0 :=
    ((of_imageOnly (.repairRange ..)).trans (foldl _ (fun s z => of_imageOnly (.repairRange ..)) _ _)).trans (joinCore ..)
  have h2 : KeepsPlaces s s2 := (h0.trans (onTm ..)).trans (onCore ..)
  have h3 : KeepsPlaces s s3 :=
    ite _ h2 (((h2.trans (loadSpad ..)).trans (onTm ..)).trans (foldl _ (fun s g => loadStream s ..) _ _))
  have h4 : KeepsPlaces s s4 := h3.trans (foldl _ (fun s g => onGrp s ..) _ _)
  exact ite _ (h4.trans (endWithStatus ..)) (h4.trans (foldl _ (fun s o => flushHeld s ..) _ _))

end KeepsPlaces

/-- A cluster that is restored stands, and is in the relaunch queue of its partition no more. -/
theorem State.restore_leaves (c : Nat) (r : Rect) :
    Standing ((s.restore c r).cl c) ∧ c ∉ ((s.restore c r).partAt (s.cl c).part).relaunchq := by
  unfold State.restore
  extract_lets x a s1 s2
  have h2 : Standing (s2.cl c) := by
    refine .inl ?_
    have : s2.cl c = s1.cl c := rfl
    rw [this, State.cl_onCl]
  have hq : c ∉ (s2.partAt x.part).relaunchq := by
    unfold s2
    rw [State.partAt_onPart]
    simp
  have hk := KeepsPlaces.foldl (fun (s : State) (e : Nat × Nat) =>
    if (s.tm e.1).isOut || (x.members.headD 0 = e.1 && (s.cl c).res ≠ .ended) then s.restoreTeam e.1 e.2 else s)
    (fun s e => .ite _ (.restoreTeam ..) (.refl s)) (x.members.zip r.cores) s2
  obtain ⟨ht, hin⟩ := hk.standing c h2
  exact ⟨ht, fun h => hq (hin _ h)⟩

/-- Ending a reservation changes no more than a partition's reservation. -/
theorem State.endReserve_eq (p : Nat) (d : Cand) : (s.endReserve p d = s) ∨ s.endReserve p d = s.onPart p fun q => { q with reserve := none } := by
  unfold State.endReserve
  split
  · split
    · exact .inr rfl
    · exact .inl rfl
  · exact .inl rfl

theorem State.relaunchq_endReserve (p q : Nat) (d : Cand) : ((s.endReserve p d).partAt q).relaunchq = (s.partAt q).relaunchq := by
  rcases s.endReserve_eq p d with h | h
  · rw [h]
  · rw [h]
    unfold State.partAt State.onPart
    rw [KMap.read_put]
    split
    · rename_i hq; rw [hq]; rfl
    · rfl

theorem State.clusters_endReserve (p : Nat) (d : Cand) : (s.endReserve p d).clusters = s.clusters := by
  rcases s.endReserve_eq p d with h | h <;> rw [h]
  rfl

/-- The head candidate, a queued cluster whose stores have drained, is restored on the first free rectangle. -/
theorem exec_relaunch {p c : Nat} {d : Cand} {r : Rect} (hd : (s.candidates p).head? = some d) (hrl : d.relaunch = true) (hi : d.idx = c)
    (hp : (s.cl c).part = p) (hf : s.failed = false) (hq : (s.partAt p).relaunchq.contains c = true)
    (hres : (s.cl c).res = .preempted ∨ (s.cl c).res = .evicted) (hs : s.storesDrained c = true) (hr : s.findRect p d (s.cl c).w (s.cl c).h = some r) :
    exec (.relaunch c) s = .next ((s.restore c r).endReserve p d) := by
  subst hi hp
  have hne : (s.cl d.idx).res ≠ .ended := by rcases hres with h | h <;> rw [h] <;> decide
  have htry : s.tryRelaunch (s.cl d.idx).part d = .placed ((s.restore d.idx r).endReserve (s.cl d.idx).part d) := by
    unfold State.tryRelaunch
    dsimp only
    rw [hq, if_neg hne, hs, if_pos rfl, hr]
    rfl
  obtain ⟨ds, hds⟩ : ∃ ds, s.candidates (s.cl d.idx).part = d :: ds := List.head?_eq_some_iff.1 hd
  change execRelaunch d.idx s = _
  unfold execRelaunch
  dsimp only
  rw [hds]
  simp [hrl, hf, htry]

theorem does_relaunch_leaves {p c : Nat} {d : Cand} {r : Rect} (hd : (s.candidates p).head? = some d) (hrl : d.relaunch = true) (hi : d.idx = c)
    (hp : (s.cl c).part = p) (hf : s.failed = false) (hq : (s.partAt p).relaunchq.contains c = true)
    (hres : (s.cl c).res = .preempted ∨ (s.cl c).res = .evicted) (hs : s.storesDrained c = true) (hr : s.findRect p d (s.cl c).w (s.cl c).h = some r) :
    Does (.relaunch c) s fun t => (¬ c ∈ (t.partAt p).relaunchq) ∧ (t.cl c).res ≠ .preempted ∧ (t.cl c).res ≠ .evicted := by
  refine ⟨_, exec_relaunch s hd hrl hi hp hf hq hres hs hr, ?_⟩
  obtain ⟨hst, hnot⟩ := s.restore_leaves c r
  rw [hp] at hnot
  have hcl : ((s.restore c r).endReserve p d).cl c = (s.restore c r).cl c := by rw [State.cl, State.clusters_endReserve]; rfl
  rw [State.relaunchq_endReserve, hcl]
  refine ⟨hnot, ?_, ?_⟩
  all_goals rcases hst with h | h <;> rw [h] <;> decide

end

end Sys2Proof.Machine
end

