-- ==== Sys2Proof/Proofs/PlacementPass.lean ====
section
/-! SUPPORT. A placement pass gives every core of the head candidate's rectangle a team (14 R350, R351). -/

namespace Sys2Proof.Machine

/-- The columns and rows of a task's clusters, as its launch record gives them. -/
def Task.width (u : Task) : Nat := recField u.record 6 1 % 16

def Task.height (u : Task) : Nat := recField u.record 6 1 / 16

/-- A core that holds a team goes on holding one. -/
structure KeepsSeats (s t : State) : Prop where
  seated : ∀ j, (s.coreAt j).team.isSome → (t.coreAt j).team.isSome

namespace KeepsSeats

theorem of_cores {s t : State} (h : t.cores = s.cores) : KeepsSeats s t := ⟨fun j hj => by rw [State.coreAt, h]; exact hj⟩

theorem refl (s : State) : KeepsSeats s s := of_cores rfl

theorem trans {s t u : State} (h : KeepsSeats s t) (k : KeepsSeats t u) : KeepsSeats s u := ⟨fun j hj => k.seated j (h.seated j hj)⟩

theorem foldl {α : Type} (f : State → α → State) (hf : ∀ s x, KeepsSeats s (f s x)) (l : List α) (s : State) : KeepsSeats s (l.foldl f s) := by
  induction l generalizing s with
  | nil => exact refl s
  | cons x l ih => exact (hf s x).trans (ih _)

theorem of_roster {s t : State} (h : t.roster = s.roster) : KeepsSeats s t := ⟨fun j hj => by
  have hr : (t.roster.seats j).team = (s.roster.seats j).team := by rw [h]
  have hc : (t.coreAt j).team = (s.coreAt j).team := hr
  rw [hc]
  exact hj⟩

end KeepsSeats

section
variable (s : State)

/-! ## Launch -/

@[simp] theorem State.roster_lendShare (id h : Nat) : (s.lendShare id h).2.roster = s.roster := by
  unfold State.lendShare
  extract_lets e
  split
  · rfl
  · split
    · rfl
    · simp

@[simp] theorem State.roster_lendTokens (t : Task) (c team : Nat) : (s.lendTokens t c team).roster = s.roster := by
  unfold State.lendTokens
  extract_lets l h id' e s1
  have h1 : s1.roster = s.roster := State.roster_ite _ rfl (State.roster_setTok ..)
  exact State.roster_ite _ h1 ((State.roster_lendShare ..).trans h1)

@[simp] theorem State.cores_newTeams (p n : Nat) : (s.newTeams p n).2.cores = s.cores := by
  induction n generalizing s with
  | zero => rfl
  | succ n ih => exact ih _

theorem State.length_newTeams (p n : Nat) : (s.newTeams p n).1.length = n := by
  induction n generalizing s with
  | zero => rfl
  | succ n ih => exact congrArg (· + 1) (ih _)

/-- The groups of a launched team change no core. -/
theorem State.cores_foldl_setGrp (l : List Nat) (k : Nat → Nat) (x : State → Nat → Group) :
    (l.foldl (fun s g => s.setGrp (k g) (x s g)) s).cores = s.cores := by
  induction l generalizing s with
  | nil => rfl
  | cons g l ih => exact ih _

theorem State.cores_launchTeam (p c t m k img : Nat) (r : List Byte) (j : Nat) :
    ((s.launchTeam p c t m k img r).coreAt j) = if j = k then { (s.coreAt k).clearCounters with
      team := some t, press := { sub := (s.coreAt k).press.sub }, pressgate := (s.partAt p).ppressgate } else s.coreAt j := by
  unfold State.launchTeam
  extract_lets q arg s1 s2
  rw [State.coreAt, State.cores_foldl_setGrp s2 _ (fun g => streamKey t g)
    (fun s g => startGroup t g (BitVec.ofNat 64 (recField r 8 8)) arg 0xFFFF s.now)]
  split
  · rename_i hj
    rw [hj]
    exact State.coreAt_onCore ..
  · rename_i hj
    exact State.coreAt_onCore_other _ hj _

theorem KeepsSeats.launchTeam (p c t m k img : Nat) (r : List Byte) : KeepsSeats s (s.launchTeam p c t m k img r) := ⟨fun j hj => by
  rw [State.cores_launchTeam]
  split
  · rfl
  · exact hj⟩

/-- What one step of a fold brings about and the others keep, the fold brings about. -/
theorem seated_foldl {α : Type} (f : State → α → State) (hf : ∀ s x, KeepsSeats s (f s x)) {j : Nat} {e : α}
    (he : ∀ s, ((f s e).coreAt j).team.isSome) (l : List α) (hl : e ∈ l) (s : State) : ((l.foldl f s).coreAt j).team.isSome := by
  induction l generalizing s with
  | nil => cases hl
  | cons a l ih =>
    rcases List.mem_cons.1 hl with rfl | hl
    · exact (KeepsSeats.foldl f hf l _).seated j (he s)
    · exact ih hl _

theorem KeepsSeats.saveImages (l : List Nat) : KeepsSeats s (l.foldl State.saveImage s) :=
  .foldl _ (fun s t => .of_cores (by rw [ImageOnly.saveImage s t])) l s

/-- The launch of a cluster leaves the teams on cores, and gives the cores of its rectangle theirs. -/
theorem State.launch_seats (p i : Nat) (r : Rect) (imgs : List Nat) :
    KeepsSeats s (s.launch p i r imgs) ∧
      (r.cores.length = (s.taskAt p i).width * (s.taskAt p i).height → r.cores.length ≤ imgs.length →
        ∀ j ∈ r.cores, ((s.launch p i r imgs).coreAt j).team.isSome) := by
  unfold State.launch
  extract_lets t rec' w h k nx ny nz x c y a s1 s2 seq t0 s3 s3' s4
  let place : State → ((Nat × Nat × Nat) × Nat) → State := fun s e => s.launchTeam p c e.1.1 e.2 e.1.2.1 e.1.2.2 rec'
  have hplace (s : State) (e : (Nat × Nat × Nat) × Nat) : KeepsSeats s (place s e) := .launchTeam ..
  have h1 : KeepsSeats s s1 := .of_cores (State.cores_newTeams _ p (w * h))
  have h2 : KeepsSeats s1 s2 := .foldl place hplace _ s1
  have h3 : KeepsSeats s2 s3 := .of_cores (by unfold s3; split <;> rfl)
  have h4 : KeepsSeats s3 s3' := .saveImages ..
  have h5 : KeepsSeats s3' (s4.lendTokens t c t0) := .of_roster ((State.roster_lendTokens ..).trans (State.roster_setTask ..))
  have htail := (h3.trans h4).trans h5
  refine ⟨(h1.trans h2).trans htail, fun hr himg j hj => htail.seated j ?_⟩
  obtain ⟨n, hn, rfl⟩ := List.getElem_of_mem hj
  have hy : y.1.length = w * h := State.length_newTeams ..
  let l := (y.1.zip (r.cores.zip imgs)).zipIdx
  have hwh : r.cores.length = w * h := hr
  have hlen : n < l.length := by
    simp only [l, List.length_zipIdx, List.length_zip, hy]
    omega
  have hel : (l[n]).1.2.1 = r.cores[n] := by simp [l]
  refine seated_foldl place hplace (e := l[n]) (fun s => ?_) l (List.getElem_mem hlen) s1
  change ((s.launchTeam p c l[n].1.1 l[n].2 l[n].1.2.1 l[n].1.2.2 rec').coreAt _).team.isSome
  rw [hel, State.cores_launchTeam, if_pos rfl]
  rfl

/-! ## Passes -/

theorem KeepsSeats.endReserve (p : Nat) (d : Cand) : KeepsSeats s (s.endReserve p d) :=
  .of_cores (by rcases s.endReserve_eq p d with h | h <;> rw [h]; rfl)

theorem KeepsSeats.haltTask (p i status : Nat) : KeepsSeats s (s.haltTask p i status) :=
  .of_roster ((State.roster_tryCompleteTask ..).trans (State.roster_setTask ..))

/-- What trying a candidate leaves of the teams on cores. -/
def Tried.KeepsSeats (s : State) : Tried → Prop
  | .passed => True
  | .stopped t | .placed t => Machine.KeepsSeats s t

theorem State.keepsSeats_tryTask (p : Nat) (d : Cand) : (s.tryTask p d).KeepsSeats s := by
  unfold State.tryTask
  extract_lets t w h
  split
  · trivial
  · split
    · exact (KeepsSeats.haltTask ..).trans (.endReserve ..)
    · split
      · split
        · trivial
        · split
          · exact (KeepsSeats.haltTask ..).trans (.endReserve ..)
          · trivial
          · exact (State.launch_seats ..).1.trans (.endReserve ..)
      · trivial

theorem KeepsSeats.placeEach (p : Nat) {d : Cand} (hd : d.relaunch = false) (fuel : Nat) (s : State) : KeepsSeats s (s.placeEach p d fuel) := by
  induction fuel generalizing s with
  | zero => exact .refl s
  | succ fuel ih =>
    have h := s.keepsSeats_tryTask p d
    have ht : s.tryCand p d = s.tryTask p d := by unfold State.tryCand; rw [hd]; rfl
    unfold State.placeEach
    rw [ht]
    split <;> rename_i hr
    · exact .refl s
    · rw [hr] at h; exact h
    · rw [hr] at h; exact KeepsSeats.trans h (ih _)

theorem Cand.mem_insert {c e : Cand} {l : List Cand} (h : e ∈ c.insert l) : e = c ∨ e ∈ l := by
  induction l with
  | nil => exact .inl (List.mem_singleton.1 h)
  | cons d ds ih =>
    unfold Cand.insert at h
    split at h
    · exact List.mem_cons.1 h
    · rcases List.mem_cons.1 h with h | h
      · exact .inr (by rw [h]; exact List.mem_cons_self ..)
      · exact (ih h).imp_right (List.mem_cons_of_mem _)

theorem Cand.mem_foldr_insert {e : Cand} {l : List Cand} (h : e ∈ l.foldr Cand.insert []) : e ∈ l := by
  induction l with
  | nil => exact h
  | cons c l ih =>
    rcases Cand.mem_insert h with rfl | h
    · exact List.mem_cons_self ..
    · exact List.mem_cons_of_mem _ (ih h)

/-- With an empty relaunch queue, only tasks' clusters are candidates. -/
theorem State.candidates_tasks {p : Nat} (h : (s.partAt p).relaunchq = []) {d : Cand} (hd : d ∈ s.candidates p) : d.relaunch = false := by
  unfold State.candidates at hd
  dsimp only at hd
  rw [h, List.map_nil, List.append_nil] at hd
  obtain ⟨e, _, rfl⟩ := List.mem_map.1 (Cand.mem_foldr_insert hd)
  rfl

theorem length_cores_of_rects {w h : Nat} {r : Rect} (hr : r ∈ rects w h) : r.cores.length = w * h := by
  have hof (o : Bool) (ho : r ∈ rectsOf w h o) : r.cores.length = w * h := by
    simp only [rectsOf, List.mem_flatMap, List.mem_map] at ho
    obtain ⟨_, _, _, _, _, _, rfl⟩ := ho
    simp [rectAt]
  rcases List.mem_append.1 hr with hr | hr
  · exact hof _ hr
  · exact hof _ hr

/-- A free rectangle is one of the partition's. -/
theorem State.shapeExists_of_findRect {p w h : Nat} {d : Cand} {r : Rect} (hr : s.findRect p d w h = some r) : s.shapeExists p w h = true := by
  have hall : r.cores.all (s.freeFor p d) = true := List.find?_some (p := fun r : Rect => r.cores.all (s.freeFor p d)) hr
  refine List.any_eq_true.2 ⟨r, List.mem_of_find?_eq_some hr, List.all_eq_true.2 fun k hk => ?_⟩
  have := List.all_eq_true.1 hall k hk
  simp only [State.freeFor, Bool.and_eq_true] at this
  exact this.1.1.1

/-- A task's next cluster is placed on the first free rectangle, where it has images and its tokens can be lent. -/
theorem State.tryTask_placed {p : Nat} {d : Cand} {r : Rect} {u : Task} (hu : s.taskAt p d.idx = u) (hp : u.placeable = true)
    (hr : s.findRect p d u.width u.height = some r) (hi : u.width * u.height ≤ (s.freeImages p (u.width * u.height)).length)
    (ht : s.launchTokens u = .ok) :
    s.tryTask p d = .placed ((s.launch p d.idx r (s.freeImages p (u.width * u.height))).endReserve p d) := by
  subst hu
  have hex := s.shapeExists_of_findRect hr
  unfold Task.width Task.height at *
  unfold State.tryTask
  dsimp only
  rw [hp, hex, hr, ht]
  exact if_neg (Nat.not_lt.2 hi)

/-- One try that places a cluster of a task, and what follows it. -/
theorem State.placeEach_placed {p : Nat} {d : Cand} (hd : d.relaunch = false) {t : State} (h : s.tryTask p d = .placed t) (fuel : Nat) :
    s.placeEach p d (fuel + 1) = t.placeEach p d fuel := by
  have ht : s.tryCand p d = .placed t := by unfold State.tryCand; rw [hd]; exact h
  rw [State.placeEach, ht]

theorem KeepsSeats.pass (p : Nat) (l : List Cand) (hl : ∀ e ∈ l, e.relaunch = false) (s : State) :
    KeepsSeats s (l.foldl (fun s c => s.placeEach p c (s.cores.length + 1)) s) := by
  induction l generalizing s with
  | nil => exact .refl s
  | cons e l ih =>
    exact (KeepsSeats.placeEach p (hl e (List.mem_cons_self ..)) _ s).trans (ih (fun d hd => hl d (List.mem_cons_of_mem _ hd)) _)

theorem State.exec_placementPass {p : Nat} (hf : s.failed = false) :
    exec (.placementPass p) s = .next ((s.candidates p).foldl (fun t c => t.placeEach p c (t.cores.length + 1)) s) := by
  change execPlacementPass p s = _
  unfold execPlacementPass
  rw [hf]
  exact if_neg Bool.false_ne_true

theorem does_placementPass_seats {p : Nat} {d : Cand} {r : Rect} {u : Task} (hu : s.taskAt p d.idx = u) (hd : (s.candidates p).head? = some d)
    (hf : s.failed = false) (hq : (s.partAt p).relaunchq = []) (hp : u.placeable = true) (hr : s.findRect p d u.width u.height = some r)
    (hi : (s.freeImages p (u.width * u.height)).length = u.width * u.height) (ht : s.launchTokens u = .ok) :
    Does (.placementPass p) s fun t => ∀ j ∈ r.cores, (t.coreAt j).team.isSome := by
  obtain ⟨ds, hds⟩ := List.head?_eq_some_iff.1 hd
  have hrel (e : Cand) (he : e ∈ s.candidates p) : e.relaunch = false := s.candidates_tasks hq he
  rw [hds] at hrel
  have hd' : d.relaunch = false := hrel d (List.mem_cons_self ..)
  refine ⟨_, s.exec_placementPass hf, fun j hj => ?_⟩
  rw [hds, List.foldl_cons, s.placeEach_placed hd' (s.tryTask_placed hu hp hr hi.ge ht)]
  have hlen := length_cores_of_rects (List.mem_of_find?_eq_some hr)
  have hlaunched := (s.launch_seats p d.idx r (s.freeImages p (u.width * u.height))).2 (by rw [hu]; exact hlen) (by rw [hi, hlen]) j hj
  refine ((KeepsSeats.endReserve _ p d).trans (.placeEach p hd' _ _)).trans (.pass p ds (fun e he => ?_) _) |>.seated j hlaunched
  exact hrel e (List.mem_cons_of_mem _ he)

end

end Sys2Proof.Machine
end

