-- ==== Sys2Proof/Proofs/Images.lean ====
section
/-! SUPPORT. Where a team's image lies, in both copies, and that writing it changes no byte outside it (09 R219, 16 R391). -/

namespace Sys2Proof.Machine

/-! ## Mirror copies -/

/-- The exclusive-or with bit 9 exchanges the halves of a kilobyte. -/
theorem xor_512 (x : Nat) : x ^^^ 0x200 = if x / 512 % 2 = 0 then x + 512 else x - 512 := by
  have hd : (x ^^^ 512) / 512 = (x / 512) ^^^ 1 := @Nat.xor_div_two_pow x 512 9
  have hm : (x ^^^ 512) % 512 = x % 512 := by
    have := @Nat.xor_mod_two_pow x 512 9
    simpa using this
  split
  · rename_i h
    rw [Nat.xor_one_of_even (Nat.even_iff.2 h)] at hd
    omega
  · rename_i h
    rw [Nat.xor_one_of_odd (Nat.odd_iff.2 (by omega))] at hd
    omega

/-- The definition as a function: of an applied one the kernel would count up to the literal. -/
theorem mirrorOf_eq_fun : mirrorOf = fun a => (a + 0x20_0000) ^^^ 0x200 := rfl

theorem mirrorOf_eq (a : Nat) : mirrorOf a = if a / 512 % 2 = 0 then a + 0x20_0000 + 512 else a + 0x20_0000 - 512 := by
  rw [congrFun mirrorOf_eq_fun a, xor_512]
  have h : (a + 0x20_0000) / 512 % 2 = a / 512 % 2 := by omega
  rw [h]

/-- Bytes of one block of 512 keep their order in the mirror copy. -/
theorem mirrorOf_add {a i : Nat} (h : a % 512 + i < 512) : mirrorOf (a + i) = mirrorOf a + i := by
  rw [mirrorOf_eq, mirrorOf_eq]
  have hb : (a + i) / 512 = a / 512 := by omega
  rw [hb]
  split <;> omega

theorem mirroredByte_add {b o i : Nat} (h : o % 0x20_0000 + i < 0x20_0000) : mirroredByte b (o + i) = mirroredByte b o + i := by
  unfold mirroredByte
  have h1 : (o + i) / 0x20_0000 = o / 0x20_0000 := by omega
  rw [h1]
  omega

/-! ## Offsets of the context area -/

/-- Both copies of a byte of an aligned context area have its offset. -/
theorem Partition.areaOff_mirroredByte {q : Partition} (hb : q.pctxbase.toNat % 0x40_0000 = 0) {o : Nat} (ho : o < 0x20_0000 * q.pctxlen.toNat) :
    q.areaOff (mirroredByte q.pctxbase.toNat o) = some o ∧ q.areaOff (mirrorOf (mirroredByte q.pctxbase.toNat o)) = some o := by
  have hl : q.pctxlen ≠ 0 := by
    intro h
    rw [h] at ho
    exact absurd ho (by simp)
  have key (pa : Nat) (hpa : q.pctxbase.toNat ≤ pa)
      (hoff : (0x20_0000 * ((pa - q.pctxbase.toNat) / 0x40_0000) + if (pa - q.pctxbase.toNat) % 0x40_0000 < 0x20_0000 then
        (pa - q.pctxbase.toNat) % 0x40_0000 else ((pa - q.pctxbase.toNat) % 0x40_0000 - 0x20_0000) ^^^ 0x200) = o) : q.areaOff pa = some o := by
    unfold Partition.areaOff
    dsimp only
    rw [if_neg (by simpa [Nat.not_lt.2 hpa] using hl), hoff, if_pos ho]
  generalize hB : q.pctxbase.toNat = B at *
  constructor
  · refine key _ (by unfold mirroredByte; omega) ?_
    have hd : mirroredByte B o - B = 0x40_0000 * (o / 0x20_0000) + o % 0x20_0000 := by unfold mirroredByte; omega
    rw [hd, if_pos (by omega)]
    omega
  · have hm := mirrorOf_eq (mirroredByte B o)
    have hpar : mirroredByte B o / 512 % 2 = o / 512 % 2 := by unfold mirroredByte; omega
    rw [hpar] at hm
    refine key _ (by rw [hm]; unfold mirroredByte; split <;> omega) ?_
    have hd : mirrorOf (mirroredByte B o) - B = 0x40_0000 * (o / 0x20_0000) + 0x20_0000 + ((o % 0x20_0000) ^^^ 0x200) := by
      rw [hm, xor_512]
      have : o % 0x20_0000 / 512 % 2 = o / 512 % 2 := by omega
      rw [this]
      unfold mirroredByte
      split <;> omega
    have hx : (o % 0x20_0000) ^^^ 0x200 < 0x20_0000 := by
      rw [xor_512]
      split <;> omega
    have hxx : ((o % 0x20_0000) ^^^ 0x200) ^^^ 0x200 = o % 0x20_0000 := by rw [Nat.xor_assoc, Nat.xor_self, Nat.xor_zero]
    rw [hd, if_neg (by omega)]
    have hw : (0x40_0000 * (o / 0x20_0000) + 0x20_0000 + ((o % 0x20_0000) ^^^ 0x200)) % 0x40_0000 - 0x20_0000 = (o % 0x20_0000) ^^^ 0x200 := by omega
    rw [hw, hxx]
    omega

theorem Partition.areaOff_lt {q : Partition} {pa o : Nat} (h : q.areaOff pa = some o) : o < 0x20_0000 * q.pctxlen.toNat := by
  unfold Partition.areaOff at h
  dsimp only at h
  split at h
  · cases h
  · obtain ⟨hlt, he⟩ := Option.ite_none_right_eq_some.1 h
    exact Option.some.inj he ▸ hlt

/-! ## Images -/

/-- Byte `o` of a team's image lies in its partition's context area, which is aligned. -/
def State.holdsImage (s : State) (t o : Nat) : Prop :=
  (s.partAt (s.tm t).part).pctxbase.toNat % 0x40_0000 = 0 ∧ o < imageBytes ∧
    imageBytes * (s.tm t).img + o < 0x20_0000 * (s.partAt (s.tm t).part).pctxlen.toNat

section
variable {s : State} {t : Nat}

theorem State.inImage_of_areaOff {pa o : Nat} (h : (s.partAt (s.tm t).part).areaOff pa = some (imageBytes * (s.tm t).img + o)) (ho : o < imageBytes) :
    s.inImage t pa = some o := by
  have hd : (imageBytes * (s.tm t).img + o) / imageBytes = (s.tm t).img := by
    rw [Nat.mul_add_div (by decide), Nat.div_eq_of_lt ho, Nat.add_zero]
  have hm : (imageBytes * (s.tm t).img + o) % imageBytes = o := by rw [Nat.mul_add_mod, Nat.mod_eq_of_lt ho]
  unfold State.inImage
  rw [h]
  dsimp only
  rw [if_pos hd, hm]

theorem State.inImage_imageAt {o : Nat} (h : s.holdsImage t o) :
    s.inImage t (s.imageAt t o) = some o ∧ s.inImage t (mirrorOf (s.imageAt t o)) = some o := by
  obtain ⟨hb, ho, hl⟩ := h
  obtain ⟨h1, h2⟩ := Partition.areaOff_mirroredByte hb hl
  exact ⟨State.inImage_of_areaOff h1 ho, State.inImage_of_areaOff h2 ho⟩

/-- The bytes of one sector follow each other, in both copies. -/
theorem State.imageAt_add {o i : Nat} (hb : (s.partAt (s.tm t).part).pctxbase.toNat % 0x40_0000 = 0) (h : o % 32 + i < 32) :
    s.imageAt t (o + i) = s.imageAt t o + i ∧ mirrorOf (s.imageAt t (o + i)) = mirrorOf (s.imageAt t o) + i := by
  unfold State.imageAt
  have h1 : mirroredByte (s.partAt (s.tm t).part).pctxbase.toNat (imageBytes * (s.tm t).img + o + i) =
      mirroredByte (s.partAt (s.tm t).part).pctxbase.toNat (imageBytes * (s.tm t).img + o) + i := by
    refine mirroredByte_add ?_
    unfold imageBytes
    omega
  rw [← Nat.add_assoc, h1]
  refine ⟨rfl, mirrorOf_add ?_⟩
  unfold mirroredByte imageBytes
  omega

/-- A store in one sector of a team's image changes no byte outside it. -/
theorem State.byteAt_storeBlock_image {o : Nat} {bs : List Byte} (h : ∀ i < bs.length, s.holdsImage t (o + i)) (hs : o % 32 + bs.length ≤ 32)
    {a : Nat} (ha : s.inImage t a = none) : (s.storeBlock (s.imageAt t o) bs).byteAt a = s.byteAt a := by
  have hout (i : Nat) (hi : i < bs.length) : a ≠ s.imageAt t o + i ∧ a ≠ mirrorOf (s.imageAt t o) + i := by
    obtain ⟨h1, h2⟩ := State.imageAt_add (h i hi).1 (show o % 32 + i < 32 by omega)
    obtain ⟨k1, k2⟩ := State.inImage_imageAt (h i hi)
    rw [h1] at k1
    rw [h2] at k2
    constructor
    · rintro rfl; rw [k1] at ha; cases ha
    · rintro rfl; rw [k2] at ha; cases ha
  have hrange (b : Nat) (hb : ∀ i < bs.length, a ≠ b + i) : a < b ∨ b + bs.length ≤ a := by
    by_contra hc
    exact hb (a - b) (by omega) (by omega)
  exact s.byteAt_storeBlock_other _ _ _ (hrange _ fun i hi => (hout i hi).1) fun _ => hrange _ fun i hi => (hout i hi).2

end

/-! ## Writes of an image -/

/-- A team's image lies in its partition's context area, which is aligned. -/
def State.imageFits (s : State) (t : Nat) : Prop := ∀ o < imageBytes, s.holdsImage t o

/-- Only memory changed, and of memory no byte outside a team's image. -/
structure WritesImage (t : Nat) (s u : State) : Prop where
  only : ImageOnly s u
  bytes : s.imageFits t → ∀ a, s.inImage t a = none → u.byteAt a = s.byteAt a

theorem ImageOnly.inImage {s u : State} (h : ImageOnly s u) (t a : Nat) : u.inImage t a = s.inImage t a := by rw [h]; rfl

theorem ImageOnly.holdsImage {s u : State} (h : ImageOnly s u) {t o : Nat} (k : s.holdsImage t o) : u.holdsImage t o := by rw [h]; exact k

namespace WritesImage

theorem refl (t : Nat) (s : State) : WritesImage t s s := ⟨.refl s, fun _ _ _ => rfl⟩

theorem trans {t : Nat} {s u v : State} (h : WritesImage t s u) (k : WritesImage t u v) : WritesImage t s v where
  only := h.only.trans k.only
  bytes hf a ha :=
    have hu : u.imageFits t := fun o ho => h.only.holdsImage (hf o ho)
    (k.bytes hu a (by rw [h.only.inImage]; exact ha)).trans (h.bytes hf a ha)

theorem foldl {α : Type} {t : Nat} (f : State → α → State) (l : List α) (hf : ∀ s, ∀ x ∈ l, WritesImage t s (f s x)) (s : State) :
    WritesImage t s (l.foldl f s) := by
  induction l generalizing s with
  | nil => exact refl t s
  | cons x l ih => exact (hf s x (List.mem_cons_self ..)).trans (ih (fun s y hy => hf s y (List.mem_cons_of_mem _ hy)) _)

theorem of_mem {t : Nat} {s u : State} (h : ImageOnly s u) (hm : u.mem = s.mem) : WritesImage t s u :=
  ⟨h, fun _ a _ => by rw [State.byteAt, hm]; rfl⟩

end WritesImage

/-- The pieces of a range lie in it, and in one sector each. -/
theorem sectorPieces_mem {o fuel n : Nat} {p : Nat × Nat} (h : p ∈ sectorPieces o fuel n) : o ≤ p.1 ∧ p.1 + p.2 ≤ o + n ∧ p.1 % 32 + p.2 ≤ 32 := by
  induction fuel generalizing o n with
  | zero => cases h
  | succ fuel ih =>
    cases n with
    | zero => cases h
    | succ n =>
      unfold sectorPieces at h
      rcases List.mem_cons.1 h with rfl | h
      · dsimp only
        omega
      · have := ih h
        omega

section
variable {t : Nat} (s : State)

theorem WritesImage.putImage (o : Nat) (bs : List Byte) (h : o + bs.length ≤ imageBytes) : WritesImage t s (s.putImage t o bs) := by
  refine .foldl _ _ (fun s p hp => ?_) s
  obtain ⟨hlo, hhi, hs⟩ := sectorPieces_mem hp
  have hlen : ((bs.drop (p.1 - o)).take p.2).length ≤ p.2 := by rw [List.length_take]; omega
  exact ⟨.storeBlock .., fun hf a ha => State.byteAt_storeBlock_image (fun i hi => hf _ (by omega)) (by omega) ha⟩

theorem WritesImage.badImage (o : Nat) : WritesImage t s (s.badImage t o) := .of_mem (.badImage ..) rfl

theorem WritesImage.putOwn (o n : Nat) (h : o + n ≤ imageBytes) : WritesImage t s (s.putOwn t o n) :=
  (WritesImage.putImage s o _ (by simpa using h)).trans (.of_mem rfl rfl)

theorem WritesImage.clearImage : WritesImage t s (s.clearImage t) := by
  have hclear (l : List (Nat × Byte)) (hl : ∀ e ∈ l, s.inImage t e.1 ≠ none) (u : State) (hu : ImageOnly s u) :
      WritesImage t u (l.foldl (fun s e => s.storeAt e.1 [0]) u) := by
    induction l generalizing u with
    | nil => exact .refl t u
    | cons e l ih =>
      have h1 : WritesImage t u (u.storeAt e.1 [0]) := by
        refine ⟨.storeAt .., fun _ a ha => ?_⟩
        have hne : a ≠ e.1 := fun h => hl e (List.mem_cons_self ..) (by rw [← h, ← hu.inImage]; exact ha)
        rw [State.byteAt_storeAt, if_neg]
        simp only [List.length_singleton]
        omega
      exact h1.trans (ih (fun e he => hl e (List.mem_cons_of_mem _ he)) _ (hu.trans h1.only))
  unfold State.clearImage
  extract_lets mine s1
  have h1 : WritesImage t s s1 := by
    refine hclear _ (fun e he hn => ?_) s (.refl s)
    have := (List.mem_filter.1 he).2
    simp only [mine, hn] at this
    cases this
  exact h1.trans (.of_mem rfl rfl)

theorem Group.length_lineBytes (x : Group) (line : Nat) : (x.lineBytes line).length = 64 := by
  unfold Group.lineBytes
  split <;> simp [List.length_flatMap, length_bytesOfNat]

theorem WritesImage.saveLine (g line : Nat) (h : streamImage (keyGrp g) + 64 * line + 64 ≤ imageBytes) : WritesImage t s (s.saveLine t g line) := by
  unfold State.saveLine
  refine (WritesImage.putImage s _ _ (by rw [Group.length_lineBytes]; exact h)).trans (.foldl _ _ (fun s h _ => ?_) _)
  split
  · exact .badImage ..
  · exact .refl t s

/-- A region of the device's own layout in pieces of a line ends where it ends. -/
theorem ownPieces_bounded {o n : Nat} {c : Nat × Nat × List Byte}
    (h : c ∈ (List.range ((n + 63) / 64)).map fun i => (o + 64 * i, min 64 (n - 64 * i), ([] : List Byte))) :
    c.1 + c.2.1 ≤ o + n ∧ c.1 + c.2.2.length ≤ o + n := by
  obtain ⟨i, hi, rfl⟩ := List.mem_map.1 h
  rw [List.mem_range] at hi
  dsimp only
  rw [List.length_nil]
  omega

/-- The control regions of a stream end below the next stream's image. -/
theorem Group.controls_bounded (x : Group) {c : Nat × Nat × List Byte} (h : c ∈ x.controls) : c.1 + c.2.1 ≤ 0xC000 ∧ c.1 + c.2.2.length ≤ 0xC000 := by
  unfold Group.controls at h
  simp only [List.mem_append, List.mem_cons, List.not_mem_nil, or_false] at h
  rcases h with ((((rfl | rfl | rfl) | h) | h) | h) | h
  · simp [List.length_flatMap, length_bytesOfNat]
  · simp
  · simp [length_bytesOfNat]
  · obtain ⟨i, hi, rfl⟩ := List.mem_map.1 h
    rw [List.mem_range] at hi
    split <;> simp only [length_bytesOfNat, List.length_nil] <;> omega
  all_goals
    have := ownPieces_bounded h
    omega

theorem WritesImage.saveControl (g : Nat) (want : Nat → Bool) (h : keyGrp g ≤ 64) : WritesImage t s (s.saveControl t g want) := by
  have hb : streamImage (keyGrp g) + 0xC000 ≤ imageBytes := by unfold streamImage imageBytes; omega
  unfold State.saveControl
  extract_lets b x s1
  have h1 : WritesImage t s s1 := by
    refine .foldl _ _ (fun s c hc => ?_) s
    obtain ⟨hn, hl⟩ := x.controls_bounded (List.mem_of_mem_filter hc)
    split
    · exact .putOwn s _ _ (by unfold b; omega)
    · exact .putImage s _ _ (by unfold b; omega)
  exact h1.trans (.foldl _ _ (fun s k _ => .badImage ..) _)

theorem WritesImage.saveStream (g : Nat) (hg : keyGrp g ≤ 64) (hd : s.declared g ≤ 2040) : WritesImage t s (s.saveStream t g) := by
  have hlines : ∀ l ∈ List.range (s.declared g) ++ (List.range 8).map (256 + ·), l < 2040 := by
    intro l hl
    simp only [List.mem_append, List.mem_range, List.mem_map] at hl
    rcases hl with hl | ⟨i, hi, rfl⟩ <;> omega
  unfold State.saveStream
  refine .trans (.foldl _ _ (fun s l hl => .saveLine s _ _ ?_) s) (.saveControl _ _ _ hg)
  have := hlines l hl
  unfold streamImage imageBytes
  omega

/-- The image of a team that starts: it has no scratchpad and no accumulators to save. -/
theorem WritesImage.saveImage (hm : (s.tm t).mem = []) (hp : (s.tm t).poison = []) (hpr : (s.tm t).press = none) (hv : (s.tm t).vregs ≤ 2040)
    (hg : ∀ g ∈ KMap.keys s.groups, keyGrp g ≤ 64) : WritesImage t s (s.saveImage t) := by
  have h0 : WritesImage t s (s.clearImage t) := .clearImage s
  have h1 : (s.clearImage t).saveTeamData t = s.clearImage t := by
    have htm : (s.clearImage t).tm t = s.tm t := by rw [h0.only]; rfl
    unfold State.saveTeamData
    dsimp only
    rw [htm, hm, hp, hpr]
    rfl
  unfold State.saveImage
  rw [h1]
  have h2 := h0.trans (WritesImage.putOwn _ 0 0x1000 (by decide))
  have hstream (l : List Nat) (hl : ∀ g ∈ l, keyTeam g = t ∧ keyGrp g ≤ 64) (u : State) (hu : u.teams = s.teams) :
      WritesImage t u (l.foldl (fun s g => s.saveStream t g) u) := by
    induction l generalizing u with
    | nil => exact .refl t u
    | cons g l ih =>
      obtain ⟨hk, hg⟩ := hl g (List.mem_cons_self ..)
      have hd : u.declared g ≤ 2040 := by
        unfold State.declared
        split
        · omega
        · rw [hk, State.tm, hu]
          exact hv
      have h1 := WritesImage.saveStream (t := t) u g hg hd
      refine h1.trans (ih (fun g hg => hl g (List.mem_cons_of_mem _ hg)) _ ?_)
      rw [h1.only]
      exact hu
  refine h2.trans (hstream _ (fun g hgm => ?_) _ (by rw [h2.only]))
  obtain ⟨hk, ht⟩ := List.mem_filter.1 hgm
  exact ⟨of_decide_eq_true ht, hg g hk⟩

end

end Sys2Proof.Machine
end

