-- ==== Sys2Proof/Proofs/OneCoreLaunch.lean ====
section
/-! SUPPORT. The launch of a cluster of one core (14 R351, 02 R51 to R53). -/

namespace Sys2Proof.Machine

/-! ## The parts of a launch -/

/-- A partition whose next serial is another. -/
def Partition.withSerial (q : Partition) (n : Nat) : Partition := { q with serial := n }

/-- The state in which a launch has drawn its numbers and entered its cluster, but no team: the machine but for a serial, and the records
of the cluster and of its teams. -/
structure LaunchBase (p : Nat) (s s1 : State) (cl tm : Nat) : Prop where
  mem : s1.mem = s.mem
  groups : s1.groups = s.groups
  caps : s1.caps = s.caps
  part : ∀ q, ∃ n, s1.partAt q = (s.partAt q).withSerial n
  members : (s1.cl cl).members = [tm]
  res : (s1.cl cl).res = .resident

section
variable (s : State)

theorem State.newSerial_part (p q : Nat) : ∃ n, (s.newSerial p).2.partAt q = (s.partAt q).withSerial n := by
  unfold State.newSerial
  extract_lets n at' taken j
  by_cases h : q = p
  · rw [h, State.partAt_onPart]
    exact ⟨at' j + 1, rfl⟩
  · refine ⟨(s.partAt q).serial, ?_⟩
    unfold State.partAt State.onPart
    rw [KMap.read_put, if_neg h]
    rfl

/-- The numbers of a launch of one team. -/
theorem State.launch_one {p i k img : Nat} {r : Rect} {u : Task} (hu : s.taskAt p i = u) (hr : r.cores = [k]) (hw : u.width = 1) (hh : u.height = 1)
    (hl : recField u.record 0x40 4 < 2 ^ 31) (hs : recField u.record 0x44 4 < 2 ^ 31) :
    ∃ tm cl s1 s3 used, LaunchBase p s s1 cl tm ∧
      (s3 = s1.launchTeam p cl tm 0 k img u.record ∨ ∃ x, s3 = (s1.launchTeam p cl tm 0 k img u.record).setGrp (streamKey tm 64) x) ∧
      s.launch p i r [img] = (s3.saveImage tm).setTask p i { u with state := .running, placed := u.placed + 1, used } := by
  subst hu
  unfold State.launch
  extract_lets t rec' w h j nx ny nz x c y a s1 s2 seq t0 s3 s3' s4
  have hy : y = (x.2.setCl c { part := p }).newTeams p 1 := by
    have hwh : w * h = 1 := by
      have h1 : w = 1 := hw
      have h2 : h = 1 := hh
      rw [h1, h2]
    unfold y
    rw [hwh]
  let z := (x.2.setCl c { part := p }).newSerial p
  let tm := p * 2 ^ 19 + z.1
  have hy1 : y.1 = [tm] := by rw [hy]; rfl
  have hy2 : y.2 = z.2.setTm tm { part := p } := by rw [hy]; rfl
  have hs2 : s2 = s1.launchTeam p c tm 0 k img rec' := by
    unfold s2
    rw [hy1, hr]
    rfl
  have ht0 : t0 = tm := by unfold t0; rw [hy1]; rfl
  have hlend : s4.lendTokens t c t0 = s4 := by
    unfold State.lendTokens
    dsimp only
    rw [if_pos hs, if_pos hl]
  have hs3' : s3' = s3.saveImage tm := by unfold s3'; rw [hy1]; rfl
  refine ⟨tm, c, s1, s3, insertRising j t.used, ?_, ?_, ?_⟩
  · constructor
    · unfold s1; rw [hy2]; rfl
    · unfold s1; rw [hy2]; rfl
    · unfold s1; rw [hy2]; rfl
    · intro q
      obtain ⟨n, hn⟩ := State.newSerial_part { s with free := s.free + 1 } p q
      obtain ⟨m, hm⟩ := State.newSerial_part (x.2.setCl c { part := p }) p q
      have hx : (x.2.setCl c { part := p }).partAt q = (s.partAt q).withSerial n := hn
      rw [hx] at hm
      have h1 : s1.partAt q = z.2.partAt q := by unfold s1; rw [hy2]; rfl
      exact ⟨m, h1.trans hm⟩
    · unfold s1; rw [State.cl, State.setCl, KMap.read_put_same]; exact hy1
    · unfold s1; rw [State.cl, State.setCl, KMap.read_put_same]
  · rw [← hs2]
    unfold s3
    split
    · exact .inl rfl
    · exact .inr ⟨_, by rw [ht0]⟩
  · rw [hlend]
    unfold s4
    rw [hs3']

/-! ## The team and its groups -/

/-- The groups of a team that start, by number. -/
def State.startGroups (t : Nat) (pc arg : Word) (l : List Nat) : State := l.foldl (fun s g => s.setGrp (streamKey t g) (startGroup t g pc arg 0xFFFF s.now)) s

theorem State.startGroups_eq (t : Nat) (pc arg : Word) (l : List Nat) : s.startGroups t pc arg l = { s with groups := (s.startGroups t pc arg l).groups } := by
  induction l generalizing s with
  | nil => rfl
  | cons g l ih => exact (ih _).trans rfl

theorem State.grp_startGroups (t : Nat) (pc arg : Word) (g : Nat) (l : List Nat) :
    (s.startGroups t pc arg l).grp (streamKey t g) = if g ∈ l then startGroup t g pc arg 0xFFFF s.now else s.grp (streamKey t g) := by
  induction l generalizing s with
  | nil => rfl
  | cons a l ih =>
    refine (ih (s.setGrp (streamKey t a) (startGroup t a pc arg 0xFFFF s.now))).trans ?_
    rw [show (s.setGrp (streamKey t a) (startGroup t a pc arg 0xFFFF s.now)).now = s.now from rfl]
    by_cases hl : g ∈ l
    · rw [if_pos hl, if_pos (List.mem_cons_of_mem _ hl)]
    · rw [if_neg hl]
      by_cases ha : g = a
      · rw [ha, State.grp_setGrp, if_pos (List.mem_cons_self ..)]
      · have hk : streamKey t g ≠ streamKey t a := by unfold streamKey; omega
        rw [State.grp_setGrp_other _ hk, if_neg (by simp [ha, hl])]

theorem State.keys_startGroups (t : Nat) (pc arg : Word) (l : List Nat) {g : Nat} (h : g ∈ KMap.keys (s.startGroups t pc arg l).groups) :
    g ∈ KMap.keys s.groups ∨ ∃ n ∈ l, g = streamKey t n := by
  induction l generalizing s with
  | nil => exact .inl h
  | cons a l ih =>
    rcases ih _ h with h | ⟨n, hn, he⟩
    · obtain ⟨e, he, rfl⟩ := List.mem_map.1 h
      rcases KMap.mem_put he with rfl | he
      · exact .inr ⟨a, List.mem_cons_self .., rfl⟩
      · exact .inl (List.mem_map.2 ⟨e, he, rfl⟩)
    · exact .inr ⟨n, List.mem_cons_of_mem _ hn, he⟩

/-- The record of a team that is launched. -/
def State.launchRecord (p c m k img : Nat) (r : List Byte) : Team :=
  let q := s.partAt p
  { part := p, cluster := c, member := m, core := some k, vregs := 8 * recField r 3 1, spad := 4096 * recField r 4 2
    arg := BitVec.ofNat 64 (recField r 0x18 8), hvec := q.phvec, evthr := q.pevthr, spawntmr := q.pspawntmr, trygrace := q.ptrygrace, img := img }

/-- What a launched team leaves: it is entered, its core holds it, and its groups start. -/
theorem State.launchTeam_frame (p c t m k img : Nat) (r : List Byte) :
    (s.launchTeam p c t m k img r).tm t = s.launchRecord p c m k img r ∧ (s.launchTeam p c t m k img r).mem = s.mem ∧
      (s.launchTeam p c t m k img r).parts = s.parts ∧ (s.launchTeam p c t m k img r).caps = s.caps ∧
      (s.launchTeam p c t m k img r).clusters = s.clusters := by
  unfold State.launchTeam
  extract_lets q arg s1 s2
  have h := s2.startGroups_eq t (BitVec.ofNat 64 (recField r 8 8)) arg (List.range (recField r 2 1))
  unfold State.startGroups at h
  rw [h]
  refine ⟨?_, rfl, rfl, rfl, rfl⟩
  have h1 : s2.tm t = s1.tm t := rfl
  refine h1.trans ?_
  unfold s1
  rw [State.tm, State.setTm, KMap.read_put_same]
  rfl

theorem State.grp_launchTeam (p c t m k img : Nat) (r : List Byte) {g : Nat} (hg : g < recField r 2 1) :
    (s.launchTeam p c t m k img r).grp (streamKey t g) =
      startGroup t g (BitVec.ofNat 64 (recField r 8 8)) (BitVec.ofNat 64 (recField r 0x18 8)) 0xFFFF s.now := by
  unfold State.launchTeam
  extract_lets q arg s1 s2
  exact (s2.grp_startGroups t _ arg g _).trans (if_pos (List.mem_range.2 hg))

theorem State.keys_launchTeam (p c t m k img : Nat) (r : List Byte) {g : Nat} (h : g ∈ KMap.keys (s.launchTeam p c t m k img r).groups) :
    g ∈ KMap.keys s.groups ∨ ∃ n < recField r 2 1, g = streamKey t n := by
  unfold State.launchTeam at h
  extract_lets q arg s1 s2 at h
  obtain h | ⟨n, hn, he⟩ := s2.keys_startGroups t _ arg _ h
  · exact .inl h
  · exact .inr ⟨n, List.mem_range.1 hn, he⟩

/-! ## Task entries and images -/

theorem ImageOnly.store (a : Nat) (bs : List Byte) : ImageOnly s (s.store a bs) :=
  .ite _ (.storeBlock ..) (.foldl _ (fun s _ => .storeBlock s ..) _ s)

theorem ImageOnly.putTask (p i : Nat) : ImageOnly s (s.putTask p i) := (ImageOnly.store s ..).trans rfl

/-- A partition with an entry of its task table written. -/
def Partition.withTask (q : Partition) (i : Nat) (u : Task) : Partition := { q with tasks := KMap.put i u q.tasks }

theorem State.parts_setTask (p i : Nat) (u : Task) : (s.setTask p i u).parts = (s.onPart p (Partition.withTask · i u)).parts := by
  have h := ImageOnly.putTask (s.onPart p (Partition.withTask · i u)) p i
  exact h.frame.1

theorem State.partAt_setTask (p i : Nat) (u : Task) : (s.setTask p i u).partAt p = (s.partAt p).withTask i u := by
  rw [State.partAt, State.parts_setTask]
  exact State.partAt_onPart s p _

theorem State.taskAt_setTask (p i : Nat) (u : Task) : (s.setTask p i u).taskAt p i = u := by
  rw [State.taskAt, State.partAt_setTask, Partition.withTask, KMap.read_put_same]

theorem State.taskAddr_onPart (p i : Nat) (f : Partition → Partition) (hf : (f (s.partAt p)).ptaskbase = (s.partAt p).ptaskbase) :
    (s.onPart p f).taskAddr p i = s.taskAddr p i := by
  unfold State.taskAddr
  rw [State.partAt_onPart, hf]

/-- An entry of an aligned task table lies in one block of 512 bytes. -/
theorem State.taskAddr_block (p i : Nat) (hb : (s.partAt p).ptaskbase.toNat % 0x20_0000 = 0) :
    s.taskAddr p i / 512 = (s.taskAddr p i + 256 - 1) / 512 := by
  unfold State.taskAddr mirroredByte
  omega

/-- Writing a task entry changes no byte outside it and its mirror copy. -/
theorem State.byteAt_setTask (p i : Nat) (u : Task) (hb : (s.partAt p).ptaskbase.toNat % 0x20_0000 = 0) {a : Nat}
    (h1 : a < s.taskAddr p i ∨ s.taskAddr p i + 256 ≤ a)
    (h2 : s.mirrored (s.taskAddr p i / 0x20_0000) = true → a < mirrorOf (s.taskAddr p i) ∨ mirrorOf (s.taskAddr p i) + 256 ≤ a) :
    (s.setTask p i u).byteAt a = s.byteAt a := by
  let s1 := s.onPart p fun q => { q with tasks := KMap.put i u q.tasks }
  let bs := (List.range 256).map fun k => Config.taskByte (s1.free + k)
  have hlen : bs.length = 256 := by simp [bs]
  have haddr : s1.taskAddr p i = s.taskAddr p i := s.taskAddr_onPart p i _ rfl
  have hstore : s1.store (s1.taskAddr p i) bs = s1.storeBlock (s.taskAddr p i) bs := by
    rw [haddr]
    exact if_pos (by rw [hlen]; exact s.taskAddr_block p i hb)
  have hbyte : (s.setTask p i u).byteAt a = (s1.store (s1.taskAddr p i) bs).byteAt a := rfl
  rw [hbyte, hstore]
  exact s1.byteAt_storeBlock_other _ a bs (by rw [hlen]; exact h1) (by rw [hlen]; exact h2)

theorem natOfBytes_lt (bs : List Byte) : natOfBytes bs < 256 ^ bs.length := by
  induction bs with
  | nil => decide
  | cons b bs ih =>
    have := b.isLt
    rw [natOfBytes, List.length_cons, Nat.pow_succ]
    omega

theorem recField_lt (r : List Byte) (o n : Nat) : recField r o n < 256 ^ n :=
  (natOfBytes_lt _).trans_le (Nat.pow_le_pow_right (by decide) (List.length_take_le ..))

/-- An image slot that a partition has to give lies in its context area. -/
theorem State.freeImages_fit {p n img : Nat} (h : img ∈ s.freeImages p n) : imageBytes * (img + 1) ≤ 0x20_0000 * (s.partAt p).pctxlen.toNat := by
  have hm := List.mem_of_mem_filter (List.mem_of_mem_take h)
  have hlt : img < (s.partAt p).pctxlen.toNat * 0x20_0000 / imageBytes := (List.mem_range.1 hm).trans_le (min_le_left ..)
  have hdiv : (img + 1) * imageBytes ≤ (s.partAt p).pctxlen.toNat * 0x20_0000 := (Nat.le_div_iff_mul_le (by decide)).1 hlt
  rw [Nat.mul_comm imageBytes, Nat.mul_comm 0x20_0000]
  exact hdiv

theorem State.freeImages_one {p : Nat} (h : s.freeImages p 1 ≠ []) : ∃ img, s.freeImages p 1 = [img] := by
  have hlen : (s.freeImages p 1).length ≤ 1 := List.length_take_le ..
  exact List.length_eq_one_iff.1 (by have := List.length_pos_iff.2 h; omega)

/-! ## The launch as a whole -/

/-- The machine once the team of a cluster of one core stands, before its image and its task's entry are written. -/
structure Stands (p : Nat) (s s3 : State) (cl tm k img : Nat) (r : List Byte) : Prop where
  core : (s3.coreAt k).team = some tm
  team : s3.tm tm = s.launchRecord p cl 0 k img r
  mem : s3.mem = s.mem
  caps : s3.caps = s.caps
  part : ∀ q, ∃ n, s3.partAt q = (s.partAt q).withSerial n
  members : (s3.cl cl).members = [tm]
  res : (s3.cl cl).res = .resident
  group : ∀ g, g < recField r 2 1 → recField r 2 1 ≤ 64 → ∃ b, s3.grp (streamKey tm g) =
    startGroup tm g (BitVec.ofNat 64 (recField r 8 8)) (BitVec.ofNat 64 (recField r 0x18 8)) 0xFFFF b
  keys : recField r 2 1 ≤ 64 → (∀ g ∈ KMap.keys s.groups, keyGrp g ≤ 64) → ∀ g ∈ KMap.keys s3.groups, keyGrp g ≤ 64

theorem keyGrp_streamKey (t : Nat) {g : Nat} (h : g < 128) : keyGrp (streamKey t g) = g := by
  unfold keyGrp streamKey
  omega

theorem Stands.of_base {p cl tm k img : Nat} {r : List Byte} {s1 : State} (h : LaunchBase p s s1 cl tm) :
    Stands p s (s1.launchTeam p cl tm 0 k img r) cl tm k img r := by
  obtain ⟨htm, hmem, hparts, hcaps, hcl⟩ := s1.launchTeam_frame p cl tm 0 k img r
  have hrec : s1.launchRecord p cl 0 k img r = s.launchRecord p cl 0 k img r := by
    obtain ⟨n, hn⟩ := h.part p
    unfold State.launchRecord
    rw [hn]
    rfl
  refine ⟨?_, htm.trans hrec, hmem.trans h.mem, hcaps.trans h.caps, fun q => ?_, ?_, ?_, fun g hg _ => ⟨s1.now, s1.grp_launchTeam p cl tm 0 k img r hg⟩,
    fun h64 hk g hg => ?_⟩
  · rw [State.cores_launchTeam, if_pos rfl]
  · rw [State.partAt, hparts]
    exact h.part q
  · rw [State.cl, hcl]
    exact h.members
  · rw [State.cl, hcl]
    exact h.res
  · rcases s1.keys_launchTeam p cl tm 0 k img r hg with hg | ⟨n, hn, rfl⟩
    · rw [h.groups] at hg
      exact hk g hg
    · rw [keyGrp_streamKey _ (by omega)]
      omega

/-- The sequencer stream stands beside the team's groups. -/
theorem Stands.withSequencer {p cl tm k img : Nat} {r : List Byte} {s3 : State} (h : Stands p s s3 cl tm k img r) (x : Group) :
    Stands p s (s3.setGrp (streamKey tm 64) x) cl tm k img r where
  core := h.core
  team := h.team
  mem := h.mem
  caps := h.caps
  part := h.part
  members := h.members
  res := h.res
  group g hg h64 := by
    have hne : streamKey tm g ≠ streamKey tm 64 := by unfold streamKey; omega
    rw [State.grp_setGrp_other _ hne]
    exact h.group g hg h64
  keys h64 hk g hg := by
    obtain ⟨e, he, rfl⟩ := List.mem_map.1 hg
    rcases KMap.mem_put he with rfl | he
    · rw [keyGrp_streamKey _ (by decide)]
    · exact h.keys h64 hk _ (List.mem_map.2 ⟨e, he, rfl⟩)

theorem State.launch_one_stands {p i k img : Nat} {r : Rect} {u : Task} (hu : s.taskAt p i = u) (hr : r.cores = [k]) (hw : u.width = 1) (hh : u.height = 1)
    (hl : recField u.record 0x40 4 < 2 ^ 31) (hs : recField u.record 0x44 4 < 2 ^ 31) :
    ∃ tm cl s3 used, Stands p s s3 cl tm k img u.record ∧
      s.launch p i r [img] = (s3.saveImage tm).setTask p i { u with state := .running, placed := u.placed + 1, used } := by
  obtain ⟨tm, cl, s1, s3, used, hbase, hs3, heq⟩ := s.launch_one (img := img) hu hr hw hh hl hs
  refine ⟨tm, cl, s3, used, ?_, heq⟩
  rcases hs3 with rfl | ⟨x, rfl⟩
  · exact .of_base s hbase
  · exact (Stands.of_base s hbase).withSequencer s x

section
variable {s} {p cl tm k img : Nat} {r : List Byte} {s3 : State} (h : Stands p s s3 cl tm k img r)
include h

theorem Stands.imageFits (hb : (s.partAt p).pctxbase.toNat % 0x40_0000 = 0)
    (hi : imageBytes * (img + 1) ≤ 0x20_0000 * (s.partAt p).pctxlen.toNat) : s3.imageFits tm := by
  intro o ho
  obtain ⟨n, hn⟩ := h.part p
  have hpart : s3.partAt (s3.tm tm).part = (s.partAt p).withSerial n := by rw [h.team]; exact hn
  have himg : (s3.tm tm).img = img := by rw [h.team]; rfl
  unfold State.holdsImage
  rw [hpart, himg]
  refine ⟨hb, ho, lt_of_lt_of_le ?_ hi⟩
  rw [Nat.mul_add, Nat.mul_one]
  omega

theorem Stands.writesImage (h64 : recField r 2 1 ≤ 64) (hk : ∀ g ∈ KMap.keys s.groups, keyGrp g ≤ 64) :
    WritesImage tm s3 (s3.saveImage tm) := by
  refine .saveImage s3 ?_ ?_ ?_ ?_ (h.keys h64 hk) <;> rw [h.team]
  · rfl
  · rfl
  · rfl
  · have := recField_lt r 3 1
    change 8 * recField r 3 1 ≤ 2040
    omega

/-- After its image and its task's entry, no byte outside these has changed. -/
theorem Stands.byteAt {i : Nat} {v : Task} (h64 : recField r 2 1 ≤ 64) (hk : ∀ g ∈ KMap.keys s.groups, keyGrp g ≤ 64)
    (hb : (s.partAt p).pctxbase.toNat % 0x40_0000 = 0) (hi : imageBytes * (img + 1) ≤ 0x20_0000 * (s.partAt p).pctxlen.toNat)
    (ht : (s.partAt p).ptaskbase.toNat % 0x20_0000 = 0) {a : Nat} (ha : s3.inImage tm a = none)
    (h1 : a < s.taskAddr p i ∨ s.taskAddr p i + 256 ≤ a)
    (h2 : s.mirrored (s.taskAddr p i / 0x20_0000) = true → a < mirrorOf (s.taskAddr p i) ∨ mirrorOf (s.taskAddr p i) + 256 ≤ a) :
    ((s3.saveImage tm).setTask p i v).byteAt a = s.byteAt a := by
  have hw := h.writesImage h64 hk
  obtain ⟨hparts, _, _, _, _, hcaps, _⟩ := hw.only.frame
  obtain ⟨n, hn⟩ := h.part p
  have hpart : (s3.saveImage tm).partAt p = (s.partAt p).withSerial n := by rw [State.partAt, hparts]; exact hn
  have haddr : (s3.saveImage tm).taskAddr p i = s.taskAddr p i := by unfold State.taskAddr; rw [hpart]; rfl
  have hmir (f : Nat) : (s3.saveImage tm).mirrored f = s.mirrored f := by unfold State.mirrored; rw [hcaps, h.caps]
  have hset := (s3.saveImage tm).byteAt_setTask p i v (a := a) (by rw [hpart]; exact ht) (by rw [haddr]; exact h1)
    (by rw [haddr, hmir]; exact h2)
  rw [hset, hw.bytes (h.imageFits hb hi) a ha, State.byteAt, h.mem]
  rfl

end

/-! ## The pass -/

theorem State.setTask_frame (p i : Nat) (u : Task) : (s.setTask p i u).teams = s.teams ∧ (s.setTask p i u).clusters = s.clusters ∧
    (s.setTask p i u).groups = s.groups ∧ (s.setTask p i u).cores = s.cores := by
  obtain ⟨_, ht, hc, hg, hk, _⟩ := (ImageOnly.putTask (s.onPart p (Partition.withTask · i u)) p i).frame
  exact ⟨ht, hc, hg, hk⟩

/-- A partition with another reservation, or none. -/
def Partition.withReserve (q : Partition) (w : Option Reserve) : Partition := { q with reserve := w }

theorem State.endReserve_frame (p : Nat) (d : Cand) : (s.endReserve p d).teams = s.teams ∧ (s.endReserve p d).clusters = s.clusters ∧
    (s.endReserve p d).groups = s.groups ∧ (s.endReserve p d).cores = s.cores ∧ (s.endReserve p d).mem = s.mem ∧
    ∃ w, (s.endReserve p d).partAt p = (s.partAt p).withReserve w := by
  rcases s.endReserve_eq p d with h | h <;> rw [h]
  · exact ⟨rfl, rfl, rfl, rfl, rfl, (s.partAt p).reserve, rfl⟩
  · exact ⟨rfl, rfl, rfl, rfl, rfl, none, State.partAt_onPart ..⟩

theorem State.launchTokens_ok {u : Task} (hl : recField u.record 0x40 4 < 2 ^ 31) (hs : recField u.record 0x44 4 < 2 ^ 31) : s.launchTokens u = .ok := by
  have hl' : decide (recField u.record 0x40 4 ≥ 2 ^ 31) = false := decide_eq_false (Nat.not_le.2 hl)
  have hs' : decide (recField u.record 0x44 4 ≥ 2 ^ 31) = false := decide_eq_false (Nat.not_le.2 hs)
  unfold State.launchTokens
  dsimp only
  rw [hl', hs']
  rfl

/-- A task all of whose clusters are placed is passed over. -/
theorem State.placeEach_done {p : Nat} {d : Cand} (hd : d.relaunch = false) (h : (s.taskAt p d.idx).placeable = false) (fuel : Nat) :
    s.placeEach p d fuel = s := by
  cases fuel with
  | zero => rfl
  | succ fuel =>
    have ht : s.tryCand p d = .passed := by
      unfold State.tryCand State.tryTask
      rw [hd]
      dsimp only
      rw [h]
      rfl
    rw [State.placeEach, ht]

section
variable {p k : Nat} {d : Cand} {r : Rect} {u : Task}

/-- A pass over one task of one cluster of one core. -/
theorem exec_placementPass_one (hu : s.taskAt p d.idx = u) (hc : s.candidates p = [d]) (hd : d.relaunch = false) (hf : s.failed = false)
    (hr : r.cores = [k]) (hp : u.placeable = true) (h0 : u.placed = 0) (hg : recGrid u.record = 1) (hshape : recField u.record 6 1 = 0x11)
    (hfind : s.findRect p d 1 1 = some r) (hi : s.freeImages p 1 ≠ []) (hl : recField u.record 0x40 4 < 2 ^ 31) (hs : recField u.record 0x44 4 < 2 ^ 31) :
    ∃ tm cl img s3 used, img ∈ s.freeImages p 1 ∧ Stands p s s3 cl tm k img u.record ∧ exec (.placementPass p) s =
      .next (((s3.saveImage tm).setTask p d.idx { u with state := .running, placed := u.placed + 1, used }).endReserve p d) := by
  obtain ⟨img, himg⟩ := s.freeImages_one hi
  have hw : u.width = 1 := by rw [Task.width, hshape]
  have hh : u.height = 1 := by rw [Task.height, hshape]
  obtain ⟨tm, cl, s3, used, hst, hlaunch⟩ := s.launch_one_stands (img := img) hu hr hw hh hl hs
  refine ⟨tm, cl, img, s3, used, by rw [himg]; exact List.mem_singleton_self _, hst, ?_⟩
  let t := ((s3.saveImage tm).setTask p d.idx { u with state := .running, placed := u.placed + 1, used }).endReserve p d
  have hplaced : s.tryTask p d = .placed t := by
    have h := s.tryTask_placed hu hp (by rw [hw, hh]; exact hfind) (by rw [hw, hh, himg]; exact le_refl _) (s.launchTokens_ok hl hs)
    rw [hw, hh, show 1 * 1 = 1 from rfl, himg, hlaunch] at h
    exact h
  have hdone : (t.taskAt p d.idx).placeable = false := by
    obtain ⟨_, _, _, _, _, w, hw⟩ := ((s3.saveImage tm).setTask p d.idx { u with state := .running, placed := u.placed + 1, used }).endReserve_frame p d
    have ht : t.taskAt p d.idx = { u with state := .running, placed := u.placed + 1, used } := by
      rw [State.taskAt, hw]
      exact State.taskAt_setTask ..
    rw [ht]
    simp [Task.placeable, h0, hg]
  rw [s.exec_placementPass hf, hc, List.foldl_cons, List.foldl_nil, s.placeEach_placed hd hplaced, t.placeEach_done hd hdone]

/-- What the team that stands is once its image and its task's entry are written. -/
theorem Stands.outcome {cl tm img : Nat} {s3 : State} {v : Task} (h : Stands p s s3 cl tm k img u.record) (h64 : recField u.record 2 1 ≤ 64)
    (hkeys : ∀ g ∈ KMap.keys s.groups, keyGrp g ≤ 64) :
    let t := ((s3.saveImage tm).setTask p d.idx v).endReserve p d
    (t.coreAt k).team = some tm ∧ t.tm tm = s.launchRecord p cl 0 k img u.record ∧ (t.cl cl).members = [tm] ∧ (t.cl cl).res = .resident ∧
      (∀ g, t.grp g = s3.grp g) ∧ t.taskAt p d.idx = v ∧ t.mem = ((s3.saveImage tm).setTask p d.idx v).mem ∧ ∀ a, t.inImage tm a = s3.inImage tm a := by
  intro t
  have hw := (h.writesImage h64 hkeys).only
  obtain ⟨hparts1, hteams1, hclusters1, hgroups1, hcores1, _⟩ := hw.frame
  obtain ⟨hteams2, hclusters2, hgroups2, hcores2⟩ := (s3.saveImage tm).setTask_frame p d.idx v
  obtain ⟨hteams3, hclusters3, hgroups3, hcores3, hmem3, w, hpart3⟩ := ((s3.saveImage tm).setTask p d.idx v).endReserve_frame p d
  have hcore (j : Nat) : t.coreAt j = s3.coreAt j := by rw [State.coreAt, hcores3, hcores2, hcores1]; rfl
  have htm : t.tm tm = s3.tm tm := by rw [State.tm, hteams3, hteams2, hteams1]; rfl
  have hcl : t.cl cl = s3.cl cl := by rw [State.cl, hclusters3, hclusters2, hclusters1]; rfl
  have hpart : t.partAt p = ((s3.partAt p).withTask d.idx v).withReserve w := by
    rw [hpart3, State.partAt_setTask, State.partAt, hparts1]
    rfl
  refine ⟨by rw [hcore]; exact h.core, htm.trans h.team, by rw [hcl]; exact h.members, by rw [hcl]; exact h.res, fun g => ?_, ?_, hmem3, fun a => ?_⟩
  · rw [State.grp, hgroups3, hgroups2, hgroups1]; rfl
  · rw [State.taskAt, hpart3]
    exact State.taskAt_setTask ..
  · unfold State.inImage
    rw [htm, h.team]
    change (match (t.partAt p).areaOff a with | some o => _ | none => _) = (match (s3.partAt p).areaOff a with | some o => _ | none => _)
    rw [hpart]
    rfl

theorem does_placementPass_one (hu : s.taskAt p d.idx = u) (hc : s.candidates p = [d]) (hd : d.relaunch = false) (hf : s.failed = false)
    (hr : r.cores = [k]) (hp : u.placeable = true) (h0 : u.placed = 0) (hg : recGrid u.record = 1) (hshape : recField u.record 6 1 = 0x11)
    (hfind : s.findRect p d 1 1 = some r) (hi : s.freeImages p 1 ≠ []) (h64 : recField u.record 2 1 ≤ 64)
    (hkeys : ∀ g ∈ KMap.keys s.groups, keyGrp g ≤ 64) (hctx : (s.partAt p).pctxbase.toNat % 0x40_0000 = 0)
    (hl : recField u.record 0x40 4 < 2 ^ 31) (hs : recField u.record 0x44 4 < 2 ^ 31) :
    Does (.placementPass p) s fun t => ∃ tm cl,
      (t.coreAt k).team = some tm ∧ (t.tm tm).core = some k ∧ (t.tm tm).cluster = cl ∧ (t.cl cl).members = [tm] ∧ (t.cl cl).res = .resident ∧
      (t.tm tm).vregs = 8 * recField u.record 3 1 ∧ (t.tm tm).spad = 4096 * recField u.record 4 2 ∧ (t.tm tm).hvec = (s.partAt p).phvec ∧
      (∀ g, g < recField u.record 2 1 → let y := t.grp (streamKey tm g)
        y.pc = BitVec.ofNat 64 (recField u.record 8 8) ∧ y.live = 0xFFFF ∧ y.kernel = false ∧ y.sGet 1 = BitVec.ofNat 64 (recField u.record 0x18 8)) ∧
      (t.taskAt p d.idx).state = .running ∧ (t.taskAt p d.idx).placed = 1 ∧
      ((s.partAt p).ptaskbase.toNat % 0x20_0000 = 0 → let e := s.taskAddr p d.idx
        ∀ a, t.inImage tm a = none → (a < e ∨ e + 256 ≤ a) → (s.mirrored (e / 0x20_0000) = true → a < mirrorOf e ∨ mirrorOf e + 256 ≤ a) →
          t.byteAt a = s.byteAt a) := by
  obtain ⟨tm, cl, img, s3, used, himg, hst, hex⟩ := exec_placementPass_one s hu hc hd hf hr hp h0 hg hshape hfind hi hl hs
  obtain ⟨hcore, htm, hmem, hres, hgrp, htask, hbytes, himage⟩ := hst.outcome s (d := d) (v := { u with state := .running, placed := u.placed + 1, used }) h64 hkeys
  refine ⟨_, hex, tm, cl, hcore, ?_, ?_, hmem, hres, ?_, ?_, ?_, fun g hg => ?_, ?_, ?_, fun ht a ha h1 h2 => ?_⟩
  · rw [htm]; rfl
  · rw [htm]; rfl
  · rw [htm]; rfl
  · rw [htm]; rfl
  · rw [htm]; rfl
  · obtain ⟨b, hb⟩ := hst.group g hg h64
    rw [hgrp, hb]
    exact ⟨rfl, rfl, rfl, by simp [Group.sGet, startGroup]⟩
  · rw [htask]
  · rw [htask]
    exact congrArg (· + 1) h0
  · rw [himage] at ha
    rw [State.byteAt, hbytes]
    exact hst.byteAt h64 hkeys hctx (s.freeImages_fit himg) ht ha h1 h2

end

end

end Sys2Proof.Machine
end

