-- ==== Sys2Proof/Proofs/ImageRepair.lean ====
section
/-! SUPPORT. Repairs of a team's image: they change no byte outside it, and poison nothing (09 R222). -/

namespace Sys2Proof.Machine

/-! ## What a store leaves of poison -/

theorem read_clearWhole {p : KMap Bool} {a n j : Nat} (h : KMap.read false j (clearWhole p a n) = true) : KMap.read false j p = true := by
  have key (l : List Nat) (q : KMap Bool)
      (h : KMap.read false j (l.foldl (fun p k => if a ≤ 32 * k ∧ 32 * k + 32 ≤ a + n then KMap.write false k false p else p) q) = true) :
      KMap.read false j q = true := by
    induction l generalizing q with
    | nil => exact h
    | cons k l ih =>
      have h1 := ih _ h
      beta_reduce at h1
      split at h1
      · by_cases hk : j = k
        · rw [hk, KMap.read_write_same] at h1; cases h1
        · rwa [KMap.read_write_other _ hk] at h1
      · exact h1
  exact key _ p h

theorem State.badAt_of_storeBlock (s : State) {a b : Nat} {bs : List Byte} (h : (s.storeBlock a bs).badAt b = true) : s.badAt b = true := by
  have hat (u : State) (a : Nat) (h : (u.storeAt a bs).badAt b = true) : u.badAt b = true := read_clearWhole h
  unfold State.storeBlock at h
  dsimp only at h
  split at h
  · exact hat _ _ (hat _ _ h)
  · exact hat _ _ h

theorem State.length_loadBytes (s : State) (a n : Nat) : (s.loadBytes a n).length = n := by
  have hc (a : Nat) : (s.copyBytes a n).length = n := by
    unfold State.copyBytes State.bytesAt
    split <;> simp
  unfold State.loadBytes
  split <;> exact hc _

/-- A poisoned sector is listed. -/
theorem State.mem_poison_of_badAt {s : State} {b : Nat} (h : s.badAt b = true) : ∃ e ∈ s.poison, e.1 = b / 32 := by
  have key (m : KMap Bool) (h : (KMap.find (b / 32) m).isSome) : ∃ e ∈ m, e.1 = b / 32 := List.mem_map.1 (KMap.mem_keys h)
  refine key _ ?_
  unfold State.badAt KMap.read at h
  cases hf : KMap.find (b / 32) s.poison with
  | none => rw [hf] at h; cases h
  | some v => rfl

/-! ## Where an image lies -/

/-- What places a team's image: its slot, its partition's context area, the mirrored frames, and the lost units. -/
def State.imagePlace (s : State) (m : Nat) : Nat × BitVec 64 × BitVec 32 × Nat × Turner :=
  let q := s.partAt (s.tm m).part
  ((s.tm m).img, q.pctxbase, q.pctxlen, s.caps.mirframes, s.turner)

/-- The context area is aligned, and no unit is lost. -/
def State.imageSound (s : State) (m : Nat) : Prop := (s.partAt (s.tm m).part).pctxbase.toNat % 0x40_0000 = 0 ∧ s.turner.lost = []

/-- A team's image stands where it stood; no byte outside it changed, and no sector was poisoned. -/
structure Repairs (m : Nat) (s t : State) : Prop where
  place : t.imagePlace m = s.imagePlace m
  bytes : s.imageSound m → ∀ a, s.inImage m a = none → t.byteAt a = s.byteAt a
  clean : s.imageSound m → ∀ a, t.badAt a = true → s.badAt a = true

section
variable {m : Nat} {s t u : State}

theorem State.imagePlace_iff : t.imagePlace m = s.imagePlace m ↔ (t.tm m).img = (s.tm m).img ∧
    (t.partAt (t.tm m).part).pctxbase = (s.partAt (s.tm m).part).pctxbase ∧ (t.partAt (t.tm m).part).pctxlen = (s.partAt (s.tm m).part).pctxlen ∧
    t.caps.mirframes = s.caps.mirframes ∧ t.turner = s.turner := by
  simp only [State.imagePlace, Prod.mk.injEq]

theorem State.imageAt_of_place (h : t.imagePlace m = s.imagePlace m) (o : Nat) : t.imageAt m o = s.imageAt m o := by
  obtain ⟨hi, hb, -, -, -⟩ := State.imagePlace_iff.1 h
  unfold State.imageAt
  rw [hi, hb]

theorem State.inImage_of_place (h : t.imagePlace m = s.imagePlace m) (a : Nat) : t.inImage m a = s.inImage m a := by
  obtain ⟨hi, hb, hl, -, -⟩ := State.imagePlace_iff.1 h
  unfold State.inImage Partition.areaOff
  rw [hi, hb, hl]

theorem State.imageSound_of_place (h : t.imagePlace m = s.imagePlace m) (k : s.imageSound m) : t.imageSound m := by
  obtain ⟨-, hb, -, -, ht⟩ := State.imagePlace_iff.1 h
  unfold State.imageSound
  rw [hb, ht]
  exact k

/-- Where no unit is lost, a sector is bad where every copy that it has is poisoned. -/
theorem State.bad_of_sound (h : s.turner.lost = []) (a : Nat) : s.bad a = (s.badAt a && (!s.mirrored (a / 0x20_0000) || s.badAt (mirrorOf a))) := by
  have hc (b : Nat) : s.badCopy b = s.badAt b := by simp [State.badCopy, State.undecodable, h]
  rw [State.bad, hc, hc]

/-- Where no unit is lost, what is read of an image are whole sectors of it. -/
theorem State.imageSectors_sound (h : s.imageSound m) {lo n o : Nat} (ho : o ∈ s.imageSectors m lo n) :
    o % 32 = 0 ∧ (∃ o', o = o' / 32 * 32 ∧ lo ≤ o' ∧ o' < lo + n) ∧ ∀ i < 32, s.holdsImage m (o + i) := by
  obtain ⟨hb, hl⟩ := h
  have key {pa : Nat} (hn : (match s.inImage m pa with
      | some o => if lo ≤ o ∧ o < lo + n then some (o / 32 * 32) else none
      | none => none) = some o) : o % 32 = 0 ∧ (∃ o', o = o' / 32 * 32 ∧ lo ≤ o' ∧ o' < lo + n) ∧ ∀ i < 32, s.holdsImage m (o + i) := by
    cases hi : s.inImage m pa with
    | none => rw [hi] at hn; cases hn
    | some o' =>
      rw [hi] at hn
      obtain ⟨hr, he⟩ := Option.ite_none_right_eq_some.1 hn
      cases he
      unfold State.inImage at hi
      cases hA : (s.partAt (s.tm m).part).areaOff pa with
      | none => rw [hA] at hi; cases hi
      | some A =>
        rw [hA] at hi
        obtain ⟨hq, hm⟩ := Option.ite_none_right_eq_some.1 hi
        have hlt := Partition.areaOff_lt hA
        cases hm
        have hbytes : imageBytes = 32 * 0x2_4800 := rfl
        refine ⟨by omega, ⟨_, rfl, hr.1, hr.2⟩, fun i hi => ⟨hb, ?_, ?_⟩⟩
        · rw [hbytes]; omega
        · rw [← hq, hbytes]; omega
  unfold State.imageSectors at ho
  rw [hl, if_neg (by simp)] at ho
  rcases List.mem_append.1 (List.mem_dedup.1 ho) with ho | ho
  all_goals
    obtain ⟨e, -, he⟩ := List.mem_filterMap.1 ho
    exact key he

/-- A poisoned sector of an image is among those that may not read as clean zeros. -/
theorem State.mem_imageSectors_of_badAt (h : s.imageSound m) {lo n o : Nat} (ho : o % 32 = 0) (hi : s.holdsImage m o) (hr : lo ≤ o ∧ o < lo + n)
    (hbad : s.badAt (s.imageAt m o) = true) : o ∈ s.imageSectors m lo n := by
  obtain ⟨hb, hl⟩ := h
  obtain ⟨e, he, hk⟩ := State.mem_poison_of_badAt hbad
  have ha : 32 * (s.imageAt m o / 32) = s.imageAt m o := by
    unfold State.imageAt mirroredByte imageBytes
    omega
  unfold State.imageSectors
  rw [hl, if_neg (by simp)]
  refine List.mem_dedup.2 (List.mem_append_right _ (List.mem_filterMap.2 ⟨e, he, ?_⟩))
  dsimp only
  rw [hk, ha, (State.inImage_imageAt hi).1]
  dsimp only
  rw [if_pos hr]
  congr 1
  omega

namespace Repairs

theorem of_same (hp : t.imagePlace m = s.imagePlace m) (hm : t.mem = s.mem) (hb : t.poison = s.poison) : Repairs m s t where
  place := hp
  bytes _ a _ := by rw [State.byteAt, hm]; rfl
  clean _ a h := by rw [State.badAt, hb] at h; exact h

theorem refl (m : Nat) (s : State) : Repairs m s s := of_same rfl rfl rfl

theorem trans (h : Repairs m s t) (k : Repairs m t u) : Repairs m s u where
  place := k.place.trans h.place
  bytes hs a ha := (k.bytes (State.imageSound_of_place h.place hs) a (by rw [State.inImage_of_place h.place]; exact ha)).trans (h.bytes hs a ha)
  clean hs a hu := h.clean hs a (k.clean (State.imageSound_of_place h.place hs) a hu)

theorem foldl {α : Type} (f : State → α → State) (hf : ∀ s x, Repairs m s (f s x)) (l : List α) (s : State) : Repairs m s (l.foldl f s) := by
  induction l generalizing s with
  | nil => exact refl m s
  | cons x l ih => exact (hf s x).trans (ih _)

/-- The rewriting of a copy from the other. -/
theorem repairImage {o : Nat} (ho : o % 32 = 0) (hi : ∀ i < 32, s.holdsImage m (o + i)) : Repairs m s (s.repairImage m o) := by
  have hb : (s.partAt (s.tm m).part).pctxbase.toNat % 0x40_0000 = 0 := (hi 0 (by omega)).1
  have ha : s.imageAt m o / 32 * 32 = s.imageAt m o := by
    unfold State.imageAt mirroredByte imageBytes
    omega
  unfold State.repairImage
  dsimp only
  rw [ha]
  split
  · have hlen := s.length_loadBytes (s.imageAt m o) 32
    refine ⟨?_, fun _ a h => ?_, fun _ a => State.badAt_of_storeBlock s⟩
    · rw [ImageOnly.storeBlock s]; rfl
    · exact State.byteAt_storeBlock_image (fun i h => hi i (hlen ▸ h)) (by omega) h
  · exact refl m s

theorem repairRange (m : Nat) (s : State) (lo n : Nat) : Repairs m s (s.repairRange m lo n) := by
  have key (l : List Nat) (hl : ∀ o ∈ l, o % 32 = 0 ∧ ∀ i < 32, s.holdsImage m (o + i)) (u : State) (hu : ImageOnly s u) :
      Repairs m u (l.foldl (fun s o => s.repairImage m o) u) := by
    induction l generalizing u with
    | nil => exact refl m u
    | cons o l ih =>
      obtain ⟨ho, hi⟩ := hl o (List.mem_cons_self ..)
      exact (repairImage ho fun i h => hu.holdsImage (hi i h)).trans
        (ih (fun o h => hl o (List.mem_cons_of_mem _ h)) _ (hu.trans (.repairImage ..)))
  have hrep (hs : s.imageSound m) : Repairs m s (s.repairRange m lo n) := key _ (fun o ho => by
    obtain ⟨h0, -, hi⟩ := State.imageSectors_sound hs ho
    exact ⟨h0, hi⟩) s (.refl s)
  refine ⟨?_, fun hs => (hrep hs).bytes hs, fun hs => (hrep hs).clean hs⟩
  rw [ImageOnly.repairRange s m lo n]
  rfl

/-- Repairs lose nothing of an image. -/
theorem imageLost (h : Repairs m s t) (hs : s.imageSound m) {P Q : Nat → Bool} (hPQ : ∀ g, Q g = true → P g = true) (hl : s.imageLost m P = false) :
    t.imageLost m Q = false := by
  have ht := State.imageSound_of_place h.place hs
  by_contra hc
  rw [Bool.not_eq_false] at hc
  obtain ⟨o, ho, hbad⟩ := List.any_eq_true.1 hc
  obtain ⟨hb, hr⟩ := Bool.and_eq_true_iff.1 hbad
  obtain ⟨h0, ⟨o', he, -, hlt⟩, hi⟩ := State.imageSectors_sound ht ho
  have hiS (i : Nat) (h32 : i < 32) : s.holdsImage m (o + i) := by
    obtain ⟨h1, h2, h3, -, -⟩ := State.imagePlace_iff.1 h.place
    have := hi i h32
    unfold State.holdsImage at this ⊢
    rw [h1, h2, h3] at this
    exact this
  have hbadS : s.bad (s.imageAt m o) = true := by
    have hm : t.mirrored = s.mirrored := by
      funext f
      unfold State.mirrored
      rw [(State.imagePlace_iff.1 h.place).2.2.2.1]
    unfold State.imageBad at hb
    rw [State.imageAt_of_place h.place, State.bad_of_sound ht.2, hm, Bool.and_eq_true_iff, Bool.or_eq_true_iff] at hb
    rw [State.bad_of_sound hs.2, Bool.and_eq_true_iff, Bool.or_eq_true_iff]
    exact ⟨h.clean hs _ hb.1, hb.2.imp_right (h.clean hs _)⟩
  have hat : s.badAt (s.imageAt m o) = true := by
    rw [State.bad_of_sound hs.2] at hbadS
    exact (Bool.and_eq_true_iff.1 hbadS).1
  have hin : o ∈ s.imageSectors m 0 0x30_D000 := State.mem_imageSectors_of_badAt hs h0 (hiS 0 (by omega)) ⟨by omega, by omega⟩ hat
  have : s.imageLost m P = true := by
    refine List.any_eq_true.2 ⟨o, hin, Bool.and_eq_true_iff.2 ⟨hbadS, ?_⟩⟩
    simp only [Bool.or_eq_true, Bool.and_eq_true] at hr ⊢
    exact hr.imp_right fun k => ⟨⟨hPQ _ k.1.1, k.1.2⟩, k.2⟩
  rw [hl] at this
  cases this

end Repairs

end

end Sys2Proof.Machine
end

