-- ==== Sys2Proof/Proofs/Restoration.lean ====
section
/-! SUPPORT. A member of a relaunched cluster whose image holds clean is restored on its core, its streams where they stood (08 R216). -/

namespace Sys2Proof.Machine

theorem KMap.mem_keys_iff {α : Type} {k : Nat} {m : KMap α} : k ∈ KMap.keys m ↔ (KMap.find k m).isSome := by
  refine ⟨fun h => ?_, KMap.mem_keys⟩
  induction m with
  | nil => cases h
  | cons e m ih =>
    obtain ⟨j, v⟩ := e
    unfold KMap.find
    split
    · rfl
    · rename_i hj
      exact ih ((List.mem_cons.1 h).resolve_left fun h => hj h.symm)

theorem State.mem_teamStreams {s : State} {m g : Nat} : g ∈ s.teamStreams m ↔ g ∈ KMap.keys s.groups ∧ keyTeam g = m := by
  simp [State.teamStreams, List.mem_filter]

/-- Watch copies and status bytes go to the scratchpad. -/
theorem Team.overlaid_eq (y x : Team) : ∃ z : Team, y.overlaid x = { y with mem := z.mem, poison := z.poison } := by
  have hfold {α : Type} (f : Team → α → Team) (hf : ∀ y a, f y a = { y with mem := (f y a).mem, poison := (f y a).poison }) (l : List α) (y : Team) :
      l.foldl f y = { y with mem := (l.foldl f y).mem, poison := (l.foldl f y).poison } := by
    induction l generalizing y with
    | nil => rfl
    | cons a l ih => rw [List.foldl_cons, ih, hf y a]
  refine ⟨y.overlaid x, ?_⟩
  unfold Team.overlaid
  extract_lets y1
  have h1 : y1 = { y with mem := y1.mem, poison := y1.poison } := hfold _ (fun _ _ => rfl) _ y
  rw [hfold _ (fun y e => ?_) _ y1, h1]
  split <;> rfl

/-- A team's streams, its core and its residence stand while its image is repaired and read back. -/
structure Rereads (m : Nat) (s t : State) : Prop where
  image : Repairs m s t
  clusters : t.clusters = s.clusters
  seat : ∀ k, (t.coreAt k).team = (s.coreAt k).team
  listed : ∀ g, g ∈ KMap.keys t.groups ↔ g ∈ KMap.keys s.groups
  pc : ∀ g, (t.grp g).pc = (s.grp g).pc
  core : (t.tm m).core = (s.tm m).core
  res : (t.tm m).res = (s.tm m).res

namespace Rereads

variable {m : Nat} {s t u : State}

theorem refl (m : Nat) (s : State) : Rereads m s s := ⟨.refl m s, rfl, fun _ => rfl, fun _ => .rfl, fun _ => rfl, rfl, rfl⟩

theorem trans (h : Rereads m s t) (k : Rereads m t u) : Rereads m s u where
  image := h.image.trans k.image
  clusters := k.clusters.trans h.clusters
  seat n := (k.seat n).trans (h.seat n)
  listed g := (k.listed g).trans (h.listed g)
  pc g := (k.pc g).trans (h.pc g)
  core := k.core.trans h.core
  res := k.res.trans h.res

theorem foldl {α : Type} (f : State → α → State) (hf : ∀ s x, Rereads m s (f s x)) (l : List α) (s : State) : Rereads m s (l.foldl f s) := by
  induction l generalizing s with
  | nil => exact refl m s
  | cons x l ih => exact (hf s x).trans (ih _)

/-- Changes of streams that the state lists. -/
theorem foldl_listed (f : State → Nat → State) (hf : ∀ s, ∀ g ∈ KMap.keys s.groups, Rereads m s (f s g)) (l : List Nat) (s : State)
    (hl : ∀ g ∈ l, g ∈ KMap.keys s.groups) : Rereads m s (l.foldl f s) := by
  induction l generalizing s with
  | nil => exact refl m s
  | cons g l ih =>
    have h := hf s g (hl g (List.mem_cons_self ..))
    exact h.trans (ih _ fun n hn => (h.listed n).2 (hl n (List.mem_cons_of_mem _ hn)))

theorem repairRange (m : Nat) (s : State) (lo n : Nat) : Rereads m s (s.repairRange m lo n) := by
  obtain ⟨-, hteams, hclusters, hgroups, hcores, -, -⟩ := (ImageOnly.repairRange s m lo n).frame
  refine ⟨.repairRange .., hclusters, fun k => ?_, fun g => ?_, fun g => ?_, ?_, ?_⟩
  · rw [State.coreAt, hcores]; rfl
  · rw [hgroups]
  · rw [State.grp, hgroups]; rfl
  all_goals rw [State.tm, hteams]; rfl

theorem onGrp (m : Nat) (s : State) {g : Nat} (hg : g ∈ KMap.keys s.groups) (f : Group → Group) (hf : ∀ x, (f x).pc = x.pc) : Rereads m s (s.onGrp g f) where
  image := .of_same rfl rfl rfl
  clusters := rfl
  seat _ := rfl
  listed n := by
    rw [KMap.mem_keys_iff, KMap.mem_keys_iff]
    have hput : (s.onGrp g f).groups = KMap.put g (f (s.grp g)) s.groups := rfl
    by_cases hn : n = g
    · rw [hput, hn, KMap.find_put_same]
      simpa using KMap.mem_keys_iff.1 hg
    · rw [hput, KMap.find_put_other hn]
  pc n := by
    by_cases hn : n = g
    · rw [hn, State.grp_onGrp, hf]
    · rw [State.grp_onGrp_other _ hn]
  core := rfl
  res := rfl

theorem foldl_onGrp (m : Nat) (f : Group → Group) (hf : ∀ x, (f x).pc = x.pc) (l : List Nat) (s : State) (hl : ∀ g ∈ l, g ∈ KMap.keys s.groups) :
    Rereads m s (l.foldl (fun s g => s.onGrp g f) s) :=
  foldl_listed _ (fun s _ hg => onGrp m s hg f hf) l s hl

/-- A change of the team's scratchpad. -/
theorem onTm (m : Nat) (s : State) (f : Team → Team) (y : Team) (hf : f (s.tm m) = { s.tm m with mem := y.mem, poison := y.poison }) :
    Rereads m s (s.onTm m f) := by
  have h : (s.onTm m f).tm m = { s.tm m with mem := y.mem, poison := y.poison } := by rw [State.tm_onTm, hf]
  refine ⟨.of_same ?_ rfl rfl, rfl, fun _ => rfl, fun _ => .rfl, fun _ => rfl, ?_, ?_⟩
  · unfold State.imagePlace
    rw [h]
    rfl
  all_goals rw [h]

theorem onCore (m : Nat) (s : State) (k : Nat) (f : Core → Core) (hf : ∀ c, (f c).team = c.team) : Rereads m s (s.onCore k f) := by
  refine ⟨.of_same rfl rfl rfl, rfl, fun n => ?_, fun _ => .rfl, fun _ => rfl, rfl, rfl⟩
  by_cases hn : n = k
  · rw [hn, State.coreAt_onCore, hf]
  · rw [State.coreAt_onCore_other _ hn]

theorem loadSpad (m : Nat) (s : State) : Rereads m s (s.loadSpad m) := by
  obtain ⟨y, hy⟩ := s.loadSpad_eq m
  rw [hy]
  exact (repairRange ..).trans (onTm _ _ _ y rfl)

theorem loadStream (s : State) (m k : Nat) {g : Nat} (hg : g ∈ KMap.keys s.groups) : Rereads m s (s.loadStream m k g) := by
  obtain ⟨y, hy⟩ := s.loadStream_eq m k g
  rw [hy]
  have h := repairRange m s (streamImage (keyGrp g)) 0xA800
  exact h.trans (onGrp _ _ ((h.listed g).2 hg) _ fun _ => rfl)

theorem joinCore (s : State) (m k : Nat) : Rereads m s (s.joinCore m k) := by
  unfold State.joinCore
  extract_lets gs n
  refine (onCore m s k _ ?_).trans (foldl_onGrp m _ ?_ gs _ fun _ hg => (State.mem_teamStreams.1 hg).1)
  all_goals exact fun _ => rfl

end Rereads

/-- The streams of a list are switched in. -/
theorem State.out_foldl_onGrp (f : Group → Group) (hf : ∀ x, (f x).out = false) (l : List Nat) (s : State) {g : Nat}
    (h : g ∈ l ∨ (s.grp g).out = false) : ((l.foldl (fun s n => s.onGrp n f) s).grp g).out = false := by
  induction l generalizing s with
  | nil => exact h.resolve_left List.not_mem_nil
  | cons n l ih =>
    refine ih _ ?_
    by_cases hg : g = n
    · exact .inr (by rw [hg, State.grp_onGrp, hf])
    · rw [State.grp_onGrp_other _ hg]
      exact h.imp_left fun k => (List.mem_cons.1 k).resolve_left hg

/-- A member on core `k`: resident, and its streams go on where they stood. -/
structure Restored (m k : Nat) (s t : State) : Prop where
  image : Repairs m s t
  core : (t.tm m).core = some k
  res : (t.tm m).res = .resident
  seat : (t.coreAt k).team = some m
  streams : ∀ g ∈ s.teamStreams m, (t.grp g).out = false ∧ (t.grp g).pc = (s.grp g).pc

section
variable {m k : Nat} {s : State}

/-- A member whose image is not broken comes back. -/
theorem State.restoreTeam_restored (hs : s.imageSound m) (hout : (s.tm m).isOut = true) (hb : (s.tm m).broken = false) (hh : (s.tm m).held = [])
    (hl : s.imageLost m (fun g => (KMap.find (streamKey m g) s.groups).isSome) = false) :
    Restored m k s (s.restoreTeam m k) ∧ (s.restoreTeam m k).clusters = s.clusters := by
  unfold State.restoreTeam
  extract_lets x s0 has lostSeq lost s1 acc s2 s3 s4
  have h0 : Rereads m s s0 :=
    ((Rereads.repairRange ..).trans (.foldl _ (fun s z => .repairRange ..) _ _)).trans (.joinCore ..)
  have hres : (s.tm m).res ≠ .ended := by
    intro h
    unfold Team.isOut at hout
    rw [h] at hout
    cases hout
  have hhas (g : Nat) (h : has g = true) : (KMap.find (streamKey m g) s.groups).isSome = true :=
    KMap.mem_keys_iff.1 ((h0.listed _).1 (KMap.mem_keys_iff.2 h))
  have hlost : lost = false := by
    have h1 : s0.imageLost m has = false := h0.image.imageLost hs hhas hl
    have h2 : lostSeq = false := by
      unfold lostSeq
      cases h64 : has 64 with
      | false => rfl
      | true =>
        have h3 : s0.imageLost m (fun g => decide (g = 64)) = false := by
          refine h0.image.imageLost hs (fun g hg => ?_) hl
          rw [of_decide_eq_true hg]
          exact hhas 64 h64
        have hx : decide (x.res = .ended) = false := decide_eq_false hres
        rw [hx, h3]
        rfl
    unfold lost
    rw [h1, h2]
    have hxb : x.broken = false := hb
    rw [hxb]
    rfl
  have hheld : x.held = [] := hh
  rw [hlost, hheld]
  change Restored m k s s4 ∧ s4.clusters = s.clusters
  have h2 : Repairs m s0 s2 := .of_same (by
    unfold State.imagePlace
    have htm : s2.tm m = s1.tm m := rfl
    rw [htm, State.tm_onTm]
    rfl) rfl rfl
  have hres2 : (s2.tm m).core = some k ∧ (s2.tm m).res = .resident := by
    have htm : s2.tm m = s1.tm m := rfl
    have hr : (s0.tm m).res ≠ .ended := by rw [h0.res]; exact hres
    rw [htm, State.tm_onTm, if_neg hr]
    exact ⟨rfl, rfl⟩
  have h3 : Rereads m s2 s3 := by
    unfold s3
    rw [hlost]
    obtain ⟨y, hy⟩ := Team.overlaid_eq ((s2.loadSpad m).tm m) x
    have hpad : Rereads m s2 ((s2.loadSpad m).onTm m fun y => y.overlaid x) := (Rereads.loadSpad ..).trans (.onTm _ _ _ y hy)
    exact hpad.trans (.foldl_listed _ (fun s g hg => .loadStream s m k hg) _ _ fun g hg => (hpad.listed g).2 (State.mem_teamStreams.1 hg).1)
  have h4 : Rereads m s2 s4 := by
    refine h3.trans (.foldl_onGrp m _ ?_ _ s3 fun g hg => (State.mem_teamStreams.1 hg).1)
    exact fun _ => rfl
  refine ⟨⟨(h0.image.trans h2).trans h4.image, h4.core.trans hres2.1, h4.res.trans hres2.2, ?_, fun g hg => ⟨?_, ?_⟩⟩, h4.clusters.trans h0.clusters⟩
  · rw [h4.seat, State.coreAt_onCore]
  · obtain ⟨hg1, hg2⟩ := State.mem_teamStreams.1 hg
    exact State.out_foldl_onGrp _ (fun _ => rfl) _ _ (.inl (State.mem_teamStreams.2 ⟨(h3.listed g).2 ((h0.listed g).2 hg1), hg2⟩))
  · exact (h4.pc g).trans (h0.pc g)

variable {c : Nat} {r : Rect}

/-- A cluster of one member is restored as its member is. -/
theorem State.restore_one (hm : (s.cl c).members = [m]) (hr : r.cores = [k]) (hs : s.imageSound m) (hout : (s.tm m).isOut = true)
    (hb : (s.tm m).broken = false) (hh : (s.tm m).held = [])
    (hl : s.imageLost m (fun g => (KMap.find (streamKey m g) s.groups).isSome) = false) :
    Restored m k s (s.restore c r) ∧ ((s.restore c r).cl c).res = .resident := by
  unfold State.restore
  extract_lets x a s1 s2
  have hplace : s2.imagePlace m = s.imagePlace m := by
    have hq (p : Nat) : (s2.partAt p).pctxbase = (s.partAt p).pctxbase ∧ (s2.partAt p).pctxlen = (s.partAt p).pctxlen := by
      unfold s2 State.partAt State.onPart
      rw [KMap.read_put]
      split
      · rename_i hp; rw [hp]; exact ⟨rfl, rfl⟩
      · exact ⟨rfl, rfl⟩
    have htm : s2.tm m = s.tm m := rfl
    unfold State.imagePlace
    rw [htm]
    dsimp only
    rw [(hq _).1, (hq _).2]
    rfl
  have h2 : Repairs m s s2 := .of_same hplace rfl rfl
  have hx : x.members.zip r.cores = [(m, k)] := by unfold x; rw [hm, hr]; rfl
  have hout2 : (s2.tm m).isOut = true := hout
  rw [hx, List.foldl_cons, List.foldl_nil]
  dsimp only
  rw [hout2, Bool.true_or, if_pos rfl]
  obtain ⟨h, hc⟩ := State.restoreTeam_restored (k := k) (State.imageSound_of_place hplace hs) hout2 hb hh (h2.imageLost hs (fun _ => id) hl)
  refine ⟨⟨h2.trans h.image, h.core, h.res, h.seat, h.streams⟩, ?_⟩
  have hcl : s2.cl c = s1.cl c := rfl
  rw [State.cl, hc]
  change (s2.cl c).res = _
  rw [hcl, State.cl_onCl]

theorem does_relaunch_one {p : Nat} {d : Cand} (hd : (s.candidates p).head? = some d) (hrl : d.relaunch = true) (hi : d.idx = c)
    (hp : (s.cl c).part = p) (hf : s.failed = false) (hq : (s.partAt p).relaunchq.contains c = true)
    (hres : (s.cl c).res = .preempted ∨ (s.cl c).res = .evicted) (hm : (s.cl c).members = [m]) (hout : (s.tm m).isOut = true) (hh : (s.tm m).held = [])
    (hb : (s.tm m).broken = false) (hl : s.imageLost m (fun g => (KMap.find (streamKey m g) s.groups).isSome) = false)
    (hst : s.storesDrained c = true) (hs : s.imageSound m) (hr : s.findRect p d (s.cl c).w (s.cl c).h = some r) (hk : r.cores = [k]) :
    Does (.relaunch c) s fun t => (t.cl c).res = .resident ∧ (t.tm m).core = some k ∧ (t.tm m).res = .resident ∧ (t.coreAt k).team = some m ∧
      ¬ c ∈ (t.partAt p).relaunchq ∧ (∀ g ∈ s.teamStreams m, (t.grp g).out = false ∧ (t.grp g).pc = (s.grp g).pc) ∧
      ∀ a, s.inImage m a = none → t.byteAt a = s.byteAt a := by
  obtain ⟨h, hcl⟩ := State.restore_one hm hk hs hout hb hh hl
  obtain ⟨-, hnot⟩ := s.restore_leaves c r
  obtain ⟨hteams, hclusters, hgroups, hcores, hmem, -⟩ := (s.restore c r).endReserve_frame p d
  rw [hp] at hnot
  refine ⟨_, exec_relaunch s hd hrl hi hp hf hq hres hst hr, ?_⟩
  dsimp only
  rw [State.relaunchq_endReserve]
  unfold State.cl State.tm State.coreAt State.grp State.byteAt
  rw [hteams, hclusters, hcores, hgroups, hmem]
  exact ⟨hcl, h.core, h.res, h.seat, hnot, h.streams, h.image.bytes hs⟩

end

end Sys2Proof.Machine
end

