-- ==== Sys2Proof/Proofs/Placing.lean ====
section
/-! SUPPORT. Placement and relaunch, reservation, and the cores of a partition (14 R350 to R352, 08 R216, 15 R379). -/

namespace Sys2Proof.Machine

theorem placing : Claims.Placing := by
  intro s p k m c d r
  refine ⟨?_, ?_, ?_, ?_, ?_, ?_, ?_⟩
  · intro hc hd hf hr rec' u hp h0 hg hshape hfind hi h64 hkeys hctx hl hs
    exact does_placementPass_one s rfl hc hd hf hr hp h0 hg hshape hfind hi h64 hkeys hctx hl hs
  · intro hd hrl hi hp hf hq hres hm hout hh hb hl hst hlost hctx hr hk
    exact does_relaunch_one hd hrl hi hp hf hq hres hm hout hh hb hl hst ⟨hctx, hlost⟩ hr hk
  · intro hd _ hf hq u w h hp hr hi ht
    exact does_placementPass_seats s rfl hd hf hq hp hr hi ht
  · intro hd hrl hi hp hf hq hres hs hr
    exact does_relaunch_leaves s hd hrl hi hp hf hq hres hs hr
  · intro hd hn ha hw hr
    exact does_reservation s hd hn ha hw hr
  · exact fun v q => does_coreMapChange s k v q
  · exact fun y => does_coreFailure s k

/-- Settles O44: bins and placement give a free number and free cores the launch values; a relaunch only repairs the image of the team that
it reads back, so its streams stand where they stood; and the events of cores leave the rest. -/
theorem spawningAndPlacing : Obligations.SpawningAndPlacing := ⟨spawnEvents, placing⟩

end Sys2Proof.Machine
end

