-- ==== Sys2Proof/Proofs/Encoding.lean ====
section
/-! SUPPORT. Reading the fields of a word back, the round trip of each stream's words, and of the bytes that hold them (03 R58 to R78). -/

namespace Sys2Proof

/-! ## Fields laid side by side -/

/-- The `n` bits from bit `lo` up of fields laid side by side. -/
def bitsAt (l : List (Nat × Nat)) (lo n : Nat) : BitVec n := BitVec.ofNat n (catFields l / 2 ^ lo)

/-- A field of a word of fields is read from the fields, whatever the word leaves out above its width. -/
theorem field_ofNat_catFields {k lo n : Nat} (l : List (Nat × Nat)) (h : lo + n ≤ k) :
    field (BitVec.ofNat k (catFields l)) lo n = bitsAt l lo n := by
  apply BitVec.eq_of_toNat_eq
  obtain ⟨m, rfl⟩ := Nat.exists_eq_add_of_le h
  have hm : 2 ^ (lo + n + m) = 2 ^ lo * (2 ^ n * 2 ^ m) := by rw [pow_add, pow_add, mul_assoc]
  simp only [field, bitsAt, BitVec.toNat_ofNat, hm]
  rw [Nat.mod_mul_right_div_self, Nat.mod_mod_of_dvd _ (dvd_mul_right _ _)]

/-- The same of a 32-bit word, kept out of the reading so that it stays small. -/
theorem field_of_word32 {w : BitVec 32} {l : List (Nat × Nat)} (hw : w = word32 l) {lo n : Nat} (h : lo + n ≤ 32) :
    field w lo n = bitsAt l lo n := by
  rw [hw]
  exact field_ofNat_catFields l h

/-- Bits above the first field are bits of the rest. -/
@[simp] theorem bitsAt_cons_of_le {w x lo n : Nat} {r : List (Nat × Nat)} (hx : x < 2 ^ w) (h : w ≤ lo) :
    bitsAt ((w, x) :: r) lo n = bitsAt r (lo - w) n := by
  obtain ⟨m, rfl⟩ := Nat.exists_eq_add_of_le h
  simp only [bitsAt, catFields]
  rw [pow_add, ← Nat.div_div_eq_div_mul, Nat.add_mul_div_left _ _ (Nat.two_pow_pos w), Nat.div_eq_of_lt hx, zero_add,
    Nat.add_sub_cancel_left]

/-- Bits above an operand field are bits of the rest. -/
@[simp] theorem bitsAt_operand_of_le {w lo n : Nat} (x : BitVec w) {r : List (Nat × Nat)} (h : w ≤ lo) :
    bitsAt ((w, x.toNat) :: r) lo n = bitsAt r (lo - w) n :=
  bitsAt_cons_of_le x.isLt h

/-- Bits within the first field are bits of its value. -/
@[simp] theorem bitsAt_cons_of_add_le {w x lo n : Nat} {r : List (Nat × Nat)} (h : lo + n ≤ w) :
    bitsAt ((w, x) :: r) lo n = BitVec.ofNat n (x / 2 ^ lo) := by
  obtain ⟨m, rfl⟩ := Nat.exists_eq_add_of_le h
  apply BitVec.eq_of_toNat_eq
  have hm : 2 ^ (lo + n + m) * catFields r = 2 ^ lo * (2 ^ n * (2 ^ m * catFields r)) := by ring
  simp only [bitsAt, catFields, hm, BitVec.toNat_ofNat]
  rw [Nat.add_mul_div_left _ _ (Nat.two_pow_pos lo), Nat.add_mul_mod_self_left]

/-! ## Words of each stream -/

/-- 03 R61 to R63: a scalar word gives its instruction back. The MOP picks the row; every operand of the row is a field of its own. -/
theorem unpackScalar_of_encodeScalar {i : Instr} {w : BitVec 32} (hw : w = encodeScalar i) (h : w ≠ 0#32) : unpackScalar w = some i := by
  cases i with
  | add | sub | mul | mulh | mulhu | div | divu | rem | remu | and | or | xor | andn | shl | shr | sra | min | minu | max | maxu | slt
  | sltu | seq | clz | ctz | popc | bfx | bfi | addi | andi | ori | xori | shli | shri | srai | slti | sltiu | lui | pcaddi | beq | bne
  | blt | bge | bltu | bgeu | jal | jalr | ld | st | lds | sts | amo | pfetch | clause | waitf | testf | binit | arrive | arriveb
  | waitph | testph | bdrop | mbind | tlend | tret | tsplit | tjoin | tshare | tquery | treclaim | tryStart | commit | abort | fence
  | qfence | tsig | tlaunch | kick | ecall | xret | getc | setc | chkerr | exit | nop | brk | yield | pginvRange | pginvToken
  | pginvAll | mma | mzero | mdrain | mcheckMode | mcheckInject | mwake | mstat | nbload | nbrun | nbpoll =>
    have hl : w = word32 _ := hw
    rw [unpackScalar]
    simp only [field_of_word32 hl, bitsAt_cons_of_add_le, Nat.reduceAdd, Nat.reduceLeDiff, pow_zero, Nat.div_one, BitVec.reduceOfNat,
      BitVec.reduceToNat]
    rw [unpackMop]
    simp only [field_of_word32 hl, bitsAt_operand_of_le, bitsAt_cons_of_le, bitsAt_cons_of_add_le, Nat.reduceAdd, Nat.reduceSub, Nat.reduceLeDiff,
      Nat.reduceDiv, Nat.reducePow, Nat.reduceLT, le_refl, tsub_self, pow_zero, Nat.div_one, BitVec.ofNat_toNat, BitVec.setWidth_eq,
      BitVec.reduceOfNat, BitVec.reduceToNat, if_true, and_self]
  | _ => exact absurd hw h

/-- 03 R76, R77: a micro-operation word gives its micro-operation back. -/
theorem unpackMicro_of_encodeMicro {i : Instr} {w : BitVec 32} (hw : w = encodeMicro i) (h : w ≠ 0#32) : unpackMicro w = some i := by
  cases i with
  | nrow | nld | nst | nmul | nmulImm | nadd | naddImm | nmac | nmacImm | nmin | nminImm | nmax | nmaxImm | nxor | nxorImm | nmov
  | nmovImm | nloop | nsync | nend | nnop =>
    have hl : w = word32 _ := hw
    simp [unpackMicro, unpackUop, field_of_word32 hl]
  | _ => exact absurd hw h

/-- 03 R71: a lane opcode belongs to one instruction. -/
theorem laneOfLop_of_laneParts {i : Instr} {lop : BitVec 10} {f : LaneWord} (h : laneParts i = some (lop, f)) : laneOfLop lop f = some i := by
  cases i with
  | vadd | vsub | vmul | vmulh | vmad | vdiv | vrem | vmin | vmax | vabs | vabsdiff | vand | vor | vxor | vnot | vshl | vshr | vsra
  | vrot | vclz | vpopc | vbfx | vbfi | vcmp | vsel | vdp4 | vfadd | vfmul | vffma | vfmin | vfmax | vfcmp | vfrcp | vfrsq | vfsqrt
  | vfexp2 | vflog2 | vfsin | vfcos | vfdiv | vfclass | vfdot2 | vfround | vcvt | vpackbs | vunpackbs | vmov | vshfl | vvote | vredsc
  | vprmt | vspec | vbra | vbrax | vmark | vjoin | vcall | vret | vexit | vspawn | vkop | vkmov | vld | vst | vlds | vsts | vldspec
  | vatom | vred | vpf | vcopyIn | vcopyOut | vcast | vfence | varrive | vlabort =>
    cases h
    rfl
  | _ => cases h

/-- 03 R65: every field of a lane word reads back. -/
theorem unpackLane_packLane (lop : BitVec 10) (f : LaneWord) : unpackLane (packLane lop f) = (lop, f) := by
  simp [unpackLane, packLane, field_ofNat_catFields]

/-- 03 R65: bit 31 of a lane word is reserved. -/
theorem field_packLane_reserved (lop : BitVec 10) (f : LaneWord) : field (packLane lop f) 31 1 = 0#1 := by
  simp [packLane, field_ofNat_catFields]

theorem decodeScalar_encodeScalar {i : Instr} (h : encodeScalar i ≠ 0#32) (hf : fieldsOk i = true) : decodeScalar (encodeScalar i) = .ok i := by
  rw [decodeScalar, unpackScalar_of_encodeScalar rfl h]
  exact if_pos hf

theorem decodeMicro_encodeMicro {i : Instr} (h : encodeMicro i ≠ 0#32) (hf : fieldsOk i = true) : decodeMicro (encodeMicro i) = .ok i := by
  rw [decodeMicro, unpackMicro_of_encodeMicro rfl h]
  exact if_pos hf

theorem decodeLane_encodeLane {i : Instr} (h : (laneParts i).isSome) (hf : fieldsOk i = true) : decodeLane (encodeLane i) = .ok i := by
  obtain ⟨⟨lop, f⟩, hp⟩ := Option.isSome_iff_exists.mp h
  have he : encodeLane i = packLane lop f := by rw [encodeLane, hp]
  rw [he, decodeLane, if_pos (field_packLane_reserved lop f), unpackLane_packLane, laneOfLop_of_laneParts hp]
  exact if_pos hf

/-! ## Bytes of words -/

/-- What the kind of a word says of its encodings. -/
theorem Instr.encodes_of_wordKind (i : Instr) : match i.wordKind with
    | .scalar => encodeScalar i ≠ 0#32
    | .lane => (laneParts i).isSome
    | .micro => encodeMicro i ≠ 0#32
    | .event => encodeScalar i = 0#32 ∧ laneParts i = none ∧ encodeMicro i = 0#32 := by
  unfold Instr.wordKind
  split_ifs with hs hl hm
  · exact hs
  · exact hl
  · exact hm
  · exact ⟨not_not.mp hs, Option.not_isSome_iff_eq_none.mp hl, not_not.mp hm⟩

/-- 00 R2: little-endian bytes give back the number, modulo what they can hold. -/
theorem natOfBytes_bytesOfNat (n x : Nat) : natOfBytes (bytesOfNat n x) = x % 256 ^ n := by
  induction n generalizing x with
  | zero => simp [bytesOfNat, natOfBytes, Nat.mod_one]
  | succ n ih =>
    rw [pow_succ' 256, Nat.mod_mul, ← ih]
    rfl

/-- A word is read back from its bytes, whatever bytes follow. -/
theorem ofNat_natOfBytes_take {k n : Nat} (h : 256 ^ n = 2 ^ k) (x : BitVec k) (rest : List Byte) :
    BitVec.ofNat k (natOfBytes ((bytesOfNat n x.toNat ++ rest).take n)) = x := by
  rw [List.take_left' (length_bytesOfNat n x.toNat), natOfBytes_bytesOfNat, h, Nat.mod_eq_of_lt x.isLt, BitVec.ofNat_toNat, BitVec.setWidth_eq]

theorem decodeBytes_encode {i : Instr} (hk : i.wordKind ≠ .event) (hf : fieldsOk i = true) (rest : List Byte) :
    decodeBytes i.wordKind (encode i ++ rest) = .ok (i, rest) := by
  have enough (n x : Nat) : ¬ (bytesOfNat n x ++ rest).length < n := by simp [length_bytesOfNat]
  have left (n x : Nat) : (bytesOfNat n x ++ rest).drop n = rest := List.drop_left' (length_bytesOfNat n x)
  have he := i.encodes_of_wordKind
  unfold encode decodeBytes
  cases hw : i.wordKind with
  | scalar =>
    rw [hw] at he
    dsimp only at he ⊢
    rw [if_neg (enough 4 _), ofNat_natOfBytes_take rfl, decodeScalar_encodeScalar he hf, left]
    rfl
  | lane =>
    rw [hw] at he
    dsimp only at he ⊢
    rw [if_neg (enough 12 _), ofNat_natOfBytes_take rfl, decodeLane_encodeLane he hf, left]
    rfl
  | micro =>
    rw [hw] at he
    dsimp only at he ⊢
    rw [if_neg (enough 4 _), ofNat_natOfBytes_take rfl, decodeMicro_encodeMicro he hf, left]
    rfl
  | event => exact absurd hw hk

/-- Settles O56: a word is its fields side by side, so each field reads back as the operand laid there, and the word's bytes as the word. -/
theorem decodeOfEncode : Obligations.DecodeOfEncode := by
  intro i hwf rest
  obtain ⟨hk, hf⟩ : i.wordKind ≠ .event ∧ fieldsOk i = true := by simpa [WellFormed] using hwf
  exact decodeBytes_encode hk hf rest

/-- Settles O55: each word is the encoding of the instruction that the spec says it is, whose fields are accepted. -/
theorem wordsDecode : Obligations.WordsDecode := by
  have word {w : BitVec 32} {i : Instr} (hw : encodeScalar i = w) (h : w ≠ 0#32) (hf : fieldsOk i = true) : decodeScalar w = .ok i :=
    hw ▸ decodeScalar_encodeScalar (hw ▸ h) hf
  exact ⟨word rfl (by decide) rfl, word rfl (by decide) rfl, word rfl (by decide) rfl, word rfl (by decide) rfl, word rfl (by decide) rfl,
    word rfl (by decide) rfl, word rfl (by decide) rfl, word rfl (by decide) rfl, word rfl (by decide) rfl, rfl,
    decodeMicro_encodeMicro (i := .nmacImm 1 0 4 0 3) (by decide) rfl,
    decodeLane_encodeLane (i := .vadd ⟨8, 9, 0, 0, 0, 0, 1, 0, 0, 1, 0, 2, 0⟩) rfl rfl⟩

end Sys2Proof
end

