-- ==== Sys2Proof/Proofs/NextStates.lean ====
section
/-! SUPPORT. Every instruction answers a next state (00, 04 R104): its meaning is built of next states along the branches of its
definition. -/

namespace Sys2Proof.Machine

/-- 00, 04 R104: every instruction answers a next state. Those listed branch before they answer; the others answer at once. -/
theorem exec_next (i : Instr) (s : State) : ∃ t, exec i s = .next t := by
  cases i with
  | jalr => change ∃ t, execJalr _ _ _ s = .next t; fun_cases execJalr <;> exact ⟨_, rfl⟩
  | ld => change ∃ t, execLd _ _ _ _ _ _ s = .next t; fun_cases execLd <;> exact ⟨_, rfl⟩
  | st => change ∃ t, execSt _ _ _ _ _ s = .next t; fun_cases execSt <;> exact ⟨_, rfl⟩
  | lds => change ∃ t, execLds _ _ _ _ _ s = .next t; fun_cases execLds <;> exact ⟨_, rfl⟩
  | sts => change ∃ t, execSts _ _ _ _ s = .next t; fun_cases execSts <;> exact ⟨_, rfl⟩
  | amo => change ∃ t, execAmo _ _ _ _ _ _ _ s = .next t; fun_cases execAmo <;> exact ⟨_, rfl⟩
  | pfetch => change ∃ t, execPfetch _ _ _ s = .next t; fun_cases execPfetch <;> exact ⟨_, rfl⟩
  | clause => change ∃ t, execClause _ _ s = .next t; fun_cases execClause <;> exact ⟨_, rfl⟩
  | waitf => change ∃ t, execWaitf _ s = .next t; fun_cases execWaitf <;> exact ⟨_, rfl⟩
  | testf => change ∃ t, execTestf _ _ s = .next t; fun_cases execTestf <;> exact ⟨_, rfl⟩
  | arrive => change ∃ t, execArrive _ _ _ s = .next t; fun_cases execArrive <;> exact ⟨_, rfl⟩
  | tquery => change ∃ t, execTquery _ _ _ _ s = .next t; fun_cases execTquery <;> exact ⟨_, rfl⟩
  | treclaim => change ∃ t, execTreclaim _ _ _ _ s = .next t; fun_cases execTreclaim <;> exact ⟨_, rfl⟩
  | tryStart => change ∃ t, execTryStart _ _ s = .next t; fun_cases execTryStart <;> exact ⟨_, rfl⟩
  | commit => change ∃ t, execCommit _ s = .next t; fun_cases execCommit <;> exact ⟨_, rfl⟩
  | abort => change ∃ t, execAbort _ s = .next t; fun_cases execAbort <;> exact ⟨_, rfl⟩
  | fence => change ∃ t, execFence _ _ s = .next t; fun_cases execFence <;> exact ⟨_, rfl⟩
  | qfence => change ∃ t, execQfence _ _ _ s = .next t; fun_cases execQfence <;> exact ⟨_, rfl⟩
  | tsig => change ∃ t, execTsig _ _ _ s = .next t; fun_cases execTsig <;> exact ⟨_, rfl⟩
  | tlaunch => change ∃ t, execTlaunch _ _ _ s = .next t; fun_cases execTlaunch <;> exact ⟨_, rfl⟩
  | kick => change ∃ t, execKick _ _ _ s = .next t; fun_cases execKick <;> exact ⟨_, rfl⟩
  | ecall => change ∃ t, execEcall _ s = .next t; fun_cases execEcall <;> exact ⟨_, rfl⟩
  | xret => change ∃ t, execXret s = .next t; fun_cases execXret <;> exact ⟨_, rfl⟩
  | getc => change ∃ t, execGetc _ _ s = .next t; fun_cases execGetc <;> exact ⟨_, rfl⟩
  | setc => change ∃ t, execSetc _ _ s = .next t; fun_cases execSetc <;> exact ⟨_, rfl⟩
  | chkerr => change ∃ t, execChkerr _ s = .next t; fun_cases execChkerr <;> exact ⟨_, rfl⟩
  | exit => change ∃ t, execExit s = .next t; fun_cases execExit <;> exact ⟨_, rfl⟩
  | yield => change ∃ t, execYield s = .next t; fun_cases execYield <;> exact ⟨_, rfl⟩
  | mma => change ∃ t, execMma _ _ _ _ _ _ _ _ s = .next t; fun_cases execMma <;> exact ⟨_, rfl⟩
  | mzero => change ∃ t, execMzero _ s = .next t; fun_cases execMzero <;> exact ⟨_, rfl⟩
  | mdrain => change ∃ t, execMdrain _ _ _ _ s = .next t; fun_cases execMdrain <;> exact ⟨_, rfl⟩
  | mcheckMode => change ∃ t, execMcheckMode _ s = .next t; fun_cases execMcheckMode <;> exact ⟨_, rfl⟩
  | mcheckInject => change ∃ t, execMcheckInject _ _ s = .next t; fun_cases execMcheckInject <;> exact ⟨_, rfl⟩
  | mwake => change ∃ t, execMwake s = .next t; fun_cases execMwake <;> exact ⟨_, rfl⟩
  | mstat => change ∃ t, execMstat _ _ _ _ s = .next t; fun_cases execMstat <;> exact ⟨_, rfl⟩
  | nbload => change ∃ t, execNbload _ _ _ _ s = .next t; fun_cases execNbload <;> exact ⟨_, rfl⟩
  | nbrun => change ∃ t, execNbrun _ _ _ s = .next t; fun_cases execNbrun <;> exact ⟨_, rfl⟩
  | nbpoll => change ∃ t, execNbpoll _ _ _ s = .next t; fun_cases execNbpoll <;> exact ⟨_, rfl⟩
  | vbra => change ∃ t, execVbra _ s = .next t; fun_cases execVbra <;> exact ⟨_, rfl⟩
  | vmark => change ∃ t, execVmark _ s = .next t; fun_cases execVmark <;> exact ⟨_, rfl⟩
  | vjoin => change ∃ t, execVjoin _ s = .next t; fun_cases execVjoin <;> exact ⟨_, rfl⟩
  | vcall => change ∃ t, execVcall _ s = .next t; fun_cases execVcall <;> exact ⟨_, rfl⟩
  | vret => change ∃ t, execVret _ s = .next t; fun_cases execVret <;> exact ⟨_, rfl⟩
  | vexit => change ∃ t, execVexit _ s = .next t; fun_cases execVexit <;> exact ⟨_, rfl⟩
  | clauseStart => change ∃ t, execClauseStart _ s = .next t; fun_cases execClauseStart <;> exact ⟨_, rfl⟩
  | longLatencyCompletion => change ∃ t, execLongLatencyCompletion _ _ s = .next t; fun_cases execLongLatencyCompletion <;> exact ⟨_, rfl⟩
  | accessCompletion => change ∃ t, execAccessCompletion _ _ s = .next t; fun_cases execAccessCompletion <;> exact ⟨_, rfl⟩
  | storePerformed => change ∃ t, execStorePerformed _ s = .next t; fun_cases execStorePerformed <;> exact ⟨_, rfl⟩
  | waitphWake => change ∃ t, execWaitphWake _ s = .next t; fun_cases execWaitphWake <;> exact ⟨_, rfl⟩
  | postExitStoreFault => change ∃ t, execPostExitStoreFault _ s = .next t; fun_cases execPostExitStoreFault <;> exact ⟨_, rfl⟩
  | spawnTimerExpiry => change ∃ t, execSpawnTimerExpiry _ _ s = .next t; fun_cases execSpawnTimerExpiry <;> exact ⟨_, rfl⟩
  | spawnDeadlock => change ∃ t, execSpawnDeadlock _ s = .next t; fun_cases execSpawnDeadlock <;> exact ⟨_, rfl⟩
  | trygraceExpiry => change ∃ t, execTrygraceExpiry _ s = .next t; fun_cases execTrygraceExpiry <;> exact ⟨_, rfl⟩
  | preemptSaveComplete => change ∃ t, execPreemptSaveComplete _ s = .next t; fun_cases execPreemptSaveComplete <;> exact ⟨_, rfl⟩
  | relaunch => change ∃ t, execRelaunch _ s = .next t; fun_cases execRelaunch <;> exact ⟨_, rfl⟩
  | placementPass => change ∃ t, execPlacementPass _ s = .next t; fun_cases execPlacementPass <;> exact ⟨_, rfl⟩
  | reservation => change ∃ t, execReservation _ s = .next t; fun_cases execReservation <;> exact ⟨_, rfl⟩
  | queueRecordTake => change ∃ t, execQueueRecordTake _ s = .next t; fun_cases execQueueRecordTake <;> exact ⟨_, rfl⟩
  | qctlWrite => change ∃ t, execQctlWrite _ _ s = .next t; fun_cases execQctlWrite <;> exact ⟨_, rfl⟩
  | pfqctlWrite => change ∃ t, execPfqctlWrite _ _ s = .next t; fun_cases execPfqctlWrite <;> exact ⟨_, rfl⟩
  | l2ModeChange => change ∃ t, execL2ModeChange s = .next t; fun_cases execL2ModeChange <;> exact ⟨_, rfl⟩
  | coreMapChange => change ∃ t, execCoreMapChange _ s = .next t; fun_cases execCoreMapChange <;> exact ⟨_, rfl⟩
  | registerLineFill => change ∃ t, execRegisterLineFill _ _ _ s = .next t; fun_cases execRegisterLineFill <;> exact ⟨_, rfl⟩
  | uncorrectableError => change ∃ t, execUncorrectableError _ _ _ s = .next t; fun_cases execUncorrectableError <;> exact ⟨_, rfl⟩
  | unitLost => change ∃ t, execUnitLost _ _ s = .next t; fun_cases execUnitLost <;> exact ⟨_, rfl⟩
  | turnerGroupStep => change ∃ t, execTurnerGroupStep _ s = .next t; fun_cases execTurnerGroupStep <;> exact ⟨_, rfl⟩
  | replayReissue => change ∃ t, execReplayReissue _ s = .next t; fun_cases execReplayReissue <;> exact ⟨_, rfl⟩
  | frmrelWrite => change ∃ t, execFrmrelWrite _ s = .next t; fun_cases execFrmrelWrite <;> exact ⟨_, rfl⟩
  | pprcmdWrite => change ∃ t, execPprcmdWrite _ s = .next t; fun_cases execPprcmdWrite <;> exact ⟨_, rfl⟩
  | pprComplete => change ∃ t, execPprComplete _ s = .next t; fun_cases execPprComplete <;> exact ⟨_, rfl⟩
  | brusherRowScrub => change ∃ t, execBrusherRowScrub _ _ _ s = .next t; fun_cases execBrusherRowScrub <;> exact ⟨_, rfl⟩
  | burstBreak => change ∃ t, execBurstBreak _ _ s = .next t; fun_cases execBurstBreak <;> exact ⟨_, rfl⟩
  | sample => change ∃ t, execSample _ s = .next t; fun_cases execSample <;> exact ⟨_, rfl⟩
  | pressMmaPerform => change ∃ t, execPressMmaPerform _ s = .next t; fun_cases execPressMmaPerform <;> exact ⟨_, rfl⟩
  | pressMdrainPerform => change ∃ t, execPressMdrainPerform _ s = .next t; fun_cases execPressMdrainPerform <;> exact ⟨_, rfl⟩
  | pressMzeroPerform => change ∃ t, execPressMzeroPerform _ s = .next t; fun_cases execPressMzeroPerform <;> exact ⟨_, rfl⟩
  | pressMcheckPerform => change ∃ t, execPressMcheckPerform _ s = .next t; fun_cases execPressMcheckPerform <;> exact ⟨_, rfl⟩
  | pressReleaseRetry => change ∃ t, execPressReleaseRetry _ s = .next t; fun_cases execPressReleaseRetry <;> exact ⟨_, rfl⟩
  | subarrayGate => change ∃ t, execSubarrayGate _ _ s = .next t; fun_cases execSubarrayGate <;> exact ⟨_, rfl⟩
  | subarrayWakeDone => change ∃ t, execSubarrayWakeDone _ _ s = .next t; fun_cases execSubarrayWakeDone <;> exact ⟨_, rfl⟩
  | ladleTransfer => change ∃ t, execLadleTransfer _ _ s = .next t; fun_cases execLadleTransfer <;> exact ⟨_, rfl⟩
  | kickPull => change ∃ t, execKickPull _ s = .next t; fun_cases execKickPull <;> exact ⟨_, rfl⟩
  | landingWrite => change ∃ t, execLandingWrite _ _ _ s = .next t; fun_cases execLandingWrite <;> exact ⟨_, rfl⟩
  | landingCountRetry => change ∃ t, execLandingCountRetry _ s = .next t; fun_cases execLandingCountRetry <;> exact ⟨_, rfl⟩
  | windowBRead => change ∃ t, execWindowBRead _ _ _ _ s = .next t; fun_cases execWindowBRead <;> exact ⟨_, rfl⟩
  | windowBWrite => change ∃ t, execWindowBWrite _ _ _ _ _ s = .next t; fun_cases execWindowBWrite <;> exact ⟨_, rfl⟩
  | flitReceive => change ∃ t, execFlitReceive _ _ _ _ s = .next t; fun_cases execFlitReceive <;> exact ⟨_, rfl⟩
  | transactionReemit => change ∃ t, execTransactionReemit _ _ _ s = .next t; fun_cases execTransactionReemit <;> exact ⟨_, rfl⟩
  | remoteTimeout => change ∃ t, execRemoteTimeout _ _ s = .next t; fun_cases execRemoteTimeout <;> exact ⟨_, rfl⟩
  | runStart => change ∃ t, execRunStart _ s = .next t; fun_cases execRunStart <;> exact ⟨_, rfl⟩
  | runResume => change ∃ t, execRunResume _ s = .next t; fun_cases execRunResume <;> exact ⟨_, rfl⟩
  | stage1Reached => change ∃ t, execStage1Reached s = .next t; fun_cases execStage1Reached <;> exact ⟨_, rfl⟩
  | stage2Reached => change ∃ t, execStage2Reached s = .next t; fun_cases execStage2Reached <;> exact ⟨_, rfl⟩
  | pgcmdUnknown => change ∃ t, execPgcmdUnknown _ s = .next t; fun_cases execPgcmdUnknown <;> exact ⟨_, rfl⟩
  | polgilyCommandDone => change ∃ t, execPolgilyCommandDone _ _ s = .next t; fun_cases execPolgilyCommandDone <;> exact ⟨_, rfl⟩
  | bridgeLaneFailure => change ∃ t, execBridgeLaneFailure _ _ s = .next t; fun_cases execBridgeLaneFailure <;> exact ⟨_, rfl⟩
  | powerLimit => change ∃ t, execPowerLimit _ _ s = .next t; fun_cases execPowerLimit <;> exact ⟨_, rfl⟩
  | coreFailure => change ∃ t, execCoreFailure _ s = .next t; fun_cases execCoreFailure <;> exact ⟨_, rfl⟩
  | _ => exact ⟨_, rfl⟩

end Sys2Proof.Machine
end

