-- ==== Sys2Proof/Proofs/Steps.lean ====
section
/-! SUPPORT. What a slot counts, and the instruction that a step runs (03 R61, R64, R72, 10 R258, 14 R355, R356). -/

namespace Sys2Proof.Machine

/-! ## Counts of a slot -/

/-- What `f` does to a value is what changing one entry by `f` does to every reading. -/
theorem KMap.read_adjust {α : Type} {R : α → α → Prop} (hr : ∀ x, R x x) {f : α → α} (hf : ∀ x, R x (f x)) (d : α) (k j : Nat)
    (m : KMap α) : R (KMap.read d k m) (KMap.read d k (KMap.adjust j f m)) := by
  unfold KMap.adjust
  cases hv : KMap.find j m with
  | none => exact hr _
  | some v =>
    by_cases h : k = j
    · subst h
      simpa [KMap.read, hv] using hf v
    · rw [KMap.read_put_other d h]
      exact hr _

/-- Nothing changed but how many opportunities of `yield` are left, and cores' counts of opportunities. -/
structure OpensOnly (s o : State) : Prop where
  rest : ∃ gs cs, o = { s with groups := gs, cores := cs }
  grp : ∀ h, ∃ y, o.grp h = { s.grp h with yieldLeft := y }
  core : ∀ k, ∃ c, o.coreAt k = { s.coreAt k with slots := c }

namespace OpensOnly

theorem refl (s : State) : OpensOnly s s := ⟨⟨_, _, rfl⟩, fun _ => ⟨_, rfl⟩, fun _ => ⟨_, rfl⟩⟩

theorem trans {s t u : State} (h : OpensOnly s t) (k : OpensOnly t u) : OpensOnly s u := by
  obtain ⟨⟨gs, cs, ht⟩, hg, hc⟩ := h
  obtain ⟨⟨gs', cs', hu⟩, kg, kc⟩ := k
  refine ⟨⟨gs', cs', by rw [hu, ht]⟩, fun n => ?_, fun n => ?_⟩
  · obtain ⟨y, hy⟩ := hg n
    obtain ⟨z, hz⟩ := kg n
    exact ⟨z, by rw [hz, hy]⟩
  · obtain ⟨y, hy⟩ := hc n
    obtain ⟨z, hz⟩ := kc n
    exact ⟨z, by rw [hz, hy]⟩

theorem foldl {α : Type} {f : State → α → State} (hf : ∀ s x, OpensOnly s (f s x)) (l : List α) (s : State) : OpensOnly s (l.foldl f s) := by
  induction l generalizing s with
  | nil => exact .refl s
  | cons x l ih => exact (hf s x).trans (ih _)

theorem shorterYield (s : State) (g : Nat) : OpensOnly s (s.onGrp g fun x => { x with yieldLeft := x.yieldLeft - 1 }) := by
  refine ⟨⟨_, _, rfl⟩, fun h => ?_, fun _ => ⟨_, rfl⟩⟩
  by_cases e : h = g
  · subst e
    exact ⟨_, State.grp_onGrp ..⟩
  · exact ⟨_, State.grp_onGrp_other s e _⟩

theorem countSlot (s : State) (k : Nat) : OpensOnly s (s.withCore k fun c => { c with slots := c.slots + 1 }) :=
  ⟨⟨_, _, rfl⟩, fun _ => ⟨_, rfl⟩,
    fun n => KMap.read_adjust (R := fun x y => ∃ c, y = { x with slots := c }) (fun _ => ⟨_, rfl⟩) (fun _ => ⟨_, rfl⟩) _ n k s.cores⟩

/-- 14 R355, 05 R139: an issue opportunity counts, and shortens `yield`. -/
theorem openSlot (s : State) (g : Nat) (lane : Bool) : OpensOnly s (s.openSlot g lane) := by
  unfold State.openSlot
  split_ifs
  · exact .refl s
  · exact .countSlot s _
  · exact (countSlot s _).trans (.foldl (fun t h => .shorterYield t h) _ _)

end OpensOnly

/-- Of a stream nothing changed but how often it was passed over and when it last issued. -/
def Group.PassesOnly (x y : Group) : Prop := ∃ a b c d, y = { x with passS := a, passL := b, lastS := c, lastL := d }

theorem Group.PassesOnly.refl (x : Group) : x.PassesOnly x := ⟨_, _, _, _, rfl⟩

theorem Group.PassesOnly.trans {x y z : Group} (h : x.PassesOnly y) (k : y.PassesOnly z) : x.PassesOnly z := by
  obtain ⟨_, _, _, _, rfl⟩ := h
  obtain ⟨a, b, c, d, rfl⟩ := k
  exact ⟨a, b, c, d, rfl⟩

theorem passesOnly_adjust {f : Group → Group} (hf : ∀ x : Group, x.PassesOnly (f x)) (h j : Nat) (m : KMap Group) :
    (KMap.read {} h m).PassesOnly (KMap.read {} h (KMap.adjust j f m)) :=
  KMap.read_adjust Group.PassesOnly.refl hf _ h j m

theorem passesOnly_foldl_adjust {f : Group → Group} (hf : ∀ x : Group, x.PassesOnly (f x)) (h : Nat) (l : List Nat) (m : KMap Group) :
    (KMap.read {} h m).PassesOnly (KMap.read {} h (l.foldl (fun m j => KMap.adjust j f m) m)) := by
  induction l generalizing m with
  | nil => exact .refl _
  | cons j l ih => exact (passesOnly_adjust hf h j m).trans (ih _)

/-- 14 R356: what a slot notes is counts of the groups of its core, and the engine's last instruction. -/
theorem State.noteSlot_only (t u : State) (lane : Bool) (ready : List Nat) (i : Instr) :
    (∃ gs cs, t.noteSlot u lane ready i = { u with groups := gs, cores := cs }) ∧
    (∀ h, (u.grp h).PassesOnly ((t.noteSlot u lane ready i).grp h)) ∧
    ∀ k, ∃ e, (t.noteSlot u lane ready i).coreAt k = { u.coreAt k with engines := e } := by
  unfold State.noteSlot
  dsimp only
  split
  · exact ⟨⟨_, _, rfl⟩, fun _ => .refl _, fun _ => ⟨_, rfl⟩⟩
  · refine ⟨⟨_, _, rfl⟩, fun h => ?_, fun k => ?_⟩
    · refine Group.PassesOnly.trans (passesOnly_foldl_adjust (fun x => ?_) h _ u.groups) (passesOnly_adjust (fun x => ?_) h t.me _)
      · cases lane <;> exact ⟨_, _, _, _, rfl⟩
      · cases lane <;> exact ⟨_, _, _, _, rfl⟩
    · refine KMap.read_adjust (R := fun x y => ∃ e, y = { x with engines := e }) (fun _ => ⟨_, rfl⟩) (fun x => ?_) _ k _ u.cores
      exact ⟨_, rfl⟩

theorem slotsOnlyCount : Claims.SlotsOnlyCount := by
  intro s w g lane ready i
  obtain ⟨⟨_, _, ho⟩, hgrp, hcore⟩ := OpensOnly.openSlot s g lane
  obtain ⟨⟨_, _, hn⟩, hpass, hengine⟩ := s.noteSlot_only w lane ready i
  exact ⟨⟨by rw [ho], hgrp, hcore⟩, by rw [hn], hpass, hengine⟩

/-! ## Moves -/

section
variable {s : State} {g : Nat} {lane : Bool}

theorem step_of_agenda_nil (h : s.agenda = []) : step s = s.agentMove.outcome := by
  rw [step, State.nextMove, h]

theorem step_of_streamAgent (h : s.agenda = []) (hc : s.cur = streamAgent g lane) : step s = (s.slotMove g lane).outcome := by
  rw [step_of_agenda_nil h, State.agentMove, hc]
  cases lane <;> rfl

/-- A stream alone at an instruction of its core tries it, and the instruction runs. -/
theorem issues_of_prepare {i : Instr} {t : State} (ha : s.agenda = []) (hc : s.cur = streamAgent g lane) (hs : s.seeks g lane = true)
    (hg : s.slotGroups g lane = [g]) (hp : (s.openSlot g lane).prepare g lane = .runs i t) :
    Claims.Issues s { t with cur := streamAgent g lane } lane i := by
  obtain ⟨w, hw⟩ := exec_next i { t with cur := streamAgent g lane }
  refine ⟨w, hw, ?_⟩
  rw [step_of_streamAgent ha hc, State.slotMove]
  simp [hs, hg, State.tryStream, hp, Move.outcome, hw]

/-! ## Fetches -/

theorem decodeBytes_scalar {bs : List Byte} (hl : bs.length = 4) :
    decodeBytes .scalar bs = (decodeScalar (BitVec.ofNat 32 (natOfBytes bs))).map fun i => (i, []) := by
  simp [decodeBytes, hl, List.take_of_length_le, List.drop_of_length_le]

theorem decodeBytes_lane {bs : List Byte} (hl : bs.length = 12) :
    decodeBytes .lane bs = (decodeLane (BitVec.ofNat 96 (natOfBytes bs))).map fun i => (i, []) := by
  simp [decodeBytes, hl, List.take_of_length_le, List.drop_of_length_le]

/-- What a word of bytes that are not poisoned is to its stream. -/
def fetchedWord (d : Except Reject Instr) : Fetched :=
  match d with
  | .ok i => .instr i
  | .error _ => .bad false

theorem fetchedWord_of_none {d : Except Reject Instr} (h : ∀ j, d ≠ .ok j) : fetchedWord d = .bad false := by
  cases d with
  | ok j => exact absurd rfl (h j)
  | error e => rfl

theorem fetchScalar_of_clean {bs : List Byte} (hb : s.fetchBytes g (s.grp g).pc.toNat 4 = .ok (bs, false)) (hl : bs.length = 4) :
    s.fetchScalar g = fetchedWord (decodeScalar (BitVec.ofNat 32 (natOfBytes bs))) := by
  simp only [State.fetchScalar, hb, decodeBytes_scalar hl]
  cases decodeScalar (BitVec.ofNat 32 (natOfBytes bs)) <;> rfl

theorem fetchScalar_of_poisoned {bs : List Byte} (hb : s.fetchBytes g (s.grp g).pc.toNat 4 = .ok (bs, true)) : s.fetchScalar g = .bad true := by
  simp only [State.fetchScalar, hb]
  rfl

theorem fetchScalar_of_fault {c : Cause} (hb : s.fetchBytes g (s.grp g).pc.toNat 4 = .error c) : s.fetchScalar g = .fault c := by
  simp only [State.fetchScalar, hb]

variable {a : Word}

theorem fetchLane_of_clean {bs : List Byte} (hb : s.fetchBytes g a.toNat 12 = .ok (bs, false)) (hl : bs.length = 12) :
    s.fetchLane g a = fetchedWord (decodeLane (BitVec.ofNat 96 (natOfBytes bs))) := by
  simp only [State.fetchLane, hb, decodeBytes_lane hl]
  cases decodeLane (BitVec.ofNat 96 (natOfBytes bs)) <;> rfl

theorem fetchLane_of_poisoned {bs : List Byte} (hb : s.fetchBytes g a.toNat 12 = .ok (bs, true)) : s.fetchLane g a = .bad true := by
  simp only [State.fetchLane, hb]
  rfl

theorem fetchLane_of_fault {c : Cause} (hb : s.fetchBytes g a.toNat 12 = .error c) : s.fetchLane g a = .fault c := by
  simp only [State.fetchLane, hb]

/-- What a stream finds where its next word is fetched, at `a` for a lane stream. -/
def State.fetchNext (s : State) (g : Nat) (lane : Bool) (a : Word) : Fetched := if lane then s.fetchLane g a else s.fetchScalar g

/-- What the fetch of `n` bytes at `a` leaves for the event of a word that is refused. -/
def State.refusedAt (s : State) (g : Nat) (lane : Bool) (a : Word) (n : Nat) : State :=
  let t := s.fetched g lane a.toNat n
  if lane then { t with free := s.free } else t

section
variable {n : Nat} (hc : (s.grp g).nextCode lane = (a, n)) (hb : s.fetchBusy g lane a n = false)
include hc hb

theorem prepare_of_instr {i : Instr} (hf : s.fetchNext g lane a = .instr i) (hl : s.lineMiss g i = false) :
    s.prepare g lane = .runs i (s.fetched g lane a.toNat n) := by
  rw [State.fetchNext] at hf
  simp [State.prepare, hc, hb, hf, hl]

theorem prepare_of_bad {p : Bool} (hf : s.fetchNext g lane a = .bad p) :
    s.prepare g lane = .runs (.unassignedEncoding lane p) (s.refusedAt g lane a n) := by
  rw [State.fetchNext] at hf
  simp [State.prepare, hc, hb, hf, State.refusedAt]

theorem prepare_of_fault {c : Cause} (hf : s.fetchNext g lane a = .fault c) : s.prepare g lane = .runs (.fetchFault lane c.code a) s := by
  rw [State.fetchNext] at hf
  simp [State.prepare, hc, hb, hf]

end

/-! ## A stream alone in its slot -/

section
variable {n : Nat} (ha : s.agenda = []) (hcur : s.cur = streamAgent g lane) (hs : s.seeks g lane = true) (hg : s.slotGroups g lane = [g])
  (hc : ((s.openSlot g lane).grp g).nextCode lane = (a, n)) (hb : (s.openSlot g lane).fetchBusy g lane a n = false)
include ha hcur hs hg hc hb

theorem issues_instr {i : Instr} (hf : (s.openSlot g lane).fetchNext g lane a = .instr i) (hl : (s.openSlot g lane).lineMiss g i = false) :
    Claims.Issues s { (s.openSlot g lane).fetched g lane a.toNat n with cur := streamAgent g lane } lane i :=
  issues_of_prepare ha hcur hs hg (prepare_of_instr hc hb hf hl)

theorem issues_bad {p : Bool} (hf : (s.openSlot g lane).fetchNext g lane a = .bad p) :
    Claims.Issues s { (s.openSlot g lane).refusedAt g lane a n with cur := streamAgent g lane } lane (.unassignedEncoding lane p) :=
  issues_of_prepare ha hcur hs hg (prepare_of_bad hc hb hf)

theorem issues_fault {c : Cause} (hf : (s.openSlot g lane).fetchNext g lane a = .fault c) :
    Claims.Issues s { s.openSlot g lane with cur := streamAgent g lane } lane (.fetchFault lane c.code a) :=
  issues_of_prepare ha hcur hs hg (prepare_of_fault hc hb hf)

end

theorem nextCode_openSlot_scalar : ((s.openSlot g false).grp g).nextCode false = ((s.grp g).pc, 4) := by
  obtain ⟨y, hy⟩ := (OpensOnly.openSlot s g false).grp g
  rw [hy]
  rfl

theorem nextCode_openSlot_lane {q : Path} (hq : (s.grp g).path = some q) : ((s.openSlot g true).grp g).nextCode true = (q.lpc, 12) := by
  obtain ⟨y, hy⟩ := (OpensOnly.openSlot s g true).grp g
  rw [hy]
  simp [Group.nextCode, Group.slot, hq]

theorem step_of_boundary {i : Instr} (ha : s.agenda = []) (hcur : s.cur = .scalar g) (hr : s.runs g = true) (hd : (s.grp g).boundary g = some i) :
    step s = exec i s := by
  have hs : s.seeks g false = false := by simp [State.seeks, hd]
  rw [step_of_streamAgent (lane := false) ha hcur, State.slotMove]
  simp [hs, hr, hd, Move.outcome]

theorem step_of_event {i : Instr} {ts : List Turn} (ha : s.agenda = .event i :: ts) (hi : isScheduled i = true) :
    step s = exec i { s with agenda := ts } := by
  rw [step, State.nextMove, ha]
  simp [hi, Move.outcome]

theorem step_of_running {u : Nat} {i : Instr} {r : NbRun} {rest : List NbRun} {w : BitVec 32} (ha : s.agenda = []) (hcur : s.cur = .rennet u)
    (hq : (s.unitAt u).queue = r :: rest) (hr : r.state = 1) (hw : r.prog[r.ctr]? = some w) (hd : decodeMicro w = .ok i) : step s = exec i s := by
  have hrun : (s.unitAt u).running = some r := by simp [Rennet.running, hq, hr]
  have hi : microAt r.prog r.ctr = some i := by simp [microAt, hw, hd, Except.toOption]
  rw [step_of_agenda_nil ha, State.agentMove, hcur]
  simp [State.rennetMove, hrun, hi, Move.outcome]

end

theorem stepsDecoded : Claims.StepsDecoded := by
  intro s g u i bs c
  refine ⟨fun ts => step_of_event, step_of_boundary, ?_, ?_, fun ha hcur r rest w => step_of_running ha hcur⟩
  · rintro ⟨ha, hcur, hs, hg⟩ hb
    have hc := nextCode_openSlot_scalar (s := s) (g := g)
    have hpc : ((s.openSlot g false).grp g).pc = (s.grp g).pc := congrArg Prod.fst hc
    refine ⟨fun hf hl => ⟨fun hd hm => ?_, fun hd => ?_⟩, fun hf => ?_, fun hf => ?_⟩
    all_goals rw [← hpc] at hf
    · exact issues_instr ha hcur hs hg hc hb ((fetchScalar_of_clean hf hl).trans (by rw [hd]; rfl)) hm
    · exact issues_bad ha hcur hs hg hc hb ((fetchScalar_of_clean hf hl).trans (fetchedWord_of_none hd))
    · exact issues_bad ha hcur hs hg hc hb (fetchScalar_of_poisoned hf)
    · exact issues_fault ha hcur hs hg hc hb (fetchScalar_of_fault hf)
  · rintro q ⟨ha, hcur, hs, hg⟩ hq hb
    have hc := nextCode_openSlot_lane hq
    obtain ⟨⟨_, _, ho⟩, -, -⟩ := OpensOnly.openSlot s g true
    have hfree : (s.openSlot g true).free = s.free := by rw [ho]
    have hbad (p : Bool) (hf : (s.openSlot g true).fetchNext g true q.lpc = .bad p) := issues_bad ha hcur hs hg hc hb hf
    rw [State.refusedAt, hfree] at hbad
    refine ⟨fun hf hl => ⟨fun hd hm => ?_, fun hd => ?_⟩, fun hf => ?_, fun hf => ?_⟩
    · exact issues_instr ha hcur hs hg hc hb ((fetchLane_of_clean hf hl).trans (by rw [hd]; rfl)) hm
    · exact hbad false ((fetchLane_of_clean hf hl).trans (fetchedWord_of_none hd))
    · exact hbad true (fetchLane_of_poisoned hf)
    · exact issues_fault ha hcur hs hg hc hb (fetchLane_of_fault hf)

/-- Settles O57: one stream's slot is its trial, whose instruction answers a next state as every one does; and each part of a slot changes
only counts. -/
theorem stepRunsDecoded : Obligations.StepRunsDecoded := ⟨stepsDecoded, slotsOnlyCount⟩

end Sys2Proof.Machine
end

