-- ==== Sys2Proof/Proofs/LaneTraps.lean ====
section
/-! SUPPORT. The traps of lane instructions (03 R72, 06 R164 to R169, 10 R240): what a precise lane trap in user mode leaves, and where
the checks of register fields, of lane control and of lane addresses take it. -/

namespace Sys2Proof.Machine
open Claims

/-! ## A precise lane trap in user mode -/

/-- 08 R197, R198: outside `try`, with no scalar access on its way, a precise lane trap enters the handler. -/
theorem State.trapL_enters {s : State} (hu : LaneUser s) (c : Cause) (m : BitVec 16) (a : Word) :
    Enters s (s.trapL c m a) s.me (own s) (c.code + 0x100) (own s).slot a m none := by
  obtain ⟨⟨hk, ht⟩, hf⟩ := hu
  unfold own at hk ht hf
  have htrap : s.trapL c m a =
      s.onGrp s.me fun x => x.enter { cause := c, lane := true, slot := (own s).slot, mask := m, addr := a } (s.gTeam s.me).hvec := by
    unfold State.trapL State.trap
    simp only [hk, ht, hf, TrapInfo.early, Bool.and_false, Bool.false_eq_true, if_false]
    rfl
  rw [htrap]
  refine ⟨.of_onGrp .., ?_⟩
  unfold Entered own
  rw [State.grp_onGrp]
  simp [Group.enter, Group.trapBank, TrapInfo.xcause, Group.xstatus]

/-- An instruction that takes a precise lane trap in user mode does what the handler's entry leaves. -/
theorem does_of_trapL {s : State} {i : Instr} {p : State → Prop} {c : Cause} {m : BitVec 16} {a : Word} (hu : LaneUser s)
    (hexec : exec i s = .next (s.trapL c m a))
    (hp : ∀ t, Enters s t s.me (own s) (c.code + 0x100) (own s).slot a m none → p t) : Does i s p :=
  ⟨_, hexec, hp _ (State.trapL_enters hu c m a)⟩

/-! ## Register fields (03 R72) -/

/-- The check of the fields refuses each list with a field beyond the declared count or not aligned. -/
theorem regsOk_eq_false {vregs : Nat} {regs : List (Nat × Nat)} {r : Nat × Nat} (hr : r ∈ regs)
    (hbad : vregs < r.1 + r.2 ∨ r.1 % r.2 ≠ 0) : regsOk vregs regs = false := by
  refine List.all_eq_false.2 ⟨r, hr, ?_⟩
  simp only [Bool.and_eq_true, decide_eq_true_eq, not_and]
  intro hle hal
  exact hbad.elim (fun h => absurd hle (by omega)) (fun h => h hal)

theorem regsOk_eq_true {vregs : Nat} {regs : List (Nat × Nat)} (h : ∀ r ∈ regs, r.1 + r.2 ≤ vregs ∧ r.1 % r.2 = 0) :
    regsOk vregs regs = true := by
  refine List.all_eq_true.2 fun r hr => ?_
  obtain ⟨hle, hal⟩ := h r hr
  simp [hle, hal]

/-- Refused fields trap, whatever the body. -/
theorem State.laneBody_of_badField {s : State} {f : LaneWord} {regs : List (Nat × Nat)} {r : Nat × Nat} (hr : r ∈ regs)
    (hbad : (s.gTeam s.me).vregs < r.1 + r.2 ∨ r.1 % r.2 ≠ 0) (body : BitVec 16 → State) :
    s.laneBody f regs body = s.trapL .illegal (Claims.acting s f) 0 := by
  unfold State.laneBody
  simp [regsOk_eq_false hr hbad, Claims.acting, own]

section
variable {s : State} {f : LaneWord} {r : Nat × Nat} {srcs : List (Nat × Nat)} {dst : Nat × Nat}
  (hbad : (s.gTeam s.me).vregs < r.1 + r.2 ∨ r.1 % r.2 ≠ 0)
include hbad

theorem State.laneCalc_of_badField (hr : r ∈ srcs ++ [dst]) (cost : Nat) (res : Group → Nat → Nat × Bool) :
    s.laneCalc f srcs dst cost res = s.trapL .illegal (Claims.acting s f) 0 := State.laneBody_of_badField hr hbad _

theorem State.laneLong_of_badField (hr : r ∈ srcs ++ [dst]) (cost : Nat) (res : Group → Nat → Nat × Bool) :
    s.laneLong f srcs dst cost res = s.trapL .illegal (Claims.acting s f) 0 := State.laneBody_of_badField hr hbad _

theorem State.laneTest_of_badField (hr : r ∈ srcs) (kd cost : Nat) (res : Group → Nat → Bool × Bool) :
    s.laneTest f srcs kd cost res = s.trapL .illegal (Claims.acting s f) 0 := State.laneBody_of_badField hr hbad _

theorem State.lane2_of_badField {ta tb td : BitVec 4} (hr : r ∈ regA f 2 ta ++ regB f 2 tb ++ [(f.vd.toNat, wide td)])
    (fn : Nat → Nat → Nat) : s.lane2 f ta tb td fn = s.trapL .illegal (Claims.acting s f) 0 := State.laneCalc_of_badField hbad hr _ _

end

/-- Ready fields let the body run with the acting lanes. -/
theorem State.laneBody_of_ready {s : State} {f : LaneWord} {regs : List (Nat × Nat)} (h : LaneReady s f regs) (body : BitVec 16 → State) :
    s.laneBody f regs body = body (Claims.acting s f) := by
  obtain ⟨hregs, hwait⟩ := h
  unfold Claims.acting own at hwait
  unfold State.laneBody
  simp [regsOk_eq_true hregs, hwait, Claims.acting, own]

theorem laneFieldTraps : LaneFieldTraps := by
  intro s f r hu _ bad ab d traps
  have main : ∀ (i : Instr) (u : State), exec i s = .next u → u = s.trapL .illegal (Claims.acting s f) 0 → traps i := by
    rintro i u hexec rfl
    refine does_of_trapL hu hexec fun t ⟨honly, henter⟩ => ?_
    rw [henter]
    exact ⟨rfl, rfl, rfl, rfl, rfl, rfl, ⟨rfl, rfl⟩, rfl, rfl, honly⟩
  refine ⟨fun ⟨hr, hbad⟩ i hi => ?_, fun ⟨hr, hbad⟩ => ⟨main _ _ rfl (State.laneTest_of_badField hbad hr ..),
    main _ _ rfl (State.laneTest_of_badField hbad hr ..)⟩, fun ⟨hr, hbad⟩ => main _ _ rfl (State.laneBody_of_badField hr hbad _)⟩
  simp only [List.mem_cons, List.not_mem_nil, or_false] at hi
  rcases hi with rfl | rfl | rfl | rfl | rfl | rfl | rfl | rfl | rfl | rfl
  · exact main _ _ rfl (State.lane2_of_badField hbad hr _)
  · exact main _ _ rfl (State.lane2_of_badField hbad hr _)
  · exact main _ _ rfl (State.lane2_of_badField hbad hr _)
  · exact main _ _ rfl (State.lane2_of_badField hbad hr _)
  · exact main _ _ rfl (State.lane2_of_badField hbad hr _)
  · exact main _ _ rfl (State.laneCalc_of_badField hbad hr ..)
  · exact main _ _ rfl (State.laneBody_of_badField hr hbad _)
  · exact main _ _ rfl (State.laneLong_of_badField hbad hr ..)
  · exact main _ _ rfl (State.lane2_of_badField hbad hr _)
  · exact main _ _ rfl (State.laneLong_of_badField hbad hr ..)

/-! ## Lane control (06 R164, R167 to R169) -/

/-- 06 R164: `vbra` to no slot of its clause. -/
theorem exec_vbra_outside {s : State} (f : LaneWord) {a : Word} {h : ClauseHeader} (hc : (own s).curClause = some (a, h))
    (hn : f.imm.toNat % 32 = 0 ∨ h.count + 1 < f.imm.toNat % 32) : exec (.vbra f) s = .next (s.trapL .illegal (Claims.acting s f) 0) := by
  change execVbra f s = _
  unfold own at hc
  simp [execVbra, hc, hn, Claims.acting, own]

/-- 06 R164: `vbra` that parts its path under no mark entry. -/
theorem exec_vbra_parting {s : State} (f : LaneWord) {a : Word} {h : ClauseHeader} (hc : (own s).curClause = some (a, h))
    (hpos : 0 < f.imm.toNat % 32) (hle : f.imm.toNat % 32 ≤ h.count + 1) (hm : Claims.acting s f ≠ 0)
    (hrest : (own s).here &&& ~~~ Claims.acting s f ≠ 0) (htop : (own s).topMark = false) :
    exec (.vbra f) s = .next (s.trapL .stack (Claims.acting s f) 0) := by
  change execVbra f s = _
  unfold own at hc htop
  unfold Claims.acting own at *
  have hin : ¬ (f.imm.toNat % 32 = 0 ∨ h.count + 1 < f.imm.toNat % 32) := by omega
  simp only [execVbra, State.branchTo, hc, htop, Bool.or_eq_true, decide_eq_true_eq, if_neg hin, if_neg hm, if_neg hrest]
  rfl

/-- 06 R167: `vmark` of a slot that is not behind it in its clause. -/
theorem exec_vmark_outside {s : State} (f : LaneWord) {a : Word} {h : ClauseHeader} (hc : (own s).curClause = some (a, h))
    (hn : f.imm.toNat % 32 ≤ (own s).slotIn a ∨ h.count < f.imm.toNat % 32) : exec (.vmark f) s = .next (s.trapL .illegal (own s).here 0) := by
  change execVmark f s = _
  unfold own at hc hn
  rcases hn with hn | hn <;> simp [execVmark, hc, hn, own]

/-- 06 R168: `vjoin` that meets no mark entry. -/
theorem exec_vjoin_unmarked {s : State} (f : LaneWord) (htop : (own s).topMark = false) :
    exec (.vjoin f) s = .next (s.trapL .stack (own s).here 0) := by
  change execVjoin f s = _
  unfold own at *
  unfold execVjoin
  dsimp only
  split
  next hstack _ => simp [Group.topMark, hstack] at htop
  next => rfl

/-- 06 R169: an empty stack, or a mark entry on top, has no return. -/
theorem Group.return?_eq_none {x : Group} (h : x.stack = [] ∨ x.topMark = true) : x.return? = none := by
  unfold Group.return?
  split
  next hstack => simp [Group.topMark, hstack] at h
  next => rfl

/-- 06 R169: `vret` that meets no call entry. -/
theorem exec_vret_uncalled {s : State} (f : LaneWord) (h : (own s).stack = [] ∨ (own s).topMark = true) :
    exec (.vret f) s = .next (s.trapL .stack (own s).here 0) := by
  change execVret f s = _
  unfold own at *
  simp [execVret, Group.return?_eq_none h]

theorem laneStackTraps : LaneStackTraps := by
  intro s f a h x m here n traps hu _ hc
  have main : ∀ (i : Instr) (c : Cause) (mask : BitVec 16), exec i s = .next (s.trapL c mask 0) →
      traps i (BitVec.ofNat 32 (c.code + 0x100)) mask := by
    intro i c mask hexec
    refine does_of_trapL hu hexec fun t ⟨honly, henter⟩ => ?_
    rw [henter]
    exact ⟨rfl, rfl, rfl, rfl, rfl, rfl, rfl, honly⟩
  exact ⟨fun hn => main _ .illegal _ (exec_vbra_outside f hc hn),
    fun hpos hle hm hrest htop => main _ .stack _ (exec_vbra_parting f hc hpos hle hm hrest htop),
    fun hn => main _ .illegal _ (exec_vmark_outside f hc hn),
    fun htop => main _ .stack _ (exec_vjoin_unmarked f htop),
    fun hret => main _ .stack _ (exec_vret_uncalled f hret)⟩

/-! ## Addresses (10 R240) -/

/-- The cause of a clean address that is misaligned, or too high. -/
def addressCause (n : Nat) (va : Word) : Cause := if va.toNat % n ≠ 0 then .misalign else .page

theorem globalFault_of_badAddress {n : Nat} {y : LaneAddr} (hclean : y.bad = false) (hva : y.addr.toNat % n ≠ 0 ∨ 2 ^ 52 ≤ y.addr.toNat) :
    globalFault n y = some (addressCause n y.addr, y.addr) := by
  unfold globalFault addressCause
  by_cases hal : y.addr.toNat % n = 0
  · have hhigh : 2 ^ 52 ≤ y.addr.toNat := hva.resolve_left (not_not.2 hal)
    simp only [hclean, hal, hhigh, ne_eq, not_true_eq_false, Bool.false_eq_true, if_true, if_false]
  · simp [hclean, hal]

/-- A lone lane's fault is the one reported. -/
theorem lowestFault_singleton (l : Nat) (c : Cause) (va : Word) : lowestFault [(l, some (c, va))] = some (c, maskOf [l], va) := by
  simp [lowestFault]

theorem setWidth_maskOf_singleton {l : Nat} (hl : l < 16) : (maskOf [l]).setWidth 32 = BitVec.ofNat 32 (2 ^ l) := by
  obtain ⟨i, rfl⟩ : ∃ i : Fin 16, i.val = l := ⟨⟨l, hl⟩, rfl⟩
  revert i
  decide

theorem Group.globalAddr_lane (x : Group) (f : LaneWord) (off : Word) (l : Nat) : (x.globalAddr f off l).lane = l := by
  unfold Group.globalAddr
  split <;> rfl

/-- 10 R240: a lone lane's access with clean, refused address traps before anything is issued. -/
theorem State.laneMem_of_badAddress {s : State} {f : LaneWord} {regs : List (Nat × Nat)} {o : MemOp} {l : Nat}
    (hready : LaneReady s f (addrRegs f true :: regs)) (hfence : (own s).fenced = false) (hu : f.u = 0#1)
    (hlanes : lanes (Claims.acting s f) = [l]) (hclean : ((own s).globalAddr f (memOff f) l).bad = false)
    (hva : ((own s).globalAddr f (memOff f) l).addr.toNat % o.size ≠ 0 ∨ 2 ^ 52 ≤ ((own s).globalAddr f (memOff f) l).addr.toNat)
    (dst : Option (Nat × Nat)) (data : Group → Nat → Nat × Nat × Bool) :
    s.laneMem f regs dst o data = s.trapL (addressCause o.size ((own s).globalAddr f (memOff f) l).addr) (maskOf [l])
      ((own s).globalAddr f (memOff f) l).addr := by
  have hbody : bodyLanes f (Claims.acting s f) = [l] := by simp [bodyLanes, hu, hlanes]
  have hfault := globalFault_of_badAddress hclean hva
  unfold State.laneMem
  rw [State.laneBody_of_ready hready]
  unfold own at *
  simp [hfence, hbody, State.poisonAddr, hclean, hfault, lowestFault_singleton, Group.globalAddr_lane]

theorem laneAddressTraps : LaneAddressTraps := by
  intro s f l x n va hu _ hfence hu0 hlanes hclean hva hready hreadyStore i hi
  have hl : l < 16 := (mem_lanes.1 (hlanes ▸ List.mem_singleton_self l)).1
  have hmem : ∃ regs dst o data, LaneReady s f (addrRegs f true :: regs) ∧ o.size = n ∧ exec i s = .next (s.laneMem f regs dst o data) := by
    simp only [List.mem_cons, List.not_mem_nil, or_false] at hi
    rcases hi with rfl | rfl | rfl
    · exact ⟨_, _, _, _, hready, rfl, rfl⟩
    · exact ⟨_, _, _, _, hready, rfl, rfl⟩
    · exact ⟨_, _, _, _, hreadyStore, rfl, rfl⟩
  obtain ⟨regs, dst, o, data, hok, hsize, hexec⟩ := hmem
  rw [State.laneMem_of_badAddress hok hfence hu0 hlanes hclean (hsize ▸ hva), hsize] at hexec
  refine does_of_trapL hu hexec fun t ⟨honly, henter⟩ => ?_
  rw [henter]
  refine ⟨?_, rfl, setWidth_maskOf_singleton hl, rfl, rfl, ⟨rfl, rfl⟩, rfl, rfl, honly⟩
  unfold addressCause
  split <;> rfl

/-- Settles O27: each of these instructions takes a precise lane trap at its check, and in user mode that trap enters the handler and
leaves registers, predicates, path and stack. -/
theorem laneTraps : Obligations.LaneTraps := ⟨laneFieldTraps, laneStackTraps, laneAddressTraps⟩

end Sys2Proof.Machine
end

