-- ==== Sys2Proof/Proofs/NothingStops.lean ====
section
/-! SUPPORT. No step stops the machine (00, 04 R104, log entry 6): a move leaves what its instruction answers, and every instruction answers
a next state. -/

namespace Sys2Proof.Machine

/-- Of the three kinds of move the first two run an instruction, and the third is a next state already. -/
theorem Move.outcome_next (m : Move) : ∃ t, m.outcome = .next t := by
  cases m with
  | slot lane ready i s =>
    obtain ⟨u, hu⟩ := exec_next i s
    exact ⟨s.noteSlot u lane ready i, by rw [Move.outcome, hu]⟩
  | run i s => exact exec_next i s
  | go s => exact ⟨s, rfl⟩

/-- Settles O58: a step is the outcome of a move, and every instruction answers a next state. -/
theorem nothingStops : Obligations.NothingStops := fun s => ⟨s.nextMove.outcome_next, fun i => exec_next i s⟩

end Sys2Proof.Machine
end

