-- ==== Sys2Proof/Proofs/ControlRegisters.lean ====
section
/-! SUPPORT. Control registers (04 R96 to R107, 05 R135): which accesses trap, what `getc` writes, and what `setc` leaves of the stream
or of its team. -/

namespace Sys2Proof.Machine
open Claims

/-! ## Access (04 R96, R97) -/

/-- 04 R96: an assigned register that the stream has access to takes no trap in a mode that may use it. -/
theorem cregTrap_eq_none {n : Nat} {seq kernel write : Bool} (hseq : seq = false ∨ cregNoSeq n = false)
    (huse : cregUse n = .user ∨ (cregUse n = .kernelWrite ∧ write = false) ∨ (cregUse n ≠ .unassigned ∧ kernel = true)) :
    cregTrap n seq kernel write = none := by
  have hctx : (seq && cregNoSeq n) = false := by rcases hseq with h | h <;> simp [h]
  unfold cregTrap
  rcases huse with hu | ⟨hu, rfl⟩ | ⟨hu, rfl⟩
  · simp [hu, hctx]
  · simp [hu, hctx]
  · cases hn : cregUse n with
    | unassigned => exact absurd hn hu
    | user | kernelWrite | kernel => simp [hctx]

/-- A number that 04 R97 does not assign, in any stream and mode. -/
theorem cregTrap_of_unassigned {n : Nat} (h : cregUse n = .unassigned) (seq kernel write : Bool) :
    cregTrap n seq kernel write = some .illegal := by
  unfold cregTrap
  rw [h]

/-- A kernel register that both kinds of stream have, in user mode. -/
theorem cregTrap_of_kernel {n : Nat} (h : cregUse n = .kernel) (hs : cregNoSeq n = false) (seq write : Bool) :
    cregTrap n seq false write = some .priv := by
  unfold cregTrap
  simp [h, hs]

/-- 04 R97: numbers between the registers, and those beyond the counters. -/
theorem cregUse_of_unassigned {n : Nat} (h : n = 0x003 ∨ n = 0x107 ∨ n = 0x302 ∨ 0x420 ≤ n) : cregUse n = .unassigned := by
  rcases h with rfl | rfl | rfl | h
  · rfl
  · rfl
  · rfl
  · unfold cregUse
    simp only [Bool.or_eq_true, Bool.and_eq_true, decide_eq_true_eq]
    repeat rw [if_neg (by omega)]

/-- 04 R97: the trap bank, `c.hvec` and `c.evthr` are kernel registers of both kinds of stream. -/
theorem cregUse_of_kernelRegister {n : Nat} (h : 0x100 ≤ n ∧ n ≤ 0x106 ∨ n = 0x200 ∨ n = 0x210) :
    cregUse n = .kernel ∧ cregNoSeq n = false := by
  rcases h with ⟨hlo, hhi⟩ | rfl | rfl
  · interval_cases n <;> exact ⟨rfl, rfl⟩
  · exact ⟨rfl, rfl⟩
  · exact ⟨rfl, rfl⟩

/-- A number below the counters is the number of its 12-bit field. -/
theorem toNat_ofNat_creg {n : Nat} (h : n < 0x400) : (BitVec.ofNat 12 n).toNat = n := by
  rw [BitVec.toNat_ofNat, Nat.mod_eq_of_lt (by omega)]

/-! ## What `getc` reads -/

theorem computes_getc {s : State} {n : Nat} (d : BitVec 6) (hn : n < 0x400)
    (htrap : cregTrap n (keyGrp s.me = 64) (own s).kernel false = none) :
    Computes (.getc (BitVec.ofNat 12 n) d) s [] d (s.cregRead s.me n) s.after := by
  have hnat : (BitVec.ofNat 12 n).toNat = n := toNat_ofNat_creg hn
  have hhead : BitVec.ofNat 12 n ≠ 0x414#12 := fun h => by
    have : n = 0x414 := hnat.symm.trans (congrArg BitVec.toNat h)
    omega
  refine computes_finish _ _ _ _ _ ?_
  change execGetc _ _ s = _
  unfold own at htrap
  simp only [execGetc, hnat, htrap, if_neg hhead, State.uses_nil]

section
variable {s : State} {n : Nat} (d : BitVec 6)

theorem computes_getc_user (hn : n < 0x400) (hu : cregUse n = .user ∨ cregUse n = .kernelWrite) (hs : cregNoSeq n = false) :
    Computes (.getc (BitVec.ofNat 12 n) d) s [] d (s.cregRead s.me n) s.after :=
  computes_getc d hn (cregTrap_eq_none (.inr hs) (hu.imp_right fun h => .inl ⟨h, rfl⟩))

theorem computes_getc_group (hn : n < 0x400) (hu : cregUse n = .user) (hg : keyGrp s.me ≠ 64) :
    Computes (.getc (BitVec.ofNat 12 n) d) s [] d (s.cregRead s.me n) s.after :=
  computes_getc d hn (cregTrap_eq_none (.inl (by simp [hg])) (.inl hu))

theorem computes_getc_kernel (h : 0x100 ≤ n ∧ n ≤ 0x106 ∨ n = 0x200 ∨ n = 0x210) (hk : (own s).kernel = true) :
    Computes (.getc (BitVec.ofNat 12 n) d) s [] d (s.cregRead s.me n) s.after := by
  obtain ⟨hu, hs⟩ := cregUse_of_kernelRegister h
  exact computes_getc d (by omega) (cregTrap_eq_none (.inr hs) (.inr (.inr ⟨by simp [hu], hk⟩)))

end

/-- 04 R99: CORCNT of `c.chkint` reads 0 in a group. -/
theorem State.cregRead_chkint {s : State} {g : Nat} (hg : keyGrp g ≠ 64) : s.cregRead g 0x010 = ((s.grp g).chkint &&& 0x1F).setWidth 64 :=
  congrArg (BitVec.setWidth 64) (if_neg hg)

/-! ## What `setc` leaves -/

theorem exec_setc {s : State} {n : Nat} (a : BitVec 6) (hn : n < 0x400) (htry : (own s).inTry = false)
    (htrap : cregTrap n (keyGrp s.me = 64) (own s).kernel true = none) :
    exec (.setc (BitVec.ofNat 12 n) a) s = .next ((s.cregWrite s.me n (s.rs a)).uses [a]).nextPc := by
  have hnat : (BitVec.ofNat 12 n).toNat = n := toNat_ofNat_creg hn
  change execSetc _ _ s = _
  unfold own at htry htrap
  simp only [execSetc, hnat, htry, htrap, Bool.false_eq_true, if_false]

/-- A scalar instruction that has read its registers issues and goes on with the next word. -/
theorem State.grp_uses_nextPc (u : State) (rs : List (BitVec 6)) :
    (u.uses rs).nextPc.grp u.me = (u.grp u.me).issued rs ((u.grp u.me).pc + 4) := by
  have h := (u.uses rs).grp_goto (((u.uses rs).grp (u.uses rs).me).pc + 4)
  rw [State.me_uses, State.grp_uses] at h
  rw [State.nextPc, State.me_uses, State.grp_uses, h, Group.issued]
  split <;> rfl

theorem OnlyStream.uses_nextPc (u : State) (rs : List (BitVec 6)) : OnlyStream u.me u (u.uses rs).nextPc :=
  OnlyStream.goto (OnlyStream.uses u rs) (by simp) _

/-- Of a stream, issuing changes `c.chkint`, the PC and the reason for which it did not issue. -/
theorem Group.issued_eq (x : Group) (rs : List (BitVec 6)) (pc : Word) :
    x.issued rs pc = { x with chkint := (x.issued rs pc).chkint, pc, stall := 0 } := by
  unfold Group.issued
  split <;> rfl

/-- 04 R108, R109: a control register of the stream is none of its scalar registers, nor its PC. -/
theorem Group.cregWrite_eq (x : Group) (n : Nat) (v : Word) : x.cregWrite n v = { x with
    gtime := (x.cregWrite n v).gtime, gtcmp := (x.cregWrite n v).gtcmp, timerDue := (x.cregWrite n v).timerDue
    chkint := (x.cregWrite n v).chkint, tryabort := (x.cregWrite n v).tryabort, bank := (x.cregWrite n v).bank } := by
  fun_cases Group.cregWrite <;> rfl

/-- 04 R98: a write of `c.gtime` that does not meet an armed `c.gtcmp`. -/
theorem Group.cregWrite_gtime (x : Group) {v : Word} (h : v ≠ x.gtcmp ∨ v = 0) : x.cregWrite 0x001 v = { x with gtime := v } := by
  refine if_neg ?_
  rw [Bool.and_eq_true, decide_eq_true_eq, decide_eq_true_eq]
  rintro ⟨hset, hv⟩
  exact h.elim (fun hne => hne hv) (fun h0 => hset (hv.symm.trans h0))

/-- 04 R106: VEC of `c.hvec` is the word without its low two bits. -/
theorem and_not_three_eq (v : Word) : v &&& ~~~3#64 = BitVec.ofNat 64 (v.toNat / 4 * 4) := by
  have hmask : ~~~3#64 = BitVec.allOnes 64 <<< 2 := by decide
  rw [hmask, ← BitVec.shiftLeft_ushiftRight]
  apply BitVec.eq_of_toNat_eq
  simp [Nat.shiftLeft_eq, Nat.shiftRight_eq_div_pow]

/-- 05 R135: `setc` goes on with the next word, its register as `p` says, and leaves scalar registers and memory. -/
def Sets (c : BitVec 12) (a : BitVec 6) (s : State) (p : State → Prop) : Prop :=
  Does (.setc c a) s fun t => p t ∧ (t.grp s.me).pc = s.after ∧ WroteNone (own s) (t.grp s.me) ∧ MemoryKept s t

section
variable {s : State} {n : Nat} (a : BitVec 6) {p : State → Prop} (htry : (own s).inTry = false)
  (htrap : cregTrap n (keyGrp s.me = 64) (own s).kernel true = none)
include htry htrap

/-- `setc` of a register that the stream holds: the stream's record with that register written, issued. -/
theorem sets_stream (hn : n < 0x200)
    (hp : ∀ t, t.grp s.me = ((own s).cregWrite n (s.rs a)).issued [a] s.after → p t) : Sets (BitVec.ofNat 12 n) a s p := by
  have hw : s.cregWrite s.me n (s.rs a) = s.onGrp s.me fun x => x.cregWrite n (s.rs a) := if_pos hn
  refine ⟨_, exec_setc a (by omega) htry htrap, ?_⟩
  rw [hw]
  have hg := (s.onGrp s.me fun x => x.cregWrite n (s.rs a)).grp_uses_nextPc [a]
  obtain ⟨-, -, -, hmem⟩ := OnlyStream.uses_nextPc (s.onGrp s.me fun x => x.cregWrite n (s.rs a)) [a]
  have hpc : ((own s).cregWrite n (s.rs a)).pc = (s.grp s.me).pc := by rw [Group.cregWrite_eq]; rfl
  rw [State.me_onGrp, State.grp_onGrp] at hg
  unfold own at *
  rw [hpc] at hg
  refine ⟨hp _ hg, congrArg Group.pc hg, fun r => ?_, hmem⟩
  rw [hg, Group.issued_eq, Group.cregWrite_eq]
  exact ⟨rfl, rfl⟩

/-- `setc` of a register that the team holds: the team's record with that register written, the stream issued. -/
theorem sets_team (h2 : 0x200 ≤ n) (h3 : n < 0x300) (hp : ∀ t, t.gTeam s.me = (s.gTeam s.me).cregWrite n (s.rs a) → p t) :
    Sets (BitVec.ofNat 12 n) a s p := by
  have hw : s.cregWrite s.me n (s.rs a) = s.onTm (keyTeam s.me) fun t => t.cregWrite n (s.rs a) := by
    rw [State.cregWrite, if_neg (by omega), if_pos h3]
  refine ⟨_, exec_setc a (by omega) htry htrap, ?_⟩
  rw [hw]
  have hg : ((s.onTm (keyTeam s.me) fun t => t.cregWrite n (s.rs a)).uses [a]).nextPc.grp s.me = (own s).issued [a] s.after :=
    State.grp_uses_nextPc _ [a]
  have honly := OnlyStream.uses_nextPc (s.onTm (keyTeam s.me) fun t => t.cregWrite n (s.rs a)) [a]
  have htm := (honly.tm (keyTeam s.me)).trans (s.tm_onTm ..)
  obtain ⟨-, -, -, hmem⟩ := honly
  refine ⟨hp _ htm, congrArg Group.pc hg, fun r => ?_, hmem⟩
  rw [hg, Group.issued_eq]
  exact ⟨rfl, rfl⟩

end

section
variable {s : State} (a : BitVec 6) (htry : (own s).inTry = false)
include htry

/-- 04 R98: `c.gtcmp` takes the word, and `c.gtime` goes on. -/
theorem sets_gtcmp : Sets 0x002#12 a s fun t => (t.grp s.me).gtcmp = s.rs a ∧ (t.grp s.me).gtime = (own s).gtime := by
  refine sets_stream a htry (cregTrap_eq_none (.inr rfl) (.inl rfl)) (by decide) fun t ht => ?_
  rw [ht, Group.issued_eq]
  exact ⟨rfl, rfl⟩

/-- 04 R98: `c.gtime` counts on from the word, and `c.gtcmp` stays. -/
theorem sets_gtime (hk : (own s).kernel = true) (hv : s.rs a ≠ (own s).gtcmp ∨ s.rs a = 0) :
    Sets 0x001#12 a s fun t => (t.grp s.me).gtime = s.rs a ∧ (t.grp s.me).gtcmp = (own s).gtcmp := by
  refine sets_stream a htry (cregTrap_eq_none (.inr rfl) (.inr (.inr ⟨by decide, hk⟩))) (by decide) fun t ht => ?_
  rw [ht, Group.issued_eq, Group.cregWrite_gtime _ hv]
  exact ⟨rfl, rfl⟩

/-- 04 R103: a register of the trap bank. -/
theorem sets_bank (hk : (own s).kernel = true) {n : Nat} (h : 0x100 ≤ n ∧ n ≤ 0x106) :
    Sets (BitVec.ofNat 12 n) a s fun t => (t.grp s.me).bank = ((own s).cregWrite n (s.rs a)).bank := by
  obtain ⟨hu, hs⟩ := cregUse_of_kernelRegister (.inl h)
  refine sets_stream a htry (cregTrap_eq_none (.inr hs) (.inr (.inr ⟨by simp [hu], hk⟩))) (by omega) fun t ht => ?_
  rw [ht, Group.issued_eq]

/-- 04 R106: `c.hvec` takes the word without its low two bits. -/
theorem sets_hvec (hk : (own s).kernel = true) :
    Sets 0x200#12 a s fun t => t.gTeam s.me = { s.gTeam s.me with hvec := BitVec.ofNat 64 ((s.rs a).toNat / 4 * 4) } := by
  refine sets_team a htry (cregTrap_eq_none (.inr rfl) (.inr (.inr ⟨by decide, hk⟩))) (by decide) (by decide) fun t ht => ?_
  rw [ht, ← and_not_three_eq]
  rfl

end

/-! ## Traps of an access -/

/-- 08 R197, R198: a precise trap of a scalar instruction in user mode enters the handler. -/
theorem State.trapS_enters {s : State} (hu : UserMode s) (c : Cause) (addr : Word) :
    Enters s (s.trapS c addr) s.me (own s) c.code 0 addr 0 none := by
  obtain ⟨hk, ht⟩ := hu
  unfold own at hk ht
  have htrap : s.trapS c addr = s.onGrp s.me fun x => x.enter { cause := c, addr } (s.gTeam s.me).hvec := by
    unfold State.trapS State.trap
    simp [hk, ht, TrapInfo.early]
  rw [htrap]
  refine ⟨.of_onGrp .., ?_⟩
  unfold Entered own
  rw [State.grp_onGrp]
  simp [Group.enter, Group.trapBank, TrapInfo.xcause, Group.xstatus]

/-- What the handler finds, and what the trapped instruction has left alone. -/
theorem Trapped.of_enters {s t : State} {c : Nat} {addr : Word} (h : Enters s t s.me (own s) c 0 addr 0 none) :
    Trapped s t c addr ∧ WroteNone (own s) (t.grp s.me) ∧ OnlyStream s.me s t := by
  obtain ⟨honly, henter⟩ := h
  unfold Trapped
  rw [henter]
  exact ⟨⟨rfl, rfl, rfl, rfl, rfl, rfl⟩, fun _ => ⟨rfl, rfl⟩, honly⟩

/-- 04 R96: in user mode, outside `try`, a register number that traps on a read and on a write is left in `xaddr`. -/
theorem does_creg_trap {s : State} (hu : UserMode s) {c : BitVec 12} {cause : Cause}
    (htrap : ∀ write, cregTrap c.toNat (keyGrp s.me = 64) false write = some cause) (a d : BitVec 6) {i : Instr}
    (hi : i ∈ [Instr.getc c d, .setc c a]) :
    Does i s fun t => Trapped s t cause.code (BitVec.ofNat 64 c.toNat) ∧ WroteNone (own s) (t.grp s.me) ∧ OnlyStream s.me s t := by
  have hnum : c.setWidth 64 = BitVec.ofNat 64 c.toNat := by simp
  refine ⟨s.trapS cause (BitVec.ofNat 64 c.toNat), ?_, Trapped.of_enters (State.trapS_enters hu ..)⟩
  obtain ⟨hk, ht⟩ := hu
  unfold own at hk ht
  simp only [List.mem_cons, List.not_mem_nil, or_false] at hi
  rcases hi with rfl | rfl
  · change execGetc _ _ s = _
    simp only [execGetc, hk, htrap, hnum]
  · change execSetc _ _ s = _
    simp only [execSetc, hk, ht, htrap, hnum, Bool.false_eq_true, if_false]

/-! ## The statement -/

/-- Settles O35: `getc` writes what the register reads as, `setc` writes the register's record, and each refuses a number by its access. -/
theorem controlRegisters : Obligations.ControlRegisters := by
  intro s c a d
  have user {n : Nat} := computes_getc_user (s := s) (n := n) d
  have group {n : Nat} := computes_getc_group (s := s) (n := n) d
  have kernel {n : Nat} := computes_getc_kernel (s := s) (n := n) d
  refine ⟨user (by decide) (.inl rfl) rfl, user (by decide) (.inr rfl) rfl, user (by decide) (.inl rfl) rfl,
    user (by decide) (.inl rfl) rfl, user (by decide) (.inl rfl) rfl, user (by decide) (.inl rfl) rfl, user (by decide) (.inl rfl) rfl,
    fun hg => ⟨group (by decide) rfl hg, group (by decide) rfl hg, ?_⟩,
    fun hk => ⟨kernel (by decide) hk, kernel (by decide) hk, kernel (by decide) hk, kernel (by decide) hk, kernel (by decide) hk,
      kernel (by decide) hk, kernel (by decide) hk, kernel (by decide) hk, kernel (by decide) hk⟩,
    fun htry => ⟨sets_gtcmp a htry, fun hk _ => ⟨sets_bank a htry hk (by decide), sets_bank a htry hk (by decide),
      sets_bank a htry hk (by decide), sets_bank a htry hk (by decide), sets_hvec a htry hk, sets_gtime a htry hk⟩⟩, ?_⟩
  · exact State.cregRead_chkint (s := s) hg ▸ group (n := 0x010) (by decide) rfl hg
  · rintro hu i hi code (⟨rfl, hc⟩ | ⟨rfl, hc⟩)
    · exact does_creg_trap hu (cregTrap_of_unassigned (cregUse_of_unassigned hc) _ _) a d hi
    · obtain ⟨hk, hs⟩ := cregUse_of_kernelRegister hc
      exact does_creg_trap hu (cregTrap_of_kernel hk hs _) a d hi

end Sys2Proof.Machine
end

