-- ==== Sys2Proof/Proofs/ScalarResults.lean ====
section
/-! SUPPORT. Scalar results as integers (05 R114 to R118): sums, divisions, bitwise operations, order, counts, bit fields and immediates. -/

namespace Sys2Proof.Machine
open Claims

/-! ## The shapes of scalar instructions -/

theorem computes_bin {i : Instr} {s : State} {b a d : BitVec 6} {f : Word → Word → Word} {v : Word}
    (hi : exec i s = .next (s.bin b a d f)) (hv : f (s.rs a) (s.rs b) = v) : Computes i s [a, b] d v s.after :=
  computes_finish _ _ _ _ _ (hv ▸ hi)

theorem computes_un {i : Instr} {s : State} {a d : BitVec 6} {f : Word → Word} {v : Word}
    (hi : exec i s = .next (s.un a d f)) (hv : f (s.rs a) = v) : Computes i s [a] d v s.after :=
  computes_finish _ _ _ _ _ (hv ▸ hi)

theorem computes_imm {i : Instr} {s : State} {e : BitVec 13} {a d : BitVec 6} {f : Word → Word → Word} {v : Word}
    (hi : exec i s = .next (s.imm e a d f)) (hv : f (s.rs a) (wrapped e.toInt) = v) : Computes i s [a] d v s.after :=
  computes_finish _ _ _ _ _ (hv ▸ hi)

/-! ## Sums and products in integers (05 R114) -/

theorem wrapped_natCast (n : Nat) : wrapped n = BitVec.ofNat 64 n := BitVec.ofInt_natCast 64 n

theorem wrapped_sub (a b : Int) : wrapped (a - b) = wrapped a - wrapped b := by
  rw [sub_eq_add_neg, wrapped_add, BitVec.sub_eq_add_neg]
  exact congrArg (wrapped a + ·) BitVec.ofInt_neg

theorem wrapped_mul (a b : Int) : wrapped (a * b) = wrapped a * wrapped b := BitVec.ofInt_mul a b

theorem wrapped_toInt_self (v : Word) : wrapped v.toInt = v := BitVec.ofInt_toInt

/-- The upper half of a 128-bit pattern of an integer is the pattern of its quotient by `2 ^ 64`, rounded down. -/
theorem extractLsb'_ofInt_high (z : Int) : (BitVec.ofInt 128 z).extractLsb' 64 64 = wrapped (z / 2 ^ 64) := by
  apply BitVec.eq_of_toNat_eq
  simp only [wrapped, BitVec.extractLsb'_toNat, BitVec.toNat_ofInt, Nat.shiftRight_eq_div_pow]
  omega

theorem mulh_eq (x y : Word) : ((x.signExtend 128) * (y.signExtend 128)).extractLsb' 64 64 = wrapped (x.toInt * y.toInt / 2 ^ 64) := by
  rw [← extractLsb'_ofInt_high, BitVec.ofInt_mul]
  rfl

theorem mulhu_eq (x y : Word) : ((x.setWidth 128) * (y.setWidth 128)).extractLsb' 64 64 = wrapped (x.toNat * y.toNat / 2 ^ 64) := by
  have h (v : Word) : v.setWidth 128 = BitVec.ofInt 128 v.toNat := by
    rw [BitVec.ofInt_natCast, BitVec.ofNat_toNat]
  rw [← extractLsb'_ofInt_high, BitVec.ofInt_mul, h, h]

/-- Settles O1: each result is its integer, wrapped, and a product's upper half is that of the 128-bit pattern of its integer. -/
theorem scalarSums : Obligations.ScalarSums := by
  intro s b a d
  refine ⟨computes_bin (by rfl) ?_, computes_bin (by rfl) ?_, computes_bin (by rfl) ?_, computes_bin (by rfl) (mulh_eq ..), computes_bin (by rfl) (mulhu_eq ..)⟩
  · rw [wrapped_add, wrapped_toNat, wrapped_toNat]
  · rw [wrapped_sub, wrapped_toNat, wrapped_toNat]
  · rw [wrapped_mul, wrapped_toInt_self, wrapped_toInt_self]

/-! ## Division (05 R115) -/

theorem divS_eq (x y : Word) : divS x y = if y = 0 then BitVec.allOnes 64
    else if x.toInt = -(2 ^ 63) ∧ y.toInt = -1 then x else wrapped (x.toInt.tdiv y.toInt) := by
  unfold divS
  refine if_congr Iff.rfl rfl ?_
  split
  next h =>
    rw [h.2, Int.tdiv_neg, Int.tdiv_one, ← wrapped_toInt_self x, h.1]
    decide
  next => rfl

theorem remS_eq (x y : Word) : remS x y = if y = 0 then x
    else if x.toInt = -(2 ^ 63) ∧ y.toInt = -1 then 0 else wrapped (x.toInt - x.toInt.tdiv y.toInt * y.toInt) := by
  unfold remS
  refine if_congr Iff.rfl rfl ?_
  split
  next h =>
    rw [h.2, h.1]
    decide
  next => rw [Int.tmod_def, mul_comm]; rfl

theorem divU_eq (x y : Word) : divU x y = if y = 0 then BitVec.allOnes 64 else wrapped (x.toNat / y.toNat) := by
  rw [divU, ← Int.natCast_ediv, wrapped_natCast]

theorem remU_eq (x y : Word) : remU x y = if y = 0 then x else wrapped (x.toNat - x.toNat / y.toNat * y.toNat) := by
  have h : (x.toNat : Int) - x.toNat / y.toNat * y.toNat = (x.toNat % y.toNat : Nat) := by
    rw [Int.natCast_emod, Int.emod_def, mul_comm]
  rw [remU, h, wrapped_natCast]

/-- Settles O2: each quotient and remainder is the model's, whose corners are those of the rule. -/
theorem scalarDivision : Obligations.ScalarDivision := fun _ _ _ _ =>
  ⟨computes_bin rfl (divS_eq ..), computes_bin rfl (remS_eq ..), computes_bin rfl (divU_eq ..), computes_bin rfl (remU_eq ..)⟩

/-! ## Bitwise operations, shifts and order (05 R114) -/

/-- A shift reads the low six bits of its distance. -/
theorem toNat_extractLsb'_six (y : Word) : (y.extractLsb' 0 6).toNat = shift y := by
  simp [shift]

theorem shl_eq (x : Word) (n : Nat) : x <<< n = wrapped (x.toNat * 2 ^ n) := by
  have h : (x.toNat : Int) * 2 ^ n = (x.toNat * 2 ^ n : Nat) := by push_cast; rfl
  rw [h, wrapped_natCast]
  exact BitVec.eq_of_toNat_eq (by simp [Nat.shiftLeft_eq])

theorem shr_eq (x : Word) (n : Nat) : x >>> n = wrapped (x.toNat / 2 ^ n) := by
  have h : (x.toNat : Int) / 2 ^ n = (x.toNat / 2 ^ n : Nat) := by push_cast; rfl
  rw [h, wrapped_natCast]
  apply BitVec.eq_of_toNat_eq
  rw [BitVec.toNat_ofNat, Nat.mod_eq_of_lt (Nat.lt_of_le_of_lt (Nat.div_le_self ..) x.isLt)]
  simp [Nat.shiftRight_eq_div_pow]

theorem sra_eq (x : Word) (n : Nat) : x.sshiftRight n = wrapped (x.toInt / 2 ^ n) := by
  rw [BitVec.sshiftRight, Int.shiftRight_eq_div_pow]
  simp [wrapped]

theorem ite_slt_eq_min (x y : Word) : (if y.slt x then y else x) = wrapped (min x.toInt y.toInt) := by
  simp only [BitVec.slt, decide_eq_true_eq]
  split
  next h => rw [min_eq_right h.le, wrapped_toInt_self]
  next h => rw [min_eq_left (not_lt.mp h), wrapped_toInt_self]

theorem ite_slt_eq_max (x y : Word) : (if x.slt y then y else x) = wrapped (max x.toInt y.toInt) := by
  simp only [BitVec.slt, decide_eq_true_eq]
  split
  next h => rw [max_eq_right h.le, wrapped_toInt_self]
  next h => rw [max_eq_left (not_lt.mp h), wrapped_toInt_self]

theorem ite_ult_eq_min (x y : Word) : (if y.ult x then y else x) = wrapped (min x.toNat y.toNat) := by
  simp only [BitVec.ult, decide_eq_true_eq]
  split
  next h => rw [min_eq_right (by exact_mod_cast h.le), wrapped_toNat]
  next h => rw [min_eq_left (by exact_mod_cast not_lt.mp h), wrapped_toNat]

theorem ite_ult_eq_max (x y : Word) : (if x.ult y then y else x) = wrapped (max x.toNat y.toNat) := by
  simp only [BitVec.ult, decide_eq_true_eq]
  split
  next h => rw [max_eq_right (by exact_mod_cast h.le), wrapped_toNat]
  next h => rw [max_eq_left (by exact_mod_cast not_lt.mp h), wrapped_toNat]

theorem oneIf_eq_flag {c : Bool} {p : Prop} [Decidable p] (h : c = true ↔ p) : oneIf c = flag p := if_congr h rfl rfl

theorem slt_iff (x y : Word) : x.slt y = true ↔ x.toInt < y.toInt := by simp [BitVec.slt]

theorem ult_iff (x y : Word) : x.ult y = true ↔ x.toNat < y.toNat := by simp [BitVec.ult]

theorem scalarBitwise : ScalarBitwise := by
  intro s b a d
  refine ⟨computes_bin rfl ?_, computes_bin rfl ?_, computes_bin rfl ?_, computes_bin rfl ?_, computes_bin rfl ?_, computes_bin rfl ?_,
    computes_bin rfl ?_⟩
  · rw [← BitVec.toNat_and, BitVec.ofNat_toNat, BitVec.setWidth_eq]
  · rw [← BitVec.toNat_or, BitVec.ofNat_toNat, BitVec.setWidth_eq]
  · rw [← BitVec.toNat_xor, BitVec.ofNat_toNat, BitVec.setWidth_eq]
  · rw [← BitVec.toNat_not, ← BitVec.toNat_and, BitVec.ofNat_toNat, BitVec.setWidth_eq]
  · rw [toNat_extractLsb'_six, shl_eq]
  · rw [toNat_extractLsb'_six, shr_eq]
  · rw [toNat_extractLsb'_six, sra_eq]

theorem scalarOrder : ScalarOrder := fun _ _ _ _ =>
  ⟨computes_bin rfl (ite_slt_eq_min ..), computes_bin rfl (ite_ult_eq_min ..), computes_bin rfl (ite_slt_eq_max ..), computes_bin rfl (ite_ult_eq_max ..),
    computes_bin rfl (oneIf_eq_flag (slt_iff ..)), computes_bin rfl (oneIf_eq_flag (ult_iff ..)), computes_bin rfl (oneIf_eq_flag decide_eq_true_iff)⟩

/-- Settles O3: each result read as an integer. -/
theorem scalarBitwiseAndOrder : Obligations.ScalarBitwiseAndOrder := ⟨scalarBitwise, scalarOrder⟩

/-! ## Counts and fields (05 R114, R116) -/

theorem clzN_spec {n x : Nat} (hx : x < 2 ^ n) :
    (x = 0 ∧ clzN n x = n) ∨ (clzN n x < n ∧ 2 ^ (n - 1 - clzN n x) ≤ x ∧ x < 2 ^ (n - clzN n x)) := by
  unfold clzN
  rw [Nat.mod_eq_of_lt hx]
  by_cases h : x = 0
  · exact .inl ⟨h, if_pos h⟩
  · rw [if_neg h]
    have hlog : Nat.log2 x < n := (Nat.log2_lt h).mpr hx
    refine .inr ⟨by omega, ?_, ?_⟩
    · rw [show n - 1 - (n - 1 - x.log2) = x.log2 by omega]
      exact Nat.log2_self_le h
    · rw [show n - (n - 1 - x.log2) = x.log2 + 1 by omega]
      exact Nat.lt_log2_self

/-- No bit below the first one set. -/
theorem mod_two_pow_eq_zero {x n : Nat} (h : ∀ i < n, x.testBit i = false) : x % 2 ^ n = 0 := by
  apply Nat.eq_of_testBit_eq
  intro i
  rw [Nat.testBit_mod_two_pow, Nat.zero_testBit, Bool.and_eq_false_iff, decide_eq_false_iff_not]
  exact or_iff_not_imp_left.mpr fun hi => h i (not_not.mp hi)

theorem ctz64_spec (x : Word) :
    (x.toNat = 0 ∧ ctz64 x = 64) ∨ (ctz64 x < 64 ∧ x.toNat % 2 ^ ctz64 x = 0 ∧ x.toNat / 2 ^ ctz64 x % 2 = 1) := by
  unfold ctz64
  cases h : (List.range 64).find? fun i => x.getLsbD i with
  | none =>
    refine .inl ⟨?_, rfl⟩
    rw [← Nat.mod_eq_of_lt x.isLt]
    refine mod_two_pow_eq_zero fun i hi => ?_
    exact Bool.eq_false_of_not_eq_true (List.find?_eq_none.mp h i (List.mem_range.mpr hi))
  | some n =>
    rw [List.find?_range_eq_some] at h
    obtain ⟨hset, hmem, hbelow⟩ := h
    refine .inr ⟨List.mem_range.mp hmem, mod_two_pow_eq_zero fun i hi => Bool.not_eq_true' _ ▸ hbelow i hi, ?_⟩
    have : x.toNat.testBit n = true := hset
    simpa [Nat.testBit_eq_decide_div_mod_eq] using this

theorem popcN_eq_sum (n x : Nat) : popcN n x = ((List.range n).map fun i => x / 2 ^ i % 2).sum := by
  unfold popcN
  induction List.range n with
  | nil => rfl
  | cons i l ih =>
    rw [List.map_cons, List.sum_cons, ← ih, List.filter_cons]
    have := Nat.mod_two_eq_zero_or_one (x / 2 ^ i)
    rw [Nat.testBit_eq_decide_div_mod_eq]
    split <;> simp_all [Nat.add_comm]

theorem scalarCounts : ScalarCounts := fun s a _ =>
  ⟨⟨_, computes_un rfl rfl, clzN_spec (s.rs a).isLt⟩, ⟨_, computes_un rfl rfl, ctz64_spec (s.rs a)⟩, computes_un rfl (by rw [popcN_eq_sum])⟩

/-- 05 R116: the length of a field, limited to the word. -/
theorem fieldLen_eq (b : Word) : fieldLen b = min (b.toNat / 256 % 128) (64 - shift b) := by
  rw [fieldLen, toNat_extractLsb'_six]
  simp [Nat.shiftRight_eq_div_pow]

/-- The ones of a field of `n` bits at position `p`. -/
theorem testBit_fieldMask (n p i : Nat) : ((2 ^ n - 1) * 2 ^ p).testBit i = (decide (p ≤ i) && decide (i < p + n)) := by
  rw [Nat.mul_comm, Nat.testBit_two_pow_mul, Nat.testBit_two_pow_sub_one]
  by_cases h : p ≤ i
  · simp [h]; omega
  · simp [h]

theorem getLsbD_insertField (d a b : Word) {i : Nat} (hi : i < 64) : (insertField d a b).getLsbD i =
    if shift b ≤ i ∧ i < shift b + fieldLen b then a.getLsbD (i - shift b) else d.getLsbD i := by
  have hm : (BitVec.ofNat 64 ((2 ^ fieldLen b - 1) * 2 ^ shift b)).getLsbD i = (decide (shift b ≤ i) && decide (i < shift b + fieldLen b)) := by
    rw [BitVec.getLsbD_ofNat, testBit_fieldMask]
    simp [hi]
  rw [insertField, toNat_extractLsb'_six, BitVec.getLsbD_or, BitVec.getLsbD_and, BitVec.getLsbD_and, BitVec.getLsbD_not, BitVec.getLsbD_shiftLeft, hm]
  by_cases h1 : shift b ≤ i <;> by_cases h2 : i < shift b + fieldLen b <;> simp [hi, h1, h2]

theorem scalarBitFields : ScalarBitFields := by
  intro s b a d
  refine ⟨computes_bin rfl ?_, _, computes_finish _ _ _ _ _ rfl, fun i hi => ?_, by decide⟩
  · rw [extractField, fieldLen_eq, toNat_extractLsb'_six]
    rfl
  · rw [getLsbD_insertField _ _ _ hi, fieldLen_eq]
    rfl

/-- Settles O4: each count by the first set bit found, or by the bits one after another, and each field bit by bit. -/
theorem scalarCountsAndFields : Obligations.ScalarCountsAndFields := ⟨scalarCounts, scalarBitFields⟩

/-! ## Immediates (05 R117, R118) -/

/-- 03 R61, 05 R117: the upper bits of a shift word are reserved. -/
theorem decodeScalar_shift_reserved (w : BitVec 32) (h : w.toNat % 128 = 6 ∨ w.toNat % 128 = 7 ∨ w.toNat % 128 = 8)
    (hw : w.toNat / 2 ^ 25 ≠ 0) (j : Instr) : decodeScalar w ≠ .ok j := by
  have hmop : (field w 0 7).toNat = w.toNat % 128 := by simp [field]
  have hres : (field w 25 7).toNat ≠ 0 := by
    have := w.isLt
    simp only [field, BitVec.toNat_ofNat]
    omega
  have hnone : unpackScalar w = none := by
    rw [unpackScalar, hmop]
    rcases h with h | h | h <;> rw [h] <;> exact if_neg hres
  rw [decodeScalar, hnone]
  exact fun h => nomatch h

theorem upper_eq (u : BitVec 19) : u.signExtend 64 * 8192 = wrapped (u.toInt * 8192) := (wrapped_mul u.toInt 8192).symm

/-- Settles O5: each result read as an integer, and a shift word's reserved bits as a field that decoding refuses. -/
theorem scalarImmediates : Obligations.ScalarImmediates := by
  intro s e h u a d
  refine ⟨computes_imm rfl ?_, computes_imm rfl rfl, computes_imm rfl rfl, computes_imm rfl rfl, computes_un rfl (shl_eq ..),
    computes_un rfl (shr_eq ..), computes_un rfl (sra_eq ..), computes_imm rfl (oneIf_eq_flag ?_), computes_imm rfl (oneIf_eq_flag (ult_iff ..)),
    computes_finish _ _ [] _ _ ?_, computes_finish _ _ [] _ _ ?_, decodeScalar_shift_reserved⟩
  · rw [wrapped_add, wrapped_toInt_self]
  · rw [slt_iff, wrapped_toInt, BitVec.toInt_signExtend_of_le (by decide)]
  · rw [← upper_eq]; rfl
  · rw [wrapped_add, ← upper_eq, wrapped_toNat]; rfl

end Sys2Proof.Machine
end

