-- ==== Sys2Proof/Proofs/RegistersRead.lean ====
section
/-! SUPPORT. What reading scalar registers leaves of the machine (03 R91, 04 R99), and an instruction that then changes its stream and moves its PC. -/

namespace Sys2Proof.Machine
open Claims

/-! ## Before an instruction acts -/

/-- `t` is `s` but for the record of one stream and event counters. Unlike `OnlyStream` it holds also where the stream is not listed. -/
structure Near (g : Nat) (s t : State) : Prop where
  apart : t.apart = s.apart
  groups : ∀ y, KMap.put g y t.groups = KMap.put g y s.groups
  cores : CountersOnly s t

namespace Near

theorem refl (g : Nat) (s : State) : Near g s s := ⟨rfl, fun _ => rfl, .refl s⟩

theorem onGrp {g : Nat} {s t : State} (h : Near g s t) (f : Group → Group) : Near g s (t.onGrp g f) :=
  ⟨h.apart, fun y => (KMap.put_put ..).trans (h.groups y), h.cores⟩

theorem count {g : Nat} {s t : State} (h : Near g s t) (k code n : Nat) : Near g s (t.count k code n) where
  apart := (t.apart_count k code n).trans h.apart
  groups y := by rw [State.groups_count]; exact h.groups y
  cores := h.cores.trans (State.coreAt_count t k code n)

theorem trans {g : Nat} {s t u : State} (h : Near g s t) (k : Near g t u) : Near g s u :=
  ⟨k.apart.trans h.apart, fun y => (k.groups y).trans (h.groups y), h.cores.trans k.cores⟩

theorem memoryKept {g : Nat} {s t : State} (h : Near g s t) : MemoryKept s t :=
  .of_eq (s := s.apart) (t := t.apart) (congrArg State.mem h.apart) (congrArg State.poison h.apart)

theorem grp_other {g k : Nat} {s t : State} (h : Near g s t) (n : k ≠ g) : t.grp k = s.grp k := by
  have := congrArg (KMap.read {} k) (h.groups {})
  rwa [KMap.read_put_other _ n, KMap.read_put_other _ n] at this

theorem tm {g : Nat} {s t : State} (h : Near g s t) (n : Nat) : t.tm n = s.tm n := by
  have ht : t.apart.teams = s.apart.teams := congrArg State.teams h.apart
  exact congrArg (KMap.read {} n) ht

end Near

theorem OnlyStream.near {g : Nat} {s t : State} (h : OnlyStream g s t) : Near g s t := by
  obtain ⟨ha, hg, hc, -⟩ := h
  exact ⟨ha, fun y => by rw [hg, KMap.put_put], hc⟩

/-- A change of the stream that comes after keeps the rest as it was before. -/
theorem Near.then {g : Nat} {s t u : State} (h : Near g s t) (k : OnlyStream g t u) : OnlyStream g s u := by
  have hn := h.trans k.near
  obtain ⟨-, hg, -, -⟩ := k
  exact ⟨hn.apart, hg.trans (h.groups _), hn.cores, hn.memoryKept⟩

/-- Of the stream whose step it is only `c.chkint` has changed, to `c`: the instruction is still to move it. -/
structure Poised (s t : State) (c : BitVec 32) : Prop where
  cur : t.cur = s.cur
  grp : t.grp s.me = { own s with chkint := c }

theorem Poised.me {s t : State} {c : BitVec 32} (h : Poised s t c) : t.me = s.me := by rw [State.me, State.me, h.cur]

theorem Poised.trans {s t u : State} {b c : BitVec 32} (h : Poised s t b) (k : Poised t u c) : Poised s u c where
  cur := k.cur.trans h.cur
  grp := by
    have ho : own t = { own s with chkint := b } := by rw [← h.grp, ← h.me]; rfl
    have hg := k.grp
    rw [h.me, ho] at hg
    exact hg

/-- And nothing else has changed, but events are counted: what reading registers leaves. -/
structure Noted (s t : State) (c : BitVec 32) : Prop extends Poised s t c where
  near : Near s.me s t

namespace Noted

theorem refl (s : State) : Noted s s (own s).chkint := ⟨⟨rfl, rfl⟩, .refl ..⟩

theorem trans {s t u : State} {b c : BitVec 32} (h : Noted s t b) (k : Noted t u c) : Noted s u c :=
  ⟨h.toPoised.trans k.toPoised, h.near.trans (h.me ▸ k.near)⟩

theorem chk {s t : State} {c : BitVec 32} (h : Noted s t c) (b : BitVec 32) : Noted s (t.onGrp s.me fun x => x.chk b) (c ||| b) where
  near := h.near.onGrp _
  cur := h.cur
  grp := by rw [State.grp_onGrp, h.grp]; rfl

theorem count {s t : State} {c : BitVec 32} (h : Noted s t c) (g code n : Nat) : Noted s (t.count g code n) c where
  near := h.near.count ..
  cur := (t.cur_count ..).trans h.cur
  grp := (t.grp_count ..).trans h.grp

theorem ite {s t u : State} {b c : BitVec 32} (p : Prop) [Decidable p] (h : Noted s t b) (k : Noted s u c) :
    Noted s (if p then t else u) (if p then b else c) := by
  split
  · exact h
  · exact k

/-- 09 R226: the consumption of a poisoned sector. -/
theorem consumed {s t : State} {c : BitVec 32} (h : Noted s t c) : Noted s (t.consumed s.me false) (c ||| scons) :=
  (h.chk scons).count ..

/-- 03 R91: registers read. -/
theorem uses {s : State} (rs : List (BitVec 6)) :
    Noted s (s.uses rs) (if rs.any fun r => (own s).sBad r.toNat then (own s).chkint ||| scons else (own s).chkint) :=
  .ite _ (((Noted.refl s).chk scons).count ..) (.refl s)

end Noted

/-- 04 R99: `c.chkint` once registers `as`, used as addresses, and `rs` beside them are read. -/
def Group.noted (x : Group) (as rs : List (BitVec 6)) : BitVec 32 :=
  (if (as ++ rs).any fun r => x.sBad r.toNat then x.chkint ||| 2 else x.chkint) ||| (if as.any fun r => x.sBad r.toNat then 16 else 0)

theorem Noted.usesAt {s : State} (as rs : List (BitVec 6)) : Noted s (s.usesAt as rs) ((own s).noted as rs) := by
  have h := Noted.uses (s := s) (as ++ rs)
  have hc : (own s).noted as rs = if as.any fun r => (own s).sBad r.toNat then _ else _ := apply_ite (_ ||| ·) _ 16 0#32
  rw [hc, BitVec.or_zero]
  exact .ite _ (h.chk paddr) h

theorem Noted.usesAddr {s : State} (a : BitVec 6) (rs : List (BitVec 6)) : Noted s (s.usesAddr a rs) ((own s).noted [a] rs) := .usesAt [a] rs

/-! ## A scalar instruction that has consumed its registers -/

theorem Group.sSet_eq (x : Group) (i : Nat) (v : Word) : x.sSet i v = { x with s := (x.sSet i v).s, sPoison := (x.sSet i v).sPoison } := by
  unfold Group.sSet
  split <;> rfl

theorem WroteNone.of_eq {x y : Group} (hs : y.s = x.s) (hp : y.sPoison = x.sPoison) : WroteNone x y := fun r => by
  simp only [Group.sGet, Group.sBad, hs, hp, and_self]

/-- The destination of an instruction whose registers were consumed before. -/
theorem Group.wrote_consumed (x : Group) (c : BitVec 32) (d : BitVec 6) (v pc : Word) :
    Wrote x { ({ x with chkint := c } : Group).sSet d.toNat v with pc, stall := 0 } d v :=
  Group.wrote_sSet { x with chkint := c } d v

namespace Poised

variable {s t : State} {c : BitVec 32} (h : Poised s t c)
include h

/-- What a change of the stream's record, and the move of its PC, leave of the stream. -/
theorem grp_onGrp_goto (f : Group → Group) (pc : Word) :
    ((t.onGrp s.me f).goto pc).grp s.me = ({ f { own s with chkint := c } with pc, stall := 0 } : Group) := by
  have hg := (t.onGrp s.me f).grp_goto pc
  rw [State.me_onGrp, h.me, State.grp_onGrp, h.grp] at hg
  exact hg

theorem onlyStream_onGrp_goto (f : Group → Group) (pc : Word) : OnlyStream s.me t ((t.onGrp s.me f).goto pc) :=
  h.me ▸ OnlyStream.goto (.inl (.of_onGrp t t.me f)) rfl pc

theorem onGrp_nextPc {f : Group → Group} (hf : ∀ x, (f x).pc = x.pc) : (t.onGrp s.me f).nextPc = (t.onGrp s.me f).goto s.after := by
  rw [State.nextPc, State.me_onGrp, h.me, State.grp_onGrp, hf, h.grp]
  rfl

theorem setS_eq (d : BitVec 6) (v : Word) : t.setS d v = t.onGrp s.me fun x => x.sSet d.toNat v := by rw [State.setS, h.me]

theorem grp_nextPc : t.nextPc.grp s.me = ({ own s with chkint := c, pc := s.after, stall := 0 } : Group) := by
  have hg := t.grp_goto ((t.grp t.me).pc + 4)
  rw [h.me, h.grp] at hg
  rw [State.nextPc, h.me, h.grp, hg]
  rfl

theorem onlyStream_nextPc : OnlyStream s.me t t.nextPc := h.me ▸ OnlyStream.goto (.inr rfl) rfl _

/-- The end of an instruction that writes no register. -/
theorem moved : (t.nextPc.grp s.me).pc = s.after ∧ WroteNone (own s) (t.nextPc.grp s.me) := by
  rw [h.grp_nextPc]
  exact ⟨rfl, .of_eq rfl rfl⟩

theorem finish_eq (d : BitVec 6) (v : Word) : t.finish d v = (t.onGrp s.me fun x => x.sSet d.toNat v).goto s.after := by
  rw [State.finish, h.setS_eq, h.onGrp_nextPc fun x => by rw [Group.sSet_eq]]

theorem onlyStream_finish (d : BitVec 6) (v : Word) : OnlyStream s.me t (t.finish d v) := by
  rw [h.finish_eq]
  exact h.onlyStream_onGrp_goto ..

/-- The end of an instruction that writes its destination. -/
theorem went (d : BitVec 6) (v : Word) : Went s (t.finish d v) d v := by
  unfold Went
  rw [h.finish_eq, h.grp_onGrp_goto]
  exact ⟨Group.wrote_consumed .., rfl⟩

end Poised

theorem computesAt_of {i : Instr} {s : State} {as rs : List (BitVec 6)} {d : BitVec 6} {v pc : Word}
    (hi : exec i s = .next (((s.usesAt as rs).setS d v).goto pc)) : ComputesAt i s as rs d v pc := by
  have h := Noted.usesAt (s := s) as rs
  rw [h.setS_eq] at hi
  have hg := h.grp_onGrp_goto (fun x => x.sSet d.toNat v) pc
  refine ⟨_, hi, h.near.then (h.onlyStream_onGrp_goto ..), ?_, ?_, ?_, ?_⟩ <;> unfold own at hg <;> rw [hg]
  · unfold ScalarOnly
    rw [Group.sSet_eq]
  · exact Group.wrote_consumed ..
  · unfold ConsumedAt
    rw [Group.sSet_eq]
    rfl

end Sys2Proof.Machine
end

