-- ==== Sys2Proof/Proofs/ScalarJumps.lean ====
section
/-! SUPPORT. Branches and jumps (05 R119, R120), misaligned accesses (R121), and stores (R122). -/

namespace Sys2Proof.Machine
open Claims

/-! ## Branches and jumps (05 R119, R120) -/

/-- 03 R59: the target of a branch or jump. -/
theorem target_eq {n : Nat} (pc : Word) (i : BitVec n) : pc + 4 * i.signExtend 64 = wrapped (pc.toNat + 4 * i.toInt) := by
  rw [wrapped_add, wrapped_toNat, wrapped_mul, wrapped_toInt]
  rfl

theorem moves_branch {j : Instr} {s : State} {i : BitVec 13} {b a : BitVec 6} {taken : Word → Word → Bool} {p : Prop} [Decidable p]
    (hj : exec j s = .next (s.branch i b a taken)) (hp : taken (s.rs a) (s.rs b) = true ↔ p) :
    Moves j s [a, b] (if p then wrapped ((s.grp s.me).pc.toNat + 4 * i.toInt) else s.after) := by
  apply moves_of
  rw [hj, State.branch, target_eq]
  split
  next h => rw [if_pos (hp.mp h)]
  next h => rw [if_neg (mt hp.mpr h)]; rfl

theorem scalarBranches : ScalarBranches := by
  intro s i b a
  refine ⟨moves_branch rfl decide_eq_true_iff, moves_branch rfl decide_eq_true_iff, moves_branch rfl (slt_iff ..), moves_branch rfl ?_,
    moves_branch rfl (ult_iff ..), moves_branch rfl ?_⟩
  · rw [Bool.not_eq_true', Bool.eq_false_iff, Ne, slt_iff, not_lt]
  · rw [Bool.not_eq_true', Bool.eq_false_iff, Ne, ult_iff, not_lt]

/-- 05 R120: the target of `jalr`. -/
theorem jalr_target_eq (x : Word) (e : BitVec 13) : x + e.signExtend 64 = wrapped (x.toNat + e.toInt) := by
  rw [wrapped_add, wrapped_toNat, wrapped_toInt]

theorem scalarJumps : ScalarJumps := by
  intro s i e a d
  refine ⟨computes_of _ _ [] _ _ _ ?_, fun h => computesAt_of ?_⟩
  · rw [← target_eq]
    rfl
  · rw [← jalr_target_eq] at h ⊢
    change execJalr _ _ _ s = _
    rw [execJalr, if_neg (not_not.mpr h)]
    rfl

/-- Settles O6: each comparison picks the branch's target, and a jump writes its link after its target is read. -/
theorem scalarControlFlow : Obligations.ScalarControlFlow := ⟨scalarBranches, scalarJumps⟩

/-! ## Misaligned accesses and jumps (05 R120, R121) -/

/-- 08 R197, R198: a precise trap in user mode of an instruction that has consumed its registers. -/
theorem Noted.trapS {s t : State} {c : BitVec 32} (h : Noted s t c) (hu : UserMode s) (cause : Cause) (addr : Word) :
    Trapped s (t.trapS cause addr) cause.code addr ∧ WroteNone (own s) ((t.trapS cause addr).grp s.me) ∧ OnlyStream s.me s (t.trapS cause addr) := by
  have hown : own t = { own s with chkint := c } := by rw [← h.grp, ← h.me]; rfl
  have hteam : t.gTeam s.me = s.gTeam s.me := h.near.tm _
  obtain ⟨honly, henter⟩ := State.trapS_enters (s := t) (by unfold UserMode; rw [hown]; exact hu) cause addr
  rw [h.me] at honly henter
  unfold Entered at henter
  rw [hown, hteam] at henter
  refine ⟨?_, ?_, ?_⟩
  · unfold Trapped
    rw [henter]
    exact ⟨rfl, rfl, rfl, rfl, rfl, rfl⟩
  · rw [henter]
    exact .of_eq rfl rfl
  · exact h.near.then honly

theorem misalignedAccessTraps : MisalignedAccessTraps := by
  intro s o h x z a d va hu hva i hi
  have traps (rs : List (BitVec 6)) (hx : exec i s = .next ((s.usesAddr a rs).trapS .misalign va)) :
      Does i s fun t => Trapped s t 4 va ∧ WroteNone (own s) (t.grp s.me) ∧ OnlyStream s.me s t :=
    ⟨_, hx, (Noted.usesAddr a rs).trapS hu .misalign va⟩
  simp only [List.mem_cons, List.not_mem_nil, or_false] at hi
  rcases hi with rfl | rfl | rfl | rfl
  · exact traps [] (if_pos hva)
  · exact traps [d] (if_pos hva)
  · exact traps [] (if_pos hva)
  · exact traps [d] (if_pos hva)

theorem misalignedJumpTraps : MisalignedJumpTraps := by
  intro s e a d target hu h
  refine ⟨_, ?_, (Noted.usesAddr a []).trapS hu .misalign target⟩
  have ht : s.rs a + e.signExtend 64 = target := jalr_target_eq ..
  change execJalr _ _ _ s = _
  rw [execJalr, ht]
  exact if_pos h

/-- Settles O11: each instruction takes its trap once its registers are consumed, and in user mode that trap enters the handler. -/
theorem misalignedTraps : Obligations.MisalignedTraps := ⟨misalignedAccessTraps, misalignedJumpTraps⟩

/-! ## Stores (05 R122, R124) -/

/-- Settles O8: a store outside `try` changes its stream alone, which takes the operand-log entry and queues the store. -/
theorem scalarStore : Obligations.ScalarStore := by
  intro s o h z a r e va n hal hva htry hlog
  have hn := Noted.usesAddr (s := s) a [r]
  let q : MemOp := { kind := .store, lane := false, slot := 0, size := n, accs := [{ lane := 16, va, data := (s.rs r).toNat % 2 ^ (8 * n) }],
                     hint := h.toNat, kernel := (own s).kernel }
  have hx : exec (.st o h z a r) s = .next (((s.usesAddr a [r]).onGrp s.me fun y => y.enterStore e q).goto s.after) := by
    rw [← hn.onGrp_nextPc (f := fun y => y.enterStore e q) fun _ => rfl]
    change execSt _ _ _ _ _ s = _
    unfold own at htry hlog
    simp only [execSt]
    rw [if_neg (not_not.mpr hal), if_neg (not_le.mpr hva), State.scalarStore]
    simp only [htry, hlog, Bool.false_eq_true, if_false]
    rfl
  have hg := hn.grp_onGrp_goto (fun y => y.enterStore e q) s.after
  refine ⟨_, hx, ?_, ?_, ?_, ?_, hn.near.then (hn.onlyStream_onGrp_goto ..)⟩
  · rw [hg]
    exact ⟨{ q with log := some e, age := (own s).taken }, rfl, rfl, rfl, rfl, rfl⟩
  · rw [hg]
    unfold Group.enterStore Group.takeLog
    rw [KMap.find_put_same]
    rfl
  · rw [hg]
    exact .of_eq rfl rfl
  · rw [hg]

end Sys2Proof.Machine
end

