-- ==== Sys2Proof/Proofs/MemoryFrames.lean ====
section
/-! SUPPORT. What caches, TLBs and units leave of device memory (09 R230 to R235, 16 R386), and what a translation reads (R385). -/

namespace Sys2Proof.Machine
open Claims

/-! ## L2 slices -/

section
variable (s : State) {P : State → Prop} (hleave : ∀ u x m, P u → P (u.leaveL2 x m)) (hl2 : ∀ (u : State) l2, P u → P { u with l2 })
include hleave hl2

/-- 09 R235: a change of an L2 line writes back sectors of it. -/
theorem State.onL2_keeps (h : P s) (n : Nat) (f : L2Line → Option L2Line) : P (s.onL2 n f) := by
  unfold State.onL2
  refine hl2 _ _ ?_
  split
  · exact h
  · split
    · exact hleave _ _ _ h
    · exact h

/-- 09 R230 to R232: an access of a line counts its decoding, and writes back the line that leaves for it. -/
theorem State.touchL2_keeps (hcount : ∀ u pa, P u → P (u.countDecode pa)) (h : P s) (p pa hint : Nat) (w : Bool) : P (s.touchL2 p pa hint w) := by
  have hread (b : Bool) : P (if b = true then s else s.countDecode pa) := by
    split
    · exact h
    · exact hcount _ _ h
  unfold State.touchL2
  dsimp only
  refine hl2 _ _ ?_
  split
  · exact hread _
  · split
    next out _ _ =>
      split
      · exact hread _
      · cases lineIn out (KMap.read [] (s.l2Key pa) s.l2) with
        | none => exact hread _
        | some y => exact hleave _ _ _ (hread _)
    · exact hread _

end

/-! ## Memory kept -/

/-- `MemoryKept`, in a form that one change after another keeps. -/
structure KeepsMemory (s t : State) : Prop where
  mem : t.mem = s.mem
  clean : s.beneath = [] → t.poison = s.poison ∧ t.beneath = []

theorem KeepsMemory.memoryKept {s t : State} (h : KeepsMemory s t) : MemoryKept s t :=
  ⟨fun a => by rw [State.byteAt, State.byteAt, h.mem], fun hb a => by rw [State.badAt, State.badAt, (h.clean hb).1]⟩

namespace KeepsMemory

theorem of_eq {s t : State} (hm : t.mem = s.mem) (hp : t.poison = s.poison) (hb : t.beneath = s.beneath) : KeepsMemory s t :=
  ⟨hm, fun h => ⟨hp, hb.trans h⟩⟩

theorem refl (s : State) : KeepsMemory s s := of_eq rfl rfl rfl

theorem trans {s t u : State} (h : KeepsMemory s t) (k : KeepsMemory t u) : KeepsMemory s u where
  mem := k.mem.trans h.mem
  clean hb :=
    have ⟨hp, ht⟩ := h.clean hb
    have ⟨kp, ku⟩ := k.clean ht
    ⟨kp.trans hp, ku⟩

theorem ite {s t u : State} (c : Prop) [Decidable c] (h : KeepsMemory s t) (k : KeepsMemory s u) : KeepsMemory s (if c then t else u) := by
  split
  · exact h
  · exact k

theorem of_near {g : Nat} {s t : State} (h : Near g s t) : KeepsMemory s t := by
  have hm : t.apart.mem = s.apart.mem := congrArg State.mem h.apart
  have hp : t.apart.poison = s.apart.poison := congrArg State.poison h.apart
  have hb : t.apart.beneath = s.apart.beneath := congrArg State.beneath h.apart
  exact of_eq hm hp hb

theorem of_onlyStream {g : Nat} {s t : State} (h : OnlyStream g s t) : KeepsMemory s t := of_near h.near

variable (s : State)

/-! ## The L2 slices -/

theorem leaveL2 (x : L2Line) (m : BitVec 4) : KeepsMemory s (s.leaveL2 x m) where
  mem := by
    unfold State.leaveL2
    split
    next => rfl
    next hb =>
      clear hb
      generalize List.range 4 = l
      induction l generalizing s with
      | nil => rfl
      | cons i l ih =>
        refine (ih _).trans ?_
        dsimp only
        split <;> rfl
  clean hb := by
    have h : s.leaveL2 x m = s := if_pos (by rw [hb]; rfl)
    rw [h]
    exact ⟨rfl, hb⟩

theorem onL2 (n : Nat) (f : L2Line → Option L2Line) : KeepsMemory s (s.onL2 n f) :=
  s.onL2_keeps (P := KeepsMemory s) (fun _ _ _ h => h.trans (.leaveL2 ..)) (fun _ _ h => h.trans (.of_eq rfl rfl rfl)) (.refl s) n f

theorem dropL2 (pa : Nat) : KeepsMemory s (s.dropL2 pa) := .onL2 s ..

theorem countDecode (pa : Nat) : KeepsMemory s (s.countDecode pa) := .ite _ (.refl s) (.ite _ (.refl s) (.of_eq rfl rfl rfl))

theorem touchL2 (p pa hint : Nat) (w : Bool) : KeepsMemory s (s.touchL2 p pa hint w) :=
  s.touchL2_keeps (P := KeepsMemory s) (fun _ _ _ h => h.trans (.leaveL2 ..)) (fun _ _ h => h.trans (.of_eq rfl rfl rfl))
    (fun _ _ h => h.trans (.countDecode ..)) (.refl s) p pa hint w

/-! ## Cores and units -/

theorem count (g code n : Nat) : KeepsMemory s (s.count g code n) := by
  rw [State.count_eq]
  exact .of_eq rfl rfl rfl

theorem onL1 (k : Option Nat) (f : Core → Core) : KeepsMemory s (s.onL1 k f) := by
  cases k with
  | none => exact .refl s
  | some k => exact .of_eq rfl rfl rfl

theorem fillTlb (w : Who) (va : Nat) (l : Leaf) : KeepsMemory s (s.fillTlb w va l) := by
  unfold State.fillTlb
  cases w.core with
  | none =>
    cases w.die with
    | none => exact .refl s
    | some d => exact .ite _ (.refl s) (.of_eq rfl rfl rfl)
  | some k =>
    have h (f : Core → Core) (p : Prop) [Decidable p] : KeepsMemory s (if p then s else s.onCore k f) := .ite _ (.refl s) (.of_eq rfl rfl rfl)
    cases w.die with
    | none => exact h ..
    | some d => exact .ite _ (h ..) (.trans (h _ _) (.of_eq rfl rfl rfl))

theorem touch (w : Who) (va : Nat) : KeepsMemory s (s.touch w va) := by
  unfold State.touch
  split
  · exact .ite _ (.fillTlb s ..) (.refl s)
  · exact .refl s

theorem served (x : Xlat) : KeepsMemory s (s.served x) := .ite _ (.of_eq rfl rfl rfl) (.refl s)

theorem unwait (g : Nat) (x : Xlat) : KeepsMemory s (s.unwait g x) := .ite _ (.of_eq rfl rfl rfl) (.refl s)

theorem countRequest (g : Nat) (x : Xlat) (b : Bool) : KeepsMemory s (s.countRequest g x b) :=
  .ite _ (.refl s) ((KeepsMemory.count s ..).trans (.count ..))

theorem acquire (g scope : Nat) : KeepsMemory s (s.acquire g scope) := by
  rw [State.acquire_eq]
  exact .of_eq rfl rfl rfl

end KeepsMemory

/-! ## An instruction that goes on -/

theorem Poised.of_roster {s t : State} (h : t.roster = s.roster) : Poised s t (own s).chkint where
  cur := congrArg Roster.cur h
  grp := by
    have hg := State.groups_of_roster h
    rw [State.grp, hg]
    rfl

theorem State.grp_of_roster {s t : State} (h : t.roster = s.roster) (g : Nat) : t.grp g = s.grp g := by
  rw [State.grp, State.groups_of_roster h]
  rfl

theorem Poised.kernel_nextPc {s t : State} {c : BitVec 32} (h : Poised s t c) : (t.nextPc.grp s.me).kernel = (own s).kernel := by
  rw [h.grp_nextPc]

/-- An instruction that has changed no memory and no other stream goes on without writing a register. -/
theorem Poised.goesOn {s t : State} {c : BitVec 32} (h : Poised s t c) (hm : KeepsMemory s t) (ho : ∀ g, g ≠ s.me → t.grp g = s.grp g) :
    (t.nextPc.grp s.me).pc = s.after ∧ WroteNone (own s) (t.nextPc.grp s.me) ∧ MemoryKept s t.nextPc ∧ ∀ g, g ≠ s.me → t.nextPc.grp g = s.grp g :=
  ⟨h.moved.1, h.moved.2, (hm.trans (.of_onlyStream h.onlyStream_nextPc)).memoryKept,
    fun g hg => (h.onlyStream_nextPc.grp_other hg).trans (ho g hg)⟩

end Sys2Proof.Machine
end

