-- ==== Sys2Proof/Proofs/Translations.lean ====
section
/-! SUPPORT. What a translation reads (15 R365, 16 R382 to R386): tables, token entries and TLBs, whatever streams and event counters do. -/

namespace Sys2Proof.Machine
open Claims

/-! ## Memory, tables and tokens are read beside streams and cores -/

section
variable (s : State)

theorem State.bad_apart (a : Nat) : s.apart.bad a = s.bad a := rfl

theorem State.loadBytes_apart (a n : Nat) : s.apart.loadBytes a n = s.loadBytes a n := rfl

theorem State.tableEntry_apart (a : Nat) : s.apart.tableEntry a = s.tableEntry a := by
  unfold State.tableEntry
  rw [State.bad_apart, State.loadBytes_apart]

theorem State.walkFrom_apart (va lvl base : Nat) : s.apart.walkFrom va lvl base = s.walkFrom va lvl base := by
  induction lvl generalizing base with
  | zero => rfl
  | succ n ih =>
    unfold State.walkFrom
    simp only [State.tableEntry_apart, ih]
    rfl

theorem State.tokRaw_apart (id : Nat) : s.apart.tokRaw id = s.tokRaw id := by
  unfold State.tokRaw
  rw [State.loadBytes_apart]
  rfl

theorem State.tok_apart (id : Nat) : s.apart.tok id = s.tok id := by
  unfold State.tok
  rw [State.tokRaw_apart, State.bad_apart]
  rfl

theorem State.covering_apart (r pa space : Nat) : s.apart.covering r pa space = s.covering r pa space := by
  have hraw : s.apart.tokRaw = s.tokRaw := funext s.tokRaw_apart
  have htok : s.apart.tok = s.tok := funext s.tok_apart
  have hex : s.apart.tokExists = s.tokExists := rfl
  unfold State.covering
  rw [hraw, htok, hex]
end

theorem CountersOnly.tlb {s t : State} (h : CountersOnly s t) (k : Nat) : (t.coreAt k).tlb = (s.coreAt k).tlb := by rw [h k]

section
variable {g : Nat} {s t : State} (h : Near g s t)
include h

/-- What reads neither streams nor cores reads the same. -/
theorem Near.congr {α : Sort _} (f : State → α) (hf : ∀ u : State, f u.apart = f u) : f t = f s := by rw [← hf t, h.apart, hf]

/-- 16 R386: a leaf is found in a TLB or walked to in memory. -/
theorem Near.leafFor (w : Who) (va : Nat) : t.leafFor w va = s.leafFor w va := by
  have hroot := h.congr (fun u => (u.partAt w.part).pptroot) fun _ => rfl
  have hwalk : t.walk w.part va = s.walk w.part va := by
    rw [State.walk, hroot]
    exact h.congr (fun u => u.walkFrom va 3 _) fun u => u.walkFrom_apart ..
  have hl2 := h.congr State.l2tlb fun _ => rfl
  unfold State.leafFor
  simp only [h.cores.tlb, hwalk, hl2]

/-- 16 R385, 15 R365: nothing that a translation reads has changed. -/
theorem Near.xlate (w : Who) (va : Nat) (k : AccKind) : t.xlate w va k = s.xlate w va k := by
  have hcov (r pa space : Nat) := h.congr (fun u => u.covering r pa space) fun u => u.covering_apart ..
  have htok (id : Nat) := h.congr (fun u => u.tok id) fun u => u.tok_apart id
  have hlinks := h.congr State.links fun _ => rfl
  unfold State.xlate
  simp only [h.leafFor, hcov, htok, hlinks]

theorem Near.whoIs (n : Nat) (kernel : Bool) : t.whoIs n kernel = s.whoIs n kernel := h.congr (fun u => u.whoIs n kernel) fun _ => rfl

end

end Sys2Proof.Machine
end

