-- ==== Sys2Proof/Proofs/ScalarScratchpad.lean ====
section
/-! SUPPORT. Scalar scratchpad accesses (05 R123, R124, 09 R226). -/

namespace Sys2Proof.Machine
open Claims

/-! ## Values and bytes -/

/-- A value read back as its extension (03 R89). -/
theorem extended_eq (x : BitVec 1) (n v : Nat) : BitVec.ofInt 64 (if x = 1#1 then sext v (8 * n) else (v : Int)) = extended x n v := by
  unfold extended
  split
  · rfl
  · exact wrapped_natCast v

theorem Group.tr_eq_none {x : Group} (h : x.inTry = false) : x.tr = none := by
  unfold Group.inTry at h
  exact Option.isNone_iff_eq_none.mp (by simpa using h)

/-- 08 R209: outside `try` nothing is buffered over a scratchpad. -/
theorem State.bufferedSpad_outside {s : State} {g : Nat} (h : (s.grp g).inTry = false) (lane team o : Nat) (bs : List Byte) :
    s.bufferedSpad g lane team o bs = bs := by
  unfold State.bufferedSpad
  rw [Group.tr_eq_none h]

theorem getElem?_bytesOfNat {n j : Nat} (x : Nat) (h : j < n) : (bytesOfNat n x)[j]? = some (BitVec.ofNat 8 (x / 256 ^ j)) := by
  induction n generalizing x j with
  | zero => omega
  | succ n ih =>
    cases j with
    | zero => simp [bytesOfNat]
    | succ j => rw [bytesOfNat, List.getElem?_cons_succ, ih _ (by omega), Nat.div_div_eq_div_mul, pow_succ']

/-- A byte of a number cut to `n` bytes is a byte of the number. -/
theorem ofNat_byte_of_mod {n j : Nat} (v : Nat) (h : j < n) : BitVec.ofNat 8 (v % 2 ^ (8 * n) / 256 ^ j) = BitVec.ofNat 8 (v / 2 ^ (8 * j)) := by
  have h256 : (256 : Nat) ^ j = 2 ^ (8 * j) := by rw [pow_mul]; rfl
  have hn : 2 ^ (8 * n) = 2 ^ (8 * j) * (2 ^ 8 * 2 ^ (8 * (n - j - 1))) := by
    rw [← pow_add, ← pow_add]
    congr 1
    omega
  apply BitVec.eq_of_toNat_eq
  rw [h256, hn, BitVec.toNat_ofNat, BitVec.toNat_ofNat, Nat.mod_mul_right_div_self, Nat.mod_mul_right_mod]

/-! ## `lds` and `sts` -/

theorem exec_lds {s : State} {o : BitVec 8} {x : BitVec 1} {z : BitVec 2} {a d : BitVec 6} {u off : Nat}
    (hal : (s.scalarAddr o z a).toNat % 2 ^ z.toNat = 0) (hloc : s.spadLoc (keyTeam s.me) (s.scalarAddr o z a).toNat (2 ^ z.toNat) = some (u, off))
    (htry : (own s).inTry = false) :
    exec (.lds o x z a d) s = .next ((if (s.tm u).badAt off then (s.usesAddr a []).consumed s.me false else s.usesAddr a []).finish d
      (if (s.tm u).badAt off then 0 else extended x (2 ^ z.toNat) (natOfBytes ((s.tm u).bytesAt off (2 ^ z.toNat))))) := by
  change execLds _ _ _ _ _ s = _
  simp only [execLds]
  rw [if_neg (not_not.mpr hal), hloc]
  simp only [extended_eq, State.bufferedSpad_outside htry]

theorem does_lds {s : State} {o : BitVec 8} {x : BitVec 1} {z : BitVec 2} {a d : BitVec 6} {u off : Nat}
    (hal : (s.scalarAddr o z a).toNat % 2 ^ z.toNat = 0) (hloc : s.spadLoc (keyTeam s.me) (s.scalarAddr o z a).toNat (2 ^ z.toNat) = some (u, off))
    (htry : (own s).inTry = false) : Does (.lds o x z a d) s fun t =>
      Wrote (own s) (t.grp s.me) d
        (if (s.tm u).badAt off then 0 else extended x (2 ^ z.toNat) (natOfBytes ((s.tm u).bytesAt off (2 ^ z.toNat)))) ∧
      (t.grp s.me).pc = s.after ∧ OnlyStream s.me s t :=
  have hn := Noted.usesAddr (s := s) a []
  have hc := Noted.ite ((s.tm u).badAt off = true) hn.consumed hn
  have ⟨hwrote, hpc⟩ := hc.went d _
  ⟨_, exec_lds hal hloc htry, hwrote, hpc, hc.near.then (hc.onlyStream_finish ..)⟩

theorem exec_sts {s : State} {o : BitVec 8} {z : BitVec 2} {a d : BitVec 6} {u off : Nat}
    (hal : (s.scalarAddr o z a).toNat % 2 ^ z.toNat = 0) (hloc : s.spadLoc (keyTeam s.me) (s.scalarAddr o z a).toNat (2 ^ z.toNat) = some (u, off))
    (htry : (own s).inTry = false) (hw : (own s).awaits false = false) :
    exec (.sts o z a d) s = .next (((s.usesAddr a [d]).onTm u fun y =>
      y.storeAt off (bytesOfNat (2 ^ z.toNat) ((s.rs d).toNat % 2 ^ (8 * 2 ^ z.toNat)))).nextPc) := by
  change execSts _ _ _ _ s = _
  unfold own at htry hw
  simp only [execSts]
  rw [if_neg (not_not.mpr hal), hloc]
  simp only [htry, hw, Bool.false_eq_true, if_false]

theorem does_sts {s : State} {o : BitVec 8} {z : BitVec 2} {a d : BitVec 6} {u off : Nat}
    (hal : (s.scalarAddr o z a).toNat % 2 ^ z.toNat = 0) (hloc : s.spadLoc (keyTeam s.me) (s.scalarAddr o z a).toNat (2 ^ z.toNat) = some (u, off))
    (htry : (own s).inTry = false) (hw : (own s).awaits false = false) : Does (.sts o z a d) s fun t =>
      (∀ i, KMap.read unwritten i (t.tm u).mem =
        if off ≤ i ∧ i < off + 2 ^ z.toNat then BitVec.ofNat 8 ((s.rs d).toNat / 2 ^ (8 * (i - off))) else KMap.read unwritten i (s.tm u).mem) ∧
      (∀ v, v ≠ u → t.tm v = s.tm v) ∧ WroteNone (own s) (t.grp s.me) ∧ (t.grp s.me).pc = s.after ∧ MemoryKept s t := by
  have hn := Noted.usesAddr (s := s) a [d]
  let f := fun y : Team => y.storeAt off (bytesOfNat (2 ^ z.toNat) ((s.rs d).toNat % 2 ^ (8 * 2 ^ z.toNat)))
  have hp : Poised s ((s.usesAddr a [d]).onTm u f) _ := ⟨hn.cur, hn.grp⟩
  have htm := hp.onlyStream_nextPc.tm
  refine ⟨_, exec_sts hal hloc htry hw, fun i => ?_, fun v hv => ?_, hp.moved.2, hp.moved.1, ?_⟩
  · rw [htm, State.tm_onTm, Team.read_storeAt, length_bytesOfNat, hn.near.tm]
    split
    next hi => rw [getElem?_bytesOfNat _ (by omega), Option.getD_some, ofNat_byte_of_mod _ (by omega)]
    next => rfl
  · rw [htm, State.tm_onTm_other _ hv, hn.near.tm]
  · have hstore : KeepsMemory (s.usesAddr a [d]) ((s.usesAddr a [d]).onTm u f) := .of_eq rfl rfl rfl
    exact (((KeepsMemory.of_near hn.near).trans hstore).trans (.of_onlyStream hp.onlyStream_nextPc)).memoryKept

theorem scalarScratchpad : ScalarScratchpad := fun _ _ _ _ _ _ _ _ hal hloc htry =>
  ⟨does_lds hal hloc htry, fun hw => does_sts hal hloc htry hw⟩

end Sys2Proof.Machine
end

