-- ==== Sys2Proof/Proofs/ScalarPrefetch.lean ====
section
/-! SUPPORT. The scalar prefetch (10 R248, R263). -/

namespace Sys2Proof.Machine
open Claims

/-- A prefetch changes caches and TLBs alone. -/
theorem State.roster_prefetch (s : State) (g va hint : Nat) : (s.prefetch g va hint).roster = s.roster := by
  unfold State.prefetch
  dsimp only
  split
  · rfl
  · split <;> simp

theorem KeepsMemory.prefetch (s : State) (g va hint : Nat) : KeepsMemory s (s.prefetch g va hint) := by
  unfold State.prefetch
  dsimp only
  split
  · exact .refl s
  · refine .ite _ ?_ (.trans ?_ (.onL1 ..))
    all_goals exact (((KeepsMemory.touch ..).trans (.countRequest ..)).trans (.touchL2 ..)).trans (.onL2 ..)

theorem scalarPrefetch : ScalarPrefetch := by
  intro s o h a va sync waits
  have goes (t : State) (hr : t.roster = s.roster) (hm : KeepsMemory s t) (hx : exec (.pfetch o h a) s = .next t.nextPc) :
      Does (.pfetch o h a) s fun t => (t.grp s.me).pc = s.after ∧ WroteNone (own s) (t.grp s.me) ∧ (t.grp s.me).kernel = (own s).kernel ∧
        MemoryKept s t ∧ ∀ g, g ≠ s.me → t.grp g = s.grp g := by
    have hp := Poised.of_roster hr
    obtain ⟨hpc, hw, hk, ho⟩ := hp.goesOn hm fun g _ => State.grp_of_roster hr g
    exact ⟨_, hx, hpc, hw, hp.kernel_nextPc, hk, ho⟩
  have hx : exec (.pfetch o h a) s = execPfetch o h a s := rfl
  simp only [execPfetch] at hx
  by_cases hclean : (own s).sBad a.toNat = false ∧ va.toNat % 8 = 0
  · obtain ⟨hb, hal⟩ := hclean
    rw [if_neg (by rw [Bool.or_eq_true, decide_eq_true_eq]; exact not_or.mpr ⟨Bool.eq_false_iff.mp hb, not_not.mpr hal⟩)] at hx
    refine ⟨fun hs hw => ?_, fun hs => hx.trans (if_pos hs.2.2), fun hs hw => ?_⟩ <;> rw [if_neg fun hms => hs ⟨hb, hal, hms⟩] at hx
    · exact goes _ (s.roster_prefetch ..) (.prefetch ..) (hx.trans (if_neg fun hbusy => hw ⟨hb, hal, hbusy⟩))
    · exact hx.trans (if_pos hw.2.2)
  · refine ⟨fun _ _ => goes s rfl (.refl s) (hx.trans (if_pos ?_)), fun hs => absurd ⟨hs.1, hs.2.1⟩ hclean, fun _ hw => absurd ⟨hw.1, hw.2.1⟩ hclean⟩
    rw [Bool.or_eq_true, decide_eq_true_eq]
    exact (not_and_or.mp hclean).imp_left (Bool.not_eq_false _ ▸ ·)

/-- Settles O10: outside `try` a scratchpad access is one read or one store of a team's bytes, and a prefetch changes caches alone. -/
theorem scalarScratchpadAndPrefetch : Obligations.ScalarScratchpadAndPrefetch := ⟨scalarScratchpad, scalarPrefetch⟩

end Sys2Proof.Machine
end

