-- ==== Sys2Proof/Proofs/ClauseQueue.lean ====
section
/-! SUPPORT. The clause queue and completion flags (02 R36, R38, 05 R125 to R127, R139). -/

namespace Sys2Proof.Machine
open Claims

/-! ## Flags -/

/-- A mask built by setting the bits of a list that meet a condition. -/
theorem getLsbD_foldl_setBits (p : Nat → Bool) (l : List Nat) (r : BitVec 12) {f : Nat} (hf : f < 12) :
    (l.foldl (fun r i => if p i then r ||| (1#12 <<< i) else r) r).getLsbD f = (r.getLsbD f || (l.contains f && p f)) := by
  induction l generalizing r with
  | nil => simp
  | cons i l ih =>
    rw [List.foldl_cons, ih]
    by_cases hi : f = i
    · subst hi
      cases hp : p f <;> simp [hf]
    · have hbit : (1#12 <<< i).getLsbD f = false := by
        simp
        omega
      cases hp : p i <;> simp [hi, hbit]

/-- 05 R126, R127: a flag is among the pending ones of a mask when the mask names it and its count is not 0. -/
theorem Group.getLsbD_pendingOf (x : Group) (m : BitVec 12) (f : Nat) : (x.pendingOf m).getLsbD f = (m.getLsbD f && decide (x.flag f ≠ 0)) := by
  by_cases hf : f < 12
  · have h := getLsbD_foldl_setBits (fun f => m.getLsbD f && decide (x.flag f ≠ 0)) (List.range 12) 0#12 hf
    exact h.trans (by simp [hf])
  · rw [BitVec.getLsbD_of_ge _ _ (by omega), BitVec.getLsbD_of_ge _ _ (by omega), Bool.false_and]

theorem Group.pendingOf_eq_zero (x : Group) (m : BitVec 12) : x.pendingOf m = 0#12 ↔ ∀ f, (m.getLsbD f && decide (x.flag f ≠ 0)) = false := by
  simp only [← x.getLsbD_pendingOf]
  exact ⟨fun h f => by rw [h, BitVec.getLsbD_zero], fun h => BitVec.eq_of_getLsbD_eq fun f _ => by rw [h, BitVec.getLsbD_zero]⟩

/-- 02 R38: a clause raises a flag by the count of its slots on it. -/
theorem Group.flag_raiseCounts (x : Group) (cs : List (Nat × Nat)) (f : Nat) : (x.raiseCounts cs).flag f = x.flag f + countsOn cs f := by
  unfold Group.raiseCounts countsOn
  induction cs generalizing x with
  | nil => simp
  | cons c cs ih =>
    rw [List.foldl_cons, ih, Group.flag_raiseBy, List.filter_cons]
    by_cases h : f = c.2
    · subst h
      simp
      omega
    · simp [h, Ne.symm h]

theorem Group.raiseCounts_eq (x : Group) (cs : List (Nat × Nat)) : x.raiseCounts cs = { x with flags := (x.raiseCounts cs).flags } := by
  unfold Group.raiseCounts
  induction cs generalizing x with
  | nil => rfl
  | cons c cs ih => exact ih (x.raiseBy c.2 1)

theorem KMap.read_foldl_write (g : Nat → Word) (l : List Nat) (m : KMap Word) (r : Nat) :
    KMap.read 0 r (l.foldl (fun m i => KMap.write 0 i (g i) m) m) = if r ∈ l then g r else KMap.read 0 r m := by
  induction l generalizing m with
  | nil => rfl
  | cons i l ih =>
    rw [List.foldl_cons, ih]
    by_cases hi : r = i
    · subst hi
      simp
    · simp [hi, KMap.read_write_other _ hi]

/-- 02 R36: the copy of `s0` to `s15`. -/
theorem Group.read_captured (x : Group) {r : Nat} (hr : r < 16) : KMap.read 0 r x.captured = x.sGet r := by
  rw [Group.captured, KMap.read_foldl_write, if_pos (List.mem_range.mpr hr)]

/-! ## `nop`, `yield`, `testf`, `waitf` -/

theorem moves_nop (s : State) : Moves .nop s [] s.after := moves_of _ _ [] _ rfl

theorem does_yield {s : State} (hg : keyGrp s.me ≠ 64) : Does .yield s fun t =>
    OnlyStream s.me s t ∧ t.grp s.me = { own s with pc := s.after, stall := 0, yieldLeft := 64 } := by
  have hp := (Noted.refl s).toPoised
  refine ⟨s.nextPc.onGrp s.me fun x => { x with yieldLeft := 64 }, if_neg hg, .onGrp (.inl hp.onlyStream_nextPc) _, ?_⟩
  rw [State.grp_onGrp, hp.grp_nextPc]

theorem computes_testf {s : State} (hg : keyGrp s.me ≠ 64) (m : BitVec 12) (d : BitVec 6) :
    Computes (.testf m d) s [] d (((own s).pendingOf m).setWidth 64) s.after :=
  computes_finish _ _ _ _ _ (if_neg hg)

theorem getLsbD_pending64 (x : Group) (m : BitVec 12) (f : Nat) :
    ((x.pendingOf m).setWidth 64).getLsbD f = (m.getLsbD f && decide (x.flag f ≠ 0)) := by
  rw [BitVec.getLsbD_setWidth, x.getLsbD_pendingOf]
  by_cases hf : f < 12
  · simp [show f < 64 by omega]
  · simp [BitVec.getLsbD_of_ge m f (by omega)]

theorem exec_waitf {s : State} (hg : keyGrp s.me ≠ 64) (hk : (own s).kernel = false) (m : BitVec 12) :
    exec (.waitf m) s = .next (if (own s).pendingOf m ≠ 0#12 then s.stallS 4 else s.nextPc) := by
  change execWaitf m s = _
  rw [execWaitf, if_neg (by unfold own at hk; simp [hg, hk])]
  exact (apply_ite ..).symm

/-! ## `clause` -/

/-- Reading code counts transfers and draws answers of other devices, and leaves every stream. -/
theorem State.roster_drew (s : State) (g a n : Nat) : (s.drew g a n).roster = s.roster := by
  unfold State.drew
  refine (State.roster_foldl _ (fun s p => ?_) _ _).trans (State.roster_ite _ rfl rfl)
  split
  · exact State.roster_ite _ rfl (s.roster_hacFor ..)
  · rfl

theorem Xlat.hacFor_here {x : Xlat} (hr : x.remote = false) (hh : x.leaf.host = false) (s : State) (w : Who) (va : Nat) : s.hacFor w va x = s := by
  simp [State.hacFor, hr, hh]

theorem foldl_eq_self {α β : Type} {f : β → α → β} {b : β} {l : List α} (h : ∀ a ∈ l, f b a = b) : l.foldl f b = b := by
  induction l with
  | nil => rfl
  | cons a l ih => rw [List.foldl_cons, h a List.mem_cons_self, ih fun c hc => h c (List.mem_cons_of_mem _ hc)]

/-- Code in memory of this device is read without a trace. -/
theorem State.drew_here {s : State} {a n : Nat} (h : CodeHere s a n) : s.drew s.me a n = s := by
  unfold CodeHere own at h
  have hfar : s.codeFar s.me a n = false := by
    rw [State.codeFar, List.any_eq_false]
    intro p hp
    split
    next y hy => simp [(h p hp y hy).1]
    next => simp
  unfold State.drew
  simp only [hfar, Bool.false_eq_true, if_false]
  refine foldl_eq_self fun p hp => ?_
  split
  next y hy =>
    obtain ⟨hr, hh⟩ := h p hp y hy
    rw [Xlat.hacFor_here hr hh, ite_self]
  next => rfl

/-- The stream after `clause` has read its registers and its code. -/
def State.clauseRead (s : State) (a : BitVec 6) (l : Word) : State :=
  ((s.usesAddr a []).drew s.me l.toNat (s.clauseLen s.me l)).uses ((List.range 16).map fun r => BitVec.ofNat 6 r)

/-- 02 R36: the stream's record with a clause queued. -/
def Group.enqueue (x : Group) (e : ClauseEntry) : Group := { x.raiseCounts e.counts with queue := x.queue ++ [e] }

theorem exec_clause {s : State} {i : BitVec 19} {a : BitVec 6} {l : Word} {h : ClauseHeader} {cs : List (Nat × Nat)}
    (hl : s.rs a + 16 * i.signExtend 64 = l) (hg : keyGrp s.me ≠ 64) (hk : (own s).kernel = false) (hal : l.toNat % 16 = 0)
    (hf : s.clauseFault s.me l = none) (hh : s.readHeader s.me l = .ok h) (hc : s.slotCounts s.me l h = .ok cs)
    (hroom : (own s).queueLen < 8) (hflags : ∀ f, f < 12 → (own s).flag f + countsOn cs f ≤ 63) :
    exec (.clause i a) s =
      .next ((s.clauseRead a l).onGrp s.me fun y => y.enqueue { addr := l, caps := (own s).captured, hdr := h, counts := cs }).nextPc := by
  have hfull : ((List.range 12).any fun f => decide ((own s).flag f + countsOn cs f > 63)) = false := by
    rw [List.any_eq_false]
    intro f hm
    have := hflags f (List.mem_range.mp hm)
    simpa using this
  change execClause i a s = _
  unfold own at *
  simp only [execClause, hl, hk, hf, hh, hc, hfull, hg, hal, decide_eq_false (not_le.mpr hroom), Bool.or_false, Bool.false_eq_true, decide_false,
    ne_eq, not_true_eq_false, if_false]
  rfl

theorem Group.enqueue_eq (x : Group) (e : ClauseEntry) :
    x.enqueue e = { x with flags := (x.raiseCounts e.counts).flags, queue := x.queue ++ [e] } := by
  rw [Group.enqueue, Group.raiseCounts_eq]

/-- What `clause` does to its stream. -/
theorem Poised.clause {s t : State} {c : BitVec 32} (h : Poised s t c) (e : ClauseEntry) :
    ((t.onGrp s.me fun y => y.enqueue e).nextPc.grp s.me).queue = (own s).queue ++ [e] ∧
    (∀ f, ((t.onGrp s.me fun y => y.enqueue e).nextPc.grp s.me).flag f = (own s).flag f + countsOn e.counts f) ∧
    ((t.onGrp s.me fun y => y.enqueue e).nextPc.grp s.me).pc = s.after ∧ WroteNone (own s) ((t.onGrp s.me fun y => y.enqueue e).nextPc.grp s.me) := by
  have hg := h.grp_onGrp_goto (fun y => y.enqueue e) s.after
  rw [← h.onGrp_nextPc fun x => by rw [x.enqueue_eq], Group.enqueue_eq] at hg
  rw [hg]
  exact ⟨rfl, fun f => Group.flag_raiseCounts { own s with chkint := c } e.counts f, rfl, .of_eq rfl rfl⟩

theorem State.clauseRead_poised (s : State) (a : BitVec 6) (l : Word) : ∃ c, Poised s (s.clauseRead a l) c :=
  ⟨_, (Noted.usesAddr a []).toPoised.trans ((Poised.of_roster (State.roster_drew ..)).trans (Noted.uses _).toPoised)⟩

theorem State.clauseRead_noted {s : State} (a : BitVec 6) {l : Word} (h : CodeHere s l.toNat (s.clauseLen s.me l)) : ∃ c, Noted s (s.clauseRead a l) c := by
  have hn := Noted.usesAddr (s := s) a []
  have hk : (own (s.usesAddr a [])).kernel = (own s).kernel := by
    rw [own, hn.me, hn.grp]
  have hhere : CodeHere (s.usesAddr a []) l.toNat (s.clauseLen s.me l) := by
    unfold CodeHere
    rw [hk, hn.me]
    simp only [hn.near.xlate, hn.near.whoIs]
    exact h
  have hdrew := State.drew_here hhere
  rw [hn.me] at hdrew
  exact ⟨_, by rw [State.clauseRead, hdrew]; exact hn.trans (Noted.uses _)⟩

/-- Settles O29: each of these goes on, stalls or queues its clause by its condition, and changes its stream alone. -/
theorem clausesAndFlags : Obligations.ClausesAndFlags := by
  intro s i a d m h cs x l pending
  refine ⟨moves_nop s, fun hg => ⟨does_yield hg, _, computes_testf hg m d, getLsbD_pending64 x m⟩, fun hg hk => ⟨fun hf => ?_, fun hf => ?_,
    fun hal hfault hhdr hcs hroom hflags => ?_⟩⟩
  · refine moves_of _ _ [] _ ((exec_waitf hg hk m).trans ?_)
    rw [if_neg (not_not.mpr ((x.pendingOf_eq_zero m).mpr hf))]
    rfl
  · obtain ⟨f, hf⟩ := hf
    refine ⟨s.stallS 4, (exec_waitf hg hk m).trans ?_, s.grp_onGrp .., .of_onGrp ..⟩
    rw [if_pos fun h0 => Bool.false_ne_true (((x.pendingOf_eq_zero m).mp h0 f).symm.trans hf)]
  · have hx := exec_clause rfl hg hk hal hfault hhdr hcs hroom hflags
    obtain ⟨c, hp⟩ := s.clauseRead_poised a l
    obtain ⟨hqueue, hflag, hpc, hnone⟩ := hp.clause { addr := l, caps := x.captured, hdr := h, counts := cs }
    refine ⟨_, hx, ⟨_, hqueue, rfl, rfl, rfl, fun r hr => x.read_captured hr⟩, hflag, hpc, hnone, fun hhere => ?_⟩
    obtain ⟨b, hn⟩ := State.clauseRead_noted a hhere
    rw [hn.onGrp_nextPc fun y => by rw [y.enqueue_eq]]
    exact hn.near.then (hn.onlyStream_onGrp_goto ..)

end Sys2Proof.Machine
end

