-- ==== Sys2Proof/Proofs/ScalarLoads.lean ====
section
/-! SUPPORT. Scalar loads of this device (05 R121, R122, 09 R234, 10 R242). -/

namespace Sys2Proof.Machine
open Claims

/-! ## What DRAM gives a read -/

/-- All but the streams, the cores, the L2 TLBs, the Rennet units and the error counters: a read of DRAM reads nothing of these. -/
def State.aside (s : State) : State := { s with groups := [], cores := [], l2tlb := [], rennets := [], ras := {} }

section
variable (s : State)

theorem State.loadBytes_aside (a n : Nat) : s.aside.loadBytes a n = s.loadBytes a n := rfl

theorem State.bad_aside (a : Nat) : s.aside.bad a = s.bad a := rfl

theorem State.aside_ite (c : Prop) [Decidable c] {s t u : State} (h : s.aside = u.aside) (k : t.aside = u.aside) :
    (if c then s else t).aside = u.aside := by
  split
  · exact h
  · exact k

theorem State.aside_fillTlb (w : Who) (va : Nat) (l : Leaf) : (s.fillTlb w va l).aside = s.aside := by
  unfold State.fillTlb
  extract_lets e s1
  have h1 : s1.aside = s.aside := by
    unfold s1
    split
    · exact State.aside_ite _ rfl rfl
    · rfl
  split
  · exact State.aside_ite _ h1 h1
  · exact h1

theorem State.aside_touch (w : Who) (va : Nat) : (s.touch w va).aside = s.aside := by
  unfold State.touch
  split
  · exact State.aside_ite _ (s.aside_fillTlb ..) rfl
  · rfl

theorem State.aside_unwait (g : Nat) (x : Xlat) : (s.unwait g x).aside = s.aside := State.aside_ite _ rfl rfl

theorem State.aside_served (x : Xlat) : (s.served x).aside = s.aside := State.aside_ite _ rfl rfl

theorem State.aside_countDecode (pa : Nat) : (s.countDecode pa).aside = s.aside := State.aside_ite _ rfl (State.aside_ite _ rfl rfl)

theorem State.aside_leaveL2 (x : L2Line) (m : BitVec 4) : (s.leaveL2 x m).aside = s.aside.leaveL2 x m := by
  unfold State.leaveL2
  rw [apply_ite State.aside]
  congr 1
  refine (List.foldl_hom State.aside fun s i => ?_).symm
  rw [apply_ite State.aside]
  rfl

theorem State.aside_dropL2 (pa : Nat) : (s.dropL2 pa).aside = s.aside.dropL2 pa := by
  have hline : s.aside.l2Line (pa / 128) = s.l2Line (pa / 128) := rfl
  have hleave (f : State → State) (hf : ∀ s : State, (f s).aside = f s.aside) (l2 : KMap (List L2Line)) :
      ({ (if s.beneath.isEmpty then s else f s) with l2 } : State).aside = { (if s.aside.beneath.isEmpty then s.aside else f s.aside) with l2 } := by
    rw [← hf, ← apply_ite State.aside]
    rfl
  unfold State.dropL2 State.onL2
  rw [hline]
  cases s.l2Line (pa / 128) with
  | none => exact hleave id (fun _ => rfl) _
  | some x => exact hleave (fun s => s.leaveL2 x _) (fun s => s.aside_leaveL2 ..) _

end

theorem Near.aside {g : Nat} {s t : State} (h : Near g s t) : t.aside = s.aside :=
  h.congr State.aside fun _ => rfl

/-! ## The load -/

/-- 09 R234, 10 R242: a load of a memory-side page of this device, by a stream with no store of its own left, gives what DRAM holds once
the line has left the L2. -/
theorem State.loadAt_memorySide {s : State} {g : Nat} {y : Xlat} (hr : y.remote = false) (hh : y.leaf.host = false) (hms : y.leaf.ms = true)
    (hst : (s.grp g).ownStores = []) (htry : (s.grp g).inTry = false) (lane : Nat) (kernel : Bool) (va n hint : Nat) :
    ((s.loadAt g lane kernel va y n hint).1 = (s.dropL2 y.pa).loadBytes y.pa n ∧
      (s.loadAt g lane kernel va y n hint).2.1 = (s.dropL2 y.pa).bad y.pa) ∧ KeepsMemory s (s.loadAt g lane kernel va y n hint).2.2 := by
  let s1 := (s.touch (s.whoIs g kernel) va).unwait g y
  let t := ((s1.dropL2 y.pa).served y).countDecode y.pa
  have hload : s.loadAt g lane kernel va y n hint = (t.buffered g lane y (t.forwarded g y (t.loadBytes y.pa n)), t.bad y.pa, t) := by
    simp only [State.loadAt, Xlat.hacFor_here hr hh, State.homeRead, State.touchHome, State.rawLoad, hr, hh, hms, Bool.or_true, Bool.or_false,
      if_true, Bool.false_eq_true, if_false]
    rfl
  have hgrp : t.grp g = s.grp g := State.grp_of_roster (by simp [t, s1]) g
  have hfwd : t.forwarded g y (t.loadBytes y.pa n) = t.loadBytes y.pa n := by
    rw [State.forwarded, hgrp, hst, List.foldl_nil]
  have hbuf (bs : List Byte) : t.buffered g lane y bs = bs := by
    rw [State.buffered, hgrp, Group.tr_eq_none htry]
  have haside : t.aside = (s.dropL2 y.pa).aside := by
    simp only [t, s1, State.aside_countDecode, State.aside_served, State.aside_dropL2, State.aside_unwait, State.aside_touch]
  rw [hload, hfwd, hbuf]
  refine ⟨⟨?_, ?_⟩, ?_⟩
  · rw [← State.loadBytes_aside, haside, State.loadBytes_aside]
  · rw [← State.bad_aside, haside, State.bad_aside]
  · exact ((KeepsMemory.touch s ..).trans (.unwait ..)).trans (((KeepsMemory.dropL2 ..).trans (.served ..)).trans (.countDecode ..))

/-- What `ld` reads, with what the access leaves. -/
def State.ldRead (s : State) (a : BitVec 6) (h : BitVec 2) (va : Word) (y : Xlat) (n : Nat) : List Byte × Bool × State :=
  (s.usesAddr a []).loadAt s.me 16 (own s).kernel va.toNat y n h.toNat

theorem State.ldRead_memorySide {s : State} {y : Xlat} (hr : y.remote = false) (hh : y.leaf.host = false) (hms : y.leaf.ms = true)
    (hst : (own s).ownStores = []) (htry : (own s).inTry = false) (a : BitVec 6) (h : BitVec 2) (va : Word) (n : Nat) :
    ((s.ldRead a h va y n).1 = (s.dropL2 y.pa).loadBytes y.pa n ∧ (s.ldRead a h va y n).2.1 = (s.dropL2 y.pa).bad y.pa) ∧
      KeepsMemory (s.usesAddr a []) (s.ldRead a h va y n).2.2 := by
  have hn := Noted.usesAddr (s := s) a []
  have hdrop : ((s.usesAddr a []).dropL2 y.pa).aside = (s.dropL2 y.pa).aside := by
    rw [State.aside_dropL2, State.aside_dropL2, hn.near.aside]
  have hload := State.loadAt_memorySide (s := s.usesAddr a []) (g := s.me) hr hh hms (by rw [hn.grp]; exact hst) (by rw [hn.grp]; exact htry) 16
    (own s).kernel va.toNat n h.toNat
  rwa [← State.loadBytes_aside, ← State.bad_aside, hdrop, State.loadBytes_aside, State.bad_aside] at hload

/-- The state in which `ld` writes its destination: a poisoned sector is consumed (09 R226). -/
def State.ldLeft (s : State) (r : List Byte × Bool × State) : State := if r.2.1 then r.2.2.consumed s.me false else r.2.2

/-- The value that `ld` writes. -/
def ldValue (x : BitVec 1) (n : Nat) (r : List Byte × Bool × State) : Word := if r.2.1 then 0 else extended x n (natOfBytes r.1)

theorem extended_zero (x : BitVec 1) (n : Nat) : extended x n 0 = 0 := by
  have h2 : 0 < 2 ^ (8 * n - 1) := by positivity
  have h : sext 0 (8 * n) = 0 := by simp [sext, h2]
  rw [extended, h, wrapped]
  exact ite_self _

theorem ldValue_eq (x : BitVec 1) (n : Nat) (r : List Byte × Bool × State) :
    extended x n (if r.2.1 then 0 else natOfBytes r.1) = ldValue x n r := by
  rw [ldValue, apply_ite (extended x n), extended_zero x n]

section
variable {s : State} {o : BitVec 8} {h : BitVec 2} {x : BitVec 1} {z : BitVec 2} {a d : BitVec 6} {y : Xlat}

theorem exec_ld (hreach : Reaching s (s.scalarAddr o z a) (2 ^ z.toNat) .read y) :
    exec (.ld o h x z a d) s =
      .next (((s.ldLeft (s.ldRead a h (s.scalarAddr o z a) y (2 ^ z.toNat))).onGrp s.me fun g =>
        g.sSet d.toNat (ldValue x (2 ^ z.toNat) (s.ldRead a h (s.scalarAddr o z a) y (2 ^ z.toNat)))).nextPc) := by
  obtain ⟨hal, hva, hx, hr, hholds, hbehind, hfree⟩ := hreach
  obtain ⟨e, hfree⟩ := Option.isSome_iff_exists.mp hfree
  have hn := (Noted.usesAddr (s := s) a []).near
  have hu := (hn.xlate ..).trans hx
  rw [← hn.whoIs] at hu
  unfold own at *
  change execLd _ _ _ _ _ _ s = _
  simp only [execLd]
  rw [if_neg (not_not.mpr hal), if_neg (not_le.mpr hva)]
  simp only [State.preciseAccess, hfree, hx, hholds, hbehind, Bool.false_eq_true, if_false, List.head?_cons, State.performAcc, hu, hr, decide_eq_true_eq,
    extended_eq]
  rw [ldValue_eq]
  rfl

/-- A load writes its destination and goes on, whatever the access leaves of memory. -/
theorem does_ld (hreach : Reaching s (s.scalarAddr o z a) (2 ^ z.toNat) .read y) : ∃ t, exec (.ld o h x z a d) s = .next t ∧
    Wrote (own s) (t.grp s.me) d (ldValue x (2 ^ z.toNat) (s.ldRead a h (s.scalarAddr o z a) y (2 ^ z.toNat))) ∧ (t.grp s.me).pc = s.after ∧
    (∀ g, g ≠ s.me → t.grp g = s.grp g) ∧ KeepsMemory (s.ldRead a h (s.scalarAddr o z a) y (2 ^ z.toNat)).2.2 t := by
  have hex := exec_ld (h := h) (x := x) (d := d) hreach
  generalize hr : s.ldRead a h (s.scalarAddr o z a) y (2 ^ z.toNat) = r at *
  have hn := Noted.usesAddr (s := s) a []
  have hroster : r.2.2.roster = (s.usesAddr a []).roster := by rw [← hr]; exact State.roster_loadAt ..
  have hread := hn.toPoised.trans (.of_roster hroster)
  have hleft := Noted.ite (r.2.1 = true) (Noted.refl r.2.2).consumed (.refl r.2.2)
  rw [hread.me, ← State.ldLeft] at hleft
  have hp := hread.trans hleft.toPoised
  have hnear := hleft.near
  rw [hread.me] at hnear
  have hstep := hnear.trans (hp.onlyStream_finish d (ldValue x (2 ^ z.toNat) r)).near
  rw [← hp.setS_eq, ← State.finish] at hex
  obtain ⟨hwrote, hpc⟩ := hp.went d (ldValue x (2 ^ z.toNat) r)
  refine ⟨_, hex, hwrote, hpc, fun g hg => ?_, .of_near hstep⟩
  rw [hstep.grp_other hg, State.grp_of_roster hroster, hn.near.grp_other hg]

end

/-- Settles O7: a load of this device writes its destination and goes on; of a memory-side page it gives what DRAM holds. -/
theorem scalarLoad : Obligations.ScalarLoad := by
  intro s o h x z a d y va n hreach htry
  obtain ⟨t, hex, hwrote, hpc, hothers, hkept⟩ := does_ld (h := h) (x := x) (d := d) hreach
  refine ⟨⟨_, t, hex, hwrote, hpc, hothers⟩, fun hms hh hst => ?_⟩
  obtain ⟨-, -, -, hremote, -⟩ := hreach
  obtain ⟨hread, hkeeps⟩ := State.ldRead_memorySide hremote hh hms hst htry a h va n
  refine ⟨t, hex, ?_, hpc, ?_, hothers⟩
  · rw [ldValue, hread.1, hread.2] at hwrote
    exact hwrote
  · exact ((KeepsMemory.of_near (Noted.usesAddr a []).near).trans (hkeeps.trans hkept)).memoryKept

end Sys2Proof.Machine
end

