-- ==== Sys2Proof/Proofs/Endings.lean ====
section
/-! SUPPORT. `chkerr`, `exit` and `pginv` (02 R54, 05 R136, R138, R141). -/

namespace Sys2Proof.Machine
open Claims

/-! ## `chkerr` -/

theorem computes_chkerr {s : State} (hg : keyGrp s.me ≠ 64) (d : BitVec 6)
    (hready : (own s).kernel = true ∨ ((own s).queue = [] ∧ (own s).run = none ∧ (own s).reducing = false)) (hw : (own s).awaits false = false) :
    Computes (.chkerr d) s [] d (((own s).chkint &&& 0x1F).setWidth 64) s.after := by
  have hr : ((own s).kernel || ((own s).laneIdle && !(own s).reducing)) = true := by
    rcases hready with hk | ⟨hq, hrun, hred⟩
    · simp [hk]
    · simp [Group.laneIdle, hq, hrun, hred]
  refine computes_finish _ _ [] _ _ ?_
  change execChkerr d s = _
  unfold own at hr hw
  simp only [execChkerr, if_neg hg, hr, hw, Bool.not_true, Bool.or_false, Bool.false_eq_true, if_false]
  rw [State.cregRead_chkint hg]
  rfl

/-- 12 R295: in a sequencer stream it also acquires what its Press instructions wrote. -/
theorem does_chkerr_sequencer {s : State} (hg : keyGrp s.me = 64) (hidle : s.pressIdle (s.gCluster s.me) = true) (hw : (own s).awaits false = false)
    (d : BitVec 6) : Does (.chkerr d) s fun t => Went s t d (((own s).chkint &&& 0xFF1F).setWidth 64) ∧ MemoryKept s t := by
  have hp := Poised.of_roster (s.roster_acquire s.me 3)
  have hv : s.cregRead s.me 0x010 = ((own s).chkint &&& 0xFF1F).setWidth 64 := congrArg (BitVec.setWidth 64) (if_pos hg)
  refine ⟨(s.acquire s.me 3).finish d (((own s).chkint &&& 0xFF1F).setWidth 64), ?_, hp.went .., ?_⟩
  · change execChkerr d s = _
    unfold own at hw
    simp only [execChkerr, if_pos hg, hidle, hw, hv, Bool.not_true, Bool.or_false, Bool.false_eq_true, if_false]
  · exact ((KeepsMemory.acquire s ..).trans (.of_onlyStream (hp.onlyStream_finish ..))).memoryKept

/-! ## `exit` -/

section
variable (s : State) (g : Nat)

theorem State.find_exitStream_same : KMap.find g (s.exitStream g).groups = none := by
  unfold State.exitStream
  split
  next h => exact h
  next => exact State.find_endStream_same _ g

/-- The stream that exits is gone. -/
theorem does_exit_gone (htry : (own s).inTry = false)
    (hidle : if keyGrp s.me = 64 then s.pressIdle (s.gCluster s.me) = true else (own s).queue = [] ∧ (own s).run = none) :
    Does .exit s fun t => (KMap.find s.me t.groups).isNone := by
  have hgone := Option.isNone_iff_eq_none.mpr (s.find_exitStream_same s.me)
  change ∃ t, execExit s = .next t ∧ _
  unfold own at htry hidle
  simp only [execExit, htry, Bool.false_eq_true, if_false]
  split at hidle
  next hg => exact ⟨_, by rw [if_pos hg, if_pos hidle], by simpa using hgone⟩
  next hg =>
    obtain ⟨hq, hrun⟩ := hidle
    exact ⟨_, by rw [if_neg hg, if_pos (by simp [Group.laneIdle, hq, hrun])], by simpa using hgone⟩

/-- 02 R54: a team with another group that has not ended goes on. -/
theorem State.tryEndTeam_of_group {h : Nat} (hh : keyGrp h < 64) (hs : (KMap.find h s.groups).isSome) : s.tryEndTeam (keyTeam h) = s := by
  have hm : h ∈ s.teamGroups (keyTeam h) := by
    simp only [State.teamGroups, State.teamStreams, List.mem_filter, decide_eq_true_eq]
    exact ⟨⟨KMap.mem_keys hs, trivial⟩, hh⟩
  have hdone : s.teamDone (keyTeam h) = false := by
    unfold State.teamDone
    rw [List.isEmpty_eq_false_iff.mpr (List.ne_nil_of_mem hm)]
    simp
  unfold State.tryEndTeam
  rw [hdone]
  rfl

theorem State.exitStream_frame {x : Group} (hx : KMap.find g s.groups = some x) (hg : keyGrp g ≠ 64) :
    (s.exitStream g).groups = KMap.del g s.groups ∧ ((s.exitStream g).tm (keyTeam g)).chk = (s.tm (keyTeam g)).chk ||| (x.chkint &&& 31) ∧
      KeepsMemory s (s.exitStream g) := by
  unfold State.exitStream State.endStream
  simp only [hx, if_neg hg]
  exact ⟨rfl, by rw [State.tm_onTm]; rfl, .of_eq rfl rfl rfl⟩

end

/-- 02 R54, 04 R100: the exit of a group of a team with another one. -/
theorem does_exit_group {s : State} {h : Nat} (hg : keyGrp s.me ≠ 64) (htry : (own s).inTry = false) (hq : (own s).queue = [])
    (hrun : (own s).run = none) (hme : (KMap.find s.me s.groups).isSome) (hh : h ≠ s.me) (hteam : keyTeam h = keyTeam s.me) (h64 : keyGrp h < 64)
    (hlive : (KMap.find h s.groups).isSome) : Does .exit s fun t => (KMap.find s.me t.groups).isNone ∧
      (s.gTeam s.me).chk ||| ((own s).chkint &&& 31) = (t.tm (keyTeam s.me)).chk ∧ MemoryKept s t ∧ ∀ g, g ≠ s.me → t.grp g = s.grp g := by
  obtain ⟨x, hx⟩ := Option.isSome_iff_exists.mp hme
  obtain ⟨hgroups, hchk, hkept⟩ := s.exitStream_frame s.me hx hg
  have hown : own s = x := by rw [own, State.grp, KMap.read, hx]; rfl
  have hstay := (s.exitStream s.me).tryEndTeam_of_group h64 (by rwa [hgroups, KMap.find_del_other hh])
  rw [hteam] at hstay
  refine ⟨s.exitStream s.me, ?_, ?_, ?_, hkept.memoryKept, fun g hne => ?_⟩
  · change execExit s = _
    unfold own at htry hq hrun
    simp only [execExit, htry, Bool.false_eq_true, if_false, if_neg hg, Group.laneIdle, hq, hrun, List.isEmpty_nil, Option.isNone_none, Bool.and_true,
      if_true, hstay]
  · rw [s.find_exitStream_same]
    rfl
  · rw [hchk, hown]
    rfl
  · rw [State.grp, State.grp, hgroups, KMap.read, KMap.find_del_other hne]
    rfl

/-! ## `pginv` -/

theorem State.tlb_dropTlbs (s : State) (p : Nat) (f : TlbEntry → Bool) (c : Nat) :
    ((s.dropTlbs p f).coreAt c).tlb = (s.coreAt c).tlb.filter fun e => decide (e.part ≠ p) || !f e := by
  unfold State.dropTlbs State.coreAt
  rw [KMap.read, KMap.read, KMap.find_map]
  · cases KMap.find c s.cores <;> rfl
  · exact fun _ => rfl

theorem KeepsMemory.dropTlbs (s : State) (p : Nat) (f : TlbEntry → Bool) : KeepsMemory s (s.dropTlbs p f) := .of_eq rfl rfl rfl

/-- 05 R141: in kernel mode, with its release done, `pginv` drops what it names and goes on. -/
theorem State.pginv_goes {s : State} {use : State → State} {c : BitVec 32} (hk : (own s).kernel = true) (htry : (own s).inTry = false)
    (hrel : s.released s.me = true) (hn : Noted s (use s) c) (f : TlbEntry → Bool) : ∃ t, s.pginv use f = t ∧
      (∀ c, (t.coreAt c).tlb = (s.coreAt c).tlb.filter fun e => decide (e.part ≠ s.gPart s.me) || !f e) ∧
      (t.grp s.me).pc = s.after ∧ WroteNone (own s) (t.grp s.me) ∧ MemoryKept s t ∧ ∀ g, g ≠ s.me → t.grp g = s.grp g := by
  have hp : Poised s ((use s).dropTlbs (s.gPart s.me) f) c := ⟨hn.cur, hn.grp⟩
  obtain ⟨hpc, hnone, hkept, hothers⟩ :=
    hp.goesOn ((KeepsMemory.of_near hn.near).trans (.dropTlbs ..)) fun g hg => hn.near.grp_other hg
  refine ⟨((use s).dropTlbs (s.gPart s.me) f).nextPc, ?_, fun c => ?_, hpc, hnone, hkept, hothers⟩
  · unfold own at hk htry
    simp [State.pginv, hk, htry, hrel]
  · rw [hp.onlyStream_nextPc.near.cores.tlb, State.tlb_dropTlbs, hn.near.cores.tlb]

/-- 05 R141: an entry is in a range widened to 64 KiB when its page meets one of the 64 KiB regions that the range meets. -/
theorem TlbEntry.inRange_iff (e : TlbEntry) (a n : Nat) : e.inRange a n = true ↔ n ≠ 0 ∧ ∃ k, a / 65536 ≤ k ∧ k ≤ (a + n - 1) / 65536 ∧
    e.vpage * 2 ^ e.leaf.bits < (k + 1) * 65536 ∧ k * 65536 < (e.vpage + 1) * 2 ^ e.leaf.bits := by
  have hpage : e.vpage * 2 ^ e.leaf.bits < (e.vpage + 1) * 2 ^ e.leaf.bits := Nat.mul_lt_mul_of_pos_right (by omega) (by positivity)
  generalize hlo : e.vpage * 2 ^ e.leaf.bits = lo at *
  generalize hhi : (e.vpage + 1) * 2 ^ e.leaf.bits = hi at *
  simp only [TlbEntry.inRange, hlo, hhi, Bool.and_eq_true, decide_eq_true_eq, and_assoc]
  refine and_congr_right fun hn => ⟨fun ⟨hl, hh⟩ => ⟨max (a / 65536) (lo / 65536), ?_⟩, fun ⟨k, hk⟩ => ?_⟩ <;> omega

/-- The half of O36 on ends: what exits is gone or leaves its team, and what is invalidated leaves every TLB. -/
theorem endsAndInvalidations : EndsAndInvalidations := by
  intro s b a d x p keeps touches
  refine ⟨fun hg hready hw => computes_chkerr hg d hready hw, fun hg hidle hw => does_chkerr_sequencer hg hidle hw d,
    does_exit_gone s, fun hg htry hq hrun hme ⟨h, hh, hteam, h64, hlive⟩ => does_exit_group hg htry hq hrun hme hh hteam h64 hlive,
    fun hk htry hrel => ?_⟩
  have hgoes {i : Instr} {use : State → State} {c : BitVec 32} (f : TlbEntry → Bool) (hn : Noted s (use s) c) (hi : exec i s = .next (s.pginv use f)) :
      keeps i f := by
    obtain ⟨t, ht, hkeeps⟩ := State.pginv_goes hk htry hrel hn f
    exact ⟨t, ht ▸ hi, hkeeps⟩
  exact ⟨hgoes _ (Noted.refl s) rfl, hgoes _ (Noted.uses [a]) rfl, fun e => e.inRange (s.rs a).toNat (s.rs b).toNat,
    hgoes _ (Noted.usesAddr a [b]) rfl, fun e => e.inRange_iff ..⟩

end Sys2Proof.Machine
end

