-- ==== Sys2Proof/Proofs/FencesAndJoins.lean ====
section
/-! SUPPORT. `fence` and `qfence`: acquires and the join points of the queues (05 R129 to R131). -/

namespace Sys2Proof.Machine
open Claims

/-! ## `fence` -/

theorem does_fence {s : State} {k : BitVec 2} (hrel : k.getLsbD 1 = true → s.released s.me = true) (hw : (own s).awaits false = false) (sc : BitVec 3) :
    Does (.fence k sc) s fun t =>
      (t.grp s.me).pc = s.after ∧ WroteNone (own s) (t.grp s.me) ∧ MemoryKept s t ∧ ∀ g, g ≠ s.me → t.grp g = s.grp g := by
  have hr : (k.getLsbD 1 && !s.released s.me) = false := by
    cases h : k.getLsbD 1 with
    | false => rfl
    | true => simp [hrel h]
  have hroster : (if k.getLsbD 0 then s.acquire s.me sc.toNat else s).roster = s.roster := State.roster_ite _ (s.roster_acquire ..) rfl
  refine ⟨(if k.getLsbD 0 then s.acquire s.me sc.toNat else s).nextPc, ?_,
    (Poised.of_roster hroster).goesOn (.ite _ (.acquire s ..) (.refl s)) fun g _ => State.grp_of_roster hroster g⟩
  change execFence k sc s = _
  unfold own at hw
  simp only [execFence, hr, hw, Bool.or_false, Bool.false_eq_true, if_false]

/-! ## Join points -/

theorem State.foldl_onCore_eq (f : State → Nat → Nat) (c : Nat → Core → Core) (l : List Nat) (s : State) :
    l.foldl (fun s i => s.onCore (f s i) (c i)) s = { s with cores := (l.foldl (fun s i => s.onCore (f s i) (c i)) s).cores } := by
  induction l generalizing s with
  | nil => rfl
  | cons i l ih => exact ih _

/-- Nothing has changed but the queues of cores and units, and the join points in them. -/
def QueuesOnly (s t : State) : Prop := t = { s with cores := t.cores, joins := t.joins, nextJoin := t.nextJoin, rennets := t.rennets }

namespace QueuesOnly

theorem refl (s : State) : QueuesOnly s s := rfl

theorem trans {s t u : State} (h : QueuesOnly s t) (k : QueuesOnly t u) : QueuesOnly s u := by
  unfold QueuesOnly at *
  rw [h] at k
  exact k

theorem onCores (f : State → Nat → Nat) (c : Nat → Core → Core) (l : List Nat) (s : State) :
    QueuesOnly s (l.foldl (fun s i => s.onCore (f s i) (c i)) s) := by
  unfold QueuesOnly
  rw [State.foldl_onCore_eq]

theorem ite {s t u : State} (c : Prop) [Decidable c] (h : QueuesOnly s t) (k : QueuesOnly s u) : QueuesOnly s (if c then t else u) := by
  split
  · exact h
  · exact k

theorem dropJoin (s : State) (j : Join) : QueuesOnly s (s.dropJoin j) := by
  unfold State.dropJoin
  extract_lets s1 s2
  have h1 : QueuesOnly s s1 := onCores (fun _ _ => j.core) _ _ s
  have h2 : QueuesOnly s s2 := h1.trans (.ite _ (onCores (fun _ k => k) (fun _ => _) _ s1) (.refl s1))
  exact h2.trans (by unfold QueuesOnly; rfl)

theorem settle (n : Nat) (s : State) : QueuesOnly s (s.settle n) := by
  induction n generalizing s with
  | zero => exact .refl s
  | succ n ih =>
    unfold State.settle
    split
    · exact (dropJoin s _).trans (ih _)
    · exact .refl s

theorem placeJoin (s : State) (g : Nat) (q : BitVec 4) (press rennet : Bool) : QueuesOnly s (s.placeJoin g q press rennet) := by
  unfold State.placeJoin
  extract_lets k id before j s1 s2
  have h1 : QueuesOnly s s1 := onCores (fun _ _ => k) _ _ s
  have h2 : QueuesOnly s s2 := h1.trans (.ite _ (onCores (fun _ k => k) (fun _ => _) _ s1) (.refl s1))
  refine (h2.trans ?_).trans (settle ..)
  exact Eq.refl _

variable {s t : State} (h : QueuesOnly s t)
include h

theorem grp (g : Nat) : t.grp g = s.grp g := by
  unfold QueuesOnly at h
  rw [h]
  rfl

theorem poised : Poised s t (own s).chkint where
  cur := by
    unfold QueuesOnly at h
    rw [h]
  grp := h.grp s.me

theorem keepsMemory : KeepsMemory s t := by
  unfold QueuesOnly at h
  rw [h]
  exact .of_eq rfl rfl rfl

end QueuesOnly

theorem exec_qfence {s : State} {o : BitVec 1} {q : BitVec 4} (htry : (own s).inTry = false) (hgroup : keyGrp s.me ≠ 64 → o = 0#1)
    (hseq : keyGrp s.me = 64 → q = 0#4) (r : BitVec 1) : exec (.qfence r o q) s = .next (s.placeJoin s.me q (o = 1#1) (r = 1#1)).nextPc := by
  change execQfence r o q s = _
  unfold own at htry
  by_cases hg : keyGrp s.me = 64
  · simp [execQfence, htry, hg, hseq hg]
  · simp [execQfence, htry, hg, hgroup hg]

theorem does_qfence {s : State} {o : BitVec 1} {q : BitVec 4} (htry : (own s).inTry = false) (hgroup : keyGrp s.me ≠ 64 → o = 0#1)
    (hseq : keyGrp s.me = 64 → q = 0#4) (r : BitVec 1) : Does (.qfence r o q) s fun t =>
      (t.grp s.me).pc = s.after ∧ WroteNone (own s) (t.grp s.me) ∧ MemoryKept s t ∧ ∀ g, g ≠ s.me → t.grp g = s.grp g :=
  have h := QueuesOnly.placeJoin s s.me q (o = 1#1) (r = 1#1)
  ⟨_, exec_qfence htry hgroup hseq r, h.poised.goesOn h.keepsMemory fun g _ => h.grp g⟩

/-! ## A join point that stays -/

theorem mem_named4 {q : BitVec 4} {c : Nat} : c ∈ named4 q ↔ c < 4 ∧ q.getLsbD c = true := by
  simp [named4]

theorem nodup_named4 (q : BitVec 4) : (named4 q).Nodup := List.nodup_range.filter _

theorem State.coreAt_foldl_onCore (k : Nat) (f : Nat → Core → Core) (l : List Nat) (s : State) :
    (l.foldl (fun s i => s.onCore k (f i)) s).coreAt k = l.foldl (fun c i => f i c) (s.coreAt k) :=
  (List.foldl_hom (fun s : State => s.coreAt k) fun s i => (s.coreAt_onCore k (f i)).symm).symm

/-- An operation put at the end of some Ladle queues. -/
theorem read_ladle_foldl_put (op : LadleOp) (l : List Nat) (hl : l.Nodup) (c : Core) (i : Nat) :
    KMap.read [] i (l.foldl (fun c i => { c with ladle := KMap.put i (KMap.read [] i c.ladle ++ [op]) c.ladle }) c).ladle =
      KMap.read [] i c.ladle ++ if i ∈ l then [op] else [] := by
  induction l generalizing c with
  | nil => simp
  | cons j l ih =>
    rw [List.nodup_cons] at hl
    rw [List.foldl_cons, ih hl.2, KMap.read_put]
    by_cases hi : i = j
    · subst hi
      simp [hl.1]
    · simp [hi]

/-- 05 R131: behind an operation that is still to complete a join point is not ready. -/
theorem State.joinReady_behind {s : State} {j : Join} {c : Nat} {op : LadleOp} {rest : List LadleOp} (hc : c < 4) (hq : j.ladle.getLsbD c = true)
    (hhead : KMap.read [] c (s.coreAt j.core).ladle = op :: rest) (hop : op ≠ .join j.id) : s.joinReady j = false := by
  have hhead : s.ladleHeadIs j.core c j.id = false := by
    unfold State.ladleHeadIs
    rw [hhead]
    split
    next i _ h =>
      simp only [List.cons.injEq] at h
      simp only [decide_eq_false_iff_not]
      rintro rfl
      exact hop h.1
    next => rfl
  have hall : ((named4 j.ladle).all fun q => s.ladleHeadIs j.core q j.id && !(s.casts.any fun c => c.core = j.core && c.queue = q)) = false := by
    rw [List.all_eq_false]
    exact ⟨c, mem_named4.mpr ⟨hc, hq⟩, by simp [hhead]⟩
  unfold State.joinReady
  rw [hall]
  rfl

theorem State.settleJoins_one {s : State} {j : Join} (hj : s.joins = [j]) (hr : s.joinReady j = false) : s.settleJoins = s := by
  unfold State.settleJoins State.settle
  simp [hj, hr]

/-- 05 R131: the only join point there is stays behind an operation of a queue that it names. -/
theorem State.placeJoin_stays {s : State} {g c : Nat} {q : BitVec 4} {op : LadleOp} {rest : List LadleOp} (hj : s.joins = []) (hc : c < 4)
    (hq : q.getLsbD c = true) (hhead : KMap.read [] c (s.coreAt (s.gCore g)).ladle = op :: rest) (hop : op ≠ .join s.nextJoin) (rennet : Bool) :
    (s.placeJoin g q false rennet).nextJoin = s.nextJoin + 1 ∧
    (∃ j, (s.placeJoin g q false rennet).joins = [j] ∧ j.id = s.nextJoin ∧ j.ladle = q ∧ j.g = g) ∧
    ∀ i, i < 4 → KMap.read [] i ((s.placeJoin g q false rennet).coreAt (s.gCore g)).ladle =
      KMap.read [] i (s.coreAt (s.gCore g)).ladle ++ if q.getLsbD i then [.join s.nextJoin] else [] := by
  unfold State.placeJoin
  extract_lets k id before j s1 s2
  have hs2 : s2 = s1 := if_neg (by simp)
  have hladle (i : Nat) (hi : i < 4) : KMap.read [] i (s1.coreAt k).ladle = KMap.read [] i (s.coreAt k).ladle ++ if q.getLsbD i then [.join id] else [] := by
    unfold s1
    rw [State.coreAt_foldl_onCore, read_ladle_foldl_put _ _ (nodup_named4 q)]
    simp [mem_named4, hi]
  have hjoins : s1.joins = [] := (congrArg State.joins (State.foldl_onCore_eq (fun _ _ => k) _ _ s)).trans hj
  rw [hs2, State.settleJoins_one (j := j)]
  · exact ⟨rfl, ⟨j, by rw [hjoins]; rfl, rfl, rfl, rfl⟩, hladle⟩
  · rw [hjoins]
    rfl
  · refine State.joinReady_behind hc hq (op := op) (rest := rest ++ [.join id]) ?_ hop
    exact (hladle c hc).trans (by rw [hhead, hq]; rfl)

theorem does_qfence_stays {s : State} {o : BitVec 1} {q : BitVec 4} (htry : (own s).inTry = false) (hgroup : keyGrp s.me ≠ 64 → o = 0#1)
    (hseq : keyGrp s.me = 64 → q = 0#4) (r : BitVec 1) (hj : s.joins = [])
    (hhead : ∃ j op rest, j < 4 ∧ q.getLsbD j ∧ KMap.read [] j (s.coreAt (s.gCore s.me)).ladle = op :: rest ∧ op ≠ .join s.nextJoin) :
    Does (.qfence r o q) s fun t => t.nextJoin = s.nextJoin + 1 ∧ (∃ j, t.joins = [j] ∧ j.id = s.nextJoin ∧ j.ladle = q ∧ j.g = s.me) ∧
      ∀ c, c < 4 → KMap.read [] c (t.coreAt (s.gCore s.me)).ladle =
        KMap.read [] c (s.coreAt (s.gCore s.me)).ladle ++ if q.getLsbD c then [.join s.nextJoin] else [] := by
  obtain ⟨c, op, rest, hc, hq, hhead, hop⟩ := hhead
  have hg : keyGrp s.me ≠ 64 := fun h => by simp [hseq h] at hq
  have hstays := State.placeJoin_stays hj hc hq hhead hop (r = 1#1)
  have hnext := (QueuesOnly.placeJoin s s.me q false (r = 1#1)).poised.onlyStream_nextPc.near
  have hex := exec_qfence htry hgroup hseq r
  rw [show decide (o = 1#1) = false by simp [hgroup hg]] at hex
  refine ⟨_, hex, ?_⟩
  generalize s.placeJoin s.me q false (r = 1#1) = t at *
  have hid : t.nextPc.nextJoin = t.nextJoin := hnext.congr State.nextJoin fun _ => rfl
  have hjoins : t.nextPc.joins = t.joins := hnext.congr State.joins fun _ => rfl
  have hladle : (t.nextPc.coreAt (s.gCore s.me)).ladle = (t.coreAt (s.gCore s.me)).ladle := by rw [hnext.cores]
  rw [hid, hjoins, hladle]
  exact hstays

end Sys2Proof.Machine
end

