-- ==== Sys2Proof/Proofs/TokenEntries.lean ====
section
/-! SUPPORT. Writing an entry of the token table (15 R358 to R360, R367): what its entry, and every other, reads as afterwards. -/

namespace Sys2Proof.Machine
open Claims

/-! ## The fields of an entry -/

/-- 15 R359: every field fits its bits. -/
structure TokEntry.Fits (e : TokEntry) : Prop where
  gen : e.gen < 2 ^ 16
  lender : e.lender < 2 ^ 24
  holder : e.holder < 2 ^ 24
  base : e.base < 2 ^ 36
  log2 : e.log2 < 2 ^ 5
  state : e.state < 2 ^ 3
  space : e.space < 2
  suspect : e.suspect < 2
  shares : e.shares < 2 ^ 9
  lentsh : e.lentsh < 2 ^ 9

theorem TokEntry.fits_ofNat (x : Nat) : (TokEntry.ofNat x).Fits := by
  constructor <;> simp only [TokEntry.ofNat, bits] <;> omega

theorem TokEntry.Fits.ofNat_toNat {e : TokEntry} (h : e.Fits) : TokEntry.ofNat e.toNat = e := by
  obtain ⟨hgen, hlender, hholder, hbase, hlog2, hstate, hspace, hsuspect, hshares, hlentsh⟩ := h
  cases e
  simp only [TokEntry.ofNat, TokEntry.toNat, bits, TokEntry.mk.injEq] at *
  omega

theorem TokEntry.Fits.toNat_lt {e : TokEntry} (h : e.Fits) : e.toNat < 256 ^ 16 := by
  obtain ⟨hgen, hlender, hholder, hbase, hlog2, hstate, hspace, hsuspect, hshares, hlentsh⟩ := h
  simp only [TokEntry.toNat] at *
  omega

/-- 15 R360: an entry that does not read as STRANDED is the one that memory holds, sound and not poisoned. -/
theorem State.tok_of_not_stranded {s : State} {id : Nat} (h : (s.tok id).state ≠ 4) : (s.tok id).Fits ∧ (s.tok id).state < 6 ∧
    (s.tok id).lentsh ≤ (s.tok id).shares ∧ ((s.tok id).log2 ≤ if (s.tok id).space = 0 then 24 else 31) ∧ s.bad (s.tokAddr id) = false := by
  by_cases hc : ((s.tokRaw id).state ≥ 6 || (s.tokRaw id).lentsh > (s.tokRaw id).shares ||
      (s.tokRaw id).log2 > (if (s.tokRaw id).space = 0 then 24 else 31) || s.bad (s.tokAddr id)) = true
  · exact absurd (congrArg TokEntry.state (if_pos hc)) h
  · have htok : s.tok id = s.tokRaw id := if_neg hc
    simp only [Bool.or_eq_true, decide_eq_true_eq, not_or, not_le, not_lt, Bool.not_eq_true, ge_iff_le, gt_iff_lt] at hc
    obtain ⟨⟨⟨hstate, hsh⟩, hlog⟩, hbad⟩ := hc
    rw [htok]
    exact ⟨TokEntry.fits_ofNat _, hstate, hsh, hlog, hbad⟩

/-! ## Where entries lie -/

/-- An entry lies in one block of 512 bytes of a first frame, whose copy is in the second. -/
theorem mirroredByte_entry {base : Nat} (hb : base % 0x40_0000 = 0) (i : Nat) :
    mirroredByte base (16 * i) % 16 = 0 ∧ mirroredByte base (16 * i) / 0x20_0000 % 2 = 0 := by
  unfold mirroredByte
  omega

theorem mirroredByte_entry_inj {base i j : Nat} (h : mirroredByte base (16 * i) = mirroredByte base (16 * j)) : i = j := by
  unfold mirroredByte at h
  omega

/-! ## A small store -/

/-- A store of less than a sector clears no poison. -/
theorem clearWhole_small (p : KMap Bool) (a : Nat) {n : Nat} (hn : n < 32) : clearWhole p a n = p :=
  foldl_eq_self fun k _ => if_neg (by omega)

theorem State.store_block {s : State} {a : Nat} {bs : List Byte} (h : a / 512 = (a + bs.length - 1) / 512) : s.store a bs = s.storeBlock a bs := if_pos h

section
variable (s : State)

theorem State.bytesAt_storeAt_same (a : Nat) (bs : List Byte) : (s.storeAt a bs).bytesAt a bs.length = bs := by
  refine List.ext_getElem (by simp [State.bytesAt]) fun i hi _ => ?_
  simp only [State.bytesAt, List.length_map, List.length_range] at hi
  simp [State.bytesAt, State.byteAt_storeAt, hi]

theorem State.bytesAt_storeAt_other {a b n : Nat} {bs : List Byte} (h : b + n ≤ a ∨ a + bs.length ≤ b) :
    (s.storeAt a bs).bytesAt b n = s.bytesAt b n := by
  refine List.map_congr_left fun i hi => ?_
  rw [List.mem_range] at hi
  rw [State.byteAt_storeAt, if_neg (by omega)]

/-- 16 R391: what either copy of a place reads after a store there. -/
theorem State.bytesAt_storeBlock {a : Nat} {bs : List Byte} (hl : bs.length ≤ 512) :
    (s.storeBlock a bs).bytesAt a bs.length = bs ∧
      (s.mirrored (a / 0x20_0000) = true → (s.storeBlock a bs).bytesAt (mirrorOf a) bs.length = bs) := by
  have hm : (s.storeAt a bs).mirrored (a / 0x20_0000) = s.mirrored (a / 0x20_0000) := rfl
  unfold State.storeBlock
  simp only [hm]
  split
  next h => exact ⟨by rw [State.bytesAt_storeAt_other _ (by rw [mirrorOf_eq]; split <;> omega), State.bytesAt_storeAt_same],
      fun _ => State.bytesAt_storeAt_same ..⟩
  next h => exact ⟨State.bytesAt_storeAt_same .., fun hc => absurd hc h⟩

theorem State.bytesAt_storeBlock_other {a b n : Nat} {bs : List Byte} (h : b + n ≤ a ∨ a + bs.length ≤ b)
    (hm : s.mirrored (a / 0x20_0000) = true → b + n ≤ mirrorOf a ∨ mirrorOf a + bs.length ≤ b) : (s.storeBlock a bs).bytesAt b n = s.bytesAt b n :=
  List.map_congr_left fun i hi => by
    rw [List.mem_range] at hi
    exact s.byteAt_storeBlock_other _ _ _ (by omega) fun hmir => by have := hm hmir; omega

theorem State.poison_storeBlock_small {a : Nat} {bs : List Byte} (hl : bs.length < 32) : (s.storeBlock a bs).poison = s.poison := by
  unfold State.storeBlock
  dsimp only
  split <;> simp [clearWhole_small _ _ hl]

/-- 09 R236: where no unit is lost and a small store is done in one block, every sector is as poisoned as before. -/
theorem State.badAt_storeBlock_small {a : Nat} {bs : List Byte} (hl : bs.length < 32) (b : Nat) : (s.storeBlock a bs).badAt b = s.badAt b := by
  rw [State.badAt, s.poison_storeBlock_small hl, State.badAt]

/-- A store moves no place: which units are lost, which frames have copies, where the token table lies. -/
theorem State.table_storeBlock (a : Nat) (bs : List Byte) : (s.storeBlock a bs).turner.lost = s.turner.lost ∧
    (s.storeBlock a bs).mirrored = s.mirrored ∧ (s.storeBlock a bs).tokAddr = s.tokAddr := by
  unfold State.storeBlock
  dsimp only
  split <;> exact ⟨rfl, rfl, rfl⟩

/-- Where no unit is lost, a read takes the second copy of a place whose first is poisoned and whose second is not. -/
theorem State.loadBytes_of_sound {s : State} (h : s.turner.lost = []) (a n : Nat) : s.loadBytes a n =
    if s.badAt a && s.mirrored (a / 0x20_0000) && !s.badAt (mirrorOf a) then s.bytesAt (mirrorOf a) n else s.bytesAt a n := by
  have hc (b : Nat) : s.badCopy b = s.badAt b := by simp [State.badCopy, State.undecodable, h]
  have hb (b : Nat) : s.copyBytes b n = s.bytesAt b n := by simp [State.copyBytes, h]
  rw [State.loadBytes, hc, hc, hb, hb]

end

/-! ## An entry written -/

/-- 15 R358: writing an entry is a store of its 16 bytes in one block, cores apart. -/
theorem State.setTok_apart {s : State} (hb : s.tokbase.toNat % 0x40_0000 = 0) (id : Nat) (e : TokEntry) :
    (s.setTok id e).apart = (s.storeBlock (s.tokAddr id) (bytesOfNat 16 e.toNat)).apart := by
  have h16 := (mirroredByte_entry hb id).1
  have hstore : s.store (s.tokAddr id) (bytesOfNat 16 e.toNat) = s.storeBlock (s.tokAddr id) (bytesOfNat 16 e.toNat) := by
    refine State.store_block ?_
    rw [length_bytesOfNat]
    unfold State.tokAddr
    omega
  unfold State.setTok
  rw [hstore]
  dsimp only
  split <;> rfl

/-- Two entries share no byte, in either copy. -/
theorem State.entries_apart {s : State} {i j c : Nat} (hb : s.tokbase.toNat % 0x40_0000 = 0) (h : j ≠ i)
    (hc : c = s.tokAddr j ∨ c = mirrorOf (s.tokAddr j)) : (c + 16 ≤ s.tokAddr i ∨ s.tokAddr i + 16 ≤ c) ∧
      (c + 16 ≤ mirrorOf (s.tokAddr i) ∨ mirrorOf (s.tokAddr i) + 16 ≤ c) := by
  have hne : s.tokAddr j ≠ s.tokAddr i := fun he => h (mirroredByte_entry_inj he)
  obtain ⟨hi16, hi⟩ : s.tokAddr i % 16 = 0 ∧ s.tokAddr i / 0x20_0000 % 2 = 0 := mirroredByte_entry hb i
  obtain ⟨hj16, hj⟩ : s.tokAddr j % 16 = 0 ∧ s.tokAddr j / 0x20_0000 % 2 = 0 := mirroredByte_entry hb j
  have hmi := mirrorOf_eq (s.tokAddr i)
  have hmj := mirrorOf_eq (s.tokAddr j)
  split at hmi <;> split at hmj <;> rcases hc with rfl | rfl <;> omega

section
variable {s : State} (hsound : TableSound s) (id : Nat) (e : TokEntry)
include hsound

theorem State.bad_setTok (a : Nat) : (s.setTok id e).bad a = s.bad a := by
  obtain ⟨hbase, hlost⟩ := hsound
  have hbad := s.badAt_storeBlock_small (a := s.tokAddr id) (bs := bytesOfNat 16 e.toNat) (by rw [length_bytesOfNat]; omega)
  rw [← State.bad_apart, State.setTok_apart hbase, State.bad_apart]
  obtain ⟨hlost', hmir, -⟩ := s.table_storeBlock (s.tokAddr id) (bytesOfNat 16 e.toNat)
  rw [State.bad_of_sound (hlost'.trans hlost), State.bad_of_sound hlost, hbad, hbad, hmir]

theorem State.tokRaw_setTok (j : Nat) : (s.setTok id e).tokRaw j = if j = id then TokEntry.ofNat (e.toNat % 256 ^ 16) else s.tokRaw j := by
  obtain ⟨hbase, hlost⟩ := hsound
  have hlen := length_bytesOfNat 16 e.toNat
  have hbad := s.badAt_storeBlock_small (a := s.tokAddr id) (bs := bytesOfNat 16 e.toNat) (by omega)
  have hsame := s.bytesAt_storeBlock (a := s.tokAddr id) (bs := bytesOfNat 16 e.toNat) (by omega)
  have hother := fun b => s.bytesAt_storeBlock_other (a := s.tokAddr id) (b := b) (n := 16) (bs := bytesOfNat 16 e.toNat)
  rw [hlen] at hsame hother
  rw [← State.tokRaw_apart, State.setTok_apart hbase, State.tokRaw_apart]
  obtain ⟨hlost', hmir, haddr⟩ := s.table_storeBlock (s.tokAddr id) (bytesOfNat 16 e.toNat)
  generalize s.storeBlock (s.tokAddr id) (bytesOfNat 16 e.toNat) = u at *
  unfold State.tokRaw
  rw [State.loadBytes_of_sound (hlost'.trans hlost), haddr, hmir, hbad, hbad]
  by_cases hj : j = id
  · rw [if_pos hj, hj, ← natOfBytes_bytesOfNat]
    split
    next h =>
      simp only [Bool.and_eq_true] at h
      obtain ⟨⟨-, hm⟩, -⟩ := h
      rw [hsame.2 hm]
    next => rw [hsame.1]
  · have hap {c : Nat} (hc : c = s.tokAddr j ∨ c = mirrorOf (s.tokAddr j)) : u.bytesAt c 16 = s.bytesAt c 16 :=
      have ⟨hfirst, hcopy⟩ := State.entries_apart hbase hj hc
      hother c hfirst fun _ => hcopy
    rw [if_neg hj, State.loadBytes_of_sound hlost, hap (.inl rfl), hap (.inr rfl)]

theorem State.tokAddr_setTok : (s.setTok id e).tokAddr = s.tokAddr :=
  (congrArg State.tokAddr (State.setTok_apart hsound.1 id e)).trans (s.table_storeBlock ..).2.2

theorem State.tok_setTok_other {j : Nat} (hj : j ≠ id) : (s.setTok id e).tok j = s.tok j := by
  rw [State.tok, State.tok, State.tokRaw_setTok hsound, if_neg hj, State.tokAddr_setTok hsound, State.bad_setTok hsound]

/-- An entry that is sound, written over one that is not poisoned, is read back. -/
theorem State.tok_setTok_same (he : e.Fits) (hs : e.state < 6) (hsh : e.lentsh ≤ e.shares) (hlog : e.log2 ≤ if e.space = 0 then 24 else 31)
    (hbad : s.bad (s.tokAddr id) = false) : (s.setTok id e).tok id = e := by
  have hraw := State.tokRaw_setTok hsound id e id
  rw [if_pos rfl, Nat.mod_eq_of_lt he.toNat_lt, he.ofNat_toNat] at hraw
  rw [State.tok, hraw, State.tokAddr_setTok hsound, State.bad_setTok hsound, hbad]
  simp [hs, hsh, hlog]

end

end Sys2Proof.Machine
end

