-- ==== Sys2Proof/Proofs/Tasks.lean ====
section
/-! SUPPORT. Task entries: `tsig` and `tlaunch` (05 R132, R133, 14 R348, R349). -/

namespace Sys2Proof.Machine
open Claims

/-! ## Where an entry of the task table lies -/

/-- 14 R348, 16 R391: a task entry written changes no byte but its own and its copy's. -/
theorem State.memoryOutside_setTask (s : State) (p i : Nat) (u : Task) : MemoryOutside s (s.setTask p i u) p i := by
  intro hbase a ha hmir
  let v := s.onPart p (Partition.withTask · i u)
  let bs := (List.range 256).map fun k => Config.taskByte (s.free + k)
  have hlen : bs.length = 256 := by simp [bs]
  have haddr : v.taskAddr p i = s.taskAddr p i := State.taskAddr_onPart _ _ _ _ rfl
  have hblock : v.store (s.taskAddr p i) bs = v.storeBlock (s.taskAddr p i) bs := by
    refine State.store_block ?_
    unfold State.taskAddr mirroredByte
    omega
  change ({ v.store (v.taskAddr p i) bs with free := _ } : State).byteAt a = v.byteAt a
  rw [haddr, hblock]
  exact v.byteAt_storeBlock_other _ _ _ (by rwa [hlen]) (by rwa [hlen])

theorem State.taskAt_setTask_other (s : State) (p : Nat) {i j : Nat} (h : j ≠ i) (u : Task) : (s.setTask p i u).taskAt p j = s.taskAt p j := by
  rw [State.taskAt, State.partAt_setTask, Partition.withTask, KMap.read_put_other _ h]
  rfl

/-! ## `tsig` -/

section
variable {s : State} {e : BitVec 13} {a : BitVec 6} {p i : Nat} {u : Task}

theorem exec_tsig (hp : s.gPart s.me = p) (hi : (s.rs a).toNat = i) (hu : s.taskAt p i = u) (htry : (own s).inTry = false)
    (hrel : s.released s.me = true) (he : 0 < e.toInt) (hstate : u.state ≠ .free) (hn : i < (s.partAt p).ptaskn.toNat) (hcount : e.toNat ≤ u.count)
    (d : BitVec 6) : exec (.tsig e a d) s = .next (((s.uses [a]).lowerTask p i e.toNat).finish d (BitVec.ofNat 64 u.count)) := by
  subst hp hi hu
  change execTsig e a d s = _
  unfold own at htry
  simp [execTsig, htry, hrel, not_le.mpr he, hstate, not_le.mpr hn, not_lt.mpr hcount]

theorem does_tsig (hp : s.gPart s.me = p) (hi : (s.rs a).toNat = i) (hu : s.taskAt p i = u) (htry : (own s).inTry = false)
    (hrel : s.released s.me = true) (he : 0 < e.toInt) (hstate : u.state ≠ .free) (hn : i < (s.partAt p).ptaskn.toNat) (hcount : e.toNat ≤ u.count)
    (d : BitVec 6) : Does (.tsig e a d) s fun t => Went s t d (BitVec.ofNat 64 u.count) ∧ (e.toNat < u.count →
      t.taskAt p i = { u with count := u.count - e.toNat } ∧ MemoryOutside s t p i ∧ ∀ j, j ≠ i → t.taskAt p j = s.taskAt p j) := by
  have hs := Noted.uses (s := s) [a]
  have htask (j : Nat) : (s.uses [a]).taskAt p j = s.taskAt p j := hs.near.congr (fun v => v.taskAt p j) fun _ => rfl
  have hpoised := hs.toPoised.trans (.of_roster (State.roster_lowerTask _ p i e.toNat))
  refine ⟨_, exec_tsig hp hi hu htry hrel he hstate hn hcount d, hpoised.went .., fun hlt => ?_⟩
  have hlower : (s.uses [a]).lowerTask p i e.toNat = (s.uses [a]).setTask p i { u with count := u.count - e.toNat } := by
    unfold State.lowerTask
    rw [htask, hu]
    exact if_neg (by omega)
  have hfin := (hpoised.onlyStream_finish d (BitVec.ofNat 64 u.count)).near
  rw [hlower] at hfin ⊢
  have hread (j : Nat) := hfin.congr (fun v => v.taskAt p j) fun _ => rfl
  refine ⟨(hread i).trans (State.taskAt_setTask ..), ?_, fun j hj => ?_⟩
  · have hout := State.memoryOutside_setTask (s.uses [a]) p i { u with count := u.count - e.toNat }
    rwa [hs.near.congr (fun v => MemoryOutside v _ p i) fun _ => rfl, ← hfin.congr (fun v => MemoryOutside s v p i) fun _ => rfl] at hout
  · rw [hread, State.taskAt_setTask_other _ _ hj, htask]

end

/-! ## What reading a record leaves of the task tables -/

/-- Every partition has the task entries that it had. -/
structure KeepsTasks (s t : State) : Prop where
  tasks (p : Nat) : (t.partAt p).tasks = (s.partAt p).tasks

namespace KeepsTasks

theorem refl (s : State) : KeepsTasks s s := ⟨fun _ => rfl⟩

theorem trans {s t u : State} (h : KeepsTasks s t) (k : KeepsTasks t u) : KeepsTasks s u := ⟨fun p => (k.tasks p).trans (h.tasks p)⟩

theorem of_parts {s t : State} (h : t.parts = s.parts) : KeepsTasks s t := ⟨fun p => by rw [State.partAt, State.partAt, h]⟩

theorem of_near {g : Nat} {s t : State} (h : Near g s t) : KeepsTasks s t := .of_parts (h.congr State.parts fun _ => rfl)

theorem of_aside {s t : State} (h : t.aside = s.aside) : KeepsTasks s t :=
  .of_parts (congrArg State.parts h : t.aside.parts = s.aside.parts)

theorem ite {s t u : State} (c : Prop) [Decidable c] (h : KeepsTasks s t) (k : KeepsTasks s u) : KeepsTasks s (if c then t else u) := by
  split
  · exact h
  · exact k

theorem foldl {α : Type} (f : State → α → State) (hf : ∀ s a, KeepsTasks s (f s a)) (l : List α) (s : State) : KeepsTasks s (l.foldl f s) := by
  induction l generalizing s with
  | nil => exact .refl s
  | cons a l ih => exact (hf s a).trans (ih _)

variable (s : State)

theorem onPart (p : Nat) (f : Partition → Partition) (hf : ∀ q, (f q).tasks = q.tasks) : KeepsTasks s (s.onPart p f) where
  tasks k := by
    by_cases hk : k = p
    · rw [hk, State.partAt_onPart, hf]
    · exact congrArg Partition.tasks (KMap.read_put_other _ hk ..)

theorem leaveL2 (x : L2Line) (m : BitVec 4) : KeepsTasks s (s.leaveL2 x m) :=
  .ite _ (.refl s) (.foldl _ (fun s i => by dsimp only; exact .ite _ (.refl s) (.of_parts rfl)) _ s)

theorem onL2 (n : Nat) (f : L2Line → Option L2Line) : KeepsTasks s (s.onL2 n f) :=
  s.onL2_keeps (P := KeepsTasks s) (fun _ _ _ h => h.trans (.leaveL2 ..)) (fun _ _ h => h.trans (.of_parts rfl)) (.refl s) n f

theorem touchL2 (p pa hint : Nat) (w : Bool) : KeepsTasks s (s.touchL2 p pa hint w) :=
  s.touchL2_keeps (P := KeepsTasks s) (fun _ _ _ h => h.trans (.leaveL2 ..)) (fun _ _ h => h.trans (.of_parts rfl))
    (fun _ _ h => h.trans (.of_aside (State.aside_countDecode ..))) (.refl s) p pa hint w

theorem flushProxy : KeepsTasks s s.flushProxy :=
  .ite _ (.refl s) (.trans (.foldl (fun s (e : Nat × Byte) => s.hostStore e.1 [e.2]) (fun _ _ => .of_parts rfl) s.proxy s) (.of_parts rfl))

theorem rawStore (p : Nat) (x : Xlat) (bs : List Byte) (hint : Nat) : KeepsTasks s (s.rawStore p x bs hint) := by
  have hstore : KeepsTasks s ((s.store x.pa bs).touchImages x.pa) := .trans (.of_parts (ImageOnly.store s x.pa bs).frame.1) (.of_parts rfl)
  exact .ite _ (.refl s) (.ite _ ((KeepsTasks.flushProxy s).trans (.of_parts rfl))
    (.ite _ ((hstore.trans (.onL2 ..)).trans (.of_aside (State.aside_served ..))) (hstore.trans (.touchL2 ..))))

theorem writeVirtual {t : State} {w : Who} {va : Nat} {bs : List Byte} (h : s.writeVirtual w va bs = some t) : KeepsTasks s t := by
  unfold State.writeVirtual at h
  dsimp only at h
  split at h
  · cases h
    refine .foldl _ (fun s p => ?_) _ s
    split
    · exact .rawStore ..
    · exact .refl s
  · cases h

theorem postRaw (p : Nat) (r : FaultRec) : KeepsTasks s (s.postRaw p r) := by
  unfold State.postRaw
  dsimp only
  refine .ite _ (.onPart _ _ _ fun _ => rfl) ?_
  split
  · exact .onPart _ _ _ fun _ => rfl
  next h => exact (KeepsTasks.writeVirtual s h).trans (.onPart _ _ _ fun _ => rfl)

theorem hac (p va : Nat) : KeepsTasks s (s.hac p va) := by
  unfold State.hac
  dsimp only
  refine .ite _ (.refl s) ?_
  split
  · exact .refl s
  · split
    · exact .refl s
    next h =>
      have hw := KeepsTasks.writeVirtual s h
      have hpost := hw.trans (.postRaw _ p { kind := 5, xaddr := BitVec.ofNat 64 (va / 2 ^ 16 * 2 ^ 16) })
      exact .ite _ (.ite _ (hpost.trans (.of_parts rfl)) hpost) hw

theorem hacFor (w : Who) (va : Nat) (x : Xlat) : KeepsTasks s (s.hacFor w va x) := by
  have hflush (c : Bool) : KeepsTasks s (if c then s.flushProxy else s) := .ite _ (.flushProxy s) (.refl s)
  exact .ite _ ((hflush _).trans (.hac ..)) (hflush _)

theorem touchHome (p : Nat) (x : Xlat) (hint : Nat) : KeepsTasks s (s.touchHome p x hint) :=
  .ite _ (.refl s) (.ite _ (((KeepsTasks.onL2 s ..).trans (.of_aside (State.aside_served ..))).trans (.of_aside (State.aside_countDecode ..))) (.touchL2 s ..))

theorem touchRange (w : Who) (va n : Nat) : KeepsTasks s (s.touchRange w va n) := by
  refine .trans (t := { s with free := s.free + n }) (.of_parts rfl) (.foldl _ (fun s p => ?_) _ _)
  split
  · exact .refl s
  · exact ((KeepsTasks.of_aside (s.aside_touch ..)).trans (.hacFor ..)).trans (.touchHome ..)

end KeepsTasks

theorem State.roster_touchRange (s : State) (w : Who) (va n : Nat) : (s.touchRange w va n).roster = s.roster := by
  refine (State.roster_foldl _ (fun s p => ?_) _ _).trans rfl
  split <;> simp

/-! ## The lowest free entry -/

theorem KMap.freeFrom_eq_none {α : Type} {m : KMap α} {k n : Nat} (h : ∀ j, k ≤ j → j < k + n → (KMap.find j m).isSome) :
    KMap.freeFrom m k n = none := by
  induction n generalizing k with
  | zero => rfl
  | succ n ih =>
    have hk : ¬(KMap.find k m).isNone := by simpa [← Option.isSome_iff_ne_none] using h k (by omega) (by omega)
    rw [KMap.freeFrom, if_neg hk]
    exact ih fun j hj hn => h j (by omega) (by omega)

theorem KMap.freeFrom_eq_some {α : Type} {m : KMap α} {k n j : Nat} (hk : k ≤ j) (hj : j < k + n) (hfree : KMap.find j m = none)
    (hlow : ∀ i, k ≤ i → i < j → (KMap.find i m).isSome) : KMap.freeFrom m k n = some j := by
  induction n generalizing k with
  | zero => omega
  | succ n ih =>
    rw [KMap.freeFrom]
    rcases Nat.eq_or_lt_of_le hk with rfl | hlt
    · rw [hfree]
      rfl
    · have hkm : ¬(KMap.find k m).isNone := by simpa [← Option.isSome_iff_ne_none] using hlow k (by omega) hlt
      rw [if_neg hkm]
      exact ih (by omega) (by omega) fun i hi hij => hlow i (by omega) hij

/-! ## `tlaunch` -/

/-- What `tlaunch` leaves once it has read its record: a poisoned one is consumed. -/
def State.tlaunchRead (s : State) (a b : BitVec 6) (bad : Bool) : State :=
  let t := (s.usesAddr a [b]).touchRange (s.whoIs s.me (own s).kernel) (s.rs a).toNat 128
  if bad then t.consumed s.me false else t

theorem State.tlaunchRead_poised (s : State) (a b : BitVec 6) (bad : Bool) : ∃ c, Poised s (s.tlaunchRead a b bad) c := by
  have hs := (Noted.usesAddr (s := s) a [b]).toPoised
  have hread := hs.trans (.of_roster (State.roster_touchRange _ (s.whoIs s.me (own s).kernel) (s.rs a).toNat 128))
  have hbad := Noted.ite (bad = true) (Noted.refl ((s.usesAddr a [b]).touchRange (s.whoIs s.me (own s).kernel) (s.rs a).toNat 128)).consumed (.refl _)
  rw [hread.me] at hbad
  exact ⟨_, hread.trans hbad.toPoised⟩

theorem State.tlaunchRead_tasks (s : State) (a b : BitVec 6) (bad : Bool) : KeepsTasks s (s.tlaunchRead a b bad) :=
  ((KeepsTasks.of_near (Noted.usesAddr a [b]).near).trans (.touchRange ..)).trans (.ite _ (.of_near ((Near.refl s.me _).onGrp _ |>.count ..)) (.refl _))

/-- 05 R132: the entry that `tlaunch` writes. -/
def State.launchedTask (s : State) (ds : List (List Byte × Bool)) (count : Nat) : Task :=
  { record := ds.flatMap Prod.fst, poisoned := ds.any Prod.snd, count, submitter := s.gCluster s.me, prio := recField (ds.flatMap Prod.fst) 1 1 % 8,
    state := .armed }

/-- What `tlaunch` needs to reach the task table. -/
structure LaunchReads (s : State) (a b : BitVec 6) (ds : List (List Byte × Bool)) : Prop where
  outside : (own s).inTry = false
  aligned : (s.rs a).toNat % 128 = 0
  count : (s.rs b).toNat ≤ 65535
  idle : s.rangeBusy (s.whoIs s.me (own s).kernel) (s.rs a).toNat 128 .read = false
  read : s.readOwn s.me (s.whoIs s.me (own s).kernel) (s.rs a).toNat 128 = .ok ds

section
variable {s : State} {a b : BitVec 6} {ds : List (List Byte × Bool)} (h : LaunchReads s a b ds)
include h

theorem exec_tlaunch_none (hnone : (if s.failed then none else KMap.freeFrom (s.partAt (s.gPart s.me)).tasks 0 (s.partAt (s.gPart s.me)).ptaskn.toNat) = none)
    (d : BitVec 6) : exec (.tlaunch b a d) s = .next ((s.tlaunchRead a b (ds.any Prod.snd)).finish d (BitVec.allOnes 64)) := by
  obtain ⟨htry, hal, hcount, hidle, hread⟩ := h
  change execTlaunch b a d s = _
  unfold own at htry hidle hread
  simp only [execTlaunch, htry, hal, not_lt.mpr hcount, hidle, hread, hnone, Bool.false_eq_true, ne_eq, not_true_eq_false, if_false]
  rfl

theorem exec_tlaunch_some {j : Nat}
    (hsome : (if s.failed then none else KMap.freeFrom (s.partAt (s.gPart s.me)).tasks 0 (s.partAt (s.gPart s.me)).ptaskn.toNat) = some j)
    (d : BitVec 6) : exec (.tlaunch b a d) s =
      let t := (s.tlaunchRead a b (ds.any Prod.snd)).setTask (s.gPart s.me) j (s.launchedTask ds (s.rs b).toNat)
      .next ((if (s.rs b).toNat = 0 then t.readyTask (s.gPart s.me) j else t).finish d (BitVec.ofNat 64 j)) := by
  obtain ⟨htry, hal, hcount, hidle, hread⟩ := h
  change execTlaunch b a d s = _
  unfold own at htry hidle hread
  simp only [execTlaunch, htry, hal, not_lt.mpr hcount, hidle, hread, hsome, Bool.false_eq_true, ne_eq, not_true_eq_false, if_false]
  rfl

/-- A failed device, or one with no free entry, gives no entry. -/
theorem does_tlaunch_none (hnone : s.failed = true ∨
      ∀ j, j < (s.partAt (s.gPart s.me)).ptaskn.toNat → (KMap.find j (s.partAt (s.gPart s.me)).tasks).isSome) (d : BitVec 6) : Does (.tlaunch b a d) s fun t =>
      Went s t d (BitVec.allOnes 64) ∧ (t.partAt (s.gPart s.me)).tasks = (s.partAt (s.gPart s.me)).tasks := by
  obtain ⟨c, hp⟩ := s.tlaunchRead_poised a b (ds.any Prod.snd)
  have hfree : (if s.failed then none else KMap.freeFrom (s.partAt (s.gPart s.me)).tasks 0 (s.partAt (s.gPart s.me)).ptaskn.toNat) = none := by
    rcases hnone with hf | hall
    · rw [if_pos hf]
    · rw [KMap.freeFrom_eq_none fun j _ hj => hall j (by omega), ite_self]
  exact ⟨_, exec_tlaunch_none h hfree d, hp.went .., ((s.tlaunchRead_tasks ..).trans (.of_near (hp.onlyStream_finish ..).near)).tasks _⟩

/-- Else the lowest free entry is taken, armed with the record read. -/
theorem does_tlaunch_some {j : Nat} (hf : s.failed = false) (hj : j < (s.partAt (s.gPart s.me)).ptaskn.toNat)
    (hfree : KMap.find j (s.partAt (s.gPart s.me)).tasks = none) (hlow : ∀ i, i < j → (KMap.find i (s.partAt (s.gPart s.me)).tasks).isSome) (d : BitVec 6) :
    Does (.tlaunch b a d) s fun t => Went s t d (BitVec.ofNat 64 j) ∧ (0 < (s.rs b).toNat →
      t.taskAt (s.gPart s.me) j = s.launchedTask ds (s.rs b).toNat ∧ ∀ i, i ≠ j → t.taskAt (s.gPart s.me) i = s.taskAt (s.gPart s.me) i) := by
  obtain ⟨c, hp⟩ := s.tlaunchRead_poised a b (ds.any Prod.snd)
  have hsome : (if s.failed then none else KMap.freeFrom (s.partAt (s.gPart s.me)).tasks 0 (s.partAt (s.gPart s.me)).ptaskn.toNat) = some j := by
    rw [if_neg (by simp [hf]), KMap.freeFrom_eq_some (Nat.zero_le j) (by omega) hfree fun i _ hi => hlow i hi]
  let t := (s.tlaunchRead a b (ds.any Prod.snd)).setTask (s.gPart s.me) j (s.launchedTask ds (s.rs b).toNat)
  let u := if (s.rs b).toNat = 0 then t.readyTask (s.gPart s.me) j else t
  have hroster : u.roster = (s.tlaunchRead a b (ds.any Prod.snd)).roster :=
    State.roster_ite _ ((t.roster_readyTask ..).trans (State.roster_setTask ..)) (State.roster_setTask ..)
  have hu := hp.trans (.of_roster hroster)
  refine ⟨_, exec_tlaunch_some h hsome d, hu.went .., fun hpos => ?_⟩
  have hut : u = t := if_neg (by omega)
  have hread (i : Nat) : (u.finish d (BitVec.ofNat 64 j)).taskAt (s.gPart s.me) i = t.taskAt (s.gPart s.me) i := by
    rw [← hut]
    exact (hu.onlyStream_finish ..).near.congr (fun v => v.taskAt (s.gPart s.me) i) fun _ => rfl
  have htasks := (s.tlaunchRead_tasks a b (ds.any Prod.snd)).tasks (s.gPart s.me)
  refine ⟨(hread j).trans (State.taskAt_setTask ..), fun i hi => ?_⟩
  rw [hread, State.taskAt_setTask_other _ _ hi, State.taskAt, htasks]
  rfl

end

end Sys2Proof.Machine
end

