-- ==== Sys2Proof/Proofs/Kicks.lean ====
section
/-! SUPPORT. `kick` (05 R134, 15 R371), and the fences, tasks and kicks of O36 together. -/

namespace Sys2Proof.Machine
open Claims

/-- The notice that `kick` reads: a poisoned sector reads as zeros (03 R91). -/
def State.kickBytes (s : State) (m o : Nat) : List Byte := if (s.tm m).badAt o then List.replicate 32 0 else (s.tm m).bytesAt o 32

/-- The token whose share a notice names. -/
def State.kickToken (s : State) (m o : Nat) : Nat := natOfBytes (((s.kickBytes m o).drop 0x18).take 3)

/-- What `kick` leaves once it has read its notice. -/
def State.kickRead (s : State) (a b : BitVec 6) (m o : Nat) : State :=
  if (s.tm m).badAt o then (s.usesAddr a [b]).consumed s.me false else s.usesAddr a [b]

theorem State.kickRead_noted (s : State) (a b : BitVec 6) (m o : Nat) : ∃ c, Noted s (s.kickRead a b m o) c :=
  ⟨_, .ite _ (Noted.usesAddr a [b]).consumed (.usesAddr a [b])⟩

/-- A kick that passes the checks of its table: a notice at `m`, `o`, a member `n`, a share that may be lent. -/
structure Kicks (s : State) (a b : BitVec 6) (m o n : Nat) : Prop where
  outside : (own s).inTry = false
  aligned : (s.rs a).toNat % 32 = 0
  loc : s.spadLoc (keyTeam s.me) (s.rs a).toNat 32 = some (m, o)
  target : s.kickTarget (s.gPart s.me) (s.rs b) = some n
  entry : s.tokExists (s.kickToken m o) = true
  shared : (s.tok (s.kickToken m o)).state = 2
  holder : (s.tok (s.kickToken m o)).holder = s.gCluster s.me
  share : (s.tok (s.kickToken m o)).lentsh < (s.tok (s.kickToken m o)).shares

/-- 15 R371: an entry with one more share lent. -/
def TokEntry.lendShare (e : TokEntry) : TokEntry := { e with lentsh := e.lentsh + 1 }

theorem TokEntry.Fits.lendShare {e : TokEntry} (h : e.Fits) (hs : e.lentsh < e.shares) : e.lendShare.Fits :=
  have hshares := h.shares
  { h with lentsh := (by omega : e.lentsh + 1 < 2 ^ 9) }

/-- The notice left with the target's core, and the share lent. -/
def State.kickLeft (s : State) (a b : BitVec 6) (m o core : Nat) : State :=
  ((s.kickRead a b m o).setTok (s.kickToken m o) (s.tok (s.kickToken m o)).lendShare).onCore core fun y =>
    { y with kick := some { bytes := s.kickBytes m o, sender := s.gCluster s.me, senderTeam := keyTeam s.me, addr := (s.rs a).toNat } }

section
variable {s : State} {a b : BitVec 6} {m o n : Nat} (h : Kicks s a b m o n) (d : BitVec 6)
include h

theorem Kicks.checked : (!s.tokExists (s.kickToken m o) || (s.tok (s.kickToken m o)).state ≠ 2 || (s.tok (s.kickToken m o)).holder ≠ s.gCluster s.me ||
    (s.tok (s.kickToken m o)).lentsh ≥ (s.tok (s.kickToken m o)).shares) = false := by
  simp [h.entry, h.shared, h.holder, h.share]

theorem exec_kick_away (hres : (s.cl (s.tm n).cluster).res ≠ .resident) : exec (.kick b a d) s = .next ((s.kickRead a b m o).finish d 2) := by
  have hchecked := h.checked
  obtain ⟨htry, hal, hloc, htarget, -⟩ := h
  change execKick b a d s = _
  unfold own State.kickToken State.kickBytes at *
  simp only [execKick, htry, hal, hloc, htarget, hchecked, hres, Bool.false_eq_true, ne_eq, not_true_eq_false, not_false_eq_true, if_false, if_true]
  rfl

theorem exec_kick_full {core : Nat} (hres : (s.cl (s.tm n).cluster).res = .resident) (hcore : (s.tm n).core = some core)
    (hfull : (s.coreAt core).kick.isSome) : exec (.kick b a d) s = .next ((s.kickRead a b m o).finish d 1) := by
  have hchecked := h.checked
  obtain ⟨htry, hal, hloc, htarget, -⟩ := h
  change execKick b a d s = _
  unfold own State.kickToken State.kickBytes at *
  simp only [execKick, htry, hal, hloc, htarget, hchecked, hres, hcore, hfull, Bool.false_eq_true, ne_eq, not_true_eq_false, if_false, if_true]
  rfl

theorem exec_kick {core : Nat} (hres : (s.cl (s.tm n).cluster).res = .resident) (hcore : (s.tm n).core = some core)
    (hnone : (s.coreAt core).kick = none) (hrel : s.released s.me = true) : exec (.kick b a d) s = .next ((s.kickLeft a b m o core).finish d 0) := by
  have hchecked := h.checked
  obtain ⟨htry, hal, hloc, htarget, -⟩ := h
  change execKick b a d s = _
  unfold own State.kickToken State.kickBytes at *
  simp only [execKick, htry, hal, hloc, htarget, hchecked, hres, hcore, hnone, hrel, Option.isSome_none, Bool.not_true, Bool.false_eq_true, ne_eq,
    not_true_eq_false, if_false]
  rfl

/-- 15 R371: of the token table only the share's entry has changed. -/
theorem Kicks.tok_kickLeft (core : Nat) (hsound : TableSound s) :
    (s.kickLeft a b m o core).tok (s.kickToken m o) = (s.tok (s.kickToken m o)).lendShare ∧
      ∀ j, j ≠ s.kickToken m o → (s.kickLeft a b m o core).tok j = s.tok j := by
  obtain ⟨c, hn⟩ := s.kickRead_noted a b m o
  have hs : TableSound (s.kickRead a b m o) := (hn.near.congr TableSound fun _ => rfl).mpr hsound
  have htok (j : Nat) : (s.kickRead a b m o).tok j = s.tok j := hn.near.congr (fun v => v.tok j) fun v => v.tok_apart j
  have hbad (x : Nat) : (s.kickRead a b m o).bad x = s.bad x := hn.near.congr (fun v => v.bad x) fun v => v.bad_apart x
  have haddr : (s.kickRead a b m o).tokAddr = s.tokAddr := hn.near.congr State.tokAddr fun _ => rfl
  have hleft (j : Nat) : (s.kickLeft a b m o core).tok j = ((s.kickRead a b m o).setTok (s.kickToken m o)
      (s.tok (s.kickToken m o)).lendShare).tok j := by
    have hap : (s.kickLeft a b m o core).apart = ((s.kickRead a b m o).setTok (s.kickToken m o)
        (s.tok (s.kickToken m o)).lendShare).apart := rfl
    rw [← State.tok_apart, hap, State.tok_apart]
  obtain ⟨hfits, hstate, -, hlog, hclean⟩ := State.tok_of_not_stranded (s := s) (id := s.kickToken m o) (by rw [h.shared]; decide)
  refine ⟨?_, fun j hj => by rw [hleft, State.tok_setTok_other hs _ _ hj, htok]⟩
  rw [hleft]
  exact State.tok_setTok_same hs _ _ (hfits.lendShare h.share) hstate h.share hlog (by rw [hbad, haddr, hclean])

theorem does_kick_away (hres : (s.cl (s.tm n).cluster).res ≠ .resident) : Does (.kick b a d) s fun t => Went s t d 2 ∧ MemoryKept s t :=
  have ⟨_, hn⟩ := s.kickRead_noted a b m o
  ⟨_, exec_kick_away h d hres, hn.went .., (hn.near.then (hn.onlyStream_finish ..)).near.memoryKept⟩

theorem does_kick_full {core : Nat} (hres : (s.cl (s.tm n).cluster).res = .resident) (hcore : (s.tm n).core = some core)
    (hfull : (s.coreAt core).kick.isSome) : Does (.kick b a d) s fun t => Went s t d 1 ∧ MemoryKept s t :=
  have ⟨_, hn⟩ := s.kickRead_noted a b m o
  ⟨_, exec_kick_full h d hres hcore hfull, hn.went .., (hn.near.then (hn.onlyStream_finish ..)).near.memoryKept⟩

theorem does_kick {core : Nat} (hres : (s.cl (s.tm n).cluster).res = .resident) (hcore : (s.tm n).core = some core)
    (hnone : (s.coreAt core).kick = none) (hrel : s.released s.me = true) : Does (.kick b a d) s fun t =>
      (t.coreAt core).kick = some { bytes := s.kickBytes m o, sender := s.gCluster s.me, senderTeam := keyTeam s.me, addr := (s.rs a).toNat } ∧
        TokenBecame s t (s.kickToken m o) (s.tok (s.kickToken m o)).lendShare d 0 := by
  obtain ⟨c, hn⟩ := s.kickRead_noted a b m o
  have hroster : (s.kickLeft a b m o core).roster = (s.kickRead a b m o).roster := by
    unfold State.kickLeft
    rw [State.roster_onCore, State.roster_setTok]
    exact fun _ => rfl
  have hp := hn.toPoised.trans (.of_roster hroster)
  have hfin := (hp.onlyStream_finish d 0).near
  refine ⟨_, exec_kick h d hres hcore hnone hrel, ?_, hp.went .., fun hsound => ?_⟩
  · rw [hfin.cores, State.kickLeft, State.coreAt_onCore]
  · have ⟨hsame, hother⟩ := h.tok_kickLeft core hsound
    have htok (j : Nat) := hfin.congr (fun v => v.tok j) fun v => v.tok_apart j
    exact ⟨(htok _).trans hsame, fun j hj => (htok j).trans (hother j hj)⟩

end

/-- The half of O36 on fences, tasks and kicks. -/
theorem fencesAndTasks : FencesAndTasks := by
  intro s k sc e r o q b a d x p i u n tasks
  refine ⟨fun hrel hw => does_fence hrel hw sc, fun htry hgroup hseq => ⟨does_qfence htry hgroup hseq r, does_qfence_stays htry hgroup hseq r⟩,
    fun htry hrel he hstate hi hcount => does_tsig rfl rfl rfl htry hrel he hstate hi hcount d, fun ds htry hal hcount hidle hread => ?_, ?_⟩
  · have h : LaunchReads s a b ds := ⟨htry, hal, hcount, hidle, hread⟩
    refine ⟨fun hnone => does_tlaunch_none h hnone d, fun j hf hj hfree hlow => ?_⟩
    obtain ⟨v, hex, hwent, htask⟩ := does_tlaunch_some h hf hj hfree hlow d
    refine ⟨v, hex, hwent, fun hpos => ?_⟩
    obtain ⟨hsame, hother⟩ := htask hpos
    rw [hsame]
    exact ⟨rfl, rfl, rfl, rfl, rfl, hother⟩
  · intro m off t htry hal hloc htarget bytes id hentry hshared hholder hshare
    have h : Kicks s a b m off t := ⟨htry, hal, hloc, htarget, hentry, hshared, hholder, hshare⟩
    exact ⟨does_kick_away h d, fun core hres hcore => ⟨does_kick_full h d hres hcore, does_kick h d hres hcore⟩⟩

/-- Settles O36: from its two halves. -/
theorem fencesTasksAndEnds : Obligations.FencesTasksAndEnds := ⟨fencesAndTasks, endsAndInvalidations⟩

end Sys2Proof.Machine
end

