-- ==== Sys2Proof/Proofs/LaneResults.lean ====
section
/-! SUPPORT. Lane instructions that write vector registers or predicates and go to the next slot (02 R33, 03 R91, 04 R92, R93). -/

namespace Sys2Proof.Machine
open Claims

/-! ## Masks and predicates -/

theorem getLsbD_foldl_setLane (ts : List Nat) (m : BitVec 16) {l : Nat} (hl : l < 16) :
    (ts.foldl (fun m t => m ||| (1#16 <<< t)) m).getLsbD l = (m.getLsbD l || decide (l ∈ ts)) := by
  induction ts generalizing m with
  | nil => simp
  | cons t ts ih =>
    have hbit : (1#16 <<< t).getLsbD l = decide (l = t) := by
      rw [BitVec.getLsbD_shiftLeft, BitVec.getLsbD_one, Bool.eq_iff_iff]
      simp [hl]
      omega
    rw [List.foldl_cons, ih, BitVec.getLsbD_or, hbit, Bool.or_assoc]
    simp

/-- A mask holds the lanes of its list. -/
theorem getLsbD_maskOf (ts : List Nat) {l : Nat} (hl : l < 16) : (maskOf ts).getLsbD l = decide (l ∈ ts) := by
  rw [maskOf, getLsbD_foldl_setLane ts _ hl, BitVec.getLsbD_zero, Bool.false_or]

/-- 04 R92, R93: a predicate write changes the bits named of one register, and never `k0`. -/
theorem Group.getLsbD_kSet (x : Group) (k : Nat) (m v : BitVec 16) (q : Nat) {l : Nat} (hl : l < 16) :
    ((x.kSet k m v).kGet q).getLsbD l = if q = k ∧ q ≠ 0 ∧ m.getLsbD l then v.getLsbD l else (x.kGet q).getLsbD l := by
  by_cases hk : k = 0
  · rw [Group.kSet, if_pos hk, if_neg (by omega)]
  by_cases hq : q = k
  · subst hq
    have hset : (x.kSet q m v).kGet q = (x.kGet q &&& ~~~ m) ||| (v &&& m) := by simp [Group.kSet, Group.kGet, hk]
    rw [hset]
    rw [BitVec.getLsbD_or, BitVec.getLsbD_and, BitVec.getLsbD_and, BitVec.getLsbD_not]
    cases m.getLsbD l <;> simp [hk, hl]
  · have hset : (x.kSet k m v).kGet q = x.kGet q := by
      unfold Group.kGet
      rw [Group.kSet, if_neg hk, KMap.read_write_other 0 hq]
    rw [hset, if_neg (fun h => hq h.1)]

/-- A predicate result leaves the rest of the stream. -/
theorem Group.kResults_frame (x : Group) (f : LaneWord) (m : BitVec 16) (k : Nat) (vs : List (Nat × Bool)) :
    x.kResults f m k vs = { x with k := (x.kResults f m k vs).k } := by
  unfold Group.kResults
  split
  · cases vs with
    | nil => rfl
    | cons v vs => exact x.kSet_eq ..
  · exact x.kSet_eq ..

/-- 02 R33, 04 R93: each acting lane takes the bit of the lane that leads it. -/
theorem Group.getLsbD_kResults (x : Group) (f : LaneWord) (m : BitVec 16) (k : Nat) (val : Nat → Bool) (q : Nat) {l : Nat} (hl : l < 16) :
    ((x.kResults f m k ((bodyLanes f m).map fun t => (t, val t))).kGet q).getLsbD l =
      if q = k ∧ q ≠ 0 ∧ m.getLsbD l then val (lead f m l) else (x.kGet q).getLsbD l := by
  by_cases hu : f.u = 1#1
  · simp only [Group.kResults, bodyLanes, lead, hu, if_true]
    cases hls : lanes m with
    | nil =>
      have hm : m.getLsbD l = false := by simpa [hl] using mt mem_lanes.2 (hls ▸ List.not_mem_nil : l ∉ lanes m)
      simp [hm]
    | cons t ts =>
      simp only [List.take_succ_cons, List.take_zero, List.map_cons, List.map_nil, List.head?_cons, Option.getD_some, x.getLsbD_kSet _ _ _ _ hl]
      refine if_ctx_congr Iff.rfl (fun h => ?_) fun _ => rfl
      cases val t <;> simp [h.2.2]
  · simp only [Group.kResults, bodyLanes, lead, hu, if_false, x.getLsbD_kSet _ _ _ _ hl]
    refine if_ctx_congr Iff.rfl (fun h => ?_) fun _ => rfl
    rw [getLsbD_maskOf _ hl]
    simp [mem_lanes, hl, h.2.2]

/-! ## The end of a lane instruction -/

section
variable (x : Group) (b : Bool)

@[simp] theorem Group.v_laneDone : (x.laneDone b).v = x.v := by cases b <;> rfl
@[simp] theorem Group.vPoison_laneDone : (x.laneDone b).vPoison = x.vPoison := by cases b <;> rfl
@[simp] theorem Group.k_laneDone : (x.laneDone b).k = x.k := by cases b <;> rfl
@[simp] theorem Group.tr_laneDone : (x.laneDone b).tr = x.tr := by cases b <;> rfl
@[simp] theorem Group.kGet_laneDone (q : Nat) : (x.laneDone b).kGet q = x.kGet q := by cases b <;> rfl
@[simp] theorem Group.chkint_laneDone : (x.laneDone b).chkint = if b then x.chkint ||| 1 else x.chkint := by cases b <;> rfl

end

/-- Of a stream nothing changed but vector slots, their poison, predicates and the `try` record. -/
def ResultsOnly (x y : Group) : Prop := y = { x with v := y.v, vPoison := y.vPoison, k := y.k, tr := y.tr }

theorem ResultsOnly.refl (x : Group) : ResultsOnly x x := rfl

theorem VectorOnly.results {x y : Group} (h : VectorOnly x y) : ResultsOnly x y := by
  unfold ResultsOnly
  rw [h]

theorem ResultsOnly.kResults {x y : Group} (h : ResultsOnly x y) (f : LaneWord) (m : BitVec 16) (k : Nat) (vs : List (Nat × Bool)) :
    ResultsOnly x (y.kResults f m k vs) := by
  unfold ResultsOnly
  rw [Group.kResults_frame, h]

theorem ResultsOnly.consumed {x y : Group} (h : ResultsOnly x y) (f : LaneWord) (m : BitVec 16) (bad : Nat → Bool) :
    LaneConsumed x (y.laneDone ((bodyLanes f m).any bad)) f m bad := by
  rw [LaneConsumed, Group.chkint_laneDone, h]

/-- What a lane instruction leaves once its results are written, poison consumed and the lane PC at the next slot. -/
theorem ResultsOnly.laneOnly {s t : State} {y : Group} {b : Bool} (h : ResultsOnly (own s) y) (hs : OnlyStream s.me s t)
    (hg : t.grp s.me = y.laneDone b) : LaneOnly s t := by
  refine ⟨hs, ?_⟩
  rw [hg, h]
  cases b <;> rfl

/-! ## The shapes of lane instructions -/

/-- Every lane instruction that writes vector registers computes what its result function says. -/
theorem laneComputes_of {i : Instr} {s : State} {f : LaneWord} {srcs : List (Nat × Nat)} {dst : Nat × Nat} {cost : Nat}
    {res : Group → Nat → Nat × Bool} (hi : exec i s = .next (s.laneCalc f srcs dst cost res)) :
    LaneComputes i s f srcs dst (res (own s)) := by
  intro hready hroom
  obtain ⟨hs, hg⟩ := State.laneCalc_ready s f srcs dst cost res hready hroom
  have hv := (own s).vectorOnly_vResults f (acting s f) dst.1 dst.2 fun l => (res (own s) l).1
  have hw := (own s).vecWrote_vResults f (acting s f) dst.1 dst.2 fun l => (res (own s) l).1
  refine ⟨_, hi, hv.results.laneOnly hs hg, ?_⟩
  rw [hg]
  exact ⟨by rw [Group.k_laneDone, hv], vecWrote_laneDone hw rfl rfl _, hv.results.consumed ..⟩

/-- A lane instruction whose registers are ready writes its bits, and goes to the next slot. -/
theorem State.laneTest_ready (s : State) (f : LaneWord) (srcs : List (Nat × Nat)) (kd cost : Nat) (res : Group → Nat → Bool × Bool)
    (hr : LaneReady s f srcs) :
    let t := s.laneTest f srcs kd cost res
    OnlyStream s.me s t ∧
      t.grp s.me = ((own s).kResults f (Claims.acting s f) kd ((bodyLanes f (Claims.acting s f)).map fun l => (l, (res (own s) l).1))).laneDone
        ((bodyLanes f (Claims.acting s f)).any fun l => (res (own s) l).2) := by
  simp only [State.laneTest, State.laneBody_ready s f _ _ hr, List.map_map, List.any_map]
  exact ⟨OnlyStream.laneNext (OnlyStream.pconsIf (OnlyStream.of_onGrp ..) rfl _) (by simp) .., State.grp_laneDone ..⟩

/-- Every lane instruction that writes a predicate writes the bits that its result function says. -/
theorem laneTests_of {i : Instr} {s : State} {f : LaneWord} {srcs : List (Nat × Nat)} {kd cost : Nat} {res : Group → Nat → Bool × Bool}
    (hi : exec i s = .next (s.laneTest f srcs kd cost res)) : LaneTests i s f srcs kd (res (own s)) := by
  intro hready
  obtain ⟨hs, hg⟩ := State.laneTest_ready s f srcs kd cost res hready
  have hk := (ResultsOnly.refl (own s)).kResults f (acting s f) kd ((bodyLanes f (acting s f)).map fun l => (l, (res (own s) l).1))
  refine ⟨_, hi, hk.laneOnly hs hg, ?_⟩
  rw [hg]
  refine ⟨⟨?_, ?_⟩, ?_, fun q l hl => ?_, hk.consumed ..⟩
  · rw [Group.v_laneDone, Group.kResults_frame]
  · rw [Group.vPoison_laneDone, Group.kResults_frame]
  · rw [Group.tr_laneDone, Group.kResults_frame]
  · rw [Group.kGet_laneDone]
    exact (own s).getLsbD_kResults f (acting s f) kd (fun l => (res (own s) l).1) q hl

end Sys2Proof.Machine
end

