-- ==== Sys2Proof/Proofs/LaneElements.lean ====
section
/-! SUPPORT. Lane integer instructions by element (03 R66, 06 R144, R147, R149 to R152): what packing elements gives, and each row's
function of its sources' elements. -/

namespace Sys2Proof.Machine
open Claims

/-! ## Elements (03 R66) -/

/-- An image has the bits of the registers that its type names. -/
theorem tyWidth_mul_tyCount (ty : BitVec 4) : tyWidth ty * tyCount ty = 32 * wide ty := by
  revert ty
  decide

theorem tyWidth_pos (ty : BitVec 4) : 0 < tyWidth ty := by
  revert ty
  decide

theorem part_lt (w x e : Nat) : part w x e < 2 ^ w := Nat.mod_lt _ (Nat.two_pow_pos w)

theorem packElems_lt (ty : BitVec 4) (es : List Nat) : packElems ty es < 2 ^ (tyWidth ty * es.length) := by
  induction es with
  | nil => simp [packElems]
  | cons e es ih =>
    have hlow : e % 2 ^ tyWidth ty < 2 ^ tyWidth ty := Nat.mod_lt _ (Nat.two_pow_pos _)
    calc packElems ty (e :: es) = e % 2 ^ tyWidth ty + 2 ^ tyWidth ty * packElems ty es := rfl
      _ < 2 ^ tyWidth ty * (packElems ty es + 1) := by rw [Nat.mul_add_one]; omega
      _ ≤ 2 ^ tyWidth ty * 2 ^ (tyWidth ty * es.length) := Nat.mul_le_mul_left _ ih
      _ = 2 ^ (tyWidth ty * (e :: es).length) := by rw [← pow_add, List.length_cons, Nat.mul_add_one, Nat.add_comm]

theorem part_packElems (ty : BitVec 4) (es : List Nat) {i : Nat} (hi : i < es.length) :
    part (tyWidth ty) (packElems ty es) i = es[i] % 2 ^ tyWidth ty := by
  induction es generalizing i with
  | nil => simp at hi
  | cons e es ih =>
    have hcons : packElems ty (e :: es) = e % 2 ^ tyWidth ty + 2 ^ tyWidth ty * packElems ty es := rfl
    cases i with
    | zero => simp [part, hcons]
    | succ i =>
      have hdiv : packElems ty (e :: es) / 2 ^ tyWidth ty = packElems ty es := by
        rw [hcons, Nat.add_mul_div_left _ _ (Nat.two_pow_pos _), Nat.div_eq_of_lt (Nat.mod_lt _ (Nat.two_pow_pos _)), Nat.zero_add]
      have hstep : part (tyWidth ty) (packElems ty (e :: es)) (i + 1) = part (tyWidth ty) (packElems ty es) i := by
        rw [part, part, Nat.mul_add_one, Nat.add_comm, pow_add, ← Nat.div_div_eq_div_mul, hdiv]
      rw [hstep, ih (by simpa using hi), List.getElem_cons_succ]

/-- Packed elements are those of their function, cut to the type's width. -/
theorem elements_eachElem {ty : BitVec 4} {g want : Nat → Nat} (h : ∀ e, g e % 2 ^ tyWidth ty = want e) : Elements ty (eachElem ty g) want := by
  refine ⟨by simpa [eachElem] using packElems_lt ty ((List.range (tyCount ty)).map g), fun e he => ?_⟩
  rw [eachElem, part_packElems ty _ (by simpa using he)]
  simpa using h e

/-- The one element of a type without parts is the image. -/
theorem part_whole {ty : BitVec 4} (hone : tyCount ty = 1) {x : Nat} (hx : x < 2 ^ (tyWidth ty * tyCount ty)) : part (tyWidth ty) x 0 = x := by
  rw [hone, Nat.mul_one] at hx
  rw [part, Nat.mul_zero, pow_zero, Nat.div_one, Nat.mod_eq_of_lt hx]

theorem elements_whole {ty : BitVec 4} (hone : tyCount ty = 1) {x : Nat} {want : Nat → Nat} (hx : x < 2 ^ tyWidth ty) (h : x = want 0) :
    Elements ty x want := by
  have hx' : x < 2 ^ (tyWidth ty * tyCount ty) := by rwa [hone, Nat.mul_one]
  refine ⟨hx', fun e he => ?_⟩
  obtain rfl : e = 0 := by omega
  rw [part_whole hone hx', h]

/-! ## Integer values (06 R144) -/

theorem narrow_eq_narrowed (ty : BitVec 4) (sat : Bool) (v : Int) : narrow ty sat v = narrowed ty sat v := by
  unfold narrow narrowed satTy satS satN wrap
  cases tySigned ty <;> rfl

theorem narrowed_lt (ty : BitVec 4) (sat : Bool) (v : Int) : narrowed ty sat v < 2 ^ tyWidth ty := by
  have hpos : (0 : Int) < 2 ^ tyWidth ty := by positivity
  have hlt := Int.emod_lt_of_pos (if sat then max (if tySigned ty then -(2 ^ (tyWidth ty - 1)) else 0)
    (min v (if tySigned ty then 2 ^ (tyWidth ty - 1) - 1 else 2 ^ tyWidth ty - 1)) else v) hpos
  exact (Int.toNat_lt' (Nat.two_pow_pos _)).mpr (by exact_mod_cast hlt)

/-- Narrowing the value of a pattern gives the pattern back. -/
theorem narrowed_asInt {ty : BitVec 4} {x : Nat} (hx : x < 2 ^ tyWidth ty) : narrowed ty false (asInt ty x) = x := by
  have hmod : asInt ty x % 2 ^ tyWidth ty = (x : Int) := by
    have hx' : (x : Int) < 2 ^ tyWidth ty := by exact_mod_cast hx
    rw [asInt, Nat.mod_eq_of_lt hx]
    split
    · rw [Int.sub_emod_right, Int.emod_eq_of_lt (by omega) hx']
    · exact Int.emod_eq_of_lt (by omega) hx'
  rw [narrowed, if_neg Bool.false_ne_true, hmod, Int.toNat_natCast]

section
variable {ty : BitVec 4} {sat : Bool}

theorem elements_intElems2 {g : Int → Int → Int} {fn : Nat → Nat → Nat} (a b : Nat)
    (h : ∀ p q, p < 2 ^ tyWidth ty → q < 2 ^ tyWidth ty → narrowed ty sat (g (asInt ty p) (asInt ty q)) = fn p q) :
    Elements ty (intElems2 ty sat g a b) fun e => fn (part (tyWidth ty) a e) (part (tyWidth ty) b e) :=
  elements_eachElem fun e => by
    rw [narrow_eq_narrowed, Nat.mod_eq_of_lt (narrowed_lt ..), intVal_eq_asInt, intVal_eq_asInt]
    exact h _ _ (part_lt ..) (part_lt ..)

theorem elements_intElems3 (g : Int → Int → Int → Int) (a b c : Nat) :
    Elements ty (intElems3 ty sat g a b c) fun e =>
      narrowed ty sat (g (asInt ty (part (tyWidth ty) a e)) (asInt ty (part (tyWidth ty) b e)) (asInt ty (part (tyWidth ty) c e))) :=
  elements_eachElem fun e => by
    rw [narrow_eq_narrowed, Nat.mod_eq_of_lt (narrowed_lt ..), intVal_eq_asInt, intVal_eq_asInt, intVal_eq_asInt]
    rfl

theorem elements_intElems1 {g k : Int → Int} (hg : ∀ v, g v = k v) (a : Nat) :
    Elements ty (intElems1 ty sat g a) fun e => narrowed ty sat (k (asInt ty (part (tyWidth ty) a e))) :=
  elements_eachElem fun e => by
    rw [narrow_eq_narrowed, Nat.mod_eq_of_lt (narrowed_lt ..), intVal_eq_asInt, hg]
    rfl

end

/-! ## The sources have the bits of their type (03 R66, R67) -/

section
variable {ty : BitVec 4} (hty : tyFloat ty = false) (x : Group) (f : LaneWord) (n t : Nat)
include hty

theorem Group.srcReg_lt (r : Nat) : (x.srcReg ty t r).1 < 2 ^ (tyWidth ty * tyCount ty) := by
  have hpos := Nat.two_pow_pos (tyWidth ty * tyCount ty)
  have hlow := (x.vRaw t r).isLt
  have hhigh := (x.vRaw t (r + 1)).isLt
  rw [Group.srcReg_eq]
  dsimp only
  split
  · rwa [subst, hty, if_neg Bool.false_ne_true]
  · rw [tyWidth_mul_tyCount, wide]
    cases tyPair ty
    · simpa using hlow
    · simp only [if_true]
      omega

theorem srcImm_lt (v : BitVec 32) : srcImm ty v < 2 ^ (tyWidth ty * tyCount ty) := by
  have h5 : ty ≠ 5#4 := by rintro rfl; cases hty
  rw [tyWidth_mul_tyCount, srcImm, if_neg h5]
  split
  next h3 => exact h3 ▸ (v.signExtend 64).isLt
  next => exact v.isLt.trans_le (Nat.pow_le_pow_right (by decide) (by unfold wide; split <;> decide))

theorem Group.srcA_lt : (x.srcA f n ty t).1 < 2 ^ (tyWidth ty * tyCount ty) := by
  unfold Group.srcA
  split
  · exact srcImm_lt hty _
  · exact x.srcReg_lt hty ..

theorem Group.srcB_lt : (x.srcB f n ty t).1 < 2 ^ (tyWidth ty * tyCount ty) := by
  unfold Group.srcB
  split
  · rw [Group.srcCap_eq, tyWidth_mul_tyCount]
    exact Nat.mod_lt _ (Nat.two_pow_pos _)
  · split
    · exact srcImm_lt hty _
    · exact x.srcReg_lt hty ..

theorem Group.srcC_lt : (x.srcC f ty t).1 < 2 ^ (tyWidth ty * tyCount ty) := by
  unfold Group.srcC
  split
  · exact srcImm_lt hty _
  · exact x.srcReg_lt hty ..

end

/-! ## The shapes of lane instructions of one type -/

section
variable {i : Instr} {s : State} {f : LaneWord}

theorem laneEach1_of (hty : tyFloat f.ty = false) {val fn : Nat → Nat} (hi : exec i s = .next (s.int1 f val))
    (h : ∀ a, a < 2 ^ (tyWidth f.ty * tyCount f.ty) → Elements f.ty (val a) fun e => fn (part (tyWidth f.ty) a e)) : LaneEach1 i s f fn :=
  ⟨calc1 f f.ty val (own s), fun t => ⟨h _ ((own s).srcA_lt hty f 1 t), rfl⟩, laneComputes_of hi⟩

theorem laneEach2_of (hty : tyFloat f.ty = false) {val fn : Nat → Nat → Nat} (hi : exec i s = .next (s.int2 f val))
    (h : ∀ a b, a < 2 ^ (tyWidth f.ty * tyCount f.ty) → b < 2 ^ (tyWidth f.ty * tyCount f.ty) →
      Elements f.ty (val a b) fun e => fn (part (tyWidth f.ty) a e) (part (tyWidth f.ty) b e)) : LaneEach2 i s f fn :=
  ⟨calc2 f f.ty f.ty val (own s), fun t => ⟨h _ _ ((own s).srcA_lt hty f 2 t) ((own s).srcB_lt hty f 2 t), rfl⟩, laneComputes_of hi⟩

theorem laneEach3_of (hty : tyFloat f.ty = false) {val fn : Nat → Nat → Nat → Nat} (hi : exec i s = .next (s.int3 f val))
    (h : ∀ a b c, a < 2 ^ (tyWidth f.ty * tyCount f.ty) → b < 2 ^ (tyWidth f.ty * tyCount f.ty) → c < 2 ^ (tyWidth f.ty * tyCount f.ty) →
      Elements f.ty (val a b c) fun e => fn (part (tyWidth f.ty) a e) (part (tyWidth f.ty) b e) (part (tyWidth f.ty) c e)) :
    LaneEach3 i s f fn :=
  ⟨calc3 f f.ty f.ty f.ty val (own s),
    fun t => ⟨h _ _ _ ((own s).srcA_lt hty f 3 t) ((own s).srcB_lt hty f 3 t) ((own s).srcC_lt hty f t), rfl⟩, laneComputes_of hi⟩

/-- A row of 06 R147: an exact function of two elements' values, narrowed. -/
theorem laneEach2_int (hty : tyFloat f.ty = false) {sat : Bool} {g : Int → Int → Int} {fn : Nat → Nat → Nat}
    (hi : exec i s = .next (s.int2 f (intElems2 f.ty sat g)))
    (h : ∀ p q, p < 2 ^ tyWidth f.ty → q < 2 ^ tyWidth f.ty → narrowed f.ty sat (g (asInt f.ty p) (asInt f.ty q)) = fn p q) :
    LaneEach2 i s f fn :=
  laneEach2_of hty hi fun a b _ _ => elements_intElems2 a b h

end

/-! ## Sums, products and order (06 R147) -/

theorem narrowed_min {ty : BitVec 4} {p q : Nat} (hp : p < 2 ^ tyWidth ty) (hq : q < 2 ^ tyWidth ty) :
    narrowed ty false (min (asInt ty p) (asInt ty q)) = if asInt ty q < asInt ty p then q else p := by
  split
  next h => rw [min_eq_right h.le, narrowed_asInt hq]
  next h => rw [min_eq_left (not_lt.mp h), narrowed_asInt hp]

theorem narrowed_max {ty : BitVec 4} {p q : Nat} (hp : p < 2 ^ tyWidth ty) (hq : q < 2 ^ tyWidth ty) :
    narrowed ty false (max (asInt ty p) (asInt ty q)) = if asInt ty p < asInt ty q then q else p := by
  split
  next h => rw [max_eq_right h.le, narrowed_asInt hq]
  next h => rw [max_eq_left (not_lt.mp h), narrowed_asInt hp]

theorem natAbs_eq_ite (v : Int) : (v.natAbs : Int) = if v < 0 then -v else v := by
  split <;> omega

theorem natAbs_sub_eq (a b : Int) : ((a - b).natAbs : Int) = max a b - min a b := by
  omega

/-- Settles O12: each row narrows an exact function of its elements' values, and a minimum or maximum is one of its elements. -/
theorem laneArithmetic : Obligations.LaneArithmetic := by
  intro s f hty sat v n
  refine ⟨laneEach2_int hty rfl fun _ _ _ _ => rfl, laneEach2_int hty rfl fun _ _ _ _ => rfl, laneEach2_int hty rfl fun _ _ _ _ => rfl,
    laneEach2_int hty rfl fun _ _ _ _ => ?_, laneEach3_of hty rfl fun a b c _ _ _ => elements_intElems3 _ a b c,
    laneEach2_int hty rfl fun _ _ => narrowed_min, laneEach2_int hty rfl fun _ _ => narrowed_max,
    laneEach1_of hty rfl fun a _ => elements_intElems1 natAbs_eq_ite a, laneEach2_int hty rfl fun _ _ _ _ => congrArg n (natAbs_sub_eq ..)⟩
  push_cast
  rfl

end Sys2Proof.Machine
end

