-- ==== Sys2Proof/Proofs/LaneBits.lean ====
section
/-! SUPPORT. Lane bitwise operations, shifts, counts and bit fields by element (06 R149 to R152). -/

namespace Sys2Proof.Machine
open Claims

/-! ## Bitwise operations (06 R149) -/

/-- An operation bit by bit acts on each element alone. -/
theorem part_bitwise {op : Nat → Nat → Nat} {bop : Bool → Bool → Bool} (hop : ∀ a b i, (op a b).testBit i = bop (a.testBit i) (b.testBit i))
    (h0 : bop false false = false) (w a b e : Nat) : part w (op a b) e = op (part w a e) (part w b e) := by
  apply Nat.eq_of_testBit_eq
  intro i
  simp only [part, hop, Nat.testBit_mod_two_pow, Nat.testBit_div_two_pow]
  by_cases hi : i < w <;> simp [hi, h0]

/-! ## Shifts and rotates (06 R150) -/

theorem sraN_eq {w x : Nat} (hx : x < 2 ^ w) (c : Nat) :
    sraN w x c = ((if 2 ^ (w - 1) ≤ x then (x : Int) - 2 ^ w else x) / 2 ^ c % 2 ^ w).toNat := by
  have hsext : sext x w = if 2 ^ (w - 1) ≤ x then (x : Int) - 2 ^ w else x := by
    simp only [sext, Nat.mod_eq_of_lt hx]
    split <;> rename_i h
    · rw [if_neg (by omega)]
    · rw [if_pos (by omega)]
  rw [sraN, wrap, hsext]
  push_cast
  rfl

theorem wrap_lt (v : Int) (w : Nat) : wrap v w < 2 ^ w :=
  (Int.toNat_lt' (Nat.two_pow_pos w)).mpr (by exact_mod_cast Int.emod_lt_of_pos v (by positivity))

theorem rotN_mod (w x c : Nat) : rotN w x c % 2 ^ w = (x * 2 ^ c + x / 2 ^ (w - c)) % 2 ^ w := by
  rw [rotN, Nat.mod_add_mod]

theorem elements_shiftElems {ty : BitVec 4} {g fn : Nat → Nat → Nat} (a b : Nat)
    (h : ∀ p q, p < 2 ^ tyWidth ty → g p (q % tyWidth ty) % 2 ^ tyWidth ty = fn p q) :
    Elements ty (shiftElems ty g a b) fun e => fn (part (tyWidth ty) a e) (part (tyWidth ty) b e) :=
  elements_eachElem fun _ => h _ _ (part_lt ..)

/-! ## Counts (06 R151) -/

theorem lzcN_le (w x : Nat) : lzcN w x ≤ w := by
  unfold lzcN
  split <;> omega

theorem onesN_le (w x : Nat) : onesN w x ≤ w := by
  simpa [onesN] using List.length_filter_le (fun i => x.testBit i) (List.range w)

theorem elements_count {ty : BitVec 4} {g : Nat → Nat} (hg : ∀ x, g x ≤ tyWidth ty) (a : Nat) :
    Elements ty (eachElem ty fun e => g (elem ty a e)) fun e => g (part (tyWidth ty) a e) :=
  elements_eachElem fun _ => Nat.mod_eq_of_lt ((hg _).trans_lt Nat.lt_two_pow_self)

/-! ## Bit fields (06 R152) -/

/-- The length of a bit field that B names, limited to the element. -/
def laneFieldLen (w b : Nat) : Nat := min (b / 2 ^ 8 % 128) (w - b % 64)

theorem wrap_sext {w n x : Nat} (hx : x < 2 ^ n) (hn : n ≤ w) : wrap (sext x n) w = if 2 ^ (n - 1) ≤ x then x + 2 ^ w - 2 ^ n else x := by
  have hle : 2 ^ n ≤ 2 ^ w := Nat.pow_le_pow_right (by decide) hn
  simp only [wrap, sext, Nat.mod_eq_of_lt hx]
  split <;> rename_i h
  · rw [if_neg (by omega)]
    have : ((x : Int) % 2 ^ w) = (x : Int) := Int.emod_eq_of_lt (by omega) (by exact_mod_cast hx.trans_le hle)
    rw [this, Int.toNat_natCast]
  · rw [if_pos (by omega)]
    have hval : ((x : Int) - 2 ^ n) % 2 ^ w = ((x + 2 ^ w - 2 ^ n : Nat) : Int) := by
      rw [← Int.add_emod_right]
      have hcast : (x : Int) - 2 ^ n + 2 ^ w = ((x + 2 ^ w - 2 ^ n : Nat) : Int) := by
        rw [Nat.cast_sub (by omega)]
        push_cast
        ring
      rw [hcast]
      exact Int.emod_eq_of_lt (by omega) (by exact_mod_cast (by omega : x + 2 ^ w - 2 ^ n < 2 ^ w))
    rw [hval, Int.toNat_natCast]

/-- No field: its position lies beyond the element, or its length is 0. -/
theorem laneFieldLen_eq_zero (w b : Nat) : laneFieldLen w b = 0 ↔ (decide (bits b 5 0 ≥ w) || decide (bits b 14 8 = 0)) = true := by
  rw [Bool.or_eq_true, decide_eq_true_eq, decide_eq_true_eq]
  simp only [laneFieldLen, bits]
  omega

/-- The bits that the model cuts at a field's position are the field. -/
theorem bits_field {w b : Nat} (h : laneFieldLen w b ≠ 0) (x : Nat) :
    bits x (bits b 5 0 + min (bits b 14 8) (w - bits b 5 0) - 1) (bits b 5 0) = x / 2 ^ (b % 64) % 2 ^ laneFieldLen w b := by
  have hp : bits b 5 0 = b % 64 := by simp [bits]
  have hl : min (bits b 14 8) (w - bits b 5 0) = laneFieldLen w b := by simp [bits, laneFieldLen]
  rw [hl, hp, bits, show b % 64 + laneFieldLen w b - 1 + 1 - b % 64 = laneFieldLen w b by omega]

/-- 06 R152: a field is cut out, and of a signed type sign-extended. -/
theorem laneExtract_eq (ty : BitVec 4) (a b : Nat) :
    laneExtract ty a b =
      let n := laneFieldLen (tyWidth ty) b
      let v := a / 2 ^ (b % 64) % 2 ^ n
      if tySigned ty ∧ 0 < n ∧ 2 ^ (n - 1) ≤ v then v + 2 ^ tyWidth ty - 2 ^ n else v := by
  dsimp only
  by_cases hn : laneFieldLen (tyWidth ty) b = 0
  · rw [laneExtract, if_pos ((laneFieldLen_eq_zero ..).mp hn), if_neg (by omega), hn, pow_zero, Nat.mod_one]
  · have hcut := bits_field hn a
    have hl : min (bits b 14 8) (tyWidth ty - bits b 5 0) = laneFieldLen (tyWidth ty) b := by simp [bits, laneFieldLen]
    rw [laneExtract, if_neg (mt (laneFieldLen_eq_zero ..).mpr hn)]
    dsimp only
    rw [hcut, hl, wrap_sext (Nat.mod_lt _ (Nat.two_pow_pos _)) (by unfold laneFieldLen; omega)]
    by_cases hs : tySigned ty = true
    · rw [if_pos hs]
      exact if_congr (by simp [hs, Nat.pos_of_ne_zero hn]) rfl rfl
    · rw [if_neg hs, if_neg fun h => hs h.1]

/-- Replacing `n` bits of a number at position `p`. -/
theorem testBit_replaceBits (a c p n i : Nat) :
    (c - c / 2 ^ p % 2 ^ n * 2 ^ p + a % 2 ^ n * 2 ^ p).testBit i = if p ≤ i ∧ i < p + n then a.testBit (i - p) else c.testBit i := by
  have hc : c = 2 ^ p * (2 ^ n * (c / 2 ^ p / 2 ^ n) + c / 2 ^ p % 2 ^ n) + c % 2 ^ p := by
    rw [Nat.div_add_mod, Nat.div_add_mod]
  have hsum : c - c / 2 ^ p % 2 ^ n * 2 ^ p + a % 2 ^ n * 2 ^ p = 2 ^ p * (2 ^ n * (c / 2 ^ p / 2 ^ n) + a % 2 ^ n) + c % 2 ^ p := by
    rw [Nat.mul_add] at hc ⊢
    rw [Nat.mul_comm (c / 2 ^ p % 2 ^ n), Nat.mul_comm (a % 2 ^ n)]
    omega
  rw [hsum, Nat.testBit_two_pow_mul_add _ (Nat.mod_lt _ (Nat.two_pow_pos _)), Nat.testBit_two_pow_mul_add _ (Nat.mod_lt _ (Nat.two_pow_pos _)),
    Nat.testBit_mod_two_pow, Nat.testBit_mod_two_pow, Nat.testBit_div_two_pow, Nat.testBit_div_two_pow]
  by_cases hlow : i < p
  · simp [hlow, show ¬ p ≤ i by omega]
  · by_cases hmid : i < p + n
    · simp [hlow, hmid, show p ≤ i by omega, show i - p < n by omega]
    · simp [hlow, hmid, show ¬ i - p < n by omega, show i - p - n + n + p = i by omega]

theorem laneInsert_eq (ty : BitVec 4) (a b c : Nat) :
    laneInsert ty a b c = c - c / 2 ^ (b % 64) % 2 ^ laneFieldLen (tyWidth ty) b * 2 ^ (b % 64) +
      a % 2 ^ laneFieldLen (tyWidth ty) b * 2 ^ (b % 64) := by
  by_cases hn : laneFieldLen (tyWidth ty) b = 0
  · rw [laneInsert, if_pos ((laneFieldLen_eq_zero ..).mp hn), hn]
    simp [Nat.mod_one]
  · have hcut := bits_field hn c
    have hl : min (bits b 14 8) (tyWidth ty - bits b 5 0) = laneFieldLen (tyWidth ty) b := by simp [bits, laneFieldLen]
    have hp : bits b 5 0 = b % 64 := by simp [bits]
    have hnew : bits a (laneFieldLen (tyWidth ty) b - 1) 0 = a % 2 ^ laneFieldLen (tyWidth ty) b := by
      rw [bits, pow_zero, Nat.div_one, show laneFieldLen (tyWidth ty) b - 1 + 1 - 0 = laneFieldLen (tyWidth ty) b by omega]
    rw [laneInsert, if_neg (mt (laneFieldLen_eq_zero ..).mpr hn)]
    dsimp only
    rw [hcut, hl, hp, hnew]

/-- 06 R152: a field of A put in C. -/
theorem testBit_laneInsert (ty : BitVec 4) (a b c i : Nat) :
    (laneInsert ty a b c).testBit i =
      if b % 64 ≤ i ∧ i < b % 64 + laneFieldLen (tyWidth ty) b then a.testBit (i - b % 64) else c.testBit i := by
  rw [laneInsert_eq, testBit_replaceBits]

theorem laneInsert_lt {ty : BitVec 4} (a b : Nat) {c : Nat} (hc : c < 2 ^ tyWidth ty) : laneInsert ty a b c < 2 ^ tyWidth ty := by
  apply Nat.lt_pow_two_of_testBit
  intro i hi
  rw [testBit_laneInsert, if_neg (by unfold laneFieldLen; omega)]
  exact Nat.testBit_lt_two_pow (hc.trans_le (Nat.pow_le_pow_right (by decide) hi))

theorem laneExtract_lt (ty : BitVec 4) {a : Nat} (b : Nat) : laneExtract ty a b < 2 ^ tyWidth ty := by
  have hn : laneFieldLen (tyWidth ty) b ≤ tyWidth ty := by unfold laneFieldLen; omega
  have hle := Nat.pow_le_pow_right (n := 2) (by decide) hn
  have hv := Nat.mod_lt (a / 2 ^ (b % 64)) (Nat.two_pow_pos (laneFieldLen (tyWidth ty) b))
  rw [laneExtract_eq]
  dsimp only
  split <;> omega

/-! ## The rows of 06 R149 to R152 -/

section
variable {i : Instr} {s : State} {f : LaneWord} (hty : tyFloat f.ty = false)
include hty

theorem laneEach2_bitwise {op : Nat → Nat → Nat} {bop : Bool → Bool → Bool} (hi : exec i s = .next (s.int2 f op))
    (hop : ∀ a b i, (op a b).testBit i = bop (a.testBit i) (b.testBit i)) (h0 : bop false false = false)
    (hlt : ∀ {n a b}, a < 2 ^ n → b < 2 ^ n → op a b < 2 ^ n) : LaneEach2 i s f op :=
  laneEach2_of hty hi fun a b ha hb => ⟨hlt ha hb, fun e _ => part_bitwise hop h0 _ a b e⟩

theorem laneEach2_shift {g fn : Nat → Nat → Nat} (hi : exec i s = .next (s.int2 f (shiftElems f.ty g)))
    (h : ∀ p q, p < 2 ^ tyWidth f.ty → g p (q % tyWidth f.ty) % 2 ^ tyWidth f.ty = fn p q) : LaneEach2 i s f fn :=
  laneEach2_of hty hi fun a b _ _ => elements_shiftElems a b h

theorem laneEach1_count {g : Nat → Nat} (hi : exec i s = .next (s.int1 f fun a => eachElem f.ty fun e => g (elem f.ty a e)))
    (hg : ∀ x, g x ≤ tyWidth f.ty) : LaneEach1 i s f g :=
  laneEach1_of hty hi fun a _ => elements_count hg a

theorem laneEach1_not (hone : tyCount f.ty = 1) : LaneEach1 (.vnot f) s f fun a => 2 ^ tyWidth f.ty - 1 - a :=
  laneEach1_of hty rfl fun a ha => elements_whole hone (by have := Nat.two_pow_pos (tyWidth f.ty); omega) (by rw [part_whole hone ha])

theorem laneEach2_extract (hone : tyCount f.ty = 1) : LaneEach2 (.vbfx f) s f (laneExtract f.ty) :=
  laneEach2_of hty rfl fun a b ha hb => elements_whole hone (laneExtract_lt ..) (by rw [part_whole hone ha, part_whole hone hb])

theorem laneEach3_insert (hone : tyCount f.ty = 1) : LaneEach3 (.vbfi f) s f (laneInsert f.ty) :=
  laneEach3_of hty rfl fun a b c ha hb hc => elements_whole hone (laneInsert_lt _ _ (by rwa [hone, Nat.mul_one] at hc))
    (by rw [part_whole hone ha, part_whole hone hb, part_whole hone hc])

end

/-- Settles O13: bitwise rows act on each element alone, shifts, rotates and counts element by element, and fields bit by bit. -/
theorem laneBitwise : Obligations.LaneBitwise := by
  intro s f hty w
  have hmod {x : Nat} (hx : x < 2 ^ w) : x % 2 ^ w = x := Nat.mod_eq_of_lt hx
  refine ⟨laneEach2_bitwise hty rfl Nat.testBit_and rfl fun _ hb => Nat.and_lt_two_pow _ hb,
    laneEach2_bitwise hty rfl Nat.testBit_or rfl Nat.or_lt_two_pow, laneEach2_bitwise hty rfl Nat.testBit_xor rfl Nat.xor_lt_two_pow,
    laneEach1_not hty, laneEach2_shift hty rfl fun _ _ _ => Nat.mod_mod .., laneEach2_shift hty rfl fun p q hp => ?shr,
    laneEach2_shift hty rfl fun p q hp => ?sra, laneEach2_shift hty rfl fun p q _ => rotN_mod ..,
    ⟨_, laneEach1_count hty rfl (lzcN_le _), fun a => clzN_spec⟩, ?popc, fun hone => ?bfx, fun hone => ⟨_, laneEach3_insert hty hone, ?bfi⟩⟩
  case shr => exact hmod ((Nat.div_le_self ..).trans_lt hp)
  case sra => exact (hmod (wrap_lt ..)).trans (sraN_eq hp _)
  case popc =>
    have hsum : onesN w = fun a => ((List.range w).map fun i => a / 2 ^ i % 2).sum := funext (popcN_eq_sum w)
    exact hsum ▸ laneEach1_count hty rfl (onesN_le w)
  case bfx => exact (funext fun a => funext (laneExtract_eq f.ty a) : laneExtract f.ty = _) ▸ laneEach2_extract hty hone
  case bfi =>
    intro a b c _ _ i hi p
    rw [testBit_laneInsert]
    exact if_congr (by unfold laneFieldLen; omega) rfl rfl

end Sys2Proof.Machine
end

