-- ==== Sys2Proof/Proofs/LaneMoves.lean ====
section
/-! SUPPORT. Lane comparisons, selections, moves, permutes, predicate logic, dot products, shuffles and the speculation status (06 R153 to
R159, R161, R162). -/

namespace Sys2Proof.Machine
open Claims

/-! ## Results as a rule states them -/

theorem laneTests_congr {i : Instr} {s : State} {f : LaneWord} {srcs : List (Nat × Nat)} {kd : Nat} {val want : Nat → Bool × Bool}
    (h : LaneTests i s f srcs kd val) (hval : ∀ l, val l = want l) : LaneTests i s f srcs kd want := funext hval ▸ h

theorem laneComputes_congr {i : Instr} {s : State} {f : LaneWord} {srcs : List (Nat × Nat)} {dst : Nat × Nat} {val want : Nat → Nat × Bool}
    (h : LaneComputes i s f srcs dst val) (hval : ∀ l, val l = want l) : LaneComputes i s f srcs dst want := funext hval ▸ h

/-- 06 R153: how a new bit meets the present one is in the low three bits of the modifier. -/
theorem toNat_and_seven (md : BitVec 4) : (md &&& 7#4).toNat = md.toNat % 8 := by
  revert md
  decide

/-! ## The dot product (06 R155) -/

theorem dot4_eq {ty : BitVec 4} (hty : ty = 11#4 ∨ ty = 12#4) (mix sat : Bool) (a b c : Nat) :
    dot4 ty mix sat a b c =
      narrowed (if ty = 12#4 && !mix then 0 else 1) sat (asInt (if ty = 12#4 && !mix then 0 else 1) c +
        ((List.range 4).map fun e => asInt ty (part 8 a e) * asInt (mixTy ty mix) (part 8 b e)).sum) := by
  have hw : tyWidth ty = 8 := by rcases hty with rfl | rfl <;> rfl
  have hsum (v : Int) (p : Nat → Int) : v + p 0 + p 1 + p 2 + p 3 = v + ((List.range 4).map p).sum := by
    simp [List.range_succ]
    ring
  simp only [dot4, narrow_eq_narrowed, intVal_eq_asInt, elem, hw, part, ← hsum]

/-! ## Bytes (06 R158) -/

theorem part_natOfBytes (bs : List Byte) (i : Nat) : part 8 (natOfBytes bs) i = ((bs[i]?).getD 0).toNat := by
  induction bs generalizing i with
  | nil => simp [natOfBytes, part]
  | cons b bs ih =>
    have hb := b.isLt
    cases i with
    | zero =>
      simp only [part, natOfBytes, Nat.mul_zero, pow_zero, Nat.div_one, List.getElem?_cons_zero, Option.getD_some]
      omega
    | succ i =>
      have hdiv : natOfBytes (b :: bs) / 2 ^ 8 = natOfBytes bs := by
        rw [natOfBytes]
        omega
      rw [List.getElem?_cons_succ, ← ih, part, part, Nat.mul_add_one, Nat.add_comm, pow_add, ← Nat.div_div_eq_div_mul, hdiv]

theorem natOfBytes_append (xs ys : List Byte) : natOfBytes (xs ++ ys) = natOfBytes xs + 256 ^ xs.length * natOfBytes ys := by
  induction xs with
  | nil => simp [natOfBytes]
  | cons x xs ih =>
    rw [List.cons_append, natOfBytes, natOfBytes, ih, List.length_cons, pow_succ']
    ring

/-- 06 R158: the byte that a control byte picks from the pool. -/
def permuteByte (pool : List Byte) (ctl : Byte) : Byte :=
  let p := (pool[(ctl.extractLsb' 0 3).toNat]?).getD 0
  match (ctl.extractLsb' 3 2).toNat with
  | 0 => p
  | 1 => p.extractLsb' 0 4 ++ p.extractLsb' 4 4
  | 2 => 0x00
  | _ => 0xFF

theorem permuteBytes_eq (a b c : Nat) :
    permuteBytes a b c = natOfBytes ((bytesOfNat 4 c).map (permuteByte (bytesOfNat 4 a ++ bytesOfNat 4 b))) := rfl

theorem permuteBytes_lt (a b c : Nat) : permuteBytes a b c < 2 ^ 32 := by
  have h := natOfBytes_lt ((bytesOfNat 4 c).map (permuteByte (bytesOfNat 4 a ++ bytesOfNat 4 b)))
  rwa [List.length_map, length_bytesOfNat] at h

/-- The pool of a permute as a number. -/
def permutePool (a b : Nat) : Nat := a % 2 ^ 32 + 2 ^ 32 * (b % 2 ^ 32)

theorem natOfBytes_pool (a b : Nat) : natOfBytes (bytesOfNat 4 a ++ bytesOfNat 4 b) = permutePool a b := by
  rw [natOfBytes_append, natOfBytes_bytesOfNat, natOfBytes_bytesOfNat, length_bytesOfNat]
  rfl

theorem toNat_swapNibbles (p : Byte) : (p.extractLsb' 0 4 ++ p.extractLsb' 4 4).toNat = p.toNat % 16 * 16 + p.toNat / 16 := by
  revert p
  decide

/-- A control byte: three bits name the byte of the pool, and two say what becomes of it. -/
theorem part_permuteBytes (a b c : Nat) {i : Nat} (hi : i < 4) :
    let p := part 8 (permutePool a b) (part 8 c i % 8)
    (part 8 c i / 8 % 4 = 0 → part 8 (permuteBytes a b c) i = p) ∧
    (part 8 c i / 8 % 4 = 1 → part 8 (permuteBytes a b c) i = p % 16 * 16 + p / 16) ∧
    (part 8 c i / 8 % 4 = 2 → part 8 (permuteBytes a b c) i = 0) ∧
    (part 8 c i / 8 % 4 = 3 → part 8 (permuteBytes a b c) i = 255) := by
  have hbyte : part 8 (permuteBytes a b c) i = (permuteByte (bytesOfNat 4 a ++ bytesOfNat 4 b) (BitVec.ofNat 8 (c / 256 ^ i))).toNat := by
    rw [permuteBytes_eq, part_natOfBytes, List.getElem?_map, getElem?_bytesOfNat c hi]
    rfl
  have hctl : part 8 c i = (BitVec.ofNat 8 (c / 256 ^ i)).toNat := by
    rw [part, BitVec.toNat_ofNat, pow_mul]
    rfl
  have hlow : ((BitVec.ofNat 8 (c / 256 ^ i)).extractLsb' 0 3).toNat = part 8 c i % 8 := by simp [hctl]
  have hmode : ((BitVec.ofNat 8 (c / 256 ^ i)).extractLsb' 3 2).toNat = part 8 c i / 8 % 4 := by
    rw [BitVec.extractLsb'_toNat, Nat.shiftRight_eq_div_pow, ← hctl]
  rw [hbyte, ← natOfBytes_pool, part_natOfBytes, permuteByte, hlow, hmode]
  refine ⟨fun h => ?_, fun h => ?_, fun h => ?_, fun h => ?_⟩ <;> simp only [h]
  · exact toNat_swapNibbles _
  · rfl
  · rfl

theorem laneComparesAndMoves : LaneComparesAndMoves := by
  intro s f x ab a b d kd bit cond with_ logic
  refine ⟨laneTests_congr (laneTests_of rfl) fun l => ?cmp, laneComputes_congr (laneComputes_of rfl) fun _ => rfl,
    laneComputes_congr (laneComputes_of rfl) fun _ => rfl, laneTests_congr (laneTests_of rfl) fun _ => rfl, fun h => ?toReg, fun h => ?toPred,
    ⟨_, fun l i hi => ?prmt, fun l => ⟨permuteBytes_lt .., rfl⟩, laneComputes_of rfl⟩, fun hty => ?dp4⟩
  case cmp =>
    refine Prod.ext ?_ rfl
    simp only [combine, toNat_and_seven, intCond, intVal_eq_asInt]
    rfl
  case toReg =>
    have hexec : exec (.vkmov f) s = .next (s.laneCalc f [] (f.vd.toNat, 1) 1 fun y _ => ((y.kGet (f.va.toNat % 8)).toNat, false)) :=
      congrArg _ (if_pos h)
    exact laneComputes_of hexec
  case toPred =>
    exact laneTests_congr (laneTests_of (congrArg _ (if_neg h))) fun l => Prod.ext (Nat.testBit_eq_decide_div_mod_eq ..) rfl
  case prmt =>
    obtain ⟨hkeep, hswap, hzero, hones⟩ := part_permuteBytes (x.srcA f 3 0#4 l).1 (x.srcB f 3 0#4 l).1 (x.srcC f 0#4 l).1 hi
    intro pool c p
    change part 8 (permuteBytes _ _ _) i = _
    obtain h | h | h | h : c / 8 % 4 = 0 ∨ c / 8 % 4 = 1 ∨ c / 8 % 4 = 2 ∨ c / 8 % 4 = 3 := by omega
    · rw [hkeep h, h]; rfl
    · rw [hswap h, h]; rfl
    · rw [hzero h, h]; rfl
    · rw [hones h, h]; rfl
  case dp4 =>
    intro mix tb tr sa sb sc
    have htb : mixTy f.ty (f.sub = 1#4) = tb := by simp [mixTy, tb, mix]
    have htr : (if f.ty = 12#4 && !decide (f.sub = 1#4) then (0 : BitVec 4) else 1) = tr := by simp [tr, mix]
    have hexec : exec (.vdp4 f) s = .next (s.lane3 f f.ty tb 1#4 1#4 (dot4 f.ty (f.sub = 1#4) (satOf f))) := by
      rw [← htb]
      rfl
    refine laneComputes_congr (laneComputes_of hexec) fun l => Prod.ext ?_ rfl
    refine (dot4_eq hty ..).trans ?_
    rw [htb, htr]
    rfl

/-! ## Shuffles and the speculation status (06 R157, R159) -/

/-- The model's choice of a lane, with lane numbers in integers. -/
theorem shuffleLane_eq (mode b l : Nat) (m : BitVec 16) : shuffleLane mode b l m = (shuffled mode b l).filter fun n => m.getLsbD n := by
  have hlane (n : Nat) : (if n ≤ 15 && m.getLsbD n then some n else none) =
      (if 0 ≤ (n : Int) ∧ (n : Int) ≤ 15 then some (n : Int).toNat else none).filter fun n => m.getLsbD n := by
    by_cases hn : n ≤ 15
    · rw [if_pos (show 0 ≤ (n : Int) ∧ (n : Int) ≤ 15 by omega)]
      cases hm : m.getLsbD n <;> simp [hn, hm, Option.filter]
    · rw [if_neg (show ¬ (0 ≤ (n : Int) ∧ (n : Int) ≤ 15) by omega)]
      simp [hn]
  have hlow : bits b 3 0 = b % 16 := by simp [bits]
  have hhigh : bits b 4 0 = b % 32 := by simp [bits]
  unfold shuffleLane shuffled
  rw [hlow, hhigh]
  match mode with
  | 0 => exact hlane _
  | 1 =>
    by_cases hle : b % 32 ≤ l
    · have hsub : (l : Int) - (b % 32 : Nat) = (l - b % 32 : Nat) := by omega
      simp only [hle, if_true, hsub]
      exact hlane _
    · simp only [hle, if_false]
      rw [if_neg (by omega)]
      rfl
  | 2 => exact hlane _
  | _ + 3 => exact hlane _

theorem VecWrote.congr {x y z : Group} {m : BitVec 16} {r n : Nat} {val : Nat → Nat} (h : VecWrote x y m r n val) (hv : z.v = y.v)
    (hp : z.vPoison = y.vPoison) : VecWrote x z m r n val := by
  intro t q ht
  have := h t q ht
  rwa [show y.vRaw t q = z.vRaw t q by rw [Group.vRaw, Group.vRaw, hv], show y.vBad t q = z.vBad t q by rw [Group.vBad, Group.vBad, hp]] at this

/-- The stream after a lane instruction wrote its vector results, and one bit of each lane to a predicate. -/
def Group.bothResults (x : Group) (f : LaneWord) (m : BitVec 16) (dst : Nat × Nat) (val : Nat → Nat) (kd : Nat) (bit : Nat → Bool) : Group :=
  (x.vResults f m dst.1 dst.2 ((bodyLanes f m).map fun l => (l, val l))).kResults f m kd ((bodyLanes f m).map fun l => (l, bit l))

section
variable (x : Group) (f : LaneWord) (m : BitVec 16) (dst : Nat × Nat) (val : Nat → Nat) (kd : Nat) (bit : Nat → Bool)

theorem Group.resultsOnly_bothResults : ResultsOnly x (x.bothResults f m dst val kd bit) :=
  (x.vectorOnly_vResults f m dst.1 dst.2 val).results.kResults ..

theorem Group.vecWrote_bothResults : VecWrote x (x.bothResults f m dst val kd bit) m dst.1 dst.2 fun l => val (lead f m l) :=
  VecWrote.congr (x.vecWrote_vResults f m dst.1 dst.2 val) (by rw [Group.bothResults, Group.kResults_frame])
    (by rw [Group.bothResults, Group.kResults_frame])

theorem Group.getLsbD_bothResults (q : Nat) {l : Nat} (hl : l < 16) :
    ((x.bothResults f m dst val kd bit).kGet q).getLsbD l =
      if q = kd ∧ q ≠ 0 ∧ m.getLsbD l then bit (lead f m l) else (x.kGet q).getLsbD l := by
  rw [Group.bothResults, Group.getLsbD_kResults _ _ _ _ _ _ hl, x.vectorOnly_vResults f m dst.1 dst.2 val]
  rfl

end

/-- 06 R157: the lane, if any, that a shuffle reads for a lane. -/
def Group.shuffleFrom (x : Group) (f : LaneWord) (m : BitVec 16) (l : Nat) : Option Nat := shuffleLane f.sub.toNat (x.srcB f 2 f.ty l).1 l m

theorem exec_vshfl {s : State} {f : LaneWord} (hready : LaneReady s f (regA f 2 f.ty ++ regB f 2 f.ty ++ [(f.vd.toNat, wide f.ty)]))
    (hroom : (own s).overflowsShadow [(f.vd.toNat, wide f.ty)] = false) :
    exec (.vshfl f) s = .next (((s.onGrp s.me fun y => y.bothResults f (acting s f) (f.vd.toNat, wide f.ty)
        (fun l => ((own s).srcA f 2 f.ty (((own s).shuffleFrom f (acting s f) l).getD l)).1) (f.vc.toNat % 8)
        fun l => ((own s).shuffleFrom f (acting s f) l).isSome).pconsIf
      ((bodyLanes f (acting s f)).any fun l => ((own s).srcA f 2 f.ty (((own s).shuffleFrom f (acting s f) l).getD l)).2 ||
        ((own s).srcB f 2 f.ty l).2)).laneNext f (acting s f) 1) := by
  unfold own at hroom
  change execVshfl f s = _
  rw [execVshfl, State.laneBody_ready s f _ _ hready]
  simp only [hroom, Bool.and_false, Bool.false_eq_true, if_false, List.map_map, List.any_map]
  rfl

/-- Inside `try` a status is odd, outside it is 0. -/
theorem Group.specStatus_spec (x : Group) (l : Nat) : (x.tr = none ∧ x.specStatus l = 0) ∨ (x.tr.isSome ∧ x.specStatus l % 2 = 1) := by
  unfold Group.specStatus
  cases x.tr with
  | none => exact .inl ⟨rfl, rfl⟩
  | some y =>
    refine .inr ⟨rfl, ?_⟩
    dsimp only
    split <;> split <;> omega

theorem laneShuffle : LaneShuffle := by
  intro s f x m d source reads
  have hsource : x.shuffleFrom f m = source := funext fun l => shuffleLane_eq ..
  refine ⟨fun hready hroom => ⟨_, exec_vshfl hready hroom, ?_⟩,
    fun l => (x.specStatus l, false), fun l => ⟨rfl, x.specStatus_spec l⟩, laneComputes_congr (laneComputes_of rfl) fun _ => rfl⟩
  have hboth := x.resultsOnly_bothResults f m d (fun l => (x.srcA f 2 f.ty (reads l)).1) (f.vc.toNat % 8) fun l => (source l).isSome
  have hwrote := x.vecWrote_bothResults f m d (fun l => (x.srcA f 2 f.ty (reads l)).1) (f.vc.toNat % 8) fun l => (source l).isSome
  rw [show (own s).shuffleFrom f (acting s f) = source from hsource]
  refine ⟨hboth.laneOnly (OnlyStream.laneNext (OnlyStream.pconsIf (OnlyStream.of_onGrp ..) rfl _) (by simp) ..) (State.grp_laneDone ..), ?_⟩
  rw [State.grp_laneDone]
  refine ⟨vecWrote_laneDone hwrote rfl rfl _, fun q l hl => ?_, hboth.consumed ..⟩
  rw [Group.kGet_laneDone]
  exact x.getLsbD_bothResults f m d _ _ _ q hl

/-- Settles O14: each row by what its shape writes, and a shuffle by the lane that it reads. -/
theorem laneMovesAndShuffles : Obligations.LaneMovesAndShuffles := ⟨laneComparesAndMoves, laneShuffle⟩

end Sys2Proof.Machine
end

