-- ==== Sys2Proof/Proofs/LaneReports.lean ====
section
/-! SUPPORT. Votes and reductions of lanes for a scalar register (02 R38, 06 R160): the values, and what a report leaves pending. -/

namespace Sys2Proof.Machine
open Claims

/-! ## Issue of a report (02 R38, 03 R75) -/

theorem Group.raiseAtIssue_chk (x : Group) (b : BitVec 32) (k : Option Nat) :
    (x.chk b).raiseAtIssue k = (x.raiseAtIssue k).map fun r => (r.1.chk b, r.2) := by
  cases k with
  | none => rfl
  | some k =>
    rcases Nat.lt_or_ge (x.flag k) 63 with h | h
    · rw [x.raiseAtIssue_some h]
      exact (x.chk b).raiseAtIssue_some h
    · rw [x.raiseAtIssue_full h]
      exact (x.chk b).raiseAtIssue_full h

/-- Which flag an instruction uses does not depend on the poison it consumes. -/
theorem Group.issueLL_chk (x : Group) (b : BitVec 32) (f : LaneWord) :
    (x.chk b).issueLL f = (x.issueLL f).map fun r => (r.1.chk b, r.2) := by
  have hrun : (x.chk b).run = x.run := rfl
  have hclause : (x.chk b).curClause = x.curClause := rfl
  have hcall : (x.chk b).inCall = x.inCall := rfl
  have hslot : (x.chk b).slot = x.slot := rfl
  unfold Group.issueLL
  rw [hrun, hclause]
  cases x.run with
  | none => rfl
  | some r =>
    cases x.curClause with
    | none => rfl
    | some c =>
      dsimp only
      rw [hcall, hslot]
      split
      · exact x.raiseAtIssue_chk ..
      · split
        · rfl
        · exact x.raiseAtIssue_chk ..

/-- A long-latency instruction with a scalar destination: written now with its flag lowered, or awaited. -/
theorem Group.pendLL_report (x : Group) (slot : Word) (flag : Option Nat) (d : Nat × Word) (empty : Bool) :
    x.pendLL slot flag (some d) empty =
      { x with s := if empty then (x.sSet d.1 d.2).s else x.s
               sPoison := if empty then (x.sSet d.1 d.2).sPoison else x.sPoison
               flags := if empty then (x.lower flag).flags else x.flags
               pending := if empty then x.pending else x.pending ++ [{ slot, flag, dst := some d }] } := by
  cases empty with
  | true =>
    have hl := x.lower_eq flag
    simp only [Group.pendLL, if_true]
    rw [Group.sSet_eq, hl]
    unfold Group.sSet
    split <;> rfl
  | false => simp [Group.pendLL]

/-- The stream of which `bad` says whether it consumed poison. -/
def Group.consuming (x : Group) (bad : Bool) : Group := if bad then x.chk pcons else x

theorem Group.issueLL_consuming {x x1 : Group} {f : LaneWord} {flag : Option Nat} (bad : Bool) (hi : x.issueLL f = some (x1, flag)) :
    (x.consuming bad).issueLL f = some (x1.consuming bad, flag) := by
  cases bad with
  | false => exact hi
  | true => exact (x.issueLL_chk ..).trans (congrArg _ hi)

theorem OnlyStream.of_pconsIf (s : State) (bad : Bool) : OnlyStream s.me s (s.pconsIf bad) ∨ s.pconsIf bad = s := by
  cases bad with
  | false => exact .inr rfl
  | true => exact .inl ((OnlyStream.of_onGrp ..).count ..)

/-- The stream in which a report of `v` to a scalar register has issued. -/
def Group.reported (x1 : Group) (slot : Word) (flag : Option Nat) (dst : Nat) (v : Word) (m : BitVec 16) (bad : Bool) : Group :=
  (x1.consuming bad).pendLL slot flag (some (dst, v)) (m = 0)

theorem Group.reported_eq (x1 : Group) (slot : Word) (flag : Option Nat) (dst : Nat) (v : Word) (m : BitVec 16) (bad : Bool) :
    x1.reported slot flag dst v m bad =
      { x1 with s := if m = 0 then (x1.sSet dst v).s else x1.s
                sPoison := if m = 0 then (x1.sSet dst v).sPoison else x1.sPoison
                flags := if m = 0 then (x1.lower flag).flags else x1.flags
                pending := if m = 0 then x1.pending else x1.pending ++ [{ slot, flag, dst := some (dst, v) }]
                chkint := if bad then x1.chkint ||| 1 else x1.chkint } := by
  have hchk : ((x1.chk pcons).sSet dst v) = (x1.sSet dst v).chk pcons := by
    unfold Group.sSet
    split <;> rfl
  have hlow : ((x1.chk pcons).lower flag) = (x1.lower flag).chk pcons := by cases flag <;> rfl
  rw [Group.reported, Group.pendLL_report]
  cases bad with
  | false => simp only [Group.consuming, Bool.false_eq_true, if_false, decide_eq_true_eq]
  | true => simp only [Group.consuming, if_true, decide_eq_true_eq, hchk, hlow]; rfl

/-- What a report leaves of the machine and of its stream. -/
theorem State.report_eq {s : State} {f : LaneWord} {x1 : Group} {flag : Option Nat} (hi : (own s).issueLL f = some (x1, flag)) (bad : Bool)
    (m : BitVec 16) (v : Word) :
    OnlyStream s.me s ((s.pconsIf bad).report f m v) ∧
      ((s.pconsIf bad).report f m v).grp s.me = (x1.reported (own s).slot flag (f.vd.toNat % 64) v m bad).laneDone false := by
  have hown : (s.pconsIf bad).grp s.me = (own s).consuming bad := State.grp_pconsIf s bad
  have hslot : ((own s).consuming bad).slot = (own s).slot := by cases bad <;> rfl
  have hreport : (s.pconsIf bad).report f m v =
      ((s.pconsIf bad).setGrp s.me (x1.reported (own s).slot flag (f.vd.toNat % 64) v m bad)).laneNext f m 1 := by
    rw [State.report, State.me_pconsIf, hown, Group.issueLL_consuming bad hi, hslot]
    rfl
  rw [hreport]
  have hme : ((s.pconsIf bad).setGrp s.me (x1.reported (own s).slot flag (f.vd.toNat % 64) v m bad)).me = s.me := State.me_pconsIf s bad
  refine ⟨OnlyStream.laneNext (OnlyStream.onGrp (OnlyStream.of_pconsIf s bad) fun _ => _) hme .., ?_⟩
  have hg := State.grp_laneNext ((s.pconsIf bad).setGrp s.me (x1.reported (own s).slot flag (f.vd.toNat % 64) v m bad)) f m 1
  rw [hme, State.grp_setGrp] at hg
  exact hg

/-- 02 R38, 06 R160: what a report leaves pending, and what it writes where no lane acts. -/
theorem does_report {i : Instr} {s : State} {f : LaneWord} {x1 : Group} {flag : Option Nat} (hi : (own s).issueLL f = some (x1, flag))
    (bad : Nat → Bool) {v : Word} {p : Word → Prop}
    (hexec : exec i s = .next ((s.pconsIf ((bodyLanes f (acting s f)).any bad)).report f (acting s f) v)) (hp : p v) :
    Does i s fun t => ∃ v, p v ∧ LongIssued s t (acting s f) x1 flag (some (f.vd.toNat % 64, v)) ∧ VecKept (own s) (t.grp s.me) ∧
      LaneConsumed (own s) (t.grp s.me) f (acting s f) bad ∧
      (∀ r, r ≠ f.vd.toNat % 64 ∨ acting s f ≠ 0 → (t.grp s.me).sGet r = (own s).sGet r) ∧
      (acting s f = 0 → f.vd.toNat % 64 ≠ 0 → (t.grp s.me).sGet (f.vd.toNat % 64) = v) := by
  obtain ⟨hs, hg⟩ := State.report_eq hi ((bodyLanes f (acting s f)).any bad) (acting s f) v
  obtain ⟨⟨hx1, -⟩, hpend⟩ := Group.longOnly_issueLL hi
  refine ⟨_, hexec, v, hp, ?_⟩
  unfold LongIssued
  rw [hg, Group.reported_eq]
  refine ⟨⟨hs, by rw [hx1]; rfl, by rw [hx1]; rfl, fun k => ?_, ?_⟩, ⟨by rw [hx1]; rfl, by rw [hx1]; rfl⟩, by rw [LaneConsumed, hx1]; rfl,
    fun r hr => ?_, fun hm hd => ?_⟩
  · have hk := Group.flag_lower x1 flag k
    by_cases hm : acting s f = 0
    · simp only [hm, if_true, true_and]
      exact hk
    · simp only [hm, if_false, false_and]
      rfl
  · by_cases hm : acting s f = 0
    · simp only [hm, if_true, true_or]
      exact hpend
    · simp only [hm, if_false, false_or, reduceCtorEq, and_false, ← hpend]
      rfl
  · have hsame : x1.sGet r = (own s).sGet r := (WroteNone.of_eq (by rw [hx1]) (by rw [hx1]) r).1
    by_cases hm : acting s f = 0
    · exact ((WroteNone.of_eq (x := x1.sSet _ v) (if_pos hm) (if_pos hm) r).1.trans
        (x1.sGet_sSet_other v (hr.resolve_right (not_not.2 hm)))).trans hsame
    · exact (WroteNone.of_eq (x := x1) (if_neg hm) (if_neg hm) r).1.trans hsame
  · exact (WroteNone.of_eq (x := x1.sSet _ v) (if_pos hm) (if_pos hm) _).1.trans (x1.sGet_sSet_same _ v hd)

/-! ## Votes (06 R160) -/

theorem lt_of_mem_bodyLanes {f : LaneWord} {m : BitVec 16} {l : Nat} (h : l ∈ bodyLanes f m) : l < 16 := by
  have hl : l ∈ lanes m := by
    unfold bodyLanes at h
    split at h
    · exact List.mem_of_mem_take h
    · exact h
  exact (mem_lanes.1 hl).1

theorem voteVal_ballot (k : BitVec 16) {ls : List Nat} (hls : ∀ l ∈ ls, l < 16) (l : Nat) :
    (voteVal 0 k ls).getLsbD l = decide (l ∈ ls.filter fun t => k.getLsbD t) := by
  change ((maskOf (ls.filter fun t => k.getLsbD t)).setWidth 64).getLsbD l = _
  rw [BitVec.getLsbD_setWidth]
  by_cases hl : l < 16
  · rw [getLsbD_maskOf _ hl, decide_eq_true (by omega : l < 64), Bool.true_and]
  · rw [BitVec.getLsbD_of_ge _ l (by omega), Bool.and_false]
    exact (decide_eq_false fun h => hl (hls l (List.mem_filter.1 h).1)).symm

theorem voteVal_any (k : BitVec 16) (ls : List Nat) : voteVal 1 k ls = if (ls.filter fun t => k.getLsbD t) = [] then 0 else 1 :=
  if_congr List.isEmpty_iff rfl rfl

theorem voteVal_all (k : BitVec 16) (ls : List Nat) : voteVal 2 k ls = if (ls.filter fun t => k.getLsbD t) = ls then 1 else 0 :=
  if_congr (by rw [List.filter_eq_self, List.length_filter_eq_length_iff]) rfl rfl

/-! ## Reductions (06 R160) -/

/-- The least of a bound and the numbers of a list. -/
theorem foldl_min_spec {α : Type} [LinearOrder α] (l : List α) (b : α) :
    (l.foldl min b = b ∨ l.foldl min b ∈ l) ∧ l.foldl min b ≤ b ∧ ∀ z ∈ l, l.foldl min b ≤ z := by
  induction l generalizing b with
  | nil => simp
  | cons a l ih =>
    obtain ⟨hmem, hle, hall⟩ := ih (min b a)
    rw [List.foldl_cons]
    refine ⟨?_, hle.trans (min_le_left ..), fun z hz => ?_⟩
    · rcases hmem with h | h
      · rcases min_choice b a with hb | ha
        · exact .inl (h.trans hb)
        · exact .inr (by rw [h, ha]; exact List.mem_cons_self)
      · exact .inr (List.mem_cons_of_mem _ h)
    · rcases List.mem_cons.1 hz with rfl | hz
      · exact hle.trans (min_le_right ..)
      · exact hall z hz

/-- Of numbers none of which is beyond the bound, the least is one of them. -/
theorem foldl_min_least {α : Type} [LinearOrder α] {l : List α} {b : α} (hne : l ≠ []) (hb : ∀ z ∈ l, z ≤ b) :
    l.foldl min b ∈ l ∧ ∀ z ∈ l, l.foldl min b ≤ z := by
  obtain ⟨hmem, -, hall⟩ := foldl_min_spec l b
  refine ⟨?_, hall⟩
  rcases hmem with h | h
  · obtain ⟨z, hz⟩ := List.exists_mem_of_ne_nil l hne
    have hbz : b = z := le_antisymm (h ▸ hall z hz) (hb z hz)
    rw [h, hbz]
    exact hz
  · exact h

/-- The least integer of a type. -/
def tyLow (ty : BitVec 4) : Int := if tySigned ty then -(2 ^ (tyWidth ty - 1) : Int) else 0

/-- The greatest integer of a type. -/
def tyHigh (ty : BitVec 4) : Int := if tySigned ty then (2 ^ (tyWidth ty - 1) - 1 : Int) else (2 ^ tyWidth ty - 1 : Int)

theorem asInt_bounds (ty : BitVec 4) (x : Nat) : tyLow ty ≤ asInt ty x ∧ asInt ty x ≤ tyHigh ty := by
  have hlt : ((x % 2 ^ tyWidth ty : Nat) : Int) < 2 ^ tyWidth ty := by exact_mod_cast Nat.mod_lt x (Nat.two_pow_pos _)
  have hhalf : (2 : Int) ^ tyWidth ty = 2 * 2 ^ (tyWidth ty - 1) := by
    rw [← pow_succ', Nat.sub_add_cancel (tyWidth_pos ty)]
  unfold asInt tyLow tyHigh
  generalize x % 2 ^ tyWidth ty = y at *
  cases tySigned ty
  · simp only [Bool.false_eq_true, false_and, if_false]
    omega
  · simp only [true_and, if_true]
    split <;> rename_i h
    · have h' : (2 : Int) ^ (tyWidth ty - 1) ≤ y := by exact_mod_cast h
      omega
    · have h' : (y : Int) < 2 ^ (tyWidth ty - 1) := by exact_mod_cast not_le.1 h
      omega

/-- A bit of numbers gathered by an operation bit by bit. -/
theorem getLsbD_foldl_bitwise {op : Word → Word → Word} {bop : Bool → Bool → Bool} {i : Nat} (hi : i < 64)
    (hop : ∀ a b : Word, (op a b).getLsbD i = bop (a.getLsbD i) (b.getLsbD i)) (vs : List Nat) (a : Word) :
    (vs.foldl (fun a v => op a (BitVec.ofNat 64 v)) a).getLsbD i = vs.foldl (fun p v => bop p (v.testBit i)) (a.getLsbD i) := by
  induction vs generalizing a with
  | nil => rfl
  | cons v vs ih =>
    rw [List.foldl_cons, ih, hop, BitVec.getLsbD_ofNat, decide_eq_true hi, Bool.true_and, List.foldl_cons]

theorem foldl_and_eq_all (q : Nat → Bool) (vs : List Nat) (p : Bool) : vs.foldl (fun p v => p && q v) p = (p && vs.all q) := by
  induction vs generalizing p with
  | nil => simp
  | cons v vs ih => rw [List.foldl_cons, ih, List.all_cons, Bool.and_assoc]

theorem foldl_or_eq_any (q : Nat → Bool) (vs : List Nat) (p : Bool) : vs.foldl (fun p v => p || q v) p = (p || vs.any q) := by
  induction vs generalizing p with
  | nil => simp
  | cons v vs ih => rw [List.foldl_cons, ih, List.any_cons, Bool.or_assoc]

theorem foldl_xor_eq_odd (q : Nat → Bool) (vs : List Nat) (p : Bool) :
    vs.foldl (fun p v => p ^^ q v) p = (p ^^ decide ((vs.filter q).length % 2 = 1)) := by
  induction vs generalizing p with
  | nil => simp
  | cons v vs ih =>
    rw [List.foldl_cons, ih, List.filter_cons, Bool.xor_assoc]
    cases q v with
    | false => simp
    | true =>
      rcases Nat.mod_two_eq_zero_or_one (vs.filter q).length with h | h <;> simp [h, Nat.add_mod]

section
variable (ty : BitVec 4) (vs : List Nat)

theorem reduceVals_sum : reduceVals 0 ty vs = BitVec.ofInt 64 (vs.map (asInt ty)).sum := by
  simp only [reduceVals, funext (intVal_eq_asInt ty)]

theorem reduceVals_min (hne : vs.map (asInt ty) ≠ []) :
    ∃ y ∈ vs.map (asInt ty), reduceVals 1 ty vs = BitVec.ofInt 64 y ∧ ∀ z ∈ vs.map (asInt ty), y ≤ z := by
  have hval : reduceVals 1 ty vs = BitVec.ofInt 64 ((vs.map (asInt ty)).foldl min (tyHigh ty)) := by
    simp only [reduceVals, funext (intVal_eq_asInt ty), tyHigh]
  obtain ⟨hmem, hle⟩ := foldl_min_least (b := tyHigh ty) hne (List.forall_mem_map.2 fun x _ => (asInt_bounds ty x).2)
  exact ⟨_, hmem, hval, hle⟩

theorem reduceVals_max (hne : vs.map (asInt ty) ≠ []) :
    ∃ y ∈ vs.map (asInt ty), reduceVals 2 ty vs = BitVec.ofInt 64 y ∧ ∀ z ∈ vs.map (asInt ty), z ≤ y := by
  have hval : reduceVals 2 ty vs = BitVec.ofInt 64 ((vs.map (asInt ty)).foldl max (tyLow ty)) := by
    simp only [reduceVals, funext (intVal_eq_asInt ty), tyLow]
  obtain ⟨hmem, hle⟩ := foldl_min_least (α := Intᵒᵈ) (b := tyLow ty) hne (List.forall_mem_map.2 fun x _ => (asInt_bounds ty x).1)
  exact ⟨_, hmem, hval, hle⟩

variable {i : Nat} (hi : i < 64)
include hi

theorem getLsbD_reduceVals_and : (reduceVals 3 ty vs).getLsbD i = vs.all fun n => n.testBit i := by
  refine (getLsbD_foldl_bitwise (op := (· &&& ·)) (bop := (· && ·)) hi (fun _ _ => BitVec.getLsbD_and) vs _).trans ?_
  rw [foldl_and_eq_all, BitVec.getLsbD_allOnes, decide_eq_true hi, Bool.true_and]

theorem getLsbD_reduceVals_or : (reduceVals 4 ty vs).getLsbD i = vs.any fun n => n.testBit i := by
  refine (getLsbD_foldl_bitwise (op := (· ||| ·)) (bop := (· || ·)) hi (fun _ _ => BitVec.getLsbD_or) vs _).trans ?_
  rw [foldl_or_eq_any, show (0 : Word).getLsbD i = false from BitVec.getLsbD_zero, Bool.false_or]

theorem getLsbD_reduceVals_xor (op : Nat) :
    (reduceVals (op + 5) ty vs).getLsbD i = decide ((vs.filter fun n => n.testBit i).length % 2 = 1) := by
  refine (getLsbD_foldl_bitwise (op := (· ^^^ ·)) (bop := (· ^^ ·)) hi (fun _ _ => BitVec.getLsbD_xor) vs _).trans ?_
  rw [foldl_xor_eq_odd, show (0 : Word).getLsbD i = false from BitVec.getLsbD_zero, Bool.false_xor]

end

/-! ## The reports -/

theorem exec_vvote (s : State) (f : LaneWord) :
    exec (.vvote f) s = .next ((s.pconsIf ((bodyLanes f (acting s f)).any fun _ => false)).report f (acting s f)
      (voteVal f.sub.toNat ((own s).kGet (f.va.toNat % 8)) (bodyLanes f (acting s f)))) := by
  have hclean : ((bodyLanes f (acting s f)).any fun _ => false) = false := by simp
  rw [hclean]
  exact congrArg Host.Outcome.next (s.laneBody_nil f _)

theorem exec_vredsc {s : State} {f : LaneWord} {x1 : Group} {flag : Option Nat} (hi : (own s).issueLL f = some (x1, flag))
    (hready : LaneReady s f [(f.va.toNat, wide f.ty)]) :
    exec (.vredsc f) s = .next ((s.pconsIf ((bodyLanes f (acting s f)).any fun l => ((own s).srcReg f.ty l f.va.toNat).2)).report f (acting s f)
      (reduceVals f.sub.toNat f.ty ((bodyLanes f (acting s f)).map fun l => ((own s).srcReg f.ty l f.va.toNat).1))) := by
  change execVredsc f s = _
  unfold own at *
  simp only [execVredsc, State.laneBody_ready s f _ _ hready, hi, Option.isNone_some, Bool.false_eq_true, if_false, List.any_map, List.map_map,
    Function.comp_def]

/-- Settles O19: a report issues with its value, which is gathered from the lanes used one after another. -/
theorem laneReports : Obligations.LaneReports := by
  intro s f x1 flag x m ls dst yes vs is reported hi
  refine ⟨does_report hi _ (exec_vvote s f) ?_, fun _ _ hready => does_report hi _ (exec_vredsc hi hready) ?_⟩
  · match f.sub.toNat with
    | 0 => exact voteVal_ballot _ fun _ => lt_of_mem_bodyLanes
    | 1 => exact voteVal_any ..
    | 2 => exact voteVal_all ..
    | _ + 3 => rfl
  · match f.sub.toNat with
    | 0 => exact reduceVals_sum ..
    | 1 => exact reduceVals_min f.ty vs
    | 2 => exact reduceVals_max f.ty vs
    | 3 => exact fun i => getLsbD_reduceVals_and f.ty vs
    | 4 => exact fun i => getLsbD_reduceVals_or f.ty vs
    | op + 5 => exact fun i hi => getLsbD_reduceVals_xor f.ty vs hi op

end Sys2Proof.Machine
end

