-- ==== Sys2Proof/Proofs/LaneControlFlow.lean ====
section
/-! SUPPORT. Lane branches, marks, joins, calls, returns and the end of lanes (02 R40 to R42, 06 R163 to R170). -/

namespace Sys2Proof.Machine
open Claims

/-! ## A control instruction that issues -/

theorem OnlyStream.laneGo (s : State) (f : LaneWord) (m : BitVec 16) (h : Group → Group) : OnlyStream s.me s (s.laneGo f m h) :=
  OnlyStream.onGrp (.inl (OnlyStream.of_laneNext s false f m 1)) h

theorem State.grp_laneGo (s : State) (f : LaneWord) (m : BitVec 16) (h : Group → Group) :
    (s.laneGo f m h).grp s.me = h ((s.grp s.me).laneDone false) := by
  rw [State.laneGo, State.grp_onGrp, State.grp_laneNext]
  rfl

theorem laneWent_of {i : Instr} {s : State} {f : LaneWord} {m : BitVec 16} {h : Group → Group} {path : Option Path} {stack : List MJEntry}
    {live : BitVec 16} (hi : exec i s = .next (s.laneGo f m h))
    (hh : h ((own s).laneDone false) = { own s with path, stack, live, lstall := 0, spawned := none }) :
    Does i s fun t => LaneWent s t path stack live :=
  ⟨_, hi, OnlyStream.laneGo .., (State.grp_laneGo ..).trans hh⟩

/-! ## Branches (02 R42, 06 R164, R165) -/

theorem Group.topMark_iff (x : Group) : x.topMark = true ↔ ∃ r k ring c st, x.stack = .mark r k ring c :: st := by
  unfold Group.topMark
  split
  next r k ring c st h => simp [h]
  next h => simpa using h

/-- The move that a branch makes: its parts placed, and after a taken backward branch the paths switched. -/
def Group.branch (x : Group) (parts : List Path) (back : Bool) : Group :=
  let y : Group := if parts.length > 1 then x.diverge parts else { x with path := parts.head? }
  if back then y.switchPath else y

/-- Where a branch leads, by the parts, the top entry of the stack and that entry's ring. -/
theorem Group.branch_withStack (x : Group) (S : List MJEntry) {parts : List Path} (back : Bool)
    (htop : parts.length ≤ 1 ∨ ({ x with stack := S } : Group).topMark = true) :
    ({ x with stack := S } : Group).branch parts back = { x with path := (branched S parts back).1, stack := (branched S parts back).2 } := by
  match parts, S with
  | [], [] => cases back <;> rfl
  | [], .call .. :: _ => cases back <;> rfl
  | [], .mark _ _ ring _ :: _ => cases ring <;> cases back <;> rfl
  | [_], [] => cases back <;> rfl
  | [_], .call .. :: _ => cases back <;> rfl
  | [_], .mark _ _ ring _ :: _ => cases ring <;> cases back <;> rfl
  | _ :: _ :: _, .mark .. :: _ => cases back <;> rfl
  | _ :: _ :: _, [] => simp [Group.topMark] at htop
  | _ :: _ :: _, .call .. :: _ => simp [Group.topMark] at htop

theorem Group.branch_eq (x : Group) {parts : List Path} (back : Bool) (htop : parts.length ≤ 1 ∨ x.topMark = true) :
    x.branch parts back = { x with path := (branched x.stack parts back).1, stack := (branched x.stack parts back).2 } :=
  x.branch_withStack x.stack back htop

theorem State.branchTo_eq {s : State} (f : LaneWord) (m : BitVec 16) {parts : List Path} (back : Bool)
    (htop : parts.length ≤ 1 ∨ (own s).topMark = true) :
    s.branchTo f m parts back = s.laneGo f m fun x => x.branch parts back := by
  have hgo : (decide (parts.length > 1) && !(s.grp s.me).topMark) = false := by
    rcases htop with h | h
    · simp [show ¬ parts.length > 1 by omega]
    · unfold own at h
      simp [h]
  rw [State.branchTo, hgo]
  rfl

theorem laneWent_branchTo {i : Instr} {s : State} {f : LaneWord} {m : BitVec 16} {parts : List Path} {back : Bool}
    (hi : exec i s = .next (s.branchTo f m parts back)) (htop : parts.length ≤ 1 ∨ ∃ r k ring c st, (own s).stack = .mark r k ring c :: st) :
    Does i s fun t => LaneWent s t (branched (own s).stack parts back).1 (branched (own s).stack parts back).2 (own s).live := by
  rw [← Group.topMark_iff] at htop
  exact laneWent_of (hi.trans (congrArg _ (State.branchTo_eq f m back htop))) (Group.branch_eq _ back htop)

theorem exec_vbra {s : State} {f : LaneWord} {a : Word} {h : ClauseHeader} (hc : (own s).curClause = some (a, h))
    (hpos : 1 ≤ f.imm.toNat % 32) (hle : f.imm.toNat % 32 ≤ h.count + 1) :
    exec (.vbra f) s = .next (s.branchTo f (acting s f)
      (if (own s).here &&& ~~~ acting s f = 0 then [pathAt a (acting s f) (f.imm.toNat % 32)]
        else if acting s f = 0 then [pathAt a ((own s).here &&& ~~~ acting s f) ((own s).slotIn a + 1)]
        else [pathAt a (acting s f) (f.imm.toNat % 32), pathAt a ((own s).here &&& ~~~ acting s f) ((own s).slotIn a + 1)])
      (acting s f ≠ 0 && decide (f.imm.toNat % 32 ≤ (own s).slotIn a))) := by
  have hin : ¬ (f.imm.toNat % 32 = 0 ∨ h.count + 1 < f.imm.toNat % 32) := by omega
  change execVbra f s = _
  unfold own at hc
  unfold acting own
  simp only [execVbra, hc, Bool.or_eq_true, decide_eq_true_eq, if_neg hin]
  rfl

/-! ## Branches by a register (06 R165) -/

/-- The slots among the first that some acting lane names. -/
def namedSlots (m : BitVec 16) (dest : Nat → Nat) (k : Nat) : List Nat := (List.range k).filter fun n => (lanes m).any fun l => dest l = n

/-- The path of the lanes that name a slot. -/
def pathTo (a : Word) (m : BitVec 16) (dest : Nat → Nat) (n : Nat) : Path := pathAt a (maskOf ((lanes m).filter fun l => dest l = n)) n

/-- The parts of a path that a branch by a register makes: one for each slot named, and one for the lanes that do not branch. -/
def scattered (a : Word) (m rest : BitVec 16) (dest : Nat → Nat) (k here : Nat) : List Path :=
  (namedSlots m dest k).map (pathTo a m dest) ++ if rest = 0 ∧ m ≠ 0 then [] else [pathAt a rest (here + 1)]

theorem filterMap_pathTo (a : Word) (m : BitVec 16) (dest : Nat → Nat) (l : List Nat) :
    (l.filterMap fun n => if ((lanes m).filter fun l => dest l = n) = [] then none else some (pathTo a m dest n)) =
      (l.filter fun n => (lanes m).any fun l => dest l = n).map (pathTo a m dest) := by
  induction l with
  | nil => rfl
  | cons n l ih =>
    have hany : ((lanes m).any fun l => dest l = n) = false ↔ ((lanes m).filter fun l => dest l = n) = [] := by
      simp [List.filter_eq_nil_iff]
    by_cases hn : ((lanes m).filter fun l => dest l = n) = []
    · rw [List.filterMap_cons_none (by rw [if_pos hn]), List.filter_cons_of_neg (by simp [hany.2 hn]), ih]
    · rw [List.filterMap_cons_some (by rw [if_neg hn]), List.filter_cons_of_pos (by simpa using mt hany.1 hn), List.map_cons, ih]

/-- No lane names slot 0, which is the header. -/
theorem namedSlots_succ {m : BitVec 16} {dest : Nat → Nat} (hd : ∀ l ∈ lanes m, 1 ≤ dest l) (k : Nat) :
    namedSlots m dest (k + 1) = ((List.range k).filter fun n => (lanes m).any fun l => dest l = n + 1).map (· + 1) := by
  have hzero : ((lanes m).any fun l => dest l = 0) = false := by
    rw [List.any_eq_false]
    intro l hl
    have := hd l hl
    simp
    omega
  rw [namedSlots, List.range_succ_eq_map, List.filter_cons_of_neg (by simp [hzero]), List.filter_map]
  rfl

theorem lanes_eq_nil {m : BitVec 16} : lanes m = [] ↔ m = 0 := by
  constructor
  · intro h
    apply BitVec.eq_of_getLsbD_eq
    intro i hi
    have : i ∉ lanes m := h ▸ List.not_mem_nil
    rw [mem_lanes] at this
    simpa [hi] using this
  · rintro rfl
    simp [lanes]

theorem namedSlots_eq_nil {m : BitVec 16} {dest : Nat → Nat} {k : Nat} (hd : ∀ l ∈ lanes m, dest l < k) :
    namedSlots m dest k = [] ↔ m = 0 := by
  rw [← lanes_eq_nil, namedSlots, List.filter_eq_nil_iff]
  constructor
  · intro h
    rw [List.eq_nil_iff_forall_not_mem]
    intro l hl
    exact h (dest l) (List.mem_range.2 (hd l hl)) (List.any_eq_true.2 ⟨l, hl, by simp⟩)
  · intro h
    simp [h]

/-- The lanes that do not branch are a part of their own, unless there are none and others branch. -/
theorem ite_append_past {T : List Path} {m : BitVec 16} (hT : T.isEmpty = decide (m = 0)) (rest : BitVec 16) (past : Path) :
    (if rest = 0 && !T.isEmpty then T else T ++ [past]) = T ++ if rest = 0 ∧ m ≠ 0 then [] else [past] := by
  rw [hT]
  by_cases h : rest = 0 ∧ m ≠ 0
  · rw [if_pos h, if_pos (by simpa using h), List.append_nil]
  · rw [if_neg h, if_neg (by simpa using h)]

theorem exec_vbrax {s : State} {f : LaneWord} {a : Word} {h : ClauseHeader} {dest : Nat → Nat}
    (hdest : dest = fun l => ((own s).srcReg 0#4 l f.va.toNat).1) (hc : (own s).curClause = some (a, h))
    (hready : LaneReady s f [(f.va.toNat, 1)])
    (hd : ∀ l ∈ lanes (acting s f), 1 ≤ dest l ∧ dest l ≤ h.count + 1 ∧ (own s).vBad l f.va.toNat = false) :
    exec (.vbrax f) s = .next (s.branchTo f (acting s f)
      (scattered a (acting s f) ((own s).here &&& ~~~ acting s f) dest (h.count + 2) ((own s).slotIn a))
      ((namedSlots (acting s f) dest (h.count + 2)).head?.any fun n => decide (n ≤ (own s).slotIn a))) := by
  have hclean : ((lanes (acting s f)).any fun l => ((own s).srcReg 0#4 l f.va.toNat).2) = false := by
    rw [List.any_eq_false]
    intro l hl
    simp [Group.srcReg_word (hd l hl).2.2]
  have hin : ((lanes (acting s f)).filter fun l => dest l = 0 || decide (dest l > h.count + 1)) = [] := by
    rw [List.filter_eq_nil_iff]
    intro l hl
    have := hd l hl
    simp
    omega
  have hslots := namedSlots_succ (fun l hl => (hd l hl).1) (h.count + 1)
  have hempty : ((namedSlots (acting s f) dest (h.count + 2)).map (pathTo a (acting s f) dest)).isEmpty = decide (acting s f = 0) := by
    rw [Bool.eq_iff_iff, List.isEmpty_map, List.isEmpty_iff, decide_eq_true_eq]
    exact namedSlots_eq_nil fun l hl => by have := hd l hl; omega
  change execVbrax f s = _
  rw [scattered]
  rw [hslots, List.map_map] at hempty ⊢
  subst hdest
  unfold own at *
  simp only [execVbrax, State.laneBody_ready s f _ _ hready, hc, List.any_map, List.filter_map, List.map_map, Function.comp_def, hclean,
    State.pconsIf, hin, List.map_id']
  refine congrArg Host.Outcome.next (congrArg₂ (s.branchTo f (acting s f)) (ite_append_past hempty _ _) ?_)
  split
  next hn => simp only [hn, Option.any_some]
  next hn => simp only [hn, Option.any_none]

theorem laneBranches : LaneBranches := by
  intro s f a h x m rest here n onTop dest parts least hc
  refine ⟨fun hpos hle htop => laneWent_branchTo (exec_vbra hc hpos hle) ?_, fun hready hd htop => ?_⟩
  · obtain hrest | hm | hmark := htop
    · left
      rw [if_pos hrest]
      rfl
    · left
      rw [if_pos hm]
      split <;> exact le_rfl
    · exact .inr hmark
  · have hparts : parts = scattered a m rest dest (h.count + 2) here := congrArg (· ++ _) (filterMap_pathTo ..)
    have hexec : exec (.vbrax f) s = .next (s.branchTo f m parts (match least with | some n => decide (n ≤ here) | none => false)) := by
      rw [hparts, exec_vbrax rfl hc hready hd]
      refine congrArg _ (congrArg (s.branchTo f m _) ?_)
      change (namedSlots m dest (h.count + 2)).head?.any _ = match (namedSlots m dest (h.count + 2)).head? with
        | some n => decide (n ≤ here)
        | none => false
      cases (namedSlots m dest (h.count + 2)).head? <;> rfl
    exact laneWent_branchTo hexec htop

/-! ## Marks, joins, calls, returns and the end of lanes (06 R167 to R170) -/

theorem exec_vmark {s : State} {f : LaneWord} {a : Word} {h : ClauseHeader} {j : LaneWord} (hc : (own s).curClause = some (a, h))
    (hn : (own s).slotIn a < f.imm.toNat % 32) (hle : f.imm.toNat % 32 ≤ h.count)
    (hjoin : s.fetchLane s.me (a + BitVec.ofNat 64 (12 * (f.imm.toNat % 32))) = .instr (.vjoin j)) (hroom : (own s).stack.length < 32) :
    exec (.vmark f) s =
      .next (s.laneGo f (own s).here fun y => { y with stack := .mark (f.imm.toNat % 32) (own s).here [] a :: y.stack }) := by
  have hholds : s.holdsJoin s.me a (f.imm.toNat % 32) = true := by
    rw [State.holdsJoin, slotAddr, hjoin]
  have hok : ¬ (f.imm.toNat % 32 ≤ (own s).slotIn a ∨ f.imm.toNat % 32 > h.count) := by omega
  change execVmark f s = _
  unfold own at *
  simp only [execVmark, hc, hholds, Bool.not_true, Bool.or_false, Bool.or_eq_true, decide_eq_true_eq, if_neg hok, if_neg (not_le.mpr hroom)]

theorem exec_vjoin {s : State} {f : LaneWord} {a : Word} {h : ClauseHeader} {k : BitVec 16} {ring : List Path} {st : List MJEntry}
    (hc : (own s).curClause = some (a, h)) (hs : (own s).stack = .mark ((own s).slotIn a) k ring a :: st) :
    exec (.vjoin f) s = .next (s.laneGo f (own s).here Group.arrive) := by
  change execVjoin f s = _
  unfold own at *
  simp [execVjoin, hc, hs]

/-- The stream after `vcall` has entered a clause. -/
def Group.called (x y : Group) (l : Word) (h : ClauseHeader) : Group :=
  { y with stack := .call (x.slot + 12) x.here l h :: y.stack, path := y.path.map fun p => { p with lpc := l + 12 } }

theorem exec_vcall {s : State} {f : LaneWord} {l : Word} {h : ClauseHeader}
    (hl : (own s).cap (f.vb.toNat % 16) + 16 * f.imm.signExtend 64 = l) (hal : l.toNat % 16 = 0)
    (hh : s.readHeader s.me l = .ok h) (hroom : (own s).stack.length < 32) :
    exec (.vcall f) s = .next ((s.drew s.me l.toNat 12).laneGo f (own s).here fun y => (own s).called y l h) := by
  change execVcall f s = _
  unfold own at *
  simp only [execVcall, hl, hal, hh, ne_eq, not_true_eq_false, if_false, if_neg (not_le.mpr hroom)]
  rfl

theorem exec_vret {s : State} {f : LaneWord} {ret l : Word} {k : BitVec 16} {h : ClauseHeader} {st : List MJEntry}
    (hs : (own s).stack = .call ret k l h :: st) : exec (.vret f) s = .next (s.laneGo f (own s).here fun y => y.return?.getD y) := by
  change execVret f s = _
  unfold own at *
  simp [execVret, Group.return?, hs]

theorem exec_vexit {s : State} {f : LaneWord} (htry : (own s).tr = none) :
    exec (.vexit f) s = .next (s.laneGo f (acting s f) fun y => y.depart (acting s f)) := by
  change execVexit f s = _
  unfold acting own at *
  simp [execVexit, Group.inTry, htry]

/-- 06 R169: a return leaves the path where it is, unless no lane is left on it under a mark entry. -/
theorem Group.resettle_eq_self {x : Group} (h : x.pathMask ≠ 0 ∨ ∀ r m ring c st, x.stack ≠ .mark r m ring c :: st) : x.resettle = x := by
  unfold Group.resettle
  split
  next r m ring c st hs =>
    have hp : x.pathMask ≠ 0 := h.resolve_right fun hne => hne r m ring c st hs
    simp only [decide_eq_false hp, Bool.false_and, Bool.false_eq_true, if_false]
  next => rfl

/-- 06 R170: lanes that leave others on the running path, or an empty stack, end no path. -/
theorem Group.depart_eq_leave {x : Group} {m : BitVec 16} (h : x.stack = [] ∨ (x.leave m).pathMask ≠ 0) : x.depart m = x.leave m := by
  unfold Group.depart
  dsimp only
  split
  next hgone =>
    have hs : (x.leave m).stack = [] := by
      rcases h with h | h
      · simp [Group.leave, h]
      · exact absurd (of_decide_eq_true (Bool.and_eq_true_iff.mp hgone).2) h
    rw [hs]
    rfl
  next => rfl

@[simp] theorem Group.pathMask_laneDone (x : Group) (b : Bool) : (x.laneDone b).pathMask = x.pathMask := by
  have hpath : (x.laneDone b).path = x.path.map fun p => { p with lpc := p.lpc + 12 } := by cases b <;> rfl
  unfold Group.pathMask
  rw [hpath]
  cases x.path <;> rfl

theorem Group.pathMask_leave (x : Group) (m : BitVec 16) : (x.leave m).pathMask = x.pathMask &&& ~~~ m := by
  unfold Group.pathMask Group.leave
  cases x.path <;> simp

/-- 06 R168: the next pending path resumes. -/
theorem Group.arrive_pending {x : Group} {r : Nat} {k : BitVec 16} {p : Path} {ring : List Path} {c : Word} {st : List MJEntry}
    (hs : x.stack = .mark r k (p :: ring) c :: st) : x.arrive = { x with path := some p, stack := .mark r k ring c :: st } := by
  simp only [Group.arrive, hs]

/-- 06 R168: all paths have arrived, and the entry's live lanes go on. -/
theorem Group.arrive_last {x : Group} {r : Nat} {k : BitVec 16} {c : Word} {st : List MJEntry} (hs : x.stack = .mark r k [] c :: st) :
    x.arrive = { x with path := some (pathAt c (k &&& x.live) (r + 1)), stack := st } := by
  simp only [Group.arrive, hs]
  rfl

theorem Group.return?_of_call {x : Group} {ret l : Word} {k : BitVec 16} {h : ClauseHeader} {st : List MJEntry}
    (hs : x.stack = .call ret k l h :: st) (hkeep : x.pathMask ≠ 0 ∨ ∀ r m ring c st', st ≠ .mark r m ring c :: st') :
    x.return? = some { x with stack := st, path := x.path.map fun p => { p with lpc := ret } } := by
  have hmask : ({ x with stack := st, path := x.path.map fun p => { p with lpc := ret } } : Group).pathMask = x.pathMask := by
    unfold Group.pathMask
    cases x.path <;> rfl
  simp only [Group.return?, hs]
  rw [Group.resettle_eq_self (hkeep.imp_left hmask.trans_ne)]

/-- Where a path goes does not depend on where it was. -/
theorem map_lpc_map_lpc (o : Option Path) (g : Path → Word) (a : Word) :
    (o.map fun p => ({ p with lpc := g p } : Path)).map (fun p => ({ p with lpc := a } : Path)) = o.map fun p => { p with lpc := a } := by
  cases o <;> rfl

theorem Group.called_laneDone (x : Group) (l : Word) (h : ClauseHeader) : x.called (x.laneDone false) l h =
    { x with path := x.path.map fun p => { p with lpc := l + 12 }, stack := .call (x.slot + 12) x.here l h :: x.stack, lstall := 0,
             spawned := none } := by
  unfold Group.called Group.laneDone
  dsimp only
  rw [map_lpc_map_lpc]
  rfl

theorem does_vcall {s : State} {f : LaneWord} {l : Word} {h : ClauseHeader}
    (hl : (own s).cap (f.vb.toNat % 16) + 16 * f.imm.signExtend 64 = l) (hal : l.toNat % 16 = 0)
    (hh : s.readHeader s.me l = .ok h) (hroom : (own s).stack.length < 32) :
    Does (.vcall f) s fun t =>
      t.grp s.me = { own s with path := (own s).path.map fun p => { p with lpc := l + 12 },
                                stack := .call ((own s).slot + 12) (own s).here l h :: (own s).stack, lstall := 0, spawned := none } ∧
      (CodeHere s l.toNat 12 → OnlyStream s.me s t) := by
  refine ⟨_, exec_vcall hl hal hh hroom, ?_, fun hcode => ?_⟩
  · have hp := Poised.of_roster (s.roster_drew s.me l.toNat 12)
    have hg := (s.drew s.me l.toNat 12).grp_laneGo f (own s).here fun y => (own s).called y l h
    have hgrp : (s.drew s.me l.toNat 12).grp s.me = own s := hp.grp
    rw [hp.me, hgrp] at hg
    exact hg.trans (Group.called_laneDone ..)
  · rw [State.drew_here hcode]
    exact OnlyStream.laneGo ..

theorem does_vexit {s : State} {f : LaneWord} (htry : (own s).tr = none)
    (hkeep : (own s).stack = [] ∨ (own s).here &&& ~~~ acting s f ≠ 0) :
    Does (.vexit f) s fun t => OnlyStream s.me s t ∧ t.grp s.me = ((own s).laneDone false).leave (acting s f) := by
  refine ⟨_, exec_vexit htry, OnlyStream.laneGo .., (State.grp_laneGo ..).trans (Group.depart_eq_leave ?_)⟩
  refine hkeep.imp id fun hrest hgone => hrest ?_
  rw [Group.pathMask_leave, Group.pathMask_laneDone] at hgone
  rw [Group.here, BitVec.and_assoc, own, hgone]
  exact BitVec.and_zero

theorem laneMarksAndCalls : LaneMarksAndCalls := by
  intro s f a h x here slot n nextPath hc
  refine ⟨fun hn hle ⟨j, hj⟩ hroom => laneWent_of (exec_vmark hc hn hle hj hroom) rfl,
    fun k p ring st hs => laneWent_of (exec_vjoin hc hs) (Group.arrive_pending hs),
    fun k st hs => laneWent_of (exec_vjoin hc hs) (Group.arrive_last hs), fun h' => does_vcall rfl,
    fun ret k l h' st hs hkeep => laneWent_of (exec_vret hs) ?_, fun htry hkeep => ?_⟩
  · have hret := Group.return?_of_call (x := x.laneDone false) hs (hkeep.imp_left (Group.pathMask_laneDone ..).trans_ne)
    rw [hret, Option.getD_some]
    exact congrArg (fun p => ({ x with path := p, stack := st, lstall := 0, spawned := none } : Group)) (map_lpc_map_lpc x.path _ ret)
  · obtain ⟨t, hexec, hs, hg⟩ := does_vexit (f := f) htry hkeep
    refine ⟨t, hexec, hs, ?_⟩
    rw [hg]
    refine ⟨rfl, ?_, rfl, rfl, List.length_map ..⟩
    change (x.path.map _).map _ = _
    cases x.path <;> rfl

/-- Settles O20: a branch places its parts as the ring of the mark entry on top takes them, and each other control instruction
moves path and stack by its entry. -/
theorem laneControlFlow : Obligations.LaneControlFlow := ⟨laneBranches, laneMarksAndCalls⟩

end Sys2Proof.Machine
end

