-- ==== Sys2Proof/Proofs/FloatFormats.lean ====
section
/-! SUPPORT. Powers of two, binades and the finite patterns of a float format (07 R173, R175). -/

namespace Sys2Proof.Machine

/-! ## Powers of two -/

theorem pow2_fst_pos (e : Int) : 0 < (pow2 e).1 := by
  unfold pow2
  split
  · exact Nat.two_pow_pos _
  · exact Nat.one_pos

theorem pow2_snd_pos (e : Int) : 0 < (pow2 e).2 := by
  unfold pow2
  split
  · exact Nat.one_pos
  · exact Nat.two_pow_pos _

/-- 2^e · 2^c is at most 2^k when e + c is at most k. -/
theorem pow2_mul_le {e : Int} {c k : Nat} (h : e + c ≤ k) : (pow2 e).1 * 2 ^ c ≤ (pow2 e).2 * 2 ^ k := by
  unfold pow2
  split <;> rw [one_mul, ← pow_add] <;> exact Nat.pow_le_pow_right Nat.two_pos (by omega)

/-- 2^e · 2^c is at least 2^k when e + c is at least k. -/
theorem le_pow2_mul {e : Int} {c k : Nat} (h : k ≤ e + c) : (pow2 e).2 * 2 ^ k ≤ (pow2 e).1 * 2 ^ c := by
  unfold pow2
  split <;> rw [one_mul, ← pow_add] <;> exact Nat.pow_le_pow_right Nat.two_pos (by omega)

theorem pow2_mul_eq {e : Int} {c k : Nat} (h : e + c = k) : (pow2 e).1 * 2 ^ c = (pow2 e).2 * 2 ^ k :=
  le_antisymm (pow2_mul_le h.le) (le_pow2_mul h.ge)

/-! ## The binade of a quotient -/

/-- A quotient lies below every power of two beyond its binade. -/
theorem lt_of_ilog2_lt {n d : Nat} (hd : 0 < d) {c k : Nat} (h : ilog2 n d + c < k) : n * 2 ^ c < d * 2 ^ k := by
  unfold ilog2 at h
  dsimp only at h
  split at h
  next hlt =>
    have hpow : _ * 2 ^ c ≤ _ * 2 ^ k := pow2_mul_le (e := (Nat.log2 n : Int) - Nat.log2 d) (by omega)
    have hpos := pow2_snd_pos ((Nat.log2 n : Int) - Nat.log2 d)
    generalize pow2 ((Nat.log2 n : Int) - Nat.log2 d) = q at hlt hpow hpos
    refine lt_of_mul_lt_mul_left (a := q.2) ?_ (Nat.zero_le _)
    calc q.2 * (n * 2 ^ c) = n * q.2 * 2 ^ c := by ring
      _ < d * q.1 * 2 ^ c := by gcongr
      _ = d * (q.1 * 2 ^ c) := by ring
      _ ≤ d * (q.2 * 2 ^ k) := by gcongr
      _ = q.2 * (d * 2 ^ k) := by ring
  next =>
    calc n * 2 ^ c < 2 ^ (Nat.log2 n + 1) * 2 ^ c := by gcongr; exact Nat.lt_log2_self
      _ = 2 ^ (Nat.log2 n + 1 + c) := (pow_add ..).symm
      _ ≤ 2 ^ (Nat.log2 d + k) := Nat.pow_le_pow_right Nat.two_pos (by omega)
      _ = 2 ^ Nat.log2 d * 2 ^ k := pow_add ..
      _ ≤ d * 2 ^ k := by gcongr; exact Nat.log2_self_le hd.ne'

/-- A quotient is at least every power of two up to its binade. -/
theorem le_of_le_ilog2 {n d : Nat} (hn : 0 < n) {c k : Nat} (h : k ≤ ilog2 n d + c) : d * 2 ^ k ≤ n * 2 ^ c := by
  unfold ilog2 at h
  dsimp only at h
  split at h
  next =>
    calc d * 2 ^ k ≤ 2 ^ (Nat.log2 d + 1) * 2 ^ k := by gcongr; exact Nat.lt_log2_self.le
      _ = 2 ^ (Nat.log2 d + 1 + k) := (pow_add ..).symm
      _ ≤ 2 ^ (Nat.log2 n + c) := Nat.pow_le_pow_right Nat.two_pos (by omega)
      _ = 2 ^ Nat.log2 n * 2 ^ c := pow_add ..
      _ ≤ n * 2 ^ c := by gcongr; exact Nat.log2_self_le hn.ne'
  next hle =>
    have hpow : _ * 2 ^ k ≤ _ * 2 ^ c := le_pow2_mul h
    have hpos := pow2_snd_pos ((Nat.log2 n : Int) - Nat.log2 d)
    generalize pow2 ((Nat.log2 n : Int) - Nat.log2 d) = q at hle hpow hpos
    refine le_of_mul_le_mul_left (a := q.2) ?_ hpos
    calc q.2 * (d * 2 ^ k) = d * (q.2 * 2 ^ k) := by ring
      _ ≤ d * (q.1 * 2 ^ c) := by gcongr
      _ = d * q.1 * 2 ^ c := by ring
      _ ≤ n * q.2 * 2 ^ c := Nat.mul_le_mul_right _ (not_lt.mp hle)
      _ = q.2 * (n * 2 ^ c) := by ring

/-! ## Formats -/

/-- The number of binades of a format above its lowest. -/
def Fmt.steps (g : Fmt) : Nat := (g.emax + g.bias - 1).toNat

/-- What R173 gives of every format: the lowest exponent is 1 - bias, the largest significand lies in a binade, and the largest
finite pattern is no infinity and no NaN. -/
structure Fmt.Regular (g : Fmt) : Prop where
  bias_pos : 1 ≤ g.bias
  emax_eq : g.emax = 1 - g.bias + g.steps
  le_maxM : 2 ^ g.fb ≤ g.maxM
  maxM_lt : g.maxM < 2 ^ g.fb * 2
  steps_lt : g.steps + 1 < 2 ^ g.eb
  no_inf : g.kind = 0 → g.steps + 2 < 2 ^ g.eb
  no_nan : g.kind = 1 → g.maxM + 1 < 2 ^ g.fb * 2

/-- Every float type has a regular format. -/
theorem regular_fmtOf {ty : BitVec 4} (h : tyFloat ty = true) : (fmtOf ty).Regular := by
  have hall : ∀ ty : BitVec 4, tyFloat ty = true →
      1 ≤ (fmtOf ty).bias ∧ (fmtOf ty).emax = 1 - (fmtOf ty).bias + (fmtOf ty).steps ∧ 2 ^ (fmtOf ty).fb ≤ (fmtOf ty).maxM ∧
      (fmtOf ty).maxM < 2 ^ (fmtOf ty).fb * 2 ∧ (fmtOf ty).steps + 1 < 2 ^ (fmtOf ty).eb ∧
      ((fmtOf ty).kind = 0 → (fmtOf ty).steps + 2 < 2 ^ (fmtOf ty).eb) ∧
      ((fmtOf ty).kind = 1 → (fmtOf ty).maxM + 1 < 2 ^ (fmtOf ty).fb * 2) := by decide
  obtain ⟨hbias, hemax, hle, hlt, hsteps, hinf, hnan⟩ := hall ty h
  exact ⟨hbias, hemax, hle, hlt, hsteps, hinf, hnan⟩

section
variable (g : Fmt)

/-- The exponent field of a pattern. -/
def Fmt.expo (x : Nat) : Nat := x / 2 ^ g.fb % 2 ^ g.eb

/-- The fraction field of a pattern. -/
def Fmt.frac (x : Nat) : Nat := x % 2 ^ g.fb

/-- The sign of a pattern. -/
def Fmt.negative (x : Nat) : Bool := x / 2 ^ (g.eb + g.fb) % 2 = 1

/-- The significand of a pattern, an integer. -/
def Fmt.sig (x : Nat) : Nat := if g.expo x = 0 then g.frac x else 2 ^ g.fb + g.frac x

/-- The exponent of the last place of a pattern. -/
def Fmt.place (x : Nat) : Int := (max (g.expo x) 1 : Nat) - (g.bias : Int) - g.fb

/-- Is a pattern an infinity or a NaN? -/
def Fmt.special (x : Nat) : Prop :=
  g.expo x = 2 ^ g.eb - 1 ∧ (g.kind = 0 ∨ g.kind = 1 ∧ g.frac x = 2 ^ g.fb - 1)

variable {g}

/-- 07 R173: a pattern that is no infinity and no NaN is its significand times the power of two of its last place. -/
theorem Fmt.value_of_not_special {x : Nat} (h : ¬ g.special x) :
    g.value x = .fin (g.negative x) (g.sig x * (pow2 (g.place x)).1) (pow2 (g.place x)).2 := by
  have hinf : ¬ (decide (g.kind = 0) && decide (g.expo x = 2 ^ g.eb - 1)) = true := by
    simp only [Bool.and_eq_true, decide_eq_true_eq]
    exact fun hx => h ⟨hx.2, .inl hx.1⟩
  have hnan : ¬ (decide (g.kind = 1) && decide (g.expo x = 2 ^ g.eb - 1) && decide (g.frac x = 2 ^ g.fb - 1)) = true := by
    simp only [Bool.and_eq_true, decide_eq_true_eq]
    exact fun hx => h ⟨hx.1.2, .inr ⟨hx.1.1, hx.2⟩⟩
  refine (if_neg hinf).trans ((if_neg hnan).trans ?_)
  change (if g.expo x = 0 then _ else _) = _
  by_cases he : g.expo x = 0
  · rw [if_pos he, Fmt.sig, if_pos he, Fmt.place, he]
    rfl
  · rw [if_neg he, Fmt.sig, if_neg he, Fmt.place, max_eq_left (Nat.one_le_iff_ne_zero.mpr he)]
    rfl

/-- 07 R173, R175: the special patterns are infinities and NaN. -/
theorem Fmt.value_of_special {x : Nat} (h : g.special x) :
    g.value x = if g.kind = 0 ∧ g.frac x = 0 then .inf (g.negative x) else .nan := by
  obtain ⟨he, hk | ⟨hk, hf⟩⟩ := h
  · have hinf : (decide (g.kind = 0) && decide (g.expo x = 2 ^ g.eb - 1)) = true := by simp [hk, he]
    refine (if_pos hinf).trans ?_
    simp only [hk, true_and]
    rfl
  · have hinf : ¬ (decide (g.kind = 0) && decide (g.expo x = 2 ^ g.eb - 1)) = true := by simp [hk]
    have hnan : (decide (g.kind = 1) && decide (g.expo x = 2 ^ g.eb - 1) && decide (g.frac x = 2 ^ g.fb - 1)) = true := by
      simp [hk, he, hf]
    refine (if_neg hinf).trans ((if_pos hnan).trans ?_)
    simp [hk]

/-- A finite value comes from a pattern that is no infinity and no NaN. -/
theorem Fmt.not_special_of_value {x n d : Nat} {neg : Bool} (h : g.value x = .fin neg n d) : ¬ g.special x := by
  intro hx
  rw [Fmt.value_of_special hx] at h
  split at h <;> cases h

theorem Fmt.value_fin_den_pos {x n d : Nat} {neg : Bool} (h : g.value x = .fin neg n d) : 0 < d := by
  rw [Fmt.value_of_not_special (Fmt.not_special_of_value h)] at h
  injection h with _ _ hd
  exact hd ▸ pow2_snd_pos _

end

/-! ## Magnitudes in units of the smallest -/

/-- The magnitude of a pattern without a sign, in units of the format's smallest positive value. -/
def Fmt.units (g : Fmt) (p : Nat) : Nat := (if p / 2 ^ g.fb = 0 then p % 2 ^ g.fb else 2 ^ g.fb + p % 2 ^ g.fb) * 2 ^ (p / 2 ^ g.fb - 1)

/-- The number of smallest positive values in 1, so that a quotient n/d has n · perOne / d of them. -/
def Fmt.perOne (g : Fmt) : Nat := 2 ^ (g.bias + g.fb - 1)

/-- The pattern of a significand `m` in binade `j` above the lowest stands for m · 2^j units, also where `m` is the first one of the next
binade. -/
theorem Fmt.units_pattern (g : Fmt) {j m : Nat} (hlow : j = 0 ∨ 2 ^ g.fb ≤ m) (hhigh : m ≤ 2 ^ g.fb * 2) :
    g.units (j * 2 ^ g.fb + m) = m * 2 ^ j := by
  have hpos := Nat.two_pow_pos g.fb
  unfold Fmt.units
  generalize 2 ^ g.fb = b at *
  obtain hm | ⟨r, rfl, hr⟩ | rfl : m < b ∨ (∃ r, m = b + r ∧ r < b) ∨ m = b * 2 := by
    rcases lt_or_ge m b with h | h
    · exact .inl h
    · rcases hhigh.lt_or_eq with h' | h'
      · exact .inr (.inl ⟨m - b, by omega, by omega⟩)
      · exact .inr (.inr h')
  · obtain rfl : j = 0 := by omega
    simp [Nat.div_eq_of_lt hm, Nat.mod_eq_of_lt hm]
  · have hdec : j * b + (b + r) = r + b * (j + 1) := by ring
    rw [hdec, Nat.add_mul_div_left _ _ hpos, Nat.add_mul_mod_self_left, Nat.div_eq_of_lt hr, Nat.mod_eq_of_lt hr]
    simp
  · have hdec : j * b + b * 2 = 0 + b * (j + 2) := by ring
    rw [hdec, Nat.add_mul_div_left _ _ hpos, Nat.add_mul_mod_self_left, Nat.zero_div, Nat.zero_mod]
    simp only [Nat.zero_add, Nat.add_zero, Nat.add_eq_zero_iff, OfNat.ofNat_ne_zero, and_false, if_false, Nat.add_succ_sub_one, pow_succ]
    ring

namespace Fmt.Regular
variable {g : Fmt} (hg : g.Regular)
include hg

/-- The largest finite pattern is the largest significand in the top binade. -/
theorem largest_eq : g.largest = g.steps * 2 ^ g.fb + g.maxM := by
  have htop : (g.emax + g.bias).toNat = g.steps + 1 := by have := hg.emax_eq; omega
  have hle := hg.le_maxM
  rw [Fmt.largest, htop, Nat.succ_mul]
  omega

/-- The largest finite pattern lies below the binade after the top one. -/
theorem largest_lt : g.largest < (g.steps + 2) * 2 ^ g.fb := by
  have hlt := hg.maxM_lt
  rw [hg.largest_eq]
  linarith

theorem lt_of_le_largest {p : Nat} (hp : p ≤ g.largest) : p < 2 ^ (g.eb + g.fb) :=
  calc p < (g.steps + 2) * 2 ^ g.fb := hp.trans_lt hg.largest_lt
    _ ≤ 2 ^ g.eb * 2 ^ g.fb := Nat.mul_le_mul_right _ hg.steps_lt
    _ = 2 ^ (g.eb + g.fb) := (pow_add ..).symm

theorem expo_of_le_largest {p : Nat} (hp : p ≤ g.largest) : g.expo p = p / 2 ^ g.fb := by
  refine Nat.mod_eq_of_lt (Nat.div_lt_of_lt_mul ?_)
  rw [← pow_add, Nat.add_comm]
  exact hg.lt_of_le_largest hp

theorem not_special_of_le_largest {p : Nat} (hp : p ≤ g.largest) : ¬ g.special p := by
  rintro ⟨he, hk⟩
  rw [hg.expo_of_le_largest hp] at he
  have hsplit := Nat.div_add_mod p (2 ^ g.fb)
  have hlt : p / 2 ^ g.fb < g.steps + 2 := Nat.div_lt_of_lt_mul (by rw [Nat.mul_comm]; exact hp.trans_lt hg.largest_lt)
  have hsteps := hg.steps_lt
  obtain hk | ⟨hk, hf⟩ := hk
  · have := hg.no_inf hk
    omega
  · have hmax := hg.no_nan hk
    have htop : p / 2 ^ g.fb = g.steps + 1 := by omega
    rw [hg.largest_eq] at hp
    rw [Fmt.frac] at hf
    rw [htop, hf, Nat.mul_comm, Nat.succ_mul] at hsplit
    omega

/-- 07 R173: the value of a finite pattern without a sign, as a quotient, counts its units. -/
theorem value_eq {p : Nat} (hp : p ≤ g.largest) :
    ∃ a b, g.value p = .fin false a b ∧ 0 < b ∧ a * g.perOne = g.units p * b := by
  have hneg : g.negative p = false := by
    simp [Fmt.negative, Nat.div_eq_of_lt (hg.lt_of_le_largest hp)]
  have hbias := hg.bias_pos
  have hpow : (pow2 (g.place p)).1 * 2 ^ (g.bias + g.fb - 1) = (pow2 (g.place p)).2 * 2 ^ (g.expo p - 1) :=
    pow2_mul_eq (by unfold Fmt.place; omega)
  refine ⟨_, _, by rw [Fmt.value_of_not_special (hg.not_special_of_le_largest hp), hneg], pow2_snd_pos _, ?_⟩
  have hunits : g.units p = g.sig p * 2 ^ (g.expo p - 1) := by rw [Fmt.units, Fmt.sig, hg.expo_of_le_largest hp, Fmt.frac]
  rw [Fmt.perOne, mul_assoc, hpow, hunits]
  ring

end Fmt.Regular

end Sys2Proof.Machine
end

