-- ==== Sys2Proof/Proofs/FloatRounding.lean ====
section
/-! SUPPORT. Rounding a quotient to a format (07 R179): the binade and significand it takes, and the two patterns around it. -/

namespace Sys2Proof.Machine

/-! ## The parts of a rounding -/

/-- A remainder of zero is never rounded up. -/
theorem roundsUp_zero (rm m den : Nat) (neg : Bool) : roundsUp rm neg m 0 den = false := by
  unfold roundsUp
  split <;> simp

namespace Fmt
variable (g : Fmt) (n d : Nat)

/-- The exponent at which a quotient is rounded: its own, or the nearest that the format has. -/
def exponent : Int := min g.emax (max (1 - g.bias) (ilog2 n d))

/-- The binade of that exponent, counted from the lowest. -/
def binade : Nat := (g.exponent n d - (1 - g.bias)).toNat

/-- The numerator of a quotient over the last place of its binade. -/
def num : Nat := n * (pow2 (g.exponent n d - g.fb)).2

/-- The denominator of a quotient over the last place of its binade. -/
def den : Nat := d * (pow2 (g.exponent n d - g.fb)).1

/-- The significand, cut to an integer, of a quotient in its binade. -/
def cut : Nat := g.num n d / g.den n d

/-- What rounding adds to the significand of a quotient. -/
def bump (rm : Nat) (neg : Bool) : Nat := if roundsUp rm neg (g.cut n d) (g.num n d % g.den n d) (g.den n d) then 1 else 0

/-- The pattern of a significand at an exponent. -/
def assemble (e : Int) (m : Nat) : Nat := if m < 2 ^ g.fb then m else (e - (1 - g.bias) + 1).toNat * 2 ^ g.fb + (m - 2 ^ g.fb)

variable {n}

/-- 07 R179 by its parts. -/
theorem roundFin_of_pos (hn : 0 < n) (rm : Nat) (sat neg : Bool) :
    g.roundFin rm sat neg n d =
      if g.cut n d ≥ g.maxM + 1 && g.exponent n d = g.emax then
        if overflows rm neg then g.over neg sat else signBit g neg + g.largest
      else if g.cut n d + g.bump n d rm neg ≥ g.maxM + 1 && g.exponent n d = g.emax then g.over neg sat
      else signBit g neg + g.assemble (g.exponent n d) (g.cut n d + g.bump n d rm neg) := by
  have hbump : g.cut n d + g.bump n d rm neg =
      if roundsUp rm neg (g.cut n d) (g.num n d % g.den n d) (g.den n d) then g.cut n d + 1 else g.cut n d := by
    unfold bump
    split <;> rfl
  rw [hbump]
  exact if_neg hn.ne'

theorem bump_le_one (rm : Nat) (neg : Bool) : g.bump n d rm neg ≤ 1 := by
  unfold bump
  split <;> decide

/-- Rounding toward zero adds nothing. -/
theorem bump_toward_zero (neg : Bool) : g.bump n d 1 neg = 0 := rfl

/-- A quotient that leaves no remainder is not rounded up. -/
theorem bump_of_no_remainder (h : g.num n d % g.den n d = 0) (rm : Nat) (neg : Bool) : g.bump n d rm neg = 0 := by
  rw [bump, h, roundsUp_zero, if_neg Bool.false_ne_true]

theorem assemble_eq {j m : Nat} (hlow : j = 0 ∨ 2 ^ g.fb ≤ m) : g.assemble (1 - g.bias + j) m = j * 2 ^ g.fb + m := by
  unfold assemble
  split
  next h =>
    obtain rfl : j = 0 := by omega
    simp
  next h =>
    have htop : (1 - (g.bias : Int) + j - (1 - g.bias) + 1).toNat = j + 1 := by omega
    rw [htop, Nat.succ_mul]
    omega

end Fmt

namespace Fmt.Regular
variable {g : Fmt} (hg : g.Regular)
include hg

/-! ## The binade and the significand -/

theorem exponent_eq (n d : Nat) : g.exponent n d = 1 - g.bias + g.binade n d := by
  have := hg.emax_eq
  unfold Fmt.binade Fmt.exponent
  omega

theorem binade_le_steps (n d : Nat) : g.binade n d ≤ g.steps := by
  have := hg.emax_eq
  unfold Fmt.binade Fmt.exponent
  omega

theorem exponent_eq_emax (n d : Nat) : g.exponent n d = g.emax ↔ g.binade n d = g.steps := by
  have he := hg.exponent_eq n d
  have hemax := hg.emax_eq
  omega

/-- The quotient that R179 cuts is that of the units by those of the binade's last place, whatever the sign of its exponent. -/
theorem num_mul_eq (n d : Nat) : g.num n d * (d * 2 ^ g.binade n d) = n * g.perOne * g.den n d := by
  have he := hg.exponent_eq n d
  have hbias := hg.bias_pos
  have hpow := pow2_mul_eq (e := g.exponent n d - g.fb) (c := g.bias + g.fb - 1) (k := g.binade n d) (by omega)
  calc g.num n d * (d * 2 ^ g.binade n d) = n * d * ((pow2 (g.exponent n d - g.fb)).2 * 2 ^ g.binade n d) := by rw [Fmt.num]; ring
    _ = n * d * ((pow2 (g.exponent n d - g.fb)).1 * 2 ^ (g.bias + g.fb - 1)) := by rw [hpow]
    _ = n * g.perOne * g.den n d := by rw [Fmt.perOne, Fmt.den]; ring

variable {n d : Nat}

theorem cut_eq (hd : 0 < d) : g.cut n d = n * g.perOne / (d * 2 ^ g.binade n d) := by
  have hden : 0 < g.den n d := Nat.mul_pos hd (pow2_fst_pos _)
  have hunit : 0 < d * 2 ^ g.binade n d := Nat.mul_pos hd (Nat.two_pow_pos _)
  rw [Fmt.cut, ← Nat.mul_div_mul_right _ _ hunit, hg.num_mul_eq, Nat.mul_comm (g.den n d), Nat.mul_div_mul_right _ _ hden]

/-- The significand stands for no more than the quotient. -/
theorem cut_mul_le (hd : 0 < d) : g.cut n d * 2 ^ g.binade n d * d ≤ n * g.perOne := by
  have h := Nat.div_mul_le_self (n * g.perOne) (d * 2 ^ g.binade n d)
  rw [← hg.cut_eq hd] at h
  linarith

/-- The next significand stands for more. -/
theorem lt_cut_succ_mul (hd : 0 < d) : n * g.perOne < (g.cut n d + 1) * 2 ^ g.binade n d * d := by
  have hunit : 0 < d * 2 ^ g.binade n d := Nat.mul_pos hd (Nat.two_pow_pos _)
  have h := Nat.lt_mul_div_succ (n * g.perOne) hunit
  rw [← hg.cut_eq hd] at h
  linarith

/-- Only the lowest binade holds significands below 2^fb. -/
theorem le_cut (hn : 0 < n) (hd : 0 < d) : g.binade n d = 0 ∨ 2 ^ g.fb ≤ g.cut n d := by
  by_cases hj : g.binade n d = 0
  · exact .inl hj
  have he := hg.exponent_eq n d
  have hbias := hg.bias_pos
  have hle : d * 2 ^ (g.fb + g.binade n d) ≤ n * g.perOne := le_of_le_ilog2 hn (by unfold Fmt.exponent at he; omega)
  rw [hg.cut_eq hd]
  refine .inr ((Nat.le_div_iff_mul_le (Nat.mul_pos hd (Nat.two_pow_pos _))).mpr (le_of_eq_of_le ?_ hle))
  rw [pow_add]
  ring

/-- Only the top binade takes quotients beyond its significands. -/
theorem cut_lt (hd : 0 < d) : g.binade n d = g.steps ∨ g.cut n d < 2 ^ g.fb * 2 := by
  by_cases hj : g.binade n d = g.steps
  · exact .inl hj
  have he := hg.exponent_eq n d
  have hemax := hg.emax_eq
  have hbias := hg.bias_pos
  have hlt : n * g.perOne < d * 2 ^ (g.fb + 1 + g.binade n d) := lt_of_ilog2_lt hd (by unfold Fmt.exponent at he; omega)
  rw [hg.cut_eq hd]
  refine .inr (Nat.div_lt_of_lt_mul (hlt.trans_eq ?_))
  rw [pow_add, pow_succ]
  ring

/-- A quotient that its significand stands for exactly is not rounded up. -/
theorem bump_of_exact (hd : 0 < d) (h : g.cut n d * 2 ^ g.binade n d * d = n * g.perOne) (rm : Nat) (neg : Bool) :
    g.bump n d rm neg = 0 := by
  have hnum : g.num n d = g.cut n d * g.den n d := by
    refine Nat.eq_of_mul_eq_mul_right (Nat.mul_pos hd (Nat.two_pow_pos (g.binade n d))) ?_
    rw [hg.num_mul_eq, ← h]
    ring
  exact g.bump_of_no_remainder d (by rw [hnum, Nat.mul_mod_left]) rm neg

/-- 07 R179: a quotient beyond the top binade overflows or is clamped; any other takes the pattern of its significand, or the next. -/
theorem roundFin_eq (hn : 0 < n) (hd : 0 < d) (rm : Nat) (sat neg : Bool) :
    g.roundFin rm sat neg n d =
      if g.maxM < g.cut n d ∧ g.binade n d = g.steps then
        if overflows rm neg then g.over neg sat else signBit g neg + g.largest
      else if g.maxM < g.cut n d + g.bump n d rm neg ∧ g.binade n d = g.steps then g.over neg sat
      else signBit g neg + (g.binade n d * 2 ^ g.fb + (g.cut n d + g.bump n d rm neg)) := by
  have hlow : g.binade n d = 0 ∨ 2 ^ g.fb ≤ g.cut n d + g.bump n d rm neg := (hg.le_cut hn hd).imp_right (Nat.le_add_right_of_le ·)
  rw [g.roundFin_of_pos d hn, ← g.assemble_eq hlow, ← hg.exponent_eq]
  simp only [Bool.and_eq_true, decide_eq_true_eq, hg.exponent_eq_emax, ge_iff_le, Nat.succ_le_iff]

/-! ## Rounding toward zero and the next pattern -/

/-- The pattern below a quotient: the largest where the quotient lies beyond the top binade, else that of its significand. -/
theorem roundFin_toward_zero (hn : 0 < n) (hd : 0 < d) :
    g.roundFin 1 false false n d =
      if g.maxM < g.cut n d ∧ g.binade n d = g.steps then g.largest else g.binade n d * 2 ^ g.fb + g.cut n d := by
  rw [hg.roundFin_eq hn hd, g.bump_toward_zero, Nat.add_zero]
  simp only [overflows, signBit, Bool.false_eq_true, if_false, Nat.zero_add]
  split <;> rfl

/-- The patterns of a significand within the format are finite. -/
theorem pattern_le_largest {j m : Nat} (hj : j ≤ g.steps) (hm : m ≤ 2 ^ g.fb * 2) (hin : ¬ (g.maxM < m ∧ j = g.steps)) :
    j * 2 ^ g.fb + m ≤ g.largest := by
  have hmax := hg.le_maxM
  rw [hg.largest_eq]
  rcases hj.lt_or_eq with hlt | rfl
  · have hstep : (j + 1) * 2 ^ g.fb ≤ g.steps * 2 ^ g.fb := Nat.mul_le_mul_right _ hlt
    rw [Nat.succ_mul] at hstep
    omega
  · omega

/-- The significand of a quotient within the format is one of its binade. -/
theorem cut_lt_of_in_range (hd : 0 < d) (hin : ¬ (g.maxM < g.cut n d ∧ g.binade n d = g.steps)) : g.cut n d < 2 ^ g.fb * 2 := by
  have hmax := hg.maxM_lt
  rcases hg.cut_lt (n := n) hd with htop | hlt
  · exact (not_lt.mp fun h => hin ⟨h, htop⟩).trans_lt hmax
  · exact hlt

theorem roundFin_toward_zero_le_largest (hn : 0 < n) (hd : 0 < d) : g.roundFin 1 false false n d ≤ g.largest := by
  rw [hg.roundFin_toward_zero hn hd]
  split
  · exact le_rfl
  next hin => exact hg.pattern_le_largest (hg.binade_le_steps n d) (hg.cut_lt_of_in_range hd hin).le hin

/-- The units of the largest finite pattern. -/
theorem units_largest : g.units g.largest = g.maxM * 2 ^ g.steps := by
  rw [hg.largest_eq, g.units_pattern (.inr hg.le_maxM) hg.maxM_lt.le]

/-- The units of the significand of a quotient within the format. -/
theorem units_cut (hn : 0 < n) (hd : 0 < d) (hin : ¬ (g.maxM < g.cut n d ∧ g.binade n d = g.steps)) :
    g.units (g.binade n d * 2 ^ g.fb + g.cut n d) = g.cut n d * 2 ^ g.binade n d :=
  g.units_pattern (hg.le_cut hn hd) (hg.cut_lt_of_in_range hd hin).le

/-- A quotient beyond the top binade lies beyond the largest finite value. -/
theorem lt_of_not_in_range (hd : 0 < d) (hout : g.maxM < g.cut n d ∧ g.binade n d = g.steps) :
    g.units g.largest * d < n * g.perOne := by
  obtain ⟨hcut, htop⟩ := hout
  refine lt_of_lt_of_le ?_ (hg.cut_mul_le (n := n) hd)
  rw [hg.units_largest, htop]
  exact Nat.mul_lt_mul_of_pos_right (Nat.mul_lt_mul_of_pos_right hcut (Nat.two_pow_pos _)) hd

/-- Rounding toward zero never goes above the quotient. -/
theorem units_toward_zero_le (hn : 0 < n) (hd : 0 < d) : g.units (g.roundFin 1 false false n d) * d ≤ n * g.perOne := by
  rw [hg.roundFin_toward_zero hn hd]
  split
  next hout => exact (hg.lt_of_not_in_range hd hout).le
  next hin =>
    rw [hg.units_cut hn hd hin]
    exact hg.cut_mul_le hd

/-- A result below the largest finite pattern is that of the significand. -/
theorem in_range_of_lt_largest (hn : 0 < n) (hd : 0 < d) (hlt : g.roundFin 1 false false n d < g.largest) :
    ¬ (g.maxM < g.cut n d ∧ g.binade n d = g.steps) ∧ g.roundFin 1 false false n d = g.binade n d * 2 ^ g.fb + g.cut n d := by
  rw [hg.roundFin_toward_zero hn hd] at hlt ⊢
  split at hlt
  · exact absurd hlt (lt_irrefl _)
  next hin => exact ⟨hin, if_neg hin⟩

/-- The next pattern is above the quotient. -/
theorem lt_units_succ (hn : 0 < n) (hd : 0 < d) (hlt : g.roundFin 1 false false n d < g.largest) :
    n * g.perOne < g.units (g.roundFin 1 false false n d + 1) * d := by
  obtain ⟨hin, hp⟩ := hg.in_range_of_lt_largest hn hd hlt
  have hnext := g.units_pattern ((hg.le_cut hn hd).imp_right Nat.le_succ_of_le) (Nat.succ_le_of_lt (hg.cut_lt_of_in_range hd hin))
  rw [hp, Nat.add_assoc, hnext]
  exact hg.lt_cut_succ_mul hd

/-- Below the largest finite pattern every rounding code takes the pattern below the quotient or the next. -/
theorem roundFin_of_lt_largest (hn : 0 < n) (hd : 0 < d) (hlt : g.roundFin 1 false false n d < g.largest) (rm : Nat) (sat : Bool) :
    g.roundFin rm sat false n d = g.roundFin 1 false false n d + g.bump n d rm false := by
  obtain ⟨hin, hp⟩ := hg.in_range_of_lt_largest hn hd hlt
  have hbump := g.bump_le_one (n := n) d rm false
  have hin' : ¬ (g.maxM < g.cut n d + g.bump n d rm false ∧ g.binade n d = g.steps) := by
    rintro ⟨hcut, htop⟩
    rw [hp, hg.largest_eq, htop] at hlt
    omega
  rw [hp, hg.roundFin_eq hn hd, if_neg hin, if_neg hin', signBit, if_neg Bool.false_ne_true]
  omega

/-- A quotient that a pattern has exactly rounds to it under every code. -/
theorem roundFin_of_exact (hn : 0 < n) (hd : 0 < d) (hexact : g.units (g.roundFin 1 false false n d) * d = n * g.perOne) (rm : Nat)
    (sat : Bool) : g.roundFin rm sat false n d = g.roundFin 1 false false n d := by
  rw [hg.roundFin_toward_zero hn hd] at hexact ⊢
  split at hexact
  next hout => exact absurd hexact (hg.lt_of_not_in_range hd hout).ne
  next hin =>
    rw [hg.units_cut hn hd hin] at hexact
    rw [hg.roundFin_eq hn hd, hg.bump_of_exact hd hexact, Nat.add_zero, if_neg hin, if_neg hin, if_neg hin, signBit,
      if_neg Bool.false_ne_true, Nat.zero_add]

end Fmt.Regular

/-! ## Quotients and values -/

theorem Fmt.perOne_pos (g : Fmt) : 0 < g.perOne := Nat.two_pow_pos _

/-- A value of so many units compares with a quotient as the units do. -/
theorem compare_iff_units {a b u P n d : Nat} (hb : 0 < b) (hP : 0 < P) (hval : a * P = u * b) :
    (a * d ≤ n * b ↔ u * d ≤ n * P) ∧ (n * b ≤ a * d ↔ n * P ≤ u * d) := by
  have hl : a * d * P = u * d * b := by linear_combination d * hval
  have hr : n * b * P = n * P * b := by ring
  constructor
  · rw [← Nat.mul_le_mul_right_iff hP, hl, hr, Nat.mul_le_mul_right_iff hb]
  · rw [← Nat.mul_le_mul_right_iff hP, hl, hr, Nat.mul_le_mul_right_iff hb]

/-- Settles O15: the toward-zero result has at most the quotient's units, its successor more, a code adds at most one to the
significand, and adds nothing where no remainder is left. -/
theorem floatRounding : Obligations.FloatRounding := by
  intro ty n d hty hn hd g p
  have hg : g.Regular := regular_fmtOf hty
  have hle : p ≤ g.largest := hg.roundFin_toward_zero_le_largest hn hd
  have hunder : g.units p * d ≤ n * g.perOne := hg.units_toward_zero_le hn hd
  obtain ⟨a, b, hval, hb, hunits⟩ := hg.value_eq hle
  have hbelow : a * d ≤ n * b := (compare_iff_units hb g.perOne_pos hunits).1.mpr hunder
  refine ⟨hle, ⟨a, b, hval, hb, hbelow⟩, fun _ => ?_, fun hlt => ?_, fun rm sat _ hlt => ?_, fun rm sat _ hexact => ?_⟩
  · rw [or_iff_not_imp_left, not_not]
    rintro ⟨m, e, hval', -, hle'⟩
    obtain ⟨-, rfl, rfl⟩ := FVal.fin.inj (hval.symm.trans hval')
    exact ⟨a, b, hval, le_antisymm hle' hbelow⟩
  · obtain ⟨a', b', hval', hb', hunits'⟩ := hg.value_eq (Nat.succ_le_of_lt hlt)
    exact ⟨a', b', hval', hb', (compare_iff_units hb' g.perOne_pos hunits').2.mpr (hg.lt_units_succ hn hd hlt).le⟩
  · have hbump := g.bump_le_one (n := n) d rm false
    have hround : g.roundFin rm sat false n d = p + g.bump n d rm false := hg.roundFin_of_lt_largest hn hd hlt rm sat
    omega
  · obtain ⟨m, e, hval', heq⟩ := hexact
    obtain ⟨-, rfl, rfl⟩ := FVal.fin.inj (hval.symm.trans hval')
    exact hg.roundFin_of_exact hn hd (le_antisymm hunder ((compare_iff_units hb g.perOne_pos hunits).2.mp heq.le)) rm sat

end Sys2Proof.Machine
end

