-- ==== Sys2Proof/Proofs/LaneFloats.lean ====
section
/-! SUPPORT. Lane float instructions by element (07 R184 to R189): each row's function of its sources' elements, and the classes. -/

namespace Sys2Proof.Machine
open Claims

/-! ## The shapes of lane float instructions -/

section
variable {i : Instr} {s : State} {f : LaneWord}

/-- A row of two sources whose elements a function of patterns gives. -/
theorem laneEach2_float {g fn : Nat → Nat → Nat}
    (hi : exec i s = .next (s.lane2 f f.ty f.ty f.ty fun a b => eachElem f.ty fun e => g (elem f.ty a e) (elem f.ty b e)))
    (h : ∀ p q, g p q % 2 ^ tyWidth f.ty = fn p q) : LaneEach2 i s f fn :=
  have hc := laneComputes_of hi
  ⟨_, fun _ => ⟨elements_eachElem fun _ => h .., rfl⟩, hc⟩

/-- The same of one source. -/
theorem laneEach1_float {g fn : Nat → Nat} (hi : exec i s = .next (s.lane1 f f.ty f.ty fun a => eachElem f.ty fun e => g (elem f.ty a e)))
    (h : ∀ p, g p % 2 ^ tyWidth f.ty = fn p) : LaneEach1 i s f fn :=
  have hc := laneComputes_of hi
  ⟨calc1 f f.ty (fun a => eachElem f.ty fun e => g (elem f.ty a e)) (own s), fun _ => ⟨elements_eachElem fun _ => h .., rfl⟩, hc⟩

/-- The same of three sources. -/
theorem laneEach3_float {g fn : Nat → Nat → Nat → Nat}
    (hi : exec i s = .next (s.lane3 f f.ty f.ty f.ty f.ty fun a b c => eachElem f.ty fun e =>
      g (elem f.ty a e) (elem f.ty b e) (elem f.ty c e)))
    (h : ∀ p q r, g p q r % 2 ^ tyWidth f.ty = fn p q r) : LaneEach3 i s f fn :=
  have hc := laneComputes_of hi
  ⟨_, fun _ => ⟨elements_eachElem fun _ => h .., rfl⟩, hc⟩

end

/-! ## Order and conditions (07 R186, R187) -/

theorem FVal.isNan_eq (v : FVal) : v.isNan = decide (v = .nan) := by
  cases v <;> rfl

/-- 07 R186: a NaN gives the other operand, two of them the default NaN; else B where B lies on the side asked for, and A otherwise. -/
theorem fMinMax_eq (g : Fmt) (greater : Bool) (p q : Nat) :
    fMinMax g greater p q = if g.value p = .nan then (if g.value q = .nan then g.nan else q) else if g.value q = .nan then p
      else if cond greater (fBelow g p q) (fBelow g q p) then q else p := by
  unfold fMinMax
  rw [FVal.isNan_eq, FVal.isNan_eq]
  by_cases hp : g.value p = .nan <;> by_cases hq : g.value q = .nan <;> cases greater <;> simp [hp, hq]

/-- 07 R187: the condition that a comparison tests of two values. -/
def floatCond (cond : Nat) (p q : FVal) : Bool :=
  let ordered := p ≠ .nan ∧ q ≠ .nan
  match cond with
  | 0 => ordered ∧ ¬(p.lt q) ∧ ¬(q.lt p)
  | 1 => ¬ordered ∨ p.lt q ∨ q.lt p
  | 2 => ordered ∧ p.lt q
  | 3 => ordered ∧ ¬(q.lt p)
  | 4 => ordered ∧ q.lt p
  | 5 => ordered ∧ ¬(p.lt q)
  | 6 => ¬ordered
  | _ => ordered

theorem fCond_eq (g : Fmt) (cond a b : Nat) : fCond g cond a b = floatCond cond (g.value a) (g.value b) := by
  unfold fCond floatCond FVal.eqv
  generalize g.value a = p
  generalize g.value b = q
  simp only [FVal.isNan_eq]
  match cond with
  | 0 | 1 | 2 | 3 | 4 | 5 | 6 | _ + 7 =>
    by_cases hp : p = .nan <;> by_cases hq : q = .nan <;> simp [hp, hq]

/-! ## Rounding to integral values (07 R189) -/

/-- 07 R189: the magnitude of the integer that a quotient rounds to. -/
theorem natAbs_roundInt (rm : Nat) (neg : Bool) (n d : Nat) :
    (roundInt rm neg n d).natAbs = if roundsUp rm neg (n / d) (n % d) d then n / d + 1 else n / d := by
  unfold roundInt
  cases neg
  · exact Int.natAbs_natCast _
  · exact (Int.natAbs_neg _).trans (Int.natAbs_natCast _)

theorem fRoundInt_spec (g : Fmt) (rm p : Nat) :
    (g.value p = .nan → fRoundInt g rm p = g.nan) ∧ (∀ n, g.value p = .inf n → fRoundInt g rm p = p) ∧
      (∀ sg n d, g.value p = .fin sg n d → ∃ k : Nat, fRoundInt g rm p = g.roundFin 0 false sg k 1 ∧
        (k = n / d ∨ k = n / d + 1) ∧ (n % d = 0 → k = n / d) ∧ (rm = 1 → k = n / d)) := by
  unfold fRoundInt
  refine ⟨fun h => by rw [h], fun n h => by rw [h], fun sg n d h => ?_⟩
  rw [h]
  refine ⟨_, rfl, ?_⟩
  rw [natAbs_roundInt]
  refine ⟨(ite_eq_or_eq ..).symm, fun hr => ?_, fun hrm => ?_⟩
  · rw [hr, roundsUp_zero, if_neg Bool.false_ne_true]
  · rw [hrm]
    rfl

/-! ## The dot product (07 R185) -/

theorem dot2_eq {ty : BitVec 4} (hty : tyFloat ty = true) (htwo : tyCount ty = 2) (rm : Nat) (sat : Bool) (a b c : Nat) :
    dot2 ty rm sat a b c =
      fp32.round rm sat (FVal.add rm (FVal.add rm (fp32.value c)
        (FVal.mul ((fmtOf ty).value (part 16 a 0)) ((fmtOf ty).value (part 16 b 0))))
        (FVal.mul ((fmtOf ty).value (part 16 a 1)) ((fmtOf ty).value (part 16 b 1)))) := by
  have hall : ∀ ty : BitVec 4, tyFloat ty = true → tyCount ty = 2 → tyWidth ty = 16 := by decide
  simp only [dot2, elem, part, hall ty hty htwo]

/-! ## Classes (07 R188) -/

/-- 07 R188: the class of a finite value, by its sign and magnitude. -/
def finiteClass (neg zero small : Bool) : Nat :=
  if neg then (if zero then 3 else if small then 2 else 1) else (if zero then 4 else if small then 5 else 6)

theorem fClass_of_special {g : Fmt} {x : Nat} (hk : g.kind = 0) (h : g.special x) :
    (g.value x = .inf true ∧ fClass g x = 0) ∨ (g.value x = .inf false ∧ fClass g x = 7) ∨
      (g.value x = .nan ∧ (fClass g x = 8 ∨ fClass g x = 9)) := by
  have hclass : fClass g x = if g.frac x = 0 then (if g.negative x then 0 else 7) else if g.frac x ≥ 2 ^ (g.fb - 1) then 9 else 8 := by
    refine (if_pos h.1).trans ?_
    simp only [Fmt.negative, decide_eq_true_eq]
    rfl
  rw [Fmt.value_of_special h, hclass]
  by_cases hf : g.frac x = 0
  · cases hneg : g.negative x <;> simp [hk, hf]
  · rw [if_neg fun hx => hf hx.2, if_neg hf]
    exact .inr (.inr ⟨rfl, (ite_eq_or_eq ..).symm⟩)

theorem fClass_of_not_special {g : Fmt} {x : Nat} (hk : g.kind = 0) (h : ¬ g.special x) :
    fClass g x = finiteClass (g.negative x) (g.sig x = 0) (g.expo x = 0) := by
  have htop : ¬ g.expo x = 2 ^ g.eb - 1 := fun he => h ⟨he, .inl hk⟩
  refine (if_neg htop).trans ?_
  change (if g.expo x = 0 then (if g.frac x = 0 then _ else _) else _) = _
  unfold finiteClass Fmt.sig Fmt.negative
  by_cases he : g.expo x = 0
  · simp only [he, if_true, decide_eq_true_eq]
    split_ifs <;> rfl
  · simp [he]

/-- 07 R188: a finite value lies below the lowest normal one when its exponent field is zero. -/
theorem Fmt.Regular.small_iff {g : Fmt} (hg : g.Regular) (x : Nat) :
    g.sig x * (pow2 (g.place x)).1 * 2 ^ (g.bias - 1) < (pow2 (g.place x)).2 ↔ g.expo x = 0 := by
  have hbias := hg.bias_pos
  have hpos := pow2_fst_pos (g.place x)
  have hpow : (pow2 (g.place x)).1 * 2 ^ (g.bias + g.fb - 1) = (pow2 (g.place x)).2 * 2 ^ (g.expo x - 1) :=
    pow2_mul_eq (by unfold Fmt.place; omega)
  have hsplit : 2 ^ (g.bias + g.fb - 1) = 2 ^ g.fb * 2 ^ (g.bias - 1) := by
    rw [← pow_add]
    congr 1
    omega
  rw [hsplit] at hpow
  by_cases he : g.expo x = 0
  · refine iff_of_true ?_ he
    rw [he, Nat.zero_sub, pow_zero, Nat.mul_one] at hpow
    rw [Fmt.sig, if_pos he, ← hpow]
    calc g.frac x * (pow2 (g.place x)).1 * 2 ^ (g.bias - 1) < 2 ^ g.fb * (pow2 (g.place x)).1 * 2 ^ (g.bias - 1) := by
          gcongr
          exact Nat.mod_lt _ (Nat.two_pow_pos _)
      _ = (pow2 (g.place x)).1 * (2 ^ g.fb * 2 ^ (g.bias - 1)) := by ring
  · refine iff_of_false (not_lt.mpr ?_) he
    rw [Fmt.sig, if_neg he]
    calc (pow2 (g.place x)).2 ≤ (pow2 (g.place x)).2 * 2 ^ (g.expo x - 1) := Nat.le_mul_of_pos_right _ (Nat.two_pow_pos _)
      _ = 2 ^ g.fb * (pow2 (g.place x)).1 * 2 ^ (g.bias - 1) := by rw [← hpow]; ring
      _ ≤ (2 ^ g.fb + g.frac x) * (pow2 (g.place x)).1 * 2 ^ (g.bias - 1) := by gcongr; omega

/-- 07 R188: the class of a pattern by its value, in a format with infinities. -/
theorem fClass_spec {g : Fmt} (hg : g.Regular) (hk : g.kind = 0) (p : Nat) :
    (g.value p = .nan → fClass g p = 8 ∨ fClass g p = 9) ∧ (g.value p = .inf true → fClass g p = 0) ∧
      (g.value p = .inf false → fClass g p = 7) ∧
      (∀ sg n d, g.value p = .fin sg n d → fClass g p = finiteClass sg (n = 0) (n * 2 ^ (g.bias - 1) < d)) := by
  by_cases h : g.special p
  · obtain ⟨hv, hc⟩ | ⟨hv, hc⟩ | ⟨hv, hc⟩ := fClass_of_special hk h <;> simp [hv, hc]
  · have hv := Fmt.value_of_not_special h
    refine ⟨fun h' => ?_, fun h' => ?_, fun h' => ?_, fun sg n d h' => ?_⟩
    · cases hv.symm.trans h'
    · cases hv.symm.trans h'
    · cases hv.symm.trans h'
    · obtain ⟨rfl, rfl, rfl⟩ := FVal.fin.inj (hv.symm.trans h')
      have hzero : g.sig p * (pow2 (g.place p)).1 = 0 ↔ g.sig p = 0 := by
        rw [Nat.mul_eq_zero, or_iff_left (pow2_fst_pos _).ne']
      rw [fClass_of_not_special hk h]
      simp only [hzero, hg.small_iff]

/-! ## The rows of 07 R184 to R189 -/

/-- Settles O16: every row rounds the exact result of its elements once, and a comparison or a class tests their values. -/
theorem laneFloats : Obligations.LaneFloats := by
  intro s f hty x g rm round ab a b kd with_ cond
  refine ⟨laneEach2_float rfl fun _ _ => rfl, laneEach2_float rfl fun _ _ => rfl, laneEach3_float rfl fun _ _ _ => rfl,
    laneEach2_float rfl fun p q => congrArg (· % _) (fMinMax_eq g false p q),
    laneEach2_float rfl fun p q => congrArg (· % _) (fMinMax_eq g true p q),
    ⟨fRoundInt g rm, laneEach1_float rfl fun _ => rfl, fRoundInt_spec g rm⟩, fun htwo => ?dot,
    laneTests_congr (laneTests_of rfl) fun l => ?cmp, fun hscalar => ⟨fClass g, laneTests_congr (laneTests_of rfl) fun _ => rfl, fun p => ?cls⟩⟩
  case dot => exact laneComputes_congr (laneComputes_of rfl) fun l => Prod.ext (dot2_eq hty htwo ..) rfl
  case cmp =>
    refine Prod.ext ?_ rfl
    simp only [combine, toNat_and_seven, fCond_eq]
    rfl
  case cls =>
    have hk : g.kind = 0 := by rcases hscalar with h | h <;> simp only [g, h] <;> rfl
    obtain ⟨hnan, hneg, hpos, hfin⟩ := fClass_spec (regular_fmtOf hty) hk p
    refine ⟨hnan, hneg, hpos, fun sg n d hv _ => (hfin sg n d hv).trans ?_⟩
    simp only [finiteClass, decide_eq_true_eq]
    rfl

end Sys2Proof.Machine
end

