-- ==== Sys2Proof/Proofs/BlockScales.lean ====
section
/-! SUPPORT. Block scales, codes and unpacked values (07 R176, R194 to R196). -/

namespace Sys2Proof.Machine

/-! ## Denominators -/

/-- A value is a quotient only by a positive number. -/
def FVal.Proper (v : FVal) : Prop := ∀ neg n d, v = .fin neg n d → 0 < d

theorem Fmt.proper_value (g : Fmt) (x : Nat) : (g.value x).Proper := fun _ _ _ h => Fmt.value_fin_den_pos h

theorem FVal.Proper.mul {v w : FVal} (hv : v.Proper) (hw : w.Proper) : (FVal.mul v w).Proper := by
  intro neg n d h
  unfold FVal.mul at h
  split at h
  · cases h
  · cases h
  · cases h
  · split at h <;> cases h
  · split at h <;> cases h
  · obtain ⟨-, -, rfl⟩ := FVal.fin.inj h
    exact Nat.mul_pos (hv _ _ _ rfl) (hw _ _ _ rfl)

theorem e3m5_snd_pos (s : Nat) : 0 < (e3m5 s).2 := by
  unfold e3m5
  split
  · decide
  · split
    · exact Nat.succ_pos 127
    · exact Nat.mul_pos (by decide) (pow2_snd_pos _)

/-! ## The range of a rounding -/

/-- 07 R179: a result is the overflow of its sign, or the sign with a finite magnitude. -/
theorem Fmt.Regular.roundFin_cases {g : Fmt} (hg : g.Regular) {d : Nat} (hd : 0 < d) (rm : Nat) (sat neg : Bool) (n : Nat) :
    g.roundFin rm sat neg n d = g.over neg sat ∨ ∃ q ≤ g.largest, g.roundFin rm sat neg n d = signBit g neg + q := by
  rcases Nat.eq_zero_or_pos n with rfl | hn
  · exact .inr ⟨0, Nat.zero_le _, rfl⟩
  rw [hg.roundFin_eq hn hd]
  split
  · split
    · exact .inl rfl
    · exact .inr ⟨_, le_rfl, rfl⟩
  next hin =>
    split
    · exact .inl rfl
    next hin' =>
      have hbump := g.bump_le_one (n := n) d rm neg
      have hcut := hg.cut_lt_of_in_range hd hin
      exact .inr ⟨_, hg.pattern_le_largest (hg.binade_le_steps n d) (by omega) hin', rfl⟩

theorem regular_fp32 : fp32.Regular := regular_fmtOf (ty := 4#4) rfl

/-- An FP32 result has 32 bits. -/
theorem fp32_round_lt {v : FVal} (hv : v.Proper) (rm : Nat) (sat : Bool) : fp32.round rm sat v < 2 ^ 32 := by
  have hover : ∀ neg sat, fp32.over neg sat < 2 ^ 32 := by decide
  have hfin : ∀ neg, signBit fp32 neg + fp32.largest < 2 ^ 32 := by decide
  cases v with
  | nan => exact (by decide : fp32.nan < 2 ^ 32)
  | inf neg => exact hover neg sat
  | fin neg n d =>
    obtain h | ⟨q, hq, h⟩ := regular_fp32.roundFin_cases (hv neg n d rfl) rm sat neg n
    · exact h.trans_lt (hover neg sat)
    · exact h.trans_lt ((Nat.add_le_add_left hq _).trans_lt (hfin neg))

/-- An unpacked value has 32 bits. -/
theorem blockValue_lt (rm code s m : Nat) : blockValue rm code s m < 2 ^ 32 := by
  have hcode := (fmtOf 10#4).proper_value code
  have hm := fp32.proper_value m
  unfold blockValue
  split
  · exact Nat.two_pow_pos 32
  · dsimp only
    split
    next h => exact fp32_round_lt (hcode.mul (h ▸ hm)) rm false
    next h =>
      refine fp32_round_lt ((hcode.mul fun _ _ _ hq => ?_).mul hm) rm false
      obtain ⟨-, -, rfl⟩ := FVal.fin.inj hq
      exact e3m5_snd_pos s

/-! ## The greatest magnitude of a block (07 R195) -/

/-- One step of the search for the greatest magnitude: an infinity ends it, a NaN is passed over. -/
def amaxStep (acc : Option (Nat × Nat)) (y : FVal) : Option (Nat × Nat) :=
  match acc, y with
  | none, _ => none
  | some _, .inf _ => none
  | some a, .nan => some a
  | some a, .fin _ n d => if n * a.2 > a.1 * d then some (n, d) else some a

theorem amaxOf_eq (ys : List FVal) : amaxOf ys = ys.foldl amaxStep (some (0, 1)) := rfl

/-- Order of quotients of naturals is transitive. -/
theorem quot_le_trans {a b c d p q : Nat} (hb : 0 < b) (h1 : p * b ≤ a * q) (h2 : a * d ≤ c * b) : p * d ≤ c * q := by
  refine le_of_mul_le_mul_right (a := b) ?_ hb
  calc p * d * b = p * b * d := by ring
    _ ≤ a * q * d := by gcongr
    _ = a * d * q := by ring
    _ ≤ c * b * q := by gcongr
    _ = c * q * b := by ring

/-- The search ends at the greatest of its start and the values seen. -/
theorem foldl_amaxStep (ys : List FVal) (hproper : ∀ y ∈ ys, y.Proper) (hfin : ∀ y ∈ ys, ∀ neg, y ≠ .inf neg) (a : Nat × Nat) (ha : 0 < a.2) :
    ∃ b : Nat × Nat, ys.foldl amaxStep (some a) = some b ∧ 0 < b.2 ∧ a.1 * b.2 ≤ b.1 * a.2 ∧
      (∀ neg p q, .fin neg p q ∈ ys → p * b.2 ≤ b.1 * q) ∧ (b = a ∨ ∃ neg, .fin neg b.1 b.2 ∈ ys) := by
  induction ys generalizing a with
  | nil => exact ⟨a, rfl, ha, le_rfl, by simp, .inl rfl⟩
  | cons y ys ih =>
    rw [List.forall_mem_cons] at hproper hfin
    have hstep : ∃ a' : Nat × Nat, amaxStep (some a) y = some a' ∧ 0 < a'.2 ∧ a.1 * a'.2 ≤ a'.1 * a.2 ∧
        (∀ neg p q, y = .fin neg p q → p * a'.2 ≤ a'.1 * q) ∧ (a' = a ∨ ∃ neg, y = .fin neg a'.1 a'.2) := by
      cases y with
      | nan => exact ⟨a, rfl, ha, le_rfl, by simp, .inl rfl⟩
      | inf neg => exact absurd rfl (hfin.1 neg)
      | fin neg n d =>
        by_cases hgt : n * a.2 > a.1 * d
        · refine ⟨(n, d), if_pos hgt, hproper.1 neg n d rfl, hgt.le, fun _ p q h => ?_, .inr ⟨neg, rfl⟩⟩
          obtain ⟨-, rfl, rfl⟩ := FVal.fin.inj h
          exact le_rfl
        · refine ⟨a, if_neg hgt, ha, le_rfl, fun _ p q h => ?_, .inl rfl⟩
          obtain ⟨-, rfl, rfl⟩ := FVal.fin.inj h
          exact not_lt.mp hgt
    obtain ⟨a', heq, ha', hle', hy, hfrom'⟩ := hstep
    obtain ⟨b, hb, hpos, hle, hys, hfrom⟩ := ih hproper.2 hfin.2 a' ha'
    refine ⟨b, by rw [List.foldl_cons, heq, hb], hpos, quot_le_trans ha' hle' hle, fun neg p q hmem => ?_, ?_⟩
    · rcases List.mem_cons.mp hmem with h | h
      · exact quot_le_trans ha' (hy neg p q h.symm) hle
      · exact hys neg p q h
    · rcases hfrom with rfl | ⟨neg, h⟩
      · exact hfrom'.imp_right fun ⟨neg, h⟩ => ⟨neg, h ▸ List.mem_cons_self⟩
      · exact .inr ⟨neg, List.mem_cons_of_mem _ h⟩

/-- 07 R195: without an infinity, the greatest magnitude of a block that is not empty is one of its values, and none is above it. -/
theorem amaxOf_spec {ys : List FVal} (hproper : ∀ y ∈ ys, y.Proper) (hfin : ∀ y ∈ ys, ∀ neg, y ≠ .inf neg)
    (hsome : ∃ y ∈ ys, y.isZero = false ∧ y ≠ .nan) :
    ∃ n d neg, amaxOf ys = some (n, d) ∧ n ≠ 0 ∧ 0 < d ∧ .fin neg n d ∈ ys ∧ ∀ neg p q, .fin neg p q ∈ ys → p * d ≤ n * q := by
  obtain ⟨b, hb, hpos, -, hmax, hfrom⟩ := foldl_amaxStep ys hproper hfin (0, 1) Nat.one_pos
  have hn : b.1 ≠ 0 := by
    obtain ⟨y, hy, hzero, hnan⟩ := hsome
    cases y with
    | nan => exact absurd rfl hnan
    | inf neg => exact absurd rfl (hfin _ hy neg)
    | fin neg p q =>
      intro h0
      have hp : p ≠ 0 := by simpa [FVal.isZero] using hzero
      have hle := hmax neg p q hy
      rw [h0, Nat.zero_mul] at hle
      exact absurd hle (not_le.mpr (Nat.mul_pos (Nat.pos_of_ne_zero hp) hpos))
  obtain rfl | ⟨neg, hmem⟩ := hfrom
  · exact absurd rfl hn
  · exact ⟨b.1, b.2, neg, (amaxOf_eq ys).trans hb, hn, hpos, hmem, hmax⟩

/-! ## The least scale that fits (07 R195) -/

/-- The scale of the rule `max` is searched from 1 up to 0xFE. -/
theorem blockScale_max {ys : List FVal} {n d : Nat} (given : Nat) (h : amaxOf ys = some (n, d)) (hn : n ≠ 0) :
    blockScale 0 ys given = (((List.range 254).find? fun k => e3m5Ge (k + 1) n (6 * d)).map (· + 1)).getD 0xFE := by
  obtain ⟨n, rfl⟩ := Nat.exists_eq_succ_of_ne_zero hn
  unfold blockScale
  simp only [h, List.find?_map, reduceIte, OfNat.zero_ne_ofNat]
  rfl

/-- It is from 1 to 0xFE; below 0xFE it fits the greatest magnitude, and the one before it does not. -/
theorem blockScale_max_spec {ys : List FVal} {n d : Nat} (given : Nat) (h : amaxOf ys = some (n, d)) (hn : n ≠ 0) :
    let sc := blockScale 0 ys given
    0 < sc ∧ sc ≤ 0xFE ∧ (sc < 0xFE → e3m5Ge sc n (6 * d) = true) ∧ (1 < sc → e3m5Ge (sc - 1) n (6 * d) = false) := by
  intro sc
  have hsc : sc = _ := blockScale_max given h hn
  generalize sc = c at hsc
  cases hfind : (List.range 254).find? fun k => e3m5Ge (k + 1) n (6 * d) with
  | none =>
    have hnone := List.find?_range_eq_none.mp hfind
    rw [hfind] at hsc
    subst hsc
    refine ⟨by decide, le_rfl, fun hlt => absurd hlt (lt_irrefl _), fun _ => ?_⟩
    simpa using hnone 252 (by decide)
  | some k =>
    obtain ⟨hk, hmem, hbefore⟩ := List.find?_range_eq_some.mp hfind
    rw [List.mem_range] at hmem
    rw [hfind] at hsc
    obtain rfl : c = k + 1 := hsc
    refine ⟨by omega, by omega, fun _ => hk, fun hlt => ?_⟩
    have hprev := hbefore (k - 1) (by omega)
    rw [Nat.sub_add_cancel (by omega)] at hprev
    simpa using hprev

/-- A scale that fits a magnitude fits every lesser one. -/
theorem e3m5Ge_of_le {s n d p q : Nat} (hd : 0 < d) (hle : p * d ≤ n * q) (h : e3m5Ge s n (6 * d) = true) : e3m5Ge s p (6 * q) = true := by
  unfold e3m5Ge at *
  simp only [ge_iff_le, decide_eq_true_eq] at *
  have hquot := quot_le_trans (p := p * (e3m5 s).2) (q := q) (a := n * (e3m5 s).2) (b := d) (c := 6 * (e3m5 s).1) (d := 1) hd
    (by linear_combination (e3m5 s).2 * hle) (by linear_combination h)
  linarith

end Sys2Proof.Machine
end

