-- ==== Sys2Proof/Proofs/LaneConversions.lean ====
section
/-! SUPPORT. Lane conversions by shape, block packing and unpacking (07 R192, R194, R196). -/

namespace Sys2Proof.Machine
open Claims

/-! ## Conversions by shape (07 R192) -/

section
variable (f : LaneWord) (a d : Nat) {i : Nat}

theorem part_cvtImage_each (h : tyCount f.sub = tyCount f.ty) (hi : i < tyCount f.ty) :
    part (tyWidth f.ty) (cvtImage f a d) i = convert f.sub f.ty (rmOf f) (satOf f) (part (tyWidth f.sub) a i) % 2 ^ tyWidth f.ty := by
  rw [cvtImage, if_pos h]
  exact (elements_eachElem fun _ => rfl).2 i hi

theorem part_cvtImage_insert (hone : tyCount f.sub = 1) (hmany : 1 < tyCount f.ty) (hi : i < tyCount f.ty) :
    part (tyWidth f.ty) (cvtImage f a d) i =
      if i = f.imm.toNat % 8 then convert f.sub f.ty (rmOf f) (satOf f) a % 2 ^ tyWidth f.ty else part (tyWidth f.ty) d i := by
  rw [cvtImage, if_neg (by omega), if_pos hone]
  refine (elements_eachElem (want := fun i => if i = f.imm.toNat % 8 then convert f.sub f.ty (rmOf f) (satOf f) a % 2 ^ tyWidth f.ty
    else part (tyWidth f.ty) d i) fun k => ?_).2 i hi
  rw [apply_ite (· % 2 ^ tyWidth f.ty), elem, Nat.mod_mod]
  rfl

theorem cvtImage_extract (hmany : 1 < tyCount f.sub) (hone : tyCount f.ty = 1) :
    cvtImage f a d = convert f.sub f.ty (rmOf f) (satOf f) (part (tyWidth f.sub) a (f.imm.toNat % 8)) := by
  rw [cvtImage, if_neg (by omega), if_neg (by omega)]
  rfl

end

theorem cvtInserts_iff (f : LaneWord) : cvtInserts f = true ↔ tyCount f.sub = 1 ∧ 1 < tyCount f.ty := by
  simp [cvtInserts]

/-- What a conversion keeps of its destination: the register where it inserts an element. -/
def Group.cvtOld (x : Group) (f : LaneWord) (t : Nat) : Nat × Bool := if cvtInserts f then x.srcReg f.ty t f.vd.toNat else (0, false)

theorem Group.cvtOld_of_same (x : Group) (f : LaneWord) (t : Nat) (h : tyCount f.sub = tyCount f.ty) : x.cvtOld f t = (0, false) :=
  if_neg fun hin => by have := (cvtInserts_iff f).mp hin; omega

/-- A type of several elements has one register, which is read as it stands when clean. -/
theorem Group.srcReg_of_clean (x : Group) {ty : BitVec 4} {t r : Nat} (hmany : 1 < tyCount ty) (hclean : x.vBad t r = false) :
    (x.srcReg ty t r).1 = (x.vRaw t r).toNat := by
  have hall : ∀ ty : BitVec 4, 1 < tyCount ty → wide ty ≠ 2 := by decide
  simp [Group.srcReg_eq, hall ty hmany, hclean]

/-- What a conversion computes for a lane. -/
def Group.cvtResult (x : Group) (f : LaneWord) (t : Nat) : Nat × Bool :=
  (cvtImage f (x.srcA f 1 f.sub t).1 (x.cvtOld f t).1, (x.srcA f 1 f.sub t).2 || (x.cvtOld f t).2)

theorem laneComputes_vcvt (s : State) (f : LaneWord) :
    LaneComputes (.vcvt f) s f
      (regA f 1 f.sub ++ if tyCount f.sub = 1 ∧ 1 < tyCount f.ty then [(f.vd.toNat, wide f.ty)] else []) (f.vd.toNat, wide f.ty)
      ((own s).cvtResult f) := by
  have h := laneComputes_of (i := .vcvt f) (s := s) rfl
  simp only [cvtInserts_iff] at h
  refine laneComputes_congr h fun l => ?_
  simp only [Group.cvtResult, Group.cvtOld, cvtInserts_iff]

/-! ## Packing (07 R194) -/

/-- The bits below a number's shift are those of what is added to it. -/
theorem part_add_two_pow_mul {w i k : Nat} (h : w * (i + 1) ≤ k) (a b : Nat) : part w (a + 2 ^ k * b) i = part w a i := by
  obtain ⟨j, rfl⟩ := Nat.exists_eq_add_of_le h
  have hsplit : 2 ^ (w * (i + 1) + j) * b = 2 ^ (w * i) * (2 ^ w * (2 ^ j * b)) := by ring
  rw [part, part, hsplit, Nat.add_mul_div_left _ _ (Nat.two_pow_pos _), Nat.add_mul_mod_self_left]

/-- Elements packed by their numbers. -/
theorem part_packElems_range (ty : BitVec 4) (g : Nat → Nat) {n i : Nat} (hi : i < n) :
    part (tyWidth ty) (packElems ty ((List.range n).map g)) i = g i % 2 ^ tyWidth ty := by
  rw [part_packElems ty _ (by simpa using hi), List.getElem_map, List.getElem_range]

/-- 07 R194: the codes of a block. -/
def blockCodes (rm sc : Nat) (y : Nat → FVal) : Nat := packElems 10#4 ((List.range 8).map fun i => blockCode rm sc (y i))

theorem blockCodes_lt (rm sc : Nat) (y : Nat → FVal) : blockCodes rm sc y < 2 ^ 32 :=
  packElems_lt 10#4 ((List.range 8).map fun i => blockCode rm sc (y i))

theorem part_blockCodes (rm sc : Nat) (y : Nat → FVal) {i : Nat} (hi : i < 8) : part 4 (blockCodes rm sc y) i = blockCode rm sc (y i) % 16 :=
  part_packElems_range 10#4 (fun i => blockCode rm sc (y i)) hi

/-- 07 R194, R195: a block is its codes below its scale. -/
theorem packBlock_eq (rule rm : Nat) (x : Nat → Nat) (m given : Nat) :
    let y := fun i => FVal.mul (fp32.value (x i)) (fp32.value m)
    let sc := blockScale rule ((List.range 8).map y) given
    packBlock rule rm ((List.range 8).map x) m given = blockCodes rm sc y + 2 ^ 32 * sc := by
  simp only [packBlock, blockCodes, List.map_map]
  rfl

section
variable (rule rm : Nat) (x : Nat → Nat) (m given : Nat)

theorem part_packBlock {i : Nat} (hi : i < 8) :
    let y := fun i => FVal.mul (fp32.value (x i)) (fp32.value m)
    part 4 (packBlock rule rm ((List.range 8).map x) m given) i =
      blockCode rm (blockScale rule ((List.range 8).map y) given) (y i) % 16 := by
  intro y
  rw [packBlock_eq, part_add_two_pow_mul (by omega)]
  exact part_blockCodes rm _ y hi

theorem packBlock_scale :
    packBlock rule rm ((List.range 8).map x) m given / 2 ^ 32 =
      blockScale rule ((List.range 8).map fun i => FVal.mul (fp32.value (x i)) (fp32.value m)) given := by
  rw [packBlock_eq, Nat.add_mul_div_left _ _ (Nat.two_pow_pos 32), Nat.div_eq_of_lt (blockCodes_lt ..), Nat.zero_add]

end

/-- What a block pack computes for a lane. -/
def Group.packResult (x : Group) (f : LaneWord) (t : Nat) : Nat × Bool :=
  let xs := (List.range 8).map fun i => x.srcReg 4#4 t (f.va.toNat + i)
  let b := x.srcB f (if f.sub = 2#4 then 3 else 2) 4#4 t
  let c := if f.sub = 2#4 then x.srcC f 0#4 t else (0, false)
  (packBlock f.sub.toNat (rmOf f) (xs.map Prod.fst) b.1 c.1, (xs.any fun v => v.2) || b.2 || c.2)

/-- 07 R195: the scale of the rule `max` is the least from 1 to 0xFE that fits every product of a block. -/
theorem least_blockScale (y : Nat → FVal) (given : Nat) (hproper : ∀ i, (y i).Proper) (hsome : ∃ i, i < 8 ∧ (y i).isZero = false ∧ y i ≠ .nan)
    (hfin : ∀ i, i < 8 → y i ≠ .inf true ∧ y i ≠ .inf false) :
    let sc := blockScale 0 ((List.range 8).map y) given
    0 < sc ∧ sc ≤ 0xFE ∧ (∀ i sg p q, i < 8 → y i = .fin sg p q → sc < 0xFE → e3m5Ge sc p (6 * q) = true) ∧
      (1 < sc → ∃ i sg p q, i < 8 ∧ y i = .fin sg p q ∧ e3m5Ge (sc - 1) p (6 * q) = false) := by
  have hmem {v : FVal} : v ∈ (List.range 8).map y ↔ ∃ i, i < 8 ∧ y i = v := by simp
  obtain ⟨i, hi, hval⟩ := hsome
  obtain ⟨n, d, neg, hamax, hn, hd, hfrom, hmax⟩ := amaxOf_spec (ys := (List.range 8).map y)
    (by simpa using fun i _ => hproper i)
    (fun v hv neg => by
      obtain ⟨k, hk, rfl⟩ := hmem.mp hv
      cases neg
      · exact (hfin k hk).2
      · exact (hfin k hk).1)
    ⟨y i, hmem.mpr ⟨i, hi, rfl⟩, hval⟩
  obtain ⟨hpos, hle, hfits, hleast⟩ := blockScale_max_spec given hamax hn
  obtain ⟨k, hk, hyk⟩ := hmem.mp hfrom
  exact ⟨hpos, hle, fun j sg p q hj hyj hlt => e3m5Ge_of_le hd (hmax sg p q (hmem.mpr ⟨j, hj, hyj⟩)) (hfits hlt),
    fun hlt => ⟨k, neg, n, d, hk, hyk, hleast hlt⟩⟩

/-! ## Unpacking (07 R196) -/

/-- The registers of an unpacked block are its values. -/
theorem part_unpackBlock (rm codes sc m : Nat) {i : Nat} (hi : i < 8) :
    part 32 (unpackBlock rm codes sc m) i = blockValue rm (part 4 codes i) (sc % 256) m % 2 ^ 32 := by
  have himage : unpackBlock rm codes sc m =
      packElems 0#4 ((List.range 8).map fun i => blockValue rm (elem 10#4 codes i) (sc % 256) m) := by
    have hmod (i : Nat) : blockValue rm (elem 10#4 codes i) (sc % 256) m % 2 ^ 32 = blockValue rm (elem 10#4 codes i) (sc % 256) m :=
      Nat.mod_eq_of_lt (blockValue_lt ..)
    have hw : tyWidth 0#4 = 32 := rfl
    simp only [unpackBlock, packElems, hw, List.range_succ, List.range_zero, List.nil_append, List.cons_append, List.map_cons, List.map_nil,
      List.sum_cons, List.sum_nil, List.foldr_cons, List.foldr_nil, hmod]
    ring
  rw [himage]
  exact part_packElems_range 0#4 (fun i => blockValue rm (elem 10#4 codes i) (sc % 256) m) hi

/-! ## The three rows -/

/-- Settles O17: a conversion by its shape, a block by its codes and the search for its scale, and unpacking by its elements. -/
theorem laneConversions : Obligations.LaneConversions := by
  intro s f x rm conv cs cd e a d
  refine ⟨fun _ => ⟨x.cvtResult f, laneComputes_vcvt s f, fun hsame l i hi => ⟨part_cvtImage_each f _ _ hsame hi, ?same⟩,
    fun hone hmany l i hi hclean => ?insert, fun hmany hone l => cvtImage_extract f _ _ hmany hone⟩, ?pack, ?unpack⟩
  case same => rw [Group.cvtResult, x.cvtOld_of_same f l hsame, Bool.or_false]
  case insert =>
    have hold : (x.cvtOld f l).1 = (x.vRaw l f.vd.toNat).toNat := by
      rw [Group.cvtOld, if_pos ((cvtInserts_iff f).mpr ⟨hone, hmany⟩), x.srcReg_of_clean hmany hclean]
    rw [Group.cvtResult, part_cvtImage_insert f _ _ hone hmany hi, hold]
    rfl
  case pack =>
    intro given n xs m c ys sc
    have hval (l : Nat) : (x.packResult f l).1 = packBlock f.sub.toNat rm ((List.range 8).map fun i => (xs l i).1) (m l).1 (c l).1 := by
      simp only [Group.packResult, List.map_map]
      rfl
    refine ⟨x.packResult f, laneComputes_of (res := fun y => y.packResult f) rfl, fun l => ⟨fun i hi => ?code, ?scale, ?bad⟩, fun hmax l => ?least⟩
    case code => exact (congrArg (part 4 · i) (hval l)).trans (part_packBlock _ _ _ _ _ hi)
    case scale => exact (congrArg (· / 2 ^ 32) (hval l)).trans (packBlock_scale ..)
    case bad =>
      simp only [Group.packResult, List.any_map]
      rfl
    case least =>
      have hrule : sc l = blockScale 0 ((List.range 8).map (ys l)) (c l).1 := by simp only [sc, hmax]; rfl
      rw [hrule]
      exact least_blockScale (ys l) (c l).1 fun i => (fp32.proper_value _).mul (fp32.proper_value _)
  case unpack =>
    exact ⟨_, laneComputes_of rfl, fun l i hi => part_unpackBlock _ _ _ _ hi⟩

end Sys2Proof.Machine
end
